-- ==== Sys2Proof/Word.lean ====
section
/-! DEFINITION. The word types of the block: bytes, and words of the widths the manual names (R11, R12, R15, R54). -/

namespace Sys2Proof

/-- One byte (R11). -/
abbrev Byte := BitVec 8

/-- A 16-bit field. -/
abbrev U16 := BitVec 16

/-- A register, a scalar register or a u32 field (R15). -/
abbrev U32 := BitVec 32

/-- A command word, a _LO/_HI pair or a u64 field (R15, R560). -/
abbrev U64 := BitVec 64

/-- An XF accumulator: a two's-complement integer N with weight 2^-320 (R54). -/
abbrev XF := BitVec 640

/-- A string of bytes in address order. -/
abbrev Bytes := List Byte

/-- A memory: pairs of an address and a byte (the form is `Machine.memWf`). -/
abbrev Mem := List Host.Cell

end Sys2Proof
end

