-- ==== Sys2Proof/Syntax.lean ====
section
/-! DEFINITION. The commands of the block: one constructor for each row of spec/opcode_table.json, with the row's operands.
What comes from outside with a command (pin levels, beats, flash answers, how a read through the wells ends) is an operand. -/

namespace Sys2Proof

/-- The three supplies, by their power-good inputs (16 Table 16-1). -/
inductive Supply where
  | core | sram | aon
deriving DecidableEq, Repr

/-- The two sources of a load (R573). -/
inductive LoadSource where
  | stream | well0
deriving DecidableEq, Repr

/-- How the reads that a whole step makes through the wells end: all done; some 64-byte quarters returned with poison, by
their numbers in host memory; or the read of an address completed with status 2 or 3 (Table 11-2). -/
inductive ReadEnd where
  | ok
  | poisoned (quarters : List Nat)
  | error (addr : Nat)
deriving DecidableEq, Repr

/-- What the flash answers at start-up (R536). -/
structure FlashId where
  jedec : Nat
  sfdp : Bool
  erase4k : Bool
  density : Nat
deriving DecidableEq, Repr

/-- How a unit's almanac test ends (R545). -/
inductive TestEnd where
  | passTally | timeout | halted
deriving DecidableEq, Repr

/-- A core memory, numbered as CORE_MEM_ERR numbers it (17 Table 17-9). -/
inductive CoreMem where
  | prog | scratch | acc | sdata
deriving DecidableEq, Repr

/-- Bit errors met by a read of a core memory: the stored word and which of its 80 bits (R102) read wrong; 0 to 63 data, 64
to 77 check bits, 78 the overall parity, 79 poison. -/
structure MemErr where
  mem : CoreMem
  word : Nat
  bits : List Nat
deriving DecidableEq, Repr

/-- A result record that a sieve merge reads: where it stands, and the measure and mode it was made with, which the record
itself does not hold (04 Table 04-5). -/
structure MergeIn where
  addr : Nat
  measure : Nat
  router : Bool
deriving DecidableEq, Repr

/-- What the vector engine's next step is: the pass at the head of its queue, or a sieve merge (R147), for which the manual
gives no slot: its input records, the output address and k'. -/
inductive VecJob where
  | pass
  | merge (inputs : List MergeIn) (out k : Nat)
deriving DecidableEq, Repr

/-- Where a chunk or a notice comes from: its link (with its virtual channel), or across the green. -/
inductive Via where
  | link (vc : Nat)
  | green
deriving DecidableEq, Repr

/-- The name of an operation: group, operation sequence, step (R284). -/
structure OpName where
  group : Nat
  seq : Nat
  step : Nat
deriving DecidableEq, Repr

/-- The name of a STEP wave (R597). -/
structure WaveName where
  group : Nat
  purpose : Nat
  seq : Nat
  step : Nat
deriving DecidableEq, Repr

/-- Which chunk bolts: a cell's output at its adder, a broadcast chunk received by its chunk index, or a market chunk by
its gate and its place among those that gate holds (R343). -/
inductive BoltRef where
  | cell (op : OpName) (j : Nat)
  | bcast (op : OpName) (index : Nat)
  | market (g i : Nat)
deriving DecidableEq, Repr

/-- An uncorrectable error that a gate meets while it works on a chunk: in a granary slot, in a retention slot, or in the
roll cache, whose entry the steward reloads or fails to (R518, Table 15-1). -/
inductive GateErr where
  | granary | retention
  | cache (reloads : Bool)
deriving DecidableEq, Repr

/-- The commands. Core, gate and well numbers are c, g and w; `rd` says how the step's reads end. -/
inductive Instr where
  -- supplies and resets
  | powerGoodRise (p : Supply)
  | powerGoodFall (p : Supply)
  | powerOnReset (low : Bool)
  | softReset (low : Bool)
  -- start-up and loads
  | romSelfTest (pass : Bool)
  | firmwareLoad (src : LoadSource) (rd : ReadEnd)
  | charterLoad (src : LoadSource) (rd : ReadEnd)
  | loadAbort
  | loadData (v : U32)
  | bookScan (flash : FlashId)
  | baselineTest (fails : List Nat)
  -- test access
  | wsBypass
  | wsExtest
  | wsIntestScan
  | svIdcode
  | svMbist
  -- the command FIFO
  | cmdPortWord (v : U64)
  | cmdRegisterWord (hi : U32)
  | step
  | layerReady
  | curfew
  | barrier
  | reset
  | hinge
  | hingeSwitch (rd : ReadEnd)
  | coreSave (c : Nat)
  | coreRestore (c : Nat) (rd : ReadEnd)
  | program (rd : ReadEnd)
  | dispatchForward (rd : ReadEnd)
  | dispatchReplay (rd : ReadEnd)
  | ret (rd : ReadEnd)
  | expand (rd : ReadEnd)
  | declare (rd : ReadEnd)
  | tally (rd : ReadEnd)
  | tallyComplete (rd : ReadEnd)
  | almLoad (rd : ReadEnd)
  | almRun
  | almTestResult (how : TestEnd) (got : U64)
  | post
  -- registers
  | readLoCapture (m addr : Nat)
  | readClear (m addr : Nat)
  | pairWriteLo (m addr : Nat) (v : U32)
  | registerWrite (m addr : Nat) (v : U32)
  | stagedWrite (addr : Nat) (v : U32)
  | keyTurn
  | rollLoad (rd : ReadEnd)
  | rollConfirm
  | forceArrival
  | linkEnableSet (g : Nat)
  | linkDisable (g : Nat)
  | linkRetrain (g : Nat)
  | normRelease
  | normAbandon
  | expTableLoad
  | expTableLoadDone (rd : ReadEnd)
  | expPin (slot : Nat)
  | expUnpin (slot : Nat)
  | coreHaltRequest (c : Nat)
  | coreResume (c : Nat)
  | coreSingleStep (c : Nat)
  | bookFormat
  | bookDump
  -- links
  | laneFail (g l : Nat)
  | phyLost (g : Nat)
  | linkBringupStart (g : Nat)
  | trainFlit (g : Nat) (flit : Bytes)
  | trainTimeout (g : Nat)
  | flitReceive (g : Nat) (b0 b1 : Option Bytes) (bufErr : Bool)
  | ackReceive (g ack : Nat) (nak : Bool)
  | ackSend (g : Nat)
  | creditFlitSend (g : Nat)
  | replayTimeout (g : Nat)
  | greenFlitReceive (unit : Nat) (parityOk : Bool)
  -- chunks and notices
  | chunkSend (g vc : Nat) (err : Option GateErr)
  | chunkReceive (g : Nat) (via : Via) (err : Option GateErr)
  | maskFrameReceive (g vc : Nat)
  | chunkBolt (r : BoltRef)
  | shadowCopyReceive (g : Nat)
  | shadowResult (g : Nat) (err : U64)
  | boltNotice (g : Nat) (via : Via)
  | revokeNotice (g : Nat) (via : Via)
  | resendNotice (g : Nat) (via : Via)
  | closeNotice (g : Nat) (via : Via)
  | reabsorbDone
  | cackNotice (g : Nat) (via : Via)
  | askNotice (g : Nat) (via : Via)
  | grantNotice (g : Nat) (via : Via)
  | granaryGrant (g pool : Nat)
  | stepNoticeUp (g : Option Nat)
  | stepNoticeDown (g : Nat)
  | localResetEnd
  | deadlineExpire (op : OpName)
  | confirmationLimit (op : OpName)
  | orphanLimit (op : OpName)
  | curfewWaveTimeout (wave : WaveName)
  -- the market
  | crierFrameReceive (g : Nat)
  | countsFrame
  | stallAllocate (ctx : Nat)
  | grantFrame (rd : ReadEnd)
  | rowFrame
  | returnRowFrame
  | countsRequest
  | capacityAdmit (ctx : Nat)
  | countsReply (rd : ReadEnd)
  | postingComplete (ctx : Nat)
  | postingTimeout (ctx : Nat)
  | combine (ctx token : Nat) (rd : ReadEnd)
  | combineTimeout (ctx : Nat)
  -- forges
  | normOpen
  | forgeApply (w : Nat) (err : U64 × U64) (rd : ReadEnd)
  | forgeBlockApplied (w : Nat)
  -- wells and expanders
  | wellRequestIssue (w : Nat)
  | wellReadBeat (w tag : Nat) (data : Bytes) (poison : Nat)
  | wellCompletion (w tag status : Nat)
  | wellTimeout (w tag : Nat)
  | wellRefresh (w : Nat)
  | expanderFetch (w : Nat)
  | expandBlock (w : Nat)
  -- long words and the scalar engine
  | longWordIssue (c : Nat) (errs : List MemErr)
  | add (c rd rs1 rs2 : Nat)
  | sub (c rd rs1 rs2 : Nat)
  | mul (c rd rs1 rs2 : Nat)
  | and (c rd rs1 rs2 : Nat)
  | or (c rd rs1 rs2 : Nat)
  | xor (c rd rs1 rs2 : Nat)
  | shl (c rd rs1 rs2 : Nat)
  | shr (c rd rs1 rs2 : Nat)
  | sra (c rd rs1 rs2 : Nat)
  | slt (c rd rs1 rs2 : Nat)
  | sltu (c rd rs1 rs2 : Nat)
  | addi (c rd rs1 : Nat) (imm : U16)
  | andi (c rd rs1 : Nat) (imm : U16)
  | ori (c rd rs1 : Nat) (imm : U16)
  | xori (c rd rs1 : Nat) (imm : U16)
  | lui (c rd : Nat) (imm : U16)
  | li (c rd : Nat) (imm : U16)
  | ld (c : Nat) (errs : List MemErr)
  | st (c : Nat) (errs : List MemErr)
  | loop (c level cnt e : Nat)
  | br (c rs : Nat) (sense : Bool) (o : BitVec 13)
  | dput (c d q rs : Nat)
  | setvl (c rs1 : Nat)
  | setcnt (c k source : Nat)
  | setcmp (c k : Nat) (eq : Bool) (rs : Nat)
  | rdcnt (c rd k : Nat)
  | rdlp (c rd level : Nat)
  | layout (c code : Nat)
  -- the other engines
  | vectorRun (c : Nat) (job : VecJob) (errs : List MemErr)
  | eccWriteback (c : Nat)
  | mac (c : Nat) (errs : List MemErr)
  | preload (c : Nat) (errs : List MemErr)
  | drain (c : Nat) (errs : List MemErr)
  | load (c : Nat)
  | loadExpand (c : Nat)
  | store (c : Nat) (errs : List MemErr)
  | handoff (c : Nat) (errs : List MemErr) (check : U64 × U64)
  | storeToCore (c : Nat) (errs : List MemErr)
  | opn (c : Nat) (errs : List MemErr)
  | loadComplete (c : Nat)
  | storeComplete (c : Nat)
  | vectorPassComplete (c : Nat)
  | matrixOpComplete (c : Nat)
  -- the sync slot
  | wait (c k : Nat)
  | waitq (c engine depth : Nat)
  | fence (c : Nat)
  | signal (c : Nat) (v : U16)
  | halt (c : Nat)
  | take (c : Nat)
  | syncRelease (c : Nat)
  -- the steward's timers and lists; rows added at the table's end
  | statusWindowExpire (unit : Nat)
  | bookCoalesceTimer (unit : Nat) (memErr : Bool)
  | exposureListWrite
  | gateTxtake (g : Nat) (take0 take1 : Bool)
  | grantDeadline (ctx : Nat)
  | confirmationIncomplete (group : Nat)
deriving DecidableEq, Repr

end Sys2Proof
end

