-- ==== Sys2Proof/Machine/Bits.lean ====
section
/-! DEFINITION. Byte order, bit fields and small list helpers shared by every unit (R11, R12). -/

namespace Sys2Proof.Machine

/-- The unsigned value of bytes in little-endian order (R11). -/
def leNat : Bytes → Nat
  | [] => 0
  | b :: bs => b.toNat + 256 * leNat bs

/-- `n` little-endian bytes of a number (R11). -/
def natLe : Nat → Nat → Bytes
  | 0, _ => []
  | n + 1, v => BitVec.ofNat 8 v :: natLe n (v / 256)

/-- Bits high:low of a number (R12). -/
def field (v hi lo : Nat) : Nat := (v / 2 ^ lo) % 2 ^ (hi + 1 - lo)

/-- One bit of a number (R12). -/
def bitOf (v i : Nat) : Bool := (v / 2 ^ i) % 2 == 1

/-- A flag as a number. -/
def b2n (b : Bool) : Nat := if b then 1 else 0

/-- A list cut or padded with `d` to exactly `n` entries. -/
def fit (d : α) (n : Nat) (xs : List α) : List α := xs.take n ++ List.replicate (n - xs.length) d

/-- `n` bytes at an offset of a byte string; bytes beyond its end read zero. -/
def slice (bs : Bytes) (off n : Nat) : Bytes := fit 0 n ((bs.drop off).take n)

/-- The number held little-endian at an offset. -/
def numAt (bs : Bytes) (off n : Nat) : Nat := leNat (slice bs off n)

/-- The byte string with `new` written at an offset (its length is kept when the new bytes lie inside). -/
def splice (bs : Bytes) (off : Nat) (new : Bytes) : Bytes :=
  bs.take off ++ new ++ bs.drop (off + new.length)

/-- A zero byte string. -/
def zeros (n : Nat) : Bytes := List.replicate n 0

/-- Whether every byte of a range is zero. -/
def allZero (bs : Bytes) (off n : Nat) : Bool := (slice bs off n).all (· == 0)

/-- Rounding up to a multiple. -/
def roundUp (a m : Nat) : Nat := (a + m - 1) / m * m

/-- A counter that saturates at 0xFFFF_FFFF. -/
def satInc (v : U32) (n : Nat) : U32 := BitVec.ofNat 32 (min (v.toNat + n) 0xFFFFFFFF)

/-- Sign extension of the low `w` bits of a number, as an integer. -/
def signed (w v : Nat) : Int :=
  if v % 2 ^ w < 2 ^ (w - 1) then (v % 2 ^ w : Nat) else ((v % 2 ^ w : Nat) : Int) - (2 ^ w : Nat)

/-- The two's-complement code of an integer in `w` bits. -/
def unsignedOf (w : Nat) (v : Int) : Nat := (v % ((2 ^ w : Nat) : Int)).toNat

/-- Split a list into pieces of `n` (at most `fuel` pieces). -/
def chunksOf (n : Nat) : Nat → List α → List (List α)
  | 0, _ => []
  | _ + 1, [] => []
  | fuel + 1, xs => xs.take n :: chunksOf n fuel (xs.drop n)

/-- Replace the first entry that satisfies `p`. -/
def replaceFirst (p : α → Bool) (f : α → α) : List α → List α
  | [] => []
  | x :: xs => if p x then f x :: xs else x :: replaceFirst p f xs

/-- Replace every entry that satisfies `p`. -/
def mapWhere (p : α → Bool) (f : α → α) (xs : List α) : List α := xs.map (fun x => if p x then f x else x)

/-- Insert into a list kept in ascending order of a key; later entries of one key go after earlier ones. -/
def insertBy (key : α → Nat) (a : α) : List α → List α
  | [] => [a]
  | x :: xs => if key a < key x then a :: x :: xs else x :: insertBy key a xs

/-- Stable sort by a key. -/
def sortBy (key : α → Nat) (xs : List α) : List α := xs.foldl (fun acc a => insertBy key a acc) []

/-- Remove repeats, keeping the first. -/
def dedup [BEq α] (xs : List α) : List α :=
  xs.foldl (fun acc a => if acc.contains a then acc else acc ++ [a]) []

/-- Position of the highest set bit; 0 for 0. -/
def log2 (n : Nat) : Nat := Nat.log2 n

/-! ### Tables: sparse maps from a number, entries in ascending order, none equal to the default -/

/-- The entry of a key, or the default. -/
def tget (d : α) : List (Nat × α) → Nat → α
  | [], _ => d
  | (k, v) :: t, i => if k = i then v else if i < k then d else tget d t i

/-- The table without a key. -/
def terase : List (Nat × α) → Nat → List (Nat × α)
  | [], _ => []
  | (k, v) :: t, i => if k = i then t else if i < k then (k, v) :: t else (k, v) :: terase t i

/-- The table with an entry put in its place in ascending order. -/
def tinsert : List (Nat × α) → Nat → α → List (Nat × α)
  | [], i, a => [(i, a)]
  | (k, v) :: t, i, a =>
    if k = i then (i, a) :: t else if i < k then (i, a) :: (k, v) :: t else (k, v) :: tinsert t i a

/-- Set a key: an entry equal to the default is not listed, so equal tables are equal data. -/
def tset [DecidableEq α] (d : α) (t : List (Nat × α)) (i : Nat) (a : α) : List (Nat × α) :=
  if a = d then terase t i else tinsert t i a

/-- Whether the keys of a table rise strictly. -/
def keysRise : List (Nat × α) → Bool
  | [] => true
  | c :: t => t.all (fun e => decide (c.1 < e.1)) && keysRise t

/-- The canonical form of a table: keys rise strictly, and no entry equals what an unlisted key reads as. -/
def tableWf [DecidableEq α] (d : α) (t : List (Nat × α)) : Bool := keysRise t && t.all (fun e => decide (e.2 ≠ d))

/-- Apply a function to the entry of a key. -/
def tmod [DecidableEq α] (d : α) (t : List (Nat × α)) (i : Nat) (f : α → α) : List (Nat × α) :=
  tset d t i (f (tget d t i))

end Sys2Proof.Machine
end

