-- ==== Sys2Proof/Machine/State.lean ====
section
/-! DEFINITION. The state of the block as plain data, the reasons a step stops, and the state right after reset. Every piece
of state that the manual names stands here under the name INVENTORY.md gives it; numbers that are only counts or indexes
are `Nat`, words that software sees are bit vectors. -/

namespace Sys2Proof.Machine

/-! ### Pins and the management port -/

/-- The wrapper instructions (R567). -/
inductive WrapIns where
  | bypass | extest | intestScan | idcode | mbist
deriving DecidableEq, Repr

/-- Supply and reset inputs (R550 to R554), the test wrapper (R567) and the outputs of the last access (R563). -/
structure Pins where
  pgCore : Bool := true
  pgSram : Bool := true
  pgAon : Bool := true
  rstPwrN : Bool := true
  rstSoftN : Bool := true
  wrap : WrapIns := .bypass
  wso : U64 := 0
  mgtRdata : U32 := 0
  mgtErr : Bool := false
deriving DecidableEq, Repr

/-- Per-master state of the management port: _HI holding copies (R16), _LO holding copies (R583), core banks (R584), and
the low command word (R561). -/
structure Mgt where
  holdHi : List (Nat × (Nat × U32)) := []
  holdLo : List (Nat × (Nat × U32)) := []
  bank : List (Nat × Nat) := []
  cmdLo : U32 := 0
deriving DecidableEq, Repr

/-- The always-on store (R553): records kept in steward memory, the time counter, the reset cause. -/
structure Aon where
  held : List Bytes := []
  timeUs : Nat := 0
  resetCause : Nat := 0
deriving DecidableEq, Repr

/-! ### Start-up and the charter -/

/-- Start-up stage and loads (16 Table 16-10). -/
structure Boot where
  stage : Nat := 0
  selfTestFailed : Bool := false
  memErr : Bool := false
  fwVersion : Nat := 0
  target : Bool := false
  source : Bool := false
  base : U64 := 0
  len : Nat := 0
  loadState : Nat := 0
  reason : Nat := 0
  record : Nat := 0
  buf : Bytes := []
deriving DecidableEq, Repr

/-- A sliver: one contiguous range of a tensor at a core under a map (R21). -/
structure Sliver where
  tensor : Nat
  core : Nat
  map : Nat
  first : Nat
  count : Nat
deriving DecidableEq, Repr

/-- A tensor record (06 Table 06-1). -/
structure TensorRec where
  tensor : Nat
  mode : Nat
  qclass : Nat
  param : Nat
  flags : Nat
  rows : Nat
  cols : Nat
  glean0 : Nat
  glean1 : Nat
  statBase : Nat
  sketch : Nat
  group : Nat
  inst : Nat
  seed : Nat
deriving DecidableEq, Repr

/-- A forge record (12 Table 12-1). -/
structure ForgeRec where
  tensor : Nat
  family : Nat
  flags : Nat
  group : Nat
  seq : Nat
  bgroup : Nat
  bseq : Nat
  wbase : Nat
  lbase : Nat
  mbase : Nat
  sbase : Nat
  first : Nat
  count : Nat
  eta : U32
  lam : U32
  beta1 : U32
  beta2 : U32
  eps : U32
deriving DecidableEq, Repr

/-- A move record (R462). -/
structure MoveRec where
  kind : Nat
  low : Bool
  group : Nat
  seq : Nat
  tensor : Nat
  first : Nat
  count : Nat
deriving DecidableEq, Repr

/-- A phase map (R458). -/
structure PhaseMap where
  number : Nat
  flags : Nat
  normGroup : Nat
  normSeq : Nat
  tau : U32
  seed : Nat
  tensors : List TensorRec
  forges : List ForgeRec
  moves : List MoveRec
deriving DecidableEq, Repr

/-- One quantisation class (05 Table 05-2). -/
structure QClass where
  ctl : U32
  ratio : U32
  thr4 : U32
  thr6 : U32
  thr8 : U32
deriving DecidableEq, Repr

/-- Where a core belongs (16 Table 16-9, CORES). -/
structure CoreRole where
  gate : Nat
  role : Nat
  index : Nat
deriving DecidableEq, Repr

/-- The charter in force: every register whose reset value reads "Charter", and the records (16 Table 16-9). -/
structure Charter where
  member : Nat
  nodeSize : Nat
  ctxBase : Nat
  curfewGroup : Nat
  wellGroups : Nat
  fencedCores : List Nat
  fencedGates : List Nat
  roles : List CoreRole
  slivers : List Sliver
  carve : List Nat
  formats : Nat
  qclasses : List QClass
  rollDir : Nat
  rollView : Nat
  mktRoute : Nat
  mktCtx : Nat
  deadline : Nat
  quorum : Nat
  sampleLog2 : Nat
  sampleSeed : U64
  gran : List U32
  ranges : List U32
  rangeMap : Bytes
  parkBase : List Nat
  parkSlots : List Nat
  almScratch : Nat
  maps : List PhaseMap
  jedec : Nat
  density : Nat
  serial : Nat
  rated : Nat
  divider : Nat
  almKey : Bytes
  links : List Nat
  digest : Bytes
  market : Bool := false
deriving DecidableEq, Repr

/-- The command FIFO (R560, R561). -/
structure Cmd where
  fifo : List U64 := []
  overflow : Bool := false
deriving DecidableEq, Repr

/-! ### Steps, digests, rings -/

/-- C and K terms and exclusions of one operation, for its tensor digest (R514). -/
structure OpTally where
  op : OpName
  c : U64
  k : U64
  excluded : Nat
  cells : Nat
  flags : Nat
  settled : Nat
deriving DecidableEq, Repr

/-- A TALLY or DECLARE in progress (R513, R516). -/
structure TallyJob where
  declare : Bool
  addr : Nat
  step : Nat
deriving DecidableEq, Repr

/-- A layer that LAYER_READY has started (R27), with the contribution weights fixed at that moment (R203). -/
structure ReadyLayer where
  step : Nat
  layer : Nat
  weights : List (Nat × Nat)
deriving DecidableEq, Repr

/-- Step state, tallies and digests (chapter 14). -/
structure StepSt where
  opened : Option Nat := none
  firstStep : Option Nat := none
  lastCurfew : Option Nat := none
  curfewStarted : Bool := false
  ready : List ReadyLayer := []
  mode : Nat := 0
  modeNext : Nat := 0
  modeLast : Nat := 0
  tC : U64 := 0
  tK : U64 := 0
  tF : U64 := 0
  tI : U64 := 0
  opTallies : List OpTally := []
  lastF : U64 := 0
  lastI : U64 := 0
  lastC : U64 := 0
  lastK : U64 := 0
  digest : Bytes := List.replicate 32 0
  progDigest : Bytes := List.replicate 32 0
  retry : U32 := 0
  refresh : U32 := 0
  tallyVal : U64 := 0
  tallyDone : U32 := 0
  tallyBusy : Bool := false
  mismatch : Bool := false
  jobs : List TallyJob := []
  resetDone : Bool := true
deriving DecidableEq, Repr

/-- A ring in host memory with its queue (R316, R515, R525). -/
structure Ring where
  base : U64 := 0
  ctl : Nat := 0
  log2 : Nat := 9
  head : Nat := 0
  tail : Nat := 0
  lap : Bool := true
  queue : List Bytes := []
  lost : U32 := 0
deriving DecidableEq, Repr

/-- BLK_GFAIL (09 Table 09-7). -/
structure GFail where
  group : Nat := 0
  reason : Nat := 0
  valid : Bool := false
deriving DecidableEq, Repr

/-! ### Unit history, book, almanac -/

/-- What the steward keeps of one unit (R527, R528, R540): status, times and classes of its faults, its last book record,
the faults held since, and the step of its last agreeing check (R531). -/
structure UnitSt where
  status : Nat := 0
  faults : List (Nat × Nat) := []
  lastRec : Option Nat := none
  heldN : Nat := 0
  heldFirst : Nat × Nat := (0, 0)
  heldMixed : Bool := false
  lastAgree : Option Nat := none
deriving DecidableEq, Repr

/-- One waiting exposure trigger (R531, R532). -/
structure Trigger where
  unit : Nat
  cls : Nat
  step : Nat
  seq : Nat
deriving DecidableEq, Repr

structure Expose where
  base : U64 := 0
  size : Nat := 0
  ready : Bool := false
  truncated : Bool := false
  lost : Bool := false
  waiting : List Trigger := []
deriving DecidableEq, Repr

/-- The parish book (R535 to R541). `flash` lists the bytes of the flash that are not erased. -/
structure Book where
  flash : Mem := []
  flashId : Option FlashId := none
  bound : Bool := false
  readonly : Bool := false
  unusable : Bool := false
  warn : Bool := false
  stopped : Bool := false
  scanning : Bool := false
  sector : Nat := 0
  slot : Nat := 0
  lap : Nat := 0
  erases : List (Nat × Nat) := []
  dumpBase : U64 := 0
  dumpLen : U32 := 0
  wear : Nat := 0
  window : U32 := 0x15180
  seq : U32 := 0
  bad : U32 := 0
  memLost : U32 := 0
  query : Nat := 0
deriving DecidableEq, Repr

/-- One test of an installed almanac (15 Table 15-8) with the tally of its pattern. -/
structure AlmTest where
  unitClass : Nat
  offset : Nat
  len : Nat
  budget : Nat
  expected : U64
  patTally : U64
deriving DecidableEq, Repr

/-- ALM_RUN in progress (R544). -/
structure AlmRunSt where
  test : Nat
  next : Nat
  left : Nat
deriving DecidableEq, Repr

structure Alm where
  tests : List AlmTest := []
  installed : Bool := false
  pkg : Nat := 0
  serial : U32 := 0
  highest : Nat := 0
  resultBase : U64 := 0
  run : Option AlmRunSt := none
  pass : U32 := 0
  fail : U32 := 0
  results : Nat := 0
deriving DecidableEq, Repr

/-! ### Forge and expander state of the whole block -/

/-- What the forges latched for a step (R441, R592). -/
structure Latched where
  step : Nat
  kappa : U32
  lrScale : U32
deriving DecidableEq, Repr

/-- Block-wide forge, norm and phase state (12 Table 12-6, 17 Table 17-4). -/
structure ForgeB where
  scaleLive : U32 := 0x3F800000
  scaleShadow : U32 := 0x3F800000
  stepLive : U32 := 0xFFFFFFFF
  stepShadow : U32 := 0xFFFFFFFF
  pendScale : Bool := false
  pendStep : Bool := false
  turns : Nat := 0
  clip : U32 := 0x3F800000
  latched : Option Latched := none
  sent : Bool := false
  result : Bool := false
  clean : Bool := false
  hold : Bool := false
  heldStep : Nat := 0
  heldKappa : U32 := 0x3F800000
  abandoned : Option Nat := none
  expect : U32 := 0
  seen : U32 := 0
  failed : Nat := 0
  ownSq : XF := 0
  map : Nat := 0
  hinging : Bool := false
  hingeGroups : List Nat := []
  hingeReady : Bool := false
  switched : Bool := false
  phase : Nat := 0
  wasEval : Bool := false
  target : Nat := 0
  hinges : Nat := 0
deriving DecidableEq, Repr

/-- A decode table slot (R424 to R426). -/
structure ExpSlot where
  gen : Nat := 0
  valid : Bool := false
  fmt : Nat := 0
  lens : Bytes := []
  pins : Nat := 0
deriving DecidableEq, Repr

structure ExpB where
  src : U64 := 0
  slot : Nat := 0
  gen : Nat := 0
  loading : Option (Nat × Nat × Nat) := none
  busy : Bool := false
  badTable : Bool := false
  pinErr : Bool := false
  slots : List (Nat × ExpSlot) := []
deriving DecidableEq, Repr

/-! ### The roll -/

/-- A view record (08 Table 08-3). -/
structure View where
  memberOf : Bool
  root : Bool
  flat : Bool
  height : Nat
  position : Nat
  node : Nat
  p : Nat
  depth : Nat
  adderGate : Nat
  parentGate : Nat
  parent : Nat
  sibling : Nat
  childCount : Nat
  firstChild : Nat
  weight : Nat
  rootGates : List Nat
deriving DecidableEq, Repr

/-- A loaded group: its directory record (08 Table 08-1), its member list, this member's view and children with gates and
subtree sizes (R332), its mode (R283), whether it has failed, and the operations whose failing CLOSE has passed here
(R341). -/
structure Grp where
  id : Nat
  flat : Bool
  tokenWeighted : Bool
  arrivalOnly : Bool
  cls : Nat
  members : List Nat
  deadline : Nat
  fanout : Nat
  priority : Nat
  waitSlots : Nat
  rootDelivery : Nat
  psum : Nat
  bcastDelivery : Nat
  view : View
  children : List (Nat × Nat)
  subtree : List Nat
  ordered : Bool
  failed : Bool
  failSeen : List OpName := []
deriving DecidableEq, Repr

/-- Roll registers and caches (08 Table 08-4, 10 R370). -/
structure Roll where
  forceArrival : Bool := false
  loaded : Bool := false
  loadErr : Bool := false
  peerErr : Bool := false
  refused : Bool := false
  errGroup : Nat := 0
  errReason : Nat := 0
  groups : List Grp := []
  route : Bytes := []
  confirming : List Nat := []
  hmax : List (Nat × Nat) := []
deriving DecidableEq, Repr

/-! ### Operations and waves -/

/-- One entry of a mask (R332). -/
structure MaskEnt where
  member : Nat
  subtree : Bool
deriving DecidableEq, Repr

/-- A chunk that has arrived at an adder as part of an input (R289). `added` lists the cells it has been added into,
`waitCell` the cell whose reservation its wait slot is charged to (R311). -/
structure InChunk where
  pos : Nat
  member : Nat
  gate : Nat
  bytes : Bytes
  mask : List MaskEnt
  excluded : Nat
  bolted : Bool
  added : List Nat
  waitCell : Option Nat
deriving DecidableEq, Repr

/-- An ASK that an adder holds or has granted (R311). -/
structure AskSt where
  pos : Nat
  member : Nat
  gate : Nat
  base : Nat
  count : Nat
  granted : Bool
  waitCell : Option Nat
deriving DecidableEq, Repr

/-- How far a cell's output has gone (R292, R351). -/
inductive OutPhase where
  | none | queued | sending | sent
deriving DecidableEq, Repr

/-- A cell at its adder: mode (R283), reservation (R306), running sum or run (R290, R296), inputs added and excluded,
output, second path (R355 to R358). -/
structure Cell where
  idx : Nat
  ordered : Option Bool := none
  reserved : Bool := false
  requested : Bool := true
  dense : Bool := false
  sums : List (Nat × U32) := []
  xf : List (Nat × XF) := []
  weight : Nat := 0
  addedPos : List Nat := []
  excl : List Nat := []
  exclMask : List MaskEnt := []
  exclCount : Nat := 0
  flags : Nat := 0
  allNil : Bool := true
  unordered : Bool := false
  out : Bytes := []
  outMask : List MaskEnt := []
  outExcluded : Nat := 0
  phase : OutPhase := .none
  bolted : Bool := false
  rebuilds : Nat := 0
  revoked : Bool := false
  resendWanted : Bool := false
  sampled : Bool := false
  shadowSum : List (Nat × U32) := []
  shadowXf : List (Nat × XF) := []
  shadowDense : Bool := false
  shadowWeight : Nat := 0
  shadowAdded : List Nat := []
  shadowOk : Bool := false
  disagreements : Nat := 0
deriving DecidableEq, Repr

/-- A broadcast chunk at this member (R302 to R304). -/
structure BcChunk where
  bytes : Bytes
  mask : List MaskEnt
  excluded : Nat
  fromGate : Nat
  confirmed : Bool
  bolted : Bool
  mine : Bool
  delivered : Bool
deriving DecidableEq, Repr

/-- One operation at this member (R284, R286, R596). `lacking` lists the ranges of broadcast chunks that came and were discarded
(Table 09-4), `stale` the arriving chunks (member, base, count) that a rebuild has asked for again (R350). -/
structure Op where
  name : OpName
  n : Nat
  registered : Bool := false
  bcast : Bool := false
  limit : Nat := 0
  failed : Bool := false
  cells : List Cell := []
  arrived : List InChunk := []
  asks : List AskSt := []
  bc : List BcChunk := []
  closed : List (Nat × Nat) := []
  reabsorbing : List (Nat × Nat) := []
  handed : List (Nat × Nat) := []
  parentGranted : List Nat := []
  sealFails : List (Nat × Nat × Nat) := []
  massFails : List (Nat × Nat) := []
  noted : List (Nat × Nat × Nat) := []
  bcastDone : Nat := 0
  bcastNeed : Option Nat := none
  deliveredCells : List Nat := []
  lacking : List (Nat × Nat) := []
  stale : List (Nat × Nat × Nat) := []
deriving DecidableEq, Repr

/-- A STEP wave at this member (R319 to R321). -/
structure Wave where
  name : WaveName
  localCond : Bool := false
  heard : List (Nat × Nat) := []
  sentUp : Bool := false
  gaveUp : List Nat := []
  present : Nat := 0
  down : Bool := false
deriving DecidableEq, Repr

/-- A CLOSE that a gate holds for an operation that has not opened yet (R340). -/
structure HeldClose where
  gate : Nat
  op : OpName
  base : Nat
  count : Nat
deriving DecidableEq, Repr

/-! ### Cores -/

/-- A comparator (R83). -/
structure Cmp where
  value : U32 := 0
  eq : Bool := false
deriving DecidableEq, Repr

/-- A loop register (R486). -/
structure LoopReg where
  start : Nat := 0
  stop : Nat := 0
  count : Nat := 0
  index : Nat := 0
deriving DecidableEq, Repr

/-- What holds issue (R482). -/
inductive Hold where
  | cmp (k : Nat)
  | queue (engine depth : Nat)
  | fence
deriving DecidableEq, Repr

/-- A slot in an engine queue, with the values and descriptors it copied at issue (R471). -/
inductive QOp where
  | ld (rd addr : Nat)
  | st (addr : Nat) (v : U32)
  | run (chain : Nat) (ins outs : List (BitVec 128)) (rowStart rowEnd : Bool) (vl : Nat)
  | mac (tile : Nat) (a b : BitVec 128) (int : Bool)
  | preload (tile : Nat) (d : BitVec 128)
  | drain (tile : Nat) (a d : BitVec 128) (clear stats : Bool)
  | load (d : BitVec 128) (addr stride : Nat)
  | loadx (base addr blocks : Nat)
  | store (d : BitVec 128) (addr stride : Nat)
  | handoff (base : Nat)
  | stcore (d : BitVec 128) (core addr stride : Nat)
  | opn (base : Nat)
deriving DecidableEq, Repr

structure QEntry where
  op : QOp
  addr : Nat
deriving DecidableEq, Repr

/-- What a started load or store still waits for (R472, R479 to R481). -/
inductive JobKind where
  | well
  | expand
  | openWait (op : OpName) (n : Nat)
  | done
deriving DecidableEq, Repr

structure Job where
  id : Nat
  kind : JobKind
deriving DecidableEq, Repr

/-- A reduction row in progress (R89): the tapped values, in order, and what it counts. -/
structure RowSt where
  vals : List U32 := []
  active : Bool := false
  histo : Bool := false
  expSum : Bool := false
  poison : Bool := false
deriving DecidableEq, Repr

/-- What the block keeps of a saved core beside its image, which has no place for it: whether it was halted, its program
length, its ring counts and what held its issue. -/
structure Kept where
  halt : Option (Nat × Nat × Nat) := none
  progLen : Nat := 0
  posted : Nat := 0
  takes : Nat := 0
  hold : Option Hold := none
  row : RowSt := {}
deriving DecidableEq, Repr

/-- A range of a tensor that met a value that is not finite (R197): the step, the tensor, whether it is one of
Q′, first element and count in the operation's offsets. -/
structure NilRange where
  step : Nat
  tensor : Nat
  q : Bool
  first : Nat
  count : Nat
deriving DecidableEq, Repr

/-- One core (R75, Table 13-12). -/
structure Core where
  state : Nat := 0
  saving : Bool := false
  more : Bool := false
  haltReq : Bool := false
  haltAddr : Nat := 0
  haltCode : Nat := 0
  haltEngine : Nat := 0
  pc : Nat := 0
  brkTag : Nat := 0
  brkTagEn : Bool := false
  brkCnt : Nat := 0
  brkCntEn : Bool := false
  skipTag : Bool := false
  cntDue : Bool := false
  stepping : Bool := false
  issueCnt : Nat := 0
  progLen : Nat := 0
  sigVal : Nat := 0
  sigCnt : Nat := 0
  eccCe : U32 := 0
  memErr : U32 := 0
  s : List (Nat × U32) := []
  cnt : List (Nat × U32) := []
  cntSrc : List (Nat × Nat) := []
  cmp : List (Nat × Cmp) := []
  loops : List (Nat × LoopReg) := []
  sp : Nat := 0
  d : List (Nat × BitVec 128) := []
  v : Mem := []
  vl : Nat := 0
  layout : Nat := 0
  tile : List (Nat × U64) := []
  passNonfinite : U32 := 0
  passSat : U32 := 0
  prog : Mem := []
  scratch : Mem := []
  acc : Mem := []
  sdata : Mem := []
  poisonP : List Nat := []
  poisonS : List Nat := []
  poisonA : List Nat := []
  poisonD : List Nat := []
  q0 : List QEntry := []
  q1 : List QEntry := []
  q2 : List QEntry := []
  q3 : List QEntry := []
  q4 : List QEntry := []
  busyV : Bool := false
  busyM : Bool := false
  loads : List Job := []
  stores : List Job := []
  nextJob : Nat := 0
  hold : Option Hold := none
  row : RowSt := {}
  writeback : List (CoreMem × Nat) := []
  posted : Nat := 0
  takes : Nat := 0
  inboxNext : Nat := 0
  saved : Bool := false
  restoring : Bool := false
  kept : Option Kept := none
  torn : Bool := false
  nilRanges : List NilRange := []
deriving DecidableEq, Repr

/-! ### Gates -/

/-- A chunk waiting to be sent (R264): its mask frame, channel, destination, and whether it needs and holds a GRANT. -/
structure SendItem where
  bytes : Bytes
  mask : List MaskEnt
  excluded : Nat
  vc : Nat
  green : Bool
  firstHop : Bool
  needGrant : Bool
  granted : Bool
  cell : Option Nat
  poisoned : Bool
  resend : Bool := false
  slot : Bool := false
deriving DecidableEq, Repr

/-- A retained chunk (R263): ranges covered by CACKs and by re-absorption, whether its last flit has left, the notices held
until then, and whether it is stomped. -/
structure Retained where
  bytes : Bytes
  mask : List MaskEnt
  excluded : Nat
  vc : Nat
  green : Bool
  firstHop : Bool
  unsent : Bool
  acked : List (Nat × Nat)
  reabsorbed : List (Nat × Nat)
  latched : Bool
  gone : Bool
  heldNotices : List Bytes
  stomped : Bool
  cell : Option Nat
deriving DecidableEq, Repr

/-- A notice that crosses the green inside the block, or a chunk that does. -/
structure GreenChunk where
  bytes : Bytes
  pos : Nat
deriving DecidableEq, Repr

/-- A market chunk received and held until it bolts (R388), or forwarded. -/
structure MktChunk where
  bytes : Bytes
  fromGate : Nat
  sealOk : Bool
  confirmed : Bool
  forwardTo : Option Nat
  dst : Nat
deriving DecidableEq, Repr

/-- One gate with its link, adder and granary. `rxAges` holds the gate cycles that each unpaired beat has waited, `peerSeen` what the
peer's TRAIN flits say of it, `sending` the first flit of the chunk that is leaving on each channel, and `mktDone` the first
bytes of the market chunks of the step that have bolted here. -/
structure Gate where
  enable : Bool := false
  state : Nat := 0
  aligned : Bool := false
  nak : Bool := false
  bits : Nat := 0
  timer : Nat := 0x1000
  limit : Nat := 0x10
  trainTimeout : U32 := 0x400000
  retryCount : U32 := 0
  crcErr : U32 := 0
  peerMember : Nat := 0
  peerGate : Nat := 0
  peerSeen : Nat × Nat := (0, 0)
  phyRdy : Bool := false
  laneFail0 : Bool := false
  laneFail1 : Bool := false
  trainGood : Nat := 0
  trainState : Nat := 0
  sent2 : Bool := false
  peerState : Nat := 0
  peerCredits : List Nat := []
  rx0 : List Bytes := []
  rx1 : List Bytes := []
  rxAges : List Nat := []
  txWin : List Bytes := []
  txLead : Nat × Nat := (0, 0)
  txd0 : Bytes := []
  txd1 : Bytes := []
  expSeq : Nat := 0
  accepted : Bool := false
  ackDue : Bool := false
  ackSince : Bool := false
  nakDue : Bool := false
  rxBuf : List (Nat × List Bytes) := []
  credPend : List (Nat × Nat) := []
  creditDue : Bool := false
  nextSeq : Nat := 0
  replayBuf : List (Nat × Bytes) := []
  replays : List Bytes := []
  consec : Nat := 0
  sendCred : List (Nat × Nat) := []
  noticeQ : List Bytes := []
  crierQ : List (Option Nat × Bytes) := []
  chunkQ : List (Nat × List Bytes) := []
  sending : List (Nat × Bytes) := []
  rr : Nat := 2
  sendQ : List SendItem := []
  greenIn : List GreenChunk := []
  greenNotices : List Bytes := []
  retained : List Retained := []
  maskWait : List (Nat × Bytes) := []
  mkt : List MktChunk := []
  mktDone : List Bytes := []
  shadowIn : List (OpName × Nat × Nat × Bytes) := []
  testing : Bool := false
  dlMiss : U32 := 0
  late : U32 := 0
  sealErr : U32 := 0
  massErr : U32 := 0
  revokes : U32 := 0
  resends : U32 := 0
  shadowCmp : U32 := 0
  shadowErr : U32 := 0
  reabsorb : U32 := 0
deriving DecidableEq, Repr

/-! ### Wells -/

/-- Who uses a well request (R416): an expander for the output of a block that names a slot, or for the stream that well w's
expander reads. -/
inductive Owner where
  | core (c job : Nat)
  | forge (w : Nat)
  | gate
  | expander (slot : Option Nat)
  | stream (w : Nat)
  | steward
deriving DecidableEq, Repr

/-- A well request (11 Table 11-1) with its data, byte enables and, for reads into a scratchpad, the destinations:
(offset in the request, scratchpad address, bytes). -/
structure WReq where
  op : Nat
  addr : Nat
  len : Nat
  owner : Owner
  data : Bytes
  mask : List Bool
  poison : List Nat
  dests : List (Nat × Nat × Nat)
  beats : Nat
  old : Bytes := []
  oldBad : List Nat := []
  stamp : Nat := 0
  announce : Bool := false
deriving DecidableEq, Repr

/-- An EXPAND job or a load with expand (R428, R429): where the next block lies, where its output goes, the blocks left, the
core and load it serves, the next address to fetch (R431), and whether the rest is only poisoned (R432). -/
structure ExpJob where
  src : Nat
  dst : Nat
  left : Nat
  core : Option (Nat × Nat)
  fetch : Nat
  lostAt : Bool := false
deriving DecidableEq, Repr

/-- A chunk accepted by a forge (R439): direct with its bytes, or parked in a slot of the park region (R456). -/
structure Accepted where
  bytes : Bytes
  slot : Option Nat
  step : Nat
deriving DecidableEq, Repr

/-- One well with its expander and forge. -/
structure Well where
  timeoutF : Bool := false
  errCpl : Bool := false
  lateCpl : Bool := false
  waiting : List WReq := []
  busy : List (Nat × WReq) := []
  quar : List Nat := []
  timeout : U32 := 0x100000
  limits : List (Nat × U32) := []
  poisonRd : U32 := 0
  poisonWr : U32 := 0
  refresh : U32 := 0
  expBuf : List (Nat × Bytes × Bool) := []
  queueHigh : Nat := 0
  expCause : Nat := 0
  expValid : Bool := false
  expAddr : U64 := 0
  dmg : U32 := 0
  jobDone : U32 := 0
  jobs : List ExpJob := []
  fbusy : Option (Bytes × Option Nat) := none
  parked : Nat := 0
  parkOrd : Nat := 0
  applied : U32 := 0
  skipped : U32 := 0
  fcause : Nat := 0
  fvalid : Bool := false
  finfo : U32 := 0
  fqueue : List Accepted := []
  normTotal : XF := 0
  accepted : List (Nat × Nat × Nat) := []
deriving DecidableEq, Repr

/-! ### The market -/

/-- A context record (10 Table 10-1). -/
structure CtxRec where
  counted : Bool
  renorm : Bool
  fallback : Bool
  fp32Out : Bool
  mode : Nat
  k : Nat
  fmtOut : Nat
  fmtRet : Nat
  group : Nat
  stallGate : Nat
  units : Nat
  tokens : Nat
  hidden : Nat
  experts : Nat
  pool : Nat
  layers : Nat
  expertDir : Nat
  logits : Nat
  source : Nat
  output : Nat
  book : Nat
  rows : Nat
  ledger : Nat
  expOut : Nat
  retArea : Nat
deriving DecidableEq, Repr

/-- A range of rows: source or holder member, expert-group number, first slot, ordinal base, rows (R387). -/
structure MRange where
  peer : Nat
  inst : Nat
  slot : Nat
  ordinal : Nat
  count : Nat
  done : List (Nat × Nat)
  complete : Bool
deriving DecidableEq, Repr

/-- An instance of a layer at its holder: its stall, the tokens it received, and the flags of its record (Table 10-8). -/
structure MInst where
  inst : Nat
  first : Nat
  rows : Nat
  tokens : Nat
  flags : Nat
deriving DecidableEq, Repr

/-- One routing context (R363 to R369). `firstLayer` is the lowest layer of its forward state; `counts` holds the counts
received from each source (instance, count, ordinal base), `arrivals` the order and the gate in which they came; `asked` are
the ranges that this source waits to post, `expect` those that the stall gate waits for, `insts` the instances it has given
stalls; `returned` the byte ranges of the return area that have come back; `leftOut` the send ordinals that a combine leaves
out because they had not returned by D. -/
structure Ctx where
  record : Option CtxRec := none
  mode : Nat := 3
  state : Nat := 0
  bits : Nat := 0
  posted : Nat := 0
  combined : Nat := 0
  drop : Nat := 0
  lastLayer : Option Nat := none
  firstLayer : Option Nat := none
  step : Nat := 0
  layer : Nat := 0
  pass : Nat := 0
  posting : Bool := false
  returning : Bool := false
  allocated : Bool := false
  counts : List (Nat × List (Nat × Nat × Nat)) := []
  arrivals : List (Nat × Nat) := []
  insts : List MInst := []
  asked : List MRange := []
  expect : List MRange := []
  returned : List (Nat × Nat) := []
  combinedTok : List Nat := []
  timedOut : Bool := false
  leftOut : List Nat := []
  missed : List (Nat × Nat × Nat) := []
deriving DecidableEq, Repr

/-- A crier or COUNTS body that waits for the market (R382, R401): member it came from, gate, kind, body. -/
structure MFrame where
  src : Nat
  gate : Nat
  counts : Bool
  body : Bytes
deriving DecidableEq, Repr

structure Mkt where
  divFix : Bool := false
  divFixUsed : Bool := false
  fallback : U32 := 0
  crierErr : U32 := 0
  ctx : List (Nat × Ctx) := []
  count : List (Nat × U32) := []
  frames : List MFrame := []
deriving DecidableEq, Repr

/-! ### The whole block -/

structure State where
  pending : List Instr
  pins : Pins
  mgt : Mgt
  aon : Aon
  boot : Boot
  charter : Option Charter
  cmd : Cmd
  step : StepSt
  bell : Ring
  audit : Ring
  flt : Ring
  doneCnt : List (Nat × U32)
  faultCnt : List (Nat × U32)
  epoch : U64
  gfail : GFail
  signalMap : List (Nat × U32)
  units : List (Nat × UnitSt)
  expose : Expose
  book : Book
  alm : Alm
  forge : ForgeB
  exp : ExpB
  roll : Roll
  ops : List Op
  waves : List Wave
  heldCloses : List HeldClose
  heldAsks : List (OpName × AskSt)
  mkt : Mkt
  cores : List (Nat × Core)
  gates : List (Nat × Gate)
  wells : List (Nat × Well)
  host : Mem
  hostPoison : List Nat
  wellStamp : Nat
  lost : List Owner
deriving DecidableEq, Repr

/-- Why the machine stops. -/
inductive Fault where
  /-- A command names a core, a gate or a well that the block does not have (R1: 2,304 cores, 96 gates, 32 wells). Raised
  by every meaning whose operand is a unit number. Safe: no rule gives such a command a meaning. -/
  | noSuchUnit
deriving DecidableEq, Repr

/-- Why a command is refused. -/
inductive Refusal where
  /-- The command has no meaning in the model. Raised by an arm of `exec` alone. Safe: nothing follows from it. -/
  | notModelled (mnemonic : String)
deriving DecidableEq, Repr

/-- The block right after reset (R552, R554): stage 0, no firmware, no charter, no roll, no link enabled, supplies good and
both resets released; registers at the reset values of their tables; memories and pins without a stated value as log 2, 3,
4 and 6 say. -/
def State.reset : State where
  pending := []
  pins := {}
  mgt := {}
  aon := {}
  boot := {}
  charter := none
  cmd := {}
  step := {}
  bell := {}
  audit := {}
  flt := {}
  doneCnt := []
  faultCnt := []
  epoch := 0
  gfail := {}
  signalMap := []
  units := []
  expose := {}
  book := {}
  alm := {}
  forge := {}
  exp := {}
  roll := {}
  ops := []
  waves := []
  heldCloses := []
  heldAsks := []
  mkt := {}
  cores := []
  gates := []
  wells := []
  host := []
  hostPoison := []
  wellStamp := 0
  lost := []

end Sys2Proof.Machine
end

