-- ==== Sys2Proof/Machine/Flags.lean ====
section
/-! DEFINITION. Flag words: step mode flags (14 Table 14-1), tile status (02 Table 02-6), link status bits (07 Table 07-6),
chunk flags (R252), sieve flags (04 Table 04-5), and unit ids (15 Table 15-5). -/

namespace Sys2Proof.Machine

/-! ### Step mode flags (R506) -/
def mfUnordered := 0
def mfExcluded := 1
def mfMarket := 2
def mfPoisoned := 3
def mfForgeSkip := 4
def mfNormRelease := 5
def mfRestored := 7
def mfGroupFailed := 8
def mfRetention := 9
def mfNonfinite := 10
def mfQ0 := 11
def mfInitialRung := 12

/-- Set one bit of a number. -/
def setBit (v i : Nat) : Nat := if bitOf v i then v else v + 2 ^ i

/-- Clear one bit of a number. -/
def clearBit (v i : Nat) : Nat := if bitOf v i then v - 2 ^ i else v

/-- Set a mode flag of the open step; with no step open it waits for the next (R506; log 15). -/
def setMode (bit : Nat) (s : State) : State :=
  match s.step.opened with
  | some _ => { s with step := { s.step with mode := setBit s.step.mode bit } }
  | none => { s with step := { s.step with modeNext := setBit s.step.modeNext bit } }

/-- A mode flag raised by something that carries a step: evaluation names raise none (R507). -/
def setModeAt (step bit : Nat) (s : State) : State := if 2 ^ 31 ≤ step then s else setMode bit s

/-! ### Tile status word (R67, R68) -/
def tsSat := 0
def tsLong := 1
def tsNonfinite := 2
def tsTiny := 3
def tsF32ovf := 4
def tsInt := 5

def tileFlag (t : U64) (i : Nat) (b : Bool) : U64 := if b then t ||| (1#64 <<< i) else t

/-- The status of a tile after a clear or a preload: promotions zero and every flag but int_mode clear (R68). -/
def tileClear (t : U64) : U64 := t &&& 0x20#64

def tilePromotions (t : U64) : Nat := field t.toNat 56 16

/-- One promotion into every entry of a tile: the counter saturates at 2^40, a promotion at that value sets long (R66). -/
def tilePromote (t : U64) : U64 :=
  if tilePromotions t = 2 ^ 40 then tileFlag t tsLong true
  else t + (1#64 <<< 16)

/-! ### Link status bits 13:5 (07 Table 07-6), kept at the same places in `Gate.bits` -/
def lbLane0 := 5
def lbLane1 := 6
def lbPhyLost := 7
def lbDeskew := 8
def lbVersion := 9
def lbTrain := 10
def lbRetry := 11
def lbCredit := 12
def lbRefused := 13

/-! ### Chunk flags (R251, R252) -/
def cfUnordered := 0
def cfSampled := 1
def cfPoisoned := 2
def cfMask := 3
def cfLatched := 4
def cfEmpty := 5

/-! ### Sieve flags (04 Table 04-5) -/
def sfShort := 0
def sfNonfinite := 1
def sfBadmax := 2
def sfConserve := 3
def sfRefined := 4
def sfCut := 5
def sfMerged := 6
def sfDup := 7

/-! ### Event sources (03 Table 03-3) -/
def evLoad := 0
def evStore := 1
def evVec := 2
def evMat := 3
def evRed := 4
def evInbox := 5
def evCmd := 6
def evIssue := 7

/-- Every counter whose source is the event counts it, modulo 2^32 (R83). -/
def countEvent (src : Nat) (k : Core) : Core :=
  { k with cnt := (List.range 8).foldl (fun t i =>
      if tget 0 k.cntSrc i = src then tset 0 t i (tget 0 t i + 1) else t) k.cnt }

/-! ### Unit ids (15 Table 15-5) -/
def uCore (c : Nat) : Nat := c
def uGate (g : Nat) : Nat := 0x1000 + g
def uWell (w : Nat) : Nat := 0x2000 + w
def uSteward : Nat := 0x3000
def uGreen (c : Nat) : Nat := 0x4000 + c
def uBlock : Nat := 0x5000

/-- Whether a fault class counts toward permanence (15 Table 15-4). -/
def classCounts (cls : Nat) : Bool := [0x01, 0x02, 0x03, 0x04, 0x05, 0x06, 0x14].contains cls

end Sys2Proof.Machine
end

