-- ==== Sys2Proof/Machine/Hash.lean ====
section
/-! DEFINITION. Checks over bytes: CRC-32C (R232), CRC-64 seal (R258), the tally hash (R510), the stochastic-rounding
generator (R70), and the standards that the manual names: SHA-256 (FIPS 180-4: R512, R577) and PureEd25519 (RFC 8032:
R542, R574). -/

namespace Sys2Proof.Machine

/-- One bit step of a reflected CRC of width `w` with reflected polynomial `p`. -/
def crcBit (w : Nat) (p c : BitVec w) : BitVec w :=
  if c.getLsbD 0 then (c >>> 1) ^^^ p else c >>> 1

/-- One byte step of a reflected CRC. -/
def crcByte (w : Nat) (p c : BitVec w) (b : Byte) : BitVec w :=
  (List.range 8).foldl (fun c _ => crcBit w p c) (c ^^^ b.setWidth w)

/-- CRC-32C: polynomial 0x1EDC_6F41 reflected, start and final exclusive or with ones (R232). -/
def crc32c (bs : Bytes) : U32 :=
  (bs.foldl (crcByte 32 0x82F63B78#32) 0xFFFFFFFF#32) ^^^ 0xFFFFFFFF#32

/-- The seal's CRC-64: ECMA-182 polynomial 0x42F0_E1EB_A9EA_3693 reflected (R258). -/
def crc64 (bs : Bytes) : U64 :=
  (bs.foldl (crcByte 64 0xC96C5795D7870F42#64) 0xFFFFFFFFFFFFFFFF#64) ^^^ 0xFFFFFFFFFFFFFFFF#64

/-! ### The tally hash (R510) -/

/-- One step of `gfMul`: the product so far, the shifted factor, and bit i of the other factor. -/
def gfMulStep (b : U64) (st : U64 × U64) (i : Nat) : U64 × U64 :=
  let r := if b.getLsbD i then st.1 ^^^ st.2 else st.1
  let a := if st.2.getLsbD 63 then (st.2 <<< 1) ^^^ 0x1B#64 else st.2 <<< 1
  (r, a)

/-- Product in GF(2^64) modulo x^64 + x^4 + x^3 + x + 1 (R510). -/
def gfMul (a b : U64) : U64 := ((List.range 64).foldl (gfMulStep b) (0#64, a)).1

/-- Power in GF(2^64), square and multiply from bit 63 down (R510). -/
def gfPow (a e : U64) : U64 :=
  (List.range 64).foldl (fun r i =>
    let r := gfMul r r
    if e.getLsbD (63 - i) then gfMul r a else r) 1#64

/-- The generator of tally positions (R510). -/
def tallyAlpha : U64 := 0x9e3779b97f4a7c15#64

/-- The term of one 64-bit word at a position (R510). -/
def tallyTerm (w : U64) (p : Nat) : U64 := gfMul w (gfPow tallyAlpha (BitVec.ofNat 64 p))

/-- The words of a byte string padded with zeros to a multiple of 8. -/
def wordsOf (bs : Bytes) : List U64 :=
  (chunksOf 8 bs.length bs).map (fun w => BitVec.ofNat 64 (leNat w))

/-- The tally of words from a position upward; the power of alpha is carried along. -/
def tallyWords : List U64 → U64 → U64
  | [], _ => 0#64
  | w :: ws, pw => gfMul w pw ^^^ tallyWords ws (gfMul pw tallyAlpha)

/-- The tally of a byte string whose first word stands at position p0 (R510). -/
def tally (bs : Bytes) (p0 : Nat) : U64 :=
  tallyWords (wordsOf bs) (gfPow tallyAlpha (BitVec.ofNat 64 p0))

/-! ### The stochastic-rounding generator (R70) -/

/-- One round of the generator. -/
def srRound (key x : U64) : U64 :=
  let x := (x + key) * 0x00000100000001b3#64
  x ^^^ (x >>> 29)

/-- `sr_bits` of R70: seed, step, tensor, index. -/
def srBits (seed : U64) (step tensor : U32) (index : Nat) : U16 :=
  let k1 : U64 := (step.setWidth 64 <<< 32) ||| tensor.setWidth 64
  let x := srRound k1 (srRound seed (srRound k1 (srRound seed (BitVec.ofNat 64 (index % 2 ^ 40)))))
  (x >>> 48).setWidth 16

/-! ### SHA-256 and SHA-512 (FIPS 180-4) -/

/-- Small primes, from which the round constants of FIPS 180-4 come. -/
def shaPrimes : List Nat :=
  [2, 3, 5, 7, 11, 13, 17, 19, 23, 29, 31, 37, 41, 43, 47, 53, 59, 61, 67, 71] ++
  [73, 79, 83, 89, 97, 101, 103, 107, 109, 113, 127, 131, 137, 139, 149, 151, 157, 163, 167, 173] ++
  [179, 181, 191, 193, 197, 199, 211, 223, 227, 229, 233, 239, 241, 251, 257, 263, 269, 271, 277, 281] ++
  [283, 293, 307, 311, 313, 317, 331, 337, 347, 349, 353, 359, 367, 373, 379, 383, 389, 397, 401, 409]

/-- Largest root r with r^k at most n, by bits from the top (structural in the bit count). -/
def rootBits (k n : Nat) : Nat → Nat → Nat
  | 0, r => r
  | b + 1, r => let t := r + 2 ^ b; rootBits k n b (if t ^ k ≤ n then t else r)

/-- First `w` bits of the fraction of the k-th root of p (FIPS 180-4). -/
def rootFrac (k w p : Nat) : Nat := rootBits k (p * 2 ^ (k * w)) (w + 6) 0 % 2 ^ w

/-- Round constants of a SHA-2 of word width w. -/
def shaK (w n : Nat) : List (BitVec w) := (shaPrimes.take n).map (fun p => BitVec.ofNat w (rootFrac 3 w p))

/-- Start values of a SHA-2 of word width w. -/
def shaH (w : Nat) : List (BitVec w) := (shaPrimes.take 8).map (fun p => BitVec.ofNat w (rootFrac 2 w p))

/-- The rotation and shift amounts of one SHA-2 member. -/
structure ShaPar where
  w : Nat
  rounds : Nat
  bigS0 : Nat × Nat × Nat
  bigS1 : Nat × Nat × Nat
  smallS0 : Nat × Nat × Nat
  smallS1 : Nat × Nat × Nat

def sha256Par : ShaPar := ⟨32, 64, (2, 13, 22), (6, 11, 25), (7, 18, 3), (17, 19, 10)⟩
def sha512Par : ShaPar := ⟨64, 80, (28, 34, 39), (14, 18, 41), (1, 8, 7), (19, 61, 6)⟩

def shaBig {w : Nat} (r : Nat × Nat × Nat) (x : BitVec w) : BitVec w :=
  x.rotateRight r.1 ^^^ x.rotateRight r.2.1 ^^^ x.rotateRight r.2.2

def shaSmall {w : Nat} (r : Nat × Nat × Nat) (x : BitVec w) : BitVec w :=
  x.rotateRight r.1 ^^^ x.rotateRight r.2.1 ^^^ (x >>> r.2.2)

/-- The message schedule, newest word first. -/
def shaSchedule (p : ShaPar) : Nat → List (BitVec p.w) → List (BitVec p.w)
  | 0, ws => ws
  | n + 1, ws =>
    let g := fun i => ws.getD i 0
    shaSchedule p n ((shaSmall p.smallS1 (g 1) + g 6 + shaSmall p.smallS0 (g 14) + g 15) :: ws)

/-- One compression round over the eight working words. -/
def shaRound (p : ShaPar) (v : List (BitVec p.w)) (kw : BitVec p.w) : List (BitVec p.w) :=
  match v with
  | [a, b, c, d, e, f, g, h] =>
    let t1 := h + shaBig p.bigS1 e + ((e &&& f) ^^^ (~~~e &&& g)) + kw
    let t2 := shaBig p.bigS0 a + ((a &&& b) ^^^ (a &&& c) ^^^ (b &&& c))
    [t1 + t2, a, b, c, d + t1, e, f, g]
  | other => other

/-- The number held big-endian in bytes. -/
def beNat (bs : Bytes) : Nat := bs.foldl (fun a b => a * 256 + b.toNat) 0

/-- One block of a SHA-2. -/
def shaBlock (p : ShaPar) (k h : List (BitVec p.w)) (blk : Bytes) : List (BitVec p.w) :=
  let w0 := (chunksOf (p.w / 8) 16 blk).map (fun b => BitVec.ofNat p.w (beNat b))
  let ws := (shaSchedule p (p.rounds - 16) w0.reverse).reverse
  let v := (List.zipWith (· + ·) k ws).foldl (shaRound p) h
  List.zipWith (· + ·) h v

/-- The padded message of a SHA-2 with blocks of `blk` bytes. -/
def shaPad (blk : Nat) (bs : Bytes) : Bytes :=
  let lenB := blk / 8
  let n := bs.length
  let z := (blk - (n + 1 + lenB) % blk) % blk
  bs ++ [0x80#8] ++ zeros z ++ (natLe lenB (8 * n)).reverse

/-- A SHA-2 digest. -/
def sha2 (p : ShaPar) (bs : Bytes) : Bytes :=
  let blk := 2 * p.w
  let m := shaPad blk bs
  let k := shaK p.w p.rounds
  let h := (chunksOf blk m.length m).foldl (shaBlock p k) (shaH p.w)
  (h.map (fun x => (natLe (p.w / 8) x.toNat).reverse)).flatten

/-- SHA-256 (FIPS 180-4), as R512, R514 and R577 use it. -/
def sha256 (bs : Bytes) : Bytes := sha2 sha256Par bs

/-- SHA-512 (FIPS 180-4), inside PureEd25519. -/
def sha512 (bs : Bytes) : Bytes := sha2 sha512Par bs

/-! ### PureEd25519 verification (RFC 8032) -/

def edP : Nat := 2 ^ 255 - 19
def edL : Nat := 2 ^ 252 + 27742317777372353535851937790883648493

/-- Power modulo m, by the bits of the exponent. -/
def powModBits (m : Nat) : Nat → Nat → Nat → Nat → Nat
  | 0, _, _, acc => acc
  | n + 1, b, e, acc => powModBits m n (b * b % m) (e / 2) (if e % 2 == 1 then acc * b % m else acc)

def powMod (m b e : Nat) : Nat := powModBits m 256 (b % m) e 1

def edInv (x : Nat) : Nat := powMod edP x (edP - 2)
def edD : Nat := (edP - 121665) * edInv 121666 % edP
def edSqrtM1 : Nat := powMod edP 2 ((edP - 1) / 4)

/-- A curve point in extended coordinates X, Y, Z, T. -/
abbrev EdPoint := Nat × Nat × Nat × Nat

/-- Addition of curve points (RFC 8032, 5.1.4). -/
def edAdd (p q : EdPoint) : EdPoint :=
  let (x1, y1, z1, t1) := p
  let (x2, y2, z2, t2) := q
  let a := (y1 + edP - x1) * (y2 + edP - x2) % edP
  let b := (y1 + x1) * (y2 + x2) % edP
  let c := t1 * 2 * edD * t2 % edP
  let d := z1 * 2 * z2 % edP
  let e := (b + edP - a) % edP
  let f := (d + edP - c) % edP
  let g := (d + c) % edP
  let h := (b + a) % edP
  (e * f % edP, g * h % edP, f * g % edP, e * h % edP)

/-- Scalar multiple by the bits of the scalar. -/
def edMulBits : Nat → Nat → EdPoint → EdPoint → EdPoint
  | 0, _, _, acc => acc
  | n + 1, k, p, acc => edMulBits n (k / 2) (edAdd p p) (if k % 2 == 1 then edAdd acc p else acc)

def edMul (k : Nat) (p : EdPoint) : EdPoint := edMulBits 256 k p (0, 1, 1, 0)

def edEq (p q : EdPoint) : Bool :=
  let (x1, y1, z1, _) := p
  let (x2, y2, z2, _) := q
  x1 * z2 % edP == x2 * z1 % edP && y1 * z2 % edP == y2 * z1 % edP

/-- The x coordinate for a y and a sign bit, if there is one (RFC 8032, 5.1.3). -/
def edRecoverX (y sign : Nat) : Option Nat :=
  let x2 := (y * y + edP - 1) * edInv (edD * y * y + 1) % edP
  let x := powMod edP x2 ((edP + 3) / 8)
  let x := if x * x % edP == x2 then x else x * edSqrtM1 % edP
  if y ≥ edP || x * x % edP != x2 then none
  else if x2 == 0 && sign == 1 then none
  else some (if x % 2 == sign then x else (edP - x) % edP)

/-- Point decompression (RFC 8032, 5.1.3). -/
def edDecode (bs : Bytes) : Option EdPoint :=
  let v := leNat bs
  let y := v % 2 ^ 255
  (edRecoverX y (v / 2 ^ 255 % 2)).map (fun x => (x, y, 1, x * y % edP))

/-- The base point. -/
def edBase : EdPoint :=
  let y := 4 * edInv 5 % edP
  let x := (edRecoverX y 0).getD 0
  (x, y, 1, x * y % edP)

/-- Whether a 64-byte signature over a message is good under a 32-byte public key (RFC 8032, 5.1.7). -/
def ed25519Verify (key msg sig : Bytes) : Bool :=
  let rB := slice sig 0 32
  let sN := numAt sig 32 32
  match edDecode key, edDecode rB with
  | some a, some r =>
    let h := leNat (sha512 (rB ++ key ++ msg)) % edL
    sN < edL && edEq (edMul sN edBase) (edAdd r (edMul h a))
  | _, _ => false

end Sys2Proof.Machine
end

