-- ==== Sys2Proof/Machine/Ops.lean ====
section
/-! DEFINITION. The named operations over memory, units, registers, rings and faults that every meaning uses. -/

namespace Sys2Proof.Machine

abbrev Res := Host.Outcome State Fault Refusal

/-! ### Memories: sorted lists of cells, none equal to what an unlisted address reads as -/

/-- The form of a memory whose unlisted bytes read `d`: addresses strictly rising, no entry equal to `d`. -/
def memWf (d : Byte) (m : Mem) : Bool := tableWf d m

def mget (d : Byte) (m : Mem) (a : Nat) : Byte := tget d m a
def mset (d : Byte) (m : Mem) (a : Nat) (b : Byte) : Mem := tset d m a b

/-- `n` bytes from an address. -/
def mread (d : Byte) (m : Mem) (a n : Nat) : Bytes := (List.range n).map (fun i => mget d m (a + i))

/-- Write bytes from an address upward. -/
def mwrite (d : Byte) : Mem → Nat → Bytes → Mem
  | m, _, [] => m
  | m, a, b :: bs => mwrite d (mset d m a b) (a + 1) bs

/-- Write the bytes whose enable is set. -/
def mwriteMasked (d : Byte) : Mem → Nat → Bytes → List Bool → Mem
  | m, a, b :: bs, e :: es => mwriteMasked d (if e then mset d m a b else m) (a + 1) bs es
  | m, _, _, _ => m

/-- Remove every cell of a range (an erased flash sector). -/
def merase (m : Mem) (a n : Nat) : Mem := m.filter (fun c => decide (c.1 < a ∨ a + n ≤ c.1))

/-! ### Is the block running -/

/-- All three power-good inputs high: the block is not isolated (R550). -/
def powered (s : State) : Bool := s.pins.pgCore && s.pins.pgSram && s.pins.pgAon

/-- Powered and both resets released: the block acts on its ports (R548 to R554). -/
def live (s : State) : Bool := powered s && s.pins.rstPwrN && s.pins.rstSoftN

/-- A command on the block: it acts only while the block is live; otherwise nothing of the block changes (log 5). -/
def act (s : State) (f : State → State) : Res := if live s then .next (f s) else .next s

/-- A command on a unit with a number below `n` (R1). -/
def actOn (n i : Nat) (s : State) (f : State → State) : Res :=
  if i < n then act s f else .fault .noSuchUnit

def numCores : Nat := 2304
def numGates : Nat := 96
def numWells : Nat := 32

/-! ### Units -/

def getCore (s : State) (c : Nat) : Core := tget {} s.cores c
def setCore (s : State) (c : Nat) (k : Core) : State := { s with cores := tset {} s.cores c k }
def modCore (c : Nat) (f : Core → Core) (s : State) : State := setCore s c (f (getCore s c))

def getGate (s : State) (g : Nat) : Gate := tget {} s.gates g
def setGate (s : State) (g : Nat) (k : Gate) : State := { s with gates := tset {} s.gates g k }
def modGate (g : Nat) (f : Gate → Gate) (s : State) : State := setGate s g (f (getGate s g))

def getWell (s : State) (w : Nat) : Well := tget {} s.wells w
def setWell (s : State) (w : Nat) (k : Well) : State := { s with wells := tset {} s.wells w k }
def modWell (w : Nat) (f : Well → Well) (s : State) : State := setWell s w (f (getWell s w))

def getUnit (s : State) (u : Nat) : UnitSt := tget {} s.units u
def setUnit (s : State) (u : Nat) (k : UnitSt) : State := { s with units := tset {} s.units u k }
def modUnit (u : Nat) (f : UnitSt → UnitSt) (s : State) : State := setUnit s u (f (getUnit s u))

/-! ### Charter values; before a charter every such register reads zero (R588) -/

def memberId (s : State) : Nat := (s.charter.map (·.member)).getD 0
def nodeSize (s : State) : Nat := (s.charter.map (·.nodeSize)).getD 0

/-- BLK_WELL_GROUPS: 0x01 before a charter (R588). -/
def wellGroups (s : State) : Nat := (s.charter.map (·.wellGroups)).getD 1

/-- The present wells in ascending order (R406, R407). -/
def wellList (s : State) : List Nat := (List.range numWells).filter (fun w => bitOf (wellGroups s) (w / 4))

def wellPresent (s : State) (w : Nat) : Bool := bitOf (wellGroups s) (w / 4)

/-- The well that serves an address (R406); well 0 before a charter (R570). -/
def wellOf (s : State) (a : Nat) : Nat :=
  if s.charter.isNone then 0
  else let l := wellList s; l.getD ((a / 4096) % l.length) 0

def fencedCore (s : State) (c : Nat) : Bool := ((s.charter.map (·.fencedCores)).getD []).contains c
def fencedGate (s : State) (g : Nat) : Bool := ((s.charter.map (·.fencedGates)).getD []).contains g

/-- The phase map in force (R459: map 0 after a charter load). -/
def mapNo (s : State) (n : Nat) : Option PhaseMap :=
  s.charter.bind (fun c => c.maps.find? (fun m => m.number == n))
def mapInForce (s : State) : Option PhaseMap := mapNo s s.forge.map
def mapForge (m : PhaseMap) : Bool := bitOf m.flags 0
def mapClip (m : PhaseMap) : Bool := bitOf m.flags 1
def mapEval (m : PhaseMap) : Bool := bitOf m.flags 2
def clipInForce (s : State) : Bool := (mapInForce s).any mapClip
def evalInForce (s : State) : Bool := (mapInForce s).any mapEval

/-- The step that evaluation and market operations carry under an evaluation map: the last curfew's with bit 31 (R463). -/
def evalStep (s : State) : Nat := s.step.lastCurfew.getD 0 + 2 ^ 31

/-- The step that a fault record names: the open step, or that of the last curfew (15 Table 15-3). -/
def recordStep (s : State) : Nat := (s.step.opened.getD (s.step.lastCurfew.getD 0))

/-! ### Host memory (R406 to R418) -/

/-- Host memory bytes; addresses are 52 bits wide (11 Table 11-1). -/
def hostRead (s : State) (a n : Nat) : Bytes := (List.range n).map (fun i => mget 0 s.host ((a + i) % 2 ^ 52))

/-- Whether a range holds a 64 B unit that the block wrote with the poison indication. -/
def hostPoisoned (s : State) (a n : Nat) : Bool :=
  s.hostPoison.any (fun u => decide (u * 64 < a + n ∧ a < u * 64 + 64))

/-- Pieces of a range that stay inside one 4 KiB unit (R408). -/
def pieces4k : Nat → Nat → Nat → List (Nat × Nat)
  | 0, _, _ => []
  | fuel + 1, a, n =>
    if n = 0 then []
    else let k := min n (4096 - a % 4096); (a, k) :: pieces4k fuel (a + k) (n - k)

def splitRange (a n : Nat) : List (Nat × Nat) := pieces4k (n / 4096 + 2) a n

/-- A write request for one piece: aligned to 64 B, byte enables for the bytes given (R409, R556); `bad` lists the 64 B units
of host memory that carry poison. -/
def writeReq (owner : Owner) (a : Nat) (bs : Bytes) (bad : List Nat) : WReq :=
  let lo := a / 64 * 64
  let len := (a + bs.length - lo + 63) / 64
  let before := a - lo
  let after := len * 64 - before - bs.length
  { op := 1, addr := lo, len := len, owner := owner,
    data := zeros before ++ bs ++ zeros after,
    mask := List.replicate before false ++ bs.map (fun _ => true) ++ List.replicate after false,
    poison := (List.range len).filter (fun i => bad.contains (a / 64 + i)), dests := [], beats := 0 }

/-- The 64 B units a range touches. -/
def unitsOf (a n : Nat) : List Nat := (List.range ((a + n + 63) / 64 - a / 64)).map (fun i => (a / 64 + i) % 2 ^ 46)

/-- Put a request in the waiting list of the well that serves it, numbered in the order of the block's requests. -/
def enqueueReq (r : WReq) (s : State) : State :=
  modWell (wellOf s r.addr) (fun w => { w with waiting := w.waiting ++ [{ r with stamp := s.wellStamp }] })
    { s with wellStamp := s.wellStamp + 1 }

/-- A write request with what the units it touches held before, which a flit lost on the green leaves there (R107). -/
def withOld (s : State) (r : WReq) : WReq :=
  { r with old := hostRead s r.addr (64 * r.len),
           oldBad := s.hostPoison.filter (fun u => decide (r.addr / 64 ≤ u ∧ u < r.addr / 64 + r.len)) }

/-- A write by the block: host memory takes the bytes, in program order of the writes (R412 orders overlapping requests),
and one request per 4 KiB piece waits at its well (R408; log 16). The units in `bad` take the poison indication (R105). An
announcement is a record that R414 keeps behind the data it announces. -/
def postWriteAs (announce : Bool) (owner : Owner) (a : Nat) (bs : Bytes) (bad : List Nat) (s : State) : State :=
  let ps := splitRange a bs.length
  let part := fun (p : Nat × Nat) => (bs.drop (p.1 - a)).take p.2
  let rs := ps.map (fun p => { withOld s (writeReq owner (p.1 % 2 ^ 52) (part p) bad) with announce := announce })
  let s := { s with host := ps.foldl (fun m p => mwrite 0 m (p.1 % 2 ^ 52) (part p)) s.host,
                    hostPoison := sortBy id (dedup (s.hostPoison.filter (fun u =>
                      !(decide (a ≤ u * 64 ∧ u * 64 + 64 ≤ a + bs.length))) ++ bad)) }
  rs.foldl (fun s r => enqueueReq r s) s

def postWriteBad (owner : Owner) (a : Nat) (bs : Bytes) (bad : List Nat) (s : State) : State :=
  postWriteAs false owner a bs bad s

/-- A record that announces data (R414): its well holds it until every write before it, in whatever well, has completed. -/
def postAnnounce (owner : Owner) (a : Nat) (bs : Bytes) (s : State) : State := postWriteAs true owner a bs [] s

/-- A write that is poisoned whole or not at all. -/
def postWrite (owner : Owner) (a : Nat) (bs : Bytes) (poison : Bool) (s : State) : State :=
  postWriteBad owner a bs (if poison then unitsOf a bs.length else []) s

/-- Whether any request of an owner has not completed (R414, R447); one lost on the green never does (R107). -/
def ownerPending (o : Owner) (w : Well) : Bool :=
  w.waiting.any (fun r => r.owner == o) || w.busy.any (fun t => t.2.owner == o)

def anyPending (o : Owner) (s : State) : Bool := s.lost.contains o || s.wells.any (fun e => ownerPending o e.2)

/-! ### Rings (R316) -/

/-- Which ring, by its entry size, its queue and where its lap bit stands. -/
inductive RingId where
  | bell | audit | flt
deriving DecidableEq, Repr

def RingId.entry : RingId → Nat
  | .bell => 8 | _ => 64
def RingId.cap : RingId → Nat
  | .bell => 1024 | .audit => 64 | .flt => 256
def RingId.lapByte : RingId → Nat
  | .bell => 7 | _ => 0
def RingId.minLog : RingId → Nat
  | .bell => 9 | _ => 6

def getRing (s : State) : RingId → Ring
  | .bell => s.bell | .audit => s.audit | .flt => s.flt
def setRing (s : State) (i : RingId) (r : Ring) : State :=
  match i with
  | .bell => { s with bell := r } | .audit => { s with audit := r } | .flt => { s with flt := r }

def Ring.size (r : Ring) : Nat := 2 ^ r.log2
/-- The head is one entry behind the tail (R316). -/
def Ring.full (r : Ring) : Bool := decide ((r.head + 1) % r.size = r.tail % r.size)

/-- The entry with its lap bit. -/
def withLap (i : RingId) (lap : Bool) (e : Bytes) : Bytes :=
  e.set i.lapByte (BitVec.ofNat 8 ((e.getD i.lapByte 0).toNat % 128 + (if lap then 128 else 0)))

/-- Write one entry at the head and advance it; the lap bit inverts on each wrap (08 Table 08-8). -/
def ringPut (i : RingId) (e : Bytes) (s : State) : State :=
  let r := getRing s i
  let h := r.head % r.size
  let at_ := r.base.toNat + i.entry * h
  let s := if i = .flt then postWrite .steward at_ (withLap i r.lap e) false s
    else postAnnounce .steward at_ (withLap i r.lap e) s
  let h' := (h + 1) % r.size
  setRing s i { r with head := h', lap := if h' = 0 then !r.lap else r.lap }

/-- Write an entry, or queue it while the ring is full, or count it as lost beyond the queue (R316, R515, R525). -/
def ringPush (i : RingId) (e : Bytes) (s : State) : State :=
  let r := getRing s i
  if r.queue.isEmpty && !r.full then ringPut i e s
  else if r.queue.length < i.cap then setRing s i { r with queue := r.queue ++ [e] }
  else setRing s i { r with lost := satInc r.lost 1 }

/-- Write queued entries while the ring has room, at most `fuel` of them. -/
def ringDrain (i : RingId) : Nat → State → State
  | 0, s => s
  | fuel + 1, s =>
    let r := getRing s i
    match r.queue with
    | [] => s
    | e :: q => if r.full then s else ringDrain i fuel (ringPut i e (setRing s i { r with queue := q }))

/-! ### Bells (R315 to R318) -/

/-- The bell record of 08 Table 08-8, lap bit apart. -/
def bellBytes (group seq chunk status kind : Nat) : Bytes :=
  natLe 8 (group + seq * 2 ^ 12 + chunk * 2 ^ 28 + status * 2 ^ 52 + kind * 2 ^ 56)

/-- An event of R315: a bell when enabled, and a count when its status is 0 to 2 (R317). -/
def ringBell (group seq chunk status kind : Nat) (s : State) : State :=
  let s := if bitOf s.bell.ctl 0 then ringPush .bell (bellBytes group seq chunk status kind) s else s
  if status ≤ 2 then
    { s with doneCnt := tset 0 s.doneCnt (seq / 1024 % 64) (tget 0 s.doneCnt (seq / 1024 % 64) + 1) }
  else s

/-- The bell of a completed barrier (R322), which R317 does not count (log 17). -/
def barrierBell (group seq : Nat) (s : State) : State :=
  if bitOf s.bell.ctl 0 then ringPush .bell (bellBytes group seq 0 0 3) s else s

/-! ### The parish book (R535 to R541) -/

def flashRead (s : State) (a n : Nat) : Bytes := mread 0xFF s.book.flash a n

/-- Bytes that a density DWORD of the basic flash parameter table stands for (R536 names JESD216: bits − 1, or 2^n bits). -/
def densityBytes (d : Nat) : Nat := if d < 2 ^ 31 then (d + 1) / 8 else 2 ^ min (d % 2 ^ 31) 40 / 8

/-- Sectors used: N = min(density, 16 MiB) / 4,096 (15 Table 15-7). -/
def bookSectors (s : State) : Nat := min ((s.book.flashId.map (fun f => densityBytes f.density)).getD 0) (16 * 2 ^ 20) / 4096

/-- Bytes followed by their CRC-32C. -/
def withCrc (bs : Bytes) : Bytes := bs ++ natLe 4 (crc32c bs).toNat
def crcGood (bs : Bytes) : Bool := decide (numAt bs (bs.length - 4) 4 = (crc32c (bs.take (bs.length - 4))).toNat)

/-- A ring sector's header (15 Table 15-7). -/
def sectorHeader (lap erases : Nat) : Bytes :=
  withCrc (natLe 4 0x43455350 ++ natLe 4 lap ++ natLe 4 erases ++ zeros 48)

/-- Largest erase count in thousandths of the rated cycles (R541). -/
def wearOf (s : State) : Nat :=
  let big := s.book.erases.foldl (fun a e => max a e.2) 0
  let rated := (s.charter.map (·.rated)).getD 0
  if rated = 0 then 0 else min (big * 1000 / rated) 2047

/-- A record kept in steward memory with the held flag, or counted as lost (R536, R541). -/
def holdRecord (r : Bytes) (s : State) : State :=
  if s.aon.held.length < 1024 then
    let body := (r.take 60).set 45 ((r.getD 45 0) ||| 2)
    { s with aon := { s.aon with held := s.aon.held ++ [withCrc body] } }
  else { s with book := { s.book with memLost := satInc s.book.memLost 1 } }

/-- The records that must survive an erase of a sector: the latest status record of each unit that is not clean, and the
latest almanac record (R538). -/
def keptRecords (s : State) (sector : Nat) : List Bytes :=
  let recs := (List.range 63).map (fun i => flashRead s (sector * 4096 + 64 * (i + 1)) 64)
  let good := recs.filter (fun r => crcGood r)
  let statusOf := fun u => (good.filter (fun r => decide (numAt r 0 1 = 2 ∧ numAt r 4 2 = u))).getLast?
  let unitsIn := dedup ((good.filter (fun r => decide (numAt r 0 1 = 2))).map (fun r => numAt r 4 2))
  let newest := fun (type u seq : Nat) =>
    (List.range (bookSectors s)).all (fun k => k = sector || k = 0 ||
      (List.range 63).all (fun i =>
        let r := flashRead s (k * 4096 + 64 * (i + 1)) 64
        !(crcGood r && decide (numAt r 0 1 = type ∧ numAt r 4 2 = u ∧ seq < numAt r 40 4))))
  let st := unitsIn.filterMap (fun u =>
    if (getUnit s u).status = 0 then none
    else (statusOf u).filter (fun r => newest 2 u (numAt r 40 4)))
  let alm := (((good.filter (fun r => decide (numAt r 0 1 = 3))).getLast?).filter
    (fun r => newest 3 (numAt r 4 2) (numAt r 40 4))).toList
  st ++ alm

/-- Program bytes into the flash. -/
def flashProgram (a : Nat) (bs : Bytes) (s : State) : State :=
  { s with book := { s.book with flash := mwrite 0xFF s.book.flash a bs } }

/-- Erase the next ring sector and head it, copying what must survive (R538); a warning at 900 and a stop at 1,000 (R541).
Returns the book fault to raise, if any. -/
def bookNextSector (s : State) : State :=
  let n := bookSectors s
  let k := if s.book.sector + 1 < n then s.book.sector + 1 else 1
  let kept := keptRecords s k
  let ec := tget 0 s.book.erases k + 1
  let lap := s.book.lap + 1
  let s := { s with book := { s.book with
    flash := merase s.book.flash (k * 4096) 4096, erases := tset 0 s.book.erases k ec,
    sector := k, slot := 1, lap := lap } }
  let s := flashProgram (k * 4096) (sectorHeader lap ec) s
  kept.foldl (fun s r =>
    let s := flashProgram (k * 4096 + 64 * s.book.slot) r s
    { s with book := { s.book with slot := s.book.slot + 1 } }) s

/-- Update wear and stop writing at 1,000 (R541); `bookWatch` reports both limits. -/
def bookWear (s : State) : State :=
  let w := wearOf s
  { s with book := { s.book with wear := w, stopped := s.book.stopped || decide (1000 ≤ w) } }

/-- Write a record into the book, or keep it in steward memory when the book cannot be written (R536, R538, R541). -/
def bookWrite (r : Bytes) (s : State) : State :=
  if s.book.bound && !s.book.readonly && !s.book.unusable && !s.book.stopped then
    let s := if s.book.sector = 0 ∨ 64 ≤ s.book.slot then bookWear (bookNextSector s) else s
    let s := flashProgram (s.book.sector * 4096 + 64 * s.book.slot) r s
    { s with book := { s.book with slot := s.book.slot + 1 } }
  else holdRecord r s

/-! ### Fault records and unit status (R525 to R529) -/

/-- The time of a record in microseconds (15 Table 15-3). -/
def recordTime (s : State) : Nat := (s.epoch.toNat * 1000000 + s.aon.timeUs) % 2 ^ 64

/-- A record of 15 Table 15-3 with its CRC. -/
def recordBytes (s : State) (type cls detail unit rep info0 info1 outcome flags : Nat) : Bytes :=
  withCrc (natLe 1 type ++ natLe 1 1 ++ natLe 1 cls ++ natLe 1 detail ++ natLe 2 unit ++ natLe 2 rep ++
    natLe 4 (recordStep s) ++ natLe 4 (memberId s) ++ natLe 8 (recordTime s) ++ natLe 8 info0 ++ natLe 8 info1 ++
    natLe 4 s.book.seq.toNat ++ natLe 1 outcome ++ natLe 1 flags ++ zeros 14)

def nextSeq (s : State) : State := { s with book := { s.book with seq := s.book.seq + 1 } }

/-- Whether a fault time lies within BOOK_WINDOW seconds (R527). -/
def inWindow (s : State) (t : Nat) : Bool := decide (recordTime s < t + s.book.window.toNat * 1000000)

/-- Queue an exposure list for the fault with a sequence number, at most 16; beyond that expose_lost (R531, R532; log 175). -/
def trigger (unit cls seq : Nat) (s : State) : State :=
  if s.expose.waiting.length < 16 then
    { s with expose := { s.expose with waiting := s.expose.waiting ++ [⟨unit, cls, recordStep s, seq⟩] } }
  else { s with expose := { s.expose with lost := true } }

/-- Change a unit's status: a status record in the book; an exposure trigger on a change to permanent (R529). -/
def setStatus (unit cls new : Nat) (s : State) : State :=
  if (getUnit s unit).status = new then s
  else
    let t := nextSeq (modUnit unit (fun u => { u with status := new }) s)
    let t := bookWrite (recordBytes t 2 new 0 unit 1 0 0 0 0) t
    if new = 3 then trigger unit cls s.book.seq.toNat t else t

/-- The status that a fault of a class gives a unit (R528); permanent stays until a charter load. -/
def judged (s : State) (unit cls : Nat) : Nat :=
  let u := getUnit s unit
  let recent := u.faults.filter (fun f => inWindow s f.1)
  if u.status = 3 then 3
  else if cls = 0x18 then (if recent.isEmpty then 1 else 3)
  else if cls = 0x09 ∨ cls = 0x0A ∨ cls = 0x0B then 2
  else if classCounts cls then (if recent.any (fun f => classCounts f.2) then 3 else 1)
  else u.status

/-- One fault record per unit in 60 s; later ones are held and counted (R540). -/
def bookFault (cls detail unit : Nat) (r : Bytes) (s : State) : State :=
  let u := getUnit s unit
  match u.lastRec with
  | some t =>
    if recordTime s < t + 60000000 then
      modUnit unit (fun u => { u with
        heldN := u.heldN + 1,
        heldFirst := if u.heldN = 0 then (cls, detail) else u.heldFirst,
        heldMixed := u.heldMixed || (decide (0 < u.heldN) && decide (u.heldFirst.1 ≠ cls)) }) s
    else bookWrite r (modUnit unit (fun u => { u with lastRec := some (recordTime s) }) s)
  | none => bookWrite r (modUnit unit (fun u => { u with lastRec := some (recordTime s) }) s)

/-- Charge a fault to a unit: history and status (R527, R528). -/
def chargeUnit (cls unit : Nat) (s : State) : State :=
  let new := judged s unit cls
  let s := modUnit unit (fun u => { u with
    faults := (u.faults.filter (fun f => inWindow s f.1)) ++ [(recordTime s, cls)] }) s
  setStatus unit cls new s

/-- A fault (R525): counter, record in the ring, book, status of the unit, and of the partner for the checks of classes
0x09 to 0x0B, which also trigger exposure lists for both (R531). -/
def raiseOnce (cls detail unit info0 info1 outcome : Nat) (partner : Option Nat) (s : State) : State :=
  let s := nextSeq { s with faultCnt := tset 0 s.faultCnt cls (satInc (tget 0 s.faultCnt cls) 1) }
  let seq := s.book.seq.toNat
  let r := recordBytes s 1 cls detail unit 1 info0 info1 outcome 0
  let s := if bitOf s.flt.ctl 0 then ringPush .flt r s else s
  let s := bookFault cls detail unit r s
  let s := chargeUnit cls unit s
  match partner with
  | none => s
  | some p => trigger p cls seq (trigger unit cls seq (chargeUnit cls p s))

/-- Wear that has passed 900 or 1,000 is itself a book fault (R541). -/
def bookWatch (old s : State) : State :=
  let s := if old.book.wear < 900 ∧ 900 ≤ s.book.wear then
      raiseOnce 0x1A 2 uSteward 0 0 0 none { s with book := { s.book with warn := true } } else s
  if !old.book.stopped && s.book.stopped then raiseOnce 0x1A 3 uSteward 0 0 0 none s else s

/-- A fault with everything that follows from it. -/
def raiseFull (cls detail unit info0 info1 outcome : Nat) (partner : Option Nat) (s : State) : State :=
  bookWatch s (raiseOnce cls detail unit info0 info1 outcome partner s)

def raise (cls detail unit info0 info1 : Nat) (s : State) : State := raiseFull cls detail unit info0 info1 0 none s

/-- A configuration fault of a command, with its opcode (15 Table 15-4). -/
def configFault (opcode : Nat) (s : State) : State := raise 0x0E opcode uBlock 0 0 s

/-- info0 of a fault that names a chunk or a cell (15 Table 15-3). -/
def chunkInfo (group seq index : Nat) : Nat := group % 2 ^ 12 + seq % 2 ^ 16 * 2 ^ 12 + index % 2 ^ 24 * 2 ^ 28

/-- How the reads that a whole step makes end: each poisoned quarter is counted at its well (R415); an error status sets
err_cpl at the well of its address and is a memory fault (R417). -/
def readsEnd (rd : ReadEnd) (s : State) : State :=
  match rd with
  | .ok => s
  | .poisoned us => us.foldl (fun s u => modWell (wellOf s (64 * u)) (fun k => { k with poisonRd := satInc k.poisonRd 1 }) s) s
  | .error a =>
    let w := wellOf s a
    raise 0x11 2 (uWell w) a 0 (modWell w (fun k => { k with errCpl := true }) s)

/-- Whether what a step read from a range is to be taken as poisoned: what host memory holds as poison, or a quarter or a
failed read that the step's reads met there (R415, R417). -/
def readBad (s : State) (rd : ReadEnd) (a n : Nat) : Bool :=
  hostPoisoned s a n ||
  (match rd with
    | .ok => false
    | .poisoned us => us.any (fun u => decide (u * 64 < a + n ∧ a < u * 64 + 64))
    | .error e => decide (e / 4096 * 4096 < a + n ∧ a < e / 4096 * 4096 + 4096))

/-! ### Interrupts and other outputs, computed -/

def ringIrq (r : Ring) : Bool := bitOf r.ctl 1 && decide (r.head ≠ r.tail)

/-- IRQ_FAULT (R526); low while isolated (R550). -/
def irqFault (s : State) : Bool :=
  powered s && (ringIrq s.flt || s.expose.ready || s.step.mismatch || s.book.warn)
/-- IRQ_BELL (R318). -/
def irqBell (s : State) : Bool := powered s && ringIrq s.bell
/-- IRQ_HALT (R564, R572). -/
def irqHalt (s : State) : Bool :=
  powered s && (s.gfail.valid || s.forge.hold || s.boot.memErr || s.boot.selfTestFailed)
/-- CMD_READY (R560, R550). -/
def cmdReady (s : State) : Bool := powered s && decide (s.cmd.fifo.length < 256)
/-- The clock outputs run (R548). -/
def clocksOut (s : State) : Bool := powered s

end Sys2Proof.Machine
end

