-- ==== Sys2Proof/Config.lean ====
section
/-! DEFINITION. What the manual leaves open: constants without a body, so that no proof can see their value. Each is named
in the assumption log. -/

namespace Sys2Proof

/-- R87 bounds the exp stage to 1 unit in the last place and fixes it per input: which of the two FP32 neighbours of the
exact value it returns. Log 10. -/
opaque Config.expTakesUpper : U32 → Bool

/-- Table 03-4 does not say which zero `max` and `min` return for +0 and −0: whether the second operand's. Log 11. -/
opaque Config.zeroTieTakesSecond : Bool

/-- R574: the public half of the Svaica key held in ROM. Log 12. -/
opaque Config.romKey : Bytes

/-- R153 names a quantiser control block without giving its layout: how the 32 bytes at the control block address spell
the class, the rung, the base element offset and the chunk-record address. Log 13. -/
opaque Config.quantControl : Bytes → Nat × Nat × Nat × Nat

/-- What an encoding writes where no rule gives it a value: the side list and count word once its escapes overflow (R161), and
the sums and mass of a chunk record whose groups are not finite (R170). Log 31. -/
opaque Config.quantVoid : Bytes → Bytes

/-- R86 has results reach the output formats only through cvt and quant; for another FP32 result bound to a stream of a
16-bit, narrow or INT32 format no rule gives the bits stored. From the format code and the value. Log 32. -/
opaque Config.vecStore : Nat → U32 → Nat

/-- Table 15-1 has an uncorrectable granary slot rebuild its cell under R350, whose RESEND carries a reason of Table 09-6;
no reason is named for it. Log 18. -/
opaque Config.granaryReason : Nat

/-- R63 takes the scale of the group that contains a 32-product chunk and says that every chunk lies inside one group; for
operands placed so that a chunk meets two groups of its payload no rule says which scale it takes. From the groups of the
chunk's first and last element, the group whose scale is used. Log 24. -/
opaque Config.straddleGroup : Nat → Nat → Nat

/-- R431 does not give the length of an expander's read requests: 64-byte units of the request at an address, kept here to
what Table 11-1 and R408 allow. Log 26. -/
opaque Config.fetchUnits : Nat → Nat

/-- R117 gives a half-octave index to positive finite keys only; a router row flagged nonfinite may hold other keys. Log 27. -/
opaque Config.oddKeyIndex : U32 → Int

/-- R149 and R150 do not say what the valid count and the index_base of a merged record hold. Log 28. -/
opaque Config.mergedHeader : List Bytes → Nat × Nat

/-- A TOKEN or COUNTS chunk carries no destination member (R387, Table 10-7), yet R371 forwards it by one: the member that
received chunk bytes are addressed to. Log 20. -/
opaque Config.tokenDestination : Bytes → Nat

/-- A crier row frame names a stall slot and no send ordinal (Table 10-10), yet the stall tag holds the ordinal (Table 10-9):
the ordinal of the row from a source in a slot. Log 29. -/
opaque Config.crierOrdinal : Nat → Nat → Nat

/-- R386 encodes a row without escapes; for a row that holds a value that is not finite no rule gives its E4M3 bytes. Log 30. -/
opaque Config.oddRow : Bytes → Bytes

/-- R540 gives a coalesced record the class and detail of its first held fault and the held count; nothing says what its info0,
info1 and outcome hold. From that class and detail. Log 35. -/
opaque Config.coalescedInfo : Nat → Nat → Nat × Nat × Nat

/-- Table 15-4 gives an almanac package fault its refusal cause as detail and no codes for the causes. From the cause: 0 layout,
1 version, 2 signature, 3 serial, 4 a read that failed, 5 a pattern that has changed. Log 36. -/
opaque Config.almRefusal : Nat → Nat

/-- R98 and R99 speak of an operand of the tile's shape, and R479 checks the shape of a mac alone: the raw bits of the element
that a preload takes for a row and column its operand does not have. Log 38. -/
opaque Config.preloadVoid : Nat → Nat → Nat

/-- R102 names a 14-bit BCH code that corrects two errors and does not give its generator: the check bits of data and
poison. Log 143. -/
opaque Config.bchCheck : U64 → Bool → BitVec 14

/-- R49 and R93 keep an escape code from decoding to a number, and INT32 has no NaN: what an integer mac or a preload of an
INT32 tile takes for an escape code. From the scratchpad address of the code. Log 89. -/
opaque Config.intEscape : Nat → Int

/-- A tensor record names a reduction group and no operation (R190): which tensor an operation is of, where several records of its
group fit it and no forge record names it. From group and sequence. Log 9. -/
opaque Config.tensorOfOp : Nat → Nat → Nat

/-- R209 gives P and Q′ two operations of one group: whether an operation is that of Q′, where the element count fits both and no
forge record names it. From group and sequence. Log 9. -/
opaque Config.sketchPart : Nat → Nat → Bool

/-- Which of a core's slivers that hold a range a quantiser or sieve operation works on: its control block names no tensor. From
the core and the first element. Log 158. -/
opaque Config.sliverOf : Nat → Nat → Nat

/-- The operation sequence of a tensor that no forge record of this block names, in which the mill sends its NIL chunks (R205).
From group and tensor. Log 159. -/
opaque Config.millSeq : Nat → Nat → Nat

/-- R371 sends traffic for a member of this node through the gate whose GATE_PEER_ID names it; several gates may name one: which
of them, in ascending order, carries the member's traffic. Log 135. -/
opaque Config.gateOfMember : Nat → Nat

/-- R385 calls pool exhaustion a fault, and Table 15-4 lists no class that is raised under R383 or R385. Log 163. -/
opaque Config.exhaustClass : Nat

/-- R413 has fences so that store operations can wait for all earlier writes of a well with one request, and does not say which
store operations do: whether a core's store job ends with fences. Log 157. -/
opaque Config.storeFence : Nat → Nat → Bool

end Sys2Proof
end

