-- ==== Sys2Proof/Machine/Fp.lean ====
section
/-! DEFINITION. Number formats, rounding and FP32 arithmetic (02_numbers_and_accumulation.md, R41 to R53).
A finite value is a sign and a magnitude m × 2^e held exactly; every operation computes exactly and rounds once. -/

namespace Sys2Proof.Machine

/-- A floating value: finite values carry sign, integer magnitude and exponent (value m × 2^e). -/
inductive FVal where
  | nan
  | inf (neg : Bool)
  | fin (neg : Bool) (m : Nat) (e : Int)
deriving DecidableEq, Repr

/-- How a floating format ends: IEEE infinities, E4M3's one NaN pattern, or finite codes only (Table 02-2). -/
inductive FTop where
  | ieee | oneNan | allFinite
deriving DecidableEq, Repr

/-- A floating format (R43, Table 02-2). -/
structure FFmt where
  expBits : Nat
  manBits : Nat
  bias : Nat
  top : FTop
deriving DecidableEq, Repr

def fmtFP32 : FFmt := ⟨8, 23, 127, .ieee⟩
def fmtBF16 : FFmt := ⟨8, 7, 127, .ieee⟩
def fmtFP16 : FFmt := ⟨5, 10, 15, .ieee⟩
def fmtE5M2 : FFmt := ⟨5, 2, 15, .ieee⟩
def fmtE4M3 : FFmt := ⟨4, 3, 7, .oneNan⟩
def fmtE3M2 : FFmt := ⟨3, 2, 3, .allFinite⟩
def fmtE2M1 : FFmt := ⟨2, 1, 1, .allFinite⟩
/-- FP64 has no format code; only the mass field and the norm root use it. -/
def fmtFP64 : FFmt := ⟨11, 52, 1023, .ieee⟩

def FFmt.width (f : FFmt) : Nat := 1 + f.expBits + f.manBits

/-- The code of the infinity, or one past the largest finite magnitude. -/
def FFmt.topCode (f : FFmt) : Nat :=
  match f.top with
  | .ieee => (2 ^ f.expBits - 1) * 2 ^ f.manBits
  | .oneNan => 2 ^ (f.expBits + f.manBits) - 1
  | .allFinite => 2 ^ (f.expBits + f.manBits)

/-- The largest finite magnitude code (Table 02-2). -/
def FFmt.maxCode (f : FFmt) : Nat := f.topCode - 1

/-- The canonical NaN (R45): only its magnitude; positive sign. -/
def FFmt.nanCode (f : FFmt) : Nat :=
  match f.top with
  | .ieee => if f = fmtE5M2 then 0x7F else f.topCode + 2 ^ (f.manBits - 1)
  | .oneNan => f.topCode
  | .allFinite => 0

def FFmt.signBit (f : FFmt) : Nat := 2 ^ (f.expBits + f.manBits)

/-- The value of a code (R43, R44: subnormals are kept). -/
def FFmt.decode (f : FFmt) (c : Nat) : FVal :=
  let neg := bitOf c (f.expBits + f.manBits)
  let mag := c % f.signBit
  let e := mag / 2 ^ f.manBits
  let m := mag % 2 ^ f.manBits
  if f.topCode ≤ mag then (if f.top = .ieee ∧ m = 0 then .inf neg else .nan)
  else if e = 0 then .fin neg m (1 - (f.bias : Int) - f.manBits)
  else .fin neg (m + 2 ^ f.manBits) ((e : Int) - f.bias - f.manBits)

/-- Where a rounding goes on a tie. -/
inductive RMode where
  | rne | rna
deriving DecidableEq, Repr

/-- Magnitude code of m × 2^e (plus something below one unit of m when `sticky`), rounded to the format's grid without
regard to overflow. The code is (q − qmin) × 2^M + n for the quantum 2^q. -/
def FFmt.roundMag (f : FFmt) (mode : RMode) (m : Nat) (e : Int) (sticky : Bool) : Nat :=
  let qmin : Int := 1 - (f.bias : Int) - f.manBits
  let q : Int := max ((Nat.log2 m : Int) + e - f.manBits) qmin
  let base := (q - qmin).toNat * 2 ^ f.manBits
  if m = 0 then 0
  else if q ≤ e then base + m * 2 ^ (e - q).toNat
  else
    let sh := (q - e).toNat
    let n := m / 2 ^ sh
    let rem := m % 2 ^ sh
    let half := 2 ^ (sh - 1)
    let up : Bool := match mode with
      | .rna => decide (half ≤ rem)
      | .rne => decide (half < rem) || (decide (rem = half) && (sticky || n % 2 == 1))
    base + n + (if up then 1 else 0)

/-- RNE into a 16-, 32- or 64-bit float: overflow gives the infinity (R50, R59). -/
def FFmt.encodeRne (f : FFmt) (v : FVal) (sticky : Bool := false) : Nat :=
  match v with
  | .nan => f.nanCode
  | .inf neg => b2n neg * f.signBit + f.topCode
  | .fin neg m e => b2n neg * f.signBit + min (f.roundMag .rne m e sticky) f.topCode

/-! ### FP32 -/

abbrev F32 := U32

def f32Dec (a : F32) : FVal := fmtFP32.decode a.toNat
def f32Enc (v : FVal) (sticky : Bool := false) : F32 := BitVec.ofNat 32 (fmtFP32.encodeRne v sticky)

def f32NaN : F32 := 0x7FC00000#32
def f32One : F32 := 0x3F800000#32
def f32Inf (neg : Bool) : F32 := if neg then 0xFF800000#32 else 0x7F800000#32
def f32IsNaN (a : F32) : Bool := decide (f32Dec a = .nan)
def f32IsFinite (a : F32) : Bool := decide ((a.toNat / 2 ^ 23) % 256 ≠ 255)
def f32IsZero (a : F32) : Bool := decide (a.toNat % 2 ^ 31 = 0)
def f32Neg (a : F32) : F32 := if f32IsNaN a then f32NaN else a ^^^ 0x80000000#32
def f32Abs (a : F32) : F32 := if f32IsNaN a then f32NaN else a &&& 0x7FFFFFFF#32

/-- Exact signed integer of a finite value at a common exponent. -/
def atExp (neg : Bool) (m : Nat) (e e0 : Int) : Int :=
  let k : Int := ((m * 2 ^ (e - e0).toNat : Nat) : Int)
  if neg then -k else k

/-- Exact sum of two finite values; an exact zero is positive unless both are negative (IEEE 754 under RNE). -/
def finAdd (n1 : Bool) (m1 : Nat) (e1 : Int) (n2 : Bool) (m2 : Nat) (e2 : Int) : FVal :=
  let e0 := min e1 e2
  let s := atExp n1 m1 e1 e0 + atExp n2 m2 e2 e0
  if s = 0 then .fin (n1 && n2) 0 e0 else .fin (decide (s < 0)) s.natAbs e0

/-- Exact sum (markers under IEEE rules). -/
def vAdd (a b : FVal) : FVal :=
  match a, b with
  | .nan, _ => .nan
  | _, .nan => .nan
  | .inf n1, .inf n2 => if n1 = n2 then .inf n1 else .nan
  | .inf n, .fin .. => .inf n
  | .fin .., .inf n => .inf n
  | .fin n1 m1 e1, .fin n2 m2 e2 => finAdd n1 m1 e1 n2 m2 e2

/-- Exact product. -/
def vMul (a b : FVal) : FVal :=
  match a, b with
  | .nan, _ => .nan
  | _, .nan => .nan
  | .inf n1, .inf n2 => .inf (n1 != n2)
  | .inf n1, .fin n2 m _ => if m = 0 then .nan else .inf (n1 != n2)
  | .fin n1 m _, .inf n2 => if m = 0 then .nan else .inf (n1 != n2)
  | .fin n1 m1 e1, .fin n2 m2 e2 => .fin (n1 != n2) (m1 * m2) (e1 + e2)

def vNeg : FVal → FVal
  | .nan => .nan
  | .inf n => .inf (!n)
  | .fin n m e => .fin (!n) m e

def f32Add (a b : F32) : F32 := f32Enc (vAdd (f32Dec a) (f32Dec b))
def f32Sub (a b : F32) : F32 := f32Enc (vAdd (f32Dec a) (vNeg (f32Dec b)))
def f32Mul (a b : F32) : F32 := f32Enc (vMul (f32Dec a) (f32Dec b))
/-- Fused multiply and add, one rounding (Table 03-4). -/
def f32Fma (a b c : F32) : F32 := f32Enc (vAdd (vMul (f32Dec a) (f32Dec b)) (f32Dec c))

/-- A quotient of finite non-zero values with 80 quotient bits and a sticky bit. -/
def finDiv (f : FFmt) (neg : Bool) (m1 : Nat) (e1 : Int) (m2 : Nat) (e2 : Int) : Nat :=
  let k := 2 * f.manBits + 20 + Nat.log2 m2
  let n := m1 * 2 ^ k
  f.encodeRne (.fin neg (n / m2) (e1 - e2 - k)) (decide (n % m2 ≠ 0))

/-- Correctly rounded division in a format. -/
def FFmt.div (f : FFmt) (a b : FVal) : Nat :=
  match a, b with
  | .nan, _ => f.nanCode
  | _, .nan => f.nanCode
  | .inf _, .inf _ => f.nanCode
  | .inf n1, .fin n2 _ _ => f.encodeRne (.inf (n1 != n2))
  | .fin n1 _ _, .inf n2 => f.encodeRne (.fin (n1 != n2) 0 0)
  | .fin n1 m1 e1, .fin n2 m2 e2 =>
    if m2 = 0 then (if m1 = 0 then f.nanCode else f.encodeRne (.inf (n1 != n2)))
    else finDiv f (n1 != n2) m1 e1 m2 e2

def f32Div (a b : F32) : F32 := BitVec.ofNat 32 (fmtFP32.div (f32Dec a) (f32Dec b))
/-- 1 / a, correctly rounded (Table 03-4). -/
def f32Recip (a : F32) : F32 := f32Div f32One a

/-- Correctly rounded square root in a format. -/
def FFmt.sqrt (f : FFmt) (a : FVal) : Nat :=
  match a with
  | .nan => f.nanCode
  | .inf neg => if neg then f.nanCode else f.encodeRne (.inf false)
  | .fin neg m e =>
    if m = 0 then f.encodeRne (.fin neg 0 e)
    else if neg then f.nanCode
    else
      let k := 2 * (f.manBits + 8)
      let odd := (e - k) % 2 ≠ 0
      let n := if odd then m * 2 ^ (k + 1) else m * 2 ^ k
      let e' := if odd then e - k - 1 else e - k
      let r := Nat.sqrt n
      f.encodeRne (.fin false r (e' / 2)) (decide (r * r ≠ n))

def f32Sqrt (a : F32) : F32 := BitVec.ofNat 32 (fmtFP32.sqrt (f32Dec a))

/-- Exact order of two values that are not NaN: a < b. -/
def vLt (a b : FVal) : Bool :=
  match a, b with
  | .nan, _ => false
  | _, .nan => false
  | .inf n1, .inf n2 => n1 && !n2
  | .inf n, .fin .. => n
  | .fin .., .inf n => !n
  | .fin n1 m1 e1, .fin n2 m2 e2 =>
    let e0 := min e1 e2
    decide (atExp n1 m1 e1 e0 < atExp n2 m2 e2 e0)

def f32Lt (a b : F32) : Bool := vLt (f32Dec a) (f32Dec b)
def f32Gt (a b : F32) : Bool := f32Lt b a
/-- Neither is NaN and a ≤ b. -/
def f32Le (a b : F32) : Bool := !f32IsNaN a && !f32IsNaN b && !f32Lt b a

/-- The larger of two (Table 03-4); NaN if either is NaN. Between +0 and −0 the choice is free (log 11). -/
def f32Max (a b : F32) : F32 :=
  if f32IsNaN a || f32IsNaN b then f32NaN
  else if f32Lt a b then b else if f32Lt b a then a
  else if a = b then a else if Config.zeroTieTakesSecond then b else a

def f32Min (a b : F32) : F32 :=
  if f32IsNaN a || f32IsNaN b then f32NaN
  else if f32Lt b a then b else if f32Lt a b then a
  else if a = b then a else if Config.zeroTieTakesSecond then b else a

/-- An unsigned integer in FP32 with RNE. -/
def f32OfNat (n : Nat) : F32 := f32Enc (.fin false n 0)
def f32OfInt (n : Int) : F32 := f32Enc (.fin (decide (n < 0)) n.natAbs 0)

/-- FP32 to BF16 and FP16 with RNE (Table 02-3). -/
def bf16OfVal (v : FVal) : U16 := BitVec.ofNat 16 (fmtBF16.encodeRne v)
def bf16Rne (a : F32) : U16 := bf16OfVal (f32Dec a)
def fp16Rne (a : F32) : U16 := BitVec.ofNat 16 (fmtFP16.encodeRne (f32Dec a))
def f32OfBf16 (h : U16) : F32 := f32Enc (fmtBF16.decode h.toNat)
def f32OfFp16 (h : U16) : F32 := f32Enc (fmtFP16.decode h.toNat)

/-! ### exp (R87) -/

/-- One term and the running sum of the Taylor series of e^(r / 2^p) with p fraction bits. -/
def expTaylorStep (p r : Nat) (st : Nat × Nat) (i : Nat) : Nat × Nat :=
  let t := st.1 * r / 2 ^ p / (i + 1)
  (t, st.2 + t)

/-- e^(x) for x = r / 2^p below 1, with p fraction bits, rounded down. -/
def expTaylor (p r : Nat) : Nat := ((List.range 80).foldl (expTaylorStep p r) (2 ^ p, 2 ^ p)).2

/-- e^|a| as an integer with 400 fraction bits, for a magnitude m × 2^e below 128 (eight squarings). -/
def expMag (m : Nat) (e : Int) : Nat :=
  let p : Nat := 400
  let k : Int := e + 400 - 8
  let r := if 0 ≤ k then m * 2 ^ k.toNat else m / 2 ^ (-k).toNat
  (List.range 8).foldl (fun x _ => x * x / 2 ^ p) (expTaylor p r)

/-- The largest FP32 at or below a positive value n × 2^e. -/
def f32Floor (n : Nat) (e : Int) : Nat :=
  let q : Int := max ((Nat.log2 n : Int) + e - 23) (-149)
  let v := if q ≤ e then n * 2 ^ (e - q).toNat else n / 2 ^ (q - e).toNat
  (q + 149).toNat * 2 ^ 23 + v

/-- The exp stage: one of the two FP32 neighbours of e^a, fixed per input; 0 below −103.97, whose nearest FP32 value from above
is 0xC2CFF0A3, and for −infinity, +infinity above 88.72; exp of zero is 1 (R87, R100). -/
def f32Exp (a : F32) : F32 :=
  match f32Dec a with
  | .nan => f32NaN
  | .inf neg => if neg then 0 else f32Inf false
  | .fin neg m e =>
    if m = 0 then f32One
    else if neg && f32Lt a 0xC2CFF0A3#32 then 0
    else if !neg && f32Gt a 0x42B170A3#32 then f32Inf false
    else
      let x := expMag m e
      let lo := if neg then f32Floor (2 ^ 800 / x) (-400) else f32Floor x (-400)
      BitVec.ofNat 32 (if Config.expTakesUpper a then min (lo + 1) 0x7F800000 else lo)

/-! ### Narrow formats (R46 to R53) -/

/-- The formats with a code (Table 02-1). -/
inductive Fmt where
  | fp32 | bf16 | fp16 | e5m2 | e4m3 | e3m2 | e2m1 | int8 | int4 | int32 | xf
deriving DecidableEq, Repr

/-- The format of a 4-bit code; codes 0xB to 0xF are reserved (R42). -/
def Fmt.ofCode : Nat → Option Fmt
  | 0x0 => some .fp32 | 0x1 => some .bf16 | 0x2 => some .fp16 | 0x3 => some .e5m2 | 0x4 => some .e4m3
  | 0x5 => some .e3m2 | 0x6 => some .e2m1 | 0x7 => some .int8 | 0x8 => some .int4 | 0x9 => some .int32
  | 0xA => some .xf | _ => none

def Fmt.code : Fmt → Nat
  | .fp32 => 0 | .bf16 => 1 | .fp16 => 2 | .e5m2 => 3 | .e4m3 => 4 | .e3m2 => 5 | .e2m1 => 6 | .int8 => 7 | .int4 => 8
  | .int32 => 9 | .xf => 10

/-- Width in bits (Table 02-1). -/
def Fmt.width : Fmt → Nat
  | .fp32 => 32 | .bf16 => 16 | .fp16 => 16 | .e5m2 => 8 | .e4m3 => 8 | .e3m2 => 6 | .e2m1 => 4 | .int8 => 8
  | .int4 => 4 | .int32 => 32 | .xf => 640

def Fmt.isNarrow (f : Fmt) : Bool := f.width ≤ 8

/-- The floating shape of a format, if it has one. -/
def Fmt.float : Fmt → Option FFmt
  | .fp32 => some fmtFP32 | .bf16 => some fmtBF16 | .fp16 => some fmtFP16 | .e5m2 => some fmtE5M2
  | .e4m3 => some fmtE4M3 | .e3m2 => some fmtE3M2 | .e2m1 => some fmtE2M1 | _ => none

/-- The escape code of a narrow format: sign bit set, all else zero (R47). -/
def Fmt.escape (f : Fmt) : Nat := 2 ^ (f.width - 1)

/-- The largest finite value as a code magnitude: q of R162 for integer formats. -/
def Fmt.intMax : Fmt → Nat
  | .int8 => 127 | .int4 => 7 | _ => 0

/-- The exact value of a code, escapes of narrow formats apart (R43, R46, R49). -/
def Fmt.value (f : Fmt) (c : Nat) : FVal :=
  match f.float with
  | some ff => ff.decode c
  | none => let n := signed f.width c; .fin (decide (n < 0)) n.natAbs 0

/-- A code read without a side list: expanded exactly; an escape code is NaN (R49, R93). -/
def macValue (f : Fmt) (c : Nat) : FVal := if f.isNarrow && decide (c = f.escape) then .nan else f.value c

/-- What a narrow conversion counted (R53). -/
structure NarrowCounts where
  nonfinite : Nat
  saturation : Nat
deriving DecidableEq, Repr

/-- Magnitude of m × 2^e rounded to an integer, ties away from zero (R51). -/
def roundIntRna (m : Nat) (e : Int) (sticky : Bool) : Nat :=
  if 0 ≤ e then m * 2 ^ e.toNat
  else
    let sh := (-e).toNat
    let _ := sticky
    (m + 2 ^ (sh - 1)) / 2 ^ sh

/-- A signed magnitude code of a narrow format; a zero magnitude takes the positive zero code (R48). -/
def Fmt.signMag (f : Fmt) (neg : Bool) (mag : Nat) : Nat :=
  if mag = 0 then 0
  else match f.float with
    | some ff => b2n neg * ff.signBit + mag
    | none => if neg then 2 ^ f.width - mag else mag

/-- RNA into a narrow format with the edge cases of Table 02-4 (R51, R53). -/
def Fmt.encodeNarrow (f : Fmt) (v : FVal) (sticky : Bool := false) : Nat × NarrowCounts :=
  match f.float with
  | some ff =>
    match v with
    | .nan => (ff.nanCode, ⟨if ff.top = .allFinite then 1 else 0, 0⟩)
    | .inf neg =>
      if ff.top = .ieee then (b2n neg * ff.signBit + ff.topCode, ⟨0, 0⟩)
      else (f.signMag neg ff.maxCode, ⟨1, 0⟩)
    | .fin neg m e =>
      let c := ff.roundMag .rna m e sticky
      (f.signMag neg (min c ff.maxCode), ⟨0, if ff.maxCode < c then 1 else 0⟩)
  | none =>
    match v with
    | .nan => (0, ⟨1, 0⟩)
    | .inf neg => (f.signMag neg f.intMax, ⟨1, 0⟩)
    | .fin neg m e =>
      let c := roundIntRna m e sticky
      (f.signMag neg (min c f.intMax), ⟨0, if f.intMax < c then 1 else 0⟩)

end Sys2Proof.Machine
end

