-- ==== Sys2Proof/Machine/Xf.lean ====
section
/-! DEFINITION. XF, the exact accumulator (R54 to R59), and INT32 accumulation (R60). -/

namespace Sys2Proof.Machine

/-- What an XF pattern stands for: an integer N (value N × 2^-320) or a marker (R55). -/
inductive XVal where
  | nan
  | inf (neg : Bool)
  | num (n : Int)
deriving DecidableEq, Repr

def xfNan : XF := BitVec.ofInt 640 (-(2 ^ 639))
def xfInf (neg : Bool) : XF := BitVec.ofInt 640 (-(2 ^ 639) + (if neg then 2 else 1))

/-- The largest magnitude of a finite XF value, 2^639 − 4 (R55). -/
def xfMax : Int := 2 ^ 639 - 4

def xfVal (x : XF) : XVal :=
  let n := x.toInt
  if n = -(2 ^ 639) then .nan
  else if n = -(2 ^ 639) + 1 then .inf false
  else if n = -(2 ^ 639) + 2 then .inf true
  else if n = -(2 ^ 639) + 3 then .nan
  else .num n

/-- The pattern of an integer, replaced by ±L when it lies outside, with the sat flag (R57). -/
def xfOfInt (n : Int) : XF × Bool :=
  if xfMax < n then (BitVec.ofInt 640 xfMax, true)
  else if n < -xfMax then (BitVec.ofInt 640 (-xfMax), true)
  else (BitVec.ofInt 640 n, false)

/-- XF addition: exact, saturating, markers without regard to order (R57, R58). -/
def xfAdd (a b : XF) : XF × Bool :=
  match xfVal a, xfVal b with
  | .nan, _ => (xfNan, false)
  | _, .nan => (xfNan, false)
  | .inf n1, .inf n2 => (if n1 = n2 then xfInf n1 else xfNan, false)
  | .inf n, .num _ => (xfInf n, false)
  | .num _, .inf n => (xfInf n, false)
  | .num m, .num n => xfOfInt (m + n)

/-- Conversion into XF: exact where no bit lies below 2^-320, otherwise RNE at that weight; returns (pattern, tiny, sat)
(R56, R63). -/
def xfOfVal (v : FVal) : XF × Bool × Bool :=
  match v with
  | .nan => (xfNan, false, false)
  | .inf neg => (xfInf neg, false, false)
  | .fin neg m e =>
    let k := e + 320
    if 0 ≤ k then
      let n : Int := ((m * 2 ^ k.toNat : Nat) : Int)
      let r := xfOfInt (if neg then -n else n)
      (r.1, false, r.2)
    else
      let sh := (-k).toNat
      let q := m / 2 ^ sh
      let rem := m % 2 ^ sh
      let half := 2 ^ (sh - 1)
      let q := if half < rem ∨ (rem = half ∧ q % 2 = 1) then q + 1 else q
      let n : Int := (q : Int)
      let r := xfOfInt (if neg then -n else n)
      (r.1, decide (rem ≠ 0), r.2)

def xfOfF32 (a : F32) : XF := (xfOfVal (f32Dec a)).1

/-- The exact square of an FP32 value (R56). -/
def xfSquare (a : F32) : XF := (xfOfVal (vMul (f32Dec a) (f32Dec a))).1

/-- An XF pattern as a value to round (R59). -/
def xfToVal (x : XF) : FVal :=
  match xfVal x with
  | .nan => .nan
  | .inf neg => .inf neg
  | .num n => .fin (decide (n < 0)) n.natAbs (-320)

def xfToF32 (x : XF) : F32 := f32Enc (xfToVal x)
def xfToF64 (x : XF) : U64 := BitVec.ofNat 64 (fmtFP64.encodeRne (xfToVal x))
def xfIsMarker (x : XF) : Bool := match xfVal x with | .num _ => false | _ => true
def xfBytes (x : XF) : Bytes := natLe 80 x.toNat
def xfOfBytes (bs : Bytes) : XF := BitVec.ofNat 640 (leNat bs)
def xfNeg (x : XF) : XF :=
  match xfVal x with
  | .nan => xfNan
  | .inf n => xfInf (!n)
  | .num n => (xfOfInt (-n)).1

/-- The XF sum of a list of patterns, with the sat flag. -/
def xfSum (xs : List XF) : XF × Bool :=
  xs.foldl (fun acc x => let r := xfAdd acc.1 x; (r.1, acc.2 || r.2)) (0, false)

/-- The XF sum of FP32 values (R166, R167). -/
def xfSumF32 (xs : List F32) : XF := (xfSum (xs.map xfOfF32)).1

/-- INT32 addition, replaced by the nearest bound, with the sat flag (R60). -/
def int32Add (a b : Int) : Int × Bool :=
  let s := a + b
  if 2 ^ 31 - 1 < s then (2 ^ 31 - 1, true)
  else if s < -(2 ^ 31) then (-(2 ^ 31), true)
  else (s, false)

end Sys2Proof.Machine
end

