-- ==== Sys2Proof/Machine/Payload.lean ====
section
/-! DEFINITION. Chunks: the leading fields (07 Table 07-7), the payload layouts (05 Tables 05-7 to 05-10), the decoded value
(R165), the mass (R166), the seal (R258), consistency (R187) and what makes a chunk malformed (R259). -/

namespace Sys2Proof.Machine

def chunkBytes : Nat := 4144

/-- The leading fields of a chunk (07 Table 07-7). -/
structure Hdr where
  kind : Nat
  fmt : Nat
  grp : Nat
  flags : Nat
  group : Nat
  seq : Nat
  index : Nat
  base : Nat
  count : Nat
  member : Nat
  sparse : Nat
  weight : Nat
  step : Nat
deriving DecidableEq, Repr

def hdrOf (b : Bytes) : Hdr :=
  let fg := numAt b 1 1
  let ib := numAt b 8 8
  let ms := numAt b 20 4
  { kind := numAt b 0 1, fmt := field fg 3 0, grp := field fg 5 4, flags := numAt b 2 2,
    group := field (numAt b 4 2) 11 0, seq := numAt b 6 2, index := field ib 23 0, base := field ib 63 24,
    count := numAt b 16 4, member := field ms 17 0, sparse := field ms 27 18, weight := numAt b 24 4,
    step := numAt b 28 4 }

/-- The 32 bytes of the leading fields. -/
def hdrBytes (h : Hdr) : Bytes :=
  natLe 1 h.kind ++ natLe 1 (h.fmt + h.grp * 16) ++ natLe 2 h.flags ++ natLe 2 h.group ++ natLe 2 h.seq ++
    natLe 8 (h.index + h.base * 2 ^ 24) ++ natLe 4 h.count ++ natLe 4 (h.member + h.sparse * 2 ^ 18) ++
    natLe 4 h.weight ++ natLe 4 h.step

def payloadOf (b : Bytes) : Bytes := slice b 32 4096
def massOf (b : Bytes) : U64 := BitVec.ofNat 64 (numAt b 4128 8)
def sealOf (b : Bytes) : U64 := BitVec.ofNat 64 (numAt b 4136 8)
/-- The seal computed over bytes 0 to 4,135 (R258). -/
def sealComputed (b : Bytes) : U64 := crc64 (b.take 4136)
def sealGood (b : Bytes) : Bool := decide (sealOf b = sealComputed b)
/-- A failed seal that equals the complement of the seal computed marks a stomped chunk (R267). -/
def sealStomped (b : Bytes) : Bool := decide (sealOf b = ~~~ sealComputed b)

/-- A whole chunk from its fields, payload and mass, with its seal. -/
def mkChunk (h : Hdr) (payload : Bytes) (mass : U64) : Bytes :=
  let body := hdrBytes h ++ fit 0 4096 payload ++ natLe 8 mass.toNat
  body ++ natLe 8 (crc64 body).toNat

/-- A chunk with its flags changed and sealed again (R345). -/
def chunkSetFlag (b : Bytes) (i : Nat) (v : Bool) : Bytes :=
  let f := numAt b 2 2
  let f := if v then setBit f i else clearBit f i
  let body := (splice b 2 (natLe 2 f)).take 4136
  body ++ natLe 8 (crc64 body).toNat

/-- The same bytes with the complemented seal (R267). -/
def chunkStomp (b : Bytes) : Bytes := b.take 4136 ++ natLe 8 (~~~ sealComputed b).toNat

def chunkFlag (b : Bytes) (i : Nat) : Bool := bitOf (numAt b 2 2) i

/-! ### Chunk kinds (07 Table 07-8) -/

def kDense16 := 0x01
def kDense8 := 0x02
def kDense6 := 0x03
def kDense4 := 0x04
def kSparse16 := 0x05
def kSparse8 := 0x06
def kXf := 0x07
def kNil := 0x08
def kCounts := 0x09
def kToken := 0x0A
def kCrier := 0x0B

def kindFormats (kind : Nat) : List Nat :=
  match kind with
  | 0x01 => [1, 2] | 0x02 => [3, 4, 7] | 0x03 => [5] | 0x04 => [6, 8] | 0x05 => [1, 2] | 0x06 => [3, 4, 7]
  | 0x07 => [0xA] | 0x08 => [0, 1, 2, 3, 4, 5, 6, 7, 8, 9, 10] | 0x09 => [9] | 0x0A => [1, 4] | _ => []

/-- Largest element count and largest sparse count of a kind. -/
def kindCounts (kind : Nat) : Nat × Nat :=
  match kind with
  | 0x01 => (2048, 0) | 0x02 => (3840, 0) | 0x03 => (4992, 0) | 0x04 => (7296, 0) | 0x05 => (2 ^ 31, 680)
  | 0x06 => (2 ^ 31, 960) | 0x07 => (51, 0) | 0x08 => (2 ^ 24, 0) | 0x09 => (511, 0) | 0x0A => (4096, 0) | _ => (0, 0)

def kindNarrow (k : Nat) : Bool := k = kDense8 || k = kDense6 || k = kDense4 || k = kSparse8
def kindSparse (k : Nat) : Bool := k = kSparse16 || k = kSparse8

/-- Where the count word of a kind lies in its payload, if it has one (R182). -/
def countWordAt (kind : Nat) : Option Nat :=
  match kind with
  | 0x02 => some 3964 | 0x03 => some 3904 | 0x04 => some 3880 | 0x05 => some 4080 | 0x06 => some 3860 | _ => none

def countWord (b : Bytes) (kind : Nat) : Nat :=
  match countWordAt kind with
  | some o => numAt b (32 + o) 4
  | none => 0

/-- Malformed under R259, for a chunk that arrived on a virtual channel. -/
def malformed (vc : Nat) (b : Bytes) : Bool :=
  let h := hdrOf b
  let (cMax, sMax) := kindCounts h.kind
  (kindFormats h.kind).isEmpty || !(kindFormats h.kind).contains h.fmt ||
  decide (h.count = 0 ∨ cMax < h.count ∨ sMax < h.sparse) ||
  (if kindNarrow h.kind then decide (h.grp ≠ field (countWord b h.kind) 7 6) else decide (h.grp ≠ 0)) ||
  decide (field (numAt b 1 1) 7 6 ≠ 0 ∨ field h.flags 15 6 ≠ 0 ∨ field (numAt b 4 2) 15 12 ≠ 0 ∨
    field (numAt b 20 4) 31 28 ≠ 0) ||
  (if h.kind = kCounts ∨ h.kind = kToken then decide (vc ≠ 7) else decide (vc < 2 ∨ 6 < vc))

/-! ### Narrow layouts (05 Tables 05-8 to 05-10) -/

structure Lay where
  cap : Nat
  mult : Nat
  mults : Nat
  scale : Nat
  side : Nat
  sides : Nat
  rsv : Nat
  rsvN : Nat
deriving DecidableEq, Repr

def layOf (kind : Nat) : Option Lay :=
  match kind with
  | 0x02 => some ⟨3840, 3840, 120, 3960, 3968, 16, 4096, 0⟩
  | 0x03 => some ⟨4992, 3744, 156, 3900, 3908, 23, 4092, 4⟩
  | 0x04 => some ⟨7296, 3648, 228, 3876, 3884, 26, 4092, 4⟩
  | 0x06 => some ⟨960, 3840, 15, 3856, 3864, 29, 3855, 1⟩
  | _ => none

/-- Group size of a size code (05 Table 05-2). -/
def groupSize (code : Nat) : Nat := 32 * (code + 1)

/-- The codes of a payload, all of them, padding included. -/
def codesOf (kind : Nat) (p : Bytes) : List Nat :=
  match kind with
  | 0x02 => (p.take 3840).map (·.toNat)
  | 0x03 => (chunksOf 3 1248 (p.take 3744)).flatMap (fun t =>
      let w := leNat t; [field w 5 0, field w 11 6, field w 17 12, field w 23 18])
  | 0x04 => (p.take 3648).flatMap (fun b => [b.toNat % 16, b.toNat / 16])
  | 0x06 => (chunksOf 4 960 (p.take 3840)).map (fun t => (t.getD 3 0).toNat)
  | _ => []

/-- The codes packed back into bytes (R183, R184). -/
def packCodes (kind : Nat) (cs : List Nat) : Bytes :=
  match kind with
  | 0x02 => cs.map (BitVec.ofNat 8 ·)
  | 0x03 => (chunksOf 4 1248 cs).flatMap (fun t =>
      natLe 3 (t.getD 0 0 + t.getD 1 0 * 2 ^ 6 + t.getD 2 0 * 2 ^ 12 + t.getD 3 0 * 2 ^ 18))
  | 0x04 => (chunksOf 2 3648 cs).map (fun t => BitVec.ofNat 8 (t.getD 0 0 + t.getD 1 0 * 16))
  | _ => []

/-- Entry indexes of a sparse payload. -/
def sparseIdx (kind : Nat) (p : Bytes) (n : Nat) : List Nat :=
  if kind = kSparse8 then ((chunksOf 4 960 (p.take 3840)).take n).map (fun t => leNat (t.take 3))
  else ((chunksOf 4 680 (p.take 2720)).take n).map leNat

def ascending : List Nat → Bool
  | a :: b :: t => decide (a < b) && ascending (b :: t)
  | _ => true

/-- A side-list entry: position, group, exact value. -/
structure SideEnt where
  pos : Nat
  grp : Nat
  val : F32
deriving DecidableEq, Repr

def sideOf (l : Lay) (p : Bytes) (n : Nat) : List SideEnt :=
  ((chunksOf 8 l.sides ((p.drop l.side).take (8 * l.sides))).take n).map (fun t =>
    ⟨leNat (t.take 2), (t.getD 2 0).toNat, BitVec.ofNat 32 (leNat (t.drop 4))⟩)

/-- Elements that carry a code: the element count, or the entries of a sparse chunk. -/
def codedCount (h : Hdr) : Nat := if kindSparse h.kind then h.sparse else h.count

/-- Group size inside a chunk: 64 entries in a sparse chunk (R155). -/
def groupLen (h : Hdr) : Nat := if kindSparse h.kind then 64 else groupSize h.grp

def zeroFrom (p : Bytes) (lo hi : Nat) : Bool := allZero p lo (hi - lo)

/-- R187 for a narrow payload. -/
def narrowConsistent (h : Hdr) (l : Lay) (f : Fmt) (p : Bytes) : Bool :=
  let n := codedCount h
  let g := groupLen h
  let cw := numAt p ((countWordAt h.kind).getD 0) 4
  let esc := field cw 5 0
  let codes := codesOf h.kind p
  let used := codes.take n
  let side := sideOf l p esc
  let escPos := (used.zipIdx).filterMap (fun c => if c.1 = f.escape then some c.2 else none)
  let ng := (n + g - 1) / g
  let mus := (p.drop l.mult).take l.mults
  decide (field cw 7 6 = (if kindSparse h.kind then 1 else h.grp)) && decide (field cw 11 8 = h.fmt) &&
  decide (field cw 21 12 = (if kindSparse h.kind then h.sparse else 0)) && decide (field cw 31 22 = 0) &&
  decide (esc ≤ l.sides) && decide (escPos.length = esc) &&
  ascending (side.map (·.pos)) && side.all (fun e => escPos.contains e.pos && decide (e.grp = e.pos / g)) &&
  (List.range l.sides).all (fun j => allZero p (l.side + 8 * j + 3) 1) &&
  zeroFrom p (l.side + 8 * esc) (l.side + 8 * l.sides) &&
  (mus.take ng).all (fun m => decide (m.toNat < 0x7F)) && (mus.drop ng).all (· == 0) &&
  (codes.drop n).all (· == 0) && allZero p l.rsv l.rsvN &&
  (if h.kind = kSparse8 then
    let ix := sparseIdx h.kind p n
    ascending ix && ix.all (fun i => decide (i < h.count)) && zeroFrom p (4 * n) 3840
  else true)

/-- R187: whether the payload of a well-formed chunk is consistent. -/
def consistent (b : Bytes) : Bool :=
  let h := hdrOf b
  let p := payloadOf b
  match layOf h.kind, Fmt.ofCode h.fmt with
  | some l, some f => narrowConsistent h l f p
  | _, _ =>
    if h.kind = kDense16 then zeroFrom p (2 * h.count) 4096
    else if h.kind = kSparse16 then
      let ix := sparseIdx h.kind p h.sparse
      let cw := numAt p 4080 4
      decide (cw = 1 * 64 + h.fmt * 256 + h.sparse * 4096) &&
      ascending ix && ix.all (fun i => decide (i < h.count)) &&
      zeroFrom p (4 * h.sparse) 2720 && zeroFrom p (2720 + 2 * h.sparse) 4080 && zeroFrom p 4084 4096
    else if h.kind = kXf then zeroFrom p (80 * h.count) 4096
    else if h.kind = kNil then p.all (· == 0) && decide (h.base % 128 = 0) && decide (massOf b = 0)
    else true

/-! ### Decoded values (R165) -/

/-- A 16-bit value in FP32, −0 read as +0. -/
def dec16 (fmt : Nat) (v : Nat) : F32 :=
  let x := if fmt = 2 then f32OfFp16 (BitVec.ofNat 16 v) else f32OfBf16 (BitVec.ofNat 16 v)
  if f32IsZero x then 0 else x

/-- A code at rungs 0 to 2: round_fp32_rne(v × c × μ); never −0. -/
def decNarrow (f : Fmt) (c mu : FVal) (code : Nat) : F32 :=
  let x := f32Enc (vMul (vMul (f.value code) c) mu)
  if f32IsZero x then 0 else x

/-- The values of a DENSE or SPARSE chunk with their offsets from its base, in element order. -/
def decodeVals (b : Bytes) : List (Nat × F32) :=
  let h := hdrOf b
  let p := payloadOf b
  match layOf h.kind, Fmt.ofCode h.fmt with
  | some l, some f =>
    let n := codedCount h
    let g := groupLen h
    let side := sideOf l p (field (numAt p ((countWordAt h.kind).getD 0) 4) 5 0)
    let c := f32Dec (BitVec.ofNat 32 (numAt p l.scale 4))
    let mus := ((p.drop l.mult).take l.mults).map (fun m => fmtE4M3.decode m.toNat)
    let ds := (((codesOf h.kind p).take n).zipIdx).map (fun (code, j) =>
      if code = f.escape then ((side.find? (fun e => e.pos == j)).map (·.val)).getD 0
      else decNarrow f c (mus.getD (j / g) .nan) code)
    if kindSparse h.kind then (sparseIdx h.kind p n).zip ds else (List.range n).zip ds
  | _, _ =>
    if h.kind = kDense16 then
      ((chunksOf 2 2048 p).take h.count).zipIdx.map (fun (t, j) => (j, dec16 h.fmt (leNat t)))
    else if h.kind = kSparse16 then
      (sparseIdx h.kind p h.sparse).zip
        (((chunksOf 2 680 (p.drop 2720)).take h.sparse).map (fun t => dec16 h.fmt (leNat t)))
    else []

/-- The values of an XF chunk (R255). -/
def decodeXf (b : Bytes) : List (Nat × XF) :=
  let h := hdrOf b
  if h.kind = kXf then
    ((chunksOf 80 51 (payloadOf b)).take h.count).zipIdx.map (fun (t, j) => (j, xfOfBytes t)) else []

/-- The mass of decoded values: their XF sum as FP64 (R166). -/
def massOfVals (vs : List F32) : U64 := xfToF64 (xfSumF32 vs)
def massOfXf (vs : List XF) : U64 := xfToF64 (xfSum vs).1

/-- The mass that a chunk must carry (R257). -/
def massComputed (b : Bytes) : U64 :=
  if (hdrOf b).kind = kXf then massOfXf ((decodeXf b).map (·.2)) else massOfVals ((decodeVals b).map (·.2))
def massGood (b : Bytes) : Bool := decide (massOf b = massComputed b)

/-! ### Building payloads -/

/-- fmt16_rne of R290: RNE into the partial-sum format, a zero magnitude as +0. -/
def fmt16 (fmt : Nat) (x : F32) : Nat :=
  let v := if fmt = 2 then (fp16Rne x).toNat else (bf16Rne x).toNat
  if v % 2 ^ 15 = 0 then 0 else v

def dense16Payload (vs : List Nat) : Bytes := fit 0 4096 (vs.flatMap (natLe 2))

/-- A DENSE16 chunk of FP32 values converted by fmt16_rne, with its mass. -/
def mkDense16 (h : Hdr) (vs : List F32) : Bytes :=
  let cs := vs.map (fmt16 h.fmt)
  mkChunk { h with kind := kDense16, grp := 0, sparse := 0, count := vs.length } (dense16Payload cs)
    (massOfVals (cs.map (dec16 h.fmt)))

/-- A SPARSE16 chunk of at most 680 entries in ascending index (R182, Table 05-10). -/
def mkSparse16 (h : Hdr) (es : List (Nat × F32)) : Bytes :=
  let n := es.length
  let cs := es.map (fun e => fmt16 h.fmt e.2)
  let p := fit 0 2720 (es.flatMap (fun e => natLe 4 e.1)) ++ fit 0 1360 (cs.flatMap (natLe 2)) ++
    natLe 4 (64 + h.fmt * 256 + n * 4096) ++ zeros 12
  mkChunk { h with kind := kSparse16, grp := 0, sparse := n } p (massOfVals (cs.map (dec16 h.fmt)))

/-- An XF chunk (R255). -/
def mkXf (h : Hdr) (xs : List XF) : Bytes :=
  mkChunk { h with kind := kXf, fmt := 0xA, grp := 0, sparse := 0, count := xs.length } (fit 0 4096 (xs.flatMap xfBytes))
    (massOfXf xs)

/-- A NIL chunk (R256). -/
def mkNil (h : Hdr) : Bytes := mkChunk { h with kind := kNil, grp := 0, sparse := 0 } (zeros 4096) 0

/-! ### Mask frames (09 Table 09-2) -/

def maskFlits (e : Nat) : Nat := (12 + 4 * e + 55) / 56

def maskFrame (es : List MaskEnt) (excluded : Nat) : Bytes :=
  let f := maskFlits es.length
  let body := fit 0 (56 * f - 4) (natLe 2 f ++ natLe 2 es.length ++ natLe 4 excluded ++
    es.flatMap (fun e => natLe 4 (e.member + b2n e.subtree * 2 ^ 31)))
  body ++ natLe 4 (crc32c body).toNat

/-- R334: a mask frame that reads good, with its entries and excluded count. -/
def maskParse (m : Bytes) : Option (List MaskEnt × Nat) :=
  let f := numAt m 0 2
  let e := numAt m 2 2
  let ws := (chunksOf 4 893 ((m.drop 8).take (4 * e))).map leNat
  if decide (1 ≤ e ∧ e ≤ 893 ∧ f = maskFlits e ∧ m.length = 56 * f ∧ numAt m (56 * f - 4) 4 = (crc32c (m.take (56 * f - 4))).toNat) &&
      zeroFrom m (8 + 4 * e) (56 * f - 4) && ws.all (fun w => decide (field w 30 18 = 0)) &&
      ascending (ws.map (field · 17 0))
  then some (ws.map (fun w => ⟨field w 17 0, bitOf w 31⟩), numAt m 4 4)
  else none

end Sys2Proof.Machine
end

