-- ==== Sys2Proof/Machine/CoreOps.lean ====
section
/-! DEFINITION. What the engines of a core share (03 R75 to R110; 13 R464 to R495): registers, memories with their poison
bits, halts, queues, and reading and writing through them. -/

namespace Sys2Proof.Machine

/-! ### Scalar registers -/

/-- s0 reads as zero (13, Scalar slot). -/
def getS (k : Core) (r : Nat) : U32 := if r % 32 = 0 then 0 else tget 0 k.s (r % 32)
/-- Writes to s0 are ignored. -/
def setS (r : Nat) (v : U32) (k : Core) : Core := if r % 32 = 0 then k else { k with s := tset 0 k.s (r % 32) v }

/-! ### Halts (R489 to R492) -/

def eScalar := 0
def eVector := 1
def eMatrix := 2
def eLoad := 3
def eStore := 4
def eSync := 5
def eNone := 0xF

def resumable (code : Nat) : Bool := decide (0x10 ≤ code ∧ code ≤ 0x14)

/-- Empty one engine's queue. -/
def dropQueue (e : Nat) (k : Core) : Core :=
  match e with
  | 0 => { k with q0 := [] } | 1 => { k with q1 := [] } | 2 => { k with q2 := [] } | 3 => { k with q3 := [] }
  | 4 => { k with q4 := [] } | _ => k

/-- A halt condition: the first is latched, any later one sets CORE_STAT.more (R492). -/
def haltCore (addr code engine : Nat) (k : Core) : Core :=
  if k.state = 1 ∨ k.state = 3 then
    { k with state := 2, haltAddr := addr, haltCode := code, haltEngine := engine, haltReq := false, stepping := false,
             cntDue := false, saving := false }
  else if k.state = 2 then { k with more := true }
  else k

/-- A halt found by an engine: that engine discards its remaining entries (R490, R491). -/
def engineHalt (addr code engine : Nat) (k : Core) : Core := dropQueue engine (haltCore addr code engine k)

/-! ### Queues (R472) -/

def depths (k : Core) : List Nat := [k.q0.length, k.q1.length, k.q2.length, k.q3.length, k.q4.length, 0]
def depth (k : Core) (e : Nat) : Nat := (depths k).getD e 0
def queueDepth : Nat := 16

def allQueuesEmpty (k : Core) : Bool :=
  k.q0.isEmpty && k.q1.isEmpty && k.q2.isEmpty && k.q3.isEmpty && k.q4.isEmpty

/-- Every queue is empty and nothing started is unfinished (R482, R491). -/
def engineIdle (k : Core) : Bool := allQueuesEmpty k && !k.busyV && !k.busyM && k.loads.isEmpty && k.stores.isEmpty

/-- CORE_STAT.drained: after a halt (R491). -/
def drained (k : Core) : Bool := decide (k.state = 2) && engineIdle k

/-! ### Memory words and poison (R102 to R105) -/

/-- Stored words (64 data bits) that a byte range touches. -/
def wordsIn (a n : Nat) : List Nat := if n = 0 then [] else (List.range ((a + n + 7) / 8 - a / 8)).map (a / 8 + ·)

def anyPoison (ps : List Nat) (a n : Nat) : Bool := (wordsIn a n).any ps.contains

/-- Poison bits after a write: a word written whole takes the new bit, one written in part keeps a bit it had. -/
def poisonAfter (ps : List Nat) (a n : Nat) (bad : Bool) : List Nat :=
  let ws := wordsIn a n
  if bad then sortBy id (dedup (ps ++ ws))
  else ps.filter (fun w => !(ws.contains w && decide (a ≤ 8 * w ∧ 8 * w + 8 ≤ a + n)))

def scrRead (k : Core) (a n : Nat) : Bytes := mread 0 k.scratch a n
def scrBad (k : Core) (a n : Nat) : Bool := anyPoison k.poisonS a n
def scrWrite (a : Nat) (bs : Bytes) (bad : Bool) (k : Core) : Core :=
  { k with scratch := mwrite 0 k.scratch a bs, poisonS := poisonAfter k.poisonS a bs.length bad }

def sdataRead (k : Core) (a n : Nat) : Bytes := mread 0 k.sdata a n
def sdataBad (k : Core) (a n : Nat) : Bool := anyPoison k.poisonD a n
def sdataWrite (a : Nat) (bs : Bytes) (bad : Bool) (k : Core) : Core :=
  { k with sdata := mwrite 0 k.sdata a bs, poisonD := poisonAfter k.poisonD a bs.length bad }

def accRead (k : Core) (a n : Nat) : Bytes := mread 0 k.acc a n
def accBad (k : Core) (a n : Nat) : Bool := anyPoison k.poisonA a n
def accWrite (a : Nat) (bs : Bytes) (bad : Bool) (k : Core) : Core :=
  { k with acc := mwrite 0 k.acc a bs, poisonA := poisonAfter k.poisonA a bs.length bad }

def coreMemCode : CoreMem → Nat
  | .prog => 0 | .scratch => 1 | .acc => 2 | .sdata => 3

def setPoisonBit (m : CoreMem) (w : Nat) (k : Core) : Core :=
  match m with
  | .prog => { k with poisonP := sortBy id (dedup (k.poisonP ++ [w])) }
  | .scratch => { k with poisonS := sortBy id (dedup (k.poisonS ++ [w])) }
  | .acc => { k with poisonA := sortBy id (dedup (k.poisonA ++ [w])) }
  | .sdata => { k with poisonD := sortBy id (dedup (k.poisonD ++ [w])) }

/-- The 64 data bits of a stored word. -/
def wordData (m : CoreMem) (k : Core) (w : Nat) : U64 :=
  BitVec.ofNat 64 (leNat (match m with
    | .prog => mread 0 k.prog (8 * w) 8 | .scratch => mread 0 k.scratch (8 * w) 8
    | .acc => mread 0 k.acc (8 * w) 8 | .sdata => mread 0 k.sdata (8 * w) 8))

def wordPoison (m : CoreMem) (k : Core) (w : Nat) : Bool :=
  (match m with | .prog => k.poisonP | .scratch => k.poisonS | .acc => k.poisonA | .sdata => k.poisonD).contains w

/-- The 80 bits that a core memory stores for a word (R102): data, check bits, overall parity and poison. -/
structure StoredWord where
  data : U64
  check : BitVec 14
  parity : Bool
  poison : Bool
deriving DecidableEq, Repr

def oddOnes (n : Nat) (v : Nat) : Bool := ((List.range n).countP (fun i => bitOf v i)) % 2 == 1

/-- R102: the check bits cover data and poison, and the overall parity makes the number of ones even. Every write leaves the
word consistent, so the 15 bits follow from the other 65 and need no state of their own (log 143). -/
def storedWord (m : CoreMem) (k : Core) (w : Nat) : StoredWord :=
  let d := wordData m k w
  let p := wordPoison m k w
  let c := Config.bchCheck d p
  { data := d, check := c, parity := (oddOnes 64 d.toNat != oddOnes 14 c.toNat) != p, poison := p }

/-- An error that the check bits cannot correct: more than two bits (R102, R104). -/
def hardError (e : MemErr) : Bool := decide (2 < e.bits.length)

/-- The data bits that an uncorrectable error leaves wrong in the stored word, whose check bits are then made to fit (R104). -/
def damageWord (e : MemErr) (k : Core) : Core :=
  let mask := (e.bits.filter (· < 64)).foldl (fun n i => setBit n i) 0
  let v := natLe 8 (wordData e.mem k e.word ^^^ BitVec.ofNat 64 mask).toNat
  match e.mem with
  | .prog => { k with prog := mwrite 0 k.prog (8 * e.word) v }
  | .scratch => { k with scratch := mwrite 0 k.scratch (8 * e.word) v }
  | .acc => { k with acc := mwrite 0 k.acc (8 * e.word) v }
  | .sdata => { k with sdata := mwrite 0 k.sdata (8 * e.word) v }

/-- CORE_MEM_ERR keeps the first record while its valid bit is set (17 Table 17-9). -/
def recordMemErr (m : CoreMem) (w : Nat) (k : Core) : Core :=
  if bitOf k.memErr.toNat 31 then k else { k with memErr := BitVec.ofNat 32 (w + coreMemCode m * 2 ^ 16 + 2 ^ 31) }

/-- The errors of one word met by a read (R103, R104): corrected and queued for write-back, or the word left as it read and
poisoned, recorded, reported; the halt is the caller's. -/
def memError (c : Nat) (e : MemErr) (s : State) : State :=
  if hardError e then
    raise 0x01 (coreMemCode e.mem) (uCore c) (e.word * 8) 0
      (modCore c (fun k => recordMemErr e.mem e.word (setPoisonBit e.mem e.word (damageWord e k))) s)
  else modCore c (fun k => { k with eccCe := satInc k.eccCe 1, writeback := k.writeback ++ [(e.mem, e.word)] }) s

/-- The errors of a step on the memories it reads; the second result says whether one was uncorrectable. -/
def memErrors (c : Nat) (mems : List CoreMem) (errs : List MemErr) (s : State) : State × Bool :=
  let es := errs.filter (fun e => mems.contains e.mem)
  (es.foldl (fun s e => memError c e s) s, es.any hardError)

/-- ECC_WRITEBACK (R103): the oldest corrected word is written back; the delivered word was already the corrected one. -/
def execEccWriteback (c : Nat) (s : State) : Res :=
  actOn numCores c s (modCore c (fun k => { k with writeback := k.writeback.tail }))

end Sys2Proof.Machine
end

