-- ==== Sys2Proof/Machine/Roll.lean ====
section
/-! DEFINITION. The trees of a group (08_rolls_and_collectives.md, R268 to R278): derivation from the member list, and this
member's place, parent, children and adder gates in them. -/

namespace Sys2Proof.Machine

/-! ### Derivation -/

/-- A member's node number q and position p within its node (R272). -/
structure Place where
  member : Nat
  q : Nat
  p : Nat
deriving DecidableEq, Repr

/-- One step of numbering: the nodes seen so far with their member counts, in order of appearance. -/
def placeStep (z : Nat) (acc : List Place × List (Nat × Nat)) (m : Nat) : List Place × List (Nat × Nat) :=
  let node := m / z
  match acc.2.findIdx? (fun e => e.1 == node) with
  | some q =>
    let n := ((acc.2[q]?).map (·.2)).getD 0
    (acc.1 ++ [⟨m, q, n⟩], acc.2.set q (node, n + 1))
  | none => (acc.1 ++ [⟨m, acc.2.length, 0⟩], acc.2 ++ [(node, 1)])

/-- The places of all members in list order, and the member count of each node (R272). -/
def placesOf (z : Nat) (ms : List Nat) : List Place × List Nat :=
  let r := ms.foldl (placeStep z) ([], [])
  (r.1, r.2.map (·.2))

/-- The lowest set bit of a positive number. -/
def lowBit (p : Nat) : Nat := ((List.range 32).map (2 ^ ·)).find? (fun b => (p / b) % 2 == 1) |>.getD 0

/-- Parent of a place within a group that is not flat (R273, R274). -/
def treeParent (fan : Nat) (q p : Nat) : Option (Nat × Nat) :=
  if 0 < p then some (q, p - lowBit p)
  else if 0 < q then some ((q - 1) / fan, 0)
  else none

/-- Children of a place in sibling order (R273 to R275). -/
def treeChildren (fan : Nat) (counts : List Nat) (q p : Nat) : List (Nat × Nat) :=
  let n := counts.getD q 0
  let bits := ((List.range 18).map (2 ^ ·)).filter (fun b => decide ((p = 0 ∨ b < lowBit p) ∧ p + b < n))
  let inNode := bits.map (fun b => (q, p + b))
  let between := if p = 0 then
      ((List.range fan).map (fun i => (q * fan + 1 + i, 0))).filter (fun c => decide (c.1 < counts.length)) else []
  inNode ++ between

/-- A bound on the depth of a tree: a path has at most one edge for each node, and 18 within one. -/
def treeFuel (counts : List Nat) : Nat := counts.length + 18

/-- Height of a place (R276); `fuel` bounds the depth. -/
def treeHeight (fan : Nat) (counts : List Nat) : Nat → Nat → Nat → Nat
  | 0, _, _ => 0
  | fuel + 1, q, p =>
    (treeChildren fan counts q p).foldl (fun h c => max h (treeHeight fan counts fuel c.1 c.2 + 1)) 0

/-- Members in the subtree of a place, itself included (R332). -/
def treeSize (fan : Nat) (counts : List Nat) : Nat → Nat → Nat → Nat
  | 0, _, _ => 1
  | fuel + 1, q, p =>
    (treeChildren fan counts q p).foldl (fun n c => n + treeSize fan counts fuel c.1 c.2) 1

def memberAt (pl : List Place) (c : Nat × Nat) : Nat :=
  ((pl.find? (fun x => x.q == c.1 && x.p == c.2)).map (·.member)).getD 0

/-! ### Queries on a loaded group -/

/-- A loaded group by its id (R282). -/
def grpOf (s : State) (n : Nat) : Option Grp := s.roll.groups.find? (fun g => g.id == n)

/-- A loaded group that lists this member. -/
def myGrp (s : State) (n : Nat) : Option Grp := (grpOf s n).filter (fun g => g.view.memberOf)

/-- The virtual channel of a group's reductions (07 Table 07-5). -/
def redVc (n : Nat) : Nat := 2 + n % 4

/-- Elements of a cell (R285). -/
def cellLen (g : Grp) : Nat := if g.cls = 2 then 51 else 2048

/-- Number of cells of an operation of N elements. -/
def cellCount (g : Grp) (n : Nat) : Nat := (n + cellLen g - 1) / cellLen g

/-- Start and element count of cell j (R285). -/
def cellRange (g : Grp) (n j : Nat) : Nat × Nat := (j * cellLen g, min (cellLen g) (n - j * cellLen g))

/-- Chunk index of the reduced chunk of cell j (R285). -/
def cellIndex (g : Grp) (j : Nat) : Nat := if g.cls = 2 then j else 16 * j

def cellOfIndex (g : Grp) (i : Nat) : Nat := if g.cls = 2 then i else i / 16

/-- Cells that a range touches. -/
def cellsOf (g : Grp) (base count : Nat) : List Nat :=
  let a := base / cellLen g
  let b := (base + count - 1) / cellLen g
  if count = 0 then [] else (List.range (b + 1 - a)).map (a + ·)

/-- Elements of a range that lie in a cell. -/
def overlap (g : Grp) (n j base count : Nat) : Nat × Nat :=
  let (c0, cl) := cellRange g n j
  let lo := max c0 base
  let hi := min (c0 + cl) (base + count)
  (lo, hi - lo)

/-- List position of this member in a group. -/
def myPos (g : Grp) : Nat := g.view.position

/-- The list position that roots cell j (R272, R277). -/
def rootPos (g : Grp) (n j : Nat) : Nat :=
  if g.flat then
    let c := cellCount g n
    let k := g.members.length
    ((List.range k).find? (fun i => decide (i * c / k ≤ j ∧ j < (i + 1) * c / k))).getD 0
  else 0

/-- Whether this member is the root of cell j. -/
def isRoot (g : Grp) (n j : Nat) : Bool :=
  if g.flat then decide (rootPos g n j = myPos g) else g.view.root

/-- The children of this member for cell j, in sibling order: (sibling position, member, gate). In a flat group the root of
the cell's shard has every other member; others have none (R277). -/
def cellChildren (g : Grp) (n j : Nat) : List (Nat × Nat × Nat) :=
  if g.flat && !isRoot g n j then []
  else g.children.zipIdx.map (fun c => (c.2 + 1, c.1.1, c.1.2))

/-- Parent gate and parent member for cell j; none at the root (R277, Table 08-3). -/
def cellParent (g : Grp) (n j : Nat) : Option (Nat × Nat) :=
  if isRoot g n j then none
  else if g.flat then
    let m := g.members.getD (rootPos g n j) 0
    (g.children.find? (fun c => c.1 == m)).map (fun c => (c.2, c.1))
  else some (g.view.parentGate, g.view.parent)

/-- The gate that holds the adder of cell j: the parent gate, or at the root the root gate j mod count (R288). -/
def adderGate (g : Grp) (n j : Nat) : Nat :=
  if isRoot g n j then g.view.rootGates.getD (j % max 1 g.view.rootGates.length) 0
  else ((cellParent g n j).map (·.1)).getD 0

/-- Whether this member adds for cell j at all: it has children, or roots the cell. -/
def addsCell (g : Grp) (n j : Nat) : Bool := isRoot g n j || !(cellChildren g n j).isEmpty

/-- Sibling position of a member among the inputs of a cell at this member: 0 for its own (R275). -/
def sibPos (s : State) (g : Grp) (n j m : Nat) : Option Nat :=
  if m = memberId s then some 0
  else ((cellChildren g n j).find? (fun c => c.2.1 == m)).map (·.1)

/-- Sibling positions of all inputs of a cell here, its own first (R275). -/
def inputPositions (g : Grp) (n j : Nat) : List Nat := 0 :: (cellChildren g n j).map (·.1)

/-- Members counted by an exclusion of an input (R332). -/
def subtreeOf (g : Grp) (n j pos : Nat) : Nat :=
  if pos = 0 ∨ g.flat then 1 else let _ := n + j; g.subtree.getD (pos - 1) 1

/-- Height of this member in the tree of cell j (R276). -/
def cellHeight (g : Grp) (n j : Nat) : Nat :=
  if g.flat then (if isRoot g n j && decide (1 < g.members.length) then 1 else 0) else g.view.height

/-- Every member this one links to in any tree of the group, with its gate (R341). -/
def grpLinks (g : Grp) : List (Nat × Nat) :=
  (if g.flat || g.view.root then [] else [(g.view.parent, g.view.parentGate)]) ++ g.children

/-- Members a wave goes to: children in the group's tree; a flat group's waves use the tree of position 0 (R319, R277). -/
def waveChildren (g : Grp) : List (Nat × Nat) :=
  if g.flat && decide (myPos g ≠ 0) then [] else g.children

def waveParent (g : Grp) : Option (Nat × Nat) :=
  if g.flat then
    if myPos g = 0 then none
    else (g.children.find? (fun c => c.1 == g.members.getD 0 0))
  else if g.view.root then none else some (g.view.parent, g.view.parentGate)

def waveRoot (g : Grp) : Bool := (waveParent g).isNone

/-- Deadline D of a group (R323). -/
def deadlineOf (s : State) (g : Grp) : Nat := if g.deadline = 0 then (s.charter.map (·.deadline)).getD 0 else g.deadline

/-- Whether the link of a gate is up. -/
def linkUp (s : State) (g : Nat) : Bool := decide ((getGate s g).state = 2)

/-- The children a broadcast chunk goes to: the reverse of the tree of its source member (R302); none if a flat group does
not list the source. -/
def bcastChildren (g : Grp) (src me : Nat) : Option (List (Nat × Nat)) :=
  if g.flat then
    if !g.members.contains src then none
    else some (if src = me then g.children else [])
  else some g.children

/-- ROLL_STAT.state (08 Table 08-4): empty while no group is loaded. -/
def rollState (s : State) : Nat :=
  if s.roll.groups.isEmpty then 0
  else if s.roll.groups.all (·.ordered) then 3 else 2

end Sys2Proof.Machine
end

