-- ==== Sys2Proof/Machine/Coll.lean ====
section
/-! DEFINITION. Operations at this member (R284, R286, R596), the queues of a gate (R263, R264, R347), broadcasts (R302 to
R304) and the chunk tallies (R511). -/

namespace Sys2Proof.Machine

/-! ### Operations -/

def findOp (s : State) (nm : OpName) : Option Op := s.ops.find? (fun o => o.name == nm)

/-- Put an operation back, or open it at the end of the list. -/
def putOp (o : Op) (s : State) : State :=
  if (s.ops.any (fun x => x.name == o.name)) then
    { s with ops := replaceFirst (fun x => x.name == o.name) (fun _ => o) s.ops }
  else { s with ops := s.ops ++ [o] }

def modOp (nm : OpName) (f : Op → Op) (s : State) : State :=
  { s with ops := replaceFirst (fun o => o.name == nm) f s.ops }

def Op.cell (o : Op) (j : Nat) : Option Cell := o.cells.find? (fun c => c.idx == j)

def modCell (nm : OpName) (j : Nat) (f : Cell → Cell) (s : State) : State :=
  modOp nm (fun o => { o with cells := replaceFirst (fun c => c.idx == j) f o.cells }) s

def hdrName (h : Hdr) : OpName := ⟨h.group, h.seq, h.step⟩

/-- Whether a retained or queued chunk belongs to an operation. -/
def ofOp (nm : OpName) (b : Bytes) : Bool := decide (hdrName (hdrOf b) = nm)

def anyGate (s : State) (p : Gate → Bool) : Bool := s.gates.any (fun e => p e.2)

/-- All-reduce groups (08 Table 08-6). -/
def allReduce (g : Grp) : Bool := decide (g.rootDelivery = 1 ∨ g.rootDelivery = 2)

/-- Elements covered by ranges that do not overlap. -/
def covered (rs : List (Nat × Nat)) : Nat := rs.foldl (fun a r => a + r.2) 0

/-- R596: an operation that this member has opened has ended. -/
def opEnded (s : State) (o : Op) : Bool :=
  o.failed ||
  match grpOf s o.name.group with
  | none => true
  | some g =>
    (!o.registered || (decide (covered o.handed = o.n) &&
      !anyGate s (fun t => t.retained.any (fun r => r.firstHop && ofOp o.name r.bytes) ||
        t.sendQ.any (fun i => i.firstHop && ofOp o.name i.bytes)))) &&
    o.cells.all (fun c => c.bolted && decide (c.phase = .sent)) &&
    (!allReduce g || (o.registered && decide (o.deliveredCells.length = cellCount g o.n))) &&
    (match o.bcastNeed with | some k => decide (k ≤ o.bcastDone) | none => true) &&
    o.bc.all (fun b => b.bolted && b.delivered) && o.lacking.isEmpty &&
    !anyGate s (fun t => t.retained.any (fun r => ofOp o.name r.bytes) || t.sendQ.any (fun i => ofOp o.name i.bytes))

def opOpen (s : State) (o : Op) : Bool := !opEnded s o

/-- Whether a market operation is open here, of those whose header p names (R596): a chunk of it that this member sent has not been released, or one that
came has not bolted. -/
def marketOpen (s : State) (p : Hdr → Bool) : Bool :=
  anyGate s (fun t => t.retained.any (fun r => r.vc = 7 && p (hdrOf r.bytes)) || t.sendQ.any (fun i => i.vc = 7 && p (hdrOf i.bytes)) ||
    t.mkt.any (fun c => p (hdrOf c.bytes)))

/-- Whether any operation is open here, market operations among them (R596). -/
def anyOpOpen (s : State) : Bool := s.ops.any (opOpen s) || marketOpen s (fun _ => true)

/-- The moves of the map in force, and of the target map while a hinge runs (R37, R462). -/
def movesNow (s : State) : List MoveRec :=
  ((mapInForce s).map (·.moves)).getD [] ++ (if s.forge.hinging then ((mapNo s s.forge.target).map (·.moves)).getD [] else [])

/-- The name of a move carries the step of the last curfew, so that curfew does not end it (R462). -/
def moveName (s : State) (nm : OpName) : Bool :=
  decide (nm.step = s.step.lastCurfew.getD 0) && (movesNow s).any (fun v => decide (v.group = nm.group ∧ v.seq = nm.seq))

/-- Whether an operation has opened here and ended, or belongs to a step whose curfew has passed (R286). -/
def nameEnded (s : State) (nm : OpName) : Bool :=
  match findOp s nm with
  | some o => opEnded s o
  | none => decide (nm.step < 2 ^ 31) && !moveName s nm &&
      (match s.step.lastCurfew with | some l => decide (nm.step ≤ l) | none => false)

/-- Whether an operation of the open step, or of one not begun, stands here. -/
def trainingBegun (s : State) : Bool :=
  !s.step.ready.isEmpty || s.ops.any (fun o => decide (o.name.step < 2 ^ 31) && !moveName s o.name)

/-- Whether an operation may open: no tally mismatch stands (R517) and no almanac runs (R544); no hinge waits to switch that concerns
its group (R36); for a training step, the curfew of the step before has passed (R35) and no evaluation map is in force, and
for an evaluation name (R463), an evaluation map is, or no operation of the open step has begun (R38). -/
def mayOpen (s : State) (nm : OpName) : Bool :=
  !s.step.mismatch && s.alm.run.isNone &&
  !(s.forge.hinging && !s.forge.switched && s.forge.hingeGroups.contains nm.group) &&
  (if 2 ^ 31 ≤ nm.step then evalInForce s || !trainingBegun s
   else moveName s nm || (!evalInForce s &&
    match s.step.opened with
    | some o => decide (nm.step ≤ o)
    | none => match s.step.lastCurfew with
      | some l => decide (nm.step ≤ l + 1)
      | none => true))

/-- The bell kind of an operation that fails, and of a broadcast chunk (08 Table 08-8, R315). -/
def opKind (g : Grp) (o : Op) : Nat :=
  if allReduce g then 2 else if o.bcast && !o.registered then 1 else 0

/-! ### Faults at gates -/

def gateFault (cls detail g : Nat) (h : Hdr) (src cnt : Nat) (s : State) : State :=
  raise cls detail (uGate g) (chunkInfo h.group h.seq h.index) (src % 2 ^ 18 + cnt * 2 ^ 32) s

/-! ### Notices (07 Table 07-10) -/

def nBolt := 1
def nRevoke := 2
def nResend := 3
def nClose := 4
def nCack := 5
def nAsk := 6
def nGrant := 7
def nStep := 8

/-- A notice: common fields and bytes 28 to 55. -/
def mkNotice (code group seq index base count member step : Nat) (tail : Bytes) : Bytes :=
  natLe 1 code ++ zeros 1 ++ natLe 2 group ++ natLe 2 seq ++ zeros 2 ++ natLe 8 (index + base * 2 ^ 24) ++
    natLe 4 count ++ natLe 4 member ++ natLe 4 step ++ fit 0 28 tail

def noticeOf (code : Nat) (h : Hdr) (tail : Bytes) : Bytes :=
  mkNotice code h.group h.seq h.index h.base h.count h.member h.step tail

/-- The common fields of a notice read as the fields of the chunk it names. -/
def noticeHdr (b : Bytes) : Hdr :=
  let ib := numAt b 8 8
  { kind := 0, fmt := 0, grp := 0, flags := 0, group := field (numAt b 2 2) 11 0, seq := numAt b 4 2,
    index := field ib 23 0, base := field ib 63 24, count := numAt b 16 4, member := field (numAt b 20 4) 17 0,
    sparse := 0, weight := 0, step := numAt b 24 4 }

def noticeCode (b : Bytes) : Nat := numAt b 0 1

def sendNotice (g : Nat) (n : Bytes) (s : State) : State := modGate g (fun t => { t with noticeQ := t.noticeQ ++ [n] }) s

/-- A notice across the green inside the block, taken at a gate (R288, R350). -/
def greenNotice (g : Nat) (n : Bytes) (s : State) : State :=
  modGate g (fun t => { t with greenNotices := t.greenNotices ++ [n] }) s

/-- Whether two headers name the same chunk. -/
def sameChunk (a b : Hdr) : Bool :=
  decide (a.group = b.group ∧ a.seq = b.seq ∧ a.step = b.step ∧ a.base = b.base ∧ a.count = b.count ∧ a.member = b.member)

/-- A notice about a chunk sent over the same link: held while the chunk's last flit has not left (R347). -/
def noticeAfterChunk (g : Nat) (h : Hdr) (n : Bytes) (s : State) : State :=
  let t := getGate s g
  if t.retained.any (fun r => sameChunk (hdrOf r.bytes) h && !r.gone) then
    let hold := fun (r : Retained) => { r with heldNotices := r.heldNotices ++ [n] }
    let sel := fun (r : Retained) => sameChunk (hdrOf r.bytes) h && !r.gone
    modGate g (fun t => { t with retained := replaceFirst sel hold t.retained }) s
  else sendNotice g n s

/-! ### Sending chunks -/

/-- Retention slots of a gate in use (R263): chunks sent, and chunks that a core has handed it and that still wait in its send
queue, which hold theirs from the hand-off on (R199, R340, R480; log 41). -/
def slotsUsed (k : Gate) : Nat := k.retained.length + k.sendQ.countP (·.slot)

def enqueueItem (g : Nat) (i : SendItem) (s : State) : State := modGate g (fun t => { t with sendQ := t.sendQ ++ [i] }) s

/-- The virtual channel of a chunk: reductions by group, broadcasts 6, market 7 (07 Table 07-5). -/
def mkItem (b : Bytes) (mask : List MaskEnt) (excluded vc : Nat) (green firstHop granted : Bool) (cell : Option Nat) :
    SendItem :=
  { bytes := b, mask := mask, excluded := excluded, vc := vc, green := green, firstHop := firstHop,
    needGrant := decide (2 ≤ vc ∧ vc ≤ 5), granted := granted, cell := cell, poisoned := chunkFlag b cfPoisoned }

/-- The flits of a chunk and its mask frame, each as its type and its 56 payload bytes (R250, R262). -/
def chunkFlits (b : Bytes) (mask : List MaskEnt) (excluded : Nat) : List Bytes :=
  let ps := chunksOf 56 74 b
  let ty := fun i => if i = 0 then 4 else if i = 73 then 6 else 5
  ps.zipIdx.map (fun p => natLe 1 (ty p.2) ++ p.1) ++
    (if mask.isEmpty then [] else (chunksOf 56 64 (maskFrame mask excluded)).map (fun p => natLe 1 8 ++ p))

/-- A frame queued on a channel, named by its first flit, gives way to other flits. -/
def swapFrame (lead : Bytes) (new fs : List Bytes) : List Bytes :=
  let pre := fs.takeWhile (fun f => !(decide (numAt f 0 1 = 4) && f.drop 1 == lead))
  match fs.drop pre.length with
  | [] => fs
  | _ :: t => pre ++ new ++ t.dropWhile (fun f => decide (numAt f 0 1 ≠ 4))

/-- The flits of a channel without the frames that have not begun and whose first flit `p` picks. -/
def keepFrames (p : Bytes → Bool) : Bool → List Bytes → List Bytes
  | _, [] => []
  | keep, f :: t =>
    let keep := if numAt f 0 1 = 4 then !p (f.drop 1) else keep
    if keep then f :: keepFrames p keep t else keepFrames p keep t

/-- Whether a retained chunk's frame is queued with its first flit still here (R345, R351). -/
def frameWaits (k : Gate) (r : Retained) : Bool :=
  !r.green && !r.gone &&
    (tget [] k.chunkQ r.vc).any (fun f => decide (numAt f 0 1 = 4) && f.drop 1 == r.bytes.take 56)

def pushFlits (g vc : Nat) (fs : List Bytes) (s : State) : State :=
  modGate g (fun t => { t with chunkQ := tmod [] t.chunkQ vc (· ++ fs) }) s

/-! ### Tallies (R511) -/

/-- p of 14 Table 14-3. -/
def tallyPos (h : Hdr) : Nat := h.group * 2 ^ 52 + h.seq * 2 ^ 36 + h.index * 2 ^ 12

/-- The C term of a chunk: bytes 0 to 4,135 with the latched flag taken as 0. -/
def tallyC (b : Bytes) : U64 :=
  let f := clearBit (numAt b 2 2) cfLatched
  tally ((splice b 2 (natLe 2 f)).take 4136) (tallyPos (hdrOf b))

/-- The K term of its mask frame. -/
def tallyK (b : Bytes) (mask : List MaskEnt) (excluded : Nat) : U64 :=
  if mask.isEmpty then 0 else tally ((maskFrame mask excluded).take (8 + 4 * mask.length)) (tallyPos (hdrOf b) + 1024)

/-- C and K of the open step take a bolted chunk, and so do the terms of its operation's tensor digest (R514); evaluation
operations enter none (R507). -/
def tallyChunk (b : Bytes) (mask : List MaskEnt) (excluded : Nat) (s : State) : State :=
  let h := hdrOf b
  if 2 ^ 31 ≤ h.step then s
  else
    let c := tallyC b
    let k := tallyK b mask excluded
    let nm := hdrName h
    let add := fun (t : OpTally) => { t with c := t.c ^^^ c, k := t.k ^^^ k }
    let ts := s.step.opTallies
    let ts := if ts.any (fun t => t.op == nm) then replaceFirst (fun t => t.op == nm) add ts
      else ts ++ [add ⟨nm, 0, 0, 0, 0, 0, 0⟩]
    { s with step := { s.step with tC := s.step.tC ^^^ c, tK := s.step.tK ^^^ k, opTallies := ts } }

/-- A mode flag of an operation that bolts a chunk here, kept for its tensor digest too (R506, R514). -/
def setOpMode (nm : OpName) (bit : Nat) (s : State) : State :=
  let s := setModeAt nm.step bit s
  let ts := mapWhere (fun t => t.op == nm) (fun t => { t with flags := setBit t.flags bit }) s.step.opTallies
  { s with step := { s.step with opTallies := ts } }

/-- The mode flags that a chunk sets when it bolts here (14 Table 14-1). -/
def boltModes (b : Bytes) (mask : List MaskEnt) (s : State) : State :=
  let nm := hdrName (hdrOf b)
  let s := if chunkFlag b cfUnordered then setOpMode nm mfUnordered s else s
  let s := if mask.isEmpty then s else setOpMode nm mfExcluded s
  if chunkFlag b cfPoisoned then setOpMode nm mfPoisoned s else s

/-! ### Tensors, slivers and inboxes -/

/-- The rank of a sketched tensor: r = 4, 8, 16, 32 or 64 (06 Table 06-1). -/
def sketchRank (t : TensorRec) : Nat := 2 ^ (t.param + 2)

/-- Whether an operation of n elements may be one of a tensor's: the whole tensor, or P or Q′ of a sketch (R190, R209). -/
def tensorFits (t : TensorRec) (n : Nat) : Bool :=
  if t.mode = 2 then decide (n = t.rows * sketchRank t ∨ n = t.cols * sketchRank t) else decide (n = t.rows * t.cols)

/-- The forge record of any map that names an operation. -/
def namingForge (s : State) (nm : OpName) : Option ForgeRec :=
  (((s.charter.map (·.maps)).getD []).flatMap (·.forges)).find? (fun f => decide (f.group = nm.group ∧ f.seq = nm.seq))

/-- The tensor of an operation (R190, R439): that of the forge record which names it, else the record of its group in the map in
force that its element count fits and that no forge record gives another operation; among several the choice is open
(log 9). -/
def tensorOf (s : State) (nm : OpName) : Option TensorRec :=
  let maps := (s.charter.map (·.maps)).getD []
  let recs := ((mapInForce s).map (·.tensors)).getD []
  match namingForge s nm with
  | some f => (recs ++ maps.flatMap (·.tensors)).find? (fun t => t.tensor == f.tensor)
  | none =>
    let taken := fun (t : TensorRec) => decide (t.mode ≠ 2) && (maps.flatMap (·.forges)).any (fun f => f.tensor == t.tensor)
    let cs := recs.filter (fun t => decide (t.group = nm.group) && !taken t &&
      ((findOp s nm).filter (·.registered)).all (fun o => tensorFits t o.n))
    cs[if cs.length = 1 then 0 else Config.tensorOfOp nm.group nm.seq % max 1 cs.length]?

/-- Whether an operation of a sketched tensor is its Q′ reduction (R209): a forge record names that one (R439), else its element
count tells it from P. -/
def sketchQ (s : State) (t : TensorRec) (nm : OpName) : Bool :=
  (namingForge s nm).isSome ||
  (match (findOp s nm).filter (·.registered) with
    | some o => if t.rows = t.cols then Config.sketchPart nm.group nm.seq else decide (o.n = t.cols * sketchRank t)
    | none => Config.sketchPart nm.group nm.seq)

/-- The slivers of a tensor under the map in force (R21). -/
def sliversOf (s : State) (tensor : Nat) : List Sliver :=
  ((s.charter.map (·.slivers)).getD []).filter (fun v => decide (v.tensor = tensor ∧ v.map = s.forge.map))

/-- The cores whose slivers hold something of a range of a tensor's elements. -/
def sliverCores (s : State) (tensor first count : Nat) : List Nat :=
  dedup (((sliversOf s tensor).filter (fun v => decide (v.first < first + count ∧ first < v.first + v.count))).map (·.core))

/-- First and last byte of a core's inbox (16 Table 16-9, CARVE: work area, outbox, inbox). -/
def inboxRange (s : State) : Nat × Nat :=
  let c := (s.charter.map (·.carve)).getD []
  (c.getD 4 0, c.getD 5 0)

/-- Slots of 4,160 B that an inbox holds (log 14). -/
def inboxSlots (s : State) : Nat := let r := inboxRange s; (r.2 + 1 - r.1) / 4160

/-- A chunk lands at a place of a scratchpad; the words of a poisoned chunk carry its poison (R105), and a flit of 120 B that
the core discarded is missing (R106, R114). -/
def landChunk (a : Nat) (b : Bytes) (k : Core) : Core :=
  let gone := if k.torn then 120 else 0
  { scrWrite (a + gone) ((b.take chunkBytes).drop gone) (chunkFlag b cfPoisoned) k with torn := false }

/-- What stands behind a chunk in its inbox slot (R216; log 14): the excluded count, the number of mask entries, and whether a CLOSE
has excluded this member for the chunk's range. -/
def inboxTail (s : State) (b : Bytes) (mask : List MaskEnt) (excluded : Nat) : Bytes :=
  let h := hdrOf b
  let own := (findOp s (hdrName h)).any (fun o => o.closed.any (fun r => decide (r.1 < h.base + h.count ∧ h.base < r.1 + r.2)))
  natLe 4 excluded ++ natLe 4 mask.length ++ natLe 1 (b2n own) ++ zeros 7

/-- A gate writes a bolted chunk into the next slot of a core's inbox (R77; log 14). -/
def inboxWrite (b tail : Bytes) (s : State) (c : Nat) : State :=
  let n := inboxSlots s
  if n = 0 then s
  else modCore c (fun k =>
    let a := (inboxRange s).1 + 4160 * (k.inboxNext % n)
    countEvent evInbox (scrWrite (a + chunkBytes) tail false { landChunk a b k with inboxNext := k.inboxNext + 1 })) s

/-- The cores that take a delivered chunk (R304): those whose slivers hold its range; in a sketch, the row slivers of its P̄ rows, and
for Q̄′ every row sliver, since each forms Ĝ from all of it (R209). -/
def inboxCores (s : State) (h : Hdr) : List Nat :=
  match tensorOf s (hdrName h) with
  | none => []
  | some t =>
    if t.mode ≠ 2 then sliverCores s t.tensor h.base h.count
    else if sketchQ s t (hdrName h) then dedup ((sliversOf s t.tensor).map (·.core))
    else
      let r := sketchRank t
      let row := h.base / r
      sliverCores s t.tensor (row * t.cols) (((h.base + h.count + r - 1) / r - row) * t.cols)

def inboxDeliver (b : Bytes) (mask : List MaskEnt) (excluded : Nat) (s : State) : State :=
  (inboxCores s (hdrOf b)).foldl (inboxWrite b (inboxTail s b mask excluded)) s

/-! ### Broadcasts -/

/-- Queue a copy of a broadcast chunk to every child of the reverse tree (R302). -/
def queueForward (g : Grp) (b : Bytes) (mask : List MaskEnt) (excluded : Nat) (s : State) : State :=
  ((bcastChildren g (hdrOf b).member (memberId s)).getD []).foldl (fun s c =>
    enqueueItem c.2 (mkItem b mask excluded 6 false false true none) s) s

/-- Open an operation as a broadcast (R286). -/
def openBcast (nm : OpName) (s : State) : State :=
  match findOp s nm with
  | some _ => modOp nm (fun o => { o with bcast := true }) s
  | none => putOp { name := nm, n := 0, bcast := true } s

/-- Where a move's elements from `e` on lie under a map: the forge record of its tensor, and the half it moves (R460). -/
def moveAddr (m : PhaseMap) (v : MoveRec) (e : Nat) : Option Nat :=
  (m.forges.find? (fun f => f.tensor == v.tensor)).map (fun f => (if v.low then f.lbase else f.wbase) + 2 * e)

/-- The write of a broadcast chunk delivered with code 1 (R460): the range's BF16 weights, or the low half of a move. A
move's chunk that comes before this member has switched is one of the target map (R37). -/
def bcastAddress (s : State) (h : Hdr) : Option Nat :=
  let m := if s.forge.hinging && moveName s (hdrName h) then mapNo s s.forge.target else mapInForce s
  m.bind (fun m =>
    match m.moves.find? (fun v => decide (v.group = h.group ∧ v.seq = h.seq)) with
    | some v => moveAddr m v h.base
    | none => (m.forges.find? (fun f => decide (f.bgroup = h.group ∧ f.bseq = h.seq))).map (fun f => f.wbase + 2 * h.base))

/-- Where a slot of a tensor's sketch region begins (06 Table 06-2). -/
def sketchSlot (t : TensorRec) (odd : Bool) : Nat := t.sketch + (if odd then 64 + 2 * t.cols * sketchRank t else 0)

/-- R211: a bolted mean of Q′ goes into slot S mod 2 of the sketch region; once its last cell is here, the slot's header follows
behind the data (R414). -/
def sketchWrite (b : Bytes) (s : State) : State :=
  let h := hdrOf b
  match tensorOf s (hdrName h) with
  | some t =>
    if decide (t.mode = 2) && sketchQ s t (hdrName h) then
      let slot := sketchSlot t (decide (h.step % 2 = 1))
      let s := postWrite .gate (slot + 64 + 2 * h.base) ((payloadOf b).take (2 * h.count)) (chunkFlag b cfPoisoned) s
      let whole := match findOp s (hdrName h), grpOf s h.group with
        | some o, some g => o.registered && decide (o.deliveredCells.length = cellCount g o.n)
        | _, _ => false
      if whole then postAnnounce .steward slot (natLe 4 t.tensor ++ natLe 4 h.step ++ natLe 1 t.param ++ zeros 55) s else s
    else s
  | none => s

/-- R304: a bolted broadcast chunk is delivered by the group's broadcast delivery field. -/
def bcastDeliver (g : Grp) (b : Bytes) (mask : List MaskEnt) (excluded : Nat) (s : State) : State :=
  let h := hdrOf b
  let s := sketchWrite b s
  if g.bcastDelivery = 1 then
    match bcastAddress s h with
    | some a =>
      if h.kind = kNil then s
      else postWrite .gate a ((payloadOf b).take (2 * h.count)) (chunkFlag b cfPoisoned) s
    | none => raise 0x0E 0 uBlock (chunkInfo h.group h.seq h.index) h.member s
  else inboxDeliver b mask excluded s

/-- Status of a completion (08 Table 08-8): with exclusions whenever the mask is not empty (R338), else empty (R206) or bolted. -/
def bellStatus (b : Bytes) (mask : List MaskEnt) : Nat :=
  if !mask.isEmpty then 1 else if chunkFlag b cfEmpty then 2 else 0

end Sys2Proof.Machine
end

