-- ==== Sys2Proof/Machine/Scale.lean ====
section
/-! DEFINITION. Two-level scales (05 R162 to R164): the chunk scale, the group multipliers and the codes. -/

namespace Sys2Proof.Machine

/-- The smallest representable code whose value is at least num / den, for positive arguments (R162). -/
def FFmt.ceilDiv (f : FFmt) (num den : FVal) : Nat :=
  let c := f.div num den
  if vLt (vMul (f.decode c) den) num then c + 1 else c

/-- q of R162: the largest finite value of a narrow format. -/
def Fmt.qMax (f : Fmt) : FVal :=
  match f.float with
  | some ff => ff.decode ff.maxCode
  | none => .fin false f.intMax 0

def v448 : FVal := .fin false 448 0

/-- The chunk scale c: 0 when every group maximum is 0, else A / (448 q) rounded up to FP32 (R162). -/
def chunkScale (f : Fmt) (as : List F32) : F32 :=
  let a := as.foldl (fun m x => if f32Lt m x then x else m) 0
  if f32IsZero a then 0 else BitVec.ofNat 32 (fmtFP32.ceilDiv (f32Dec a) (vMul v448 f.qMax))

/-- The E4M3 multiplier of a group maximum: 0 for 0, else a / (q c) rounded up (R162). -/
def groupMult (f : Fmt) (c a : F32) : Nat :=
  if f32IsZero a then 0 else fmtE4M3.ceilDiv (f32Dec a) (vMul f.qMax (f32Dec c))

/-- The quotient of two finite values, long enough to round anywhere, and whether bits were cut off. -/
def ratio (num den : FVal) : FVal × Bool :=
  match num, den with
  | .fin n1 m1 e1, .fin n2 m2 e2 =>
    let k := 64 + Nat.log2 m2
    (.fin (n1 != n2) (m1 * 2 ^ k / m2) (e1 - e2 - k), decide (m1 * 2 ^ k % m2 ≠ 0))
  | _, _ => (.nan, false)

/-- RNA(x / (c μ)), applied once to the exact quotient; a group with μ = 0 takes the zero code (R164). -/
def scaledCode (f : Fmt) (c : F32) (mu : Nat) (x : F32) : Nat :=
  let s := vMul (f32Dec c) (fmtE4M3.decode mu)
  match s with
  | .fin _ 0 _ => 0
  | _ => let r := ratio (f32Dec x) s; (f.encodeNarrow r.1 r.2).1

/-- The largest magnitude of a group. -/
def groupMax (xs : List F32) : F32 := xs.foldl (fun m x => let a := f32Abs x; if f32Lt m a then a else m) 0

/-- Codes of a chunk whose elements all take codes: (c, multipliers, codes) for groups of `g` (R162 to R164, R181). -/
def encodeScaled (f : Fmt) (g n : Nat) (xs : List F32) : F32 × List Nat × List Nat :=
  let groups := chunksOf g n xs
  let as := groups.map groupMax
  let c := chunkScale f as
  let mus := as.map (groupMult f c)
  (c, mus, (groups.zip mus).flatMap (fun gm => gm.1.map (scaledCode f c gm.2)))

/-- The decoded value of a scaled code that has no side list (R165, R49); never −0. -/
def decodeScaled (f : Fmt) (c : F32) (mu code : Nat) : F32 :=
  let x := f32Enc (vMul (vMul (macValue f code) (f32Dec c)) (fmtE4M3.decode mu))
  if f32IsZero x then 0 else x

end Sys2Proof.Machine
end

