-- ==== Sys2Proof/Machine/Forge.lean ====
section
/-! DEFINITION. The forge, the global norm and the staged pair (12_forge_and_phases.md, R433 to R457; 17 R591 to R593;
15 R520 to R523). -/

namespace Sys2Proof.Machine

/-! ### Plausibility of values (R519, R520) -/

/-- Range class of a group: (emin, emax), or none when the check is off (R519). -/
def rangeOf (s : State) (group : Nat) : Option (Int × Int) :=
  s.charter.bind (fun c =>
    let cls := (c.rangeMap.getD group 0).toNat % 16
    let r := ((c.ranges.getD cls 0)).toNat
    let lo := signed 16 (field r 15 0)
    let hi := signed 16 (field r 31 16)
    if hi < lo then none else some (lo, hi))

/-- Violations among values: of the range check and of the non-finite check (R520). -/
def violations (s : State) (group : Nat) (vs : List F32) : Nat × Nat :=
  let rng := rangeOf s group
  let bad := vs.countP (fun v => !f32IsFinite v)
  let out := match rng with
    | none => 0
    | some (lo, hi) => vs.countP (fun v => match f32Dec v with
        | .fin _ m e => if m = 0 then false else let l : Int := (log2 m : Int) + e; decide (l < lo ∨ hi < l)
        | _ => false)
  (out, bad)

/-- One plausibility fault for a chunk with violations; detail 2 when some value is not finite (R520). -/
def plausible (unit : Nat) (h : Hdr) (vs : List F32) (s : State) : State :=
  let (r, n) := violations s h.group vs
  if r + n = 0 then s
  else raise 0x06 (if n = 0 then 1 else 2) unit (chunkInfo h.group h.seq h.index) (h.member + (r + n) * 2 ^ 32) s

/-! ### Records and moment blocks (R433 to R438) -/

def forgeRecs (s : State) : List ForgeRec := ((mapInForce s).map (·.forges)).getD []

def recordOf (s : State) (group seq : Nat) : Option ForgeRec :=
  (forgeRecs s).find? (fun r => decide (r.group = group ∧ r.seq = seq))

def recBlocks (r : ForgeRec) : Nat := (r.count + 2047) / 2048
def blockFirst (r : ForgeRec) (j : Nat) : Nat := r.first + 2048 * j
def blockLen (r : ForgeRec) (j : Nat) : Nat := min 2048 (r.count - 2048 * j)
/-- The block that a range is exactly, if it is one (R439). -/
def blockOf (r : ForgeRec) (base count : Nat) : Option Nat :=
  let j := (base - r.first) / 2048
  if decide (r.first ≤ base ∧ (base - r.first) % 2048 = 0 ∧ j < recBlocks r ∧ count = blockLen r j) then some j else none

def recSplit (r : ForgeRec) : Bool := bitOf r.flags 0
def recDecayEmpty (r : ForgeRec) : Bool := bitOf r.flags 1
def recNorm (r : ForgeRec) : Bool := bitOf r.flags 2
def recBias (r : ForgeRec) : Bool := bitOf r.flags 3

def weightAddr (r : ForgeRec) (e : Nat) : Nat := r.wbase + 2 * e
def lowAddr (r : ForgeRec) (e : Nat) : Nat := r.lbase + 2 * e
def mAddr (r : ForgeRec) (j : Nat) : Nat := r.mbase + 2176 * j
def sAddr (r : ForgeRec) (j : Nat) : Nat := r.sbase + 2176 * j

/-- The well whose forge owns a block (R438). -/
def blockWell (s : State) (r : ForgeRec) (j : Nat) : Nat := wellOf s (weightAddr r (blockFirst r j))

/-- FORGE_NORM_EXPECT (R453). -/
def normExpect (m : PhaseMap) : Nat := (m.forges.filter recNorm).foldl (fun n r => n + recBlocks r) 0

/-! ### Forge faults (12 Table 12-8) -/

/-- A forge fault, recorded at a well and charged to a unit (R439). -/
def forgeFault (cause w unit : Nat) (h : Hdr) (s : State) : State :=
  let s := modWell w (fun k =>
    if k.fvalid then k
    else { k with fvalid := true, fcause := cause, finfo := BitVec.ofNat 32 (h.group + h.seq * 2 ^ 12) }) s
  raise 0x10 cause unit (chunkInfo h.group h.seq h.index) h.member s

/-! ### The staged pair and the latch (R441, R592, R593) -/

def pairAgrees (s : State) (step : Nat) : Bool :=
  f32IsFinite s.forge.scaleLive && !f32Lt s.forge.scaleLive 0 &&
  (s.forge.stepLive == 0xFFFFFFFF#32 || decide (s.forge.stepLive.toNat = step))

/-- The step is held: nothing further of it is applied until FORGE_NORM_CTL is written (R455, R593). -/
def holdStep (step : Nat) (kappa : F32) (s : State) : State :=
  { s with forge := { s.forge with hold := true, heldStep := step, heldKappa := kappa } }

/-- Latch κ and the live pair for a step, or hold it with a configuration fault when the pair disagrees (R593). -/
def latchPair (step : Nat) (kappa : F32) (s : State) : State :=
  if pairAgrees s step then
    { s with forge := { s.forge with latched := some ⟨step, kappa, s.forge.scaleLive⟩, clip := kappa } }
  else raise 0x0E 0 uBlock 0 0 (holdStep step kappa s)

def latchedFor (s : State) (step : Nat) : Option Latched := s.forge.latched.filter (fun l => l.step == step)

/-! ### Broadcast of a block (R448) -/

/-- A chunk of a broadcast that this member roots: it bolts here as it starts, enters the tallies, and goes to every child
(R302, R511). -/
def rootBroadcast (b : Bytes) (mask : List MaskEnt) (excluded : Nat) (s : State) : State :=
  let h := hdrOf b
  match grpOf s h.group with
  | none => s
  | some g =>
    let s := openBcast (hdrName h) s
    let s := tallyChunk b mask excluded s
    let s := boltModes b mask s
    let s := modOp (hdrName h) (fun o => { o with bcastDone := o.bcastDone + h.count }) s
    queueForward g b mask excluded s

/-- The BF16 weights of a block, read back through the well, as one DENSE16 chunk (R448). -/
def updateBroadcast (r : ForgeRec) (j step : Nat) (s : State) : State :=
  if r.bgroup = 0xFFFF then s
  else
    let e := blockFirst r j
    let n := blockLen r j
    let a := weightAddr r e
    let h : Hdr :=
      { kind := kDense16, fmt := 1, grp := 0, flags := if hostPoisoned s a (2 * n) then 4 else 0,
        group := r.bgroup, seq := r.bseq, index := e / 128, base := e, count := n, member := memberId s, sparse := 0,
        weight := 1, step := step }
    let p := hostRead s a (2 * n)
    let vals := (chunksOf 2 2048 p).map (fun t => dec16 1 (leNat t))
    rootBroadcast (mkChunk h (fit 0 4096 p) (massOfVals vals)) [] 0 s

/-! ### Acceptance (R439, R440, R452, R456) -/

/-- The divisor W of a chunk (R440); 1 for a sketched tensor (R210). -/
def divisorOf (s : State) (r : ForgeRec) (h : Hdr) : F32 :=
  let t := ((mapInForce s).map (·.tensors)).getD [] |>.find? (fun t => t.tensor == r.tensor)
  if t.any (fun t => t.mode == 2) then f32One else f32OfNat h.weight

/-- Sparse values laid out over `n` elements; none where an element is not carried. -/
def spreadFrom : Nat → Nat → List (Nat × F32) → List (Option F32)
  | 0, _, _ => []
  | n + 1, i, [] => none :: spreadFrom n (i + 1) []
  | n + 1, i, (k, v) :: t =>
    if k = i then some v :: spreadFrom n (i + 1) t else none :: spreadFrom n (i + 1) ((k, v) :: t)

def spread (n : Nat) (vs : List (Nat × F32)) : List (Option F32) := spreadFrom n 0 vs

/-- The reduced gradients g of a chunk's elements, in order (R440). -/
def gradients (w : F32) (b : Bytes) : List F32 :=
  let h := hdrOf b
  (spread h.count (decodeVals b)).map (fun v => match v with
    | some x => f32Div x w
    | none => 0)

/-- One word string that the forge writes: tally F takes it (R511), and the well gets it. -/
def forgeWrite (w step a : Nat) (bs : Bytes) (s : State) : State :=
  let s := postWrite (.forge w) a bs false s
  if 2 ^ 31 ≤ step then s
  else { s with step := { s.step with tF := s.step.tF ^^^ tally bs (a / 8) } }

def blockKey (r : ForgeRec) (j step : Nat) : Nat × Nat × Nat := (r.group * 2 ^ 16 + r.seq, j, step)

/-- A block counts in FORGE_NORM_SEEN when its record is norm-flagged (R453). -/
def normSeen (r : ForgeRec) (failed : Bool) (s : State) : State :=
  if recNorm r then
    let f := s.forge
    { s with forge := { f with seen := satInc f.seen 1, failed := f.failed + b2n failed } } else s

/-- Queue an accepted chunk: parked when clipping is on and κ is not latched (R456), else direct. -/
def forgeQueue (w : Nat) (r : ForgeRec) (b : Bytes) (s : State) : State :=
  let step := (hdrOf b).step
  let wait := clipInForce s && decide (r.family ≠ 3) && !s.forge.result
  if wait then
    let k := getWell s w
    let base := ((s.charter.map (·.parkBase)).getD []).getD w 0
    let s := postWrite (.forge w) (base + 4160 * k.parkOrd)
      (b.take chunkBytes ++ natLe 4 k.parkOrd ++ natLe 4 step ++ zeros 8) false s
    modWell w (fun k => { k with
      parked := k.parked + 1, parkOrd := k.parkOrd + 1, fqueue := k.fqueue ++ [⟨[], some k.parkOrd, step⟩] }) s
  else modWell w (fun k => { k with fqueue := k.fqueue ++ [⟨b, none, step⟩] }) s

/-- A block skipped under R451: counted, reported, flagged, and still broadcast with its old weights (R448). -/
def skipBlock (cause w : Nat) (r : ForgeRec) (j : Nat) (h : Hdr) (s : State) : State :=
  let s := modWell w (fun k => { k with skipped := satInc k.skipped 1 }) s
  let s := if cause = 0 then s else forgeFault cause w (uWell w) h s
  let s := setModeAt h.step mfForgeSkip s
  updateBroadcast r j h.step s

/-- FORGE_ACCEPT (R439): a bolted chunk from a gate or a core. -/
def forgeAccept (b : Bytes) (s : State) : State :=
  let h := hdrOf b
  match recordOf s h.group h.seq with
  | none => forgeFault 1 0 uBlock h s
  | some r =>
    let w0 := wellOf s (weightAddr r h.base)
    if !((mapInForce s).any mapForge) then forgeFault 7 w0 (uWell w0) h s
    else match blockOf r h.base h.count with
    | none => forgeFault 2 w0 (uWell w0) h s
    | some j =>
      let w := blockWell s r j
      if !(h.kind = kDense16 || h.kind = kSparse16 || h.kind = kNil) then forgeFault 6 w (uWell w) h s
      else
        let m := hostRead s (mAddr r j) 2176
        let again := (getWell s w).accepted.contains (blockKey r j h.step) ||
          (decide (r.family ≠ 3) && decide (numAt m 2116 4 ≠ 0 ∧ numAt m 2128 4 = h.step))
        if again then forgeFault 3 w (uWell w) h s
        else
          let s := modWell w (fun k => { k with accepted := k.accepted ++ [blockKey r j h.step] }) s
          let s := if r.bgroup = 0xFFFF then s else
            let nm : OpName := ⟨r.bgroup, r.bseq, h.step⟩
            modOp nm (fun o => { o with bcastNeed := some r.count }) (openBcast nm s)
          if !consistent b then skipBlock 8 w r j h (normSeen r true s)
          else
            let gs := gradients (divisorOf s r h) b
            let s := if h.kind = kNil then s else plausible (uWell w) h gs s
            let s := if recNorm r && h.kind ≠ kNil then
                modWell w (fun k => { k with normTotal := (xfSum (k.normTotal :: gs.map xfSquare)).1 }) s else s
            let s := normSeen r false s
            if s.forge.abandoned = some h.step then updateBroadcast r j h.step s
            else
              let s := if !clipInForce s && decide (r.family ≠ 3) && (latchedFor s h.step).isNone && !s.forge.hold then
                latchPair h.step f32One s else s
              forgeQueue w r b s

/-- Blocks of an operation that failed count as seen and failed (R453). -/
def forgeOpFailed (nm : OpName) (s : State) : State :=
  match recordOf s nm.group nm.seq with
  | none => s
  | some r =>
    (List.range (recBlocks r)).foldl (fun s j =>
      let w := blockWell s r j
      if (getWell s w).accepted.contains (blockKey r j nm.step) then s
      else normSeen r true (modWell w (fun k => { k with accepted := k.accepted ++ [blockKey r j nm.step] }) s)) s

/-! ### The update of one block (R441 to R446, R450, R451) -/

/-- Values latched for a record (R441). -/
structure RecPar where
  kappa : F32
  eta : F32
  a : F32
  b1 : F32
  b2 : F32

def recPar (r : ForgeRec) (l : Latched) : RecPar :=
  let eta := f32Mul r.eta l.lrScale
  { kappa := l.kappa, eta := eta, a := f32Mul eta r.lam, b1 := f32Sub f32One r.beta1, b2 := f32Sub f32One r.beta2 }

/-- Decoded moments of a stored block; a fresh block reads zero (R436, R437). -/
def momentVals (blk : Bytes) (fresh : Bool) (n : Nat) : List F32 :=
  let c : F32 := BitVec.ofNat 32 (numAt blk 2112 4)
  (List.range n).map (fun i => if fresh then 0 else
    decodeScaled .e4m3 c (blk.getD (2048 + i / 32) 0).toNat (blk.getD i 0).toNat)

/-- A new moment block with its header bytes (R436, Table 12-2), and whether its scale is finite. -/
def momentBytes (vs : List F32) (hdr : Bytes) : Bytes :=
  let (c, mus, codes) := encodeScaled .e4m3 32 64 vs
  fit 0 2048 (codes.map (BitVec.ofNat 8 ·)) ++ fit 0 64 (mus.map (BitVec.ofNat 8 ·)) ++ natLe 4 c.toNat ++ fit 0 60 hdr

/-- The element update of R443: new weight, new m, new σ, and whether every value is finite. -/
def updateElem (r : ForgeRec) (p : RecPar) (bc1 bc2 w m sig g : F32) : F32 × F32 × F32 × Bool :=
  let gc := f32Mul g p.kappa
  let x := f32Fma (f32Neg p.a) w w
  let (x, mn, sn) :=
    if r.family = 0 then
      let mn := f32Fma r.beta1 m gc
      (f32Fma (f32Neg p.eta) mn x, mn, (0 : F32))
    else if r.family = 1 then
      let mn := f32Fma r.beta1 m (f32Mul p.b1 gc)
      let vn := f32Fma r.beta2 (f32Mul sig sig) (f32Mul p.b2 (f32Mul gc gc))
      let sn := f32Sqrt vn
      let num := f32Mul mn bc1
      let den := f32Fma sn bc2 r.eps
      let u := f32Mul num (f32Recip den)
      (f32Fma (f32Neg p.eta) u x, mn, sn)
    else
      let c := f32Fma r.beta1 m (f32Mul p.b1 gc)
      let u : F32 := if f32Lt 0 c then f32One else if f32Lt c 0 then f32Neg f32One else if f32IsNaN c then c else 0
      let mn := f32Fma r.beta2 m (f32Mul p.b2 gc)
      (f32Fma (f32Neg p.eta) u x, mn, (0 : F32))
  (x, mn, sn, f32IsFinite gc && f32IsFinite x && f32IsFinite mn && f32IsFinite sn)

/-- Stochastic rounding to BF16 (R70 to R73). -/
def srBf16 (seed : U64) (step tensor index : Nat) (x : F32) : Nat :=
  let v := x.toNat
  let h := v / 2 ^ 16
  let t := v % 2 ^ 16
  if f32IsNaN x then 0x7FC0
  else if !f32IsFinite x then h
  else
    let r := (srBits seed (BitVec.ofNat 32 step) (BitVec.ofNat 32 tensor) index).toNat
    if t + r < 2 ^ 16 then h
    else if (h + 1) % 2 ^ 15 = 0x7F80 then h else h + 1

/-- Bytes of the new weights at their addresses: stochastic BF16, or both exact halves under split (R446). -/
def weightWrites (s : State) (r : ForgeRec) (j step : Nat) (xs : List F32) : List (Nat × Bytes) :=
  let e := blockFirst r j
  if recSplit r then
    [(weightAddr r e, xs.flatMap (fun x => natLe 2 (x.toNat / 2 ^ 16))), (lowAddr r e, xs.flatMap (fun x => natLe 2 x.toNat))]
  else
    let seed : U64 := BitVec.ofNat 64 (((mapInForce s).map (·.seed)).getD 0)
    [(weightAddr r e, xs.zipIdx.flatMap (fun x => natLe 2 (srBf16 seed step r.tensor (e + x.2) x.1)))]

/-- The weights of a block, read exactly (R445). -/
def readWeights (s : State) (r : ForgeRec) (j : Nat) : List F32 :=
  let e := blockFirst r j
  let n := blockLen r j
  let hi := (chunksOf 2 2048 (hostRead s (weightAddr r e) (2 * n))).map leNat
  let lo := if recSplit r then (chunksOf 2 2048 (hostRead s (lowAddr r e) (2 * n))).map leNat else hi.map (fun _ => 0)
  (hi.zip lo).map (fun p => BitVec.ofNat 32 (p.1 * 2 ^ 16 + p.2))

/-- What applying a chunk to its block comes to. -/
inductive Applied where
  | writes (ws : List (Nat × Bytes))
  | skip (cause : Nat)
  | nothing
deriving DecidableEq, Repr

/-- A NIL chunk of an operation that nobody contributed to (R450). -/
def emptyChunk (b : Bytes) : Bool := decide ((hdrOf b).kind = kNil) && chunkFlag b cfEmpty

/-- Whether what a block is computed from is poisoned: its chunk, and what of its weights and moments it reads, as read (R415,
R417, R451). An empty chunk reads no moments, and weights only for its decay (R450); place reads nothing (R444). -/
def blockPoisoned (rd : ReadEnd) (s : State) (r : ForgeRec) (j : Nat) (b : Bytes) : Bool :=
  let e := blockFirst r j
  let n := blockLen r j
  let weights := if emptyChunk b then recDecayEmpty r else decide (r.family ≠ 3)
  let moments := !emptyChunk b && decide (r.family ≠ 3)
  chunkFlag b cfPoisoned || (weights && readBad s rd (weightAddr r e) (2 * n)) ||
    (weights && recSplit r && readBad s rd (lowAddr r e) (2 * n)) ||
    (moments && readBad s rd (mAddr r j) 2176) ||
    (moments && decide (r.family = 1) && readBad s rd (sAddr r j) 2176)

/-- The whole computation of one block (R440 to R446, R450, R451); `poisoned` says that something it reads is poisoned. -/
def computeBlock (s : State) (r : ForgeRec) (j : Nat) (b : Bytes) (l : Option Latched) (poisoned : Bool) : Applied :=
  let h := hdrOf b
  let n := blockLen r j
  let e := blockFirst r j
  let p := recPar r (l.getD ⟨h.step, f32One, f32One⟩)
  if poisoned then .skip 5
  else if emptyChunk b then
    let xs := (readWeights s r j).map (fun w => f32Fma (f32Neg p.a) w w)
    if !recDecayEmpty r then .nothing
    else if xs.all f32IsFinite then .writes (weightWrites s r j h.step xs) else .skip 4
  else
    let gs := gradients (divisorOf s r h) b
    if r.family = 3 then
      let ss := (spread n (decodeVals b)).map (fun v => v.getD 0)
      if ss.all f32IsFinite then .writes [(weightAddr r e, ss.flatMap (fun x => natLe 2 (bf16Rne x).toNat))] else .skip 4
    else
      let mb := hostRead s (mAddr r j) 2176
      let sb := hostRead s (sAddr r j) 2176
      let t := numAt mb 2116 4
      let fresh := decide (t = 0)
      let p1 : F32 := f32Mul (if fresh then f32One else BitVec.ofNat 32 (numAt mb 2120 4)) r.beta1
      let p2 : F32 := f32Mul (if fresh then f32One else BitVec.ofNat 32 (numAt mb 2124 4)) r.beta2
      let bc1 := if recBias r then f32Recip (f32Sub f32One p1) else f32One
      let bc2 := if recBias r then f32Recip (f32Sqrt (f32Sub f32One p2)) else f32One
      let ms := momentVals mb fresh n
      let sg := if r.family = 1 then momentVals sb fresh n else ms.map (fun _ => 0)
      let us := (((readWeights s r j).zip (ms.zip sg)).zip gs).map
        (fun q => updateElem r p bc1 bc2 q.1.1 q.1.2.1 q.1.2.2 q.2)
      let hdr := natLe 4 (min (t + 1) 0xFFFFFFFF) ++ natLe 4 p1.toNat ++ natLe 4 p2.toNat ++ natLe 4 h.step
      let mNew := momentBytes (us.map (·.2.1)) hdr
      let sNew := momentBytes (us.map (·.2.2.1)) []
      let finite := us.all (·.2.2.2) && f32IsFinite (BitVec.ofNat 32 (numAt mNew 2112 4)) &&
        f32IsFinite (BitVec.ofNat 32 (numAt sNew 2112 4))
      if !finite then .skip 4
      else .writes (weightWrites s r j h.step (us.map (·.1)) ++ [(mAddr r j, mNew)] ++
        (if r.family = 1 then [(sAddr r j, sNew)] else []))

/-- Whether a block is sampled for the forge check (R522). -/
def forgeSampled (s : State) (r : ForgeRec) (j step : Nat) : Bool :=
  match s.charter with
  | none => false
  | some c => decide ((srBits c.sampleSeed (BitVec.ofNat 32 step) (BitVec.ofNat 32 r.tensor) j).toNat % 2 ^ c.sampleLog2 = 0)

/-- The partner forge's well (R522). -/
def partnerWell (s : State) (w : Nat) : Nat :=
  let l := wellList s
  match l.findIdx? (fun x => x == w) with
  | some i => l.getD ((i + l.length / 2) % l.length) 0
  | none => w

/-- Where a park slot of a well lies (R456). -/
def parkAt (s : State) (w n : Nat) : Nat := ((s.charter.map (·.parkBase)).getD []).getD w 0 + 4160 * n

/-- The chunk of an entry: direct, or read back from its park slot (R456). -/
def entryChunk (s : State) (w : Nat) (a : Accepted) : Bytes :=
  match a.slot with
  | none => a.bytes
  | some n => hostRead s (parkAt s w n) chunkBytes

/-- Whether the head entry of a forge may be applied: not held, and κ latched for its step (R30, R455, R592). -/
def mayApply (s : State) (r : ForgeRec) (step : Nat) : Bool :=
  decide (r.family = 3) || (!s.forge.hold && (latchedFor s step).isSome)

def unqueue (w : Nat) (slot : Option Nat) (s : State) : State :=
  modWell w (fun k => { k with fqueue := k.fqueue.tail, parked := k.parked - b2n slot.isSome }) s

/-- FORGE_APPLY (R443): the forge of well w takes the next chunk; `err` is by how much the partner's CRC-64 differs at the
first and the second comparison of a sampled block (R522, R523), `rd` how the forge's reads end. -/
def forgeApplyNext (w : Nat) (err : U64 × U64) (rd : ReadEnd) (s : State) : State :=
  let k := getWell s w
  match k.fbusy, k.fqueue with
  | none, a :: _ =>
    let b := entryChunk s w a
    let h := hdrOf b
    match recordOf s h.group h.seq with
    | none => unqueue w a.slot s
    | some r =>
      if !mayApply s r a.step then s
      else match blockOf r h.base h.count with
      | none => unqueue w a.slot s
      | some j =>
        let sampled := forgeSampled s r j h.step
        let p := partnerWell s w
        let bad := blockPoisoned rd s r j b || a.slot.any (fun n => readBad s rd (parkAt s w n) chunkBytes)
        let s := readsEnd rd s
        match computeBlock s r j b (latchedFor s a.step) bad with
        | .nothing => updateBroadcast r j h.step (unqueue w a.slot s)
        | .skip cause => skipBlock cause w r j h (unqueue w a.slot s)
        | .writes ws =>
          let bad1 := sampled && decide (err.1 ≠ 0)
          let bad2 := bad1 && decide (err.2 ≠ 0)
          let s := if bad1 then
              raiseFull 0x0A (if bad2 then 2 else 1) (uWell w) (chunkInfo h.group h.seq h.index) (uWell p)
                (if bad2 then 2 else 1) (some (uWell p)) s
            else if sampled then modUnit (uWell p) (fun u => { u with lastAgree := some (recordStep s) })
              (modUnit (uWell w) (fun u => { u with lastAgree := some (recordStep s) }) s)
            else s
          if bad2 then skipBlock 0 w r j h (unqueue w a.slot s)
          else
            let s := ws.foldl (fun s x => forgeWrite w h.step x.1 x.2 s) s
            modWell w (fun k => { k with fqueue := k.fqueue.tail, fbusy := some (b, a.slot) }) s
  | _, _ => s

def execForgeApply (w : Nat) (err : U64 × U64) (rd : ReadEnd) (s : State) : Res := actOn numWells w s (forgeApplyNext w err rd)

/-- FORGE_BLOCK_APPLIED (R447, R448): every write of the block has completed; it counts, and its weights are broadcast. -/
def forgeBlockDone (w : Nat) (s : State) : State :=
  match (getWell s w).fbusy with
  | none => s
  | some (b, slot) =>
    if anyPending (.forge w) s then s
    else
      let h := hdrOf b
      let s := modWell w (fun k => { k with
        fbusy := none, applied := k.applied + 1, parked := k.parked - b2n slot.isSome }) s
      match recordOf s h.group h.seq with
      | none => s
      | some r => match blockOf r h.base h.count with
        | none => s
        | some j => updateBroadcast r j h.step s

def execForgeBlockApplied (w : Nat) (s : State) : Res := actOn numWells w s (forgeBlockDone w)

/-! ### The norm result (R454, R455, R521) -/

/-- An integer as an XF value: N × 2^320. -/
def xfNat (n : Nat) : XF := (xfOfInt ((n : Int) * 2 ^ 320)).1

/-- κ at the norm root (R454). -/
def clipCoefficient (clip : Bool) (tau : F32) (sq : XF) : F32 :=
  if xfIsMarker sq then f32NaN
  else
    let n2 := fmtFP64.decode (xfToF64 sq).toNat
    let nrm := fmtFP64.decode (fmtFP64.sqrt n2)
    if !clip || !vLt (f32Dec tau) nrm then f32One
    else f32Enc (fmtFP64.decode (fmtFP64.div (f32Dec tau) nrm))

/-- Whether a norm result is clean (R455). -/
def normClean (vs : List XF) : Bool :=
  !xfIsMarker (vs.getD 0 0) && decide (vs.getD 1 0 = 0) && decide (vs.getD 3 0 = 0)

/-- Whether a chunk is the norm result of the map in force (R454). -/
def isNormResult (s : State) (h : Hdr) : Bool :=
  (mapInForce s).any (fun m => decide (m.normGroup ≠ 0xFFFF ∧ m.normGroup = h.group ∧ m.normSeq = h.seq)) &&
  decide (h.kind = kXf ∧ h.count = 4)

/-- NORM_RESULT_LATCH (R441, R455, R521): the norm result has bolted at this block. -/
def normResult (b : Bytes) (s : State) : State :=
  let h := hdrOf b
  let vs := (decodeXf b).map (·.2)
  let kappa := xfToF32 (vs.getD 2 0)
  let clean := normClean vs
  let below := match xfVal (vs.getD 0 0), xfVal s.forge.ownSq with
    | .num a, .num o => decide (a < o)
    | _, _ => false
  let s := if decide (vs.getD 3 0 = 0) && below then raise 0x06 3 uBlock (chunkInfo h.group h.seq h.index) h.member s else s
  let s := { s with forge := { s.forge with result := true, clean := clean } }
  if !clipInForce s then s
  else if clean then latchPair h.step kappa s
  else forgeFault 9 0 uBlock h (holdStep h.step kappa s)

/-- NORM_ROOT_COMPUTE (R454): the bolted sum at the root becomes the norm result, broadcast over the norm group and
latched here. -/
def normRoot (b : Bytes) (excluded : Nat) (s : State) : State :=
  let h := hdrOf b
  let vs := (decodeXf b).map (·.2)
  let m := mapInForce s
  let kappa := clipCoefficient (m.any mapClip) ((m.map (·.tau)).getD 0) (vs.getD 0 0)
  let r := mkXf { h with flags := 0, index := 0, base := 0, member := memberId s, weight := h.weight, count := 4 }
    [vs.getD 0 0, vs.getD 1 0, xfOfF32 kappa, xfNat excluded]
  let s := modOp (hdrName h) (fun o => { o with bcastNeed := some 4 }) (openBcast (hdrName h) s)
  let s := rootBroadcast r [] 0 s
  if isNormResult s (hdrOf r) then normResult r s else s

/-- NORM_RELEASE (R455, R593): the held step is applied with its κ once the pair agrees. -/
def normReleaseDo (s : State) : State :=
  if !s.forge.hold then s
  else
    let st := s.forge.heldStep
    let s := { s with forge := { s.forge with hold := false } }
    latchPair st s.forge.heldKappa (setModeAt st mfNormRelease s)

def execNormRelease (s : State) : Res := act s normReleaseDo

/-- Discard one queued chunk of an abandoned step and broadcast its block's old weights (R455, R448). -/
def abandonEntry (w : Nat) (s : State) (a : Accepted) : State :=
  let h := hdrOf (entryChunk s w a)
  match recordOf s h.group h.seq with
  | none => s
  | some r => match blockOf r h.base h.count with
    | none => s
    | some j => updateBroadcast r j h.step s

/-- NORM_ABANDON (R455): every parked and later chunk of the held step is discarded. -/
def normAbandonDo (s : State) : State :=
  if !s.forge.hold then s
  else
    let st := s.forge.heldStep
    let s := { s with forge := { s.forge with hold := false, abandoned := some st } }
    let s := setModeAt st mfForgeSkip s
    (List.range numWells).foldl (fun s w =>
      let q := (getWell s w).fqueue
      let s := (q.filter (fun a => a.step == st)).foldl (abandonEntry w) s
      modWell w (fun k => { k with
        fqueue := k.fqueue.filter (fun a => a.step != st),
        parked := k.parked - (q.filter (fun a => a.step == st && a.slot.isSome)).length }) s) s

def execNormAbandon (s : State) : Res := act s normAbandonDo

/-- Every forge is idle and every park region empty (R461, R516, R575). -/
def forgesIdle (s : State) : Bool :=
  s.wells.all (fun e => e.2.fbusy.isNone && e.2.fqueue.isEmpty && decide (e.2.parked = 0))

end Sys2Proof.Machine
end

