-- ==== Sys2Proof/Machine/Mill.lean ====
section
/-! DEFINITION. What the mill does beside its programs (05 R177, R179; 06 R190 to R197, R203, R208, R217 to R219): the tensor and
range that a core works on, ranges that are not finite, contribution weights, sliver statistics and the first Q. -/

namespace Sys2Proof.Machine

/-! ### Tensors and ranges at a core -/

/-- The step that the mill condenses: the open one, and outside a step the last (R463 names evaluation steps). -/
def millStep (s : State) : Nat := recordStep s

/-- The tensor record of a tensor under the map in force. -/
def tensorNow (s : State) (tensor : Nat) : Option TensorRec := (((mapInForce s).map (·.tensors)).getD []).find? (fun t => t.tensor == tensor)

/-- Whether a range of a core's quantiser or sieve lies in a sliver: elements of the tensor, or the rows' part of P (R190, R209). -/
def sliverHolds (t : TensorRec) (v : Sliver) (first n : Nat) : Bool :=
  if t.mode = 2 then
    let r := sketchRank t
    decide (v.first / max 1 t.cols * r ≤ first ∧ first + n ≤ (v.first + v.count) / max 1 t.cols * r)
  else decide (v.first ≤ first ∧ first + n ≤ v.first + v.count)

/-- What a core's operation over a range of n elements works on: a sliver of its own, or else Q′ of a sketch (R207); which of
several is open (log 158). The flag tells Q′. -/
def millTensor (s : State) (c first n : Nat) : Option (TensorRec × Bool) :=
  let own := ((s.charter.map (·.slivers)).getD []).filterMap (fun v =>
    if v.core = c ∧ v.map = s.forge.map then (tensorNow s v.tensor).bind (fun t => if sliverHolds t v first n then some (t, false) else none)
    else none)
  let spans := (((mapInForce s).map (·.tensors)).getD []).filterMap (fun t =>
    if t.mode = 2 ∧ first + n ≤ t.cols * sketchRank t then some (t, true) else none)
  let cs := if own.isEmpty then spans else own
  cs[if cs.length = 1 then 0 else Config.sliverOf c first % max 1 cs.length]?

/-! ### Ranges that are not finite (R197, R217) -/

/-- A range that is not finite: the fault with tensor and range, the mode flag, and the range kept for what the core sends and
stores of it (R197). -/
def keepNil (c first n : Nat) (t : TensorRec) (q : Bool) (s : State) : State :=
  let st := millStep s
  let s := setModeAt st mfNonfinite (raise 0x06 7 (uCore c) (t.tensor + first * 2 ^ 32) n s)
  modCore c (fun k => { k with
    nilRanges := k.nilRanges.filter (fun r => decide (r.step = st)) ++ [⟨st, t.tensor, q, first, n⟩] }) s

/-- A range gives verdict bit 2, or its sieve row is flagged nonfinite (R197). -/
def nonfiniteRange (c first n : Nat) (s : State) : State :=
  match millTensor s c first n with
  | none => setModeAt (millStep s) mfNonfinite (raise 0x06 7 (uCore c) (first * 2 ^ 32) n s)
  | some (t, q) => keepNil c first n t q s

/-- Whether a core's ranges that are not finite meet a range of an operation. -/
def meetsNil (k : Core) (step tensor : Nat) (q : Bool) (first n : Nat) : Bool :=
  k.nilRanges.any (fun r => decide (r.step = step ∧ r.tensor = tensor ∧ r.q = q ∧ r.first < first + n ∧ first < r.first + r.count))

/-! ### Gleanings (R191) -/

/-- Bytes of a gleaning: BF16 or FP32. -/
def gleanWidth (t : TensorRec) : Nat := if bitOf t.flags 0 then 4 else 2
def gleanBase (t : TensorRec) (step : Nat) : Nat := if step % 2 = 1 then t.glean1 else t.glean0

/-- The elements whose gleanings a range that is not finite keeps: its own, or the rows of its part of P (R197, R217). -/
def nilElems (t : TensorRec) (r : NilRange) : Nat × Nat :=
  if t.mode = 2 then
    let k := sketchRank t
    let row := r.first / k
    (row * t.cols, ((r.first + r.count + k - 1) / k - row) * t.cols)
  else (r.first, r.count)

/-- A row that a core stores: where it writes gleanings of a range that is not finite, it writes e_prev (R197). -/
def nilStore (s : State) (c a : Nat) (bs : Bytes) : Bytes :=
  (getCore s c).nilRanges.foldl (fun bs r =>
    match tensorNow s r.tensor with
    | none => bs
    | some t =>
      if r.q then bs
      else
        let e := nilElems t r
        let w := gleanWidth t
        let lo := gleanBase t r.step + w * e.1
        let hi := lo + w * e.2
        let old := gleanBase t (r.step + 1)
        let new := gleanBase t r.step
        bs.zipIdx.map (fun b => if lo ≤ a + b.2 ∧ a + b.2 < hi then (hostRead s (a + b.2 - new + old) 1).headD 0 else b.1)) bs

/-- e = e_prev for a range of gleanings, as it stands in the other buffer (R197, R205). -/
def carryRange (t : TensorRec) (step first n : Nat) (s : State) : State :=
  let w := gleanWidth t
  let src := gleanBase t (step + 1) + w * first
  let dst := gleanBase t step + w * first
  postWriteBad .gate dst (hostRead s src (w * n))
    ((unitsOf dst (w * n)).filter (fun u => hostPoisoned s (64 * u + src - dst) 64)) s

/-! ### The core check (15 R524) -/

/-- The core that checks core c: 1,152 further, or the next that is not fenced. -/
def checkCore (s : State) (c : Nat) : Nat :=
  (((List.range numCores).map (fun i => (c + 1152 + i) % numCores)).find? (fun x => !fencedCore s x)).getD c

/-- Whether a first-hop chunk is encoded on a second core as well. -/
def coreSampled (s : State) (h : Hdr) : Bool :=
  match s.charter with
  | none => false
  | some x => decide ((srBits x.sampleSeed (BitVec.ofNat 32 h.step)
      (BitVec.ofNat 32 (2 ^ 31 + h.group * 2 ^ 16 + h.seq)) h.index).toNat % 2 ^ x.sampleLog2 = 0)

/-- Two encodings that differ twice: the chunk goes as NIL and its gleanings stay what they were, as R197 has it. -/
def coreRefused (c : Nat) (h : Hdr) (s : State) : State :=
  match tensorOf s (hdrName h) with
  | none => nonfiniteRange c h.base h.count s
  | some t =>
    let q := decide (t.mode = 2) && sketchQ s t (hdrName h)
    let s := keepNil c h.base h.count t q s
    if t.mode = 2 then s else carryRange t h.step h.base h.count s

/-- The check of a chunk that core c hands over, with the chunk that leaves. `check` is how the seals of both cores differ after
the first and the second encoding (log 174). -/
def coreCheck (c : Nat) (check : U64 × U64) (b : Bytes) (s : State) : Bytes × State :=
  let h := hdrOf b
  let d := checkCore s c
  if !coreSampled s h || decide (h.kind = kNil) then (b, s)
  else if check.1 = 0 then
    (b, modUnit (uCore d) (fun u => { u with lastAgree := some h.step })
      (modUnit (uCore c) (fun u => { u with lastAgree := some h.step }) s))
  else
    let n := if check.2 = 0 then 1 else 2
    let s := raiseFull 0x0B n (uCore c) (chunkInfo h.group h.seq h.index) (uCore d) n (some (uCore d)) s
    if check.2 = 0 then (b, s) else (mkNil h, coreRefused c h s)

/-! ### Contribution weights (R203) -/

/-- The weight of a chunk of a tensor: 1, or the token count of its instance as LAYER_READY found it; none before that. -/
def millWeight (s : State) (t : TensorRec) (step : Nat) : Option Nat :=
  if bitOf t.flags 1 then
    (((s.step.ready.filter (fun r => decide (r.step = step))).flatMap (·.weights)).find? (fun w => w.1 == t.inst)).map (·.2)
  else some 1

/-- The chunk that a core hands over, with its weight (R203); one that meets a range that is not finite goes as NIL (R197). -/
def millChunk (s : State) (c : Nat) (b : Bytes) : Bytes :=
  let h := hdrOf b
  match tensorOf s (hdrName h) with
  | none => b
  | some t =>
    let w := ((millWeight s t h.step).getD h.weight) % 2 ^ 32
    if meetsNil (getCore s c) h.step t.tensor (decide (t.mode = 2) && sketchQ s t (hdrName h)) h.base h.count then
      mkNil { h with weight := w }
    else chunkSetFlag (splice b 24 (natLe 4 w)) cfPoisoned (chunkFlag b cfPoisoned)

/-! ### Sliver statistics (R177, R179) -/

/-- Where the statistics record of a tensor's i-th sliver stands, in slot 0 or 1 (06 Table 06-1). -/
def statAddr (s : State) (t : TensorRec) (i : Nat) (odd : Bool) : Nat :=
  t.statBase + (if odd then 256 * (sliversOf s t.tensor).length else 0) + 256 * i

/-- A record is valid for step S when it names the tensor and step S − 1 (R177). -/
def statValid (s : State) (t : TensorRec) (i step : Nat) : Bool :=
  let b := hostRead s (statAddr s t i (decide (step % 2 = 0))) 256
  decide (numAt b 160 4 = t.tensor ∧ numAt b 164 4 + 1 = step)

/-- A sliver without a valid record starts at its class's initial rung, which the step's mode flags show (R179). -/
def noteInitialRung (c first n : Nat) (s : State) : State :=
  match millTensor s c first n with
  | none => s
  | some (t, _) =>
    let mine := (sliversOf s t.tensor).zipIdx.filter (fun v => v.1.core == c && sliverHolds t v.1 first n)
    if mine.any (fun v => !statValid s t v.2 (millStep s)) then setModeAt (millStep s) mfInitialRung s else s

/-- Whether a write touches a slot of sliver statistics of the map in force, whose records announce the gleanings they follow
(R414). -/
def statWrite (s : State) (a n : Nat) : Bool :=
  (((mapInForce s).map (·.tensors)).getD []).any (fun t =>
    decide (a < t.statBase + 512 * (sliversOf s t.tensor).length ∧ t.statBase < a + n))

/-! ### The first Q (R208, R219) -/

/-- Q0[j][i] at index j·r + i as BF16: (2v + 1) × 2^-8. -/
def firstQ (t : TensorRec) (index : Nat) : U16 :=
  let v : Int := (srBits (BitVec.ofNat 64 t.seed) 0 (BitVec.ofNat 32 t.tensor) index).toNat / 256 - 128
  bf16OfVal (.fin (decide (2 * v + 1 < 0)) (2 * v + 1).natAbs (-8))

def firstQBytes (t : TensorRec) (at_ n : Nat) : Bytes :=
  (List.range n).map (fun k => BitVec.ofNat 8 ((firstQ t ((at_ + k) / 2)).toNat / 256 ^ ((at_ + k) % 2)))

/-- R219: the Q of step S is valid when slot (S − 1) mod 2 holds step S − 1, the tensor id and the rank code. -/
def validQ (s : State) (t : TensorRec) (step : Nat) : Bool :=
  let b := hostRead s (sketchSlot t (decide (step % 2 = 0))) 64
  decide (numAt b 0 4 = t.tensor ∧ numAt b 4 4 + 1 = step ∧ numAt b 8 1 = t.param)

/-- The sketched tensor whose Q of this step a read at an address meets and finds not valid, with the offset into Q and the bytes
up to its end. -/
def needsQ0 (s : State) (a : Nat) : Option (TensorRec × Nat × Nat) :=
  (((mapInForce s).map (·.tensors)).getD []).findSome? (fun t =>
    let q := sketchSlot t (decide (millStep s % 2 = 0)) + 64
    let z := 2 * t.cols * sketchRank t
    if t.mode = 2 ∧ q ≤ a ∧ a < q + z ∧ !validQ s t (millStep s) then some (t, a - q, q + z - a) else none)

end Sys2Proof.Machine
end

