-- ==== Sys2Proof/Machine/Adder.lean ====
section
/-! DEFINITION. Adders and granaries (08 R284 to R314; 09 R323 to R342, R350 to R358): opening an operation, asks, grants,
reservations, the running sums, exclusion, rebuild, close and group failure. -/

namespace Sys2Proof.Machine

/-! ### The tensor digest (R514) and audit records (R515) -/

/-- Bytes 0 to 95 of 14 Table 14-4: previous digest, program digest, charter digest. -/
def digestHead (s : State) : Bytes :=
  s.step.digest ++ s.step.progDigest ++ (s.charter.map (·.digest)).getD (zeros 32)

def mapSeed (s : State) : Nat := ((mapInForce s).map (·.seed)).getD 0

/-- An audit record, when its enable bit is set (R515). -/
def auditPush (bit : Nat) (r : Bytes) (s : State) : State := if bitOf s.audit.ctl bit then ringPush .audit r s else s

/-- When every cell that this member roots has bolted or failed, the tensor digest goes out as an audit record (R514). -/
def tensorDigest (nm : OpName) (s : State) : State :=
  match findOp s nm, grpOf s nm.group with
  | some o, some g =>
    let rooted := o.cells.filter (fun c => isRoot g o.n c.idx)
    let t := (s.step.opTallies.find? (fun t => t.op == nm)).getD ⟨nm, 0, 0, 0, 0, 0, 0⟩
    if rooted.isEmpty || t.settled = 1 || !(o.failed || rooted.all (·.bolted)) then s
    else
      let excluded := rooted.foldl (fun n c => n + c.outExcluded) 0
      let opw := nm.group + nm.seq * 2 ^ 16
      let pre := digestHead s ++ natLe 8 t.c.toNat ++ natLe 8 t.k.toNat ++ natLe 8 (mapSeed s) ++
        natLe 4 g.members.length ++ natLe 4 excluded ++ natLe 4 nm.step ++ natLe 4 opw ++ natLe 4 t.flags ++
        natLe 4 rooted.length
      let rec1 := natLe 1 1 ++ natLe 1 1 ++ natLe 2 t.flags ++ natLe 4 nm.step ++ natLe 4 opw ++ natLe 4 (memberId s) ++
        natLe 4 excluded ++ natLe 4 rooted.length ++ natLe 8 t.c.toNat ++ sha256 pre
      let ts := s.step.opTallies
      let ts := if ts.any (fun x => x.op == nm) then mapWhere (fun x => x.op == nm) (fun x => { x with settled := 1 }) ts
        else ts ++ [{ t with settled := 1 }]
      auditPush 1 rec1 { s with step := { s.step with opTallies := ts } }
  | _, _ => s

/-! ### Granary pools (R305, R306, R308) -/

/-- Slots of pool k (VC 2 + k) of a gate. -/
def poolSize (s : State) (gate k : Nat) : Nat :=
  let w := ((s.charter.map (·.gran)).getD []).getD gate 0
  field w.toNat (8 * k + 7) (8 * k)

/-- Sum slots of a reservation (R306). -/
def sumSlots (g : Grp) : Nat := if g.cls = 2 then 1 else 2

/-- Whether a wait slot is still in use: its chunk has not been added into every cell it spans (R313). -/
def waitActive (g : Grp) (o : Op) (c : InChunk) : Bool :=
  let h := hdrOf c.bytes
  (cellsOf g h.base h.count).any (fun j => match o.cell j with
    | some k => !k.excl.contains c.pos && !c.added.contains j && !k.bolted
    | none => false)

/-- Slots that one operation holds in a pool. -/
def opSlots (gate : Nat) (g : Grp) (o : Op) : Nat :=
  let at_ := fun j => decide (adderGate g o.n j = gate)
  let sums := o.cells.foldl (fun n c => if c.reserved && c.phase ≠ .sent && at_ c.idx then n + sumSlots g else n) 0
  let asked := o.asks.countP (fun a => a.granted && a.waitCell.any at_)
  let held := o.arrived.countP (fun c => c.waitCell.any at_ && waitActive g o c)
  sums + asked + held

/-- Free slots of a pool (R308; GATE_GRAN_FREE). -/
def poolFree (s : State) (gate k : Nat) : Nat :=
  let used := s.ops.foldl (fun n o => match grpOf s o.name.group with
    | some g => if redVc o.name.group = 2 + k && !o.failed then n + opSlots gate g o else n
    | none => n) 0
  poolSize s gate k - used

/-- The guards of R308. -/
def mayReserve (free s h : Nat) : Bool := decide (s + 2 * (h - 1) ≤ free)
def mayWait (free hmax : Nat) : Bool := decide (1 + 2 * hmax ≤ free)

def hmaxOf (s : State) (gate k : Nat) : Nat := tget 0 s.roll.hmax (gate * 4 + k)

/-! ### Order of inputs -/

/-- The inputs of a cell that are neither added nor excluded, in sibling order. -/
def openInputs (g : Grp) (o : Op) (c : Cell) : List Nat :=
  (inputPositions g o.n c.idx).filter (fun p => !c.addedPos.contains p && !c.excl.contains p)

def cellOrdered (g : Grp) (c : Cell) : Bool := c.ordered.getD g.ordered

/-! ### Asks and grants (R310 to R312) -/

/-- Cells of a range that exist here and from which the asker is not excluded. -/
def askCells (g : Grp) (o : Op) (a : AskSt) : List Cell :=
  (cellsOf g a.base a.count).filterMap (fun j => (o.cell j).filter (fun c => !c.excl.contains a.pos))

/-- Whether an ASK is answered now, and with which wait slot (R311). -/
def askAnswer (s : State) (g : Grp) (o : Op) (a : AskSt) : Option (Option Nat) :=
  let cs := askCells g o a
  match cs with
  | [] => some none
  | c :: _ =>
    if (cs.any (fun c => !c.reserved)) then none
    else
      let one := decide ((cellsOf g a.base a.count).length = 1)
      if one && (!cellOrdered g c || (openInputs g o c).head? = some a.pos) then some none
      else
        let gate := adderGate g o.n c.idx
        let k := o.name.group % 4
        let held := o.asks.countP (fun x => x.granted && x.waitCell == some c.idx) +
          o.arrived.countP (fun x => x.waitCell == some c.idx && waitActive g o x)
        if mayWait (poolFree s gate k) (hmaxOf s gate k) && decide (held < g.waitSlots) && !(getGate s gate).testing
        then some (some c.idx) else none

/-- The GRANT notice for an ASK (08 Table 08-7), over the link or across the green. -/
def sendGrant (nm : OpName) (idx : Nat) (a : AskSt) (wait : Bool) (s : State) : State :=
  let n := mkNotice nGrant nm.group nm.seq idx a.base a.count a.member nm.step [if wait then 1 else 0]
  if a.pos = 0 then greenNotice a.gate n s else sendNotice a.gate n s

/-- Answer one ASK of an operation if it can be answered. -/
def answerAsk (nm : OpName) (s : State) (a : AskSt) : State :=
  match findOp s nm, grpOf s nm.group with
  | some o, some g =>
    match askAnswer s g o a with
    | none => s
    | some w =>
      let grant := fun (x : AskSt) => { x with granted := true, waitCell := w }
      let s := modOp nm (fun o => { o with asks := replaceFirst (fun x => x == a) grant o.asks }) s
      sendGrant nm (if g.cls = 2 then a.base / 51 else a.base / 128) a w.isSome s
  | _, _ => s

def answerAsks (nm : OpName) (s : State) : State :=
  match findOp s nm with
  | some o => (o.asks.filter (fun a => !a.granted)).foldl (answerAsk nm) s
  | none => s

/-- ASK notices of a member with children, one per cell it sends upward, in ascending order (R310). -/
def askParent (g : Grp) (nm : OpName) (n : Nat) (s : State) : State :=
  (List.range (cellCount g n)).foldl (fun s j =>
    match cellParent g n j with
    | none => s
    | some (gate, _) =>
      if (cellChildren g n j).isEmpty then s
      else
        let r := cellRange g n j
        sendNotice gate (mkNotice nAsk nm.group nm.seq (cellIndex g j) r.1 r.2 (memberId s) nm.step []) s) s

/-! ### The running sum (R289 to R298) -/

structure Acc where
  sums : List (Nat × U32)
  xf : List (Nat × XF)
  dense : Bool
  weight : Nat
  allNil : Bool

/-- Values of a chunk that lie in cell j, at their place in the cell. -/
def inCell (g : Grp) (n j base : Nat) (vs : List (Nat × α)) : List (Nat × α) :=
  let (c0, cl) := cellRange g n j
  vs.filterMap (fun v => let e := base + v.1
    if c0 ≤ e ∧ e < c0 + cl then some (e - c0, v.2) else none)

/-- Add values into a sorted sum; an element not listed is +0 (R290, R296). The first number bounds the walk. -/
def addMerge (f : β → α → β) (z : β) : Nat → List (Nat × β) → List (Nat × α) → List (Nat × β)
  | 0, sums, _ => sums
  | _ + 1, sums, [] => sums
  | _ + 1, [], vs => vs.map (fun v => (v.1, f z v.2))
  | n + 1, (k, x) :: t, (i, v) :: vs =>
    if k < i then (k, x) :: addMerge f z n t ((i, v) :: vs)
    else if k = i then (k, f x v) :: addMerge f z n t vs
    else (i, f z v) :: addMerge f z n ((k, x) :: t) vs

def addInto (f : β → α → β) (z : β) (sums : List (Nat × β)) (vs : List (Nat × α)) : List (Nat × β) :=
  addMerge f z (sums.length + vs.length) sums vs

/-- Add one input chunk into the sum of a cell; `first` when it is the first chunk of its input. A sparse run that passes
680 entries, or meets a DENSE16 input, turns dense and keeps its values (R296, R297). -/
def accAdd (g : Grp) (n j : Nat) (first : Bool) (b : Bytes) (a : Acc) : Acc :=
  let h := hdrOf b
  let w := if first then a.weight + h.weight else a.weight
  if h.kind = kNil then { a with weight := w }
  else if g.cls = 2 then
    { a with weight := w, allNil := false,
             xf := addInto (fun x y => (xfAdd x y).1) 0 a.xf (inCell g n j h.base (decodeXf b)) }
  else
    let sums := addInto (fun x y => f32Add x y) 0 a.sums (inCell g n j h.base (decodeVals b))
    { a with weight := w, allNil := false, sums := sums,
             dense := a.dense || decide (h.kind = kDense16) || decide (680 < sums.length) }

def Cell.acc (c : Cell) : Acc := ⟨c.sums, c.xf, c.dense, c.weight, c.allNil⟩
def Cell.setAcc (c : Cell) (a : Acc) : Cell :=
  { c with sums := a.sums, xf := a.xf, dense := a.dense, weight := a.weight, allNil := a.allNil }

/-- A chunk that is here in full; a discarded copy keeps only its leading fields (R350). -/
def InChunk.held (c : InChunk) : Bool := decide (chunkBytes ≤ c.bytes.length)

/-- An input is complete when the overlaps of its added chunks add up to the cell (R289). -/
def inputComplete (g : Grp) (o : Op) (j pos : Nat) : Bool :=
  let parts := o.arrived.filter (fun c => decide (c.pos = pos) && c.added.contains j)
  decide (parts.foldl (fun n c => let h := hdrOf c.bytes; n + (overlap g o.n j h.base h.count).2) 0 = (cellRange g o.n j).2)

/-- The shadow gate (R356). -/
def shadowGate (g : Nat) : Nat := (g + 48) % 96

/-- Add one held chunk into cell j: it fixes the cell's mode with the first input (R283), sets the flags of its history, and
sends a copy to the shadow of a sampled cell (R356). -/
def addChunk (nm : OpName) (g : Grp) (o : Op) (j : Nat) (c : InChunk) (s : State) : State :=
  match o.cell j with
  | none => s
  | some k =>
    let ordered := k.ordered.getD g.ordered
    let first := !(o.arrived.any (fun x => decide (x.pos = c.pos) && x.added.contains j))
    let a := accAdd g o.n j first c.bytes k.acc
    let k' := { k.setAcc a with
      ordered := some ordered
      unordered := k.unordered || !ordered || chunkFlag c.bytes cfUnordered
      flags := if chunkFlag c.bytes cfPoisoned then setBit k.flags cfPoisoned else k.flags }
    let s := modOp nm (fun o => { o with
      cells := replaceFirst (fun x => x.idx == j) (fun _ => k') o.cells
      arrived := replaceFirst (fun x => x == c) (fun x => { x with added := x.added ++ [j] }) o.arrived }) s
    let s := if ordered then s else setOpMode nm mfUnordered s
    if k.sampled && !fencedGate s (shadowGate (adderGate g o.n j)) then
      modGate (shadowGate (adderGate g o.n j)) (fun t => { t with shadowIn := t.shadowIn ++ [(nm, j, c.pos, c.bytes)] }) s
    else s

/-- Chunks that may be added into a cell now: in ordered mode those of the lowest open input, in arrival-order mode all
(R290, R298). -/
def addable (g : Grp) (o : Op) (c : Cell) : List InChunk :=
  let ok := fun (x : InChunk) => let h := hdrOf x.bytes
    x.held && !x.added.contains c.idx && !c.excl.contains x.pos && decide (0 < (overlap g o.n c.idx h.base h.count).2)
  if cellOrdered g c then
    match openInputs g o c with
    | p :: _ => o.arrived.filter (fun x => ok x && decide (x.pos = p))
    | [] => []
  else o.arrived.filter ok

/-- Mark the inputs of a cell that have become complete. -/
def markComplete (nm : OpName) (g : Grp) (j : Nat) (s : State) : State :=
  match findOp s nm with
  | none => s
  | some o => match o.cell j with
    | none => s
    | some c =>
      let ps := (openInputs g o c).filter (inputComplete g o j)
      modCell nm j (fun c => { c with addedPos := c.addedPos ++ ps }) s

/-- Add whatever may be added, in order, until nothing more may. -/
def addLoop (nm : OpName) (g : Grp) (j : Nat) : Nat → State → State
  | 0, s => s
  | fuel + 1, s =>
    match findOp s nm with
    | none => s
    | some o => match o.cell j with
      | none => s
      | some c =>
        if !c.reserved || !c.out.isEmpty then s
        else match addable g o c with
        | [] => s
        | x :: _ => addLoop nm g j fuel (markComplete nm g j (addChunk nm g o j x s))

/-! ### Output (R292, R333) -/

/-- Masks of the inputs added into a cell, each with its position. -/
def inputMasks (o : Op) (j : Nat) : List (Nat × InChunk) :=
  (o.arrived.filter (fun c => c.added.contains j)).map (fun c => (c.pos, c))

/-- A member id that two sources of a cell's mask name, and the later input concerned (R333). -/
def maskClash (o : Op) (c : Cell) : Option Nat :=
  let ms := inputMasks o c.idx
  let clash := fun (p : Nat × InChunk) => p.2.mask.any (fun e =>
    c.exclMask.any (fun x => x.member == e.member) ||
    ms.any (fun q => decide (q.1 < p.1) && q.2.mask.any (fun x => x.member == e.member)))
  ((ms.filter clash).map (·.1)).foldl (fun a p => some (max (a.getD 0) p)) none

/-- Union of masks in ascending member id and the excluded count (R333). -/
def cellMask (o : Op) (c : Cell) : List MaskEnt × Nat :=
  let ms := (inputMasks o c.idx).map (·.2)
  (sortBy (·.member) (c.exclMask ++ ms.flatMap (·.mask)), ms.foldl (fun n m => n + m.excluded) c.exclCount)

/-- The bytes of a cell's output, latched clear (R292). At the root a present weight of zero gives the empty result (R206). -/
def cellOutput (s : State) (g : Grp) (o : Op) (c : Cell) (masked : Bool) : Bytes :=
  let (c0, cl) := cellRange g o.n c.idx
  let w := min c.weight 0xFFFFFFFF
  let nil := c.allNil || ((cellParent g o.n c.idx).isNone && decide (w = 0))
  let empty := nil && decide (w = 0)
  let flags := b2n c.unordered + 2 * b2n c.sampled + 4 * b2n (bitOf c.flags cfPoisoned) + 8 * b2n masked + 32 * b2n empty
  let h : Hdr :=
    { kind := 0, fmt := g.psum, grp := 0, flags := flags, group := o.name.group, seq := o.name.seq,
      index := cellIndex g c.idx, base := c0, count := cl, member := memberId s, sparse := 0, weight := w,
      step := o.name.step }
  if nil then mkNil h
  else if g.cls = 2 then mkXf h ((List.range cl).map (fun i => tget 0 c.xf i))
  else if c.dense then mkDense16 h ((spread cl c.sums).map (fun v => v.getD 0))
  else mkSparse16 h c.sums

/-- Whether a range lies inside a range that a CLOSE has closed here (R340). -/
def closedHere (o : Op) (base count : Nat) : Bool := o.closed.any (fun r => decide (r.1 ≤ base ∧ base + count ≤ r.1 + r.2))

/-- Put a finished output where it goes: at the root it is handed on, elsewhere it is queued at the parent's gate, unless it
was revoked and no RESEND has come (R313, R353). -/
def placeOutput (nm : OpName) (g : Grp) (o : Op) (j : Nat) (s : State) : State :=
  match o.cell j with
  | none => s
  | some c => match cellParent g o.n j with
    | none => modCell nm j (fun c => { c with phase := .sent }) s
    | some (gate, _) =>
      let r := cellRange g o.n j
      if closedHere o r.1 r.2 then modCell nm j (fun c => { c with phase := .sent }) s
      else if c.revoked && !c.resendWanted then modCell nm j (fun c => { c with phase := .queued }) s
      else
        let s := modCell nm j (fun c => { c with phase := .queued, revoked := false, resendWanted := false }) s
        enqueueItem gate (mkItem c.out c.outMask c.outExcluded (redVc nm.group) false false (o.parentGranted.contains j)
          (some j)) s

/-! ### Releasing, closing and failing -/

/-- Drop everything of an operation from the gates: retention, send queues, green arrivals (R341). -/
def dropChunks (p : Bytes → Bool) (s : State) : State :=
  { s with gates := s.gates.foldl (fun t e =>
      let k := e.2
      tset {} t e.1 { k with
        retained := k.retained.filter (fun r => !p r.bytes)
        sendQ := k.sendQ.filter (fun i => !p i.bytes)
        greenIn := k.greenIn.filter (fun c => !p c.bytes)
        shadowIn := k.shadowIn.filter (fun c => !p c.2.2.2)
        chunkQ := k.chunkQ.foldl (fun t q => tset [] t q.1 (keepFrames p true q.2)) [] }) [] }

/-- Node q and position p of a listed member. -/
def placeOf (s : State) (g : Grp) (m : Nat) : Nat × Nat :=
  (((placesOf (max 1 (nodeSize s)) g.members).1.find? (fun p => p.member == m)).map (fun p => (p.q, p.p))).getD (0, 0)

/-- Bytes 28 to 55 of a CLOSE (Table 09-5). -/
def closeTail (s : State) (g : Grp) (m outcome present : Nat) (subtree : Bool) : Bytes :=
  let (q, p) := placeOf s g m
  natLe 4 q ++ natLe 1 p ++ natLe 1 outcome ++ natLe 1 (b2n subtree) ++ zeros 1 ++
    natLe 4 present ++ natLe 4 g.members.length ++ zeros 12

/-- What a CLOSE for a group failure says (Table 09-5, Table 09-6): its outcome, the cell, the present members. -/
structure FailMsg where
  outcome : Nat
  index : Nat
  base : Nat
  count : Nat
  present : Nat

def cellFail (g : Grp) (n j excluded outcome : Nat) : FailMsg :=
  let r := cellRange g n j
  ⟨outcome, cellIndex g j, r.1, r.2, g.members.length - excluded⟩

/-- CLOSE for a group failure, to a member this one links to (R341, 09 Table 09-5). -/
def failNotice (s : State) (g : Grp) (nm : OpName) (f : FailMsg) (m : Nat) : Bytes :=
  mkNotice nClose nm.group nm.seq f.index f.base f.count m nm.step (closeTail s g m f.outcome f.present false)

/-- BLK_GFAIL keeps the first failure since valid was cleared (09 Table 09-7). -/
def recordGfail (group reason : Nat) (s : State) : State :=
  if s.gfail.valid then s else { s with gfail := ⟨group, reason, true⟩ }

/-- One operation fails here: nothing of it is kept, nothing re-absorbed, one bell of status 0x4 (R341). -/
def failOp (g : Grp) (s : State) (o : Op) : State :=
  let nm := o.name
  let s := ringBell nm.group nm.seq 0xFFFFFF 4 (opKind g o) s
  let s := forgeOpFailed nm s
  let s := dropChunks (ofOp nm) s
  let s := modOp nm (fun o => { o with failed := true }) s
  let s := tensorDigest nm s
  modOp nm (fun o => { o with cells := [], arrived := [], asks := [], bc := [], reabsorbing := [] }) s

def modGrp (id : Nat) (f : Grp → Grp) (s : State) : State :=
  { s with roll := { s.roll with groups := mapWhere (fun (x : Grp) => x.id == id) f s.roll.groups } }

/-- The failing CLOSE of an operation goes to every linked member but the one it came from, the first time (R341). -/
def spreadFail (g : Grp) (nm : OpName) (f : FailMsg) (fromGate : Option Nat) (s : State) : State :=
  if g.failSeen.contains nm then s
  else
    (grpLinks g).foldl (fun (s : State) (l : Nat × Nat) =>
      if fromGate = some l.2 then s else sendNotice l.2 (failNotice s g nm f l.1) s)
      (modGrp nm.group (fun x => { x with failSeen := x.failSeen ++ [nm] }) s)

/-- GROUP_FAIL (R341, R342): every open operation of the group fails, and the CLOSE of the failing operation goes on, unless the
failure is local. -/
def failGroup (nm : OpName) (reason : Nat) (msg : Option FailMsg) (fromGate : Option Nat) (s : State) : State :=
  match grpOf s nm.group with
  | none => s
  | some g =>
    let tell := fun (s : State) => match msg with
      | none => s
      | some f => spreadFail g nm f fromGate s
    if g.failed then tell s
    else
      let s := recordGfail nm.group reason s
      let s := raise 0x17 reason uBlock (chunkInfo nm.group nm.seq 0xFFFFFF) (memberId s) s
      let s := tell (setModeAt nm.step mfGroupFailed s)
      let opens := s.ops.filter (fun o => decide (o.name.group = nm.group) && opOpen s o)
      modGrp nm.group (fun x => { x with failed := true }) (opens.foldl (failOp g) s)

/-! ### Exclusion and rebuild -/

def resendTail (reason : Nat) : Bytes := natLe 1 reason

/-- RESEND to the sender of a chunk: across the green for the own contribution, else on its link and counted there (R350, R353;
log 40). -/
def sendResend (gate pos reason : Nat) (h : Hdr) (s : State) : State :=
  let n := noticeOf nResend h (resendTail reason)
  if pos = 0 then greenNotice gate n s
  else sendNotice gate n (modGate gate (fun t => { t with resends := satInc t.resends 1 }) s)

/-- The last flit of the frame that is leaving on a channel takes the complemented seal (R267, R351). -/
def stompFlits (b : Bytes) : List Bytes → List Bytes
  | [] => []
  | f :: t =>
    if numAt f 0 1 = 6 then (f.take 49 ++ natLe 8 (~~~ sealOf b).toNat) :: t else f :: stompFlits b t

/-- A copy that cannot be finished correctly (R267): its frame ends with the complemented seal, it stays retained and marked, and a
fault is reported. -/
def stompLeaving (gate : Nat) (r : Retained) (s : State) : State :=
  let h := hdrOf r.bytes
  let s := modGate gate (fun t => { t with
    chunkQ := tmod [] t.chunkQ r.vc (stompFlits r.bytes), retained := mapWhere (fun x => x == r) (fun x => { x with stomped := true }) t.retained }) s
  raise 0x14 1 (uGate gate) (chunkInfo h.group h.seq h.index) h.member s

/-- A retained copy goes with whatever of its frame has not begun to leave. -/
def dropRetained (r : Retained) (k : Gate) : Gate :=
  { k with
    chunkQ := if frameWaits k r then tmod [] k.chunkQ r.vc (swapFrame (r.bytes.take 56) []) else k.chunkQ
    retained := k.retained.filter (fun x => !(x == r)) }

/-- What becomes of an output when its cell is rebuilt (R351, R353): withdrawn while its first flit is here, stomped while it is
leaving, revoked once it has left. A resend of it that still waits goes too. -/
def withdrawOutput (nm : OpName) (g : Grp) (o : Op) (j reason : Nat) (s : State) : State :=
  match o.cell j, cellParent g o.n j with
  | some c, some (gate, _) =>
    let mine := fun (b : Bytes) => sameChunk (hdrOf b) (hdrOf c.out)
    let s := modGate gate (fun t => { t with sendQ := t.sendQ.filter (fun i => i.green || !mine i.bytes) }) s
    let mark := modCell nm j (fun c => { c with revoked := true })
    match (getGate s gate).retained.find? (fun r => !r.green && mine r.bytes) with
    | none => s
    | some r =>
      if r.stomped then mark s
      else if frameWaits (getGate s gate) r then modGate gate (dropRetained r) s
      else if r.gone then
        let s := modGate gate (fun t => dropRetained r { t with revokes := satInc t.revokes 1 }) s
        mark (sendNotice gate (noticeOf nRevoke (hdrOf r.bytes) (resendTail reason)) s)
      else mark (stompLeaving gate r s)
  | _, _ => s

/-- The chunks of an operation that are arriving at this member and have not been taken, with gate and first bytes (R350). -/
def arrivingChunks (s : State) (nm : OpName) : List (Nat × Bytes) :=
  s.gates.flatMap (fun e =>
    let k := e.2
    let vc := redVc nm.group
    let first := (tget [] k.rxBuf vc).filter (fun f => decide (numAt f 0 1 = 4))
    let all := (k.maskWait.filter (fun w => w.1 == vc)).map (·.2) ++ first.map (·.drop 1) ++ k.greenIn.map (·.bytes)
    (all.filter (ofOp nm)).map (fun b => (e.1, b)))

/-- Ask again for the arriving chunks of a cell's inputs that are not excluded: the copies under way are not to be used (R350). -/
def resendArriving (nm : OpName) (g : Grp) (o : Op) (c : Cell) (reason : Nat) (s : State) : State :=
  (arrivingChunks s nm).foldl (fun s x =>
    let h := hdrOf x.2
    match sibPos s g o.n c.idx h.member with
    | none => s
    | some p =>
      let key := (h.member, h.base, h.count)
      if c.excl.contains p || (overlap g o.n c.idx h.base h.count).2 = 0 || ((findOp s nm).map (·.stale)).any (·.contains key) then s
      else sendResend x.1 p reason h (modOp nm (fun o => { o with stale := o.stale ++ [key] }) s)) s

/-- CELL_REBUILD (R350, R351). -/
def rebuildCell (nm : OpName) (j reason : Nat) (s : State) : State :=
  match findOp s nm, grpOf s nm.group with
  | some o, some g =>
    match o.cell j with
    | none => s
    | some c =>
      if c.bolted then s
      else
        let s := if c.out.isEmpty then s else withdrawOutput nm g o j reason s
        let gate := adderGate g o.n j
        let hit := fun (x : InChunk) => let h := hdrOf x.bytes
          decide (0 < (overlap g o.n j h.base h.count).2) && !c.excl.contains x.pos
        let back := o.arrived.filter (fun x => hit x && x.held)
        let s := modGate (shadowGate gate) (fun t => { t with
          shadowIn := t.shadowIn.filter (fun x => !(x.1 == nm && x.2.1 == j)) }) s
        let s := modOp nm (fun o => { o with
          arrived := (mapWhere hit (fun x => { x with bytes := x.bytes.take 40, bolted := false }) o.arrived).map
            (fun x => { x with added := x.added.filter (· != j) }) }) s
        let s := modCell nm j (fun c => { c with
          sums := [], xf := [], dense := decide (g.cls = 0), weight := 0, allNil := true, addedPos := [], flags := 0,
          unordered := false, out := [], outMask := [], outExcluded := 0, phase := .none, rebuilds := c.rebuilds + 1,
          shadowSum := [], shadowXf := [], shadowDense := decide (g.cls = 0), shadowWeight := 0, shadowAdded := [],
          shadowOk := false }) s
        resendArriving nm g o c reason (back.foldl (fun s x => sendResend x.gate x.pos reason (hdrOf x.bytes) s) s)
  | _, _ => s

/-- The child at a sibling position of a cell. -/
def inputMember (s : State) (g : Grp) (n j pos : Nat) : Nat :=
  if pos = 0 then memberId s else ((cellChildren g n j).find? (fun c => c.1 == pos)).map (·.2.1) |>.getD 0

/-- Whether any value of an input is in the running sum of a cell. -/
def inputAdded (o : Op) (j pos : Nat) : Bool := o.arrived.any (fun c => decide (c.pos = pos) && c.added.contains j)

/-- Exclude an input of a cell for good (R327 to R332): its mask entry, its count and fault, and a rebuild when any value
of it was added. -/
def excludeInput (nm : OpName) (j pos : Nat) (s : State) : State :=
  match findOp s nm, grpOf s nm.group with
  | some o, some g =>
    match o.cell j with
    | none => s
    | some c =>
      if c.excl.contains pos || c.bolted then s
      else
        let gate := adderGate g o.n j
        let m := inputMember s g o.n j pos
        let size := subtreeOf g o.n j pos
        let s := modCell nm j (fun c => { c with
          excl := c.excl ++ [pos], exclMask := c.exclMask ++ [⟨m, decide (pos ≠ 0 ∧ 1 < size)⟩],
          exclCount := c.exclCount + (if pos = 0 then 1 else size) }) s
        let s := modGate gate (fun t => { t with dlMiss := satInc t.dlMiss 1 }) s
        let s := raise 0x07 0 (uGate gate) (chunkInfo nm.group nm.seq (cellIndex g j)) m s
        if inputAdded o j pos then rebuildCell nm j 6 s else s
  | _, _ => s

/-- ADDER_OUTPUT_START (R292, R294, R295, R333): with every input added or excluded, the output is built. -/
def finishCell (nm : OpName) (j : Nat) (s : State) : State :=
  match findOp s nm, grpOf s nm.group with
  | some o, some g =>
    match o.cell j with
    | none => s
    | some c =>
      if !c.out.isEmpty || !c.reserved || !(openInputs g o c).isEmpty then s
      else match maskClash o c with
      | some p =>
        let gate := adderGate g o.n j
        let s := modGate gate (fun t => { t with massErr := satInc t.massErr 1 }) s
        let s := raise 0x06 5 (uGate gate) (chunkInfo nm.group nm.seq (cellIndex g j)) (inputMember s g o.n j p) s
        excludeInput nm j p s
      | none =>
        let (mask, x) := cellMask o c
        if 893 < mask.length then failGroup nm 2 (some (cellFail g o.n j x 2)) none s
        else
          let gate := adderGate g o.n j
          let b := cellOutput s g o c (!mask.isEmpty)
          let s := if 0xFFFFFFFF < c.weight then raise 0x06 8 (uGate gate) (chunkInfo nm.group nm.seq (cellIndex g j)) (memberId s) s
            else s
          let s := if g.cls = 2 then s else plausible (uGate gate) (hdrOf b) ((decodeVals b).map (·.2)) s
          let s := modCell nm j (fun c => { c with out := b, outMask := mask, outExcluded := x }) s
          match findOp s nm with
          | some o => placeOutput nm g o j s
          | none => s
  | _, _ => s

/-- Move a cell on: add what may be added, build its output when complete, and answer asks that now may be. -/
def advanceCell (nm : OpName) (s : State) (j : Nat) : State :=
  match grpOf s nm.group with
  | none => s
  | some g =>
    let fuel := match findOp s nm with | some o => o.arrived.length + 1 | none => 0
    let s := addLoop nm g j fuel s
    finishCell nm j (markComplete nm g j s)

def advanceCells (nm : OpName) (js : List Nat) (s : State) : State := answerAsks nm (js.foldl (advanceCell nm) s)

/-! ### Re-absorption (R199 to R202) -/

/-- Elements of a chunk's range that a list of ranges covers. -/
def coverCount (base count : Nat) (rs : List (Nat × Nat)) : Nat :=
  let clip := rs.filterMap (fun r => let lo := max base r.1; let hi := min (base + count) (r.1 + r.2)
    if lo < hi then some (lo, hi) else none)
  ((sortBy (·.1) clip).foldl (fun (a : Nat × Nat) r =>
    let lo := max a.2 r.1
    if lo < r.2 then (a.1 + (r.2 - lo), r.2) else a) (0, 0)).1

def covers (base count : Nat) (rs : List (Nat × Nat)) : Bool := decide (coverCount base count rs = count)

/-- Whether a retained chunk may be released (R202, R266). -/
def releasable (r : Retained) : Bool :=
  let h := hdrOf r.bytes
  covers h.base h.count (if r.firstHop then r.acked ++ r.reabsorbed else r.acked)

def inRanges (rs : List (Nat × Nat)) (e : Nat) : Bool := rs.any (fun r => decide (r.1 ≤ e ∧ e < r.1 + r.2))

/-- Add one decoded value back into its provisional gleaning (R199); poison goes on into what is written (R105, R416). -/
def reabsorbElem (t : TensorRec) (step : Nat) (poison : Bool) (s : State) (e : Nat × F32) : State :=
  let w := gleanWidth t
  let a := gleanBase t step + w * e.1
  let v := hostRead s a w
  let old : F32 := if w = 4 then BitVec.ofNat 32 (leNat v) else f32OfBf16 (BitVec.ofNat 16 (leNat v))
  let new := f32Add old e.2
  postWrite .gate a (if w = 4 then natLe 4 new.toNat else natLe 2 (bf16Rne new).toNat) (poison || hostPoisoned s a w) s

/-- The return path on one retained first-hop chunk (R199 to R201): what of it lies in a closed range and has not been re-absorbed,
unless an error has been met in its retention slot, its seal fails or its payload is inconsistent (R187, R200, R263). A step
of an evaluation map changes no gleaning (R38), nor does a sketched tensor's (R215, R216). -/
def reabsorbChunk (gate base count : Nat) (s : State) (r : Retained) : State :=
  let h := hdrOf r.bytes
  let hit := coverCount h.base h.count [(base, count)]
  let same := fun (x : Retained) => x.firstHop && sameChunk (hdrOf x.bytes) h
  if hit = 0 then s
  else
    let add := fun (x : Retained) => { x with reabsorbed := x.reabsorbed ++ [(base, count)] }
    let mark := fun s => modGate gate (fun t => { t with retained := mapWhere same add t.retained }) s
    if h.kind = kNil ∨ 2 ^ 31 ≤ h.step then mark s
    else if r.stomped || !sealGood r.bytes || !consistent r.bytes then
      mark (setModeAt h.step mfRetention (raise 0x14 0 (uGate gate) (chunkInfo h.group h.seq h.index) h.member s))
    else match tensorOf s (hdrName h) with
    | none => mark s
    | some t =>
      if t.mode = 2 then mark s
      else
        let es := (decodeVals r.bytes).filterMap (fun v => let e := h.base + v.1
          if base ≤ e ∧ e < base + count && !inRanges r.reabsorbed e then some (e, v.2) else none)
        let s := es.foldl (reabsorbElem t h.step (chunkFlag r.bytes cfPoisoned)) s
        mark (modGate gate (fun k => { k with reabsorb := satInc k.reabsorb es.length }) s)

/-- Release retained chunks that are covered (R202, R266). -/
def releaseGate (gate : Nat) (s : State) : State :=
  modGate gate (fun t => { t with retained := t.retained.filter (fun r => !releasable r) }) s

/-- A CLOSE that excludes this member for a range (R340): the operation is closed for it, so that its cells there ask for nothing
more (R596); unsent chunks inside it leave the queue, own first-hop chunks are re-absorbed, and a bell waits for the
writes. -/
def closeRange (nm : OpName) (base count : Nat) (s : State) : State :=
  let s := setOpMode nm mfExcluded s
  let inside := fun (b : Bytes) => let h := hdrOf b
    ofOp nm b && decide (base ≤ h.base ∧ h.base + h.count ≤ base + count)
  let shut := fun (o : Op) (c : Cell) => (grpOf s nm.group).any (fun g =>
    let r := cellRange g o.n c.idx
    decide (base ≤ r.1 ∧ r.1 + r.2 ≤ base + count))
  let touched := (s.gates.filter (fun e => e.2.sendQ.any (fun i => ofOp nm i.bytes) ||
    e.2.retained.any (fun r => ofOp nm r.bytes))).map (·.1)
  let s := touched.foldl (fun s gate =>
    let t := getGate s gate
    let gone := t.sendQ.filter (fun i => inside i.bytes)
    let keep : List Retained := (gone.filter (fun i => i.firstHop && !i.resend)).map (fun i =>
      { bytes := i.bytes, mask := i.mask, excluded := i.excluded, vc := i.vc, green := i.green, firstHop := true,
        unsent := true, acked := [], reabsorbed := [], latched := false, gone := true, heldNotices := [],
        stomped := false, cell := none })
    let s := modGate gate (fun t => { t with
      sendQ := t.sendQ.filter (fun i => !inside i.bytes),
      retained := (t.retained.filter (fun r => r.firstHop || !inside r.bytes)) ++ keep }) s
    let own := (getGate s gate).retained.filter (fun r => r.firstHop && ofOp nm r.bytes)
    releaseGate gate (own.foldl (reabsorbChunk gate base count) s)) s
  modOp nm (fun o => { o with
    closed := o.closed ++ [(base, count)]
    reabsorbing := o.reabsorbing ++ [(base, count)]
    cells := o.cells.map (fun c => if shut o c then { c with bolted := true, phase := .sent, requested := false } else c) }) s

/-! ### Opening (R286, R307, R310, R481) -/

def sampledCell (s : State) (nm : OpName) (index : Nat) : Bool :=
  match s.charter with
  | none => false
  | some c =>
    let t : U32 := BitVec.ofNat 32 (nm.group * 2 ^ 16 + nm.seq)
    decide ((srBits c.sampleSeed (BitVec.ofNat 32 nm.step) t index).toNat % 2 ^ c.sampleLog2 = 0)

/-- The cells that this member adds, as they stand when the operation opens; the root requests its reservations at once
(R307). -/
def newCells (s : State) (g : Grp) (nm : OpName) (n : Nat) : List Cell :=
  ((List.range (cellCount g n)).filter (addsCell g n)).map (fun j =>
    { idx := j, requested := isRoot g n j, dense := decide (g.cls = 0), shadowDense := decide (g.cls = 0),
      sampled := sampledCell s nm (cellIndex g j) })

/-- Act on the CLOSE notices held for an operation (R340). -/
def applyHeldCloses (nm : OpName) (s : State) : State :=
  let hs := s.heldCloses.filter (fun h => h.op == nm)
  let s := { s with heldCloses := s.heldCloses.filter (fun h => !(h.op == nm)) }
  hs.foldl (fun s h => closeRange nm h.base h.count s) s

/-- ASK notices that waited for the operation (R286). -/
def takeHeldAsks (nm : OpName) (s : State) : State :=
  let as := (s.heldAsks.filter (fun a => a.1 == nm)).map (·.2)
  let s := { s with heldAsks := s.heldAsks.filter (fun a => !(a.1 == nm)) }
  modOp nm (fun o => { o with asks := o.asks ++ as }) s

/-- OPEN registers a reduction with N elements, joining a broadcast that a result chunk opened (R286); in a failed group it
fails at once (R481). -/
def openReduction (nm : OpName) (n : Nat) (s : State) : State :=
  match grpOf s nm.group with
  | none => s
  | some g =>
    let old := (findOp s nm).getD { name := nm, n := n }
    if old.registered then s
    else if g.failed then
      let s := putOp { old with n := n, registered := true, failed := true } s
      ringBell nm.group nm.seq 0xFFFFFF 4 (opKind g { old with registered := true }) s
    else
      let s := putOp { old with n := n, registered := true, cells := newCells s g nm n } s
      let s := if g.view.memberOf then askParent g nm n s else s
      let s := takeHeldAsks nm s
      answerAsks nm (applyHeldCloses nm s)

/-! ### Reservations (R307, R308) -/

/-- Admission order: priority, step, operation sequence, cell. -/
def admission (g : Grp) (nm : OpName) (j : Nat) : Nat := ((g.priority * 2 ^ 32 + nm.step) * 2 ^ 16 + nm.seq) * 2 ^ 24 + j

/-- Reservation requests pending at a pool, in admission order. -/
def pendingReq (s : State) (gate k : Nat) : List (Nat × OpName × Nat) :=
  sortBy (·.1) (s.ops.flatMap (fun o => match grpOf s o.name.group with
    | some g =>
      if redVc o.name.group = 2 + k && !o.failed then
        (o.cells.filter (fun c => c.requested && !c.reserved && decide (adderGate g o.n c.idx = gate))).map
          (fun c => (admission g o.name c.idx, o.name, c.idx))
      else []
    | none => []))

/-- Grant one reservation if the guard holds at its turn. -/
def tryReserve (gate k : Nat) (s : State) (r : Nat × OpName × Nat) : State :=
  match findOp s r.2.1, grpOf s r.2.1.group with
  | some o, some g =>
    if mayReserve (poolFree s gate k) (sumSlots g) (cellHeight g o.n r.2.2) then
      modCell r.2.1 r.2.2 (fun c => { c with reserved := true }) s else s
  | _, _ => s

/-- GRANARY_GRANT (R308): reservations, then wait slots and plain grants, in admission order; nothing while the gate is
under test (R545). -/
def granaryGrant (gate k : Nat) (s : State) : State :=
  if (getGate s gate).testing then s
  else
    let s := (pendingReq s gate k).foldl (tryReserve gate k) s
    let names := sortBy (fun (o : Op) => match grpOf s o.name.group with
      | some g => admission g o.name 0 | none => 0) (s.ops.filter (fun o => decide (redVc o.name.group = 2 + k)))
    names.foldl (fun s o =>
      advanceCells o.name (o.cells.map (·.idx)) s) s

def execGranaryGrant (g pool : Nat) (s : State) : Res := actOn numGates g s (granaryGrant g (pool % 4))

/-! ### Inputs that arrive (R259, R286, R287, R293, R335, R352) -/

/-- Kinds that a group of a class accepts (R287). -/
def classAccepts (g : Grp) (kind : Nat) : Bool :=
  (match g.cls with
    | 0 => [kDense16, kDense8, kDense6, kDense4, kNil]
    | 1 => [kSparse16, kSparse8, kDense16, kNil]
    | _ => [kXf, kNil]).contains kind

/-- Kinds that a class accepts, and whether a narrow kind comes from a leaf (R287). -/
def kindAccepted (g : Grp) (n j pos kind : Nat) : Bool :=
  classAccepts g kind && (!kindNarrow kind || decide (pos = 0 ∨ subtreeOf g n j pos = 1))

/-- Exclude an input at once from every cell it meets (09 Table 09-4). -/
def excludeAll (nm : OpName) (js : List Nat) (pos : Nat) (s : State) : State :=
  advanceCells nm js (js.foldl (fun s j => excludeInput nm j pos s) s)

def failKey (pos : Nat) (h : Hdr) : Nat × Nat := (pos, h.base)

/-- A seal or mask-frame failure of an input (09 Table 09-4): the fourth in a row of one chunk, stomped copies apart,
excludes the input; otherwise rebuild if any value of it was added, and RESEND. -/
def inputSealFailure (nm : OpName) (gate pos : Nat) (js : List Nat) (b : Bytes) (s : State) : State :=
  let h := hdrOf b
  let stomped := sealStomped b
  let s := modGate gate (fun t => { t with sealErr := satInc t.sealErr 1 }) s
  let s := gateFault 0x04 (if stomped then 4 else 0) gate h h.member 0 s
  match findOp s nm with
  | none => s
  | some o =>
    let n := ((o.sealFails.find? (fun f => f.1 == pos && f.2.1 == h.base)).map (·.2.2)).getD 0 + b2n (!stomped)
    let rest := o.sealFails.filter (fun f => !(f.1 == pos && f.2.1 == h.base))
    let s := modOp nm (fun o => { o with sealFails := rest ++ [(pos, h.base, n)] }) s
    if 4 ≤ n then excludeAll nm js pos s
    else
      let s := js.foldl (fun s j => if inputAdded o j pos then rebuildCell nm j 0 s else s) s
      sendResend gate pos (if stomped then 4 else 0) h s

/-- A mass failure (09 Table 09-4): the first is resent, the second excludes. -/
def inputMassFailure (nm : OpName) (gate pos : Nat) (js : List Nat) (b : Bytes) (s : State) : State :=
  let h := hdrOf b
  let s := modGate gate (fun t => { t with massErr := satInc t.massErr 1 }) s
  let s := gateFault 0x05 1 gate h h.member 0 s
  match findOp s nm with
  | none => s
  | some o =>
    if o.massFails.contains (failKey pos h) then excludeAll nm js pos s
    else
      let s := modOp nm (fun o => { o with massFails := o.massFails ++ [failKey pos h] }) s
      let s := js.foldl (fun s j => if inputAdded o j pos then rebuildCell nm j 1 s else s) s
      sendResend gate pos 1 h s

/-- An inconsistent or malformed input with a good seal (09 Table 09-4): excluded at once. -/
def inputInconsistent (nm : OpName) (gate pos : Nat) (js : List Nat) (h : Hdr) (detail : Nat) (s : State) : State :=
  let s := modGate gate (fun t => { t with massErr := satInc t.massErr 1 }) s
  let s := gateFault 0x06 detail gate h h.member 0 s
  excludeAll nm js pos s

/-- A late arrival at an adder's gate (R286, R335). -/
def countLate (gate : Nat) (h : Hdr) (s : State) : State :=
  gateFault 0x08 0 gate h h.member 0 (modGate gate (fun t => { t with late := satInc t.late 1 }) s)

/-- A chunk that meets no cell or no input of its operation here (R259, R352): a copy with a bad seal is asked for again, a malformed
one is reported, any other is a protocol fault. -/
def strayInput (gate vc : Nat) (b : Bytes) (maskOk : Bool) (s : State) : State :=
  let h := hdrOf b
  if !sealGood b || !maskOk then
    let r := if sealStomped b then 4 else 0
    sendResend gate (if h.member = memberId s then 0 else 1) r h
      (gateFault 0x04 r gate h h.member 0 (modGate gate (fun t => { t with sealErr := satInc t.sealErr 1 }) s))
  else if malformed vc b then
    gateFault 0x06 6 gate h h.member 0 (modGate gate (fun t => { t with massErr := satInc t.massErr 1 }) s)
  else gateFault 0x0C 4 gate h h.member 0 s

/-- An input chunk bolts here: once per chunk it sets mode flags and, unless it is this member's own, enters C and K
(R343, R506, R511). -/
def noteInput (nm : OpName) (pos : Nat) (b : Bytes) (mask : List MaskEnt) (excluded : Nat) (s : State) : State :=
  let h := hdrOf b
  let key := (h.member, h.base, h.count)
  match findOp s nm with
  | none => s
  | some o =>
    if o.noted.contains key then s
    else
      let s := boltModes b mask (modOp nm (fun o => { o with noted := o.noted ++ [key] }) s)
      if pos = 0 then s else tallyChunk b mask excluded s

/-- Hold a good input chunk and move its cells on; a returning copy keeps what it has been added into (R350). -/
def holdInput (nm : OpName) (gate pos : Nat) (js : List Nat) (b : Bytes) (mask : List MaskEnt) (excluded : Nat) (s : State) :
    State :=
  let h := hdrOf b
  let s := modOp nm (fun o =>
    let same := fun (x : InChunk) => x.pos == pos && sameChunk (hdrOf x.bytes) h
    let ask := o.asks.find? (fun a => decide (a.pos = pos ∧ a.base = h.base ∧ a.count = h.count))
    let c : InChunk :=
      { pos := pos, member := h.member, gate := gate, bytes := b, mask := mask, excluded := excluded,
        bolted := !chunkFlag b cfLatched, added := [], waitCell := ask.bind (·.waitCell) }
    { o with
      asks := o.asks.filter (fun a => !decide (a.pos = pos ∧ a.base = h.base ∧ a.count = h.count))
      sealFails := o.sealFails.filter (fun f => !(f.1 == pos && f.2.1 == h.base))
      arrived := match o.arrived.find? same with
        | some x => (o.arrived.filter (fun y => !same y)) ++ [{ c with added := x.added, waitCell := x.waitCell }]
        | none => o.arrived ++ [c] }) s
  let s := if chunkFlag b cfLatched then s else noteInput nm pos b mask excluded s
  advanceCells nm js s

/-- A reduction chunk that reaches an adder (R282, R286, R335, Table 09-4). `maskOk` is false when its mask frame failed. -/
def inputArrives (gate vc : Nat) (b : Bytes) (mask : List MaskEnt) (excluded : Nat) (maskOk : Bool) (s : State) : State :=
  let h := hdrOf b
  let nm := hdrName h
  match grpOf s h.group with
  | none => gateFault 0x0C 4 gate h h.member 0 s
  | some g =>
    match (findOp s nm).filter (fun o => o.registered && opOpen s o) with
    | none =>
      let n := ((findOp s nm).map (·.n)).getD (h.base + h.count)
      if nameEnded s nm then countLate (adderGate g n (h.base / cellLen g)) h s else gateFault 0x0C 4 gate h h.member 0 s
    | some o =>
      let js := (cellsOf g h.base h.count).filter (fun j => (o.cell j).isSome)
      match js with
      | [] => strayInput gate vc b maskOk s
      | j0 :: _ =>
        match sibPos s g o.n j0 h.member with
        | none => strayInput gate vc b maskOk s
        | some pos =>
          let key := (h.member, h.base, h.count)
          let late := js.filter (fun j => (o.cell j).any (fun c => c.excl.contains pos))
          let agate := adderGate g o.n j0
          let s := late.foldl (fun s j => countLate (adderGate g o.n j) h s) s
          if late.length = js.length then s
          else if o.stale.contains key then modOp nm (fun o => { o with stale := o.stale.erase key }) s
          else
            if !sealGood b || !maskOk then inputSealFailure nm gate pos js b s
            else if malformed vc b then inputInconsistent nm gate pos js h 6 s
            else if !kindAccepted g o.n j0 pos h.kind || !consistent b then inputInconsistent nm gate pos js h 5 s
            else if !massGood b then inputMassFailure nm gate pos js b s
            else
              let s := if g.cls = 2 then s else plausible (uGate agate) h ((decodeVals b).map (·.2)) s
              holdInput nm gate pos js b mask excluded s

/-! ### The second path (R356 to R358) -/

/-- SHADOW_COPY_RECEIVE (R356): the shadow gate adds the next copy into its shadow slots. -/
def shadowCopy (gate : Nat) (s : State) : State :=
  match (getGate s gate).shadowIn with
  | [] => s
  | (nm, j, pos, b) :: rest =>
    let s := modGate gate (fun t => { t with shadowIn := rest }) s
    match findOp s nm, grpOf s nm.group with
    | some o, some g =>
      modCell nm j (fun c =>
        let a := accAdd g o.n j (!c.shadowAdded.contains pos) b ⟨c.shadowSum, c.shadowXf, c.shadowDense, c.shadowWeight, true⟩
        { c with shadowSum := a.sums, shadowXf := a.xf, shadowDense := a.dense, shadowWeight := a.weight,
                 shadowAdded := if c.shadowAdded.contains pos then c.shadowAdded else c.shadowAdded ++ [pos] }) s
    | _, _ => s

def execShadowCopyReceive (g : Nat) (s : State) : Res := actOn numGates g s (shadowCopy g)

/-- The output that the shadow adder forms. -/
def shadowOutput (s : State) (g : Grp) (o : Op) (c : Cell) : Bytes :=
  cellOutput s g o { c with sums := c.shadowSum, xf := c.shadowXf, dense := c.shadowDense, weight := c.shadowWeight } false

/-- The first sampled cell whose adder is at a gate, whose output is built and whose copies have all been added. -/
def shadowReady (s : State) (gate : Nat) : Option (OpName × Nat) :=
  (s.ops.flatMap (fun o => match grpOf s o.name.group with
    | none => []
    | some g => (o.cells.filter (fun c => c.sampled && !c.bolted && !c.shadowOk && !c.out.isEmpty &&
        !fencedGate s (shadowGate gate) &&
        decide (adderGate g o.n c.idx = gate) &&
        !(getGate s (shadowGate gate)).shadowIn.any (fun x => x.1 == o.name && x.2.1 == c.idx))).map
          (fun c => (o.name, c.idx)))).head?

/-- SHADOW_RESULT (R357, R358): the shadow's CRC-64 over bytes 32 to 4,135 and its weight return and are compared; `err` is
what a fault in either adder adds to the CRC by exclusive or. The one record of an event says how it ended: transient when the
rebuilt cell agrees, unresolved when it does not (Table 15-11). -/
def shadowResult (gate : Nat) (err : U64) (s : State) : State :=
  match shadowReady s gate with
  | none => s
  | some (nm, j) => match findOp s nm, grpOf s nm.group with
    | some o, some g => match o.cell j with
      | none => s
      | some c =>
        let crcOf := fun (b : Bytes) => crc64 ((b.take 4136).drop 32)
        let sh := shadowOutput s g o c
        let agree := decide (crcOf sh ^^^ err = crcOf c.out) && decide (min c.shadowWeight 0xFFFFFFFF = (hdrOf c.out).weight)
        let u := uGate gate
        let p := uGate (shadowGate gate)
        let s := modGate gate (fun t => { t with shadowCmp := satInc t.shadowCmp 1 }) s
        let info := chunkInfo nm.group nm.seq (cellIndex g j)
        if agree then
          let s := if c.disagreements = 0 then s else raiseFull 0x09 1 u info p 1 (some p) s
          let st := recordStep s
          let s := modUnit u (fun x => { x with lastAgree := some st }) (modUnit p (fun x => { x with lastAgree := some st }) s)
          modCell nm j (fun c => { c with shadowOk := true }) s
        else
          let n := c.disagreements + 1
          let s := modGate gate (fun t => { t with shadowErr := satInc t.shadowErr 1 }) s
          if 2 ≤ n then failGroup nm 3 (some (cellFail g o.n j c.outExcluded 4)) none (raiseFull 0x09 2 u info p 2 (some p) s)
          else rebuildCell nm j 3 (modCell nm j (fun c => { c with disagreements := n }) s)
    | _, _ => s

def execShadowResult (g : Nat) (err : U64) (s : State) : Res := actOn numGates g s (shadowResult g err)

end Sys2Proof.Machine
end

