-- ==== Sys2Proof/Machine/Contexts.lean ====
section
/-! DEFINITION. Routing context records (10 R363 to R365, R400, R405): how they are read and when they are rejected. -/

namespace Sys2Proof.Machine

/-- A context record as read (10 Table 10-1). -/
def ctxRecOf (b : Bytes) : CtxRec :=
  let f := numAt b 0 1
  { counted := bitOf f 1, renorm := bitOf f 2, fallback := bitOf f 3, fp32Out := bitOf f 4, mode := numAt b 1 1,
    k := numAt b 2 1, fmtOut := field (numAt b 3 1) 3 0, fmtRet := field (numAt b 3 1) 7 4, group := numAt b 4 2,
    stallGate := numAt b 6 1, units := numAt b 7 1, tokens := numAt b 8 4, hidden := 128 * numAt b 12 2,
    experts := numAt b 14 2, pool := numAt b 16 4, layers := numAt b 20 1, expertDir := numAt b 24 8,
    logits := numAt b 32 8, source := numAt b 40 8, output := numAt b 48 8, book := numAt b 56 8, rows := numAt b 64 8,
    ledger := numAt b 72 8, expOut := numAt b 80 8, retArea := numAt b 88 8 }

/-- Whether the record's valid bit is set. -/
def ctxMarked (b : Bytes) : Bool := bitOf (numAt b 0 1) 0

/-- R364, and R400 for a loaded market group of n members. U is 0 only where neither capacity mode nor the fallback flag applies
(Table 10-1). -/
def ctxRecOk (n : Option Nat) (b : Bytes) : Bool :=
  let r := ctxRecOf b
  let fmtOk := fun (f : Nat) => decide (f = 1 ∨ f = 4)
  decide (numAt b 0 1 < 32 ∧ r.mode ≤ 2 ∧ 1 ≤ r.k ∧ r.k ≤ 8 ∧ r.group < 4096 ∧ r.stallGate < 96) &&
  fmtOk r.fmtOut && fmtOk r.fmtRet &&
  decide (1 ≤ r.tokens ∧ r.tokens ≤ 65535 ∧ 128 ≤ r.hidden ∧ r.hidden ≤ 32768 ∧ 1 ≤ r.experts ∧ r.experts ≤ 4096 ∧
    1 ≤ r.pool ∧ r.pool < 2 ^ 20 ∧ 1 ≤ r.layers ∧ r.layers ≤ 64) &&
  allZero b 21 3 && allZero b 96 32 &&
  [r.expertDir, r.logits, r.source, r.output, r.book, r.rows, r.ledger, r.expOut, r.retArea].all (· % 4096 == 0) &&
  (decide (r.mode ≠ 1) || decide (r.k ≤ 2)) && (!(r.fallback || decide (r.mode = 1)) || decide (1 ≤ r.units)) &&
  (decide (r.mode ≠ 2) || (decide (r.tokens ≤ 8) && n.all (fun n => decide (16 * n * r.tokens ≤ r.pool))))

/-- Read context c; a marked record that is rejected raises a configuration fault and leaves the context not valid (R364).
At a hinge bit c of BLK_MKT_FALLBACK switches a context to capacity mode or is refused, and the hinge clears it (R405). The
fault's detail is the opcode of HINGE, and 0 at a charter load, which is no command (log 167). -/
def readContext (base : Nat) (hinge : Bool) (s : State) (c : Nat) : State :=
  let b := hostRead s (base + 128 * c) 128
  let r := ctxRecOf b
  let old := tget {} s.mkt.ctx c
  let put := fun (x : Ctx) (s : State) => { s with mkt := { s.mkt with ctx := tset {} s.mkt.ctx c x } }
  let none3 : Ctx := { old with record := none, mode := 3, state := 0, missed := [] }
  let fault := raise 0x0E (if hinge then 0x08 else 0) uBlock c 0
  let want := hinge && bitOf s.mkt.fallback.toNat c
  let s := if want then
      { s with mkt := { s.mkt with fallback := BitVec.ofNat 32 (clearBit s.mkt.fallback.toNat c) } } else s
  if !ctxMarked b then put none3 s
  else if !ctxRecOk ((grpOf s r.group).map (·.members.length)) b then fault (put none3 s)
  else
    let may := decide (r.k ≤ 2 ∧ 1 ≤ r.units)
    let s := put { old with record := some r, mode := if want && may then 1 else r.mode, state := 0, missed := [] } s
    if want && !may then fault s else s

/-- Every context record is read at a charter load and at each hinge (R363); BLK_MKT_CTL takes effect at the hinge
(10 Table 10-13). -/
def readContexts (hinge : Bool) (s : State) : State :=
  match s.charter with
  | none => s
  | some c =>
    let s := { s with mkt := { s.mkt with divFixUsed := s.mkt.divFix } }
    if !c.market then { s with mkt := { s.mkt with
      ctx := s.mkt.ctx.foldl (fun t e => tset {} t e.1 { e.2 with record := none, mode := 3 }) [] } }
    else (List.range 32).foldl (readContext c.mktCtx hinge) s

end Sys2Proof.Machine
end

