-- ==== Sys2Proof/Machine/Settle.lean ====
section
/-! DEFINITION. Bolting, CLOSE, broadcasts, and the three limits of an operation (09 R323 to R349; 08 R300 to R304). -/

namespace Sys2Proof.Machine

/-! ### CLOSE notices (R338, R339) -/

/-- The child of this member on the path down to a place, if the place lies in its subtree: climb until the parent is this
member (R273, R274). -/
def climb (s : State) (g : Grp) : Nat → Nat × Nat → Option (Nat × Nat)
  | 0, _ => none
  | fuel + 1, c =>
    match treeParent g.fanout c.1 c.2 with
    | none => none
    | some u => if u = placeOf s g (memberId s) then some c else climb s g fuel u

/-- Gate toward a member below this one, by its node and position (R339): straight to it in a flat group. -/
def gateToward (s : State) (g : Grp) (m : Nat) (place : Nat × Nat) : Option Nat :=
  if g.flat then (g.children.find? (fun c => c.1 == m)).map (·.2)
  else
    (climb s g 64 place).bind (fun c =>
      let k := memberAt (placesOf (max 1 (nodeSize s)) g.members).1 c
      (g.children.find? (fun x => x.1 == k)).map (·.2))

/-- One CLOSE with outcome 0 for a mask entry of a bolted cell at the root; an entry that names the root itself closes the
range here (R338, R339, R340). -/
def closeEntry (nm : OpName) (g : Grp) (h : Hdr) (excluded : Nat) (s : State) (e : MaskEnt) : State :=
  if e.member = memberId s then closeRange nm h.base h.count s
  else match gateToward s g e.member (placeOf s g e.member) with
  | none => s
  | some gate => sendNotice gate (mkNotice nClose nm.group nm.seq h.index h.base h.count e.member nm.step
      (closeTail s g e.member 0 (g.members.length - excluded) e.subtree)) s

/-! ### CACK (R265, R349) -/

def cackNotice (h : Hdr) (base count : Nat) : Bytes :=
  mkNotice nCack h.group h.seq h.index base count h.member h.step []

/-- CACK for one input chunk of a bolted cell, naming the overlap (R349). -/
def cackInput (g : Grp) (n j : Nat) (s : State) (x : InChunk) : State :=
  let h := hdrOf x.bytes
  let r := overlap g n j h.base h.count
  let c := cackNotice h r.1 r.2
  if x.pos = 0 then greenNotice x.gate c s else sendNotice x.gate c s

/-- A queued copy whose first flit has not left takes latched clear (R345). -/
def unlatchWaiting (r : Retained) (k : Gate) : Gate :=
  let b := chunkSetFlag r.bytes cfLatched false
  let wire := if r.stomped then chunkStomp b else b
  { k with
    chunkQ := tmod [] k.chunkQ r.vc (swapFrame (r.bytes.take 56) (chunkFlits wire r.mask r.excluded))
    retained := mapWhere (fun x => x == r) (fun x => { x with bytes := b, latched := false }) k.retained }

/-- A chunk has bolted here: BOLT for the copy that a gate sent latched, none for one whose first flit has not left
(R345 to R347). -/
def boltSent (gate : Nat) (h : Hdr) (s : State) : State :=
  match (getGate s gate).retained.find? (fun r => !r.green && r.latched && sameChunk (hdrOf r.bytes) h) with
  | none => s
  | some r =>
    if frameWaits (getGate s gate) r then modGate gate (unlatchWaiting r) s
    else noticeAfterChunk gate h (noticeOf nBolt (hdrOf r.bytes) (natLe 8 (sealOf r.bytes).toNat)) s

/-! ### Delivery at the root (R300, R301, R303) -/

/-- The broadcast chunk of an all-reduce cell: the sum, or the quotient by the present weight (R301); never sampled. -/
def allReduceChunk (g : Grp) (c : Cell) (b : Bytes) : Bytes :=
  let h := hdrOf b
  let h := { h with flags := clearBit h.flags cfSampled }
  let w := f32OfNat h.weight
  if g.rootDelivery = 1 ∧ h.kind ≠ kNil ∧ h.weight ≠ 0 then
    if h.kind = kDense16 then
      mkDense16 { h with fmt := g.psum } ((spread h.count c.sums).map (fun v => f32Div (v.getD 0) w))
    else mkSparse16 { h with fmt := g.psum } (c.sums.map (fun e => (e.1, f32Div e.2 w)))
  else if g.rootDelivery = 1 ∧ h.weight = 0 then mkNil { h with flags := setBit h.flags cfEmpty }
  else mkChunk h (payloadOf b) (massOf b)

/-- A cell of an all-reduce that is delivered at this member, with its bell of kind 2 (R304, R315). -/
def allReduceHere (g : Grp) (nm : OpName) (b : Bytes) (mask : List MaskEnt) (excluded : Nat) (s : State) : State :=
  let h := hdrOf b
  let s := ringBell nm.group nm.seq h.index (bellStatus b mask) 2 s
  let s := modOp nm (fun o => { o with deliveredCells := dedup (o.deliveredCells ++ [cellOfIndex g h.index]) }) s
  bcastDeliver g b mask excluded s

/-- The bolted result of a cell at its root (R300, R315). -/
def rootDeliver (g : Grp) (nm : OpName) (c : Cell) (s : State) : State :=
  let h := hdrOf c.out
  if allReduce g then
    let b := allReduceChunk g c c.out
    allReduceHere g nm b c.outMask c.outExcluded (rootBroadcast b c.outMask c.outExcluded s)
  else
    let s := ringBell nm.group nm.seq h.index (bellStatus c.out c.outMask) 0 s
    if g.rootDelivery = 0 then forgeAccept c.out s
    else if g.rootDelivery = 3 then inboxDeliver c.out c.outMask c.outExcluded s
    else normRoot c.out c.outExcluded s

/-! ### A cell bolts (R336, R337, R343, R349) -/

/-- R336. -/
def quorumHolds (n x q : Nat) : Bool := decide (n * q < (n - x) * 256)

/-- Condition 5 of R343: every input has bolted or been excluded, and the output stands. -/
def cellSettled (o : Op) (c : Cell) : Bool :=
  !c.out.isEmpty && !c.bolted && o.arrived.all (fun x => !x.added.contains c.idx || x.bolted)

/-- Condition 6 of R343; without a working shadow gate the second path is left out (R534). -/
def shadowPassed (s : State) (g : Grp) (o : Op) (c : Cell) : Bool :=
  !c.sampled || c.shadowOk || fencedGate s (shadowGate (adderGate g o.n c.idx))

/-- Copies that no cell here needs any more are dropped; the records of bolted cells stay. -/
def pruneInputs (g : Grp) (o : Op) : Op :=
  { o with arrived := o.arrived.filter (fun x =>
      let h := hdrOf x.bytes
      (cellsOf g h.base h.count).any (fun j => (o.cell j).any (fun c => !c.bolted && !c.excl.contains x.pos))) }

/-- CHUNK_BOLT for an adder's output (R343); the root tests quorum before it looks at the second path (R337). -/
def boltCell (nm : OpName) (j : Nat) (s : State) : State :=
  match findOp s nm, grpOf s nm.group with
  | some o, some g => match o.cell j with
    | none => s
    | some c =>
      if !cellSettled o c then s
      else
        let root := isRoot g o.n j
        if root && !quorumHolds g.members.length c.outExcluded ((s.charter.map (·.quorum)).getD 0) then
          failGroup nm 1 (some (cellFail g o.n j c.outExcluded 1)) none s
        else if !shadowPassed s g o c then s
        else
          let h := hdrOf c.out
          let ins := o.arrived.filter (fun x => x.added.contains j)
          let s := modCell nm j (fun c => { c with bolted := true }) s
          let s := boltModes c.out c.outMask (tallyChunk c.out c.outMask c.outExcluded s)
          let s := match cellParent g o.n j with
            | some (gate, _) => boltSent gate h s
            | none => s
          let s := ins.foldl (cackInput g o.n j) s
          let s := if root then
              rootDeliver g nm c (c.outMask.foldl (closeEntry nm g h c.outExcluded) s)
            else s
          tensorDigest nm (modOp nm (pruneInputs g) s)
  | _, _ => s

/-! ### Broadcast chunks (R302 to R304, R343) -/

/-- Take back a copy sent on of a chunk that turned out unusable (Table 09-4): one whose first flit has not left goes, REVOKE follows
one that has left, at once or after its last flit (R347), and none of them is sent again (R344). -/
def takeBack (reason gate : Nat) (s : State) (r : Retained) : State :=
  let revoke := noticeOf nRevoke (hdrOf r.bytes) (resendTail reason)
  if frameWaits (getGate s gate) r then modGate gate (dropRetained r) s
  else
    let s := modGate gate (fun t => { t with revokes := satInc t.revokes 1 }) s
    if r.gone then sendNotice gate revoke (modGate gate (dropRetained r) s)
    else
      let hold := fun (x : Retained) => { x with stomped := true, heldNotices := x.heldNotices ++ [revoke] }
      modGate gate (fun t => { t with retained := mapWhere (fun x => x == r) hold t.retained }) s

/-- Every copy of a chunk that this member has sent on over a channel, or means to. -/
def takeBackAll (vc reason : Nat) (h : Hdr) (s : State) : State :=
  let same := fun (b : Bytes) => sameChunk (hdrOf b) h
  (s.gates.map (·.1)).foldl (fun s g =>
    let s := modGate g (fun t => { t with sendQ := t.sendQ.filter (fun i => !(i.vc = vc && same i.bytes)) }) s
    ((getGate s g).retained.filter (fun r => r.vc = vc && same r.bytes)).foldl (takeBack reason g) s) s

/-- A broadcast chunk that is not usable: its copy is discarded, the copies sent on are taken back, and RESEND goes upstream
(Table 09-4). -/
def bcastDiscard (gate : Nat) (h : Hdr) (reason : Nat) (s : State) : State :=
  let drop := fun (o : Op) => { o with
    bc := o.bc.filter (fun c => !sameChunk (hdrOf c.bytes) h), lacking := dedup (o.lacking ++ [(h.base, h.count)]) }
  sendResend gate 1 reason h (modOp (hdrName h) drop (takeBackAll 6 reason h s))

/-- A broadcast chunk that arrives over a link (R282, R286, R287, R302, R304): held, and forwarded at once to every child. The norm
result, which this member decodes, also passes R187 and R293 (R343). -/
def bcastArrives (gate : Nat) (b : Bytes) (mask : List MaskEnt) (excluded : Nat) (maskOk : Bool) (s : State) : State :=
  let h := hdrOf b
  let nm := hdrName h
  match myGrp s h.group with
  | none => gateFault 0x0C 4 gate h h.member 0 s
  | some g =>
    if (bcastChildren g h.member (memberId s)).isNone then gateFault 0x0C 4 gate h h.member 0 s
    else if g.failed || (findOp s nm).any (·.failed) then s
    else if !sealGood b || !maskOk then
      let s := modGate gate (fun t => { t with sealErr := satInc t.sealErr 1 }) s
      let r := if sealStomped b then 4 else 0
      sendResend gate 1 r h (gateFault 0x04 r gate h h.member 0 s)
    else if malformed 6 b || !classAccepts g h.kind || kindNarrow h.kind || (isNormResult s h && !consistent b) then
      gateFault 0x06 (if malformed 6 b then 6 else 5) gate h h.member 0
        (modGate gate (fun t => { t with massErr := satInc t.massErr 1 }) s)
    else if isNormResult s h && !massGood b then
      sendResend gate 1 1 h (gateFault 0x05 1 gate h h.member 0 (modGate gate (fun t => { t with massErr := satInc t.massErr 1 }) s))
    else
      let same := fun (c : BcChunk) => sameChunk (hdrOf c.bytes) h
      if (findOp s nm).isNone && nameEnded s nm then countLate gate h s else
      let s := openBcast nm s
      match (findOp s nm).bind (fun o => o.bc.find? same) with
      | some c =>
        if c.bolted then s
        else modOp nm (fun o => { o with bc := mapWhere same (fun c => { c with
          bytes := b, mask := mask, excluded := excluded, confirmed := c.confirmed || !chunkFlag b cfLatched }) o.bc }) s
      | none =>
        let c : BcChunk :=
          { bytes := b, mask := mask, excluded := excluded, fromGate := gate, confirmed := !chunkFlag b cfLatched,
            bolted := false, mine := false, delivered := false }
        queueForward g b mask excluded (modOp nm (fun o => { o with
          bc := o.bc ++ [c], lacking := o.lacking.filter (fun r => !decide (r = (h.base, h.count))) }) s)

/-- CHUNK_BOLT for a broadcast chunk (R343, R346, R349): delivered, belled, counted, acknowledged. -/
def boltBcast (nm : OpName) (index : Nat) (s : State) : State :=
  match findOp s nm, grpOf s nm.group with
  | some o, some g =>
    match o.bc.find? (fun c => decide ((hdrOf c.bytes).index = index) && c.confirmed && !c.bolted) with
    | none => s
    | some c =>
      let h := hdrOf c.bytes
      let same := fun (x : BcChunk) => sameChunk (hdrOf x.bytes) h
      let s := modOp nm (fun o => { o with
        bc := mapWhere same (fun x => { x with bolted := true, delivered := true }) o.bc }) s
      let s := boltModes c.bytes c.mask (tallyChunk c.bytes c.mask c.excluded s)
      let s := ((bcastChildren g h.member (memberId s)).getD []).foldl (fun s k => boltSent k.2 h s) s
      let s := sendNotice c.fromGate (cackNotice h h.base h.count) s
      if isNormResult s h then
        normResult c.bytes (ringBell nm.group nm.seq h.index (bellStatus c.bytes c.mask) (if allReduce g then 2 else 1) s)
      else if allReduce g then allReduceHere g nm c.bytes c.mask c.excluded s
      else bcastDeliver g c.bytes c.mask c.excluded (ringBell nm.group nm.seq h.index (bellStatus c.bytes c.mask) 1 s)
  | _, _ => s

/-! ### BOLT, REVOKE and RESEND for reductions and broadcasts (R348, R352 to R354) -/

/-- Drop the copy of an input chunk, keeping what names it (R350). -/
def dropCopy (nm : OpName) (pos : Nat) (h : Hdr) (s : State) : State :=
  let same := fun (x : InChunk) => x.pos == pos && sameChunk (hdrOf x.bytes) h
  modOp nm (fun o => { o with arrived := mapWhere same (fun x => { x with bytes := x.bytes.take 40 }) o.arrived }) s

/-- BOLT for a latched input or broadcast chunk; a seal that differs is a protocol fault and a seal failure (R348). -/
def boltArrives (gate : Nat) (n : Bytes) (s : State) : State :=
  let h := noticeHdr n
  let nm := hdrName h
  let sl : U64 := BitVec.ofNat 64 (numAt n 28 8)
  match findOp s nm, grpOf s nm.group with
  | some o, some g =>
    if o.failed then s
    else match o.bc.find? (fun c => decide (c.fromGate = gate) && sameChunk (hdrOf c.bytes) h) with
    | some c =>
      if c.bolted then (if sealOf c.bytes = sl then s else gateFault 0x0C nBolt gate h h.member 0 s)
      else if sealOf c.bytes = sl then
        let same := fun (x : BcChunk) => sameChunk (hdrOf x.bytes) h
        modOp nm (fun o => { o with bc := mapWhere same (fun x => { x with confirmed := true }) o.bc }) s
      else
        let s := modGate gate (fun t => { t with sealErr := satInc t.sealErr 1 }) s
        bcastDiscard gate h 0 (gateFault 0x04 0 gate h h.member 0 (gateFault 0x0C nBolt gate h h.member 0 s))
    | none =>
      match o.arrived.find? (fun x => decide (x.gate = gate ∧ x.pos ≠ 0) && sameChunk (hdrOf x.bytes) h) with
      | none => s
      | some x =>
        if !x.held then s
        else if x.bolted then (if sealOf x.bytes = sl then s else gateFault 0x0C nBolt gate h h.member 0 s)
        else if sealOf x.bytes = sl then
          let same := fun (y : InChunk) => y.pos == x.pos && sameChunk (hdrOf y.bytes) h
          let s := modOp nm (fun o => { o with arrived := mapWhere same (fun y => { y with bolted := true }) o.arrived }) s
          noteInput nm x.pos x.bytes x.mask x.excluded s
        else
          let js := (cellsOf g h.base h.count).filter (fun j => (o.cell j).isSome)
          inputSealFailure nm gate x.pos js x.bytes (dropCopy nm x.pos h (gateFault 0x0C nBolt gate h h.member 0 s))
  | _, _ => s

/-- REVOKE (Table 09-4, R353, R354). -/
def revokeArrives (gate : Nat) (n : Bytes) (s : State) : State :=
  let h := noticeHdr n
  let nm := hdrName h
  match findOp s nm, grpOf s nm.group with
  | some o, some g =>
    if o.failed || closedHere o h.base h.count then s
    else match o.bc.find? (fun c => decide (c.fromGate = gate) && sameChunk (hdrOf c.bytes) h) with
    | some c => if c.bolted then gateFault 0x0C nRevoke gate h h.member 0 s else bcastDiscard gate h 5 s
    | none =>
      match o.arrived.find? (fun x => decide (x.gate = gate ∧ x.pos ≠ 0) && sameChunk (hdrOf x.bytes) h) with
      | none => if o.noted.contains (h.member, h.base, h.count) then gateFault 0x0C nRevoke gate h h.member 0 s else s
      | some x =>
        if x.bolted then gateFault 0x0C nRevoke gate h h.member 0 s
        else
          let js := (cellsOf g h.base h.count).filter (fun j =>
            (o.cell j).any (fun c => !c.bolted && !c.excl.contains x.pos))
          advanceCells nm js (js.foldl (fun s j => rebuildCell nm j 5 s) s)
  | _, _ => s

/-- Queue the retained copy of a chunk again; it keeps its slot and its GRANT (R353). -/
def resendRetained (gate : Nat) (r : Retained) (s : State) : State :=
  enqueueItem gate
    { bytes := r.bytes, mask := r.mask, excluded := r.excluded, vc := r.vc, green := r.green, firstHop := r.firstHop,
      needGrant := false, granted := true, cell := r.cell, poisoned := false, resend := true } s

/-- RESEND (R353): answered from the retained copy, or with the rebuilt output once it is there; a copy that was taken back is not
sent again. -/
def resendArrives (gate : Nat) (green : Bool) (n : Bytes) (s : State) : State :=
  let h := noticeHdr n
  let nm := hdrName h
  let o? := findOp s nm
  if o?.any (fun o => o.failed || closedHere o h.base h.count) then s
  else match (getGate s gate).retained.find? (fun r => sameChunk (hdrOf r.bytes) h && (r.green == green) && !r.unsent &&
      !(r.stomped && (r.cell.isSome || decide (r.vc = 6)))) with
  | some r =>
    if (getGate s gate).sendQ.any (fun i => i.resend && (i.green == green) && sameChunk (hdrOf i.bytes) h) then s else resendRetained gate r s
  | none =>
    match o?, grpOf s nm.group with
    | some o, some g =>
      let j := h.base / cellLen g
      match o.cell j with
      | none => s
      | some c =>
        if !c.revoked || green then s
        else
          let s := modCell nm j (fun c => { c with resendWanted := true }) s
          if c.out.isEmpty then s
          else match findOp s nm with
            | some o => placeOutput nm g o j s
            | none => s
    | _, _ => s

/-! ### CLOSE (R339 to R341, R360) -/

/-- Act on a CLOSE with outcome 0 that excludes this member: held until its operation opens, or late once it has ended
(R340). -/
def closeActs (gate : Nat) (h : Hdr) (s : State) : State :=
  let nm := hdrName h
  match (findOp s nm).filter (·.registered) with
  | some o => if opEnded s o then gateFault 0x08 0 gate h h.member 0 s else closeRange nm h.base h.count s
  | none =>
    if nameEnded s nm then gateFault 0x08 0 gate h h.member 0 s
    else if s.heldCloses.countP (fun x => x.gate == gate) < 1024 then
      { s with heldCloses := s.heldCloses ++ [⟨gate, nm, h.base, h.count⟩] }
    else gateFault 0x0C nClose gate h h.member 0 s

/-- Children of this member for the cell that a range names. -/
def rangeChildren (s : State) (g : Grp) (h : Hdr) : List Nat :=
  match findOp s (hdrName h) with
  | some o => (cellChildren g o.n (h.base / cellLen g)).map (·.2.2)
  | none => if g.flat then [] else g.children.map (·.2)

/-- CLOSE (R339, R340, R341, R360; Table 09-6). -/
def closeArrives (gate : Nat) (n : Bytes) (s : State) : State :=
  let h := noticeHdr n
  let nm := hdrName h
  let outcome := numAt n 33 1
  let sub := bitOf (numAt n 34 1) 0
  let msg : FailMsg := ⟨outcome, h.index, h.base, h.count, numAt n 36 4⟩
  match myGrp s nm.group with
  | none => gateFault 0x0C nClose gate h h.member 0 s
  | some g =>
    match outcome with
    | 0 =>
      if h.member = memberId s then
        let s := if sub then (rangeChildren s g h).foldl (fun s c => sendNotice c n s) s else s
        closeActs gate h s
      else match gateToward s g h.member (numAt n 28 4, numAt n 32 1) with
      | some c => sendNotice c n s
      | none =>
        if sub then closeActs gate h ((rangeChildren s g h).foldl (fun s c => sendNotice c n s) s)
        else s
    | 1 => failGroup nm 1 (some msg) (some gate) s
    | 2 => failGroup nm 2 (some msg) (some gate) s
    | 4 => failGroup nm 3 (some msg) (some gate) s
    | 3 =>
      let s := if sub then (waveChildren g).foldl (fun s c => sendNotice c.2 n s) s else s
      recordGfail nm.group 5 s
    | _ => gateFault 0x0C nClose gate h h.member 0 s

/-- REABSORB_DONE (R340): every own chunk of the range has been handed over, and no write of a gate is outstanding. -/
def reabsorbDone (s : State) : State :=
  if anyPending .gate s then s
  else match s.ops.find? (fun o => o.reabsorbing.any (fun r => covers r.1 r.2 o.handed)) with
  | none => s
  | some o => match o.reabsorbing.find? (fun r => covers r.1 r.2 o.handed), grpOf s o.name.group with
    | some r, some g =>
      let s := modOp o.name (fun o => { o with reabsorbing := o.reabsorbing.erase r }) s
      ringBell o.name.group o.name.seq (cellIndex g (r.1 / cellLen g)) 3 3 s
    | _, _ => s

def execReabsorbDone (s : State) : Res := act s reabsorbDone

/-! ### ASK and GRANT (R286, R307, R311, R312) -/

/-- Whether a name is that of a broadcast: of a forge record, or a broadcast move (R448, R462). -/
def bcastName (s : State) (nm : OpName) : Bool :=
  (((s.charter.map (·.maps)).getD []).flatMap (·.forges)).any (fun f => decide (f.bgroup = nm.group ∧ f.bseq = nm.seq)) ||
  (movesNow s).any (fun v => decide (v.kind ≠ 1 ∧ v.group = nm.group ∧ v.seq = nm.seq))

/-- The first ASK or GRANT of a broadcast opens it here (R286). -/
def noticeOpens (nm : OpName) (s : State) : State :=
  if bcastName s nm && (findOp s nm).isNone && mayOpen s nm && !nameEnded s nm then openBcast nm s else s

/-- ASK: held until the operation is open; then answered as R311 allows. -/
def askArrives (gate : Nat) (green : Bool) (n : Bytes) (s : State) : State :=
  let h := noticeHdr n
  let nm := hdrName h
  match myGrp s nm.group with
  | none => gateFault 0x0C nAsk gate h h.member 0 s
  | some g =>
    let j := h.base / cellLen g
    let k := ((findOp s nm).map (·.n)).getD (h.base + h.count)
    let pos := if green then some 0 else (g.children.zipIdx.find? (fun c => c.1.1 == h.member)).map (fun c => c.2 + 1)
    match pos with
    | none => gateFault 0x0C nAsk gate h h.member 0 s
    | some pos =>
      let a : AskSt := { pos := pos, member := h.member, gate := gate, base := h.base, count := h.count, granted := false,
                         waitCell := none }
      let s := noticeOpens nm s
      if g.failed then s
      else match (findOp s nm).filter (·.registered) with
      | none => if nameEnded s nm then s else { s with heldAsks := s.heldAsks ++ [(nm, a)] }
      | some o =>
        if opEnded s o || !addsCell g k j then s
        else answerAsks nm (modOp nm (fun o => { o with asks := o.asks ++ [a] }) s)

/-- ASK_NOTICE effects on a GRANT's receiver: chunks of the range may be sent; a member with children may request its own
reservation of the cell (R307, R312). -/
def grantArrives (gate : Nat) (green : Bool) (n : Bytes) (s : State) : State :=
  let h := noticeHdr n
  let nm := hdrName h
  let hit := fun (i : SendItem) =>
    let k := hdrOf i.bytes
    decide (hdrName k = nm ∧ k.base = h.base ∧ k.count = h.count) && (i.green == green)
  let s := noticeOpens nm s
  let s := modGate gate (fun t => { t with sendQ := mapWhere hit (fun i => { i with granted := true }) t.sendQ }) s
  match findOp s nm, grpOf s nm.group with
  | some o, some g =>
    let j := h.base / cellLen g
    if green || (cellChildren g o.n j).isEmpty then s
    else
      let s := modOp nm (fun o => { o with parentGranted := dedup (o.parentGranted ++ [j]) }) s
      modCell nm j (fun c => { c with requested := true }) s
  | _, _ => s

/-! ### The limits of an operation (R325 to R328, R342) -/

/-- First flits of the frames of a receive buffer whose last chunk flit is there too. -/
def wholeLeads (fs : List Bytes) : List Bytes :=
  (fs.foldl (fun (a : Option Bytes × List Bytes) f =>
    if numAt f 0 1 = 4 then (some (f.drop 1), a.2)
    else if numAt f 0 1 = 6 then (none, a.2 ++ a.1.toList)
    else a) (none, [])).2

/-- Ranges of a member's chunks of an operation that a gate has accepted whole and that have not been taken yet. -/
def acceptedRanges (s : State) (o : Op) (gate m : Nat) : List (Nat × Nat) :=
  let k := getGate s gate
  let vc := redVc o.name.group
  let hs := ((wholeLeads (tget [] k.rxBuf vc) ++ (k.maskWait.filter (fun w => w.1 == vc)).map (·.2)).filter (ofOp o.name)).map hdrOf
  (hs.filter (fun h => decide (h.member = m) && !o.stale.contains (h.member, h.base, h.count))).map (fun h => (h.base, h.count))

/-- Whether an input of a cell has arrived (R326). -/
def inputArrived (s : State) (g : Grp) (o : Op) (j pos : Nat) : Bool :=
  let r := cellRange g o.n j
  if pos = 0 then covers r.1 r.2 o.handed
  else
    match (cellChildren g o.n j).find? (fun c => c.1 == pos) with
    | none => false
    | some c => linkUp s c.2.2 && covers r.1 r.2 (acceptedRanges s o c.2.2 c.2.1 ++
        (o.arrived.filter (fun x => x.pos == pos)).map (fun x => let h := hdrOf x.bytes; (h.base, h.count)))

/-- Inputs of a cell that are not excluded. -/
def keptInputs (g : Grp) (o : Op) (c : Cell) : List Nat := (inputPositions g o.n c.idx).filter (fun p => !c.excl.contains p)

/-- Whether an input of a cell has chunks here that have not bolted (R328). -/
def inputUnbolted (g : Grp) (o : Op) (j pos : Nat) : Bool :=
  o.arrived.any (fun x => let h := hdrOf x.bytes
    decide (x.pos = pos) && !x.bolted && decide (0 < (overlap g o.n j h.base h.count).2))

/-- Exclude, in every cell that has not bolted, the inputs that `bad` picks. -/
def excludeWhere (nm : OpName) (g : Grp) (o : Op) (bad : Cell → Nat → Bool) (s : State) : State :=
  let open_ := o.cells.filter (fun c => !c.bolted)
  let s := open_.foldl (fun s c => ((keptInputs g o c).filter (bad c)).foldl (fun s p => excludeInput nm c.idx p s) s) s
  advanceCells nm (open_.map (·.idx)) s

/-- This member's own requests at D (R314, Table 09-1): chunks of its own that still wait, with a GRANT or without one, and cells that
have not gone to the parent. As gate, element and member. -/
def ownRequests (s : State) (g : Grp) (o : Op) : List (Nat × Nat) :=
  s.gates.flatMap (fun e => (e.2.sendQ.filter (fun i => i.firstHop && i.needGrant && !i.green && !i.resend && ofOp o.name i.bytes)).map
    (fun i => (e.1, (hdrOf i.bytes).base))) ++
  o.cells.filterMap (fun c => match cellParent g o.n c.idx with
    | some (gate, _) => if c.phase ≠ .sent && !(cellChildren g o.n c.idx).isEmpty then some (gate, (cellRange g o.n c.idx).1) else none
    | none => none)

/-- R314: requests still pending and grants still unused at D are deadline faults. -/
def deadlineReports (g : Grp) (o : Op) (s : State) : State :=
  let nm := o.name
  let one := fun (s : State) (gate base m : Nat) =>
    raise 0x07 0 (uGate gate) (chunkInfo nm.group nm.seq (cellIndex g (base / cellLen g))) m s
  let s := o.asks.foldl (fun s a => one s (adderGate g o.n (a.base / cellLen g)) a.base a.member) s
  (o.cells.filter (fun c => c.requested && !c.reserved)).foldl (fun s c =>
    one s (adderGate g o.n c.idx) (cellRange g o.n c.idx).1 (memberId s))
    ((ownRequests s g o).foldl (fun s x => one s x.1 x.2 (memberId s)) s)

/-- The operation at a limit, when the limit is the next one it reaches. -/
def atLimit (s : State) (nm : OpName) (k : Nat) : Option (Op × Grp) :=
  match findOp s nm, grpOf s nm.group with
  | some o, some g => if o.limit = k && opOpen s o then some (o, g) else none
  | _, _ => none

/-- DEADLINE_EXPIRE (R327, R330). -/
def deadlineExpire (nm : OpName) (s : State) : State :=
  match atLimit s nm 0 with
  | none => s
  | some (o, g) =>
    let s := modOp nm (fun o => { o with limit := 1 }) s
    deadlineReports g o (excludeWhere nm g o (fun c p => !inputArrived s g o c.idx p) s)

def execDeadlineExpire (op : OpName) (s : State) : Res := act s (deadlineExpire op)

/-- CONFIRMATION_LIMIT (R328). -/
def confirmationLimit (nm : OpName) (s : State) : State :=
  match atLimit s nm 1 with
  | none => s
  | some (o, g) =>
    let s := modOp nm (fun o => { o with limit := 2 }) s
    excludeWhere nm g o (fun c p => inputUnbolted g o c.idx p) s

def execConfirmationLimit (op : OpName) (s : State) : Res := act s (confirmationLimit op)

/-- Whether this member still lacks the outcome of an operation (R342). -/
def orphaned (s : State) (g : Grp) (o : Op) : Bool :=
  let lacks := fun (h : Hdr) (rs : List (Nat × Nat)) => !covers h.base h.count (rs ++ o.closed)
  anyGate s (fun t =>
    t.retained.any (fun r => ofOp o.name r.bytes && lacks (hdrOf r.bytes) (r.acked ++ r.reabsorbed)) ||
    t.sendQ.any (fun i => i.firstHop && !i.resend && ofOp o.name i.bytes && lacks (hdrOf i.bytes) [])) ||
  (o.registered && allReduce g && decide (o.deliveredCells.length ≠ cellCount g o.n)) ||
  o.bc.any (fun c => !c.bolted) || !o.lacking.isEmpty

/-- ORPHAN_LIMIT (R342): a local failure, which sends no CLOSE. -/
def orphanLimit (nm : OpName) (s : State) : State :=
  match atLimit s nm 2 with
  | none => s
  | some (o, g) =>
    let s := modOp nm (fun o => { o with limit := 4 }) s
    if orphaned s g o then failGroup nm 4 none none s else s

def execOrphanLimit (op : OpName) (s : State) : Res := act s (orphanLimit op)

end Sys2Proof.Machine
end

