-- ==== Sys2Proof/Machine/Link.lean ====
section
/-! DEFINITION. Links (07_links_and_chunks.md, R220 to R249, R595): beats and flits, bring-up, credits, retry, link down. -/

namespace Sys2Proof.Machine

/-! ### Flits (R231, R232) -/

def flitBytes (hdr : Nat) (payload : Bytes) : Bytes :=
  let b := natLe 4 hdr ++ fit 0 56 payload
  b ++ natLe 4 (crc32c b).toNat

def flitHdr (ty vc seq crVc crN : Nat) : Nat := ty + vc * 2 ^ 4 + seq * 2 ^ 8 + crVc * 2 ^ 20 + crN * 2 ^ 23

def flitGood (f : Bytes) : Bool := decide (f.length = 64 ∧ numAt f 60 4 = (crc32c (f.take 60)).toNat)
def flitPayload (f : Bytes) : Bytes := slice f 4 56

/-- Receive buffers, which are the initial credits (R233). -/
def vcSize (vc : Nat) : Nat := if vc < 2 then 128 else if vc < 6 then 512 else 896

/-- Whether a defined sequenced type may travel on a channel (07 Table 07-4). -/
def typeOnVc (ty vc : Nat) : Bool :=
  match ty with
  | 3 => decide (vc = 0)
  | 4 => decide (2 ≤ vc)
  | 5 => decide (2 ≤ vc)
  | 6 => decide (2 ≤ vc)
  | 7 => decide (vc = 1)
  | 8 => decide (2 ≤ vc)
  | 9 => decide (vc = 0)
  | _ => false

/-! ### Link down and bring-up (R225 to R230, R247, R595) -/

/-- Flits of the mask frame that its first flit announces (Table 09-2). -/
def maskLen (f : Bytes) : Nat := max 1 (numAt f 1 2)

/-- Whether the last chunk of a channel's buffer lacks part of its mask frame. -/
def lacksMask (fs : List Bytes) : Bool :=
  let frame := (fs.reverse.takeWhile (fun f => decide (numAt f 0 1 ≠ 4))).reverse
  let first := fs[fs.length - frame.length - 1]?
  let ms := frame.filter (fun f => decide (numAt f 0 1 = 8))
  first.any (fun f => bitOf (numAt f 3 2) cfMask) &&
    (match ms with | [] => true | m :: _ => decide (ms.length < maskLen m))

/-- Whole frames of a chunk channel: what stands before a chunk or a mask frame received in part. -/
def wholeFrames (fs : List Bytes) : List Bytes :=
  let part := fun (f : Bytes) => decide (numAt f 0 1 = 4 ∨ numAt f 0 1 = 5)
  let fs := (fs.reverse.dropWhile part).reverse
  if lacksMask fs then
    (((fs.reverse.dropWhile (fun f => decide (numAt f 0 1 ≠ 4))).drop 1)).reverse else fs

/-- Flits of the crier frame that its first flit begins (R260). -/
def crierLen (f : Bytes) : Nat := let n := numAt f 3 2; if n = 0 ∨ 512 < n then 1 else (16 + n + 55) / 56

/-- Whole crier frames of VC 0; `fuel` bounds their number. -/
def wholeCriers : Nat → List Bytes → List Bytes
  | 0, _ => []
  | fuel + 1, fs =>
    match fs with
    | [] => []
    | f :: _ => if crierLen f ≤ fs.length then fs.take (crierLen f) ++ wholeCriers fuel (fs.drop (crierLen f)) else []

/-- What a channel's receive buffer keeps when the link goes down: notices, and frames that are there whole (R247). -/
def keepWhole (vc : Nat) (fs : List Bytes) : List Bytes :=
  if vc = 0 then wholeCriers fs.length fs else if vc = 1 then fs else wholeFrames fs

/-- R247: replay buffer, credits, sequence state and partly received frames go; the retention buffer and waiting notices
stay. A chunk that was being sent has left as far as it ever will. -/
def clearLink (k : Gate) : Gate :=
  { k with
    aligned := false, nak := false, trainGood := 0, trainState := 0, sent2 := false, peerState := 0, peerCredits := [],
    rx0 := [], rx1 := [], txWin := [], txLead := (0, 0), txd0 := [], txd1 := [], expSeq := 0, accepted := false,
    ackDue := false, ackSince := false, nakDue := false, credPend := [], creditDue := false, nextSeq := 0, replayBuf := [],
    replays := [], consec := 0, sendCred := [], crierQ := [], chunkQ := [], maskWait := [],
    rxBuf := k.rxBuf.foldl (fun t e => tset [] t e.1 (keepWhole e.1 e.2)) [], sending := [], rxAges := [], peerSeen := (0, 0),
    retained := k.retained.map (fun r => { r with gone := true, heldNotices := [] }) }

/-- The inputs of a cell that come over a link. -/
def linkInputs (g : Grp) (o : Op) (c : Cell) (gate : Nat) : List Nat :=
  ((cellChildren g o.n c.idx).filter (fun k => k.2.2 == gate)).map (·.1)

/-- Whether a chunk that a rebuild passes over (R350) may still come: not one that was arriving, in part, over a link that went
down. -/
def stillComes (s : State) (o : Op) (gate : Nat) (key : Nat × Nat × Nat) : Bool :=
  !((grpOf s o.name.group).any (fun g => (grpLinks g).contains (key.1, gate))) ||
  (arrivingChunks s o.name).any (fun x =>
    let h := hdrOf x.2
    decide (x.1 = gate ∧ h.member = key.1 ∧ h.base = key.2.1 ∧ h.count = key.2.2))

/-- After D, a link that goes down excludes its arrived and unbolted inputs at once (Table 09-4). A chunk that it has lost is none to
pass over (R350). -/
def downExcludes (gate : Nat) (s : State) : State :=
  let s : State := { s with ops := s.ops.map (fun (o : Op) => { o with stale := o.stale.filter (stillComes s o gate) }) }
  (s.ops.filter (fun o => decide (1 ≤ o.limit) && opOpen s o)).foldl (fun s o =>
    match grpOf s o.name.group with
    | none => s
    | some g => excludeWhere o.name g o (fun c p => (linkInputs g o c gate).contains p && inputUnbolted g o c.idx p) s) s

/-- A link that is training or up goes down, or into the failed state, with its status bit and a link fault (R225, R247). -/
def linkDown (g bit newState : Nat) (s : State) : State :=
  let s := modGate g (fun k => { clearLink k with state := newState, bits := setBit k.bits bit }) s
  downExcludes g (raise 0x03 bit (uGate g) 0 (getGate s g).peerMember s)

/-- R226: whether bring-up may start now. -/
def mayTrain (s : State) (g : Nat) : Bool :=
  let k := getGate s g
  k.enable && k.phyRdy && !k.laneFail0 && !k.laneFail1 && decide (k.state = 0) && !fencedGate s g

def startTraining (g : Nat) (s : State) : State :=
  if mayTrain s g then modGate g (fun k => { clearLink k with state := 1 }) s else s

/-- LINK_BRINGUP_START (R226): the PHY reports ready with both lanes; bring-up starts if the link is enabled. -/
def execLinkBringupStart (g : Nat) (s : State) : Res :=
  actOn numGates g s (fun s =>
    startTraining g (modGate g (fun k => { k with phyRdy := true, laneFail0 := false, laneFail1 := false }) s))

/-- LINK_ENABLE_SET (R226). -/
def execLinkEnableSet (g : Nat) (s : State) : Res :=
  actOn numGates g s (fun s => startTraining g (modGate g (fun k => { k with enable := true }) s))

/-- A link goes to state 0 without a link fault and without a status bit (R595). -/
def disableLink (g : Nat) (s : State) : State :=
  let st := (getGate s g).state
  if st = 1 ∨ st = 2 ∨ st = 3 then downExcludes g (modGate g (fun k => { clearLink k with state := 0 }) s) else s

/-- LINK_DISABLE (R595). -/
def execLinkDisable (g : Nat) (s : State) : Res :=
  actOn numGates g s (fun s => disableLink g (modGate g (fun k => { k with enable := false }) s))

/-- Whether an operation is open in a group whose tree uses a link (R249, R596). -/
def linkInUse (s : State) (gate : Nat) : Bool :=
  let uses := fun (n : Nat) => (grpOf s n).any (fun g => (grpLinks g).any (fun l => l.2 == gate))
  s.ops.any (fun o => opOpen s o && uses o.name.group) || marketOpen s (fun h => uses h.group)

/-- LINK_RETRAIN (R249). -/
def execLinkRetrain (g : Nat) (s : State) : Res :=
  actOn numGates g s (fun s =>
    let k := getGate s g
    if k.state = 4 ∨ (k.state = 3 ∧ linkInUse s g) then modGate g (fun k => { k with bits := setBit k.bits lbRefused }) s
    else if k.state = 3 then startTraining g (modGate g (fun k => { k with state := 0 }) s)
    else s)

/-- LANE_FAIL (R225): GATE_LANEFAIL rises for lane l. -/
def execLaneFail (g l : Nat) (s : State) : Res :=
  actOn numGates g s (fun s =>
    let bit := if l = 0 then lbLane0 else lbLane1
    let s := modGate g (fun k => { k with
      laneFail0 := k.laneFail0 || decide (l = 0), laneFail1 := k.laneFail1 || decide (l ≠ 0),
      bits := setBit k.bits bit }) s
    let st := (getGate s g).state
    if st = 1 ∨ st = 2 then linkDown g bit 3 s else s)

/-- PHY_LOST (R225): GATE_PHYRDY falls; the bit sets while the link is training or up. -/
def execPhyLost (g : Nat) (s : State) : Res :=
  actOn numGates g s (fun s =>
    let s := modGate g (fun k => { k with phyRdy := false }) s
    let st := (getGate s g).state
    if st = 1 ∨ st = 2 then linkDown g lbPhyLost 3 s else s)

/-- TRAIN_TIMEOUT (R230). -/
def execTrainTimeout (g : Nat) (s : State) : Res :=
  actOn numGates g s (fun s => if (getGate s g).state = 1 then linkDown g lbTrain 3 s else s)

/-! ### TRAIN flits (R226 to R229) -/

/-- The link is up: the peer is recorded, its credits are the send credits, sequence numbers start at 0 (R229). -/
def linkIsUp (k : Gate) : Gate :=
  if k.state = 1 ∧ k.aligned ∧ k.sent2 ∧ k.peerState = 2 then
    { k with state := 2, peerMember := k.peerSeen.1, peerGate := k.peerSeen.2, sendCred := k.peerCredits.zipIdx.foldl (fun t c => tset 0 t c.2 c.1) [], nextSeq := 0, expSeq := 0 }
  else k

/-- A flit received while the link trains. -/
def trainRx (g : Nat) (f : Bytes) (s : State) : State :=
  let p := flitPayload f
  if !flitGood f then
    modGate g (fun k => { k with crcErr := satInc k.crcErr 1, trainGood := 0 }) s
  else if numAt f 0 4 % 16 ≠ 2 then s
  else if numAt p 28 1 ≠ 0x5A then modGate g (fun k => { k with trainGood := 0 }) s
  else if numAt p 0 4 ≠ 0x53564C58 ∨ numAt p 4 4 ≠ 0x00030001 then linkDown g lbVersion 4 s
  else
    let st := numAt p 13 1
    modGate g (fun k =>
      let good := k.trainGood + 1
      let al := k.aligned || decide (64 ≤ good)
      linkIsUp { k with
        trainGood := good, aligned := al, peerState := st
        trainState := if !al then 0 else if 1 ≤ st ∨ k.trainState = 2 then 2 else 1
        peerSeen := (numAt p 8 4 % 2 ^ 18, numAt p 12 1 % 2 ^ 7)
        peerCredits := (List.range 8).map (fun i => numAt p (32 + 2 * i) 2) }) s

/-- TRAIN_FLIT (R227 to R229): one paired flit that arrives while the link trains. -/
def execTrainFlit (g : Nat) (flit : Bytes) (s : State) : Res :=
  actOn numGates g s (fun s => if (getGate s g).state = 1 then trainRx g flit s else s)

/-- The TRAIN payload this gate sends (07 Table 07-2). -/
def trainPayload (s : State) (g : Nat) : Bytes :=
  natLe 4 0x53564C58 ++ natLe 4 0x00030001 ++ natLe 4 (memberId s) ++ natLe 1 g ++ natLe 1 (getGate s g).trainState ++
    zeros 14 ++ natLe 1 0x5A ++ zeros 3 ++ (List.range 8).flatMap (fun v => natLe 2 (vcSize v)) ++ zeros 8

/-! ### Acknowledgement and replay (R239 to R246) -/

/-- Replay everything unacknowledged; at the limit of consecutive replays the link goes down (R243 to R245). -/
def replayAll (g : Nat) (s : State) : State :=
  let k := getGate s g
  if k.replayBuf.isEmpty then s
  else
    let s := modGate g (fun k => { k with
      replays := k.replayBuf.map (·.2), retryCount := k.retryCount + 1, consec := k.consec + 1 }) s
    if k.limit ≤ k.consec + 1 then linkDown g lbRetry 3 s else s

/-- An ACK releases the flits up to `ack`; a nak then replays the rest (R243). -/
def ackRx (g ack : Nat) (nak : Bool) (s : State) : State :=
  let s := modGate g (fun k =>
    match k.replayBuf with
    | [] => k
    | (first, _) :: _ =>
      let rel := (ack % 4096 + 4097 - first) % 4096
      if 0 < rel ∧ rel ≤ k.replayBuf.length then
        let rest := k.replayBuf.drop rel
        { k with replayBuf := rest, consec := 0, replays := k.replays.drop (k.replays.length - rest.length) }
      else k) s
  if nak then replayAll g s else s

/-- ACK_RECEIVE (R243). -/
def execAckReceive (g ack : Nat) (nak : Bool) (s : State) : Res :=
  actOn numGates g s (fun s => if (getGate s g).state = 2 then ackRx g ack nak s else s)

/-- ACK_SEND (R242): a periodic ACK falls due. -/
def execAckSend (g : Nat) (s : State) : Res :=
  actOn numGates g s (modGate g (fun k =>
    if k.state = 2 ∧ k.ackSince then { k with ackDue := true, ackSince := false } else k))

/-- CREDIT_FLIT_SEND (R234): credits have been pending for 64 gate cycles. -/
def execCreditFlitSend (g : Nat) (s : State) : Res :=
  actOn numGates g s (modGate g (fun k =>
    if k.state = 2 ∧ k.credPend.any (fun c => decide (0 < c.2)) then { k with creditDue := true } else k))

/-- REPLAY_TIMEOUT (R244). -/
def execReplayTimeout (g : Nat) (s : State) : Res :=
  actOn numGates g s (fun s => if (getGate s g).state = 2 then replayAll g s else s)

/-! ### Receiving (R221 to R223, R237 to R242) -/

/-- A sequenced flit is discarded: one nak for the first (R241). -/
def rxDiscard (g : Nat) (s : State) : State :=
  modGate g (fun k => if k.nak then k else { k with nak := true, nakDue := true }) s

/-- A notice with a reserved code is discarded and reported (R261). -/
def rxNotice (g : Nat) (p : Bytes) (s : State) : State :=
  let c := noticeCode p
  if 1 ≤ c ∧ c ≤ 8 then modGate g (fun k => { k with rxBuf := tmod [] k.rxBuf 1 (· ++ [natLe 1 7 ++ p]) }) s
  else
    let s := modGate g (fun k => { k with credPend := tmod 0 k.credPend 1 (· + 1) }) s
    gateFault 0x0C (c % 256) g (noticeHdr p) (noticeHdr p).member 0 s

/-- An accepted sequenced flit: sequence and credits, then its buffer (R237, R238, R240). -/
def rxAccept (g : Nat) (f : Bytes) (s : State) : State :=
  let h := numAt f 0 4
  let ty := h % 16
  let vc := field h 6 4
  let s := modGate g (fun k => { k with
    nak := false, expSeq := (k.expSeq + 1) % 4096, accepted := true, ackSince := true,
    sendCred := tmod 0 k.sendCred (field h 22 20) (· + field h 28 23) }) s
  if ty = 3 then s
  else if vcSize vc ≤ (tget [] (getGate s g).rxBuf vc).length then linkDown g lbCredit 3 s
  else if ty = 7 then rxNotice g (flitPayload f) s
  else modGate g (fun k => { k with rxBuf := tmod [] k.rxBuf vc (· ++ [natLe 1 ty ++ flitPayload f]) }) s

/-- One paired flit while the link is up. -/
def rxFlit (g : Nat) (f : Bytes) (bufErr : Bool) (s : State) : State :=
  let h := numAt f 0 4
  let ty := h % 16
  if !flitGood f then rxDiscard g (modGate g (fun k => { k with crcErr := satInc k.crcErr 1 }) s)
  else if ty = 0 ∨ ty = 2 then s
  else if ty = 1 then let v := numAt (flitPayload f) 0 2; ackRx g (v % 4096) (bitOf v 15) s
  else if bufErr then
    rxDiscard g (raise 0x01 6 (uGate g) 0 0 (modGate g (fun k => { k with crcErr := satInc k.crcErr 1 }) s))
  else if bitOf h 7 || decide (field h 31 29 ≠ 0) || !typeOnVc ty (field h 6 4) || decide (field h 19 8 ≠ (getGate s g).expSeq)
  then rxDiscard g s
  else rxAccept g f s

/-- Gate cycles that the beats of the lane ahead have waited (R223), oldest first, once this cycle's beats are in. -/
def agesAfter (k : Gate) : List Nat :=
  k.rxAges.map (· + 1) ++ List.replicate (max k.rx0.length k.rx1.length - k.rxAges.length) 0

/-- FLIT_RECEIVE (R221 to R223, R240): the beats of one gate cycle. The n-th beats of the lanes pair; a beat whose partner is more
than 16 gate cycles behind takes the link down (log 19). `bufErr`: the receive buffer meets an uncorrectable error (Table 15-1). -/
def flitReceive (g : Nat) (b0 b1 : Option Bytes) (bufErr : Bool) (s : State) : State :=
  let st := (getGate s g).state
  if st ≠ 1 ∧ st ≠ 2 then s
  else
    let s := modGate g (fun k => { k with rx0 := k.rx0 ++ b0.toList, rx1 := k.rx1 ++ b1.toList }) s
    let k := getGate s g
    let ages := agesAfter k
    if ages.any (fun a => decide (16 < a)) then linkDown g lbDeskew 3 s
    else match k.rx0, k.rx1 with
    | x :: xs, y :: ys =>
      let s := modGate g (fun k => { k with rx0 := xs, rx1 := ys, rxAges := ages.drop 1 }) s
      if st = 1 then trainRx g (x ++ y) s else rxFlit g (x ++ y) bufErr s
    | _, _ => modGate g (fun k => { k with rxAges := ages }) s

def execFlitReceive (g : Nat) (b0 b1 : Option Bytes) (bufErr : Bool) (s : State) : Res :=
  actOn numGates g s (flitReceive g b0 b1 bufErr)

/-! ### Sending (R224, R234 to R237, R239, R347) -/

/-- The channel with the most credits pending and how many of them one flit returns (R237). -/
def creditTake (k : Gate) : Nat × Nat :=
  let best := (List.range 8).foldl (fun (b : Nat × Nat) v =>
    let n := tget 0 k.credPend v; if b.2 < n then (v, n) else b) (0, 0)
  (best.1, min 63 best.2)

/-- A new sequenced flit: it takes credits to return, a number, and a place in the replay buffer (R231, R237, R239). -/
def newFlit (ty vc : Nat) (payload : Bytes) (k : Gate) : Bytes × Gate :=
  let (cv, cn) := creditTake k
  let f := flitBytes (flitHdr ty vc k.nextSeq cv cn) payload
  (f, { k with
    credPend := tmod 0 k.credPend cv (· - cn), creditDue := false, replayBuf := k.replayBuf ++ [(k.nextSeq, f)],
    nextSeq := (k.nextSeq + 1) % 4096,
    sendCred := if ty = 3 then k.sendCred else tmod 0 k.sendCred vc (· - 1) })

/-- On a chunk's last flit its retained copy has gone, and the notices held for it may follow (R347). -/
def lastFlitGone (vc : Nat) (k : Gate) : Gate :=
  let lead := tget [] k.sending vc
  let isIt := fun (r : Retained) => !r.green && !r.gone && decide (r.vc = vc) && r.bytes.take 56 == lead
  let k := { k with sending := tset [] k.sending vc [] }
  match k.retained.find? isIt with
  | none => k
  | some r => { k with
      noticeQ := k.noticeQ ++ r.heldNotices,
      retained := replaceFirst isIt (fun r => { r with gone := true, heldNotices := [] }) k.retained }

/-- Whether a channel's next flit would begin a broadcast chunk whose cell has a CLOSE that still waits for the link (R338). -/
def behindClose (k : Gate) (v : Nat) : Bool :=
  match tget [] k.chunkQ v with
  | [] => false
  | f :: _ =>
    let h := hdrOf (f.drop 1)
    decide (v = 6 ∧ numAt f 0 1 = 4) && k.noticeQ.any (fun n =>
      let c := noticeHdr n
      decide (noticeCode n = nClose ∧ numAt n 33 1 = 0 ∧ hdrName c = hdrName h ∧ c.base = h.base ∧ c.count = h.count))

/-- The next channel of the round robin that has a flit and a credit (R234). -/
def nextVc (k : Gate) : Option Nat :=
  ((List.range 6).map (fun j => 2 + (k.rr - 2 + j) % 6)).find? (fun v =>
    decide (0 < tget 0 k.sendCred v) && !(tget [] k.chunkQ v).isEmpty && !behindClose k v)

/-- A CLOSE for a group failure waits while a chunk of its operation is leaving (R347). -/
def noticeWaits (k : Gate) (n : Bytes) : Bool :=
  decide (noticeCode n = nClose ∧ numAt n 33 1 ∈ [1, 2, 4]) &&
    k.sending.any (fun e => ofOp (hdrName (noticeHdr n)) e.2)

/-- The next notice that may leave, and the rest. -/
def nextNotice (k : Gate) : Option (Bytes × List Bytes) :=
  let pre := k.noticeQ.takeWhile (noticeWaits k)
  match k.noticeQ.drop pre.length with
  | [] => none
  | n :: ns => some (n, pre ++ ns)

def idleFlit : Bytes := flitBytes 0 (zeros 56)

/-- The flit of one slot, by the priority of R234. -/
def pickFlit (k : Gate) : Bytes × Gate :=
  if k.ackDue || k.nakDue then
    let v := (k.expSeq + 4095) % 4096 + (if k.nakDue then 2 ^ 15 else 0)
    (flitBytes 1 (natLe 2 v), { k with ackDue := false, nakDue := false, ackSince := false })
  else match k.replays with
  | f :: fs => (f, { k with replays := fs })
  | [] =>
    if 4095 ≤ k.replayBuf.length then (idleFlit, k)
    else match nextNotice k, decide (0 < tget 0 k.sendCred 1) with
    | some (n, ns), true => newFlit 7 1 n { k with noticeQ := ns }
    | _, _ => match k.crierQ, decide (0 < tget 0 k.sendCred 0) with
      | c :: cs, true => newFlit 9 0 c.2 { k with crierQ := cs }
      | _, _ => match nextVc k with
        | some v =>
          match tget [] k.chunkQ v with
          | f :: fs =>
            let ty := numAt f 0 1
            let k := { k with chunkQ := tset [] k.chunkQ v fs, rr := 2 + (v - 1) % 6 }
            let (x, k) := newFlit ty v (f.drop 1) k
            (x, if ty = 4 then { k with sending := tset [] k.sending v (f.drop 1) } else if ty = 6 then lastFlitGone v k else k)
          | [] => (idleFlit, k)
        | none =>
          if k.creditDue || k.credPend.any (fun c => decide (16 ≤ c.2)) then newFlit 3 0 (zeros 56) k else (idleFlit, k)

/-- A flit for the slot: TRAIN while training, none while the link is neither training nor up (R226). -/
def slotFlit (s : State) (g : Nat) : Option (Bytes × Gate) :=
  let k := getGate s g
  if k.state = 2 then some (pickFlit k)
  else if k.state = 1 then
    some (flitBytes 2 (trainPayload s g), linkIsUp { k with sent2 := k.sent2 || decide (k.trainState = 2) })
  else none

/-- Beats taken: a lane that runs 16 beats ahead keeps its beat (R224). -/
def takeBeats (t0 t1 : Bool) (k : Gate) : Gate :=
  let (n0, n1) := k.txLead
  let l := k.txWin.length
  let m0 := if t0 && decide (n0 < l ∧ n0 < n1 + 16) then n0 + 1 else n0
  let m1 := if t1 && decide (n1 < l ∧ n1 < n0 + 16) then n1 + 1 else n1
  let d := min m0 m1
  { k with txWin := k.txWin.drop d, txLead := (m0 - d, m1 - d) }

/-- The beats on offer. -/
def offerBeats (k : Gate) : Gate :=
  { k with txd0 := ((k.txWin[k.txLead.1]?).map (·.take 32)).getD [], txd1 := ((k.txWin[k.txLead.2]?).map (·.drop 32)).getD [] }

/-- GATE_TXTAKE (R220, R224, R234). -/
def txTake (g : Nat) (t0 t1 : Bool) (s : State) : State :=
  let s := modGate g (takeBeats t0 t1) s
  let k := getGate s g
  if k.txWin.length ≤ max k.txLead.1 k.txLead.2 then
    match slotFlit s g with
    | some (f, k') => setGate s g (offerBeats { k' with txWin := k'.txWin ++ [f] })
    | none => modGate g offerBeats s
  else modGate g offerBeats s

def execGateTxtake (g : Nat) (take0 take1 : Bool) (s : State) : Res := actOn numGates g s (txTake g take0 take1)

end Sys2Proof.Machine
end

