-- ==== Sys2Proof/Machine/Fifo.lean ====
section
/-! DEFINITION. The command FIFO (16_ports_power_startup.md, R560 to R562, Table 16-4): words that enter, the word at the
head, and the words that are discarded. -/

namespace Sys2Proof.Machine

def cmdOp (w : U64) : Nat := field w.toNat 7 0

/-- The bits outside an opcode's fields are zero; none for a reserved opcode (R562, Table 16-4 and the rules it names). -/
def cmdWordOk (w : U64) : Bool :=
  let v := w.toNat
  match cmdOp w with
  | 0x01 => decide (field v 15 8 = 0 ∧ field v 63 48 = 0)
  | 0x02 => decide (field v 15 14 = 0 ∧ field v 63 48 = 0)
  | 0x03 => decide (field v 15 8 = 0 ∧ field v 63 48 = 0)
  | 0x04 => decide (field v 63 36 = 0)
  | 0x06 => decide (field v 63 8 = 0)
  | 0x08 => decide (field v 63 11 = 0)
  | 0x0C => decide (field v 63 48 = 0)
  | 0x20 => decide (field v 63 20 = 0)
  | 0x21 => decide (field v 63 20 = 0)
  | 0x30 => decide (field v 63 48 = 0)
  | 0x40 => decide (field v 63 48 = 0)
  | 0x41 => decide (field v 63 48 = 0)
  | 0x50 => decide (field v 63 48 = 0)
  | 0x51 => decide (field v 63 40 = 0)
  | 0x60 => true
  | _ => false

/-- A word enters the FIFO; one with a reserved opcode or a bit outside its fields is discarded with a configuration
fault (R562). -/
def cmdEnter (w : U64) (s : State) : State :=
  if cmdWordOk w then { s with cmd := { s.cmd with fifo := s.cmd.fifo ++ [w] } }
  else configFault (cmdOp w) s

def fifoFull (s : State) : Bool := decide (256 ≤ s.cmd.fifo.length)

/-- CMD_PORT_WORD (R560): a word enters when CMD_VALID and CMD_READY are both high; with the FIFO full it waits outside. -/
def execCmdPortWord (v : U64) (s : State) : Res :=
  act s (fun s => if fifoFull s then s else cmdEnter v s)

/-- A register word enters on the write of BLK_CMD_HI, or is dropped with overflow when the FIFO is full (R561). -/
def pushRegisterWord (hi : U32) (s : State) : State :=
  if fifoFull s then { s with cmd := { s.cmd with overflow := true } }
  else cmdEnter (BitVec.ofNat 64 (s.mgt.cmdLo.toNat + hi.toNat * 2 ^ 32)) s

/-- CMD_REGISTER_WORD (R561). -/
def execCmdRegisterWord (hi : U32) (s : State) : Res := act s (pushRegisterWord hi)

/-- The head word leaves the FIFO when its command starts or is discarded (R562). -/
def popCmd (s : State) : State := { s with cmd := { s.cmd with fifo := s.cmd.fifo.tail } }

/-- No command starts while a tally mismatch stands (R517), during the 2 µs of a local reset (R555), behind a HINGE that runs
(R461), or after an uncorrectable error in steward memory, which leaves the steward only reads to serve (log 69). -/
def fifoHeld (s : State) : Bool := s.step.mismatch || !s.step.resetDone || s.forge.hinging || s.boot.memErr

/-- The command at the head, if its opcode is the one asked for: `f` gets the word as a number; other heads wait. -/
def onHead (op : Nat) (s : State) (f : Nat → State → State) : Res :=
  act s (fun s =>
    match s.cmd.fifo with
    | w :: _ => if cmdOp w = op && !fifoHeld s then f w.toNat s else s
    | [] => s)

/-- The head word is discarded with a configuration fault (R562). -/
def discardCmd (op : Nat) (s : State) : State := configFault op (popCmd s)

/-- The 4 KiB-aligned address in bits 47:8 of a command word (R428, R497, R513, R516, R543). -/
def cmdAddr (v : Nat) : Nat := field v 47 8 * 4096

end Sys2Proof.Machine
end

