-- ==== Sys2Proof/Machine/Waves.lean ====
section
/-! DEFINITION. STEP waves (08 R319 to R322, R597; 09 R360, R361), what passes at a curfew (01 R34; 14 R509 to R512), the
local reset (16 R555), and the commands STEP, CURFEW, BARRIER and RESET. -/

namespace Sys2Proof.Machine

/-! ### Rows of the command FIFO that concern a step -/

def curfewGroup (s : State) : Nat := (s.charter.map (·.curfewGroup)).getD 0

/-- STEP (R35): S becomes the open step once the curfew of the previous step has passed; its tallies start at zero. -/
def stepOpens (v : Nat) (s : State) : State :=
  if s.step.opened.isSome then s
  else
    let s := popCmd s
    { s with step := { s.step with
      opened := some (field v 47 16), firstStep := some (s.step.firstStep.getD (field v 47 16)), curfewStarted := false, mode := s.step.modeNext, modeNext := 0,
      tC := 0, tK := 0, tF := 0, tI := 0, opTallies := [] } }

def execStep (s : State) : Res := onHead 0x01 s stepOpens

/-! ### Waves -/

def findWave (s : State) (nm : WaveName) : Option Wave := s.waves.find? (fun w => w.name == nm)

def modWave (nm : WaveName) (f : Wave → Wave) (s : State) : State :=
  { s with waves := replaceFirst (fun w => w.name == nm) f s.waves }

/-- The wave of a name, begun if it is not known here yet. -/
def needWave (nm : WaveName) (s : State) : State :=
  if s.waves.any (fun w => w.name == nm) then s else { s with waves := s.waves ++ [{ name := nm }] }

def dropWave (nm : WaveName) (s : State) : State := { s with waves := s.waves.filter (fun w => !(w.name == nm)) }

/-- A STEP notice (08 Table 08-7). -/
def stepNotice (s : State) (nm : WaveName) (phase present : Nat) : Bytes :=
  mkNotice nStep nm.group nm.seq 0 0 0 (memberId s) nm.step
    (natLe 1 nm.purpose ++ natLe 1 phase ++ zeros 2 ++ natLe 4 present)

/-- Whether every operation of a step has ended here, nothing of it is being re-absorbed (R33, R195), no hold stands for it (R455)
and no declaration of it is being read. -/
def stepOver (s : State) (step : Nat) : Bool :=
  s.ops.all (fun o => decide (o.name.step ≠ step) || (opEnded s o && o.reabsorbing.isEmpty)) &&
  !marketOpen s (fun h => h.step == step) && !(s.forge.hold && decide (s.forge.heldStep = step)) &&
  s.step.jobs.all (fun j => !(j.declare && decide (j.step = step)))

/-- The local condition of a wave (R320): set by its command or write, and computed for a curfew and a confirmation. -/
def localCond (s : State) (w : Wave) : Bool :=
  match w.name.purpose with
  | 1 => s.step.curfewStarted && decide (s.step.opened = some w.name.step) && stepOver s w.name.step
  | 2 => (myGrp s w.name.group).isSome
  | _ => w.localCond

def upComplete (g : Grp) (w : Wave) : Bool :=
  (waveChildren g).all (fun c => w.heard.any (fun h => h.1 == c.1) || w.gaveUp.contains c.1)

/-! ### What passes at a curfew -/

/-- The preimage of the curfew digest (14 Table 14-4). -/
def curfewPreimage (s : State) (step present : Nat) : Bytes :=
  digestHead s ++ natLe 8 s.step.tF.toNat ++ natLe 8 s.step.tI.toNat ++ natLe 8 s.step.tC.toNat ++ natLe 8 s.step.tK.toNat ++
    natLe 8 (mapSeed s) ++ natLe 4 (((grpOf s (curfewGroup s)).map (·.members.length)).getD 0) ++ natLe 4 present ++
    natLe 4 step ++ natLe 2 (clearBit s.step.mode mfRestored) ++ natLe 2 (s.forge.map % 8) ++ natLe 4 0x00030001 ++
    natLe 4 (memberId s)

def stepRetries (s : State) : Nat := s.gates.foldl (fun n e => n + e.2.retryCount.toNat) 0
def stepRefreshes (s : State) : Nat :=
  (s.wells.filter (fun e => wellPresent s e.1)).foldl (fun n e => n + e.2.refresh.toNat) 0

/-- FORGE_NORM_SEEN against FORGE_NORM_EXPECT (R521). -/
def normCheck (s : State) : State :=
  if s.forge.seen = s.forge.expect then s else raise 0x06 3 uBlock 0 (memberId s) s

def curfewGate (k : Gate) : Gate := { k with retryCount := 0, shadowCmp := 0, mktDone := [] }
def curfewWell (k : Well) : Well :=
  { k with refresh := 0, queueHigh := min 1024 k.expBuf.length, applied := 0, parkOrd := 0, accepted := [], normTotal := 0 }

/-- Step counters are written, then the per-unit counts clear (R509; 07 Table 07-6, 09 Table 09-7, R419, 11 Table 11-5,
12 Table 12-6, R399). -/
def clearUnits (s : State) : State :=
  { s with
    gates := s.gates.foldl (fun t e => tset {} t e.1 (curfewGate e.2)) []
    wells := s.wells.foldl (fun t e => tset {} t e.1 (curfewWell e.2)) []
    forge := { s.forge with sent := false, result := false, clean := false, seen := 0, failed := 0, ownSq := 0,
                            latched := none, abandoned := none }
    mkt := { s.mkt with count := [] } }

/-- A free context keeps its record and its register values. -/
def freeCtx (c : Ctx) : Ctx :=
  { record := c.record, mode := c.mode, bits := c.bits, posted := c.posted, combined := c.combined, drop := c.drop,
    missed := c.missed }

/-- A routing context becomes free at the curfew of its step (R26). -/
def freeContexts (step : Nat) (s : State) : State :=
  let free := fun (c : Ctx) =>
    let c := { c with missed := c.missed.filter (fun m => decide (step < m.1)) }
    if c.step = step then freeCtx c else c
  { s with mkt := { s.mkt with ctx := s.mkt.ctx.foldl (fun t e => tset {} t e.1 (free e.2)) [] } }

/-- CLOSE notices held for operations of a step that passes before they open are protocol faults (R340). -/
def dropHeldCloses (step : Nat) (s : State) : State :=
  let past := s.heldCloses.filter (fun h => decide (h.op.step < 2 ^ 31 ∧ h.op.step ≤ step))
  let s := { s with heldCloses := s.heldCloses.filter (fun h => !decide (h.op.step < 2 ^ 31 ∧ h.op.step ≤ step)) }
  past.foldl (fun s h => raise 0x0C nClose (uGate h.gate) (chunkInfo h.op.group h.op.seq 0) (memberId s) s) s

/-- A waiting open registers its operation if it may (R481). -/
def openJob (c : Nat) (s : State) (j : Job) : State :=
  match j.kind with
  | .openWait nm n =>
    if mayOpen s nm then
      openReduction nm n (modCore c (fun k => { k with
        stores := k.stores.map (fun x => if x.id = j.id then { x with kind := .done } else x) }) s)
    else s
  | _ => s

/-- Every open that waits in a store engine and may open now does. -/
def openWaiting (s : State) : State :=
  s.cores.foldl (fun s e => e.2.stores.foldl (openJob e.1) s) s

/-- CURFEW_PASS (R33, R34, R481, R506, R509, R512, R515). -/
def passCurfew (step present : Nat) (s : State) : State :=
  let s := normCheck s
  let digest := sha256 (curfewPreimage s step present)
  let retry := stepRetries s
  let refresh := stepRefreshes s
  let rec2 := natLe 1 2 ++ natLe 1 1 ++ natLe 2 s.step.mode ++ natLe 4 step ++ zeros 4 ++ natLe 4 (memberId s) ++
    natLe 4 retry ++ natLe 4 refresh ++ natLe 8 s.step.tF.toNat ++ digest
  let s := auditPush 0 rec2 s
  let s := clearUnits s
  let s := freeContexts step (dropHeldCloses step s)
  let past := fun (nm : OpName) => decide (nm.step < 2 ^ 31 ∧ nm.step ≤ step)
  openWaiting { s with
    ops := s.ops.filter (fun o => !past o.name)
    heldAsks := s.heldAsks.filter (fun a => !past a.1)
    step := { s.step with
      opened := none, lastCurfew := some step, curfewStarted := false, ready := [], modeLast := s.step.mode, mode := 0,
      lastF := s.step.tF, lastI := s.step.tI, lastC := s.step.tC, lastK := s.step.tK,
      tC := 0, tK := 0, tF := 0, tI := 0, opTallies := [], digest := digest,
      retry := BitVec.ofNat 32 retry, refresh := BitVec.ofNat 32 refresh } }

/-! ### The local reset (R322, R555) -/

/-- A core returns to state 0, not loaded: nothing of it runs and nothing it had queued remains (R555, R579). -/
def stopCore (k : Core) : Core :=
  { k with state := 0, saving := false, more := false, haltReq := false, stepping := false, q0 := [], q1 := [], q2 := [],
           q3 := [], q4 := [], busyV := false, busyM := false, loads := [], stores := [], hold := none, row := {},
           kept := none }

/-- The rest of a frame whose first flit has left; frames that have not begun are dropped. -/
def begunFlits (fs : List Bytes) : List Bytes := fs.takeWhile (fun f => decide (numAt f 0 1 ≠ 4))

/-- Empty a gate's buffers, returning the credits of its receive buffers (R555). -/
def drainGate (k : Gate) : Gate :=
  { k with
    credPend := k.rxBuf.foldl (fun t e => tmod 0 t e.1 (· + e.2.length)) k.credPend, rxBuf := [], maskWait := [], sendQ := [], greenIn := [], greenNotices := [], retained := [], mkt := [],
    shadowIn := []
    chunkQ := k.chunkQ.foldl (fun t e => tset [] t e.1 (begunFlits e.2)) [] }

/-- A forge's queue and park region are empty, and no core waits for the expander (R555). -/
def drainWell (k : Well) : Well :=
  { k with fqueue := [], fbusy := none, parked := 0, parkOrd := 0, expBuf := [],
           jobs := (k.jobs.filter (fun j => j.core.isNone)).map (fun j => { j with fetch := j.src / 64 * 64 }) }

/-- The start of the local reset: operations and contexts end without bells, buffers empty, cores stop, the open step's
tallies and flags clear; an inbox and a park region are empty when nothing of them is in use (R555). -/
def localReset (s : State) : State :=
  { s with
    aon := { s.aon with resetCause := 3 }
    ops := [], heldCloses := [], heldAsks := []
    waves := []
    gates := s.gates.foldl (fun t e => tset {} t e.1 (drainGate e.2)) []
    cores := s.cores.foldl (fun t e => tset {} t e.1 { stopCore e.2 with inboxNext := 0 }) []
    wells := s.wells.foldl (fun t e => tset {} t e.1 (drainWell e.2)) []
    mkt := { s.mkt with frames := [], ctx := s.mkt.ctx.foldl (fun t e => tset {} t e.1 (freeCtx e.2)) [] }
    step := { s.step with mode := 0, tC := 0, tK := 0, tF := 0, tI := 0, opTallies := [], ready := [], resetDone := false } }

/-- LOCAL_RESET_END (R322): the 2 µs are over. -/
def execLocalResetEnd (s : State) : Res :=
  act s (fun s => { s with step := { s.step with resetDone := true } })

/-! ### Up and down -/

/-- What a member does when STEP down has reached it (R322). -/
def waveDone (nm : WaveName) (present : Nat) (s : State) : State :=
  match nm.purpose with
  | 0 =>
    let s := barrierBell nm.group nm.seq s
    if nm.seq = 0xFFFF ∧ s.forge.hinging then { s with forge := { s.forge with hingeReady := true } } else s
  | 1 => passCurfew nm.step present s
  | 2 =>
    let enter := fun (g : Grp) => { g with ordered := !s.roll.forceArrival && !g.arrivalOnly }
    { s with roll := { s.roll with
      groups := mapWhere (fun g => g.id == nm.group) enter s.roll.groups
      confirming := s.roll.confirming.filter (· != nm.group) } }
  | _ => localReset s

/-- This member acts on STEP down; a curfew waits while an operation of its step is open here (R33). -/
def waveActs (w : Wave) (present : Nat) (s : State) : State :=
  if w.name.purpose = 1 ∧ !localCond s w then modWave w.name (fun w => { w with down := true, present := present }) s
  else waveDone w.name present (dropWave w.name s)

/-- STEP down goes to every child that sent STEP up, then this member acts (R320, R360). -/
def waveDown (g : Grp) (w : Wave) (present : Nat) (s : State) : State :=
  let s := ((waveChildren g).filter (fun c => w.heard.any (fun h => h.1 == c.1))).foldl
    (fun s c => sendNotice c.2 (stepNotice s w.name 1 present) s) s
  waveActs w present s

/-- STEP up is sent once, or at the root turned into STEP down, when both conditions of R320 hold; a wave that has come down acts
when it may. -/
def advanceWave (s : State) (nm : WaveName) : State :=
  match findWave s nm, myGrp s nm.group with
  | some w, some g =>
    if w.down then waveActs w w.present s
    else if w.sentUp || !localCond s w || !upComplete g w then s
    else
      let present := w.heard.foldl (fun n h => n + h.2) 1
      match waveParent g with
      | some (_, gate) => modWave nm (fun w => { w with sentUp := true }) (sendNotice gate (stepNotice s nm 0 present) s)
      | none => waveDown g w present s
  | _, _ => s

/-- This member's own part of a wave begins. -/
def startWave (nm : WaveName) (s : State) : State :=
  advanceWave (modWave nm (fun w => { w with localCond := true }) (needWave nm s)) nm

/-- A STEP up notice from a child (R320, R321). -/
def stepUpArrives (gate : Nat) (n : Bytes) (s : State) : State :=
  let h := noticeHdr n
  let nm : WaveName := ⟨h.group, numAt n 28 1, h.seq, h.step⟩
  match myGrp s h.group with
  | none => gateFault 0x0C nStep gate h h.member 0 s
  | some g =>
    if 3 < nm.purpose ∨ !(waveChildren g).any (fun c => c.1 == h.member) then gateFault 0x0C nStep gate h h.member 0 s
    else
      let add := fun (w : Wave) => if w.heard.any (fun x => x.1 == h.member) then w
        else { w with heard := w.heard ++ [(h.member, numAt n 32 4)] }
      advanceWave (modWave nm add (needWave nm s)) nm

/-- A STEP down notice from the parent (R320, R322). -/
def stepDownArrives (gate : Nat) (n : Bytes) (s : State) : State :=
  let h := noticeHdr n
  let nm : WaveName := ⟨h.group, numAt n 28 1, h.seq, h.step⟩
  match findWave s nm, myGrp s h.group with
  | some w, some g => if w.sentUp && !w.down then waveDown g w (numAt n 32 4) s else s
  | _, none => gateFault 0x0C nStep gate h h.member 0 s
  | none, _ => s

/-- Look again at every wave whose local condition may have come to hold. -/
def advanceAll (s : State) : State := (s.waves.map (·.name)).foldl advanceWave s

/-! ### CURFEW, BARRIER and RESET commands -/

/-- CURFEW (R320, R562): starts when its step is the open step, else it is discarded. -/
def curfewStarts (v : Nat) (s : State) : State :=
  let st := field v 47 16
  if s.step.opened = some st then
    let s := popCmd s
    let s := { s with step := { s.step with curfewStarted := true } }
    startWave ⟨curfewGroup s, 1, 0, st⟩ s
  else discardCmd 0x03 s

def execCurfew (s : State) : Res := onHead 0x03 s curfewStarts

/-- BARRIER (R320, R562, R597). -/
def barrierStarts (v : Nat) (s : State) : State :=
  let g := field v 19 8
  let q := field v 35 20
  if (myGrp s g).isSome ∧ q ≠ 0xFFFF then startWave ⟨g, 0, q, s.step.lastCurfew.getD 0⟩ (popCmd s)
  else discardCmd 0x04 s

def execBarrier (s : State) : Res := onHead 0x04 s barrierStarts

/-- RESET (R319, R597). -/
def resetStarts (_v : Nat) (s : State) : State :=
  startWave ⟨curfewGroup s, 3, 0, s.step.lastCurfew.getD 0⟩ (popCmd s)

def execReset (s : State) : Res := onHead 0x06 s resetStarts

/-! ### R360, R361 -/

/-- CURFEW_WAVE_TIMEOUT (R360): at D a member sends STEP up without the missing children, reports each, and sends each a
CLOSE with outcome 3 and the subtree flag. -/
def waveTimeout (nm : WaveName) (s : State) : State :=
  match findWave s nm, myGrp s nm.group with
  | some w, some g =>
    if nm.purpose = 2 || w.sentUp || w.down || !localCond s w then s
    else
      let missing := (waveChildren g).filter (fun c =>
        !(w.heard.any (fun h => h.1 == c.1) || w.gaveUp.contains c.1))
      let s := missing.foldl (fun s c =>
        let s := raise 0x16 0 uBlock (chunkInfo nm.group nm.seq 0) c.1 s
        sendNotice c.2 (mkNotice nClose nm.group nm.seq 0 0 0 c.1 nm.step (closeTail s g c.1 3 g.members.length true)) s) s
      advanceWave (modWave nm (fun w => { w with gaveUp := w.gaveUp ++ missing.map (·.1) }) s) nm
  | _, _ => s

def execCurfewWaveTimeout (wave : WaveName) (s : State) : Res := act s (waveTimeout wave)

/-- CONFIRMATION_INCOMPLETE (R361): every group stays in arrival-order mode, and a roll fault is raised. -/
def confirmIncomplete (group : Nat) (s : State) : State :=
  if s.roll.confirming.contains group then
    let s := { s with
      waves := s.waves.filter (fun w => w.name.purpose != 2)
      roll := { s.roll with confirming := [], groups := s.roll.groups.map (fun g => { g with ordered := false }) } }
    raise 0x0F 0 uBlock group 0 s
  else s

def execConfirmationIncomplete (group : Nat) (s : State) : Res := act s (confirmIncomplete group)

/-! ### Confirmation and force_arrival (R283) -/

/-- ROLL_CONFIRM (R283): a confirmation wave in every loaded group, or refused. -/
def rollConfirm (s : State) : State :=
  if s.roll.groups.isEmpty || !s.roll.confirming.isEmpty then { s with roll := { s.roll with refused := true } }
  else
    let ids := (s.roll.groups.filter (fun g => g.view.memberOf)).map (·.id)
    ids.foldl (fun s i => startWave ⟨i, 2, 0, 0⟩ s) { s with roll := { s.roll with confirming := ids } }

def execRollConfirm (s : State) : Res := act s rollConfirm

/-- FORCE_ARRIVAL (R283): every loaded group goes into arrival-order mode at once. -/
def forceArrival (s : State) : State :=
  { s with roll := { s.roll with
    forceArrival := true, groups := s.roll.groups.map (fun g => { g with ordered := false }) } }

def execForceArrival (s : State) : Res := act s forceArrival

end Sys2Proof.Machine
end

