-- ==== Sys2Proof/Machine/RollLoad.lean ====
section
/-! DEFINITION. The roll load (08 R270 to R281, R300, R309, R332; 10 R370). -/

namespace Sys2Proof.Machine

/-- A directory record as read (08 Table 08-1). -/
structure DirRec where
  id : Nat
  flags : Nat
  cls : Nat
  count : Nat
  list : Nat
  deadline : Nat
  fanout : Nat
  priority : Nat
  waitSlots : Nat
  rootDelivery : Nat
  psum : Nat
  bcast : Nat
deriving DecidableEq, Repr

def dirRec (b : Bytes) : DirRec :=
  { id := numAt b 0 2, flags := numAt b 2 1, cls := numAt b 3 1, count := numAt b 4 4, list := numAt b 8 8,
    deadline := numAt b 16 4, fanout := numAt b 20 1, priority := numAt b 21 1, waitSlots := numAt b 22 1,
    rootDelivery := numAt b 23 1, psum := numAt b 24 1, bcast := numAt b 25 1 }

def DirRec.valid (d : DirRec) : Bool := bitOf d.flags 0
def DirRec.flat (d : DirRec) : Bool := bitOf d.flags 1
def DirRec.weighted (d : DirRec) : Bool := bitOf d.flags 2

/-- R270, R300: a valid record whose fields are in range. -/
def dirOk (n : Nat) (b : Bytes) (d : DirRec) : Bool :=
  decide (d.id = n ∧ d.flags < 16 ∧ d.cls ≤ 2 ∧ 1 ≤ d.count ∧ d.count ≤ (if d.flat then 65 else 262144) ∧ d.list % 8 = 0 ∧
    d.priority ≤ 15 ∧ d.waitSlots ≤ 14 ∧ d.rootDelivery ≤ 4 ∧ (d.psum = 1 ∨ d.psum = 2) ∧ d.bcast ≤ 1) &&
  (d.flat || decide (1 ≤ d.fanout ∧ d.fanout ≤ 64)) && allZero b 26 38 &&
  (if d.cls = 2 then decide (2 ≤ d.rootDelivery) else decide (d.rootDelivery ≠ 4))

/-- The member list of a record (R271). -/
def readList (s : State) (d : DirRec) : List Nat := (List.range d.count).map (fun i => leNat (hostRead s (d.list + 4 * i) 4))

/-- A list with no reserved bit and no repeat (R271). -/
def listOk (ms : List Nat) : Bool := ms.all (fun m => decide (m < 2 ^ 18)) && decide ((dedup ms).length = ms.length)

/-- A view record as read (08 Table 08-3). -/
def viewRec (b : Bytes) : View :=
  let f := numAt b 2 1
  { memberOf := bitOf f 0, root := bitOf f 1, flat := bitOf f 2, height := numAt b 3 1, position := numAt b 4 4,
    node := numAt b 8 4, p := numAt b 12 1, depth := numAt b 13 1, adderGate := numAt b 14 1, parentGate := numAt b 15 1,
    parent := numAt b 16 4, sibling := numAt b 20 2, childCount := numAt b 22 2, firstChild := numAt b 24 4,
    weight := numAt b 28 4, rootGates := (List.range (numAt b 32 1)).map (fun i => numAt b (33 + i) 1) }

/-- Child table entries of a view (R278): member and gate, and whether the reserved bits are zero. -/
def childEntries (s : State) (base : Nat) (v : View) : List (Nat × Nat × Bool) :=
  (List.range v.childCount).map (fun i =>
    let e := leNat (hostRead s (base + 4096 * 64 + 4 * (v.firstChild + i)) 4)
    (field e 17 0, field e 24 18, decide (e < 2 ^ 25)))

/-- What this member's place in a tree comes to: children, parent, sibling position, height, depth, and the subtree size of
each child (R272 to R276, R332). -/
structure Derived where
  place : Place
  children : List Nat
  subtree : List Nat
  parent : Option Nat
  sibling : Nat
  height : Nat
  depth : Nat
deriving DecidableEq, Repr

def derive (z fan me : Nat) (flat : Bool) (ms : List Nat) : Derived :=
  let (pl, counts) := placesOf (max 1 z) ms
  let here := (pl.find? (fun p => p.member == me)).getD ⟨me, 0, 0⟩
  if flat then
    let ch := ms.filter (· != me)
    { place := here, children := ch, subtree := ch.map (fun _ => 1), parent := none, sibling := 0, height := 1, depth := 1 }
  else
    let fuel := treeFuel counts
    let kids := treeChildren fan counts here.q here.p
    let par := treeParent fan here.q here.p
    let sib := match par with
      | none => 0
      | some u => (((treeChildren fan counts u.1 u.2).findIdx? (fun c => decide (c = (here.q, here.p)))).map (· + 1)).getD 0
    { place := here, children := kids.map (memberAt pl), subtree := kids.map (fun c => treeSize fan counts fuel c.1 c.2),
      parent := par.map (memberAt pl), sibling := sib, height := treeHeight fan counts fuel here.q here.p,
      depth := treeHeight fan counts fuel 0 0 }

/-- Whether a stored view agrees with the derived one (R278, R279). -/
def viewAgrees (n : Nat) (b : Bytes) (d : DirRec) (ms : List Nat) (me : Nat) (v : View) (es : List (Nat × Nat × Bool))
    (x : Derived) : Bool :=
  let root := d.flat || x.parent.isNone
  let nr := numAt b 32 1
  decide (numAt b 0 2 = n) && decide (numAt b 2 1 < 8) && (v.flat == d.flat) && (v.root == root) &&
  decide (v.height = x.height ∧ ms[v.position]? = some me ∧ v.node = x.place.q ∧ v.p = x.place.p ∧ v.depth = x.depth ∧
    v.sibling = x.sibling ∧ v.childCount = x.children.length ∧ v.weight = (if d.weighted then 0 else d.count)) &&
  decide (es.map (·.1) = x.children) && es.all (fun e => e.2.2 && decide (e.2.1 < 96)) &&
  (if root then decide (v.adderGate = 0x7F ∧ v.parentGate = 0x7F ∧ 1 ≤ nr ∧ nr ≤ 8)
   else decide (v.adderGate = v.parentGate ∧ v.parentGate < 96 ∧ x.parent = some v.parent ∧ nr = 0)) &&
  v.rootGates.all (fun g => decide (g < 96)) && allZero b (33 + nr) (8 - nr) && allZero b 41 23

/-- Whether the stored view of a group that does not list this member agrees with what derives without a place in it: the group
id, the flags, the depth and the total weight (R278, R279; log 168). -/
def outsideAgrees (n : Nat) (b : Bytes) (d : DirRec) (v : View) (depth : Nat) : Bool :=
  decide (numAt b 0 2 = n) && decide (numAt b 2 1 < 8) && (v.flat == d.flat) && !v.root &&
  decide (v.depth = depth ∧ v.weight = (if d.weighted then 0 else d.count)) && allZero b 41 23

/-- Whether a link's recorded peer is a member (R279). -/
def peerIs (s : State) (gate m : Nat) : Bool := decide ((getGate s gate).peerMember = m)

/-- hmax of a pool with one more view counted (R308, R309); a view of a flat group has height 1 (Table 08-3). -/
def hmaxWith (n : Nat) (g : Grp) (hm : List (Nat × Nat)) : List (Nat × Nat) :=
  let h := g.view.height
  if !g.view.memberOf || h = 0 then hm
  else
    let gates := if g.flat || g.view.root then dedup g.view.rootGates else [g.view.adderGate]
    gates.foldl (fun t gate => tmod 0 t (gate * 4 + n % 4) (max h)) hm

/-- Every pool holds 2 × hmax + 2 slots (R309). -/
def poolsHold (s : State) (hm : List (Nat × Nat)) : Bool :=
  (List.range (numGates * 4)).all (fun i => decide (2 * tget 0 hm i + 2 ≤ poolSize s (i / 4) (i % 4)))

/-- What a load has built so far. -/
structure Loading where
  groups : List Grp
  entries : Nat
  hmax : List (Nat × Nat)
  errs : List (Nat × Nat)
deriving DecidableEq, Repr

/-- Check and load group n: its record or the reason it fails (R279, R281; 08 Table 08-4). -/
def loadGroup (s : State) (c : Charter) (l : Loading) (n : Nat) : Loading :=
  let b := hostRead s (c.rollDir + 64 * n) 64
  let d := dirRec b
  let fail := fun (r : Nat) => { l with errs := l.errs ++ [(n, r)] }
  if !d.valid then l
  else if !dirOk n b d then fail 1
  else
    let ms := readList s d
    let vb := hostRead s (c.rollView + 64 * n) 64
    let v := viewRec vb
    let me := c.member
    if !listOk ms || (ms.contains me != v.memberOf) then fail 2
    else
      let mk := fun (kids : List (Nat × Nat)) (sub : List Nat) =>
        ({ id := n, flat := d.flat, tokenWeighted := d.weighted, arrivalOnly := bitOf d.flags 3, cls := d.cls, members := ms,
           deadline := d.deadline, fanout := d.fanout, priority := d.priority, waitSlots := d.waitSlots,
           rootDelivery := d.rootDelivery, psum := d.psum, bcastDelivery := d.bcast, view := v, children := kids,
           subtree := sub, ordered := false, failed := false } : Grp)
      let x := derive c.nodeSize d.fanout me d.flat ms
      if !v.memberOf then
        if !outsideAgrees n vb d v x.depth then fail 3
        else if 15 < x.depth then fail 5
        else if !poolsHold s l.hmax then fail 7
        else { l with groups := l.groups ++ [mk [] []] }
      else
        let es := childEntries s c.rollView v
        let parentOk := d.flat || (match x.parent with | some p => peerIs s v.parentGate p | none => true)
        let g := mk (es.map (fun e => (e.1, e.2.1))) x.subtree
        let hm := hmaxWith n g l.hmax
        if !viewAgrees n vb d ms me v es x then fail 3
        else if !parentOk || !es.all (fun e => peerIs s e.2.1 e.1) then fail 4
        else if 15 < x.depth then fail 5
        else if 32768 < v.firstChild + v.childCount ∨ 32768 < l.entries + v.childCount then fail 6
        else if !poolsHold s hm then fail 7
        else { groups := l.groups ++ [g], entries := l.entries + v.childCount, hmax := hm, errs := l.errs }

/-- One route table entry: kept, or rejected as a roll fault when its gate's link is not up (R370). -/
def routeEntry (s : State) (b : Byte) : Option Byte :=
  if b.toNat = 0x7F then some b else if b.toNat < 96 && linkUp s b.toNat then some b else none

/-- Record a failing group: ROLL_ERR keeps the first since load_err was cleared (R281). -/
def rollFail (s : State) (e : Nat × Nat) : State :=
  let r := s.roll
  let r := if r.loadErr then r else { r with errGroup := e.1, errReason := e.2 }
  raise 0x0F e.2 uBlock e.1 0
    { s with roll := { r with loadErr := true, peerErr := r.peerErr || decide (e.2 = 4) } }

/-- ROLL_LOAD (R279, R281, R370). Without a charter there is no steward firmware that loads rolls (R569). -/
def rollLoad (rd : ReadEnd) (s : State) : State :=
  match s.charter with
  | none => s
  | some c =>
    if anyOpOpen s || !s.roll.confirming.isEmpty then { s with roll := { s.roll with refused := true } }
    else
      let s := readsEnd rd s
      let l := (List.range 4096).foldl (loadGroup s c) ⟨[], 0, [], []⟩
      let es := (hostRead s c.mktRoute 32768).map (routeEntry s)
      let s := { s with roll := { s.roll with
        loaded := true, groups := l.groups, hmax := l.hmax, route := es.map (fun e => e.getD 0x7F) } }
      let s := l.errs.foldl rollFail s
      (es.filter (·.isNone)).foldl (fun s _ => raise 0x0F 0 uBlock 0 0 s) s

def execRollLoad (rd : ReadEnd) (s : State) : Res := act s (rollLoad rd)

end Sys2Proof.Machine
end

