-- ==== Sys2Proof/Machine/Boot.lean ====
section
/-! DEFINITION. Start-up and loads (16 R569 to R579): firmware, the charter with every check that the manual gives its
loader, the scan of the parish book and the baseline test. Charter record bodies: log 21. -/

namespace Sys2Proof.Machine

/-! ### Parts of a charter -/

/-- The records of a stream in order, and whether their framing held (R577): type, flags, body. -/
def charterRecs : Nat → Bytes → List (Nat × Nat × Bytes) × Bool
  | 0, rest => ([], rest.isEmpty)
  | n + 1, rest =>
    let len := numAt rest 4 4
    if rest.length < 8 ∨ len % 8 ≠ 0 ∨ rest.length < 8 + len then ([], false)
    else
      let r := charterRecs n (rest.drop (8 + len))
      ((numAt rest 0 2, numAt rest 2 2, (rest.drop 8).take len) :: r.1, r.2)

abbrev Recs := List (Nat × Nat × Bytes)

/-- Bodies of a type. -/
def bodies (rs : Recs) (ty : Nat) : List Bytes := (rs.filter (fun r => r.1 == ty)).map (·.2.2)
def body (rs : Recs) (ty : Nat) : Bytes := (bodies rs ty).headD []

/-- Numbers of the bits set in the first n bits of a byte string. -/
def bitList (b : Bytes) (n : Nat) : List Nat := (List.range n).filter (fun i => bitOf (b.getD (i / 8) 0).toNat (i % 8))

def fenceCores (rs : Recs) : List Nat := bitList (body rs 2) 2304
def fenceGates (rs : Recs) : List Nat := bitList ((body rs 2).drop 288) 96

/-- The slices of n bytes of a body. -/
def entries (n : Nat) (b : Bytes) : List Bytes := chunksOf n (b.length / n) b

def sliverOf (e : Bytes) : Sliver := ⟨numAt e 0 4, numAt e 4 2, numAt e 6 2, numAt e 8 4, numAt e 12 4⟩

def qclassOf (e : Bytes) : QClass :=
  let w := fun (i : Nat) => BitVec.ofNat 32 (numAt e (4 * i) 4)
  ⟨w 0, w 1, w 2, w 3, w 4⟩

/-- 06 Table 06-1. -/
def tensorRecOf (e : Bytes) : TensorRec :=
  { tensor := numAt e 0 4, mode := numAt e 4 1, qclass := numAt e 5 1, param := numAt e 6 1, flags := numAt e 7 1,
    rows := numAt e 8 4, cols := numAt e 12 4, glean0 := numAt e 16 8, glean1 := numAt e 24 8, statBase := numAt e 32 8,
    sketch := numAt e 40 8, group := numAt e 48 2, inst := numAt e 50 2, seed := numAt e 56 8 }

/-- 12 Table 12-1. -/
def forgeRecOf (e : Bytes) : ForgeRec :=
  let w := fun (o : Nat) => BitVec.ofNat 32 (numAt e o 4)
  { tensor := numAt e 0 4, family := numAt e 4 1, flags := numAt e 5 1, group := numAt e 6 2, seq := numAt e 8 2,
    bgroup := numAt e 10 2, bseq := numAt e 12 2, wbase := numAt e 16 8, lbase := numAt e 24 8, mbase := numAt e 32 8,
    sbase := numAt e 40 8, first := numAt e 48 4, count := numAt e 52 4, eta := w 56, lam := w 60, beta1 := w 64,
    beta2 := w 68, eps := w 72 }

/-- The move record of R462. -/
def moveRecOf (e : Bytes) : MoveRec :=
  { kind := numAt e 0 1, low := bitOf (numAt e 1 1) 0, group := numAt e 2 2, seq := numAt e 4 2, tensor := numAt e 8 4,
    first := numAt e 12 4, count := numAt e 16 4 }

def mapCounts (b : Bytes) : Nat × Nat × Nat := (numAt b 8 2, numAt b 6 2, numAt b 10 2)
def mapTensors (b : Bytes) : List Bytes := entries 64 ((b.drop 64).take (64 * (mapCounts b).1))
def mapForges (b : Bytes) : List Bytes := entries 96 ((b.drop (64 + 64 * (mapCounts b).1)).take (96 * (mapCounts b).2.1))
def mapMoves (b : Bytes) : List Bytes := entries 32 (b.drop (64 + 64 * (mapCounts b).1 + 96 * (mapCounts b).2.1))

/-- A phase map with its records (R458). -/
def phaseMapOf (b : Bytes) : PhaseMap :=
  { number := numAt b 0 1, flags := numAt b 1 1, normGroup := numAt b 2 2, normSeq := numAt b 4 2,
    tau := BitVec.ofNat 32 (numAt b 12 4), seed := numAt b 16 8, tensors := (mapTensors b).map tensorRecOf,
    forges := (mapForges b).map forgeRecOf, moves := (mapMoves b).map moveRecOf }

/-! ### The checks of the charter loader -/

/-- BLOCK: R268, R269, R407; BLK_CTX_BASE is 4 KiB aligned. -/
def blockRecOk (b : Bytes) : Bool :=
  let m := numAt b 0 4
  decide (b.length = 24 ∧ m < 2 ^ 23 ∧ 1 ≤ field m 22 18 ∧ field m 22 18 ≤ 16 ∧ numAt b 4 4 < 4096 ∧
    numAt b 8 8 % 4096 = 0 ∧ numAt b 16 4 < 256 ∧ numAt b 20 4 = 0) && bitOf (numAt b 16 4) 0

/-- CORES: a gate that exists or 0x7F; no role for a fenced core (R19, R533). -/
def coresRecOk (rs : Recs) (b : Bytes) : Bool :=
  let es := (entries 4 b).map leNat
  let fenced := fenceCores rs
  decide (b.length = 9216) && es.all (fun e => decide (field e 7 0 < 96 ∨ field e 7 0 = 0x7F)) &&
  fenced.all (fun c => decide (field (es.getD c 0) 15 8 = 0))

/-- Whether ascending ranges cover [lo, hi) with no gap and no overlap. -/
def tilesRange (hi : Nat) : Nat → List (Nat × Nat) → Bool
  | lo, [] => decide (lo = hi)
  | lo, (a, n) :: t => decide (a = lo) && tilesRange hi (lo + n) t

/-- R21, R207: the slivers of a map cover each of its tensors exactly once and name no other; those of a sketched tensor are whole
rows that start where its P parts may. -/
def sliversCover (m : PhaseMap) (vs : List Sliver) : Bool :=
  vs.all (fun v => m.tensors.any (fun t => t.tensor == v.tensor)) &&
  m.tensors.all (fun t =>
    let own := vs.filter (fun v => v.tensor == t.tensor)
    tilesRange (t.rows * t.cols) 0 (sortBy (·.1) (own.map (fun v => (v.first, v.count)))) &&
    (decide (t.mode ≠ 2) || own.all (fun v => decide (v.first % max 1 t.cols = 0 ∧ v.count % max 1 t.cols = 0 ∧
      v.first / max 1 t.cols % (128 / Nat.gcd 128 (2 ^ (t.param + 2))) = 0))))

/-- SLIVERS: one map per record, no fenced core (R21, R533, Table 16-9); an empty record says nothing. -/
def sliversRecOk (rs : Recs) (b : Bytes) : Bool :=
  let vs := (entries 16 b).map sliverOf
  let fenced := fenceCores rs
  (vs.isEmpty || (bodies rs 0x0C).any (fun m => decide (some (numAt m 0 1) = vs.head?.map (·.map)) && sliversCover (phaseMapOf m) vs)) &&
  decide (b.length % 16 = 0) && vs.all (fun v =>
    decide (v.core < numCores ∧ v.map < 8 ∧ 1 ≤ v.count ∧ v.first + v.count ≤ 2 ^ 31) && !fenced.contains v.core &&
    decide (some v.map = vs.head?.map (·.map)))

/-- One quantisation class: Table 05-2 and R154. -/
def qclassOk (q : QClass) : Bool :=
  let c := q.ctl.toNat
  let floor := field c 11 10
  let start := field c 13 12
  let thr := fun (t : U32) => f32IsFinite t && !f32Lt t 0
  decide (c < 2 ^ 24 ∧ floor ≤ start) && decide (field c 3 0 = 6 ∨ field c 3 0 = 8) &&
  decide (field c 7 4 = 3 ∨ field c 7 4 = 4 ∨ field c 7 4 = 7) &&
  (!bitOf c 9 || decide (2 ≤ floor ∧ 2 ≤ start ∧ field c 15 14 = 1)) &&
  f32Le 0x40000000 q.ratio && thr q.thr4 && thr q.thr6 && thr q.thr8

/-- EXCHANGE: R323, R336, Tables 09-7 and 08-9, R356, R519. -/
def exchangeRecOk (b : Bytes) : Bool :=
  let grans := (entries 4 (slice b 24 384)).map (fun e => e.foldl (fun n x => n + x.toNat) 0)
  decide (b.length = 4568 ∧ numAt b 0 4 ≠ 0 ∧ 128 ≤ numAt b 4 4 ∧ numAt b 4 4 ≤ 255 ∧ 4 ≤ numAt b 8 4 ∧ numAt b 8 4 ≤ 10 ∧
    numAt b 12 4 = 0) && grans.all (fun n => decide (n ≤ 126)) && (b.drop 472).all (fun x => decide (x.toNat < 16))

/-- WELLS: park bases are 64-byte aligned (Table 12-5). -/
def wellsRecOk (b : Bytes) : Bool :=
  decide (b.length = 520) && (entries 16 (b.take 512)).all (fun e => decide (numAt e 0 8 % 64 = 0 ∧ numAt e 12 4 = 0))

/-- One tensor record: R189 and the ranges of Table 06-1. -/
def tensorRecOk (qs : List QClass) (e : Bytes) : Bool :=
  let t := tensorRecOf e
  let sparse := bitOf ((qs.getD t.qclass ⟨0, 0, 0, 0, 0⟩).ctl).toNat 9
  let rank := 2 ^ (t.param + 2)
  decide (t.mode ≤ 2 ∧ t.qclass < 16 ∧ t.flags < 8 ∧ t.group < 4096 ∧ numAt e 52 4 = 0 ∧ t.rows * t.cols ≤ 2 ^ 31) &&
  (sparse == decide (t.mode = 1)) &&
  (match t.mode with
   | 0 => decide (t.param = 0)
   | 1 => decide (1 ≤ t.param ∧ t.param ≤ 12)
   | _ => decide (t.param ≤ 4 ∧ rank ≤ t.rows ∧ rank ≤ t.cols) && !bitOf t.flags 1) &&
  (decide (t.mode = 2) || decide (t.sketch = 0 ∧ t.seed = 0)) && (bitOf t.flags 1 == decide (t.inst ≠ 0xFFFF))

/-- One forge record of a map: R434 and the ranges of Table 12-1. -/
def forgeRecOk (ts : List TensorRec) (e : Bytes) : Bool :=
  let r := forgeRecOf e
  let t := ts.find? (fun t => t.tensor == r.tensor)
  let stop := r.first + r.count
  decide (r.family ≤ 3 ∧ r.flags < 16 ∧ r.group < 4096 ∧ (r.bgroup = 0xFFFF ∨ r.bgroup < 4096) ∧ numAt e 14 2 = 0 ∧
    1 ≤ r.count ∧ r.count ≤ 2 ^ 31 ∧ r.mbase % 64 = 0 ∧ r.sbase % 64 = 0) && allZero e 76 20 &&
  (if recSplit r then decide (r.lbase ≠ 0 ∧ r.family ≠ 3) else decide (r.lbase = 0)) &&
  (decide (r.family = 1) == decide (r.sbase ≠ 0)) &&
  (if t.any (fun t => t.mode == 2) then decide (r.first % 32 = 0)
   else decide (r.first % 2048 = 0) && (decide (stop % 2048 = 0) || t.any (fun t => decide (stop = t.rows * t.cols))))

/-- No two entries of a list are related. -/
def pairwiseNot (p : α → α → Bool) : List α → Bool
  | [] => true
  | x :: xs => xs.all (fun y => !p x y) && pairwiseNot p xs

def forgeOverlap (a b : ForgeRec) : Bool :=
  decide (a.tensor = b.tensor ∧ a.first < b.first + b.count ∧ b.first < a.first + a.count)

/-- Whether ascending ranges cover [lo, hi). -/
def sweeps (hi : Nat) : Nat → List (Nat × Nat) → Bool
  | lo, [] => decide (hi ≤ lo)
  | lo, (a, n) :: t => decide (hi ≤ lo) || (decide (a ≤ lo) && sweeps hi (max lo (a + n)) t)

/-- The records of one map keep their owner under another: both enable the forge and no family is 3 (R434). -/
def ownersAgree (a b : PhaseMap) : Bool :=
  !mapForge a || !mapForge b || a.forges.all (fun r => decide (r.family = 3) ||
    sweeps (r.first + r.count) r.first
      (sortBy (·.1) ((b.forges.filter (fun f => f.tensor == r.tensor)).map (fun f => (f.first, f.count)))))

/-- Present wells of a group mask. -/
def wellsOfGroups (g : Nat) : List Nat := (List.range numWells).filter (fun w => bitOf g (w / 4))

/-- R457: a park region holds every block of its well when clipping is enabled. -/
def parkOk (rs : Recs) (m : PhaseMap) : Bool :=
  let ws := wellsOfGroups (numAt (body rs 1) 16 4)
  let own := m.forges.flatMap (fun r => (List.range (recBlocks r)).map (fun j =>
    ws.getD ((weightAddr r (blockFirst r j) / 4096) % max 1 ws.length) 0))
  !mapClip m || ws.all (fun w => decide (own.countP (· == w) ≤ numAt (body rs 0x0B) (16 * w + 8) 4))

/-- PHASE_MAP: Table 12-4, R21, R188, R189, R433, R434, R457, R459, R462. -/
def mapRecOk (rs : Recs) (b : Bytes) : Bool :=
  let (nt, nf, nm) := mapCounts b
  let m := phaseMapOf b
  let qs := (entries 20 (body rs 7)).map qclassOf
  decide (64 ≤ b.length ∧ b.length = 64 + 64 * nt + 96 * nf + 32 * nm ∧ m.number ≤ 7 ∧ m.flags < 8 ∧ nf ≤ 4096 ∧
    nt ≤ 4096 ∧ nm ≤ 1024 ∧ (m.normGroup = 0xFFFF ∨ m.normGroup < 4096)) && allZero b 24 40 &&
  !(mapForge m && mapEval m) &&
  (!mapClip m || (decide (m.normGroup ≠ 0xFFFF) && f32IsFinite m.tau && f32Lt 0 m.tau)) &&
  (mapTensors b).all (tensorRecOk qs) && (mapForges b).all (forgeRecOk m.tensors) &&
  (mapMoves b).all (fun e => decide (numAt e 0 1 ≤ 1 ∧ numAt e 1 1 ≤ 1 ∧ numAt e 2 2 < 4096 ∧ numAt e 6 2 = 0) &&
    allZero e 20 12) &&
  pairwiseNot forgeOverlap m.forges && parkOk rs m &&
  (m.tensors.isEmpty || (bodies rs 4).any (fun v => !v.isEmpty && numAt v 6 2 == m.number)) &&
  decide ((bodies rs 0x0C).countP (fun o => numAt o 0 1 == m.number) = 1) &&
  (bodies rs 0x0C).all (fun o => ownersAgree m (phaseMapOf o))

/-- Fenced gates that a charter's contexts, views or core roles name (R533); route entries are checked at the roll load. -/
def stallGatesOk (s : State) (rs : Recs) (b : Bytes) : Bool :=
  let base := numAt b 0 8
  decide (b.length = 8 ∧ base % 4096 = 0) && (List.range 32).all (fun c =>
    let r := hostRead s (base + 128 * c) 128
    !ctxMarked r || !(fenceGates rs).contains (numAt r 6 1))

/-- ROLL: three 4 KiB-aligned bases; no view of a valid group adds or roots at a fenced gate (R533). -/
def rollRecOk (s : State) (rs : Recs) (b : Bytes) : Bool :=
  let dir := numAt b 0 8
  let view := numAt b 8 8
  let fenced := fenceGates rs
  decide (b.length = 24 ∧ dir % 4096 = 0 ∧ view % 4096 = 0 ∧ numAt b 16 8 % 4096 = 0) &&
  (fenced.isEmpty || (List.range 4096).all (fun n =>
    !bitOf (numAt (hostRead s (dir + 64 * n) 64) 2 1) 0 ||
    (let v := viewRec (hostRead s (view + 64 * n) 64)
     !v.memberOf || (!fenced.contains v.adderGate && v.rootGates.all (fun g => !fenced.contains g)))))

/-- Every check on the body of one record. -/
def recordOk (s : State) (rs : Recs) (ty : Nat) (b : Bytes) : Bool :=
  match ty with
  | 0x01 => blockRecOk b
  | 0x02 => decide (b.length = 304) && allZero b 300 4
  | 0x03 => coresRecOk rs b
  | 0x04 => sliversRecOk rs b
  | 0x05 => decide (b.length = 16) && allZero b 12 4
  | 0x06 => decide (b.length = 8 ∧ numAt b 0 2 < 2048) && allZero b 2 6
  | 0x07 => decide (b.length = 320) && ((entries 20 b).map qclassOf).all qclassOk
  | 0x08 => rollRecOk s rs b
  | 0x09 => exchangeRecOk b
  | 0x0A => stallGatesOk s rs b
  | 0x0B => wellsRecOk b
  | 0x0C => mapRecOk rs b
  | 0x0D => decide (b.length = 24 ∧ numAt b 0 4 < 2 ^ 24 ∧ 2 ≤ numAt b 20 1 ∧ numAt b 20 1 ≤ 16) && allZero b 21 3
  | 0x0E => decide (b.length = 32)
  | 0x0F => decide (b.length = 16) && allZero b 12 4
  | _ => true

def knownType (ty : Nat) : Bool := decide (1 ≤ ty ∧ ty ≤ 0x0F)
def requiredTypes : List Nat := [0x01, 0x03, 0x05, 0x06, 0x07, 0x08, 0x09, 0x0B, 0x0C, 0x0D, 0x0E, 0x0F]
def maxOfType (ty : Nat) : Nat := if ty = 0x04 ∨ ty = 0x0C then 8 else 1

/-- The reason why record i fails, if it does (R578). -/
def recordReason (s : State) (rs : Recs) (i : Nat) (r : Nat × Nat × Bytes) : Option Nat :=
  let before := (rs.take i).filter (fun x => x.1 == r.1)
  let mapOf := fun (b : Bytes) => numAt b 6 2
  if 1 < r.2.1 then some 9
  else if !knownType r.1 then (if bitOf r.2.1 0 ∨ (0x80 ≤ r.1 ∧ r.1 ≤ 0xFF) then none else some 6)
  else if maxOfType r.1 ≤ before.length then some 8
  else if r.1 = 0x04 && !r.2.2.isEmpty && before.any (fun x => !x.2.2.isEmpty && mapOf x.2.2 == mapOf r.2.2) then some 8
  else if recordOk s rs r.1 r.2.2 then none else some 9

/-- What the loader finds in a stream: none when it is accepted, else the reason and the record (R578, Table 16-10). -/
def charterReason (s : State) (b : Bytes) : Option (Nat × Nat) :=
  let n := numAt b 6 2
  if b.length < 96 then some (3, 0)
  else if numAt b 0 4 ≠ 0x4C585242 ∨ numAt b 4 2 ≠ 1 then some (1, 0)
  else if numAt b 12 4 ≠ b.length ∨ 2 ^ 24 < b.length then some (3, 0)
  else if numAt b 8 4 ≠ 0x00030001 then some (2, 0)
  else if sha256 (b.take (b.length - 32)) ≠ b.drop (b.length - 32) then some (4, 0)
  else if n = 0 || !allZero b 16 48 then some (9, 0)
  else
    let (rs, ok) := charterRecs n ((b.take (b.length - 32)).drop 64)
    match (rs.zipIdx.filterMap (fun r => (recordReason s rs r.2 r.1).map (fun x => (x, r.2)))).head? with
    | some e => some e
    | none =>
      if !ok then some (3, rs.length)
      else if requiredTypes.any (fun t => !rs.any (fun r => r.1 == t)) ∨ !(bodies rs 0x0C).any (fun m => numAt m 0 1 == 0) then
        some (7, rs.length)
      else none

/-! ### Acceptance (R579) -/

/-- The charter of an accepted stream. -/
def charterOf (b : Bytes) : Charter :=
  let rs := (charterRecs (numAt b 6 2) ((b.take (b.length - 32)).drop 64)).1
  let blk := body rs 1
  let ex := body rs 9
  let bk := body rs 0x0D
  let rl := body rs 8
  let cores := (entries 4 (body rs 3)).map leNat
  let w32 := fun (bs : Bytes) => (entries 4 bs).map (fun e => BitVec.ofNat 32 (leNat e))
  let wl := entries 16 ((body rs 0x0B).take 512)
  { member := field (numAt blk 0 4) 17 0, nodeSize := field (numAt blk 0 4) 22 18, ctxBase := numAt blk 8 8,
    curfewGroup := numAt blk 4 4, wellGroups := numAt blk 16 4, fencedCores := fenceCores rs, fencedGates := fenceGates rs,
    roles := cores.zipIdx.map (fun e =>
      ⟨if field e.1 6 0 = 0x7F then e.2 / 24 else field e.1 6 0, field e.1 15 8, field e.1 31 16⟩),
    slivers := (bodies rs 4).flatMap (fun b => (entries 16 b).map sliverOf),
    carve := (entries 2 ((body rs 5).take 12)).map leNat, formats := numAt (body rs 6) 0 2,
    qclasses := (entries 20 (body rs 7)).map qclassOf, rollDir := numAt rl 0 8, rollView := numAt rl 8 8,
    mktRoute := numAt rl 16 8, mktCtx := numAt (body rs 0x0A) 0 8, market := rs.any (fun r => r.1 == 0x0A), deadline := numAt ex 0 4, quorum := numAt ex 4 4,
    sampleLog2 := numAt ex 8 4, sampleSeed := BitVec.ofNat 64 (numAt ex 16 8), gran := w32 (slice ex 24 384),
    ranges := w32 (slice ex 408 64), rangeMap := slice ex 472 4096, parkBase := wl.map (fun e => numAt e 0 8),
    parkSlots := wl.map (fun e => numAt e 8 4), almScratch := numAt (body rs 0x0B) 512 8,
    maps := (bodies rs 0x0C).map phaseMapOf, jedec := numAt bk 0 4, density := numAt bk 4 4, serial := numAt bk 8 8,
    rated := numAt bk 16 4, divider := numAt bk 20 1, almKey := body rs 0x0E, links := bitList (body rs 0x0F) 96,
    digest := b.drop (b.length - 32) }

/-- What a link does when the enable bits of a new charter apply (R579, R595). -/
def relink (c : Charter) (s : State) (g : Nat) : State :=
  let on := c.links.contains g && !c.fencedGates.contains g
  let k := getGate s g
  if !on then
    let s := if k.state = 1 ∨ k.state = 2 then disableLink g s else s
    modGate g (fun k => { k with enable := false, state := 0 }) s
  else
    let s := modGate g (fun k => { k with enable := true, state := if k.state = 4 then 0 else k.state }) s
    if mayTrain s g then startTraining g s else s

/-- Before stage 5 a new charter starts no link: failed links return to state 0, and those that it fences or leaves disabled stay
there (R569, R595). -/
def holdLink (c : Charter) (s : State) (g : Nat) : State :=
  if c.links.contains g && !c.fencedGates.contains g then modGate g (fun k => { k with state := if k.state = 4 then 0 else k.state }) s
  else relink c s g

/-- Permanent statuses become clean (R528, R579), each with its status record (R529). -/
def clearPermanent (s : State) : State :=
  ((s.units.filter (fun e => e.2.status == 3)).map (·.1)).foldl (fun s u => setStatus u 0 0 s) s

/-- An accepted charter applies whole (R459, R579); before stage 5 the links wait for that stage (R569). -/
def applyCharter (c : Charter) (s : State) : State :=
  let m := c.maps.find? (fun m => m.number == 0)
  let first := decide (s.boot.stage < 5)
  let s := { s with
    charter := some c
    roll := { s.roll with loaded := false, groups := [], route := [], hmax := [], confirming := [] }
    waves := s.waves.filter (fun w => w.name.purpose != 2)
    cores := s.cores.foldl (fun t e => tset {} t e.1 (stopCore e.2)) []
    step := { s.step with progDigest := zeros 32, digest := zeros 32, firstStep := none }
    units := s.units.foldl (fun t e => tset {} t e.1 { e.2 with lastAgree := none }) []
    forge := { s.forge with map := 0, phase := 0, expect := BitVec.ofNat 32 ((m.map normExpect).getD 0) }
    alm := { s.alm with tests := [], installed := false, pkg := 0, serial := 0, highest := 0 }
    boot := { s.boot with loadState := 3, reason := 0, record := 0, stage := if s.boot.stage = 2 then 3 else s.boot.stage } }
  let s := readContexts false (clearPermanent s)
  (List.range numGates).foldl (if first then holdLink c else relink c) s

/-! ### The load itself -/

/-- R575: whether the block is idle for a charter load. -/
def idleForCharter (s : State) : Bool :=
  s.cores.all (fun e => decide (e.2.state ≠ 1) && !e.2.saving) && !anyOpOpen s &&
  s.mkt.ctx.all (fun e => decide (e.2.state = 0)) && forgesIdle s && s.step.jobs.isEmpty && !s.step.tallyBusy &&
  s.alm.run.isNone && s.cmd.fifo.isEmpty

def loadRejected (reason record : Nat) (s : State) : State :=
  { s with boot := { s.boot with loadState := 4, reason := reason, record := record, buf := [] } }

/-- R574: an image of at most 1 MiB whose last 64 bytes sign what precedes them. -/
def firmwareCheck (b : Bytes) (s : State) : State :=
  if s.boot.stage ≠ 1 then loadRejected 10 0 s
  else if 2 ^ 20 < b.length then loadRejected 3 0 s
  else if !ed25519Verify Config.romKey (b.take (b.length - 64)) (b.drop (b.length - 64)) then loadRejected 5 0 s
  else { s with boot := { s.boot with loadState := 3, reason := 0, record := 0, buf := [], fwVersion := 0x0203, stage := 2 } }

/-- R575, R576: a charter is accepted whole or not at all. -/
def charterCheck (b : Bytes) (s : State) : State :=
  if s.boot.stage < 2 || !idleForCharter s then loadRejected 10 0 s
  else match charterReason s b with
    | some (r, i) => loadRejected r i s
    | none => applyCharter (charterOf b) { s with boot := { s.boot with buf := [] } }

def loadCheck (b : Bytes) (s : State) : State := if s.boot.target then charterCheck b s else firmwareCheck b s

/-- BLK_LOAD_CTL.go (R573): a stream load waits for its words; a load through the wells reads BLK_LOAD_LEN bytes. -/
def loadStarts (target : Bool) (src : LoadSource) (rd : ReadEnd) (s : State) : State :=
  let s := { s with boot := { s.boot with target := target, source := decide (src = .well0), buf := [] } }
  if target && (decide (s.boot.stage < 2) || !idleForCharter s) || !target && decide (s.boot.stage ≠ 1) then loadRejected 10 0 s
  else match src with
  | .stream => if s.boot.len = 0 then loadCheck [] s
      else { s with boot := { s.boot with loadState := 1, reason := 0, record := 0 } }
  | .well0 =>
    let s := readsEnd rd s
    if rd = .ok then loadCheck (hostRead s s.boot.base.toNat s.boot.len) s else loadRejected 12 0 s

/-- FIRMWARE_LOAD (R573, R574). -/
def execFirmwareLoad (src : LoadSource) (rd : ReadEnd) (s : State) : Res := act s (loadStarts false src rd)

/-- CHARTER_LOAD (R573, R575 to R579). -/
def execCharterLoad (src : LoadSource) (rd : ReadEnd) (s : State) : Res := act s (loadStarts true src rd)

/-- LOAD_ABORT (R573): ends the load in progress with reason 11. -/
def execLoadAbort (s : State) : Res :=
  act s (fun s => if s.boot.loadState = 1 ∨ s.boot.loadState = 2 then loadRejected 11 0 s else s)

/-- LOAD_DATA (R573): 4 more bytes of a stream load, checked when BLK_LOAD_LEN bytes have arrived. -/
def loadData (v : U32) (s : State) : State :=
  if s.boot.loadState ≠ 1 then s
  else
    let b := s.boot.buf ++ natLe 4 v.toNat
    if b.length < s.boot.len then { s with boot := { s.boot with buf := b } } else loadCheck (b.take s.boot.len) s

def execLoadData (v : U32) (s : State) : Res := act s (loadData v)

/-! ### The parish book at start-up (R536, R539) -/

/-- The book header names this charter's book (R536, Table 15-7). -/
def bookHeaderOk (s : State) (c : Charter) : Bool :=
  let h := flashRead s 0 64
  decide (numAt h 0 4 = 0x4B4F4F42 ∧ numAt h 4 2 = 1 ∧ numAt h 8 8 = c.serial) && crcGood h

def sectorOk (s : State) (k : Nat) : Bool :=
  let h := flashRead s (k * 4096) 64
  decide (numAt h 0 4 = 0x43455350) && crcGood h

def slotEmpty (r : Bytes) : Bool := r.all (· == 0xFF)

/-- R539: bad slots, erase counts, the newest sector and the write position. -/
def scanRing (s : State) : State :=
  let ks := (List.range (bookSectors s)).filter (fun k => decide (0 < k))
  let good := ks.filter (sectorOk s)
  let lapOf := fun (k : Nat) => numAt (flashRead s (k * 4096) 64) 4 4
  let ecOf := fun (k : Nat) => numAt (flashRead s (k * 4096) 64) 8 4
  let big := good.foldl (fun a k => max a (ecOf k)) 0
  let erased := fun (k : Nat) => slotEmpty (flashRead s (k * 4096) 64)
  let ecs := ks.foldl (fun t k => tset 0 t k (if good.contains k then ecOf k else if erased k then 0 else big)) []
  let newest := good.foldl (fun b k => if b = 0 ∨ lapOf b < lapOf k then k else b) 0
  let slotOf := fun (k i : Nat) => flashRead s (k * 4096 + 64 * i) 64
  let bad := good.foldl (fun n k => n + (List.range 63).countP (fun i =>
    let r := slotOf k (i + 1); !slotEmpty r && !crcGood r)) 0
  let free := ((List.range 63).find? (fun i => slotEmpty (slotOf newest (i + 1)))).map (· + 1)
  { s with book := { s.book with
    sector := newest, slot := free.getD 64, lap := if newest = 0 then 0 else lapOf newest, erases := ecs,
    bad := BitVec.ofNat 32 bad } }

/-- Valid records of the book in ascending sequence number. -/
def bookRecords (s : State) : List Bytes :=
  let all := ((List.range (bookSectors s)).filter (fun k => decide (0 < k) && sectorOk s k)).flatMap (fun k =>
    (List.range 63).map (fun i => flashRead s (k * 4096 + 64 * (i + 1)) 64))
  sortBy (fun r => numAt r 40 4) (all.filter crcGood)

/-- What the book and the records held in steward memory tell of the units (R527): faults inside the window and the last status;
the charter load has cleared what was permanent before it (R528). -/
def readHistory (s : State) : State :=
  let was := s.units
  let rs := (if s.book.unusable then [] else bookRecords s) ++ s.aon.held.filter crcGood
  let s := rs.foldl (fun s r =>
    let u := numAt r 4 2
    if numAt r 0 1 = 1 then
      if inWindow s (numAt r 16 8) then
        modUnit u (fun k => { k with faults := k.faults ++
          (if k.faults.contains (numAt r 16 8, numAt r 2 1) then [] else [(numAt r 16 8, numAt r 2 1)]) }) s else s
    else if numAt r 0 1 = 2 then modUnit u (fun k => { k with status := numAt r 2 1 % 4 }) s
    else s) s
  let us := s.units.foldl (fun t e => tset {} t e.1
    (if (tget {} was e.1).status = 3 then { e.2 with status := 3 }
      else if e.2.status = 3 ∨ e.2.faults.isEmpty then { e.2 with status := 0 } else e.2)) []
  let big := rs.foldl (fun n r => max n (numAt r 40 4)) s.book.seq.toNat
  { s with units := us, book := { s.book with seq := BitVec.ofNat 32 big } }

/-- Records kept in steward memory go into a book that can be written (R553). -/
def flushHeld (s : State) : State :=
  let old := s.aon.held
  old.foldl (fun s r => bookWrite r s) { s with aon := { s.aon with held := [] } }

/-- BOOK_SCAN (R536, R539): in stage 3 the book is bound, found read-only or unusable, and scanned. -/
def bookScan (f : FlashId) (s : State) : State :=
  match s.charter with
  | none => s
  | some c =>
    if s.boot.stage ≠ 3 then s
    else
      let s := { s with boot := { s.boot with stage := 4 },
                        book := { s.book with flashId := some f } }
      if !f.sfdp || !f.erase4k then
        raise 0x1A 1 uSteward 0 0 (readHistory { s with book := { s.book with unusable := true } })
      else
        let same := decide (f.jedec = c.jedec ∧ f.density = c.density) && bookHeaderOk s c
        let s := readHistory (scanRing { s with book := { s.book with bound := same, readonly := !same } })
        let s := bookWatch s (bookWear s)
        if same then bookWatch s (flushHeld s) else raise 0x1A 0 uSteward 0 0 s

def execBookScan (flash : FlashId) (s : State) : Res := act s (bookScan flash)

/-! ### The baseline test (R569, R572) -/

/-- Units that the ROM almanac tests: every core, gate and present well that is not fenced. -/
def baselineUnit (s : State) (u : Nat) : Bool :=
  (decide (u < numCores) && !fencedCore s u) ||
  (decide (0x1000 ≤ u ∧ u < 0x1000 + numGates) && !fencedGate s (u - 0x1000)) ||
  (decide (0x2000 ≤ u ∧ u < 0x2000 + numWells) && wellPresent s (u - 0x2000))

/-- BASELINE_TEST (R569, R572): each failing unit has an almanac fault; stage 5 begins and the links are enabled. -/
def baselineTest (fails : List Nat) (s : State) : State :=
  match s.charter with
  | none => s
  | some c =>
    if s.boot.stage ≠ 4 then s
    else
      let s := (fails.filter (baselineUnit s)).foldl (fun s u => raise 0x18 0 u 0 0 s) s
      (List.range numGates).foldl (relink c) { s with boot := { s.boot with stage := 5 } }

def execBaselineTest (fails : List Nat) (s : State) : Res := act s (baselineTest fails)

end Sys2Proof.Machine
end

