-- ==== Sys2Proof/Machine/Operands.lean ====
section
/-! DEFINITION. The operand forms of a core's engines: operand descriptors, the checks that issue makes of them, and reading
and writing elements through them (13 R475, R476). -/

namespace Sys2Proof.Machine

structure Desc where
  base : Nat
  fmt : Nat
  gsz : Nat
  kind : Nat
  count : Nat
  rows : Nat
  rowStride : Nat
  elemStride : Nat
  aux : Nat
  reserved : Bool
deriving DecidableEq, Repr

def descOf (d : BitVec 128) : Desc :=
  let v := d.toNat
  { base := field v 15 0, fmt := field v 19 16, gsz := field v 21 20, kind := field v 31 24, count := field v 49 32,
    rows := field v 79 64 + 1, rowStride := field v 95 80, elemStride := field v 111 96, aux := field v 127 112,
    reserved := decide (field v 23 22 ≠ 0 ∨ field v 63 50 ≠ 0) }

def Desc.elems (d : Desc) : Nat := d.count * d.rows
def Desc.format (d : Desc) : Fmt := (Fmt.ofCode d.fmt).getD .fp32
def Desc.width (d : Desc) : Nat := d.format.width

/-- Bytes of one row. -/
def Desc.rowBytes (d : Desc) : Nat :=
  if d.elemStride = 0 then (d.count * d.width + 7) / 8 else (d.count - 1) * d.elemStride + d.width / 8

/-- First byte, and bit within it, of element i of row r. -/
def Desc.elemAt (d : Desc) (r i : Nat) : Nat × Nat :=
  let row := d.base + r * d.rowStride
  if d.elemStride = 0 then (row + i * d.width / 8, i * d.width % 8) else (row + i * d.elemStride, 0)

/-- Byte ranges of the rows. -/
def Desc.ranges (d : Desc) : List (Nat × Nat) := (List.range d.rows).map (fun r => (d.base + r * d.rowStride, d.rowBytes))

def Desc.lastByte (d : Desc) : Nat :=
  max (d.base + (d.rows - 1) * d.rowStride + d.rowBytes - 1) (if d.kind = 0 then 0 else d.aux + 4095)

/-- Whether the charter enables a format (Table 16-9, FORMATS). -/
def formatOn (s : State) (f : Nat) : Bool := decide (f ≤ 0xA) && bitOf ((s.charter.map (·.formats)).getD 0) f

/-- The halt codes that a descriptor gives at issue (R476). -/
def descFaults (s : State) (d : Desc) : List Nat :=
  (if 0xFFFF < d.lastByte then [0x03] else []) ++
  (if (d.elemStride ≠ 0 ∧ (d.width < 8 ∨ d.elemStride * 8 < d.width)) ∨ (1 < d.rows ∧ d.rowStride < d.rowBytes) ∨
      d.count = 0 ∨ 131072 < d.count ∨ d.reserved ∨
      (d.kind ≠ 0 ∧ (!([0x02, 0x03, 0x04, 0x06].contains d.kind) ∨ !(kindFormats d.kind).contains d.fmt)) then [0x04] else []) ++
  (if formatOn s d.fmt then [] else [0x09])

/-- The raw bits of element i of row r. -/
def Desc.raw (d : Desc) (k : Core) (r i : Nat) : Nat :=
  let (a, b) := d.elemAt r i
  leNat (scrRead k a ((b + d.width + 7) / 8)) / 2 ^ b % 2 ^ d.width

def Desc.badAt (d : Desc) (k : Core) (r i : Nat) : Bool :=
  let (a, b) := d.elemAt r i
  scrBad k a ((b + d.width + 7) / 8)

/-- Write the raw bits of element i of row r, leaving the other bits of its bytes. -/
def Desc.put (d : Desc) (r i v : Nat) (bad : Bool) (k : Core) : Core :=
  let (a, b) := d.elemAt r i
  let n := (b + d.width + 7) / 8
  let old := leNat (scrRead k a n)
  let new := old % 2 ^ b + v % 2 ^ d.width * 2 ^ b + old / 2 ^ (b + d.width) * 2 ^ (b + d.width)
  scrWrite a (natLe n new) bad k

/-- All elements in order: (row, index in the row). -/
def Desc.places (d : Desc) (n : Nat) : List (Nat × Nat) :=
  (List.range n).map (fun e => (e / max 1 d.count, e % max 1 d.count))

/-- Two lists of byte ranges share a byte. -/
def rangesMeet (xs ys : List (Nat × Nat)) : Bool :=
  xs.any (fun x => ys.any (fun y => decide (x.1 < y.1 + y.2 ∧ y.1 < x.1 + x.2)))

def getD (k : Core) (n : Nat) : BitVec 128 := tget 0 k.d (n % 16)

end Sys2Proof.Machine
end

