-- ==== Sys2Proof/Machine/Sieve.lean ====
section
/-! DEFINITION. The sieve (04 R115 to R150): measures and keys, buckets, the first, refined and second pass, router gate
values, and merging. Everything here is a function of the row's values; the vector engine and the market feed it. -/

namespace Sys2Proof.Machine

/-! ### Parameters (R119 to R121, Table 04-2) -/

structure SieveCtl where
  k : Nat
  base : Nat
  m : F32
  measure : Nat
  router : Bool
  refined : Bool
  renorm : Bool
  maskAt : Nat
  stateAt : Nat
  outAt : Nat
  clean : Bool
deriving DecidableEq, Repr

/-- A control block as read; `clean` when its reserved bits and bytes are zero. -/
def sieveCtlOf (b : Bytes) : SieveCtl :=
  let f := numAt b 13 1
  { k := numAt b 0 4, base := numAt b 4 4, m := BitVec.ofNat 32 (numAt b 8 4), measure := numAt b 12 1, router := bitOf f 0,
    refined := bitOf f 1, renorm := bitOf f 2, maskAt := numAt b 14 2, stateAt := numAt b 16 2, outAt := numAt b 18 2,
    clean := decide (f < 8) && allZero b 20 12 }

/-- R121, the placement of the areas apart; `n` is the row length. DESIGN CHOICE (log 148): a state or output address that is
not 64-byte aligned (Table 04-2) halts as R121's own causes do. -/
def SieveCtl.ok (p : SieveCtl) (n : Nat) : Bool :=
  decide (1 ≤ p.k ∧ p.k ≤ (if p.router then 8 else 4096) ∧ p.measure ≤ 3 ∧ p.base + n ≤ 0xFFFFFFFF) && p.clean &&
  (!p.renorm || (p.router && decide (p.measure = 3))) && decide (p.stateAt % 64 = 0 ∧ p.outAt % 64 = 0)

/-! ### Keys and measures (R115 to R118) -/

/-- The key by which an entry is ranked. -/
def SieveCtl.key (p : SieveCtl) (x : F32) : F32 :=
  if p.measure = 1 ∨ p.measure = 2 then f32Abs x else f32Exp (f32Sub x p.m)

/-- The measure of an entry, exact in XF. -/
def SieveCtl.mu (p : SieveCtl) (x : F32) : XF :=
  match p.measure with
  | 0 => xfOfF32 x
  | 1 => xfOfF32 (f32Abs x)
  | 2 => xfSquare x
  | _ => xfOfF32 (p.key x)

/-- Exponent and 23-bit fraction of a positive finite key, subnormals included. -/
def keyParts (key : F32) : Option (Int × Nat) :=
  match f32Dec key with
  | .fin _ m e => if m = 0 then none else some ((log2 m : Int) + e, m * 2 ^ (23 - log2 m) - 2 ^ 23)
  | _ => none

/-- The half-octave index of R117; none for zero. A key that is not finite has no index by the rule (log 27). -/
def halfOctave (key : F32) : Option Int :=
  if f32IsFinite key then (keyParts key).map (fun p => 2 * p.1 + (if 0x3504F4 ≤ p.2 then 1 else 0))
  else some (Config.oddKeyIndex key)

/-- The bucket of a key below a row's largest index (R118). -/
def bucketOf (hmax : Option Int) (key : F32) : Nat :=
  match halfOctave key, hmax with
  | some h, some m => min 63 (m - h).toNat
  | _, _ => 63

/-- The sub-bucket of a key (R132). -/
def subBucket (key : F32) : Nat :=
  let f := ((keyParts key).map (·.2)).getD 0
  if f < 0x3504F4 then 63 - f / 54292 else 63 - (f - 0x3504F4) / 76781

/-- A row: the tapped values, each with its mask bit. -/
abbrev SieveRow := List (F32 × Bool)

/-- A valid entry (R124, R125). -/
def SieveCtl.valid (p : SieveCtl) (e : F32 × Bool) : Bool := if p.router then !e.2 else f32IsFinite e.1 && !f32IsZero e.1

/-- R127. -/
def SieveCtl.nonfinite (p : SieveCtl) (r : SieveRow) : Bool := r.any (fun e => !(p.router && e.2) && !f32IsFinite e.1)
def SieveCtl.badmax (p : SieveCtl) (r : SieveRow) : Bool :=
  decide (p.measure = 0 ∨ p.measure = 3) && r.any (fun e => p.valid e && f32Lt p.m e.1)

/-- The largest index of a list of keys. -/
def topIndex (keys : List F32) : Option Int :=
  keys.foldl (fun m k => match halfOctave k, m with
    | some h, some x => some (max h x)
    | some h, none => some h
    | none, m => m) none

/-- 64 counters over bucket numbers. -/
def histogram (bs : List Nat) : List Nat := (List.range 64).map (fun b => bs.countP (· == b))

/-- The threshold, the count above it, and how many to take from it (R129). -/
def threshold (hist : List Nat) (k : Nat) : Nat × Nat × Nat :=
  let r := hist.zipIdx.foldl (fun (a : Nat × Nat) h =>
    if a.1 < 64 then a else if k ≤ a.2 + h.1 then (h.2, a.2) else (64, a.2 + h.1)) (64, 0)
  (r.1, r.2, if r.1 < 64 then k - r.2 else 0)

/-! ### The state block (R130, Table 04-3) -/

structure SieveSt where
  total : XF
  count : Nat
  valid : Nat
  hmax : Option Int
  flags : Nat
  tb : Nat
  ts : Nat
  take : Nat
  above : Nat
deriving DecidableEq, Repr

def hmaxBytes (h : Option Int) : Bytes := natLe 4 (match h with | none => 2 ^ 31 | some v => unsignedOf 32 v)

def SieveSt.bytes (t : SieveSt) : Bytes :=
  xfBytes t.total ++ natLe 4 t.count ++ natLe 4 t.valid ++ hmaxBytes t.hmax ++ natLe 4 t.flags ++ natLe 1 t.tb ++
    natLe 1 t.ts ++ natLe 2 t.take ++ natLe 4 t.above ++ zeros 24

def sieveStOf (b : Bytes) : SieveSt :=
  { total := xfOfBytes (slice b 0 80), count := numAt b 80 4, valid := numAt b 84 4,
    hmax := if numAt b 88 4 = 2 ^ 31 then none else some (signed 32 (numAt b 88 4)), flags := numAt b 92 4,
    tb := numAt b 96 1, ts := numAt b 97 1, take := numAt b 98 2, above := numAt b 100 4 }

/-- A flagged row selects nothing (R127). -/
def SieveSt.flagged (t : SieveSt) : Bool := bitOf t.flags sfNonfinite || bitOf t.flags sfBadmax

/-- The marker that a value that is not finite adds to T (R142, R58): that of its measure, or of the value itself where the
measure of R115 is finite (log 80). -/
def SieveCtl.marker (p : SieveCtl) (x : F32) : XF := if xfIsMarker (p.mu x) then p.mu x else xfOfF32 x

/-- T (R130, R142): the measures of the valid entries, with a marker for every unmasked entry that is not finite. -/
def SieveCtl.totalOf (p : SieveCtl) (r : SieveRow) : XF :=
  (xfSum (r.filterMap (fun e =>
    if !(p.router && e.2) && !f32IsFinite e.1 then some (p.marker e.1)
    else if p.valid e then some (p.mu e.1) else none))).1

/-- The first pass (R126 to R130). -/
def SieveCtl.first (p : SieveCtl) (r : SieveRow) : SieveSt :=
  let vs := (r.filter p.valid).map (·.1)
  let keys := vs.map p.key
  let hmax := topIndex keys
  let t := threshold (histogram (keys.map (bucketOf hmax))) p.k
  { total := p.totalOf r, count := r.length, valid := vs.length, hmax := hmax,
    flags := 2 * b2n (p.nonfinite r) + 4 * b2n (p.badmax r), tb := t.1, ts := 0xFF, take := t.2.2, above := t.2.1 }

/-- Whether a refined pass has something to do: the mode's refined bit set, tb from 0 to 62 and the row not flagged (R131,
R133). -/
def SieveCtl.refines (p : SieveCtl) (t : SieveSt) : Bool := p.refined && !t.flagged && decide (t.tb < 63)

/-- The refined pass (R131 to R133). -/
def SieveCtl.refine (p : SieveCtl) (t : SieveSt) (r : SieveRow) : SieveSt :=
  if !p.refines t then t
  else
    let keys := ((r.filter p.valid).map (fun e => p.key e.1)).filter (fun k => bucketOf t.hmax k == t.tb)
    let q := threshold (histogram (keys.map subBucket)) t.take
    { t with ts := q.1, take := q.2.2, above := t.above + q.2.1, flags := setBit t.flags sfRefined }

/-! ### The second pass (R134 to R142, R146) -/

structure SieveRec where
  s : XF
  l : XF
  t : XF
  n : Nat
  valid : Nat
  flags : Nat
  hmax : Option Int
  tb : Nat
  ts : Nat
  take : Nat
  entries : List (Nat × F32)
deriving DecidableEq, Repr

/-- Place of an entry in the selection order: bucket, and sub-bucket inside the threshold bucket after refinement. -/
def SieveSt.place (t : SieveSt) (key : F32) : Nat :=
  let b := bucketOf t.hmax key
  64 * b + (if b = t.tb ∧ bitOf t.flags sfRefined then subBucket key else 0)

/-- The cell at which the count reaches k. -/
def SieveSt.cut (t : SieveSt) : Nat := 64 * t.tb + (if bitOf t.flags sfRefined then t.ts else 0)

/-- Keep what lies below the cut, and the first `n` entries at it; the rest apart. -/
def splitAtCut (cut : Nat) : Nat → List (Nat × α) → List (Nat × α) × List (Nat × α)
  | _, [] => ([], [])
  | n, (b, x) :: xs =>
    if b < cut then let r := splitAtCut cut n xs; ((b, x) :: r.1, r.2)
    else if b = cut ∧ 0 < n then let r := splitAtCut cut (n - 1) xs; ((b, x) :: r.1, r.2)
    else let r := splitAtCut cut n xs; (r.1, (b, x) :: r.2)

/-- The gate value of a key (R146). -/
def SieveCtl.gate (p : SieveCtl) (s t : XF) (key : F32) : F32 := f32Div key (xfToF32 (if p.renorm then s else t))

/-- The second pass over a row. -/
def SieveCtl.second (p : SieveCtl) (t : SieveSt) (r : SieveRow) : SieveRec :=
  if t.flagged then
    { s := 0, l := t.total, t := t.total, n := 0, valid := t.valid, flags := t.flags, hmax := t.hmax, tb := t.tb,
      ts := t.ts, take := t.take, entries := [] }
  else
    let es := (r.zipIdx.filter (fun e => p.valid e.1)).map (fun e => (t.place (p.key e.1.1), (e.1.1, p.base + e.2)))
    let q := splitAtCut t.cut t.take es
    let taken := (sortBy (·.1) q.1).map (·.2)
    let s := (xfSum (taken.map (fun e => p.mu e.1))).1
    let l := (xfSum (q.2.map (fun e => p.mu e.2.1))).1
    let good := decide ((xfAdd s l).1 = t.total ∧ taken.length + q.2.length = t.valid ∧ r.length = t.count)
    let f := if taken.length < p.k then setBit t.flags sfShort else t.flags
    let f := if t.tb < 64 && decide (t.take < es.countP (fun e => e.1 == t.cut)) then setBit f sfCut else f
    { s := s, l := l, t := t.total, n := taken.length, valid := t.valid,
      flags := if good then f else setBit f sfConserve, hmax := t.hmax, tb := t.tb, ts := t.ts, take := t.take,
      entries := taken.map (fun e => (e.2, if p.router && decide (p.measure = 3) then p.gate s t.total (p.key e.1) else e.1)) }

/-- A result record (Table 04-5). -/
def SieveRec.bytes (r : SieveRec) (k base core lists : Nat) : Bytes :=
  xfBytes r.s ++ xfBytes r.l ++ xfBytes r.t ++ natLe 4 r.n ++ natLe 4 k ++ natLe 4 r.valid ++ natLe 4 r.flags ++
    hmaxBytes r.hmax ++ natLe 1 r.tb ++ natLe 1 r.ts ++ natLe 2 r.take ++ natLe 4 base ++ natLe 2 core ++ natLe 2 lists ++
    zeros 48 ++ (fit (0xFFFFFFFF, 0) k r.entries).flatMap (fun e => natLe 4 e.1 ++ natLe 4 e.2.toNat)

/-! ### Merging (R147 to R150) -/

/-- Used entries of a result record. -/
def recEntries (b : Bytes) : List (Nat × F32) :=
  ((List.range (numAt b 244 4)).map (fun j => (numAt b (320 + 8 * j) 4, BitVec.ofNat 32 (numAt b (324 + 8 * j) 4)))).filter
    (fun e => e.1 ≠ 0xFFFFFFFF)

/-- One entry joins the merged list; the flag says that its index was there. -/
def mergeEntry (acc : List (Nat × XF) × Bool) (e : Nat × F32) : List (Nat × XF) × Bool :=
  if acc.1.any (fun p => p.1 == e.1) then
    (mapWhere (fun p => p.1 == e.1) (fun p => (p.1, (xfAdd p.2 (xfOfF32 e.2)).1)) acc.1, true)
  else (acc.1 ++ [(e.1, xfOfF32 e.2)], acc.2)

/-- Whether the entries at the cut survive: ties are taken in ascending index order. -/
def survivors (hmax : Option Int) (tb take : Nat) (out : List (Nat × F32)) : List (Nat × F32) :=
  let b := fun (e : Nat × F32) => bucketOf hmax (f32Abs e.2)
  let ties := ((sortBy (·.1) (out.filter (fun e => b e == tb))).take take).map (·.1)
  out.filter (fun e => decide (b e < tb) || ties.contains e.1)

/-- Whether the records may be merged (R147): 2 to 8 records of gradient mode that share measure 1 or 2, from cores in
strictly ascending order, into 1 to 4,096 slots. -/
def mergeOk (ins : List MergeIn) (k : Nat) (recs : List Bytes) : Bool :=
  decide (2 ≤ recs.length ∧ recs.length ≤ 8 ∧ 1 ≤ k ∧ k ≤ 4096) &&
  (ins.all (fun i => !i.router && decide (i.measure = 1)) || ins.all (fun i => !i.router && decide (i.measure = 2))) &&
  (List.range (recs.length - 1)).all (fun i => decide (numAt (recs.getD i []) 268 2 < numAt (recs.getD (i + 1) []) 268 2))

/-- The merged record of a list of records, and whether some input fails S + L = T (R148 to R150; log 28 for the fields that
no rule gives a merged record). -/
def mergeRecs (measure k : Nat) (recs : List Bytes) : Bytes × Bool :=
  let p : SieveCtl := { k := k, base := 0, m := 0, measure := measure, router := false, refined := false, renorm := false,
                        maskAt := 0, stateAt := 0, outAt := 0, clean := true }
  let xf := fun (b : Bytes) (o : Nat) => xfOfBytes (slice b o 80)
  let bad := recs.any (fun b => decide ((xfAdd (xf b 0) (xf b 80)).1 ≠ xf b 160))
  let m := (recs.flatMap recEntries).foldl mergeEntry ([], false)
  let out := m.1.map (fun e => (e.1, xfToF32 e.2))
  let hmax := topIndex (out.map (fun e => f32Abs e.2))
  let t := threshold (histogram (out.map (fun e => bucketOf hmax (f32Abs e.2)))) k
  let crowded := decide (k < out.length)
  let kept := if crowded then survivors hmax t.1 t.2.2 out else out
  let s := (xfSum (kept.map (fun e => p.mu e.2))).1
  let total := (xfSum (recs.map (fun b => xf b 160))).1
  let cut := crowded && decide (t.2.2 < out.countP (fun e => bucketOf hmax (f32Abs e.2) == t.1))
  let flags := b2n (decide (kept.length < k)) + 8 * b2n bad + 32 * b2n cut + 64 + 128 * b2n m.2
  let h := Config.mergedHeader recs
  let r : SieveRec :=
    { s := s, l := (xfAdd total (xfNeg s)).1, t := total, n := kept.length, valid := h.1, flags := flags, hmax := hmax,
      tb := t.1, ts := 0xFF, take := t.2.2, entries := kept }
  (r.bytes k h.2 (numAt (recs.headD []) 268 2) ((recs.map (fun b => numAt b 270 2)).foldl (· + ·) 0), bad)

end Sys2Proof.Machine
end

