-- ==== Sys2Proof/Machine/Chain.lean ====
section
/-! DEFINITION. Chain records of the vector engine (13 R477, Table 13-7): the stages, what a record must satisfy, and the
places a pass writes beside its streams. -/

namespace Sys2Proof.Machine

/-! ### Chain records (Table 13-7, R477) -/

structure Stage where
  op : Nat
  a : Nat
  b : Nat
  c : Nat
  mode : Nat
deriving DecidableEq, Repr

structure Chain where
  recAt : Nat
  ctlAt : Nat
  binds : List Nat
  out : List Nat
  stages : List Stage
  clean : Bool
deriving DecidableEq, Repr

def chainOf (b : Bytes) : Chain :=
  let n := numAt b 0 1
  { recAt := numAt b 2 2, ctlAt := numAt b 4 2, binds := (slice b 6 5).map (·.toNat), out := (slice b 11 2).map (·.toNat),
    stages := (List.range (min n 8)).map (fun j =>
      let o := 16 + 6 * j
      ⟨numAt b o 1, numAt b (o + 1) 1, numAt b (o + 2) 1, numAt b (o + 3) 1, numAt b (o + 4) 1⟩)
    clean := decide (1 ≤ n ∧ n ≤ 8) && allZero b 1 1 && allZero b 13 3 &&
      (List.range (min n 8)).all (fun j => allZero b (21 + 6 * j) 1) }

/-- How many of its operands a stage uses. -/
def stageArity (op : Nat) : Nat :=
  if op = 0x04 ∨ op = 0x12 ∨ op = 0x13 then 3
  else if (1 ≤ op ∧ op ≤ 3) ∨ op = 5 ∨ op = 6 ∨ op = 0x11 then 2 else 1

/-- Whether an operand byte of stage j names something that is there. -/
def operandOk (ch : Chain) (j o : Nat) : Bool :=
  if o ≤ 2 then decide (ch.binds.getD o 0xFF ≠ 0xFF)
  else (decide (8 ≤ o) && decide (o < 8 + j)) || (decide (0x20 ≤ o) && decide (o < 0x60)) || decide (o = 0xFF)

/-- The mode byte that a stage may carry. -/
def modeOk (op mode : Nat) : Bool :=
  if op = 0x0E then [1, 2, 3, 4, 5, 6, 7, 8].contains mode
  else if op = 0x0F then [3, 4, 5, 6, 7, 8].contains mode
  else if op = 0x10 then decide (mode = 1 ∨ mode = 2)
  else if op = 0x15 then decide (mode < 64)
  else decide (mode = 0)

def stageOk (ch : Chain) (p : Stage × Nat) : Bool :=
  let (s, j) := p
  let os := [s.a, s.b, s.c]
  decide (s.op ≤ 0x15) && modeOk s.op s.mode && os.all (operandOk ch j) && (os.take (stageArity s.op)).all (· != 0xFF)

/-- R477. -/
def chainOk (ch : Chain) : Bool :=
  ch.clean && ch.binds.all (fun b => decide (b = 0 ∨ (0x80 ≤ b ∧ b < 0xA0) ∨ b = 0xFF)) &&
  ch.out.all (fun o => decide (o < ch.stages.length ∨ o = 0xFF)) && ch.stages.zipIdx.all (stageOk ch)

/-- Tap flags of a chain, all its tap stages together. -/
def tapFlag (ch : Chain) (bit : Nat) : Bool := ch.stages.any (fun s => decide (s.op = 0x15) && bitOf s.mode bit)
def hasStage (ch : Chain) (op : Nat) : Bool := ch.stages.any (fun s => s.op == op)
def sieveChain (ch : Chain) : Bool := tapFlag ch 0 || tapFlag ch 1 || tapFlag ch 2

/-- Whether a pass is a quantiser operation: it has a quant or cvt stage, and a control block that is not a sieve's (log 13). -/
def quantChain (ch : Chain) : Bool :=
  (hasStage ch 0x0F || hasStage ch 0x10) && decide (ch.ctlAt ≠ 0) && !sieveChain ch

/-- How many values a pass taps for each element. -/
def tapsOf (ch : Chain) : Nat := ch.stages.countP (fun s => s.op == 0x15)

/-- Areas of a sieve operation over a row of n entries. -/
def sieveAreas (c : SieveCtl) (n : Nat) : List (List (Nat × Nat)) :=
  [[(c.stateAt, 128)], [(c.outAt, 320 + 8 * c.k)], if c.router then [(c.maskAt, (n + 7) / 8)] else []]

/-- Group length of the group records of a tap pass whose first input is bound to a descriptor or to a register (log 33). -/
def tapGroup (ch : Chain) (in0 : Desc) : Nat := if ch.binds.getD 0 0xFF = 0 then groupSize in0.gsz else 32

/-- Bytes of the group records of a pass that taps n values. -/
def groupBytes (ch : Chain) (in0 : Desc) (n : Nat) : Nat :=
  if tapFlag ch 3 then 16 * ((n + tapGroup ch in0 - 1) / tapGroup ch in0) else 0

/-- What a pass of a row writes beside its output streams: group records, and at the row's end its record, the sieve's state
block or its result record; a quantiser operation writes its chunk record at the address its control block gives. Each area
as a byte range; `ctl` and `quantAt` are what the control block says. -/
def sideAreas (ch : Chain) (in0 : Desc) (vl : Nat) (stop : Bool) (ctl : SieveCtl) (quantAt : Nat) : List (List (Nat × Nat)) :=
  let g := groupBytes ch in0 (tapsOf ch * vl)
  let after := if g = 0 then ch.recAt else roundUp (ch.recAt + g) 64
  let record := [(after, 192 + (if tapFlag ch 4 || tapFlag ch 0 then 256 else 0))]
  (if g = 0 then [] else [[(ch.recAt, g)]]) ++
  (if !stop || tapsOf ch = 0 then []
   else if tapFlag ch 2 then [[(ctl.outAt, 320 + 8 * ctl.k)]]
   else if tapFlag ch 1 then [[(ctl.stateAt, 128)]]
   else if tapFlag ch 0 then [record, [(ctl.stateAt, 128)]]
   else [record]) ++
  (if quantChain ch then [[(quantAt, 192)]] else [])

end Sys2Proof.Machine
end

