-- ==== Sys2Proof/Machine/Issue.lean ====
section
/-! DEFINITION. The long word: fetch, checks and issue (13 R464 to R494), the scalar engine (R82, R469 to R474, R485 to R488),
the sync slot (R482 to R484), and the control of a core (R492 to R494). A scalar or sync row alone is that slot's effect, with
the next-word address standing at the word after it (log 22). -/

namespace Sys2Proof.Machine

/-! ### The scalar engine -/

def aluR (f : U32 → U32 → U32) (rd rs1 rs2 : Nat) (k : Core) : Core := setS rd (f (getS k rs1) (getS k rs2)) k

def shl32 (a b : U32) : U32 := a <<< (b.toNat % 32)
def shr32 (a b : U32) : U32 := a >>> (b.toNat % 32)
def sra32 (a b : U32) : U32 := a.sshiftRight (b.toNat % 32)
def slt32 (a b : U32) : U32 := if a.toInt < b.toInt then 1 else 0
def sltu32 (a b : U32) : U32 := if a.toNat < b.toNat then 1 else 0
def sext16 (i : U16) : U32 := i.signExtend 32
def zext16 (i : U16) : U32 := i.setWidth 32

/-- An operation of a register and an immediate. -/
def aluI (f : U32 → U32) (rd rs1 : Nat) (k : Core) : Core := setS rd (f (getS k rs1)) k

def progRead (k : Core) (a n : Nat) : Bytes := mread 0 k.prog a n

/-- Length of the word whose header stands at an address (R464). -/
def wordLen (k : Core) (a : Nat) : Nat :=
  let h := numAt (progRead k a 2) 0 2
  2 + 2 * b2n (bitOf h 6) + 4 * ((List.range 6).countP (fun i => bitOf h i))

def getLoop (k : Core) (l : Nat) : LoopReg := tget {} k.loops l

/-- Loop faults (R485): the level must be the number of loops open. -/
def loopFaults (k : Core) (level : Nat) : List Nat :=
  if level = k.sp then [] else if k.sp = 4 then [0x06] else [0x07]

/-- Open a loop whose body starts at the next word, or skip it when the count is zero (R485, R486). -/
def openLoop (level cnt e : Nat) (k : Core) : Core :=
  let b := k.pc
  let stop := b + 2 * e
  let n := (getS k cnt).toNat
  if n = 0 then { k with pc := stop + wordLen k stop }
  else { k with sp := level + 1, loops := tset {} k.loops level ⟨b, stop, n, 0⟩ }

/-- The target of a branch, from the next word (13 Table 13-4). -/
def brTarget (k : Core) (o : BitVec 13) : Int := (k.pc : Int) + 2 * o.toInt

/-- R488: inside the innermost open loop's body, or anywhere in the program. -/
def brFaults (k : Core) (o : BitVec 13) : List Nat :=
  let t := brTarget k o
  let l := getLoop k (k.sp - 1)
  if t < 0 ∨ (k.progLen : Int) ≤ t ∨ (0 < k.sp ∧ (t < l.start ∨ (l.stop : Int) < t)) then [0x0D] else []

def brTaken (rs : Nat) (sense : Bool) (k : Core) : Bool := decide (getS k rs = 0) != sense

def branch (rs : Nat) (sense : Bool) (o : BitVec 13) (k : Core) : Core :=
  if brTaken rs sense k then { k with pc := (brTarget k o).toNat } else k

/-- Write one quarter of a descriptor (R475). -/
def dput (d q rs : Nat) (k : Core) : Core :=
  let old := (getD k d).toNat
  let lo := old % 2 ^ (32 * (q % 4))
  let hi := old / 2 ^ (32 * (q % 4) + 32) * 2 ^ (32 * (q % 4) + 32)
  { k with d := tset 0 k.d (d % 16) (BitVec.ofNat 128 (hi + (getS k rs).toNat * 2 ^ (32 * (q % 4)) + lo)) }

def setvl (rs1 : Nat) (k : Core) : Core := { k with vl := (getS k rs1).toNat }

def setcnt (i src : Nat) (k : Core) : Core :=
  { k with cntSrc := tset 0 k.cntSrc (i % 8) src, cnt := tset 0 k.cnt (i % 8) 0 }

def setcmp (i : Nat) (eq : Bool) (rs : Nat) (k : Core) : Core :=
  { k with cmp := tset {} k.cmp (i % 8) ⟨getS k rs, eq⟩ }

def rdcnt (rd i : Nat) (k : Core) : Core := setS rd (tget 0 k.cnt (i % 8)) k

def rdlp (rd level : Nat) (k : Core) : Core := setS rd (BitVec.ofNat 32 (getLoop k (level % 4)).index) k

/-- Tiles of a layout, entries of a tile, and bytes of an entry (03 Table 03-6). -/
def tileCount (l : Nat) : Nat := match l with | 0 => 8 | 1 => 4 | 2 => 2 | _ => 80
def tileRows (l : Nat) : Nat := if l = 0 then 4 else 8
def tileCols (l : Nat) : Nat := if l = 2 then 16 else 8
def entryBytes (l : Nat) : Nat := if l = 3 then 4 else 80

/-- Select a layout and clear every tile of it (R96, R68). -/
def setLayout (code : Nat) (k : Core) : Core :=
  { k with layout := code, acc := [], poisonA := [],
           tile := if code = 3 then (List.range 80).map (fun t => (t, 0x20#64)) else [] }

/-! #### The rows of the scalar engine (13 Table 13-4) -/

def execAdd (c rd rs1 rs2 : Nat) (s : State) : Res := actOn numCores c s (modCore c (aluR (· + ·) rd rs1 rs2))
def execSub (c rd rs1 rs2 : Nat) (s : State) : Res := actOn numCores c s (modCore c (aluR (· - ·) rd rs1 rs2))
def execMul (c rd rs1 rs2 : Nat) (s : State) : Res := actOn numCores c s (modCore c (aluR (· * ·) rd rs1 rs2))
def execAnd (c rd rs1 rs2 : Nat) (s : State) : Res := actOn numCores c s (modCore c (aluR (· &&& ·) rd rs1 rs2))
def execOr (c rd rs1 rs2 : Nat) (s : State) : Res := actOn numCores c s (modCore c (aluR (· ||| ·) rd rs1 rs2))
def execXor (c rd rs1 rs2 : Nat) (s : State) : Res := actOn numCores c s (modCore c (aluR (· ^^^ ·) rd rs1 rs2))
def execShl (c rd rs1 rs2 : Nat) (s : State) : Res := actOn numCores c s (modCore c (aluR shl32 rd rs1 rs2))
def execShr (c rd rs1 rs2 : Nat) (s : State) : Res := actOn numCores c s (modCore c (aluR shr32 rd rs1 rs2))
def execSra (c rd rs1 rs2 : Nat) (s : State) : Res := actOn numCores c s (modCore c (aluR sra32 rd rs1 rs2))
def execSlt (c rd rs1 rs2 : Nat) (s : State) : Res := actOn numCores c s (modCore c (aluR slt32 rd rs1 rs2))
def execSltu (c rd rs1 rs2 : Nat) (s : State) : Res := actOn numCores c s (modCore c (aluR sltu32 rd rs1 rs2))
def execAddi (c rd rs1 : Nat) (imm : U16) (s : State) : Res :=
  actOn numCores c s (modCore c (aluI (· + sext16 imm) rd rs1))
def execAndi (c rd rs1 : Nat) (imm : U16) (s : State) : Res :=
  actOn numCores c s (modCore c (aluI (· &&& zext16 imm) rd rs1))
def execOri (c rd rs1 : Nat) (imm : U16) (s : State) : Res :=
  actOn numCores c s (modCore c (aluI (· ||| zext16 imm) rd rs1))
def execXori (c rd rs1 : Nat) (imm : U16) (s : State) : Res :=
  actOn numCores c s (modCore c (aluI (· ^^^ zext16 imm) rd rs1))
def execLui (c rd : Nat) (imm : U16) (s : State) : Res := actOn numCores c s (modCore c (setS rd (zext16 imm <<< 16)))
def execLi (c rd : Nat) (imm : U16) (s : State) : Res := actOn numCores c s (modCore c (setS rd (zext16 imm)))

/-- A slot of engine `e` that may be found wrong at issue: the core halts at the word and names that engine (R490), or the
slot takes effect. -/
def slotOr (e : Nat) (faults : List Nat) (f : Core → Core) (k : Core) : Core :=
  match faults with
  | [] => f k
  | code :: _ => haltCore k.pc code e k

def execLoop (c level cnt e : Nat) (s : State) : Res :=
  actOn numCores c s (modCore c (fun k => slotOr eScalar (loopFaults k level) (openLoop level cnt e) k))
def execBr (c rs : Nat) (sense : Bool) (o : BitVec 13) (s : State) : Res :=
  actOn numCores c s (modCore c (fun k => slotOr eScalar (brFaults k o) (branch rs sense o) k))
def execDput (c d q rs : Nat) (s : State) : Res := actOn numCores c s (modCore c (dput d q rs))
def execSetvl (c rs1 : Nat) (s : State) : Res := actOn numCores c s (modCore c (setvl rs1))
def execSetcnt (c k source : Nat) (s : State) : Res :=
  actOn numCores c s (modCore c (fun x => slotOr eScalar (if source < 8 then [] else [0x01]) (setcnt k source) x))
def execSetcmp (c k : Nat) (eq : Bool) (rs : Nat) (s : State) : Res := actOn numCores c s (modCore c (setcmp k eq rs))
def execRdcnt (c rd k : Nat) (s : State) : Res := actOn numCores c s (modCore c (rdcnt rd k))
def execRdlp (c rd level : Nat) (s : State) : Res := actOn numCores c s (modCore c (rdlp rd level))
def execLayout (c code : Nat) (s : State) : Res :=
  actOn numCores c s (modCore c (fun k => slotOr eScalar (if code < 4 then [] else [0x04]) (setLayout code) k))

/-! ### The scalar queue: ld and st at its head (R469, R471) -/

/-- LD: the word at the copied address goes into rd; a poisoned word delivers its data (R105). -/
def scalarLoad (c : Nat) (errs : List MemErr) (s : State) : State :=
  match (getCore s c).q0 with
  | ⟨.ld rd a, addr⟩ :: q =>
    let (s, bad) := memErrors c [.sdata] (errs.filter (fun e => e.word = a / 8)) (modCore c (fun k => { k with q0 := q }) s)
    if bad then modCore c (engineHalt addr 0x21 eScalar) s
    else modCore c (fun k => setS rd (BitVec.ofNat 32 (leNat (sdataRead k a 4))) k) s
  | _ => s

def execLd (c : Nat) (errs : List MemErr) (s : State) : Res := actOn numCores c s (scalarLoad c errs)

/-- ST: the copied value goes to the copied address. Half of a stored word is read back to be kept. -/
def scalarStore (c : Nat) (errs : List MemErr) (s : State) : State :=
  match (getCore s c).q0 with
  | ⟨.st a v, addr⟩ :: q =>
    let (s, bad) := memErrors c [.sdata] (errs.filter (fun e => e.word = a / 8)) (modCore c (fun k => { k with q0 := q }) s)
    if bad then modCore c (engineHalt addr 0x21 eScalar) s
    else modCore c (sdataWrite a (natLe 4 v.toNat) false) s
  | _ => s

def execSt (c : Nat) (errs : List MemErr) (s : State) : Res := actOn numCores c s (scalarStore c errs)

/-! ### Sync slots (R482 to R484) -/

/-- Whether what holds issue has come about. -/
def holdOver (k : Core) (h : Hold) : Bool :=
  match h with
  | .cmp i =>
    let c := tget {} k.cmp i
    let n := tget 0 k.cnt i
    if c.eq then decide (n = c.value) else decide (c.value.toNat ≤ n.toNat)
  | .queue e n => decide (depth k e ≤ n)
  | .fence => engineIdle k

def setHold (h : Hold) (k : Core) : Core := if holdOver k h then k else { k with hold := some h }

/-- SIGNAL (R484): CORE_SIGNAL, its count, and this core's bit of BLK_SIGNAL_MAP. -/
def signal (c : Nat) (v : U16) (s : State) : State :=
  let s := modCore c (fun k => { k with sigVal := v.toNat, sigCnt := (k.sigCnt + 1) % 2 ^ 16 }) s
  { s with signalMap := tset 0 s.signalMap (c / 32) (tget 0 s.signalMap (c / 32) ||| (1#32 <<< (c % 32))) }

def take (k : Core) : Core := { k with takes := k.takes + 1 }

def execWait (c k : Nat) (s : State) : Res := actOn numCores c s (modCore c (setHold (.cmp (k % 8))))
def execWaitq (c engine depth : Nat) (s : State) : Res :=
  actOn numCores c s (modCore c (fun k =>
    slotOr eSync (if engine < 5 ∧ depth ≤ 16 then [] else [0x01]) (setHold (.queue engine depth)) k))
def execFence (c : Nat) (s : State) : Res := actOn numCores c s (modCore c (setHold .fence))
def execSignal (c : Nat) (v : U16) (s : State) : Res := actOn numCores c s (signal c v)
def execHalt (c : Nat) (s : State) : Res := actOn numCores c s (modCore c (fun k => haltCore k.pc 0x12 eSync k))
def execTake (c : Nat) (s : State) : Res := actOn numCores c s (modCore c take)

/-- SYNC_RELEASE (R83, R482): a hold ends when its condition holds. -/
def syncRelease (k : Core) : Core :=
  match k.hold with
  | some h => if holdOver k h then { k with hold := none } else k
  | none => k

def execSyncRelease (c : Nat) (s : State) : Res := actOn numCores c s (modCore c syncRelease)

/-! ### Fields of a long word -/

/-- A long word taken apart: its header, tag and the slots present, each a 32-bit number. -/
structure LWord where
  addr : Nat
  len : Nat
  hdr : Nat
  tag : Option Nat
  slots : List (Nat × Nat)
deriving DecidableEq, Repr

def readWord (k : Core) (a : Nat) : LWord :=
  let h := numAt (progRead k a 2) 0 2
  let t := bitOf h 6
  let o := if t then 4 else 2
  let present := (List.range 6).filter (fun i => bitOf h i)
  { addr := a, len := wordLen k a, hdr := h, tag := if t then some (numAt (progRead k (a + 2) 2) 0 2) else none,
    slots := present.zipIdx.map (fun p => (p.1, leNat (progRead k (a + o + 4 * p.2) 4))) }

def LWord.slot (w : LWord) (e : Nat) : Option Nat := (w.slots.find? (fun p => p.1 == e)).map (·.2)
def LWord.loopEnd (w : LWord) : Bool := bitOf w.hdr 7

def scOp (w : Nat) : Nat := field w 5 0
def scRd (w : Nat) : Nat := field w 10 6
def scRs1 (w : Nat) : Nat := field w 15 11
def scRs2 (w : Nat) : Nat := field w 20 16
def scImm (w : Nat) : U16 := BitVec.ofNat 16 (field w 31 16)
def brOff (w : Nat) : BitVec 13 := BitVec.ofNat 13 (field w 24 12)

/-- The address of an ld or st. -/
def scAddr (k : Core) (w : Nat) : Nat := ((getS k (scRs1 w)) + zext16 (scImm w)).toNat

/-- Operations of the scalar slot that are defined, with the bits they must leave zero (Tables 13-3, 13-4, R473). -/
def scDefined (w : Nat) : Bool :=
  let op := scOp w
  if 0x01 ≤ op ∧ op ≤ 0x0B then decide (field w 31 21 = 0)
  else if (0x10 ≤ op ∧ op ≤ 0x13) ∨ op = 0x18 ∨ op = 0x19 then true
  else if op = 0x14 ∨ op = 0x15 then decide (scRs1 w = 0)
  else if op = 0x20 then decide (field w 31 26 = 0)
  else if op = 0x21 then decide (field w 31 25 = 0)
  else if op = 0x24 then decide (field w 31 17 = 0)
  else if op = 0x25 then decide (scRd w = 0 ∧ field w 31 16 = 0)
  else if op = 0x26 then decide (field w 12 9 < 8 ∧ field w 31 13 = 0)
  else if op = 0x27 then decide (field w 31 15 = 0)
  else if op = 0x28 then decide (field w 31 14 = 0)
  else if op = 0x29 then decide (field w 31 13 = 0)
  else if op = 0x2A then decide (field w 31 9 = 0)
  else false

/-- Halt codes that the scalar slot gives at issue; `k` has its next-word address already. -/
def scFaults (k : Core) (w : Nat) : List Nat :=
  let op := scOp w
  if !scDefined w then [0x01]
  else if op = 0x18 ∨ op = 0x19 then
    (if scAddr k w % 4 ≠ 0 ∨ 0x1000 ≤ scAddr k w then [0x03] else [])
  else if op = 0x20 then loopFaults k (field w 7 6)
  else if op = 0x21 then brFaults k (brOff w)
  else if op = 0x2A then (if field w 8 6 < 4 then [] else [0x04])
  else []

/-- The effect of a scalar slot (R469, R471); ld and st enter the scalar queue with the values they copied. -/
def scApply (addr w : Nat) (k : Core) : Core :=
  let rd := scRd w
  let r1 := scRs1 w
  let r2 := scRs2 w
  let im := scImm w
  match scOp w with
  | 0x01 => aluR (· + ·) rd r1 r2 k
  | 0x02 => aluR (· - ·) rd r1 r2 k
  | 0x03 => aluR (· * ·) rd r1 r2 k
  | 0x04 => aluR (· &&& ·) rd r1 r2 k
  | 0x05 => aluR (· ||| ·) rd r1 r2 k
  | 0x06 => aluR (· ^^^ ·) rd r1 r2 k
  | 0x07 => aluR shl32 rd r1 r2 k
  | 0x08 => aluR shr32 rd r1 r2 k
  | 0x09 => aluR sra32 rd r1 r2 k
  | 0x0A => aluR slt32 rd r1 r2 k
  | 0x0B => aluR sltu32 rd r1 r2 k
  | 0x10 => aluI (· + sext16 im) rd r1 k
  | 0x11 => aluI (· &&& zext16 im) rd r1 k
  | 0x12 => aluI (· ||| zext16 im) rd r1 k
  | 0x13 => aluI (· ^^^ zext16 im) rd r1 k
  | 0x14 => setS rd (zext16 im <<< 16) k
  | 0x15 => setS rd (zext16 im) k
  | 0x18 => { k with q0 := k.q0 ++ [⟨.ld rd (scAddr k w), addr⟩] }
  | 0x19 => { k with q0 := k.q0 ++ [⟨.st (scAddr k w) (getS k rd), addr⟩] }
  | 0x20 => openLoop (field w 7 6) (field w 12 8) (field w 25 13) k
  | 0x21 => branch (field w 10 6) (bitOf w 11) (brOff w) k
  | 0x24 => dput (field w 9 6) (field w 11 10) (field w 16 12) k
  | 0x25 => setvl r1 k
  | 0x26 => setcnt (field w 8 6) (field w 12 9) k
  | 0x27 => setcmp (field w 8 6) (bitOf w 9) (field w 14 10) k
  | 0x28 => rdcnt rd (field w 13 11) k
  | 0x29 => rdlp rd (field w 12 11) k
  | 0x2A => setLayout (field w 8 6) k
  | _ => k

/-! ### Checks of the other slots at issue -/

/-- Bindings of a chain record as it stands (Table 13-7): in0, in1, in2, out0, out1. -/
def bindings (k : Core) (chain : Nat) : List Nat := (sdataRead k (64 * chain + 6) 5).map (·.toNat)

/-- Descriptor numbers of a vector slot, in the order of the bindings. -/
def vecDescs (w : Nat) : List Nat := [field w 12 9, field w 16 13, field w 20 17, field w 24 21, field w 28 25]

/-- Byte ranges that a vector slot writes: through bound descriptors, register outputs standing above the scratchpad, and
the records of its pass, with the chain record and control block as they stand at issue. -/
def vecOuts (k : Core) (w : Nat) : List (List (Nat × Nat)) :=
  let ch := chainOf (sdataRead k (64 * field w 8 4) 64)
  let block := scrRead k ch.ctlAt 32
  ((((bindings k (field w 8 4)).zip (vecDescs w)).drop 3).filterMap (fun b =>
    if b.1 = 0 then
      let d := descOf (getD k b.2)
      some (d.ranges ++ (if quantChain ch then (layOf d.kind).toList.map (fun l => (d.aux + l.mult, 4096 - l.mult)) else []))
    else if 0x80 ≤ b.1 ∧ b.1 < 0xA0 then some [(0x10000 + 64 * (b.1 - 0x80), 64)] else none)) ++
  sideAreas ch (descOf (getD k (field w 12 9))) k.vl (bitOf w 30) (sieveCtlOf block)
    ((Config.quantControl block).2.2.2 % 2 ^ 16)

def vecFaults (s : State) (k : Core) (w : Nat) : List Nat :=
  if field w 3 0 ≠ 1 ∨ bitOf w 31 then [0x01]
  else
    let ds := (((bindings k (field w 8 4)).zip (vecDescs w)).filter (fun b => b.1 == 0)).map (fun b => descOf (getD k b.2))
    ds.flatMap (descFaults s) ++ (if ds.any (fun d => d.elems < k.vl) then [0x0B] else [])

/-- A format of Table 02-1 that is not among those an operation takes; a reserved code is R476's alone (R42). -/
def wrongFormat (d : Desc) (ok : List Nat) : Bool := decide (d.fmt ≤ 0xA) && !ok.contains d.fmt

/-- Formats that the matrix engine takes (R92). -/
def macFormats : List Nat := [1, 3, 4, 5, 6, 7, 8]

/-- The faults of a descriptor with a further address fault of what the slot does there. -/
def alsoPast (past : Bool) (fs : List Nat) : List Nat := if past && !fs.contains 0x03 then 0x03 :: fs else fs

/-- The tile status word stands in the 8 bytes after the drain's destination (log 23). -/
def drainStatusAt (d : Desc) : Nat := roundUp (d.base + (d.rows - 1) * d.rowStride + d.rowBytes) 8

/-- Halt codes of a matrix slot at issue (R92, R97 to R100, R479). DESIGN CHOICE (log 147): a drain into a format that R99 does
not list, and a statistics descriptor that is not two FP32 elements at a base that is a multiple of 8, halt with 0x04, for
which R99 and R100 name no code. -/
def matFaults (s : State) (k : Core) (w : Nat) : List Nat :=
  let op := field w 3 0
  let int := bitOf w 23
  let clear := bitOf w 24
  let stats := bitOf w 25
  let a := descOf (getD k (field w 14 11))
  let b := descOf (getD k (field w 18 15))
  let c := descOf (getD k (field w 22 19))
  let l := k.layout
  let tileBad := if tileCount l ≤ field w 10 4 then [0x0A] else []
  let bad := fun (p : Bool) => if p then [0x04] else []
  if field w 31 26 ≠ 0 then [0x01]
  else if op = 1 then
    if field w 22 19 ≠ 0 || clear || stats then [0x01]
    else descFaults s a ++ descFaults s b ++ tileBad ++
      bad (wrongFormat a macFormats || wrongFormat b macFormats ||
        decide (a.count ≠ b.count ∨ a.rows ≠ tileRows l ∨ b.rows ≠ tileCols l) ||
        (int != decide (l = 3)) || (int && (wrongFormat a [7, 8] || wrongFormat b [7, 8])))
  else if op = 2 then
    if field w 18 11 ≠ 0 || int || clear || stats then [0x01]
    else descFaults s c ++ tileBad ++
      bad (decide (l = 3) && wrongFormat c [7, 8, 9])
  else if op = 3 then
    if field w 18 15 ≠ 0 || int || (!stats && decide (field w 14 11 ≠ 0)) then [0x01]
    else alsoPast (decide (0xFFF8 < drainStatusAt c)) (descFaults s c) ++ tileBad ++
      bad (wrongFormat c (if l = 3 then [0, 9] else [0, 1, 2, 0xA])) ++
      (if stats then descFaults s a ++ bad (wrongFormat a [0] || decide (a.count ≠ 2 ∨ a.base % 8 ≠ 0)) else [])
  else [0x01]

/-- Byte ranges that a matrix slot writes in the scratchpad: a drain's destination, its status word and its statistics. -/
def matOuts (k : Core) (w : Nat) : List (List (Nat × Nat)) :=
  if field w 3 0 = 3 then
    let c := descOf (getD k (field w 22 19))
    [c.ranges, [(drainStatusAt c, 8)]] ++ (if bitOf w 25 then [(descOf (getD k (field w 14 11))).ranges] else [])
  else []

/-- A 64-bit address from an even register and the next (Table 13-9). -/
def hostAddr (k : Core) (r : Nat) : Nat := (getS k r).toNat + field (getS k (r + 1)).toNat 19 0 * 2 ^ 32

def loadFaults (s : State) (k : Core) (w : Nat) : List Nat :=
  let op := field w 3 0
  if (op ≠ 1 ∧ op ≠ 2) ∨ field w 31 21 ≠ 0 ∨ field w 8 8 ≠ 0 ∨ (op = 1 ∧ field w 20 18 ≠ 0) then [0x01]
  else
    let d := descOf (getD k (field w 7 4))
    alsoPast (decide (op = 2 ∧ 0x10000 < d.base + 4096 * (field w 20 18 + 1))) (descFaults s d) ++
      (if op = 2 ∧ d.base % 4096 ≠ 0 then [0x04] else [])

/-- Byte ranges that a load slot writes: rows, or the payloads of a load with expansion. -/
def loadOuts (k : Core) (w : Nat) : List (List (Nat × Nat)) :=
  let d := descOf (getD k (field w 7 4))
  if field w 3 0 = 1 then [d.ranges] else [[(d.base, 4096 * (field w 20 18 + 1))]]

/-- Where row r of a store to core goes (Table 13-9). -/
def coreDest (dst stride r : Nat) : Nat := dst + r * stride

def storeFaults (s : State) (k : Core) (w : Nat) : List Nat :=
  let op := field w 3 0
  let d := descOf (getD k (field w 7 4))
  if op = 0 ∨ 4 < op ∨ field w 31 18 ≠ 0 ∨ ((op = 1 ∨ op = 3) ∧ field w 8 8 ≠ 0) ∨ ((op = 2 ∨ op = 4) ∧ field w 17 8 ≠ 0) then [0x01]
  else
    let past := match op with
      | 2 => decide (0x10000 < d.base + 4136)
      | 3 => decide (0x10000 < coreDest (field (getS k (field w 12 8)).toNat 31 16) (getS k (field w 17 13)).toNat (d.rows - 1) + d.rowBytes)
      | 4 => decide (0x10000 < d.base + 16)
      | _ => false
    alsoPast past (descFaults s d) ++ (if op = 2 ∧ d.base % 64 ≠ 0 then [0x04] else [])

def syncFaults (w : Nat) : List Nat :=
  let ok := match field w 3 0 with
    | 1 => decide (field w 31 7 = 0)
    | 2 => decide (field w 6 4 = 0 ∧ field w 9 7 < 5 ∧ field w 14 10 ≤ 16 ∧ field w 31 15 = 0)
    | 3 => decide (field w 31 4 = 0)
    | 4 => decide (field w 15 4 = 0)
    | 5 => decide (field w 31 4 = 0)
    | 6 => decide (field w 31 4 = 0)
    | _ => false
  if ok then [] else [0x01]

/-- Two writes to one place in one word (R80, R478). -/
def doubleWrite (k : Core) (w : LWord) : Bool :=
  let vs := (w.slot eVector).toList.flatMap (vecOuts k)
  let m := (w.slot eMatrix).toList.flatMap (matOuts k)
  let l := (w.slot eLoad).toList.flatMap (loadOuts k)
  let all := vs ++ m ++ l
  (all.zipIdx).any (fun x => (all.drop (x.2 + 1)).any (rangesMeet x.1))

/-- R486, R487: loop ends and words that may not carry them. -/
def loopEndFaults (k : Core) (w : LWord) : List Nat :=
  let l := getLoop k (k.sp - 1)
  let op := (w.slot eScalar).map scOp
  let skips := decide (op = some 0x20) && (w.slot eScalar).any (fun x => getS k (field x 12 8) == 0)
  if skips && !w.loopEnd then []
  else if w.loopEnd then
    (if k.sp = 0 ∨ w.addr ≠ l.stop ∨ field w.hdr 9 8 + 1 ≠ k.sp ∨ op = some 0x20 ∨ op = some 0x21 then [0x07] else [])
  else if 0 < k.sp ∧ w.addr = l.stop then [0x07] else []

/-- All conditions found at issue, each with the engine of its slot (R490). `k1` stands at the next word. -/
def issueFaults (s : State) (k k1 : Core) (w : LWord) : List (Nat × Nat) :=
  let on := fun (e : Nat) (f : Nat → List Nat) => ((w.slot e).toList.flatMap f).map (fun c => (c, e))
  (if field w.hdr 15 10 ≠ 0 ∨ (!w.loopEnd ∧ field w.hdr 9 8 ≠ 0) then [(0x02, eNone)] else []) ++
  on eScalar (scFaults k1) ++ on eVector (vecFaults s k) ++ on eMatrix (matFaults s k) ++ on eLoad (loadFaults s k) ++
  on eStore (storeFaults s k) ++ on eSync syncFaults ++
  (if doubleWrite k w then [(0x05, if (w.slot eVector).isSome then eVector else eMatrix)] else []) ++
  (loopEndFaults k w).map (fun c => (c, eNone)) ++
  (w.slots.filter (fun p => decide (1 ≤ p.1 ∧ p.1 ≤ 4) && decide (queueDepth ≤ depth k p.1))).map (fun p => (0x08, p.1))

/-- The condition with the lowest code; the earliest slot among equals. -/
def lowest (fs : List (Nat × Nat)) : Option (Nat × Nat) :=
  fs.foldl (fun b f => match b with | some x => if f.1 < x.1 then some f else b | none => some f) none

/-! ### Issue -/

/-- Whether the scalar interlock concerns a word (R470). -/
def interlocked (w : LWord) : Bool :=
  (w.slot eScalar).any (fun x => decide (scOp x ≠ 0x2A)) || (w.slot eLoad).isSome ||
  (w.slot eStore).any (fun x => decide (field x 3 0 = 1 ∨ field x 3 0 = 3)) || w.loopEnd

/-- A slot's queue entry, with everything it copies (R471). -/
def entryOf (k : Core) (e x : Nat) : Option QOp :=
  let r := field x 12 8
  let dst := getD k (field x 7 4)
  match e with
  | 1 =>
    let ds := (vecDescs x).map (getD k)
    some (.run (field x 8 4) (ds.take 3) (ds.drop 3) (bitOf x 29) (bitOf x 30) k.vl)
  | 2 =>
    let a := getD k (field x 14 11)
    let c := getD k (field x 22 19)
    let t := field x 10 4
    match field x 3 0 with
    | 1 => some (.mac t a (getD k (field x 18 15)) (bitOf x 23))
    | 2 => some (.preload t c)
    | _ => some (.drain t a c (bitOf x 24) (bitOf x 25))
  | 3 =>
    if field x 3 0 = 1 then some (.load dst (hostAddr k r) (getS k (field x 17 13)).toNat)
    else some (.loadx (descOf dst).base (hostAddr k r) (field x 20 18 + 1))
  | 4 =>
    match field x 3 0 with
    | 1 => some (.store dst (hostAddr k r) (getS k (field x 17 13)).toNat)
    | 2 => some (.handoff (descOf dst).base)
    | 3 => some (.stcore dst (field (getS k r).toNat 11 0) (field (getS k r).toNat 31 16) (getS k (field x 17 13)).toNat)
    | _ => some (.opn (descOf dst).base)
  | _ => none

def enqueue (addr : Nat) (old : Core) (k : Core) (p : Nat × Nat) : Core :=
  match entryOf old p.1 p.2, p.1 with
  | some o, 1 => { k with q1 := k.q1 ++ [⟨o, addr⟩] }
  | some o, 2 => { k with q2 := k.q2 ++ [⟨o, addr⟩] }
  | some o, 3 => { k with q3 := k.q3 ++ [⟨o, addr⟩] }
  | some o, 4 => { k with q4 := k.q4 ++ [⟨o, addr⟩] }
  | _, _ => k

/-- At a loop end: another iteration, or the loop closes (R486). -/
def loopEnds (k : Core) : Core :=
  let l := getLoop k (k.sp - 1)
  let i := (l.index + 1) % 2 ^ 32
  let k := { k with loops := tset {} k.loops (k.sp - 1) { l with index := i } }
  if i < l.count then { k with pc := l.start } else { k with sp := k.sp - 1 }

/-- The effect of the sync slot, after every other slot of its word (R482). -/
def syncApply (c addr x : Nat) (s : State) : State :=
  match field x 3 0 with
  | 1 => modCore c (setHold (.cmp (field x 6 4))) s
  | 2 => modCore c (setHold (.queue (field x 9 7) (field x 14 10))) s
  | 3 => modCore c (setHold .fence) s
  | 4 => signal c (BitVec.ofNat 16 (field x 31 16)) s
  | 5 => modCore c (haltCore addr 0x12 eSync) s
  | 6 => modCore c take s
  | _ => s

/-- After a single step, or for a request that stands, the core halts at the boundary that follows (R493, R494). -/
def afterIssue (k : Core) : Core :=
  let n := (k.issueCnt + 1) % 2 ^ 48
  let due := k.brkCntEn && decide (n = k.brkCnt)
  let k := { k with issueCnt := n, skipTag := false, cntDue := due }
  if k.stepping then
    let more := k.haltReq || due
    haltCore k.pc (if k.haltReq then 0x13 else if due then 0x10 else 0x14) eNone { k with more := k.more || more }
  else k

/-- The word issues whole (R467). -/
def issueWord (c : Nat) (w : LWord) (s : State) : State :=
  let k := getCore s c
  let k1 := countEvent evIssue { k with pc := w.addr + w.len }
  let k2 := w.slots.foldl (enqueue w.addr k) k1
  let k3 := match w.slot eScalar with
    | some x => if scOp x = 0x28 then setS (scRd x) (tget 0 k.cnt (field x 13 11)) k2 else scApply w.addr x k2
    | none => k2
  let k4 := if w.loopEnd then loopEnds k3 else k3
  let s := setCore s c k4
  let s := match w.slot eSync with | some x => syncApply c w.addr x s | none => s
  modCore c afterIssue s

/-- Conditions found at fetch (R466, R104, R105), in order. -/
def fetchFaults (k : Core) (w : LWord) (uncorrectable : Bool) : List Nat :=
  (if k.progLen ≤ w.addr ∨ k.progLen < w.addr + w.len then [0x0E] else []) ++ (if uncorrectable then [0x20] else []) ++
  (if anyPoison k.poisonP w.addr w.len then [0x23] else [])

/-- LONG_WORD_ISSUE (R467 to R471, R482, R486, R492, R493): one word boundary of a running core. Nothing issues while a sync
slot holds it, save that a halt request or a count breakpoint still halts it there. -/
def longWord (c : Nat) (errs : List MemErr) (s : State) : State :=
  let k := getCore s c
  if k.state ≠ 1 then s
  else
    let stops := (if k.haltReq then [(0x13, eNone)] else []) ++ (if k.cntDue then [(0x10, eNone)] else [])
    let halt := fun (fs : List (Nat × Nat)) (s : State) => match fs with
      | [] => s
      | f :: rest => modCore c (fun k => haltCore k.pc f.1 f.2 { k with more := k.more || !rest.isEmpty }) s
    if k.hold.isSome then halt stops s
    else
      let w := readWord k k.pc
      let (s, bad) := memErrors c [.prog] (errs.filter (fun e => (wordsIn w.addr w.len).contains e.word)) s
      let fetch := (fetchFaults k w bad).map (fun f => (f, eNone))
      let tag := if k.brkTagEn && !k.skipTag && decide (w.tag = some k.brkTag) then [(0x11, eNone)] else []
      let issue := if fetch.isEmpty then issueFaults s k { k with pc := w.addr + w.len } w else []
      let first := fetch ++ stops ++ (if fetch.isEmpty then tag else [])
      if !first.isEmpty then halt (first ++ (lowest issue).toList) s
      else if interlocked w && !k.q0.isEmpty then s
      else match lowest issue with
        | some f => halt (f :: issue.tail) s
        | none => issueWord c w s

def execLongWordIssue (c : Nat) (errs : List MemErr) (s : State) : Res := actOn numCores c s (longWord c errs)

/-! ### Core control (Table 13-12) -/

/-- CORE_HALT_REQUEST (R492): taken at the next word boundary. -/
def execCoreHaltRequest (c : Nat) (s : State) : Res :=
  actOn numCores c s (modCore c (fun k => if k.state = 1 then { k with haltReq := true } else k))

/-- Continue issue on a core halted with a resumable reason (R494). -/
def resume (step : Bool) (k : Core) : Core :=
  if k.state = 2 && resumable k.haltCode && !k.saving && !k.restoring then
    { k with state := 1, stepping := step, skipTag := true, cntDue := false, haltReq := false }
  else k

/-- CORE_RESUME (R494). -/
def execCoreResume (c : Nat) (s : State) : Res := actOn numCores c s (modCore c (resume false))

/-- CORE_SINGLE_STEP (R494). -/
def execCoreSingleStep (c : Nat) (s : State) : Res := actOn numCores c s (modCore c (resume true))

end Sys2Proof.Machine
end

