-- ==== Sys2Proof/Machine/Matrix.lean ====
section
/-! DEFINITION. The matrix engine: chunked sums (02 R61 to R69), MAC, PRELOAD and DRAIN (03 R92 to R101). -/

namespace Sys2Proof.Machine

/-! ### Tiles in the accumulator memory (Table 03-6) -/

/-- Byte address of entry (i, j) of tile t. -/
def entryAt (l t i j : Nat) : Nat := t * (tileRows l * tileCols l * entryBytes l) + (i * tileCols l + j) * entryBytes l

/-- All entries of a tile in row-major order. -/
def tilePlaces (l : Nat) : List (Nat × Nat) :=
  (List.range (tileRows l)).flatMap (fun i => (List.range (tileCols l)).map (fun j => (i, j)))

/-- The accumulator bytes of a tile. -/
def tileRange (l t : Nat) : Nat × Nat := (entryAt l t 0 0, tileRows l * tileCols l * entryBytes l)

def getTile (k : Core) (t : Nat) : U64 := tget 0 k.tile t
def setTile (t : Nat) (v : U64) (k : Core) : Core := { k with tile := tset 0 k.tile t v }

/-- An INT32 entry as an integer. -/
def int32At (k : Core) (a : Nat) : Int := signed 32 (leNat (accRead k a 4))
def int32Bytes (v : Int) : Bytes := natLe 4 (unsignedOf 32 v)

/-! ### Bit errors on what an operation reads -/

/-- The errors of a step that fall on words it reads. -/
def errsOn (m : CoreMem) (rs : List (Nat × Nat)) (errs : List MemErr) : List MemErr :=
  errs.filter (fun e => e.mem == m && rs.any (fun r => (wordsIn r.1 r.2).contains e.word))

/-- Report the errors of an engine operation; an uncorrectable one halts the core with 0x21 and drops the engine's queue
(R104, R491), and the operation then writes nothing. -/
def engineErrs (c addr engine : Nat) (errs : List MemErr) (s : State) : State × Bool :=
  let (s, bad) := memErrors c [.scratch, .acc, .sdata] errs s
  if bad then (modCore c (engineHalt addr 0x21 engine) s, true) else (s, false)

/-! ### Scales of operands (R63, R475) -/

/-- The index that an element of a descriptor has among the codes of its payload. -/
def Desc.payloadIndex (d : Desc) (r i : Nat) : Nat :=
  let (a, b) := d.elemAt r i
  if d.kind = kSparse8 then (a - d.aux) / 4 else ((a - d.aux) * 8 + b) / d.width

/-- Group length of a payload: 64 entries in a sparse one (R155), else the descriptor's size code. -/
def Desc.groupLen (d : Desc) : Nat := if kindSparse d.kind then 64 else groupSize d.gsz

/-- The effective scale of a group: chunk scale times multiplier, exact; 1 for a plain operand. -/
def Desc.scale (d : Desc) (k : Core) (g : Nat) : FVal :=
  match layOf d.kind with
  | none => .fin false 1 0
  | some l => vMul (f32Dec (BitVec.ofNat 32 (leNat (scrRead k (d.aux + l.scale) 4))))
      (fmtE4M3.decode (leNat (scrRead k (d.aux + l.mult + g) 1)))

/-- The group of the chunk of n elements that begins at element i of row r (log 24). -/
def Desc.chunkGroup (d : Desc) (r i n : Nat) : Nat :=
  let a := d.payloadIndex r i / d.groupLen
  let b := d.payloadIndex r (i + n - 1) / d.groupLen
  if a = b then a else Config.straddleGroup a b

/-- Bytes that the scales of an operand occupy. -/
def Desc.scaleRanges (d : Desc) : List (Nat × Nat) :=
  match layOf d.kind with
  | none => []
  | some l => [(d.aux + l.mult, l.mults), (d.aux + l.scale, 4)]

/-! ### Chunk sums (R61, R62, R93) -/

def fvInf : FVal → Bool
  | .inf _ => true
  | _ => false

/-- Whether an addition of two finite values overflows FP32. -/
def addOverflows (a b : FVal) : Bool := !fvInf a && !fvInf b && fvInf (f32Dec (f32Enc (vAdd a b)))

/-- One level of the tree: neighbours add with one rounding. The flag says that an addition so far has overflowed. -/
def pairAdd : List FVal → Bool → List FVal × Bool
  | a :: b :: t, o => let r := pairAdd t (o || addOverflows a b); (f32Dec (f32Enc (vAdd a b)) :: r.1, r.2)
  | t, o => (t, o)

/-- The chunk sum of up to 32 exact products (R61, R62), and whether an addition of its tree overflowed. -/
def chunkSum (ps : List FVal) : FVal × Bool :=
  let r := (List.range 5).foldl (fun x _ => pairAdd x.1 x.2) (fit (.fin false 0 0) 32 ps, false)
  (r.1.headD (.fin false 0 0), r.2)

/-- What promotion of a chunk sum adds to an entry (R63, R64): the term, and the tiny, sat and f32ovf flags. An infinite sum
without an infinite product is the marker of its sign; one that comes from an infinite product is scaled as any other.
DESIGN CHOICE (log 145): f32ovf sets whenever an addition of the tree overflows, whatever the sum becomes, which R65 needs. -/
def promoted (ps : List FVal) (sa sb : FVal) : XF × Bool × Bool × Bool :=
  let (v, o) := chunkSum ps
  if fvInf v && !ps.any fvInf then ((xfOfVal v).1, false, false, o)
  else let x := xfOfVal (vMul (vMul v sa) sb); (x.1, x.2.1, x.2.2, o)

/-- An operand's codes of one row, K of them. -/
def Desc.rowCodes (d : Desc) (k : Core) (r : Nat) : List Nat := (List.range d.count).map (d.raw k r)

/-- The chunks of an operand row: its values in runs of 32, each with the effective scale of its group. DESIGN CHOICE (log
146): the reduction index of R61 starts at 0 with each mac, so a mac whose count is no multiple of 32 ends in a short chunk. -/
def macRow (d : Desc) (k : Core) (r : Nat) : List (List FVal × FVal) :=
  let vs := (d.rowCodes k r).map (macValue d.format)
  (chunksOf 32 (d.count / 32 + 1) vs).zipIdx.map (fun c => (c.1, d.scale k (d.chunkGroup r (32 * c.2) c.1.length)))

/-- Flags gathered over the entries of a tile. -/
structure TileFlags where
  sat : Bool := false
  tiny : Bool := false
  ovf : Bool := false

/-- One entry of a float tile: every chunk promoted into it. -/
def macEntry (x : XF) (as bs : List (List FVal × FVal)) : XF × TileFlags :=
  (as.zip bs).foldl (fun (acc : XF × TileFlags) p =>
    let t := promoted ((p.1.1.zip p.2.1).map (fun q => vMul q.1 q.2)) p.1.2 p.2.2
    let y := xfAdd acc.1 t.1
    (y.1, ⟨acc.2.sat || y.2 || t.2.2.1, acc.2.tiny || t.2.1, acc.2.ovf || t.2.2.2⟩)) (x, {})

/-- One entry of an integer tile: products added in the order of the reduction index (R60, R69). -/
def macIntEntry (x : Int) (as bs : List Int) : Int × Bool :=
  (as.zip bs).foldl (fun (acc : Int × Bool) p => let y := int32Add acc.1 (p.1 * p.2); (y.1, acc.2 || y.2)) (x, false)

/-- Whether the chunk scale or a group's multiplier stands in a poisoned word. -/
def Desc.scaleBad (d : Desc) (k : Core) (g : Nat) : Bool :=
  match layOf d.kind with
  | none => false
  | some l => scrBad k (d.aux + l.scale) 4 || scrBad k (d.aux + l.mult + g) 1

/-- Whether an operand row, or a scale of one of its groups, stands in a poisoned word (R105). -/
def Desc.rowBad (d : Desc) (k : Core) (r : Nat) : Bool :=
  scrBad k (d.base + r * d.rowStride) d.rowBytes ||
  (List.range ((d.count + 31) / 32)).any (fun i => d.scaleBad k (d.chunkGroup r (32 * i) (min 32 (d.count - 32 * i))))

/-- The status of a tile after `n` promotions and the flags of the entries (R57, R63, R64, R66). -/
def tileAfter (t : U64) (n : Nat) (f : TileFlags) (marker : Bool) : U64 :=
  let t := (List.range n).foldl (fun t _ => tilePromote t) t
  tileFlag (tileFlag (tileFlag (tileFlag t tsSat f.sat) tsNonfinite marker) tsTiny f.tiny) tsF32ovf f.ovf

/-- The whole of a float mac on a tile. -/
def macFloat (t : Nat) (a b : Desc) (k : Core) : Core :=
  let l := k.layout
  let ra := (List.range (tileRows l)).map (macRow a k)
  let rb := (List.range (tileCols l)).map (macRow b k)
  let es := (tilePlaces l).map (fun p =>
    let at_ := entryAt l t p.1 p.2
    let r := macEntry (xfOfBytes (accRead k at_ 80)) (ra.getD p.1 []) (rb.getD p.2 [])
    (at_, r.1, r.2, a.rowBad k p.1 || b.rowBad k p.2 || accBad k at_ 80))
  let f := es.foldl (fun (f : TileFlags) e => ⟨f.sat || e.2.2.1.sat, f.tiny || e.2.2.1.tiny, f.ovf || e.2.2.1.ovf⟩) {}
  let k' := es.foldl (fun k e => accWrite e.1 (xfBytes e.2.1) e.2.2.2 k) k
  setTile t (tileAfter (getTile k t) ((a.count + 31) / 32) f (es.any (fun e => xfIsMarker e.2.1))) k'

/-- Element i of row r as an integer operand (R69); an escape code has no integer value (log 89). -/
def Desc.intAt (d : Desc) (k : Core) (r i : Nat) : Int :=
  let v := d.raw k r i
  if d.format.isNarrow && decide (v = d.format.escape) then Config.intEscape (d.elemAt r i).1 else signed d.width v

/-- Whether a row of an integer operand holds an escape code. -/
def Desc.rowEscape (d : Desc) (k : Core) (r : Nat) : Bool := (d.rowCodes k r).any (· == d.format.escape)

/-- The whole of an integer mac on a tile (R69). An escape code that reaches it sets the tile's nonfinite flag (R93). -/
def macInt (t : Nat) (a b : Desc) (k : Core) : Core :=
  let l := k.layout
  let ints := fun (d : Desc) (r : Nat) => (List.range d.count).map (d.intAt k r)
  let ra := (List.range (tileRows l)).map (ints a)
  let rb := (List.range (tileCols l)).map (ints b)
  let es := (tilePlaces l).map (fun p =>
    let at_ := entryAt l t p.1 p.2
    let r := macIntEntry (int32At k at_) (ra.getD p.1 []) (rb.getD p.2 [])
    (at_, r.1, r.2, a.rowBad k p.1 || b.rowBad k p.2 || accBad k at_ 4))
  let k' := es.foldl (fun k e => accWrite e.1 (int32Bytes e.2.1) e.2.2.2 k) k
  setTile t (tileAfter (getTile k t) ((a.count + 31) / 32) { sat := es.any (·.2.2.1) }
    ((List.range (tileRows l)).any (a.rowEscape k) || (List.range (tileCols l)).any (b.rowEscape k))) k'

/-! ### The engine's queue -/

/-- The head of the matrix queue, when the engine is free. -/
def matHead (k : Core) : Option QEntry := if k.busyM then none else k.q2.head?

def matStart (k : Core) : Core := { k with q2 := k.q2.tail, busyM := true }

/-- A queued operation meets the layout in force when it starts (R97, R479): its tile and its shapes are checked again. -/
def shapeFault (k : Core) (t : Nat) (shapes : List (Nat × Nat)) (intOk : Bool) : Option Nat :=
  if shapes.any (fun p => p.1 != p.2) || !intOk then some 0x04
  else if tileCount k.layout ≤ t then some 0x0A else none

/-- Halt for a shape that no longer fits, or run. -/
def shaped (c addr : Nat) (f : Option Nat) (s s' : State) : State :=
  match f with
  | some code => modCore c (engineHalt addr code eMatrix) s
  | none => s'

/-- MAC (R94): the operation at the head multiplies and accumulates. -/
def macRun (c : Nat) (errs : List MemErr) (s : State) : State :=
  match matHead (getCore s c) with
  | some ⟨.mac t a b int, addr⟩ =>
    let da := descOf a
    let db := descOf b
    let k := getCore s c
    let es := errsOn .scratch (da.ranges ++ db.ranges ++ da.scaleRanges ++ db.scaleRanges) errs ++
      errsOn .acc [tileRange k.layout t] errs
    let (s', bad) := engineErrs c addr eMatrix es s
    shaped c addr (shapeFault k t [(da.rows, tileRows k.layout), (db.rows, tileCols k.layout)] (int == decide (k.layout = 3))) s
      (if bad then s' else modCore c (fun k => matStart ((if int then macInt else macFloat) t da db k)) s')
  | _ => s

def execMac (c : Nat) (errs : List MemErr) (s : State) : Res := actOn numCores c s (macRun c errs)

/-! ### Preload (R98) -/

/-- A source element in XF: exact, narrow escape codes as NaN (R49, R56). -/
def xfOfElem (f : Fmt) (v : Nat) : XF :=
  if f = .xf then BitVec.ofNat 640 v else (xfOfVal (macValue f v)).1

/-- Whether an operand has an element in a row and column of a tile (log 38). -/
def Desc.holds (d : Desc) (i j : Nat) : Bool := decide (i < d.rows ∧ j < d.count)

/-- The bytes of an entry for a source element that stands at an address; an escape code has no integer value (log 89). -/
def preloadBytes (l : Nat) (f : Fmt) (v at_ : Nat) : Bytes :=
  if l = 3 then int32Bytes (if f.isNarrow && decide (v = f.escape) then Config.intEscape at_ else signed f.width v)
  else xfBytes (xfOfElem f v)

def preloadTile (t : Nat) (d : Desc) (k : Core) : Core :=
  let l := k.layout
  let es := (tilePlaces l).map (fun p =>
    (entryAt l t p.1 p.2,
      preloadBytes l d.format (if d.holds p.1 p.2 then d.raw k p.1 p.2 else Config.preloadVoid p.1 p.2 % 2 ^ d.width)
        (d.elemAt p.1 p.2).1,
      d.holds p.1 p.2 && d.badAt k p.1 p.2))
  let marker := if l = 3 then d.format.isNarrow && (List.range (tileRows l)).any (fun i => i < d.rows && d.rowEscape k i)
    else es.any (fun e => xfIsMarker (xfOfBytes e.2.1))
  let k' := es.foldl (fun k e => accWrite e.1 e.2.1 e.2.2 k) k
  setTile t (tileFlag (tileClear (getTile k t)) tsNonfinite marker) k'

def preloadRun (c : Nat) (errs : List MemErr) (s : State) : State :=
  match matHead (getCore s c) with
  | some ⟨.preload t a, addr⟩ =>
    let d := descOf a
    let k := getCore s c
    let (s', bad) := engineErrs c addr eMatrix (errsOn .scratch d.ranges errs) s
    shaped c addr (shapeFault k t [] (decide (k.layout ≠ 3) || [7, 8, 9].contains d.fmt)) s
      (if bad then s' else modCore c (fun k => matStart (preloadTile t d k)) s')
  | _ => s

def execPreload (c : Nat) (errs : List MemErr) (s : State) : Res := actOn numCores c s (preloadRun c errs)

/-! ### Drain (R99, R100) -/

/-- An entry as FP32. -/
def entryF32 (l : Nat) (k : Core) (a : Nat) : F32 :=
  if l = 3 then f32OfInt (int32At k a) else xfToF32 (xfOfBytes (accRead k a 80))

/-- The raw bits of a drained entry in the destination's format. -/
def drained1 (l : Nat) (f : Fmt) (k : Core) (a : Nat) : Nat :=
  match f with
  | .xf => leNat (accRead k a 80)
  | .int32 => leNat (accRead k a 4)
  | .bf16 => fmtBF16.encodeRne (xfToVal (xfOfBytes (accRead k a 80)))
  | .fp16 => fmtFP16.encodeRne (xfToVal (xfOfBytes (accRead k a 80)))
  | _ => (entryF32 l k a).toNat

/-- The row statistics of R100: the pair (m, l) after a row's entries. -/
def rowStats (xs : List F32) (m l : F32) : F32 × F32 :=
  if xs.any (fun x => !f32IsFinite x) then (f32NaN, f32NaN)
  else
    let mt := xs.tail.foldl f32Max (xs.headD 0)
    let mn := f32Max m mt
    let l := f32Mul l (f32Exp (f32Sub m mn))
    (mn, xs.foldl (fun l x => f32Add l (f32Exp (f32Sub x mn))) l)

/-- Update the pair of row i. -/
def statsRow (t : Nat) (a : Desc) (old : Core) (k : Core) (i : Nat) : Core :=
  let l := old.layout
  let at_ := (List.range (tileCols l)).map (fun j => entryAt l t i j)
  let f := fun (j : Nat) => BitVec.ofNat 32 (a.raw old i j)
  let r := rowStats (at_.map (entryF32 l old)) (f 0) (f 1)
  let bad := at_.any (fun x => accBad old x (entryBytes l)) || a.badAt old i 0 || a.badAt old i 1
  a.put i 1 r.2.toNat bad (a.put i 0 r.1.toNat bad k)

/-- Clear a tile after its last entry has been read (R68, R99). -/
def clearTile (t : Nat) (k : Core) : Core :=
  let r := tileRange k.layout t
  setTile t (tileClear (getTile k t)) (accWrite r.1 (zeros r.2) false k)

def drainTile (t : Nat) (a d : Desc) (clear stats : Bool) (k : Core) : Core :=
  let l := k.layout
  let k1 := (tilePlaces l).foldl (fun x p =>
    let e := entryAt l t p.1 p.2
    if d.holds p.1 p.2 then d.put p.1 p.2 (drained1 l d.format k e) (accBad k e (entryBytes l)) x else x) k
  let k2 := scrWrite (drainStatusAt d) (natLe 8 (getTile k t).toNat) false k1
  let k3 := if stats then (List.range (min (tileRows l) a.rows)).foldl (statsRow t a k) k2 else k2
  if clear then clearTile t k3 else k3

def drainRun (c : Nat) (errs : List MemErr) (s : State) : State :=
  match matHead (getCore s c) with
  | some ⟨.drain t a d clear stats, addr⟩ =>
    let da := descOf a
    let es := errsOn .acc [tileRange (getCore s c).layout t] errs ++
      (if stats then errsOn .scratch da.ranges errs else [])
    let (s', bad) := engineErrs c addr eMatrix es s
    let k := getCore s c
    let dd := descOf d
    shaped c addr (shapeFault k t [] ((if k.layout = 3 then [0, 9] else [0, 1, 2, 0xA]).contains dd.fmt)) s
      (if bad then s' else modCore c (fun k => matStart (drainTile t da dd clear stats k)) s')
  | _ => s

def execDrain (c : Nat) (errs : List MemErr) (s : State) : Res := actOn numCores c s (drainRun c errs)

/-- MATRIX_OP_COMPLETE (R83): MAT_DONE counts the operation. -/
def matrixDone (k : Core) : Core := if k.busyM then countEvent evMat { k with busyM := false } else k

def execMatrixOpComplete (c : Nat) (s : State) : Res := actOn numCores c s (modCore c matrixDone)

end Sys2Proof.Machine
end

