-- ==== Sys2Proof/Machine/LoadStore.lean ====
section
/-! DEFINITION. The load and store engines (13 R472, R480, R481, Table 13-9; 11 R429): loads, stores, stores to another core,
hand-offs and opens. -/

namespace Sys2Proof.Machine

/-! ### Queues and jobs -/

def loadHead (k : Core) : Option QEntry := k.q3.head?

/-- The head of the store queue; an open that waits holds the engine behind it (R472, R481). -/
def storeHead (k : Core) : Option QEntry :=
  if k.stores.any (fun j => match j.kind with | .openWait _ _ => true | _ => false) then none else k.q4.head?

/-- The operation at the head of the load queue starts as a job. -/
def startLoad (kind : JobKind) (k : Core) : Core :=
  { k with q3 := k.q3.tail, loads := k.loads ++ [⟨k.nextJob, kind⟩], nextJob := k.nextJob + 1 }

/-- The operation at the head of the store queue starts as a job. -/
def startStore (kind : JobKind) (k : Core) : Core :=
  { k with q4 := k.q4.tail, stores := k.stores ++ [⟨k.nextJob, kind⟩], nextJob := k.nextJob + 1 }

/-! ### Loads -/

/-- A read of n bytes that stay inside one 4 KiB unit, into a scratchpad (R408, R409). -/
def readReq (owner : Owner) (a n dst : Nat) : WReq :=
  let lo := a / 64 * 64
  { op := 0, addr := lo, len := (a + n - lo + 63) / 64, owner := owner, data := [], mask := [], poison := [],
    dests := [(a - lo, dst, n)], beats := 0 }

/-- The requests of one row: pieces that each stay inside one 4 KiB unit. -/
def rowReads (owner : Owner) (a n dst : Nat) : List WReq :=
  (splitRange a n).map (fun p => readReq owner (p.1 % 2 ^ 52) p.2 (dst + (p.1 - a)))

/-- One row of a load. Where it meets a sketch slot whose Q is not valid for the step, the core takes Q0 in its place, which the step's
mode flags show (R208, R219); `fuel` bounds the parts. -/
def loadRow (c : Nat) (owner : Owner) : Nat → Nat → Nat → Nat → State → State
  | 0, _, _, _, s => s
  | fuel + 1, a, n, dst, s =>
    if n = 0 then s
    else match needsQ0 s a with
    | some (t, off, room) =>
      let m := min n room
      let s := setModeAt (millStep s) mfQ0 (modCore c (scrWrite dst (firstQBytes t off m) false) s)
      loadRow c owner fuel (a + m) (n - m) (dst + m) s
    | none =>
      let m := ((List.range n).find? (fun i => (needsQ0 s (a + i)).isSome)).getD n
      loadRow c owner fuel (a + m) (n - m) (dst + m) ((rowReads owner a m dst).foldl (fun s r => enqueueReq r s) s)

/-- LOAD (Table 13-9): the rows of the destination descriptor are read through the wells. -/
def loadRun (c : Nat) (s : State) : State :=
  match loadHead (getCore s c) with
  | some ⟨.load d a stride, _⟩ =>
    let d := descOf d
    let owner := Owner.core c (getCore s c).nextJob
    (List.range d.rows).foldl (fun s r =>
      loadRow c owner (d.rowBytes + 1) (a + r * stride) d.rowBytes (d.base + r * d.rowStride) s) (modCore c (startLoad .well) s)
  | _ => s

def execLoad (c : Nat) (s : State) : Res := actOn numCores c s (loadRun c)

/-- LOAD_EXPAND (R429): the blocks wait at the well that serves the first byte of their source. -/
def loadxRun (c : Nat) (s : State) : State :=
  match loadHead (getCore s c) with
  | some ⟨.loadx base a n, _⟩ =>
    let job : ExpJob := { src := a, dst := base, left := n, core := some (c, (getCore s c).nextJob), fetch := a / 64 * 64 }
    modWell (wellOf s a) (fun w => { w with jobs := w.jobs ++ [job] }) (modCore c (startLoad .expand) s)
  | _ => s

def execLoadExpand (c : Nat) (s : State) : Res := actOn numCores c s (loadxRun c)

/-- Whether everything that a load asked for has come. -/
def loadOver (s : State) (c : Nat) (j : Job) : Bool :=
  match j.kind with
  | .well => !anyPending (.core c j.id) s
  | .expand => s.wells.all (fun e => e.2.jobs.all (fun x => x.core != some (c, j.id)))
  | _ => true

/-- LOAD_COMPLETE (R83, R429, R472): the last byte of a load stands in the scratchpad. -/
def loadDone (c : Nat) (s : State) : State :=
  match (getCore s c).loads.find? (loadOver s c) with
  | some j => modCore c (fun k => countEvent evLoad { k with loads := k.loads.filter (fun x => x.id != j.id) }) s
  | none => s

def execLoadComplete (c : Nat) (s : State) : Res := actOn numCores c s (loadDone c)

/-! ### Stores -/

/-- The 64-byte units of host memory that a row's poisoned words meet (R105). -/
def badUnits (k : Core) (src n a : Nat) : List Nat :=
  dedup (((List.range n).filter (fun i => k.poisonS.contains ((src + i) / 8))).map (fun i => (a + i) / 64 % 2 ^ 46))

/-- A fence of a store: one request at each well, behind every earlier write there (R413). -/
def storeFences (owner : Owner) (s : State) : State :=
  (wellList s).foldl (fun s w =>
    if ownerPending owner (getWell s w) then
      modWell w (fun k => { k with waiting := k.waiting ++
        [{ op := 2, addr := 0, len := 0, owner := owner, data := [], mask := [], poison := [], dests := [], beats := 0,
           stamp := s.wellStamp }] }) { s with wellStamp := s.wellStamp + 1 }
    else s) s

/-- STORE (Table 13-9): the rows of the source descriptor are written through the wells; gleanings of a range that is not finite keep
e_prev (R197), and sliver statistics follow the data they announce (R414). Which stores wait with a fence is open (R413; log
157). -/
def storeRun (c : Nat) (errs : List MemErr) (s : State) : State :=
  match storeHead (getCore s c) with
  | some ⟨.store d a stride, addr⟩ =>
    let d := descOf d
    let (s, bad) := engineErrs c addr eStore (errsOn .scratch d.ranges errs) s
    if bad then s
    else
      let k := getCore s c
      let s := (List.range d.rows).foldl (fun s r =>
        let src := d.base + r * d.rowStride
        let dst := a + r * stride
        postWriteAs (statWrite s dst d.rowBytes) (.core c k.nextJob) dst (nilStore s c dst (scrRead k src d.rowBytes))
          (badUnits k src d.rowBytes dst) s)
        (modCore c (startStore .well) s)
      if Config.storeFence c k.nextJob then storeFences (.core c k.nextJob) s else s
  | _ => s

def execStore (c : Nat) (errs : List MemErr) (s : State) : Res := actOn numCores c s (storeRun c errs)

/-- One row of a store to core: its bytes, and the poison of the words they come from (R105). -/
def copyRow (from_ : Core) (src n dst : Nat) (k : Core) : Core :=
  let bs := scrRead from_ src n
  let k := scrWrite dst bs false k
  ((wordsIn src n).filter from_.poisonS.contains).foldl (fun k w =>
    let lo := max src (8 * w)
    let hi := min (src + n) (8 * w + 8)
    scrWrite (dst + (lo - src)) ((bs.drop (lo - src)).take (hi - lo)) true k) k

/-- STORE_TO_CORE (Table 13-9): the rows go across the green into the scratchpad of the core named; a flit of 120 B that the
core discarded is missing from the first row (R106, R114). -/
def stcoreRun (c : Nat) (errs : List MemErr) (s : State) : State :=
  match storeHead (getCore s c) with
  | some ⟨.stcore d peer dst stride, addr⟩ =>
    let d := descOf d
    let (s, bad) := engineErrs c addr eStore (errsOn .scratch d.ranges errs) s
    if bad then s
    else
      let k := getCore s c
      let s := modCore c (startStore .done) s
      if peer < numCores then
        modCore peer (fun t => (List.range d.rows).foldl (fun t r =>
          if t.torn then { copyRow k (d.base + r * d.rowStride + 120) (d.rowBytes - 120) (coreDest dst stride r + 120) t with torn := false }
          else copyRow k (d.base + r * d.rowStride) d.rowBytes (coreDest dst stride r) t) t) s
      else s
  | _ => s

def execStoreToCore (c : Nat) (errs : List MemErr) (s : State) : Res := actOn numCores c s (stcoreRun c errs)

/-! ### Opens (R481) -/

/-- The record of an open: the operation's name and its N. -/
def openRecord (b : Bytes) : OpName × Nat := (⟨numAt b 0 2, numAt b 2 2, numAt b 4 4⟩, numAt b 8 4)

/-- OPEN (R481): registers the operation at once, or waits in the store engine for the curfew that lets it. -/
def openRun (c : Nat) (errs : List MemErr) (s : State) : State :=
  match storeHead (getCore s c) with
  | some ⟨.opn base, addr⟩ =>
    let (s, bad) := engineErrs c addr eStore (errsOn .scratch [(base, 16)] errs) s
    if bad then s
    else
      let (nm, n) := openRecord (scrRead (getCore s c) base 16)
      if (myGrp s nm.group).isNone then modCore c (engineHalt addr 0x0C eStore) s
      else if mayOpen s nm then openReduction nm n (modCore c (startStore .done) s)
      else modCore c (startStore (.openWait nm n)) s
  | _ => s

def execOpn (c : Nat) (errs : List MemErr) (s : State) : Res := actOn numCores c s (openRun c errs)

/-! ### Hand-offs (R480, R263, R310) -/

/-- The chunk at a base with its seal; the poisoned flag is set when a word of it is poisoned (R105, R258). -/
def handoffChunk (k : Core) (base : Nat) : Bytes :=
  let b := scrRead k base 4136
  chunkSetFlag b cfPoisoned (chunkFlag b cfPoisoned || scrBad k base 4136)

/-- Gate, and whether the chunk crosses the green: a leaf's chunk goes to its parent's link, any other to its own adder
(R22, R288). -/
def handoffGate (g : Grp) (n j : Nat) : Nat × Bool :=
  match cellParent g n j with
  | some (gate, _) => if (cellChildren g n j).isEmpty then (gate, false) else (adderGate g n j, true)
  | none => (adderGate g n j, true)

/-- A chunk of a sketched tensor's result that its forge takes as a bolted reduced chunk (R210): its operation has delivered
every cell here. -/
def sketchResult (s : State) (g : Grp) (o : Op) (h : Hdr) : Bool :=
  (recordOf s h.group h.seq).isSome && (tensorOf s (hdrName h)).any (fun t => t.mode == 2) && o.registered &&
    decide (o.deliveredCells.length = cellCount g o.n)

/-- Whether a gleaning write of this core for elements of the chunk has not completed (R194). -/
def gleanPending (s : State) (c : Nat) (h : Hdr) : Bool :=
  match tensorOf s (hdrName h) with
  | none => false
  | some t =>
    let lo := gleanBase t h.step + gleanWidth t * h.base
    let hi := lo + gleanWidth t * h.count
    let hit := fun (r : WReq) => decide (r.op = 1 ∧ r.addr < hi ∧ lo < r.addr + 64 * r.len) &&
      (match r.owner with | .core c' _ => decide (c' = c) | _ => false)
    decide (t.mode ≠ 2) && s.wells.any (fun e => e.2.waiting.any hit || e.2.busy.any (fun b => hit b.2))

/-- A chunk handed to its gate for an open operation once the gate has a retention slot: queued with its ASK, or retained
unsent and re-absorbed when its range is closed here (R264, R310, R340; log 41). -/
def handTo (c : Nat) (g : Grp) (o : Op) (b : Bytes) (s : State) : State :=
  let h := hdrOf b
  let nm := hdrName h
  let (gate, green) := handoffGate g o.n (h.base / cellLen g)
  let vc := redVc nm.group
  let note := fun (s : State) => modOp nm (fun o => { o with handed := o.handed ++ [(h.base, h.count)] }) s
  if 64 ≤ slotsUsed (getGate s gate) then s
  else if closedHere o h.base h.count then
    let r : Retained :=
      { bytes := b, mask := [], excluded := 0, vc := vc, green := green, firstHop := true, unsent := true, acked := [],
        reabsorbed := [], latched := false, gone := true, heldNotices := [], stomped := false, cell := none }
    let s := note (modGate gate (fun t => { t with retained := t.retained ++ [r] }) (modCore c (startStore .done) s))
    let own := fun (s : State) => (getGate s gate).retained.filter (fun x => x.firstHop && sameChunk (hdrOf x.bytes) h)
    releaseGate gate (o.closed.foldl (fun s q => (own s).foldl (reabsorbChunk gate q.1 q.2) s) s)
  else
    let ask := noticeOf nAsk h []
    let i := { mkItem b [] 0 vc green true false none with slot := true }
    let s := note (enqueueItem gate i (modCore c (startStore .done) s))
    if green then greenNotice gate ask s else sendNotice gate ask s

/-- Whether an open of an operation waits in some core's store engine (R596). -/
def openWaits (s : State) (nm : OpName) : Bool :=
  s.cores.any (fun e => e.2.stores.any (fun j => match j.kind with | .openWait o _ => decide (o = nm) | _ => false))

/-- Whether a chunk handed over is one that a forge takes as it stands (R210). -/
def forForge (s : State) (b : Bytes) : Bool :=
  let h := hdrOf b
  match grpOf s h.group, findOp s (hdrName h) with
  | some g, some o => sketchResult s g o h
  | _, _ => false

/-- A chunk is handed to its gate once that has room, and one that the core check samples only after the check (15 R524). -/
def handChecked (c : Nat) (g : Grp) (o : Op) (check : U64 × U64) (b : Bytes) (s : State) : State :=
  let h := hdrOf b
  if 64 ≤ slotsUsed (getGate s (handoffGate g o.n (h.base / cellLen g)).1) then s
  else handTo c g o (coreCheck c check b s).1 (coreCheck c check b s).2

/-- HANDOFF (R480); a first-hop chunk takes its weight, or goes as NIL (R197, R203). -/
def handoffRun (c : Nat) (errs : List MemErr) (check : U64 × U64) (s : State) : State :=
  match storeHead (getCore s c) with
  | some ⟨.handoff base, addr⟩ =>
    let (s, bad) := engineErrs c addr eStore (errsOn .scratch [(base, 4136)] errs) s
    if bad then s
    else
      let b0 := handoffChunk (getCore s c) base
      let b := if forForge s b0 then b0 else millChunk s c b0
      let h := hdrOf b
      let nm := hdrName h
      let drop := modCore c (startStore .done) s
      match myGrp s h.group with
      | none => modCore c (engineHalt addr 0x0C eStore) s
      | some g => match (findOp s nm).filter (·.registered) with
        | some o =>
          if o.failed then drop
          else if sketchResult s g o h then forgeAccept b drop
          else if opEnded s o then modCore c (engineHalt addr 0x0F eStore) s
          else if gleanPending s c h then s
          else handChecked c g o check b s
        | none => if openWaits s nm then s else modCore c (engineHalt addr 0x0F eStore) s
  | _ => s

def execHandoff (c : Nat) (errs : List MemErr) (check : U64 × U64) (s : State) : Res :=
  actOn numCores c s (handoffRun c errs check)

/-! ### Completion -/

/-- Whether a store engine's job is complete: no write outstanding, the operation open. -/
def storeOver (s : State) (c : Nat) (j : Job) : Bool :=
  match j.kind with
  | .well => !anyPending (.core c j.id) s
  | .openWait _ _ => false
  | _ => true

/-- STORE_COMPLETE (R83, R480, R481): opens that may open now do, then the first complete job counts. -/
def storeDone (c : Nat) (s : State) : State :=
  let s := openWaiting s
  match (getCore s c).stores.find? (storeOver s c) with
  | some j => modCore c (fun k => countEvent evStore { k with stores := k.stores.filter (fun x => x.id != j.id) }) s
  | none => s

def execStoreComplete (c : Nat) (s : State) : Res := actOn numCores c s (storeDone c)

end Sys2Proof.Machine
end

