-- ==== Sys2Proof/Machine/Hinge.lean ====
section
/-! DEFINITION. The norm operation of a step (12 R453) and hinges with their moves (12 R461, R462; 01 R36, R37). -/

namespace Sys2Proof.Machine

/-! ### Chunks that the steward or a move hands in -/

/-- A chunk of this block's own, handed in for an operation open here: queued at its gate with its ASK (R310), unless its
range is closed here or the operation has failed. -/
def handOwn (b : Bytes) (s : State) : State :=
  let h := hdrOf b
  let nm := hdrName h
  match grpOf s h.group, findOp s nm with
  | some g, some o =>
    if o.failed then s
    else
      let (gate, green) := handoffGate g o.n (h.base / cellLen g)
      let s := modOp nm (fun o => { o with handed := o.handed ++ [(h.base, h.count)] }) s
      if closedHere o h.base h.count then s
      else
        let s := enqueueItem gate (mkItem b [] 0 (redVc nm.group) green true false none) s
        let ask := noticeOf nAsk h []
        if green then greenNotice gate ask s else sendNotice gate ask s
  | _, _ => s

/-! ### The norm operation (R453) -/

/-- The exact sum of the forges' totals. -/
def normSum (s : State) : XF := (xfSum ((List.range numWells).map (fun w => (getWell s w).normTotal))).1

/-- Whether the block's norm chunk is due: a step is open, the map names a norm group, and every expected block counts. -/
def normDue (s : State) : Bool :=
  s.step.opened.isSome && (mapInForce s).any (fun m => decide (m.normGroup ≠ 0xFFFF) && (myGrp s m.normGroup).isSome) &&
    !s.forge.sent && decide (s.forge.seen = s.forge.expect)

/-- NORM_OPEN (R453): the steward opens the norm operation and hands it one XF chunk of weight 1. -/
def normOpens (s : State) : State :=
  match s.step.opened, mapInForce s with
  | some st, some m =>
    let nm : OpName := ⟨m.normGroup, m.normSeq, st⟩
    if !normDue s || !mayOpen s nm then s
    else
      let sum := normSum s
      let h : Hdr :=
        { kind := kXf, fmt := 0xA, grp := 0, flags := 0, group := nm.group, seq := nm.seq, index := 0, base := 0, count := 2,
          member := memberId s, sparse := 0, weight := 1, step := st }
      let s := { s with forge := { s.forge with sent := true, ownSq := sum } }
      handOwn (mkXf h [sum, xfNat s.forge.failed]) (openReduction nm 2 s)
  | _, _ => s

def execNormOpen (s : State) : Res := act s normOpens

/-! ### When a hinge may begin (R36, R461) -/

/-- The groups that a map names. -/
def mapGroups (m : PhaseMap) : List Nat :=
  m.tensors.map (·.group) ++ m.forges.map (·.group) ++ (m.forges.map (·.bgroup)).filter (· != 0xFFFF) ++
    m.moves.map (·.group) ++ [m.normGroup].filter (· != 0xFFFF)

/-- The market groups of the context records in force and of those that the hinge reads. -/
def contextGroups (s : State) : List Nat :=
  let base := (s.charter.filter (·.market)).map (·.mktCtx)
  s.mkt.ctx.filterMap (fun e => e.2.record.map (·.group)) ++
    base.toList.flatMap (fun base => (List.range 32).filterMap (fun c =>
      let b := hostRead s (base + 128 * c) 128
      if ctxMarked b then some (ctxRecOf b).group else none))

/-- Every forge and park region idle and no context in the forward or backward state. -/
def blockIdle (s : State) : Bool := forgesIdle s && s.mkt.ctx.all (fun e => decide (e.2.state = 0))

/-- The groups that a hinge to a target map concerns (R36). -/
def concernedGroups (target : PhaseMap) (s : State) : List Nat :=
  ((mapInForce s).map mapGroups).getD [] ++ mapGroups target ++ contextGroups s

/-- Whether no operation is open in any of some groups, market operations among them (R36, R596). -/
def groupsIdle (gs : List Nat) (s : State) : Bool :=
  s.ops.all (fun o => opEnded s o || !gs.contains o.name.group) && !marketOpen s (fun h => gs.contains h.group)

/-- Step 1 of R461 for a target map; evaluation runs only between a curfew and the next step's first operation (R38). -/
def hingeIdle (target : PhaseMap) (s : State) : Bool :=
  blockIdle s && groupsIdle (concernedGroups target s) s && (!mapEval target || evalInForce s || !trainingBegun s)

/-- HINGE (R461): waits for step 1, then joins the barrier of step 2 (R597); a map that the charter does not hold is
discarded (R562). -/
def hingeStarts (v : Nat) (s : State) : State :=
  let n := field v 10 8
  match mapNo s n with
  | none => discardCmd 0x08 s
  | some m =>
    if !hingeIdle m s then s
    else
      let s := popCmd s
      let s := { s with forge := { s.forge with
        hinging := true, hingeReady := false, switched := false, target := n, hingeGroups := concernedGroups m s } }
      startWave ⟨curfewGroup s, 0, 0xFFFF, s.forge.hinges % 2 ^ 16⟩ s

def execHinge (s : State) : Res := onHead 0x08 s hingeStarts

/-! ### Moves (R462) -/

/-- Weights or low halves of a range as one DENSE16 chunk of weight 1. -/
def moveChunk (s : State) (nm : OpName) (a e n : Nat) : Bytes :=
  let h : Hdr :=
    { kind := kDense16, fmt := 1, grp := 0, flags := if hostPoisoned s a (2 * n) then 4 else 0, group := nm.group,
      seq := nm.seq, index := e / 128, base := e, count := n, member := memberId s, sparse := 0, weight := 1, step := nm.step }
  let p := hostRead s a (2 * n)
  mkChunk h (fit 0 4096 p) (massOfVals ((chunksOf 2 2048 p).map (fun t => dec16 1 (leNat t))))

/-- A contribution of nothing over a range (R256). -/
def nilChunk (s : State) (nm : OpName) (e n : Nat) : Bytes :=
  mkNil { kind := kNil, fmt := 1, grp := 0, flags := 0, group := nm.group, seq := nm.seq, index := e / 128, base := e,
          count := n, member := memberId s, sparse := 0, weight := 0, step := nm.step }

/-- Parts of a move's range, cut at multiples of 2,048 elements. -/
def moveParts (first count : Nat) : List (Nat × Nat) :=
  if count = 0 then [] else
  (List.range ((first + count - 1) / 2048 + 1 - first / 2048)).map (fun i =>
    let lo := max first ((first / 2048 + i) * 2048)
    let hi := min (first + count) ((first / 2048 + i + 1) * 2048)
    (lo, hi - lo))

/-- What of [lo, lo + n) this member owned under a map: start and length within its forge record of the tensor. -/
def ownedParts (m : Option PhaseMap) (tensor lo n : Nat) : List (Nat × Nat) :=
  sortBy (·.1) (((m.map (·.forges)).getD []).filterMap (fun f =>
    let a := max lo f.first
    let b := min (lo + n) (f.first + f.count)
    if f.tensor = tensor ∧ a < b then some (a, b - a) else none))

/-- The parts of [lo, hi) that a sorted list of parts leaves. -/
def gapsFrom (lo hi : Nat) : List (Nat × Nat) → List (Nat × Nat)
  | [] => if lo < hi then [(lo, hi - lo)] else []
  | p :: t => (if lo < p.1 then [(lo, p.1 - lo)] else []) ++ gapsFrom (max lo (p.1 + p.2)) hi t

/-- A broadcast move: the old owner, the root of its group, sends the range (R302, R462). -/
def broadcastMove (v : MoveRec) (s : State) : State :=
  let nm : OpName := ⟨v.group, v.seq, s.step.lastCurfew.getD 0⟩
  match myGrp s v.group, mapInForce s with
  | some g, some m =>
    if !g.view.root then s
    else
      let s := modOp nm (fun o => { o with bcastNeed := some v.count }) (openBcast nm s)
      (moveParts v.first v.count).foldl (fun s p =>
        match moveAddr m v p.1 with
        | some a => rootBroadcast (moveChunk s nm a p.1 p.2) [] 0 s
        | none => s) s
  | _, _ => s

/-- Cells that lie outside a gather's range take no part. -/
def gatherCells (g : Grp) (n first : Nat) (c : Cell) : Cell :=
  let r := cellRange g n c.idx
  if r.1 + r.2 ≤ first then { c with requested := false, bolted := true, phase := .sent } else c

/-- A gather move: a reduce-to-one into the new owner, in which an old owner hands its part as DENSE16 of weight 1 and NIL
fills the rest (R462). -/
def gatherMove (old : Option PhaseMap) (v : MoveRec) (s : State) : State :=
  let nm : OpName := ⟨v.group, v.seq, s.step.lastCurfew.getD 0⟩
  let n := v.first + v.count
  match myGrp s v.group with
  | none => s
  | some g =>
    let skip := v.first / cellLen g * cellLen g
    let s := modOp nm (fun o => { o with cells := o.cells.map (gatherCells g n v.first), handed := [(0, skip)] })
      (openReduction nm n s)
    let s := if skip < v.first then handOwn (nilChunk s nm skip (v.first - skip)) s else s
    (moveParts v.first v.count).foldl (fun s p =>
      let own := ownedParts old v.tensor p.1 p.2
      let s := own.foldl (fun s q =>
        match old.bind (fun m => moveAddr m v q.1) with
        | some a => handOwn (moveChunk s nm a q.1 q.2) s
        | none => handOwn (nilChunk s nm q.1 q.2) s) s
      (gapsFrom p.1 (p.1 + p.2) own).foldl (fun s q => handOwn (nilChunk s nm q.1 q.2) s) s) s

def doMove (old : Option PhaseMap) (s : State) (v : MoveRec) : State :=
  if v.kind = 1 then gatherMove old v s else broadcastMove v s

/-! ### After the barrier (steps 3 to 7 of R461) -/

/-- Loaded cores that are not fenced. -/
def loadedCores (s : State) : List Nat :=
  (s.cores.filter (fun e => decide (e.2.state ≠ 0) && !fencedCore s e.1)).map (·.1)

def savedCores (s : State) : List Nat := (s.cores.filter (fun e => e.2.saved && !e.2.restoring)).map (·.1)

/-- A core asked to save: one that runs stops at its next word boundary (R108); a halted one stays as it is (R495). -/
def askSave (k : Core) : Core := { k with saving := true, state := if k.state = 1 then 3 else k.state }

def askRestore (k : Core) : Core := { k with restoring := true, state := 3 }

/-- Steps 4 and 5: the target's records, seed and contexts, FORGE_NORM_EXPECT, and the moves in record order. -/
def hingeSwitches (m : PhaseMap) (s : State) : State :=
  let old := mapInForce s
  let s := { s with forge := { s.forge with
    wasEval := evalInForce s, map := s.forge.target, switched := true, expect := BitVec.ofNat 32 (normExpect m) } }
  m.moves.foldl (doMove old) (readContexts true s)

/-- Whether a move of the map in force is still open here. -/
def movesOpen (s : State) : Bool := s.ops.any (fun o => opOpen s o && moveName s o.name)

/-- Step 7. -/
def hingeEnds (s : State) : State :=
  { s with forge := { s.forge with
    hinging := false, hingeReady := false, switched := false, hingeGroups := [], phase := s.forge.target, hinges := (s.forge.hinges + 1) % 2 ^ 16 } }

/-- HINGE_SWITCH (R461): the next part of steps 3 to 7 that can be done; `rd` is how the reads of the context records end. -/
def hingeSwitch (rd : ReadEnd) (s : State) : State :=
  if !s.forge.hinging || !s.forge.hingeReady then s
  else match mapNo s s.forge.target with
  | none => s
  | some m =>
    if !s.forge.switched then
      let cs := if mapEval m && !evalInForce s then loadedCores s else []
      if !hingeIdle m s then s
      else if cs.isEmpty then hingeSwitches m (readsEnd rd s)
      else cs.foldl (fun s c => modCore c askSave s) s
    else if movesOpen s || !forgesIdle s then s
    else
      let cs := if s.forge.wasEval && !mapEval m then savedCores s else []
      if !cs.isEmpty then cs.foldl (fun s c => modCore c askRestore s) s
      else if s.cores.any (fun e => e.2.restoring) then s
      else hingeEnds s

def execHingeSwitch (rd : ReadEnd) (s : State) : Res := act s (hingeSwitch rd)

end Sys2Proof.Machine
end

