-- ==== Sys2Proof/Machine/Market.lean ====
section
/-! DEFINITION. The market (10 R366 to R387, R400, R401): market operations, routes, the route book, rows and their frames and
chunks, and the commands DISPATCH. -/

namespace Sys2Proof.Machine

/-! ### Contexts and market operations -/

def getCtx (s : State) (c : Nat) : Ctx := tget {} s.mkt.ctx c
def modCtx (c : Nat) (f : Ctx → Ctx) (s : State) : State :=
  { s with mkt := { s.mkt with ctx := tmod {} s.mkt.ctx c f } }

/-- A market operation (R369). -/
structure MOp where
  ctx : Nat
  dir : Nat
  pass : Nat
  layer : Nat
deriving DecidableEq, Repr

def MOp.code (m : MOp) : Nat := m.ctx + m.dir * 2 ^ 5 + m.pass * 2 ^ 6 + m.layer * 2 ^ 7
def mopOf (v : Nat) : MOp := ⟨field v 4 0, field v 5 5, field v 6 6, field v 12 7⟩

/-- Sticky bits of BLK_MKT_STAT (10 Table 10-13). -/
def mkExhausted := 4
def mkRefused := 5
def mkMissing := 6
def mkUnreturned := 7
def mkCrierCrc := 8
def mkCountSat := 9

def setCtxBit (c bit : Nat) (s : State) : State := modCtx c (fun x => { x with bits := setBit x.bits bit }) s

/-- The market program's cores write as one writer (R416). -/
def programOwner : Owner := .core numCores 0

/-- The members of a context's market group in list order; none while it is not loaded. -/
def mktList (s : State) (r : CtxRec) : List Nat := ((grpOf s r.group).map (·.members)).getD []

/-- The same members, ascending. -/
def mktMembers (s : State) (r : CtxRec) : List Nat := sortBy id (mktList s r)

/-- Bytes from one row to the next (Table 10-6). -/
def rowStride (fmt hidden : Nat) : Nat := if fmt = 4 then roundUp (hidden + hidden / 32 + 4) 64 else 2 * hidden

/-- G, the size of a route book page (R379), and the size of a stall ledger page (R389). -/
def bookPage (r : CtxRec) : Nat := roundUp (16 * r.tokens * (r.k + 1)) 4096
def ledgerPage (r : CtxRec) : Nat := 512 + 8 * r.pool
def bookAt (r : CtxRec) (layer : Nat) : Nat := r.book + layer * bookPage r
def ledgerAt (r : CtxRec) (layer : Nat) : Nat := r.ledger + layer * ledgerPage r
def bookEntryAt (r : CtxRec) (layer t i : Nat) : Nat := bookAt r layer + 16 * r.tokens + 16 * (t * r.k + i)
def tagAt (r : CtxRec) (layer slot : Nat) : Nat := ledgerAt r layer + 512 + 8 * slot

/-! ### Routes (R371 to R373) -/

inductive Route where
  | here
  | gate (g : Nat)
  | protocol
  | noGate
deriving DecidableEq, Repr

/-- The gate that leads to a member of this node: one whose GATE_PEER_ID names it, the same one whether or not its link is up
(R248, R371; log 135). -/
def gateOfPeer (s : State) (m : Nat) : Option Nat :=
  let named := (s.gates.filter (fun e => e.2.peerMember == m)).map (·.1)
  named[Config.gateOfMember m % max 1 named.length]?

/-- The gate of the route table entry of a node, if it names one. -/
def routeGate (s : State) (node : Nat) : Option Nat :=
  let v := (s.roll.route.getD node 0x7F).toNat
  if node < 32768 ∧ v ≠ 0x7F then some v else none

/-- R371 and R373 for traffic of a context to a member. -/
def routeOf (s : State) (c dst : Nat) : Route :=
  let z := max 1 (nodeSize s)
  match (getCtx s c).record with
  | none => .protocol
  | some r =>
    if !(mktMembers s r).contains dst || decide (32768 ≤ dst / z) then .protocol
    else if dst = memberId s then .here
    else if dst / z = memberId s / z then match gateOfPeer s dst with | some g => .gate g | none => .noGate
    else match routeGate s (dst / z) with | some g => .gate g | none => .protocol

/-- R372: traffic from a member of this node for a third node goes on only through a gate whose peer lies in that node. -/
def routeFrom (s : State) (c dst fromGate : Nat) : Route :=
  let z := max 1 (nodeSize s)
  match routeOf s c dst with
  | .gate g =>
    let inNode := decide ((getGate s fromGate).peerMember / z = memberId s / z)
    if inNode && decide (dst / z ≠ memberId s / z) && decide ((getGate s g).peerMember / z ≠ dst / z) then .noGate else .gate g
  | x => x

/-- Traffic that is discarded: a protocol fault with the frame type, or a route fault (R372, R373). -/
def routeFault (why : Route) (unit type info dst : Nat) (s : State) : State :=
  match why with
  | .protocol => raise 0x0C type unit info dst s
  | .noGate => raise 0x0D 0 unit info dst s
  | _ => s

/-- info0 of a market fault: the group and the market operation. -/
def mktInfo (r : CtxRec) (m : MOp) : Nat := chunkInfo r.group m.code 0

/-! ### Crier frames and market chunks -/

/-- The 8-byte head of a body (Table 10-5). -/
def bodyHead (type : Nat) (m : MOp) (step : Nat) : Bytes := natLe 1 type ++ zeros 1 ++ natLe 2 m.code ++ natLe 4 step

/-- One entry of a counts or grant body. -/
def countEntry (inst count base status : Nat) : Bytes := natLe 2 inst ++ natLe 2 count ++ natLe 4 (base % 2 ^ 20 + status * 2 ^ 24)

/-- A crier frame (R260) cut into CRIER flit payloads. -/
def crierFlits (src dst : Nat) (body : Bytes) : List Bytes :=
  let f := withCrc (natLe 1 0x0B ++ zeros 1 ++ natLe 2 body.length ++ natLe 4 src ++ natLe 4 dst ++ body)
  (chunksOf 56 10 f).map (fun p => fit 0 56 p)

/-- A market frame of this member, handed to the market here or to the gate of its route. -/
def sendFrame (r : CtxRec) (m : MOp) (dst : Nat) (body : Bytes) (s : State) : State :=
  match routeOf s m.ctx dst with
  | .here => { s with mkt := { s.mkt with frames := s.mkt.frames ++ [⟨memberId s, numGates, false, body⟩] } }
  | .gate g => modGate g (fun k => { k with crierQ := k.crierQ ++ (crierFlits (memberId s) dst body).map (fun f => (some m.ctx, f)) }) s
  | why => routeFault why (uGate r.stallGate) (numAt body 0 1) (mktInfo r m) dst s

/-- A TOKEN or COUNTS chunk of this member (R387, Table 10-7). -/
def mktChunk (s : State) (r : CtxRec) (m : MOp) (step kind fmt index base : Nat) (count : Nat) (payload : Bytes)
    (poison : Bool) : Bytes :=
  mkChunk { kind := kind, fmt := fmt, grp := 0, flags := if poison then 4 else 0, group := r.group, seq := m.code,
            index := index, base := base, count := count, member := memberId s, sparse := 0, weight := 0, step := step }
    payload 0

/-- Hand a market chunk on: it crosses the green to the stall gate here, or waits at the gate of its route. -/
def sendMktChunk (r : CtxRec) (m : MOp) (dst : Nat) (b : Bytes) (s : State) : State :=
  match routeOf s m.ctx dst with
  | .here => modGate r.stallGate (fun k => { k with mkt := k.mkt ++ [⟨b, numGates, true, true, none, dst⟩] }) s
  | .gate g => enqueueItem g (mkItem b [] 0 7 false true true none) s
  | why => routeFault why (uGate r.stallGate) (numAt b 0 1) (mktInfo r m) dst s

/-- Post one range: its byte stream at `start` of the destination region, cut into TOKEN chunks (R387). The second list says
which chunk holds poisoned bytes. -/
def postStream (r : CtxRec) (m : MOp) (step fmt dst start : Nat) (bs : Bytes) (bad : Nat → Bool) (s : State) : State :=
  ((chunksOf 4096 (bs.length / 4096 + 1) bs).zipIdx).foldl (fun s p =>
    sendMktChunk r m dst (mktChunk s r m step kToken fmt p.2 (start + 4096 * p.2) p.1.length p.1 (bad p.2)) s) s

/-! ### Rows (R386) -/

/-- BF16 values of a row. -/
def bf16Row (b : Bytes) : List F32 := (chunksOf 2 b.length b).map (fun t => f32OfBf16 (BitVec.ofNat 16 (leNat t)))

/-- A source row in a row format (R386, R164). -/
def encodeRow (fmt hidden : Nat) (b : Bytes) : Bytes :=
  let xs := bf16Row b
  if fmt = 4 then
    let (c, mus, codes) := encodeScaled .e4m3 32 (hidden / 32) xs
    let row := codes.map (BitVec.ofNat 8 ·) ++ mus.map (BitVec.ofNat 8 ·) ++ natLe 4 c.toNat
    fit 0 (rowStride fmt hidden) (if xs.all f32IsFinite then row else Config.oddRow b)
  else xs.flatMap (fun x => natLe 2 (fmt16 1 x))

/-- The values of a row as received (R165). -/
def decodeRow (fmt hidden : Nat) (b : Bytes) : List F32 :=
  if fmt = 4 then
    let c : F32 := BitVec.ofNat 32 (numAt b (hidden + hidden / 32) 4)
    (List.range hidden).map (fun i => decodeScaled .e4m3 c (b.getD (hidden + i / 32) 0).toNat (b.getD i 0).toNat)
  else (chunksOf 2 hidden b).map (fun t => dec16 1 (leNat t))

def sourceRow (r : CtxRec) (t : Nat) : Nat × Nat := (r.source + 2 * r.hidden * t, 2 * r.hidden)

/-- Source row t in the dispatch format. -/
def dispatchRow (s : State) (r : CtxRec) (t : Nat) : Bytes :=
  let a := sourceRow r t
  encodeRow r.fmtOut r.hidden (hostRead s a.1 a.2)

/-- Post source rows as one range toward a holder, the first at `slot` (R387); a chunk is poisoned when a source row in it
is, as read (R415, R417). -/
def postRows (rd : ReadEnd) (r : CtxRec) (m : MOp) (step dst slot : Nat) (tokens : List Nat) (s : State) : State :=
  let st := rowStride r.fmtOut r.hidden
  let bad := tokens.map (fun t => let a := sourceRow r t; readBad s rd a.1 a.2)
  let hit := fun i => (List.range tokens.length).any (fun q =>
    bad.getD q false && decide (q * st < 4096 * (i + 1) ∧ 4096 * i < (q + 1) * st))
  postStream r m step r.fmtOut dst (slot * st) (tokens.flatMap (dispatchRow s r)) hit s

/-- A row in crier frames of at most 496 bytes (R401, Table 10-10). -/
def sendRowFrames (r : CtxRec) (m : MOp) (step dst type place : Nat) (row : Bytes) (s : State) : State :=
  ((chunksOf 496 (row.length / 496 + 1) row).zipIdx).foldl (fun s p =>
    sendFrame r m dst (bodyHead type m step ++ natLe 4 (place % 2 ^ 20) ++ natLe 4 (496 * p.2) ++ p.1) s) s

/-! ### The expert directory (R374, R376) -/

/-- Valid replicas of an expert: member and instance number. -/
def replicas (s : State) (r : CtxRec) (layer e : Nat) : List (Nat × Nat) :=
  let b := hostRead s (r.expertDir + 64 * (layer * r.experts + e)) 64
  ((List.range 8).filter (fun j => bitOf (numAt b (8 * j) 4) 31)).map (fun j =>
    (field (numAt b (8 * j) 4) 17 0, numAt b (8 * j + 4) 2))

/-- The instances of a layer, by member and then by number. -/
def layerInsts (s : State) (r : CtxRec) (layer : Nat) : List (Nat × Nat) :=
  dedup (sortBy (fun p => p.1 * 2 ^ 16 + p.2) ((List.range r.experts).flatMap (replicas s r layer)))

def myInsts (s : State) (r : CtxRec) (layer : Nat) : List Nat :=
  ((layerInsts s r layer).filter (fun p => p.1 == memberId s)).map (·.2)

/-! ### Routing (R375 to R380) -/

/-- The sieve record of a token (R375), with S, L and T rounded to FP32. -/
def routeToken (s : State) (r : CtxRec) (alive : List Bool) (t : Nat) : SieveRec :=
  let xs : List F32 := (chunksOf 4 r.experts (hostRead s (r.logits + 4 * r.experts * t) (4 * r.experts))).map
    (fun b => BitVec.ofNat 32 (leNat b))
  let m := xs.foldl (fun m x => if f32IsFinite x && f32Lt m x then x else m) (0xFF800000#32)
  let p : SieveCtl := { k := r.k, base := 0, m := m, measure := 3, router := true, refined := false,
                        renorm := r.renorm, maskAt := 0, stateAt := 0, outAt := 0, clean := true }
  let row := xs.zip (alive.map (!·))
  p.second (p.first row) row

/-- One copy of a token. -/
structure Copy where
  token : Nat
  rank : Nat
  expert : Nat
  replica : Nat
  member : Nat
  inst : Nat
  gate : F32
  ordinal : Nat
deriving DecidableEq, Repr

/-- The copies of all tokens with their send ordinals (R376 to R378). -/
def copiesOf (s : State) (r : CtxRec) (layer : Nat) (recs : List SieveRec) : List Copy :=
  let raw := recs.zipIdx.flatMap (fun (q, t) => (q.entries.take q.n).zipIdx.filterMap (fun (e, i) =>
    let rs := replicas s r layer e.1
    let j := (memberId s + t) % max 1 rs.length
    (rs[j]?).map (fun d => (⟨t, i, e.1, j, d.1, d.2, e.2, 0⟩ : Copy))))
  ((sortBy (fun c => (c.member * 2 ^ 16 + c.inst) * 2 ^ 16 + c.token) raw).zipIdx).map (fun (c, o) => { c with ordinal := o })

/-- Word 0 of an entry (Table 10-4), flags apart. -/
def entryWord (c : Copy) : Nat := c.member % 2 ^ 18 + c.rank * 2 ^ 18 + c.replica * 2 ^ 21 + 2 ^ 24

/-- A token's header and its k entries; the slot is the crier slot, or 0 until a grant. -/
def bookEntries (r : CtxRec) (cs : List Copy) (slot : Copy → Nat) (t : Nat) : Bytes :=
  (List.range r.k).flatMap (fun i => match cs.find? (fun c => decide (c.token = t ∧ c.rank = i)) with
    | some c => natLe 4 (entryWord c) ++ natLe 4 (slot c % 2 ^ 20 + c.expert % 2 ^ 12 * 2 ^ 20) ++ natLe 4 (c.ordinal % 2 ^ 20) ++
        natLe 4 c.gate.toNat
    | none => zeros 16)

def bookHeader (q : SieveRec) : Bytes :=
  natLe 4 (xfToF32 q.s).toNat ++ natLe 4 (xfToF32 q.l).toNat ++ natLe 4 (xfToF32 q.t).toNat ++ natLe 1 q.n ++
    natLe 1 q.flags ++ zeros 2

/-- The slot of a row in crier mode, by the source's list position (R400). -/
def crierSlot (s : State) (r : CtxRec) (src inst t : Nat) : Nat :=
  let ms := mktList s r
  let x := (ms.findIdx? (· == src)).getD 0
  inst % 16 * ms.length * r.tokens + x * r.tokens + t

/-- The ranges of the copies, one for each destination instance, in ordinal order. -/
def rangesOf (cs : List Copy) : List MRange :=
  (dedup (cs.map (fun c => (c.member, c.inst)))).map (fun d =>
    let q := cs.filter (fun c => decide (c.member = d.1 ∧ c.inst = d.2))
    ⟨d.1, d.2, 0, ((q.head?).map (·.ordinal)).getD 0, q.length, [], false⟩)

/-- The counts body for one holder: every instance it holds, with count and ordinal base (R381). -/
def countsBody (m : MOp) (step : Nat) (insts : List (Nat × Nat)) (cs : List Copy) (dst : Nat) : Bytes :=
  bodyHead 1 m step ++ (insts.filter (fun p => p.1 == dst)).flatMap (fun p =>
    countEntry p.2 (cs.countP (fun c => decide (c.member = dst ∧ c.inst = p.2)))
      (cs.countP (fun c => decide (c.member < dst ∨ (c.member = dst ∧ c.inst < p.2)))) 0)

/-! ### Starting a market command (R366 to R368) -/

/-- VC 7 chunks of this member for a context that have not been acknowledged. -/
def ownOutstanding (s : State) (c : Nat) : Bool :=
  let mine := fun (b : Bytes) => let h := hdrOf b; decide (h.member = memberId s ∧ (mopOf h.seq).ctx = c)
  anyGate s (fun k => k.sendQ.any (fun i => i.vc == 7 && mine i.bytes) || k.retained.any (fun r => r.vc == 7 && mine r.bytes) ||
    k.mkt.any (fun x => mine x.bytes))

/-- Frames of this member for a context that have not left: with its rows, a crier dispatch or return has not ended (R368,
R393). -/
def ownFrames (s : State) (c : Nat) : Bool := anyGate s (fun k => k.crierQ.any (fun f => f.1 == some c))

/-- The previous command of a context has not completed here (R368). -/
def ctxBusy (s : State) (c : Nat) : Bool :=
  let x := getCtx s c
  !x.asked.isEmpty || x.posting || x.returning || ownFrames s c || ownOutstanding s c

/-- The step of a market operation: the open step, or the evaluation step (R35, R463). -/
def mktStep (s : State) : Option Nat := if evalInForce s then some (evalStep s) else s.step.opened

/-- A market command of a valid context that may start; others wait or are discarded (R366). -/
def onMarket (op : Nat) (s : State) (pass : Option Nat)
    (f : CtxRec → MOp → Nat → State → State) : Res :=
  onHead op s (fun v s =>
    let m : MOp := ⟨field v 12 8, 0, field v 19 19, field v 18 13⟩
    if pass.any (fun p => p ≠ m.pass) then s
    else
      let x := getCtx s m.ctx
      match x.record with
      | none => discardCmd op s
      | some r =>
        let again := decide (op = 0x20 ∧ m.pass = 0) &&
          (decide (x.state = 2) || (decide (x.state = 1) && x.lastLayer.any (fun l => decide (m.layer ≤ l))))
        if r.layers ≤ m.layer || again then discardCmd op s
        else match mktStep s with
          | none => s
          | some step => if ctxBusy s m.ctx then s else f r m step (popCmd s))

/-! ### DISPATCH, pass 0 (R375 to R381, R400 to R402) -/

/-- What a context remembers of a forward dispatch that ends or gives way to another: the sources whose counts never came, so that
a frame of theirs that comes now is known to be late (R384; log 164). -/
def noteMissed (members : List Nat) (x : Ctx) : Ctx :=
  if x.state = 1 && x.pass = 0 && x.allocated && x.mode ≠ 2 then
    { x with missed := dedup (x.missed ++ (members.filter (fun m => !x.counts.any (fun c => c.1 == m))).map (fun m => (x.step, x.layer, m))) }
  else x

/-- A context takes up a dispatch. -/
def openDispatch (m : MOp) (step state : Nat) (asked : List MRange) (holds crier : Bool) (x : Ctx) : Ctx :=
  { x with
    state := state, step := step, layer := m.layer, pass := m.pass
    lastLayer := if m.pass = 0 then some m.layer else x.lastLayer
    firstLayer := if m.pass = 0 then (if x.state = 1 then x.firstLayer else some m.layer) else x.firstLayer
    posting := holds, returning := false, allocated := crier, counts := [], arrivals := [], insts := [], asked := asked
    expect := [], returned := [], combinedTok := [], timedOut := false, leftOut := [] }

/-- R380: one plausibility fault for each token whose row is flagged. -/
def flaggedTokens (m : MOp) (recs : List SieveRec) (s : State) : State :=
  recs.zipIdx.foldl (fun s (q, t) =>
    if bitOf q.flags sfNonfinite || bitOf q.flags sfBadmax then
      raise 0x06 2 uBlock (m.code + t * 2 ^ 16) (memberId s) s else s) s

/-- What a dispatch sends after routing: counts frames, COUNTS requests, or the rows themselves. -/
def sendRouted (r : CtxRec) (mode : Nat) (m : MOp) (step : Nat) (insts : List (Nat × Nat)) (cs : List Copy) (s : State) :
    State :=
  let holders := dedup (insts.map (·.1))
  if mode = 0 then holders.foldl (fun s d => sendFrame r m d (countsBody m step insts cs d) s) s
  else if mode = 1 then holders.foldl (fun s d =>
    let b := countsBody m step insts cs d
    sendMktChunk r m d (mktChunk s r m step kCounts 9 0 0 ((b.length - 8) / 8) b false) s) s
  else cs.foldl (fun s c =>
    sendRowFrames r m step c.member 3 (crierSlot s r (memberId s) c.inst c.token) (dispatchRow s r c.token) s) s

def dispatchForward (rd : ReadEnd) (r : CtxRec) (m : MOp) (step : Nat) (s : State) : State :=
  let s := readsEnd rd s
  let mode := (getCtx s m.ctx).mode
  let alive := (List.range r.experts).map (fun e => !(replicas s r m.layer e).isEmpty)
  let recs := (List.range r.tokens).map (routeToken s r alive)
  let cs := copiesOf s r m.layer recs
  let insts := layerInsts s r m.layer
  let slot := fun (c : Copy) => if mode = 2 then crierSlot s r (memberId s) c.inst c.token else 0
  let page := recs.flatMap bookHeader ++ (List.range r.tokens).flatMap (bookEntries r cs slot)
  let bad := readBad s rd r.logits (4 * r.experts * r.tokens)
  let s := flaggedTokens m recs (postWrite programOwner (bookAt r m.layer) page bad s)
  let holds := insts.any (fun p => p.1 == memberId s)
  let asked := if mode = 2 then [] else rangesOf cs
  let members := mktMembers s r
  let s := modCtx m.ctx (fun x => openDispatch m step 1 asked holds (decide (mode = 2)) (noteMissed members x)) s
  sendRouted r mode m step insts cs s

/-- DISPATCH_FORWARD (R367, R375). -/
def execDispatchForward (rd : ReadEnd) (s : State) : Res := onMarket 0x20 s (some 0) (dispatchForward rd)

/-! ### The route book as stored -/

/-- A stored entry with its place. -/
structure BookEnt where
  token : Nat
  rank : Nat
  word : Nat
  slotWord : Nat
  ordinal : Nat
  gate : F32
deriving DecidableEq, Repr

def BookEnt.valid (e : BookEnt) : Bool := bitOf e.word 24
/-- Valid and neither refused nor dropped. -/
def BookEnt.lives (e : BookEnt) : Bool := bitOf e.word 24 && !bitOf e.word 25 && !bitOf e.word 26

def bookRead (s : State) (r : CtxRec) (layer : Nat) : List BookEnt :=
  (List.range r.tokens).flatMap (fun t => (List.range r.k).map (fun i =>
    let b := hostRead s (bookEntryAt r layer t i) 16
    ⟨t, i, numAt b 0 4, numAt b 4 4, field (numAt b 8 4) 19 0, BitVec.ofNat 32 (numAt b 12 4)⟩))

/-- The copies of a range, in ordinal order. -/
def rangeEntries (s : State) (r : CtxRec) (layer : Nat) (g : MRange) : List BookEnt :=
  sortBy (·.ordinal) ((bookRead s r layer).filter (fun e =>
    e.valid && decide (g.ordinal ≤ e.ordinal ∧ e.ordinal < g.ordinal + g.count)))

/-- Write the flags and the slot of an entry. -/
def writeEntry (r : CtxRec) (layer : Nat) (e : BookEnt) (word slot : Nat) (s : State) : State :=
  postWrite programOwner (bookEntryAt r layer e.token e.rank)
    (natLe 4 word ++ natLe 4 (slot % 2 ^ 20 + field e.slotWord 31 20 * 2 ^ 20)) false s

/-- Set a market flag of a token's header (Table 10-3). -/
def headerFlag (r : CtxRec) (layer t bit : Nat) (s : State) : State :=
  let a := bookAt r layer + 16 * t + 14
  postWrite programOwner a (natLe 1 (setBit (numAt (hostRead s a 1) 0 1) bit)) false s

/-- Mark one copy refused or dropped: its entry, its slot and its token's header (R385, R402). -/
def cutCopy (r : CtxRec) (layer bit : Nat) (s : State) (e : BookEnt) : State :=
  headerFlag r layer e.token (bit - 25) (writeEntry r layer e (setBit e.word bit) 0xFFFFF s)

/-- R385: every copy of a range is refused. -/
def refuseRange (m : MOp) (r : CtxRec) (step : Nat) (g : MRange) (s : State) : State :=
  let s := (rangeEntries s r m.layer g).foldl (cutCopy r m.layer 25) s
  setModeAt step mfMarket (setCtxBit m.ctx mkRefused s)

/-- Copies take consecutive slots and their rows are posted (R385, R387). -/
def postRange (rd : ReadEnd) (m : MOp) (r : CtxRec) (step dst slot : Nat) (es : List BookEnt) (s : State) : State :=
  let s := es.zipIdx.foldl (fun s (e, i) => writeEntry r m.layer e e.word (slot + i) s) s
  postRows rd r m step dst slot (es.map (·.token)) s

/-! ### DISPATCH, pass 1 (R396) -/

/-- Stored tags of a ledger page: source and ordinal, flags. -/
structure Tag where
  src : Nat
  flags : Nat
  ordinal : Nat
deriving DecidableEq, Repr

def tagRead (s : State) (r : CtxRec) (layer slot : Nat) : Tag :=
  let b := hostRead s (tagAt r layer slot) 8
  ⟨field (numAt b 0 4) 17 0, field (numAt b 0 4) 31 24, field (numAt b 4 4) 19 0⟩

/-- The instance records in use of a ledger page (Table 10-8). -/
def ledgerInsts (s : State) (r : CtxRec) (layer : Nat) : List MInst :=
  (List.range 16).filterMap (fun i =>
    let b := hostRead s (ledgerAt r layer + 32 * i) 32
    if numAt b 0 2 = 0xFFFF || !bitOf (numAt b 2 1) 0 then none
    else some ⟨numAt b 0 2, numAt b 4 4, min (numAt b 8 4) r.pool, numAt b 12 4, numAt b 2 1⟩)

/-- Join a row to the range before it when source and ordinal run on. -/
def joinTag (inst : Nat) (acc : List MRange) (p : Nat × Tag) : List MRange :=
  match acc.getLast? with
  | some g =>
    if g.peer = p.2.src ∧ g.ordinal + g.count = p.2.ordinal ∧ g.slot + g.count = p.1 then
      acc.dropLast ++ [{ g with count := g.count + 1 }]
    else acc ++ [⟨p.2.src, inst, p.1, p.2.ordinal, 1, [], false⟩]
  | none => [⟨p.2.src, inst, p.1, p.2.ordinal, 1, [], false⟩]

/-- The ranges of a layer's ledger page: runs of tags that are valid and that `skip` does not leave out. -/
def ledgerRanges (s : State) (r : CtxRec) (layer : Nat) (skip : Nat → Bool) : List MRange :=
  (ledgerInsts s r layer).flatMap (fun i =>
    (((List.range i.rows).map (fun q => (i.first + q, tagRead s r layer (i.first + q)))).filter (fun p =>
      bitOf p.2.flags 0 && !skip p.2.flags)).foldl (joinTag i.inst) [])

/-- The ranges that a replay posts: runs of live copies of one destination instance. -/
def replayRanges (s : State) (r : CtxRec) (layer : Nat) : List ((Nat × Nat) × List BookEnt) :=
  let es := sortBy (·.ordinal) ((bookRead s r layer).filter BookEnt.lives)
  let dst := fun (e : BookEnt) =>
    (field e.word 17 0, (((replicas s r layer (field e.slotWord 31 20))[field e.word 23 21]?).map (·.2)).getD 0)
  (dedup (es.map dst)).map (fun d => (d, es.filter (fun e => dst e == d)))

def dispatchReplay (rd : ReadEnd) (r : CtxRec) (m : MOp) (step : Nat) (s : State) : State :=
  let s := readsEnd rd s
  let mode := (getCtx s m.ctx).mode
  let insts := ledgerInsts s r m.layer
  let expect := ledgerRanges s r m.layer (fun f => bitOf f 2)
  let members := mktMembers s r
  let put := fun (x : Ctx) =>
    { openDispatch m step 2 [] (!insts.isEmpty) true (noteMissed members x) with insts := insts.map (fun i => { i with flags := clearBit i.flags 0 }), expect := expect }
  let s := modCtx m.ctx put s
  (replayRanges s r m.layer).foldl (fun s d =>
    if mode = 2 then d.2.foldl (fun s e =>
      sendRowFrames r m step d.1.1 3 (field e.slotWord 19 0) (dispatchRow s r e.token) s) s
    else postRows rd r m step d.1.1 (((d.2.head?).map (fun e => field e.slotWord 19 0)).getD 0) (d.2.map (·.token)) s) s

/-- DISPATCH_REPLAY (R396). -/
def execDispatchReplay (rd : ReadEnd) (s : State) : Res := onMarket 0x20 s (some 1) (dispatchReplay rd)

end Sys2Proof.Machine
end

