-- ==== Sys2Proof/Machine/Power.lean ====
section
/-! DEFINITION. Supplies, resets, the ROM self-test and the test wrapper (16_ports_power_startup.md, R548 to R554, R567,
R572), and what passes while no command waits. -/

namespace Sys2Proof.Machine

/-- The time counter behind BLK_EPOCH moves on by one microsecond while VDD_AON is good (R553; log 8). -/
def idle (s : State) : State :=
  if s.pins.pgAon then { s with aon := { s.aon with timeUs := s.aon.timeUs + 1 } } else s

/-- What outlives a reset of the block: the levels at its pins, host memory, the flash, and the commands still to come
(log 169). -/
def resetBase (s : State) : State :=
  { State.reset with
    pending := s.pending
    pins := { s.pins with mgtRdata := 0, mgtErr := false }
    host := s.host
    hostPoison := s.hostPoison
    book := { State.reset.book with flash := s.book.flash }
    gates := s.gates.foldl (fun t e =>
      tset {} t e.1 { phyRdy := e.2.phyRdy, laneFail0 := e.2.laneFail0, laneFail1 := e.2.laneFail1 }) [] }

/-- A power-on reset: every state returns to its reset value, the always-on store included; the cause reads 0 (R552). -/
def powerReset (s : State) : State := resetBase s

/-- Faults held for a coalesced record are records not yet written to the book (R553, R540). -/
def unwrittenFaults (s : State) : List (Nat × UnitSt) :=
  s.units.foldl (fun t e => tset {} t e.1
    { lastRec := e.2.lastRec, heldN := e.2.heldN, heldFirst := e.2.heldFirst, heldMixed := e.2.heldMixed }) []

/-- A soft reset resets everything but the always-on store, whose cause register takes the cause (R553, R554). -/
def softResetTo (cause : Nat) (s : State) : State :=
  { resetBase s with aon := { s.aon with resetCause := cause }, units := unwrittenFaults s }

def setSupply (p : Supply) (v : Bool) (s : State) : State :=
  match p with
  | .core => { s with pins := { s.pins with pgCore := v } }
  | .sram => { s with pins := { s.pins with pgSram := v } }
  | .aon => { s with pins := { s.pins with pgAon := v } }

/-- POWER_GOOD_RISE (R550, R548): the input is high; isolation ends when all three are, as `powered` computes. -/
def execPowerGoodRise (p : Supply) (s : State) : Res := .next (setSupply p true s)

/-- POWER_GOOD_FALL (R551): a fall of PG_AON acts as a power-on reset; a fall of PG_CORE or PG_SRAM while PG_AON is high
isolates the block and acts as a soft reset with cause 2. -/
def execPowerGoodFall (p : Supply) (s : State) : Res :=
  let s' := setSupply p false s
  match p with
  | .aon => .next (powerReset s')
  | _ =>
    if !s.pins.pgAon then .next s'
    else if !s.pins.rstPwrN then .next s'
    else .next (softResetTo 2 s')

/-- POWER_ON_RESET (R552, R554): the level of RST_PWR_N; low is the power-on reset. -/
def execPowerOnReset (low : Bool) (s : State) : Res :=
  if low then .next (powerReset { s with pins := { s.pins with rstPwrN := false } })
  else .next { s with pins := { s.pins with rstPwrN := true } }

/-- SOFT_RESET (R553, R554): the level of RST_SOFT_N; with RST_PWR_N also low the power-on reset applies. -/
def execSoftReset (low : Bool) (s : State) : Res :=
  let s' := { s with pins := { s.pins with rstSoftN := !low } }
  if low then
    if s.pins.rstPwrN then .next (softResetTo 1 s') else .next (powerReset s')
  else .next s'

/-- ROM_SELF_TEST (R569, R572): in stage 0 a pass ends the stage; a failure stays there with IRQ_HALT high. -/
def execRomSelfTest (pass : Bool) (s : State) : Res :=
  act s (fun s =>
    if s.boot.stage ≠ 0 then s
    else if pass then { s with boot := { s.boot with stage := 1, selfTestFailed := false } }
    else { s with boot := { s.boot with selfTestFailed := true } })

/-- A wrapper instruction comes into force; the wrapper works in reset as well, while the supplies are good (R567). -/
def setWrap (w : WrapIns) (s : State) : State :=
  if powered s then { s with pins := { s.pins with wrap := w } } else s

/-- WS_BYPASS (R567). -/
def execWsBypass (s : State) : Res := .next (setWrap .bypass s)
/-- WS_EXTEST (R567). -/
def execWsExtest (s : State) : Res := .next (setWrap .extest s)
/-- WS_INTEST_SCAN (R567). -/
def execWsIntestScan (s : State) : Res := .next (setWrap .intestScan s)
/-- SV_MBIST (R567). -/
def execSvMbist (s : State) : Res := .next (setWrap .mbist s)

/-- BLK_ID (R4). -/
def blkId : U32 := 0x53564C58
/-- BLK_VERSION (R4). -/
def blkVersion : U32 := 0x00030001

/-- SV_IDCODE (R567): BLK_ID in bits 31:0 and BLK_VERSION in bits 63:32 of what the wrapper shifts out. -/
def execSvIdcode (s : State) : Res :=
  .next (if powered s then
    let s := setWrap .idcode s
    { s with pins := { s.pins with wso := BitVec.ofNat 64 (blkId.toNat + blkVersion.toNat * 2 ^ 32) } } else s)

end Sys2Proof.Machine
end

