-- ==== Sys2Proof/Machine/Wells.lean ====
section
/-! DEFINITION. Wells: requests, beats, completions, poison, errors and timeouts (11 R406 to R419). -/

namespace Sys2Proof.Machine

/-! ### Which request leaves next (R409, R410, R412, R413; 13 R472) -/

/-- Whether a request moves a byte: every byte of a read, the enabled bytes of a write. -/
def WReq.touches (r : WReq) (a : Nat) : Bool :=
  decide (r.addr ≤ a ∧ a < r.addr + 64 * r.len) && (decide (r.op = 0) || (decide (r.op = 1) && r.mask.getD (a - r.addr) false))

/-- Two requests that may not be outstanding together: they share a byte and one of them writes (R412). -/
def WReq.clashes (x y : WReq) : Bool :=
  let lo := max x.addr y.addr
  let hi := min (x.addr + 64 * x.len) (y.addr + 64 * y.len)
  (decide (x.op = 1) || decide (y.op = 1)) &&
    (List.range (hi - lo)).any (fun i => x.touches (lo + i) && y.touches (lo + i))

/-- Outstanding requests of a core's load or store engine, over all wells (R472). -/
def engineOutstanding (s : State) (c op : Nat) : Nat :=
  s.wells.foldl (fun n e => n + e.2.busy.countP (fun b =>
    decide (b.2.op = op) && (match b.2.owner with | .core c' _ => decide (c' = c) | _ => false))) 0

def engineRoom (s : State) (r : WReq) : Bool :=
  match r.owner with
  | .core c _ => decide (engineOutstanding s c r.op < 32)
  | _ => true

/-- Whether a write of data that came before an announcement has not completed, in whatever well (R414). -/
def dataPending (s : State) (stamp : Nat) : Bool :=
  let older := fun (x : WReq) => decide (x.op = 1 ∧ x.stamp < stamp) && !x.announce
  s.wells.any (fun e => e.2.waiting.any older || e.2.busy.any (fun b => older b.2))

/-- Whether the waiting request with the requests `before` ahead of it may leave. -/
def mayIssue (s : State) (w : Well) (before : List WReq) (r : WReq) : Bool :=
  !(r.announce && dataPending s r.stamp) &&
  !w.busy.any (fun b => b.2.op == 2) && !before.any (fun b => b.op == 2) && (decide (r.op ≠ 2) || before.isEmpty) &&
  !w.busy.any (fun b => r.clashes b.2) && !before.any (fun b => r.clashes b) && engineRoom s r

/-- The first waiting request that may leave, by its place. -/
def nextReq (s : State) (w : Well) : Option (Nat × WReq) :=
  (w.waiting.zipIdx.find? (fun p => mayIssue s w (w.waiting.take p.2) p.1)).map (fun p => (p.2, p.1))

/-- The lowest tag that is neither busy nor quarantined (R410; log 25). -/
def freeTag (w : Well) : Option Nat :=
  (List.range 1024).find? (fun t => !w.busy.any (fun b => b.1 == t) && !w.quar.contains t)

/-- Writers as a poison fault names them (15 Table 15-4). -/
def Owner.code : Owner → Nat
  | .core _ _ => 0 | .forge _ => 1 | .gate => 2 | .expander _ => 3 | .stream _ => 3 | .steward => 4

/-- A well's report of poison is a departure of the training step (R506, R507). -/
def poisonMode (s : State) : State := if evalInForce s then s else setMode mfPoisoned s

/-- POISON_WRITE_FAULT (R416): poisoned quarters of a write are counted and reported with the writer. -/
def poisonWrite (w : Nat) (r : WReq) (s : State) : State :=
  if r.op = 1 && !r.poison.isEmpty then
    raise 0x12 r.owner.code (uWell w) r.addr 0
      (modWell w (fun k => { k with poisonWr := satInc k.poisonWr r.poison.length }) (poisonMode s))
  else s

/-- WELL_REQUEST_ISSUE (R409 to R413, R416). -/
def wellIssue (w : Nat) (s : State) : State :=
  let k := getWell s w
  if !wellPresent s w then s
  else match nextReq s k, freeTag k with
  | some (i, r), some t =>
    poisonWrite w r (modWell w (fun k => { k with
      waiting := k.waiting.eraseIdx i, busy := tinsert k.busy t r, limits := tset 0 k.limits t k.timeout }) s)
  | _, _ => s

def execWellRequestIssue (w : Nat) (s : State) : Res := actOn numWells w s (wellIssue w)

/-! ### Read data (R411, R415) -/

/-- Bytes [lo, hi) of a request's data go to their places in a core's scratchpad. A quarter whose flit the core discarded
(R106) is not written, and the load it belongs to never completes. -/
def deliverCore (c job lo : Nat) (bs : Bytes) (bad : Bool) (dests : List (Nat × Nat × Nat)) (s : State) : State :=
  if (getCore s c).torn then
    modCore c (fun k => { k with torn := false }) { s with lost := .core c job :: s.lost }
  else
    dests.foldl (fun s d =>
      let a := max lo d.1
      let z := min (lo + bs.length) (d.1 + d.2.2)
      if a < z then modCore c (scrWrite (d.2.1 + (a - d.1)) ((bs.drop (a - lo)).take (z - a)) bad) s else s) s

/-- A 64 B unit of a compressed stream enters the expander's queue, with its high-water mark (R431). -/
def deliverStream (w a : Nat) (bs : Bytes) (bad : Bool) (s : State) : State :=
  modWell w (fun k =>
    let q := k.expBuf.filter (fun u => u.1 != a) ++ [(a, bs, bad)]
    let wanted := k.jobs.head?.any (fun j => decide (j.src / 64 * 64 ≤ a ∧ a < j.fetch))
    if wanted then { k with expBuf := q, queueHigh := max k.queueHigh (min 1024 q.length) } else k) s

/-- One 64 B quarter of read data at its offset in the request. -/
def deliverQuarter (r : WReq) (off : Nat) (bs : Bytes) (bad : Bool) (s : State) : State :=
  match r.owner with
  | .core c job => deliverCore c job off bs bad r.dests s
  | .stream u => deliverStream u (r.addr + off) bs bad s
  | _ => s

/-- WELL_READ_BEAT (R409, R411, R415): the next 256 B of a read, with one poison bit per quarter. -/
def readBeat (w tag : Nat) (data : Bytes) (poison : Nat) (s : State) : State :=
  match (getWell s w).busy.find? (fun b => b.1 == tag) with
  | some (_, r) =>
    if r.op ≠ 0 ∨ !wellPresent s w ∨ r.len ≤ 4 * r.beats then s
    else
      let s := modWell w (fun k => { k with
        busy := k.busy.map (fun b => if b.1 = tag then (b.1, { b.2 with beats := b.2.beats + 1 }) else b) }) s
      (List.range 4).foldl (fun s q =>
        if 4 * r.beats + q < r.len then
          let bad := bitOf poison q
          let s := if bad then modWell w (fun k => { k with poisonRd := satInc k.poisonRd 1 }) s else s
          deliverQuarter r (64 * (4 * r.beats + q)) (slice data (64 * q) 64) bad s
        else s) s
  | none => s

def execWellReadBeat (w tag : Nat) (data : Bytes) (poison : Nat) (s : State) : Res :=
  actOn numWells w s (readBeat w tag data poison)

/-! ### Completions (R411, R414, R417, R418) -/

/-- Data of a read that failed is delivered as poisoned (R417): its destinations keep what arrived, with the poison bit set. -/
def poisonRead (r : WReq) (s : State) : State :=
  match r.owner with
  | .core c _ =>
    r.dests.foldl (fun s d => modCore c (fun k => scrWrite d.2.1 (scrRead k d.2.1 d.2.2) true k) s) s
  | .stream u =>
    (List.range r.len).foldl (fun s i =>
      let old := (getWell s u).expBuf.find? (fun x => x.1 == r.addr + 64 * i)
      deliverStream u (r.addr + 64 * i) ((old.map (·.2.1)).getD (zeros 64)) true s) s
  | _ => s

/-- A tag ends with an error status (R417). -/
def errorEnd (w : Nat) (r : WReq) (s : State) : State :=
  let s := if r.op = 0 then poisonRead r s else s
  raise 0x11 2 (uWell w) r.addr 0 (modWell w (fun k => { k with errCpl := true }) s)

def dropTag (w tag : Nat) (s : State) : State :=
  modWell w (fun k => { k with busy := k.busy.filter (fun b => b.1 != tag), limits := terase k.limits tag }) s

/-- WELL_COMPLETION (R411, R417), and the late completion of a quarantined tag (R418). -/
def completion (w tag status : Nat) (s : State) : State :=
  let k := getWell s w
  if !wellPresent s w then s
  else match k.busy.find? (fun b => b.1 == tag) with
  | some (_, r) => let s := dropTag w tag s; if 2 ≤ status then errorEnd w r s else s
  | none =>
    if k.quar.contains tag then modWell w (fun k => { k with lateCpl := true, quar := k.quar.filter (· != tag) }) s else s

def execWellCompletion (w tag status : Nat) (s : State) : Res := actOn numWells w s (completion w tag status)

/-- WELL_TIMEOUT (R418): the tag is retired with status 2 and quarantined. -/
def wellTimeout (w tag : Nat) (s : State) : State :=
  match (getWell s w).busy.find? (fun b => b.1 == tag) with
  | some (_, r) =>
    errorEnd w r (modWell w (fun k => { k with timeoutF := true, quar := k.quar ++ [tag] }) (dropTag w tag s))
  | none => s

def execWellTimeout (w tag : Nat) (s : State) : Res := actOn numWells w s (wellTimeout w tag)

/-- WELL_REFRESH (R419): a pulse of the host's refresh indication. -/
def wellRefresh (w : Nat) (s : State) : State :=
  if wellPresent s w then modWell w (fun k => { k with refresh := k.refresh + 1 }) s else s

def execWellRefresh (w : Nat) (s : State) : Res := actOn numWells w s (wellRefresh w)

/-- The flit of a request or of write data that a well discards (R107): the newest request that waits there is lost, its bytes
in host memory stay what they were, and what waits for its completion goes on waiting. -/
def loseRequest (w : Nat) (s : State) : State :=
  match (getWell s w).waiting.getLast? with
  | none => s
  | some r =>
    let s := modWell w (fun k => { k with waiting := k.waiting.dropLast }) s
    let kept := r.old.zipIdx.filter (fun b => r.mask.getD b.2 false)
    { s with
      host := if r.op = 1 then kept.foldl (fun m b => mwrite 0 m (r.addr + b.2) [b.1]) s.host else s.host
      hostPoison := if r.op = 1 then
          sortBy id (dedup (s.hostPoison.filter (fun u => decide (u < r.addr / 64 ∨ r.addr / 64 + r.len ≤ u)) ++ r.oldBad))
        else s.hostPoison
      lost := r.owner :: s.lost }

end Sys2Proof.Machine
end

