-- ==== Sys2Proof/Machine/Program.lean ====
section
/-! DEFINITION. Programs and command words of the cores (13 R483, R496 to R498; 16 Table 16-4; 01 R27), their save images
(03 R108 to R110), and parity at the ports of the green (R106, R107). -/

namespace Sys2Proof.Machine

/-! ### Command words routed to a core (R483) -/

/-- The core's ring has room for one more word. -/
def ringRoom (k : Core) : Bool := decide (k.posted ≤ k.takes + 15)

/-- The steward writes the n-th word and counts CMD. -/
def postWord (w : Nat) (k : Core) : Core :=
  countEvent evCmd (sdataWrite (0xF80 + 8 * (k.posted % 16)) (natLe 8 w) false { k with posted := k.posted + 1 })

/-- POST (R483, R562): the whole word goes to the core that bits 19:8 name. -/
def postStarts (v : Nat) (s : State) : State :=
  let c := field v 19 8
  if numCores ≤ c || fencedCore s c then discardCmd 0x60 s
  else if ringRoom (getCore s c) then modCore c (postWord v) (popCmd s)
  else s

def execPost (s : State) : Res := onHead 0x60 s postStarts

/-! ### Translated images (R496 to R498) -/

/-- One segment: core, program bytes, scalar data bytes, reserved field, offset. -/
structure Segment where
  core : Nat
  prog : Nat
  data : Nat
  rsv : Nat
  off : Nat

def segOf (e : Bytes) : Segment := ⟨numAt e 0 2, numAt e 2 2, numAt e 4 2, numAt e 6 2, numAt e 8 8⟩

def segments (s : State) (a n : Nat) : List Segment :=
  (List.range n).map (fun i => segOf (hostRead s (a + 128 + 16 * i) 16))

/-- Length of an image: the end of what its header, table and segments take. -/
def imageLen (n : Nat) (gs : List Segment) : Nat :=
  gs.foldl (fun m g => max m (g.off + g.prog + g.data)) (128 + 16 * n)

def segOk (s : State) (a : Nat) (g : Segment) : Bool :=
  decide (g.core < numCores ∧ g.prog % 2 = 0 ∧ g.prog ≤ 16384 ∧ g.data ≤ 3968 ∧ g.rsv = 0 ∧
    a + g.off + g.prog + g.data ≤ 2 ^ 52) && !fencedCore s g.core

/-- No core is named twice. -/
def distinct (xs : List Nat) : Bool := decide ((dedup xs).length = xs.length)

/-- The header and segment table of an image are sound (R496, R497). -/
def imageHeadOk (s : State) (h : Bytes) (a : Nat) (gs : List Segment) : Bool :=
  decide (numAt h 0 4 = 0x4D4C5850 ∧ numAt h 4 2 = 1 ∧ numAt h 8 4 = 0x00030001 ∧ 1 ≤ numAt h 12 4 ∧ numAt h 12 4 ≤ 2304) &&
  decide (s.charter.map (·.digest) = some (slice h 16 32)) && allZero h 92 36 && distinct (gs.map (·.core)) &&
  gs.all (segOk s a)

/-- A named core takes its program and data and starts at address 0 (R498). -/
def loadCore (s : State) (a : Nat) (g : Segment) (k : Core) : Core :=
  let p := hostRead s (a + g.off) g.prog
  let d := hostRead s (a + g.off + g.prog) g.data
  { k with
    prog := mwrite 0 k.prog 0 p, poisonP := poisonAfter k.poisonP 0 g.prog false
    sdata := mwrite 0 [] 0 d, poisonD := []
    s := [], cnt := [], cntSrc := [], cmp := [], loops := [], sp := 0, d := [], v := [], vl := 0, layout := 0, tile := []
    passNonfinite := 0, passSat := 0, issueCnt := 0, progLen := g.prog, posted := 0, takes := 0, sigCnt := 0
    pc := 0, state := 1, hold := none, more := false, haltReq := false, stepping := false, skipTag := false
    cntDue := false, saved := false, kept := none }

/-- An accepted image: every named core loads and starts, its signal bit clears, and the program digest moves on (R484,
R498, R514). -/
def acceptImage (a : Nat) (gs : List Segment) (img : Bytes) (s : State) : State :=
  let s' := gs.foldl (fun t g =>
    let t := modCore g.core (loadCore s a g) t
    let w := tget 0 t.signalMap (g.core / 32) &&& ~~~ (1#32 <<< (g.core % 32))
    { t with signalMap := tset 0 t.signalMap (g.core / 32) w }) s
  { s' with step := { s'.step with progDigest := sha256 (s.step.progDigest ++ sha256 img) } }

/-- PROGRAM (R497): waits while a named core runs or saves, then accepts the image whole or refuses it. -/
def programStarts (rd : ReadEnd) (v : Nat) (s : State) : State :=
  let a := cmdAddr v
  let h := hostRead s a 128
  let n := numAt h 12 4
  let gs := segments s a (min n 2304)
  if imageHeadOk s h a gs && gs.any (fun g => let k := getCore s g.core; decide (k.state = 1 ∨ k.state = 3) || k.saving) then s
  else
    let s := readsEnd rd s
    let img := hostRead s a (imageLen n gs)
    if decide (rd = .ok) && imageHeadOk s h a gs && !hostPoisoned s a img.length &&
        decide ((tally (img.drop 128) 0).toNat = numAt h 84 8) then
      acceptImage a gs img (popCmd s)
    else discardCmd 0x0C s

def execProgram (rd : ReadEnd) (s : State) : Res := onHead 0x0C s (programStarts rd)

/-! ### Save images (R108 to R110, Table 03-7) -/

def ctxAt (s : State) (c : Nat) : Nat := (s.charter.map (·.ctxBase)).getD 0 + c * 0x1C000

def u32s (n : Nat) (f : Nat → U32) : Bytes := (List.range n).flatMap (fun i => natLe 4 (f i).toNat)

/-- Bytes 64 to 109,823 of a save image (Table 03-7). DESIGN CHOICE (log 156): where the table names several fields of one row,
they stand in the order named: a comparator's value, relation (byte 4) and source (byte 5); vl, the stack pointer, the
nonfinite and the saturation count as four 32-bit words at 608. -/
def imageBody (k : Core) : Bytes :=
  u32s 32 (fun i => tget 0 k.s i) ++ u32s 8 (fun i => tget 0 k.cnt i) ++
  (List.range 8).flatMap (fun i =>
    let c := tget {} k.cmp i
    natLe 4 c.value.toNat ++ [if c.eq then 1 else 0] ++ natLe 1 (tget 0 k.cntSrc i) ++ zeros 2) ++
  (List.range 4).flatMap (fun i =>
    let l := getLoop k i
    natLe 4 l.start ++ natLe 4 l.stop ++ natLe 4 l.count ++ natLe 4 l.index) ++
  (List.range 16).flatMap (fun i => natLe 16 (tget 0 k.d i).toNat) ++
  natLe 4 k.vl ++ natLe 4 k.sp ++ natLe 4 k.passNonfinite.toNat ++ natLe 4 k.passSat.toNat ++ zeros 16 ++
  (List.range 80).flatMap (fun i => natLe 8 (tget 0 k.tile i).toNat) ++
  mread 0 k.v 0 2048 ++ mread 0 k.sdata 0 4096 ++ mread 0 k.acc 0 20480 ++ mread 0 k.prog 0 16384 ++
  mread 0 k.scratch 0 65536

/-- The save image of core c. -/
def coreImage (s : State) (c : Nat) (k : Core) : Bytes :=
  let b := imageBody k
  natLe 4 0x4C584353 ++ natLe 2 1 ++ zeros 2 ++ natLe 4 c ++ natLe 4 blkVersion.toNat ++ natLe 4 (recordStep s) ++
    natLe 4 k.layout ++ natLe 8 k.issueCnt ++ natLe 8 k.pc ++ natLe 8 (tally b 0).toNat ++ zeros 16 ++ b ++ zeros 4864

/-- Offsets of the memories in the image: scalar data, accumulator, program, scratchpad. -/
def imageMems (k : Core) : List (Nat × List Nat) :=
  [(3328, k.poisonD), (7424, k.poisonA), (27904, k.poisonP), (44288, k.poisonS)]

/-- CORE_SAVE (R108): a core that has stopped and whose engines have finished is written out whole. -/
def coreSave (c : Nat) (s : State) : State :=
  let k := getCore s c
  if !k.saving || !engineIdle k then s
  else
    let a := ctxAt s c
    let bad := dedup ((imageMems k).flatMap (fun m => m.2.map (fun w => (a + m.1 + 8 * w) / 64 % 2 ^ 46)))
    let s := postWriteBad (.core c k.nextJob) a (coreImage s c k) bad s
    let keep : Kept :=
      { halt := if k.state = 2 then some (k.haltAddr, k.haltCode, k.haltEngine) else none, progLen := k.progLen,
        posted := k.posted, takes := k.takes, hold := k.hold, row := k.row }
    modCore c (fun k => { k with state := 0, saving := false, saved := true, kept := some keep, hold := none }) s

def execCoreSave (c : Nat) (s : State) : Res := actOn numCores c s (coreSave c)

/-- Words of a memory that come back poisoned. -/
def wordsBad (s : State) (rd : ReadEnd) (a n : Nat) : List Nat :=
  (List.range (n / 8)).filter (fun w => readBad s rd ((a + 8 * w) % 2 ^ 52) 8)

/-- A core with everything that an image holds. -/
def restored (s : State) (a : Nat) (b : Bytes) (rd : ReadEnd) (k : Core) : Core :=
  let w32 := fun (o : Nat) => BitVec.ofNat 32 (numAt b o 4)
  let tab := fun {α : Type} [DecidableEq α] (d : α) (n : Nat) (f : Nat → α) =>
    (List.range n).foldl (fun t i => tset d t i (f i)) ([] : List (Nat × α))
  let kept := k.kept.getD { progLen := k.progLen, posted := k.posted, takes := k.takes }
  let mem := fun (o n : Nat) => mwrite 0 [] 0 (slice b o n)
  { k with
    layout := field (numAt b 20 4) 1 0, issueCnt := numAt b 24 8 % 2 ^ 48, pc := numAt b 32 8
    s := tab 0 32 (fun i => w32 (64 + 4 * i)), cnt := tab 0 8 (fun i => w32 (192 + 4 * i))
    cmp := tab {} 8 (fun i => ⟨w32 (224 + 8 * i), decide (numAt b (228 + 8 * i) 1 = 1)⟩)
    cntSrc := tab 0 8 (fun i => numAt b (229 + 8 * i) 1)
    loops := tab {} 4 (fun i => let o := 288 + 16 * i; ⟨numAt b o 4, numAt b (o + 4) 4, numAt b (o + 8) 4, numAt b (o + 12) 4⟩)
    d := tab 0 16 (fun i => BitVec.ofNat 128 (numAt b (352 + 16 * i) 16))
    vl := numAt b 608 4, sp := numAt b 612 4, passNonfinite := w32 616, passSat := w32 620
    tile := tab 0 80 (fun i => BitVec.ofNat 64 (numAt b (640 + 8 * i) 8))
    v := mem 1280 2048, sdata := mem 3328 4096, acc := mem 7424 20480, prog := mem 27904 16384, scratch := mem 44288 65536
    poisonD := wordsBad s rd (a + 3328) 4096, poisonA := wordsBad s rd (a + 7424) 20480
    poisonP := wordsBad s rd (a + 27904) 16384, poisonS := wordsBad s rd (a + 44288) 65536
    progLen := kept.progLen, posted := kept.posted, takes := kept.takes, hold := kept.hold, row := kept.row
    state := if kept.halt.isSome then 2 else 1
    haltAddr := (kept.halt.map (·.1)).getD k.haltAddr, haltCode := (kept.halt.map (·.2.1)).getD k.haltCode
    haltEngine := (kept.halt.map (·.2.2)).getD k.haltEngine
    restoring := false, saved := false, kept := none }

/-- The checks of a restore (R110). -/
def imageOk (c : Nat) (b : Bytes) : Bool :=
  decide (numAt b 0 4 = 0x4C584353 ∧ numAt b 4 2 = 1 ∧ numAt b 8 4 = c ∧ numAt b 12 4 = blkVersion.toNat ∧
    numAt b 40 8 = (tally (slice b 64 109760) 0).toNat)

/-- CORE_RESTORE (R110): a checked image comes back whole, or the core stays halted with a restore fault. -/
def coreRestore (c : Nat) (rd : ReadEnd) (s : State) : State :=
  if !(getCore s c).restoring || !engineIdle (getCore s c) then s
  else
    let a := ctxAt s c
    let s := readsEnd rd s
    let b := hostRead s a 114688
    if imageOk c b then modCore c (restored s a b rd) s
    else
      raise 0x15 0 (uCore c) a 0 (modCore c (fun k => { k with
        restoring := false, saved := false, kept := none, state := 2, haltAddr := k.pc, haltCode := 0x30,
        haltEngine := eNone }) s)

def execCoreRestore (c : Nat) (rd : ReadEnd) (s : State) : Res := actOn numCores c s (coreRestore c rd)

/-! ### Parity at the green (R106, R107) -/

/-- A chunk that has lost a flit: its seal fails. -/
def tornChunk (b : Bytes) : Bytes := b.take 4136 ++ natLe 8 (sealComputed b ^^^ 1).toNat

/-- The retained copy of a chunk that is leaving over a gate's link while its flits still come to the gate across the green: one
that the gate did not form in its own adder. -/
def leavingChunk (k : Gate) : Option Retained :=
  k.retained.find? (fun r => !r.green && !r.gone && !r.stomped && r.cell.isNone && k.sending.any (fun e => e.2 == r.bytes.take 56))

/-- What a gate loses with a discarded flit: a flit of the chunk that it is sending, which leaves stomped (R267); else of the chunk
next to arrive over the green; else a notice. -/
def tearGreen (g : Nat) (s : State) : State :=
  match leavingChunk (getGate s g), (getGate s g).greenIn with
  | some r, _ => stompLeaving g r s
  | none, c :: rest => modGate g (fun k => { k with greenIn := { c with bytes := tornChunk c.bytes } :: rest }) s
  | none, [] => modGate g (fun k => { k with greenNotices := k.greenNotices.tail }) s

/-- A flit with bad parity is discarded and reported; a core halts with 0x22 and loses the flit of the next data to come
across the green, a gate one of a chunk or a notice, a well the request it belongs to (log 132). -/
def badGreenFlit (u : Nat) (s : State) : State :=
  let s := raise 0x02 0 u 0 0 s
  if u < 0x1000 then modCore u (fun k => { haltCore k.pc 0x22 eNone k with torn := true }) s
  else if u < 0x2000 then tearGreen (u - 0x1000) s
  else loseRequest (u - 0x2000) s

/-- Units that receive flits of the green: cores, gates and wells (15 Table 15-5). -/
def greenUnit (u : Nat) : Bool :=
  decide (u < numCores ∨ (0x1000 ≤ u ∧ u < 0x1000 + numGates) ∨ (0x2000 ≤ u ∧ u < 0x2000 + numWells))

/-- GREEN_FLIT_RECEIVE (R106, R107): a flit that arrives whole is delivered, as the operation it belongs to says. -/
def execGreenFlitReceive (unit : Nat) (parityOk : Bool) (s : State) : Res :=
  if greenUnit unit then act s (fun s => if parityOk then s else badGreenFlit unit s) else .fault .noSuchUnit

end Sys2Proof.Machine
end

