-- ==== Sys2Proof/Machine/Cold.lean ====
section
/-! DEFINITION. LAYER_READY (01 R27, R35): contribution weights (06 R203) and the experts that no token visited (06 R205). -/

namespace Sys2Proof.Machine

/-- The cores that condense under the map in force: those that run and hold a sliver of it (R21, R27). -/
def millCores (s : State) : List Nat :=
  let vs := ((s.charter.map (·.slivers)).getD []).filter (fun v => decide (v.map = s.forge.map))
  sortBy id ((dedup (vs.map (·.core))).filter (fun c => decide ((getCore s c).state = 1)))

/-- The expert instances that this member holds in a layer, over the contexts whose counts the market keeps (R374, R398). -/
def instancesOf (s : State) (layer : Nat) : List Nat :=
  dedup (s.mkt.ctx.flatMap (fun e => match e.2.record with
    | some r => if r.counted && decide (layer < r.layers) then myInsts s r layer else []
    | none => []))

/-- The count-weighted tensors of a layer under the map in force. -/
def countedTensors (s : State) (layer : Nat) : List TensorRec :=
  let is := instancesOf s layer
  (((mapInForce s).map (·.tensors)).getD []).filter (fun t => bitOf t.flags 1 && is.contains t.inst)

def coldCount (s : State) (t : TensorRec) : Nat := (tget 0 s.mkt.count t.inst).toNat

/-- The contribution weights of a layer's count-weighted tensors, as the market reports them now: instance and count (R203). -/
def countWeights (s : State) (layer : Nat) : List (Nat × Nat) := (countedTensors s layer).map (fun t => (t.inst, coldCount s t))

/-- The operation in which a tensor is reduced: that of its forge record, or of an operation registered here for it; else open
(log 159). -/
def millOp (s : State) (t : TensorRec) (step : Nat) : OpName :=
  let fs := (((s.charter.map (·.maps)).getD []).flatMap (·.forges)).filter (fun f => decide (f.tensor = t.tensor ∧ f.group = t.group))
  match fs with
  | f :: _ => ⟨t.group, f.seq, step⟩
  | [] =>
    match s.ops.find? (fun o => decide (o.name.group = t.group ∧ o.name.step = step) && o.registered && tensorOf s o.name == some t) with
    | some o => o.name
    | none => ⟨t.group, Config.millSeq t.group t.tensor % 2 ^ 16, step⟩

/-- Parts of an operation's elements that go the same way, of at most 2^24 elements each (R203). -/
def nilPieces (g : Grp) (n : Nat) : List (Nat × Nat) :=
  (List.range (cellCount g n)).foldl (fun ps j =>
    let r := cellRange g n j
    match ps.getLast? with
    | some p =>
      let k := p.1 / cellLen g
      if p.2 + r.2 ≤ 2 ^ 24 ∧ handoffGate g n j = handoffGate g n k ∧ cellParent g n j = cellParent g n k then
        ps.dropLast ++ [(p.1, p.2 + r.2)]
      else ps ++ [r]
    | none => [r]) []

/-- e = e_prev for every gleaning of a sliver (R205). -/
def carryGleanings (t : TensorRec) (step : Nat) (s : State) (v : Sliver) : State := carryRange t step v.first v.count s

/-- R205: a tensor of an instance that no token reached sends NIL chunks of weight zero, and its gleanings carry forward. -/
def coldTensor (step : Nat) (s : State) (t : TensorRec) : State :=
  let s := (sliversOf s t.tensor).foldl (carryGleanings t step) s
  let nm := millOp s t step
  match myGrp s t.group with
  | none => s
  | some g =>
    let n := t.rows * t.cols
    (nilPieces g n).foldl (fun s p => handOwn (nilChunk s nm p.1 p.2) s) (openReduction nm n s)

/-- LAYER_READY of a step that has not opened waits in the command FIFO (R35); evaluation steps open under an evaluation map
(R463). -/
def layerMayStart (s : State) (step : Nat) : Bool :=
  match s.step.opened with
  | some o => decide (step ≤ o)
  | none => s.step.lastCurfew.any (fun l => decide (step ≤ l)) || (evalInForce s && decide (2 ^ 31 ≤ step))

/-- LAYER_READY (R27, R203, R205): the weights of the layer are fixed, its cold experts are sent, and the word goes to every core
of the mill. -/
def layerStarts (v : Nat) (s : State) : State :=
  let cs := millCores s
  let step := field v 47 16
  let layer := field v 13 8
  if layerMayStart s step && cs.all (fun c => ringRoom (getCore s c)) then
    let s := popCmd s
    let s := { s with step := { s.step with ready := s.step.ready ++ [⟨step, layer, countWeights s layer⟩] } }
    let s := ((countedTensors s layer).filter (fun t => coldCount s t == 0)).foldl (coldTensor step) s
    cs.foldl (fun s c => modCore c (postWord v) s) s
  else s

def execLayerReady (s : State) : Res := onHead 0x02 s layerStarts

end Sys2Proof.Machine
end

