-- ==== Sys2Proof/Machine/Expander.lean ====
section
/-! DEFINITION. Weight expanders (11 R420 to R432): decode tables, compressed blocks, EXPAND jobs and damaged streams. -/

namespace Sys2Proof.Machine

/-! ### Decode table slots (R424 to R427) -/

def getSlot (s : State) (n : Nat) : ExpSlot := tget {} s.exp.slots (n % 8)
def modSlot (n : Nat) (f : ExpSlot → ExpSlot) (s : State) : State :=
  { s with exp := { s.exp with slots := tmod {} s.exp.slots (n % 8) f } }

/-- A slot is invalid while a load of it is in progress (R424). -/
def slotValid (s : State) (n : Nat) : Bool := (getSlot s n).valid && !s.exp.loading.any (fun l => l.1 == n % 8)

/-- Expansions in progress that name a slot: those whose output is still being written. -/
def slotActive (s : State) (n : Nat) : Nat :=
  let mine := fun (r : WReq) => decide (r.op = 1 ∧ r.owner = .expander (some (n % 8)))
  s.wells.foldl (fun k e => k + e.2.waiting.countP mine + e.2.busy.countP (fun b => mine b.2)) 0

/-- Reference count (R426). -/
def slotCount (s : State) (n : Nat) : Nat := (getSlot s n).pins + slotActive s n

/-- EXP_TABLE_LOAD (R424, R425): the load named by EXP_TBL_CTL and EXP_TBL_SRC starts, or is refused while the slot is in
use. -/
def tableLoad (s : State) : State :=
  if s.exp.loading.isSome then s
  else if slotCount s s.exp.slot ≠ 0 then { s with exp := { s.exp with busy := true } }
  else { s with exp := { s.exp with loading := some (s.exp.slot % 8, s.exp.gen, s.exp.src.toNat) } }

def execExpTableLoad (s : State) : Res := act s tableLoad

/-- Formats that a compressed block may have (Table 11-3). -/
def expFormats : List Nat := [3, 4, 5, 6, 7, 8]

def fmtWidth (f : Nat) : Nat := ((Fmt.ofCode f).map (·.width)).getD 8

/-- Whether a table image is good (R424, R425). -/
def tableOk (b : Bytes) : Bool :=
  let ls := (slice b 16 256).map (·.toNat)
  expFormats.contains (numAt b 0 1) && allZero b 1 15 && ls.all (· ≤ 12) &&
    (ls.drop (2 ^ fmtWidth (numAt b 0 1))).all (· == 0) && ls.any (· != 0) &&
    decide (ls.foldl (fun n l => if l = 0 then n else n + 2 ^ (12 - l)) 0 ≤ 4096)

/-- EXP_TABLE_LOAD_DONE (R424, R425). -/
def tableLoadDone (rd : ReadEnd) (s : State) : State :=
  match s.exp.loading with
  | none => s
  | some (n, g, a) =>
    let s := readsEnd rd { s with exp := { s.exp with loading := none } }
    let b := hostRead s a 272
    if rd = .ok && tableOk b then
      modSlot n (fun k => { k with gen := g, valid := true, fmt := numAt b 0 1, lens := slice b 16 256 }) s
    else { s with exp := { s.exp with badTable := true } }

def execExpTableLoadDone (rd : ReadEnd) (s : State) : Res := act s (tableLoadDone rd)

/-- EXP_PIN (R426). -/
def expPin (n : Nat) (s : State) : State :=
  if 65535 ≤ (getSlot s n).pins then { s with exp := { s.exp with pinErr := true } }
  else modSlot n (fun k => { k with pins := k.pins + 1 }) s

def execExpPin (slot : Nat) (s : State) : Res := act s (expPin slot)

/-- EXP_UNPIN (R426). -/
def expUnpin (n : Nat) (s : State) : State :=
  if (getSlot s n).pins = 0 then { s with exp := { s.exp with pinErr := true } }
  else modSlot n (fun k => { k with pins := k.pins - 1 }) s

def execExpUnpin (slot : Nat) (s : State) : Res := act s (expUnpin slot)

/-! ### EXPAND (R428) -/

/-- Whether an EXPAND descriptor is good: its fields, and a well that is present. -/
def expandOk (s : State) (b : Bytes) : Bool :=
  let w := numAt b 20 1
  decide (numAt b 0 8 % 64 = 0 ∧ numAt b 0 8 < 2 ^ 52 ∧ numAt b 8 8 % 4096 = 0 ∧ numAt b 8 8 < 2 ^ 52 ∧
    1 ≤ numAt b 16 4 ∧ numAt b 16 4 ≤ 2 ^ 20 ∧ w < numWells) && wellPresent s w && allZero b 21 43

/-- EXPAND: the job waits at its well; a bad descriptor discards the command. -/
def expandStarts (rd : ReadEnd) (v : Nat) (s : State) : State :=
  let a := cmdAddr v
  let s := readsEnd rd s
  let b := hostRead s a 64
  if rd = .ok && expandOk s b then
    let job : ExpJob := { src := numAt b 0 8, dst := numAt b 8 8, left := numAt b 16 4, core := none, fetch := numAt b 0 8 }
    modWell (numAt b 20 1) (fun w => { w with jobs := w.jobs ++ [job] }) (popCmd s)
  else discardCmd 0x30 s

def execExpand (rd : ReadEnd) (s : State) : Res := onHead 0x30 s (expandStarts rd)

/-! ### The queue of compressed bytes (R431) -/

/-- The units of the stream from an address, if all of n bytes are here: the bytes, and whether a unit is poisoned. -/
def streamAt (w : Well) (a n : Nat) : Option (Bytes × Bool) :=
  let first := a / 64
  let us := (List.range ((a + n + 63) / 64 - first)).map (fun i =>
    w.expBuf.find? (fun u => u.1 == (first + i) * 64 % 2 ^ 52))
  if us.all (·.isSome) then
    let bs := us.flatMap (fun u => (u.map (·.2.1)).getD [])
    some ((bs.drop (a % 64)).take n, us.any (fun u => u.any (·.2.2)))
  else none

/-- Whether a block header is good (R420). -/
def headerOk (h : Bytes) : Bool :=
  let f := numAt h 2 1
  let t := numAt h 6 2
  let o := numAt h 16 4
  decide (numAt h 0 2 = 0x5843 ∧ numAt h 3 1 < 8 ∧ numAt h 5 1 = 0 ∧ t ≤ 4032 ∧ 64 ≤ o ∧ o ≤ 4096 ∧
    o = (numAt h 8 4 * fmtWidth f + 7) / 8 + t ∧ numAt h 20 4 = roundUp (32 + (numAt h 12 4 + 7) / 8 + t) 64) &&
  expFormats.contains f && allZero h 24 8

/-- Where the bytes end that the block in hand needs: its header, then the whole block. -/
def blockEnd (w : Well) (j : ExpJob) : Nat :=
  match streamAt w j.src 32 with
  | some (h, _) => if headerOk h then j.src + numAt h 20 4 else j.src + 32
  | none => j.src + 32

/-- Units asked for and not yet here. -/
def fetching (s : State) (w : Nat) : Nat :=
  let n := fun (r : WReq) => if r.owner = .stream w then r.len - min r.len (4 * r.beats) else 0
  s.wells.foldl (fun k e => e.2.busy.foldl (fun k b => k + n b.2) (e.2.waiting.foldl (fun k r => k + n r) k)) 0

/-- EXPANDER_FETCH (R431; log 26): the next read of the stream, while the queue has room for all of it or the block in hand
still lacks bytes. -/
def expanderFetch (w : Nat) (s : State) : State :=
  let k := getWell s w
  match k.jobs with
  | [] => s
  | j :: js =>
    let a := j.fetch % 2 ^ 52
    let len := min (max 1 (min 64 (Config.fetchUnits a))) (64 - a % 4096 / 64)
    if j.lostAt || !(decide (k.expBuf.length + fetching s w + len ≤ 1024) || decide (j.fetch < blockEnd k j)) then s
    else
      enqueueReq { op := 0, addr := a, len := len, owner := .stream w, data := [], mask := [], poison := [], dests := [],
                   beats := 0 }
        (modWell w (fun k => { k with jobs := { j with fetch := j.fetch + 64 * len } :: js }) s)

def execExpanderFetch (w : Nat) (s : State) : Res := actOn numWells w s (expanderFetch w)

/-! ### Decoding (R421 to R423) -/

/-- One symbol's turn in the canonical assignment: the next codeword, the last length, and the codes so far. -/
def canonStep (acc : Nat × Nat × List (Nat × Nat × Nat)) (x : Nat × Nat) : Nat × Nat × List (Nat × Nat × Nat) :=
  let next := acc.1 * 2 ^ (x.1 - acc.2.1)
  (next + 1, x.1, acc.2.2 ++ [(x.1, next, x.2)])

/-- The codewords of a table: length, codeword, symbol (R423). -/
def canonical (lens : List Nat) : List (Nat × Nat × Nat) :=
  let by_ := (List.range 12).flatMap (fun l => (lens.zipIdx.filter (fun p => p.1 = l + 1)).map (fun p => (l + 1, p.2)))
  (by_.foldl canonStep (0, 0, [])).2.2

/-- How matching one codeword ends: a symbol and the bits left, no codeword, or the bits ran out inside one. -/
inductive Match1 where
  | sym (v : Nat) (rest : List Bool)
  | invalid
  | short

/-- Match one codeword, its first bit at the lowest stream position (R422): `len` bits already read give `acc`. -/
def matchCode (codes : List (Nat × Nat × Nat)) : Nat → Nat → List Bool → Match1
  | len, acc, bits =>
    let open_ := codes.any (fun c => decide (len < c.1 ∧ c.2.1 / 2 ^ (c.1 - len) = acc))
    match bits with
    | [] => if open_ then .short else .invalid
    | b :: rest =>
      if open_ then
        match codes.find? (fun c => decide (c.1 = len + 1 ∧ c.2.1 = 2 * acc + b2n b)) with
        | some c => .sym c.2.2 rest
        | none => matchCode codes (len + 1) (2 * acc + b2n b) rest
      else .invalid

/-- Decode n symbols; the second part is the cause of Table 11-4, 0 when undamaged. -/
def decodeSyms (codes : List (Nat × Nat × Nat)) : Nat → List Bool → List Nat × Nat
  | 0, bits => ([], if bits.isEmpty then 0 else 2)
  | n + 1, bits =>
    if bits.isEmpty then ([], 3)
    else match matchCode codes 0 0 bits with
    | .sym v rest => let r := decodeSyms codes n rest; (v :: r.1, r.2)
    | .invalid => ([], 1)
    | .short => ([], 3)

/-- The first b bits of a byte string, bit i being bit i mod 8 of byte i / 8 (R422). -/
def bitsOf (b : Nat) (bs : Bytes) : List Bool :=
  (bs.flatMap (fun x => (List.range 8).map (fun i => bitOf x.toNat i))).take b

/-- Symbols packed as the payloads pack codes (R421). -/
def packSyms (w : Nat) (n : Nat) (vs : List Nat) : Bytes :=
  fit 0 ((n * w + 7) / 8)
    (if w = 8 then vs.map (BitVec.ofNat 8 ·)
     else if w = 6 then (chunksOf 4 (vs.length / 4 + 1) vs).flatMap (fun t =>
        natLe 3 (t.getD 0 0 + t.getD 1 0 * 2 ^ 6 + t.getD 2 0 * 2 ^ 12 + t.getD 3 0 * 2 ^ 18))
     else (chunksOf 2 (vs.length / 2 + 1) vs).map (fun t => BitVec.ofNat 8 (t.getD 0 0 + t.getD 1 0 * 16)))

/-- The output of one block with a good header, and its damage (R427, R432, Table 11-4). -/
def expandBytes (s : State) (blk : Bytes) : Bytes × Nat :=
  let f := numAt blk 2 1
  let t := numAt blk 6 2
  let n := numAt blk 8 4
  let b := numAt blk 12 4
  let slot := numAt blk 3 1
  let k := getSlot s slot
  if !slotValid s slot || decide (k.gen ≠ numAt blk 4 1) || decide (k.fmt ≠ f) then (zeros (numAt blk 16 4), 5)
  else
    let r := decodeSyms (canonical (k.lens.map (·.toNat))) n (bitsOf b ((blk.drop 32).take ((b + 7) / 8)))
    (packSyms (fmtWidth f) n r.1 ++ slice blk (32 + (b + 7) / 8) t, r.2)

/-! ### One block (R428 to R432) -/

/-- Write a block's output to the scratchpad of its load, or through the wells. -/
def expandWrite (j : ExpJob) (slot : Option Nat) (bs : Bytes) (bad : Bool) (s : State) : State :=
  match j.core with
  | some (c, _) => modCore c (scrWrite j.dst bs bad) s
  | none => postWrite (.expander slot) j.dst bs bad s

/-- A damaged block: the first is recorded, each is counted and reported (R432). -/
def damaged (w cause src : Nat) (s : State) : State :=
  if cause = 0 then s
  else
    let s := modWell w (fun k =>
      let k := { k with dmg := satInc k.dmg 1 }
      if k.expValid then k else { k with expValid := true, expCause := cause, expAddr := BitVec.ofNat 64 src }) s
    raise 0x13 cause (uWell w) src 0 s

/-- The job moves to its next block, whose source is `next`; the last block ends it. -/
def expandNext (w : Nat) (next : Option Nat) (s : State) : State :=
  modWell w (fun k => match k.jobs with
    | [] => k
    | j :: js =>
      if j.left ≤ 1 then
        { k with jobs := js, expBuf := [], jobDone := k.jobDone + (if j.core.isNone then 1 else 0) }
      else match next with
        | some a => { k with
            jobs := { j with src := a, dst := j.dst + 4096, left := j.left - 1, fetch := max j.fetch (a / 64 * 64) } :: js,
            expBuf := k.expBuf.filter (fun u => decide (a / 64 * 64 % 2 ^ 52 ≤ u.1)) }
        | none => { k with
            jobs := { j with dst := j.dst + 4096, left := j.left - 1, lostAt := true } :: js, expBuf := [] }) s

/-- EXPAND_BLOCK (R430): the next block of the job at the head, once its bytes are here. -/
def expandBlock (w : Nat) (s : State) : State :=
  let k := getWell s w
  match k.jobs with
  | [] => s
  | j :: _ =>
    if j.lostAt then expandNext w none (expandWrite j none (zeros 4096) true s)
    else match streamAt k j.src 32 with
    | none => s
    | some (h, _) =>
      let bb := numAt h 20 4
      if !headerOk h then
        let s := damaged w 4 j.src (expandWrite j none (zeros 4096) true s)
        expandNext w (if 64 ≤ bb ∧ bb ≤ 8192 then some (j.src + roundUp bb 64) else none) s
      else match streamAt k j.src bb with
      | none => s
      | some (blk, bad) =>
        let r := expandBytes s blk
        let s := expandWrite j (some (numAt h 3 1)) r.1 (bad || decide (r.2 ≠ 0)) s
        expandNext w (some (j.src + bb)) (damaged w r.2 j.src s)

def execExpandBlock (w : Nat) (s : State) : Res := actOn numWells w s (expandBlock w)

end Sys2Proof.Machine
end

