-- ==== Sys2Proof/Machine/Notice.lean ====
section
/-! DEFINITION. Notices taken at a gate, over its link or across the green (07 Table 07-10; 08 Table 08-7; 09 Table 09-5). -/

namespace Sys2Proof.Machine

/-- `n` flits leave a channel's receive buffer and free their credits (R237). -/
def popRx (g vc n : Nat) (s : State) : State :=
  modGate g (fun k => { k with
    rxBuf := tmod [] k.rxBuf vc (·.drop n), credPend := tmod 0 k.credPend vc (· + n) }) s

/-- The notice that a gate takes next from its link or from the green. -/
def headNotice (s : State) (g : Nat) (via : Via) : Option Bytes :=
  match via with
  | .link _ => ((tget [] (getGate s g).rxBuf 1).head?).map (·.drop 1)
  | .green => (getGate s g).greenNotices.head?

def popNotice (g : Nat) (via : Via) (s : State) : State :=
  match via with
  | .link _ => popRx g 1 1 s
  | .green => modGate g (fun k => { k with greenNotices := k.greenNotices.tail }) s

/-- Take the next notice of a gate when it has the code asked for. -/
def onNotice (g : Nat) (via : Via) (code : Nat) (s : State) (f : Bytes → State → State) : Res :=
  actOn numGates g s (fun s =>
    match headNotice s g via with
    | some n => if noticeCode n = code then f n (popNotice g via s) else s
    | none => s)

def viaGreen (v : Via) : Bool := decide (v = .green)

/-- Whether a held market chunk is the one that a notice of this gate names. -/
def mktHit (g : Nat) (n : Bytes) (c : MktChunk) : Bool := decide (c.fromGate = g) && sameChunk (hdrOf c.bytes) (noticeHdr n)

/-- Whether a gate holds a market chunk that a notice names. -/
def heldMarket (s : State) (g : Nat) (n : Bytes) : Bool := (getGate s g).mkt.any (mktHit g n)

/-- Whether a notice names a market chunk that this gate holds, or one that came over it and has bolted here. -/
def namesMarket (s : State) (g : Nat) (n : Bytes) : Bool :=
  heldMarket s g n || (getGate s g).mktDone.any (fun b => sameChunk (hdrOf b) (noticeHdr n))

/-- A market chunk of a gate that turns out unusable before it has bolted: its copy goes, the copies sent on are taken back, and
RESEND goes upstream (Table 09-4). -/
def mktDiscard (g : Nat) (n : Bytes) (reason : Nat) (s : State) : State :=
  let h := noticeHdr n
  let s := modGate g (fun k => { k with mkt := k.mkt.filter (fun c => !mktHit g n c) }) s
  sendResend g 1 reason h (takeBackAll 7 reason h s)

/-- BOLT for a market chunk held at this gate (R343, R348, R388): a seal that differs from the held copy's is a protocol fault and
a seal failure. -/
def mktBoltArrives (g : Nat) (n : Bytes) (s : State) : State :=
  let h := noticeHdr n
  match (getGate s g).mkt.find? (mktHit g n) with
  | none => s
  | some c =>
    if (sealOf c.bytes).toNat = numAt n 28 8 then
      modGate g (fun k => { k with mkt := replaceFirst (mktHit g n) (fun c => { c with confirmed := true }) k.mkt }) s
    else
      let s := modGate g (fun k => { k with sealErr := satInc k.sealErr 1 }) s
      mktDiscard g n 0 (gateFault 0x04 0 g h h.member 0 (gateFault 0x0C nBolt g h h.member 0 s))

/-- REVOKE for a market chunk: one that has bolted here is a protocol fault and stays (R354). -/
def mktRevokeArrives (g : Nat) (n : Bytes) (s : State) : State :=
  let h := noticeHdr n
  if heldMarket s g n then mktDiscard g n 5 s else gateFault 0x0C nRevoke g h h.member 0 s

/-- A notice for a group that is not loaded is discarded and reported (R282). -/
def loadedOr (code g : Nat) (n : Bytes) (s : State) (f : State → State) : State :=
  let h := noticeHdr n
  if (grpOf s h.group).isSome then f s else gateFault 0x0C code g h h.member 0 s

/-- BOLT_NOTICE (R346, R348). -/
def execBoltNotice (g : Nat) (via : Via) (s : State) : Res :=
  onNotice g via nBolt s (fun n s => loadedOr nBolt g n s (fun s =>
    if namesMarket s g n then mktBoltArrives g n s else boltArrives g n s))

/-- REVOKE_NOTICE (R352 to R354). -/
def execRevokeNotice (g : Nat) (via : Via) (s : State) : Res :=
  onNotice g via nRevoke s (fun n s => loadedOr nRevoke g n s (fun s =>
    if namesMarket s g n then mktRevokeArrives g n s else revokeArrives g n s))

/-- RESEND_NOTICE (R353). -/
def execResendNotice (g : Nat) (via : Via) (s : State) : Res :=
  onNotice g via nResend s (fun n s => loadedOr nResend g n s (resendArrives g (viaGreen via) n))

/-- CLOSE_NOTICE (R339 to R341, R360). -/
def execCloseNotice (g : Nat) (via : Via) (s : State) : Res :=
  onNotice g via nClose s (closeArrives g)

/-- A CACK for a retained chunk: its range adds to those covered, and the chunk is released once they are complete
(R265, R266). -/
def cackArrives (g : Nat) (green : Bool) (n : Bytes) (s : State) : State :=
  let h := noticeHdr n
  let hit := fun (r : Retained) =>
    let k := hdrOf r.bytes
    decide (hdrName k = hdrName h ∧ k.member = h.member ∧ k.base ≤ h.base ∧ h.base + h.count ≤ k.base + k.count) &&
      (r.green == green)
  releaseGate g (modGate g (fun t => { t with
    retained := replaceFirst hit (fun r => { r with acked := r.acked ++ [(h.base, h.count)] }) t.retained }) s)

/-- CACK_NOTICE (R265, R266). -/
def execCackNotice (g : Nat) (via : Via) (s : State) : Res :=
  onNotice g via nCack s (fun n s => loadedOr nCack g n s (cackArrives g (viaGreen via) n))

/-- ASK_NOTICE (R311). -/
def execAskNotice (g : Nat) (via : Via) (s : State) : Res :=
  onNotice g via nAsk s (askArrives g (viaGreen via))

/-- GRANT_NOTICE (R307, R312). -/
def execGrantNotice (g : Nat) (via : Via) (s : State) : Res :=
  onNotice g via nGrant s (fun n s => loadedOr nGrant g n s (grantArrives g (viaGreen via) n))

/-- Phase of a STEP notice (08 Table 08-7). -/
def stepPhase (n : Bytes) : Nat := numAt n 29 1

/-- STEP_NOTICE_UP (R320, R321): a STEP up notice from a gate's link, or a look at this member's own local conditions. -/
def execStepNoticeUp (g : Option Nat) (s : State) : Res :=
  match g with
  | none => act s advanceAll
  | some g => onNotice g (.link 1) nStep s (fun n s' =>
      if stepPhase n = 1 then s else stepUpArrives g n s')

/-- STEP_NOTICE_DOWN (R320, R322). -/
def execStepNoticeDown (g : Nat) (s : State) : Res :=
  onNotice g (.link 1) nStep s (fun n s' => if stepPhase n = 1 then stepDownArrives g n s' else s)

end Sys2Proof.Machine
end

