-- ==== Sys2Proof/Machine/MarketGate.lean ====
section
/-! DEFINITION. The market's frames, the stall gate and the return (10 R381 to R385, R388 to R395, R398 to R404): crier frames,
counts, allocation, capacity admission, grants, posting, RETURN and combine. -/

namespace Sys2Proof.Machine

/-! ### Frames that arrive (R260, R371 to R373, R382, R401) -/

def pushFrame (f : MFrame) (s : State) : State := { s with mkt := { s.mkt with frames := s.mkt.frames ++ [f] } }

/-- A good frame goes to the market here, on to its destination, or is discarded. -/
def routeFrame (g src dst : Nat) (body : Bytes) (flits : List Bytes) (s : State) : State :=
  let t := numAt body 0 1
  let m := mopOf (numAt body 2 2)
  let info := chunkInfo (((getCtx s m.ctx).record.map (·.group)).getD 0) m.code 0
  if t = 0 ∨ 4 < t then raise 0x0C t (uGate g) info src s
  else match routeFrom s m.ctx dst g with
  | .here => pushFrame ⟨src, g, false, body⟩ s
  | .gate o => modGate o (fun k => { k with crierQ := k.crierQ ++ flits.map (fun f => (none, f)) }) s
  | why => routeFault why (uGate g) t info dst s

/-- A crier frame whose CRC fails is discarded, counted and flagged at the context that it names. The row that it would have
written here counts as missing (R401): the market learns of the row from the frame's head, without its bytes (log 166). -/
def badFrame (g src dst : Nat) (body : Bytes) (s : State) : State :=
  let m := mopOf (numAt body 2 2)
  let s := setCtxBit m.ctx mkCrierCrc { s with mkt := { s.mkt with crierErr := satInc s.mkt.crierErr 1 } }
  if numAt body 0 1 = 3 ∧ (getCtx s m.ctx).mode = 2 ∧ routeOf s m.ctx dst = .here then pushFrame ⟨src, g, false, body.take 16⟩ s else s

/-- CRIER_FRAME_RECEIVE: the next whole frame of a gate's crier channel (R260). -/
def crierReceive (g : Nat) (s : State) : State :=
  match tget [] (getGate s g).rxBuf 0 with
  | [] => s
  | f :: fs =>
    let len := numAt f 3 2
    if len = 0 ∨ 512 < len then badFrame g (field (numAt f 5 4) 17 0) (field (numAt f 9 4) 17 0) (slice f 13 16) (popRx g 0 1 s)
    else
      let n := crierLen f
      if (f :: fs).length < n then s
      else
        let flits := ((f :: fs).take n).map (·.drop 1)
        let b := flits.flatten.take (16 + len)
        let body := slice b 12 len
        let s := popRx g 0 n s
        let src := field (numAt b 4 4) 17 0
        let dst := field (numAt b 8 4) 17 0
        if crcGood b then routeFrame g src dst body flits s else badFrame g src dst body s

/-- CRIER_FRAME_RECEIVE (R260, R382, R401). -/
def execCrierFrameReceive (g : Nat) (s : State) : Res := actOn numGates g s (crierReceive g)

/-! ### Taking a frame -/

/-- How a frame's market operation stands to the context's: it is the open one, an earlier one, or one not open yet. -/
inductive Turn where
  | now | late | wait
deriving DecidableEq, Repr

def turnOf (s : State) (m : MOp) (step : Nat) : Turn :=
  let x := getCtx s m.ctx
  if decide (x.state ≠ 0 ∧ x.step = step ∧ x.layer = m.layer ∧ x.pass = m.pass) then .now
  else
    let counted := x.record.any (·.counted)
    let passed := if step < 2 ^ 31 then s.step.lastCurfew.any (fun l => decide (step ≤ l)) else decide (step < evalStep s)
    let behind := decide (x.state ≠ 0 ∧ x.step = step) && (decide (m.pass < x.pass) ||
      (decide (m.pass = x.pass) && (if m.pass = 0 then decide (m.layer < x.layer) else decide (x.layer < m.layer))))
    if passed || (counted && behind) then .late else .wait

def frameOp (f : MFrame) : MOp := mopOf (numAt f.body 2 2)
def frameStep (f : MFrame) : Nat := numAt f.body 4 4
def frameType (f : MFrame) : Nat := numAt f.body 0 1

/-- The entries of a counts or grant body: instance, count, base, status. -/
def frameEntries (b : Bytes) : List (Nat × Nat × Nat × Nat) :=
  (List.range ((b.length - 8) / 8)).map (fun j =>
    (numAt b (8 + 8 * j) 2, numAt b (10 + 8 * j) 2, field (numAt b (12 + 8 * j) 4) 19 0, field (numAt b (12 + 8 * j) 4) 31 24))

/-- What `missed` says of a counts body (R384). -/
def frameKey (f : MFrame) : Nat × Nat × Nat := (frameStep f, (frameOp f).layer, f.src)

/-- The turn of a frame: counts of an operation that has ended without them are late, where the context itself cannot tell. -/
def frameTurn (s : State) (f : MFrame) : Turn :=
  let t := turnOf s (frameOp f) (frameStep f)
  if t = .wait && decide (frameType f = 1) && (getCtx s (frameOp f).ctx).missed.contains (frameKey f) then .late else t

/-- Take the first frame of a kind and type that does not have to wait. A context in another mode makes it a protocol fault
(R405); one of a past operation is late (R384). -/
def onFrame (counts : Bool) (type mode : Nat) (s : State) (f : CtxRec → MOp → MFrame → State → State) : Res :=
  act s (fun s =>
    let hit := fun (x : MFrame) => (x.counts == counts) && decide (frameType x = type) &&
      decide (frameTurn s x ≠ .wait)
    match s.mkt.frames.find? hit with
    | none => s
    | some x =>
      let s := { s with mkt := { s.mkt with frames := s.mkt.frames.erase x } }
      let m := frameOp x
      match (getCtx s m.ctx).record with
      | none => raise 0x0C type (uGate (if x.gate < numGates then x.gate else 0)) m.code x.src s
      | some r =>
        if (getCtx s m.ctx).mode ≠ mode then raise 0x0C type (uGate r.stallGate) (mktInfo r m) x.src s
        else if frameTurn s x = .late then
          raise 0x08 0 (uGate r.stallGate) (mktInfo r m) x.src (modCtx m.ctx (fun c => { c with missed := c.missed.erase (frameKey x) }) s)
        else f r m x s)

/-- One source's counts, kept until allocation; after allocation they are late (R384). -/
def takeCounts (r : CtxRec) (m : MOp) (f : MFrame) (s : State) : State :=
  let x := getCtx s m.ctx
  if !x.posting || x.allocated || x.counts.any (fun c => c.1 == f.src) then
    raise 0x08 0 (uGate r.stallGate) (mktInfo r m) f.src (modCtx m.ctx (fun x => { x with
      counts := if x.counts.any (fun c => c.1 == f.src) then x.counts else x.counts ++ [(f.src, [])] }) s)
  else modCtx m.ctx (fun x => { x with
    counts := x.counts ++ [(f.src, (frameEntries f.body).map (fun e => (e.1, e.2.1, e.2.2.1)))]
    arrivals := x.arrivals ++ [(f.src, f.gate)] }) s

/-- COUNTS_FRAME (R381). -/
def execCountsFrame (s : State) : Res := onFrame false 1 0 s takeCounts

/-- COUNTS_REQUEST (R402). -/
def execCountsRequest (s : State) : Res := onFrame true 1 1 s takeCounts

/-! ### Allocation (R383, R384, R398) -/

def countOf (x : Ctx) (src inst : Nat) : Nat × Nat :=
  match (x.counts.find? (fun c => c.1 == src)).bind (fun c => c.2.find? (fun e => e.1 == inst)) with
  | some e => (e.2.1, e.2.2)
  | none => (0, 0)

/-- One instance as allocated: first slot, rows, status, and base and rows of each source that has some. -/
structure Alloc where
  inst : Nat
  first : Nat
  rows : Nat
  status : Nat
  parts : List (Nat × Nat × Nat × Nat)
deriving DecidableEq, Repr

/-- The parts of an instance from a slot upward: source, base, count, ordinal. -/
def layParts (from_ : Nat) (cs : List (Nat × Nat × Nat)) : List (Nat × Nat × Nat × Nat) :=
  (cs.foldl (fun (a : Nat × List (Nat × Nat × Nat × Nat)) c =>
    (a.1 + c.2.1, if c.2.1 = 0 then a.2 else a.2 ++ [(c.1, a.1, c.2.1, c.2.2)])) (from_, [])).2

/-- One turn of R383's loop: the next free slot and whether the pool is full. -/
def allocStep (x : Ctx) (members : List Nat) (p : Nat) (clash : Bool) (acc : Nat × Bool × List Alloc) (i : Nat) :
    Nat × Bool × List Alloc :=
  let (next, full, out) := acc
  let cs := members.map (fun m => (m, countOf x m i))
  let tot := cs.foldl (fun n c => n + c.2.1) 0
  if clash then (next, full, out ++ [⟨i, next, 0, 4, []⟩])
  else if full || decide (p < next + tot) then (next, true, out ++ [⟨i, next, 0, 1, []⟩])
  else (next + tot, full, out ++ [⟨i, next, tot, 0, layParts next cs⟩])

/-- Two instances that are equal modulo 16. -/
def instClash (is : List Nat) : Bool := decide ((dedup (is.map (· % 16))).length < is.length)

def namedInsts (x : Ctx) : List Nat := dedup (sortBy id (x.counts.flatMap (fun c => c.2.map (·.1))))

def allocate (x : Ctx) (members : List Nat) (p : Nat) : List Alloc :=
  let is := namedInsts x
  (is.foldl (allocStep x members p (instClash is)) (0, false, [])).2.2

/-- One stall tag (Table 10-9). -/
def tagBytes (src flags ordinal : Nat) : Bytes := natLe 4 (src % 2 ^ 18 + flags * 2 ^ 24) ++ natLe 4 (ordinal % 2 ^ 20)

/-- Tags of a granted range. -/
def writeTags (r : CtxRec) (layer : Nat) (s : State) (p : Nat × Nat × Nat × Nat) : State :=
  let (src, base, count, ordinal) := p
  postWrite .gate (tagAt r layer base) ((List.range count).flatMap (fun q => tagBytes src 1 (ordinal + q))) false s

/-- Add an instance's tokens to BLK_MKT_COUNT (R398, R60). -/
def addCount (c : Nat) (s : State) (i : MInst) : State :=
  let (v, sat) := int32Add (signed 32 (tget 0 s.mkt.count i.inst).toNat) i.tokens
  let s := { s with mkt := { s.mkt with count := tset 0 s.mkt.count i.inst (BitVec.ofNat 32 (unsignedOf 32 v)) } }
  if sat then setCtxBit c mkCountSat s else s

/-- The stall gate has its stalls: what it holds, what it waits for, and the counts (R389, R398). -/
def allocated (m : MOp) (r : CtxRec) (insts : List MInst) (expect : List MRange) (s : State) : State :=
  let s := modCtx m.ctx (fun x => { x with allocated := true, insts := insts, expect := expect }) s
  if r.counted then insts.foldl (addCount m.ctx) s else s

def openOp (c : Nat) (x : Ctx) : MOp := ⟨c, 0, x.pass, x.layer⟩

/-- The grant entries for one source (R384): its non-zero counts with what they were given. -/
def grantEntries (x : Ctx) (as : List Alloc) (src : Nat) : List Bytes :=
  as.filterMap (fun a =>
    let n := (countOf x src a.inst).1
    if n = 0 then none
    else
      let base := ((a.parts.find? (fun p => p.1 == src)).map (·.2.1)).getD 0
      some (countEntry a.inst (if a.status = 0 then n else 0) base a.status))

/-- Grants go to every source with something asked, and to every source whose counts were missing (R384). -/
def sendGrants (r : CtxRec) (m : MOp) (x : Ctx) (as : List Alloc) (members mine : List Nat) (s : State) : State :=
  members.foldl (fun s src =>
    let head := bodyHead 2 m x.step
    if x.counts.any (fun c => c.1 == src) then
      let es := grantEntries x as src
      if es.isEmpty then s else sendFrame r m src (head ++ es.flatten) s
    else sendFrame r m src (head ++ mine.flatMap (fun i => countEntry i 0 0 2)) s) s

def expectOf (as : List Alloc) : List MRange :=
  as.flatMap (fun a => a.parts.map (fun p => ⟨p.1, a.inst, p.2.1, p.2.2.2, p.2.2.1, [], false⟩))

/-- STALL_ALLOCATE (R383, R384); a pool that is exhausted is a fault (R385), of a class that is left open (log 163). -/
def stallAllocate (c : Nat) (s : State) : State :=
  let x := getCtx s c
  match x.record with
  | none => s
  | some r =>
    if !x.posting || x.allocated || x.mode ≠ 0 || x.state = 0 then s
    else
      let m := openOp c x
      let members := mktMembers s r
      let as := allocate x members r.pool
      let missing := members.any (fun k => !x.counts.any (fun q => q.1 == k))
      let s := as.foldl (fun s a => a.parts.foldl (writeTags r m.layer) s) s
      let insts := as.map (fun a => ⟨a.inst, a.first, a.rows, a.rows, 4 * b2n (decide (a.status ≠ 0) || missing)⟩)
      let s := allocated m r insts (expectOf as) s
      let s := if as.any (fun a => a.status == 1) then
          let s := setCtxBit c mkExhausted (raise (1 + Config.exhaustClass % 26) 0 (uGate r.stallGate) (mktInfo r m) (memberId s) s)
          if r.fallback then { s with mkt := { s.mkt with fallback := BitVec.ofNat 32 (setBit s.mkt.fallback.toNat c) } } else s
        else s
      sendGrants r m x as members (myInsts s r m.layer) s

def execStallAllocate (ctx : Nat) (s : State) : Res := act s (stallAllocate (ctx % 32))

/-! ### Grants at the source (R385) -/

/-- The asked range that an entry answers. -/
def askedRange (x : Ctx) (src inst : Nat) : Option MRange := x.asked.find? (fun g => decide (g.peer = src ∧ g.inst = inst))

def dropAsked (c : Nat) (g : MRange) (s : State) : State := modCtx c (fun x => { x with asked := x.asked.erase g }) s

def takeGrant (rd : ReadEnd) (r : CtxRec) (m : MOp) (f : MFrame) (s : State) : State :=
  (frameEntries f.body).foldl (fun s e =>
    let x := getCtx s m.ctx
    match askedRange x f.src e.1 with
    | none => s
    | some g =>
      let s := dropAsked m.ctx g s
      if e.2.2.2 = 0 then postRange rd m r x.step g.peer e.2.2.1 (rangeEntries s r m.layer g) s
      else refuseRange m r x.step g s) (readsEnd rd s)

/-- GRANT_FRAME (R385). -/
def execGrantFrame (rd : ReadEnd) (s : State) : Res := onFrame false 2 0 s (takeGrant rd)

/-- GRANT_DEADLINE (R385): every range without a grant by D is refused. -/
def grantDeadline (c : Nat) (s : State) : State :=
  let x := getCtx s c
  match x.record with
  | none => s
  | some r =>
    let s := x.asked.foldl (fun s g => refuseRange (openOp c x) r x.step g s) s
    modCtx c (fun x => { x with asked := [] }) s

def execGrantDeadline (ctx : Nat) (s : State) : Res := act s (grantDeadline (ctx % 32))

/-! ### Capacity mode (R402 to R404) -/

/-- Keep order of the sources: own, then gates ascending, within a gate descending arrival (R402, R403). -/
def keepOrder (s : State) (r : CtxRec) (x : Ctx) : List Nat :=
  let ordered := (grpOf s r.group).any (·.ordered)
  let at_ := fun (g : Nat) => (x.arrivals.filter (fun a => a.2 == g)).map (·.1)
  at_ numGates ++ (List.range numGates).flatMap (fun g =>
    if ordered then (sortBy id (at_ g)).reverse else (at_ g).reverse)

/-- Admitted counts of one instance (R402). -/
def admitSource (x : Ctx) (inst c : Nat) (order : List Nat) : List (Nat × Nat) :=
  (order.foldl (fun (a : Nat × List (Nat × Nat)) src =>
    let n := min (countOf x src inst).1 a.1
    (a.1 - n, a.2 ++ [(src, n)])) (c, [])).2

def admittedOf (as : List (Nat × Nat)) (src : Nat) : Nat := ((as.find? (fun a => a.1 == src)).map (·.2)).getD 0

/-- One instance after admission: parts by ascending source, the ordinal of the first token kept, and the dropped count. -/
def admitInst (x : Ctx) (members : List Nat) (c : Nat) (order : List Nat) (i : Nat) : Alloc × Nat :=
  let as := admitSource x i c order
  let cs := members.map (fun m =>
    let a := admittedOf as m
    let n := countOf x m i
    (m, a, n.2 + (n.1 - a)))
  let total := cs.foldl (fun n k => n + k.2.1) 0
  let asked := members.foldl (fun n m => n + (countOf x m i).1) 0
  (⟨i, i % 16 * c, total, 0, layParts (i % 16 * c) cs⟩, asked - total)

/-- Zero and tag the padding of a stall (R402). -/
def padStall (r : CtxRec) (layer c : Nat) (s : State) (a : Alloc) : State :=
  let st := rowStride r.fmtOut r.hidden
  let n := c - a.rows
  let at_ := a.first + a.rows
  if n = 0 then s
  else postWrite .gate (tagAt r layer at_) ((List.range n).flatMap (fun _ => tagBytes 0 4 0)) false
    (postWrite .gate (r.rows + st * at_) (zeros (st * n)) false s)

/-- COUNTS reply to one source (R402); one whose request is missing has a count of zero for every instance here (R383; log 165). -/
def replyTo (r : CtxRec) (m : MOp) (x : Ctx) (as : List (Alloc × Nat)) (s : State) (src : Nat) : State :=
  let named : List Nat := match x.counts.find? (fun c => c.1 == src) with
    | some c => c.2.map (fun e => e.1)
    | none => myInsts s r m.layer
  let es := as.filterMap (fun a =>
    if !named.contains a.1.inst then none
    else
      let part := a.1.parts.find? (fun p => p.1 == src)
      let n := (part.map (·.2.2.1)).getD 0
      some (countEntry a.1.inst n ((part.map (·.2.1)).getD a.1.first) (if n < (countOf x src a.1.inst).1 then 3 else 0)))
  let b := bodyHead 2 m x.step ++ es.flatten
  if es.isEmpty then s else sendMktChunk r m src (mktChunk s r m x.step kCounts 9 0 0 es.length b false) s

/-- CAPACITY_ADMIT (R402 to R404). -/
def capacityAdmit (c : Nat) (s : State) : State :=
  let x := getCtx s c
  match x.record with
  | none => s
  | some r =>
    if !x.posting || x.allocated || x.mode ≠ 1 || x.state = 0 then s
    else
      let m := openOp c x
      let members := mktMembers s r
      let cap := 48 * r.units
      let order := keepOrder s r x
      let is := dedup (sortBy id (namedInsts x ++ myInsts s r m.layer))
      let as := is.map (admitInst x members cap order)
      let missing := members.any (fun k => !x.counts.any (fun q => q.1 == k))
      let s := as.foldl (fun s a => padStall r m.layer cap (a.1.parts.foldl (writeTags r m.layer) s) a.1) s
      let received := fun (a : Alloc) => if s.mkt.divFixUsed then a.rows else cap
      let insts := as.map (fun a => ⟨a.1.inst, a.1.first, cap, received a.1, 4 * b2n missing + 8 * b2n (decide (0 < a.2))⟩)
      let s := allocated m r insts (expectOf (as.map (·.1))) s
      let dropped := as.foldl (fun n a => n + a.2) 0
      let s := modCtx c (fun x => { x with drop := (x.drop + dropped) % 2 ^ 16 }) s
      let s := if 0 < dropped && !(grpOf s r.group).any (·.ordered) then setModeAt x.step mfMarket s else s
      members.foldl (replyTo r m x as) s

def execCapacityAdmit (ctx : Nat) (s : State) : Res := act s (capacityAdmit (ctx % 32))

/-- The source keeps its last tokens and drops the others (R402). -/
def takeReply (rd : ReadEnd) (r : CtxRec) (m : MOp) (f : MFrame) (s : State) : State :=
  (frameEntries f.body).foldl (fun s e =>
    let x := getCtx s m.ctx
    match askedRange x f.src e.1 with
    | none => s
    | some g =>
      let s := dropAsked m.ctx g s
      let es := rangeEntries s r m.layer g
      if e.2.2.2 = 0 ∨ e.2.2.2 = 3 then
        let cut := es.length - e.2.1
        let s := (es.take cut).foldl (cutCopy r m.layer 26) s
        postRange rd m r x.step g.peer e.2.2.1 (es.drop cut) s
      else refuseRange m r x.step g s) (readsEnd rd s)

/-- COUNTS_REPLY (R402). -/
def execCountsReply (rd : ReadEnd) (s : State) : Res := onFrame true 2 1 s (takeReply rd)

/-! ### Rows that arrive (R388, R390, R400, R401) -/

/-- Bytes of a region count toward the ranges that they belong to; a range whose rows are whole is complete. -/
def noteRows (st base count : Nat) (g : MRange) : MRange :=
  let lo := g.slot * st
  if decide (lo ≤ base ∧ base + count ≤ lo + g.count * st) then
    let done := g.done ++ [(base, count)]
    { g with done := done, complete := covers lo (g.count * st) done }
  else g

/-- The range of a crier row, begun by its first frame. -/
def crierRange (src inst slot : Nat) (x : Ctx) : Ctx :=
  if x.expect.any (fun g => g.slot == slot) then x
  else { x with expect := x.expect ++ [⟨src, inst, slot, Config.crierOrdinal src slot % 2 ^ 20, 1, [], false⟩] }

/-- ROW_FRAME (R400, R401): bytes of a dispatch row go into their stall slot, tagged by the frame's source. A body without bytes
stands for a frame that was discarded: its row is expected and lacks what the frame held. -/
def takeRow (r : CtxRec) (m : MOp) (f : MFrame) (s : State) : State :=
  let st := rowStride r.fmtOut r.hidden
  let slot := field (numAt f.body 8 4) 19 0
  let off := numAt f.body 12 4
  let bs := f.body.drop 16
  let span := (mktMembers s r).length * r.tokens
  let x := getCtx s m.ctx
  match (myInsts s r m.layer).find? (fun v => v % 16 == slot / max 1 span) with
  | none => if bs.isEmpty then s else raise 0x0C 3 (uGate r.stallGate) (mktInfo r m) f.src s
  | some inst =>
    if bs.isEmpty ∧ (!x.posting ∨ r.pool ≤ slot) then s
    else if r.pool ≤ slot ∨ st < off + bs.length then raise 0x0C 3 (uGate r.stallGate) (mktInfo r m) f.src s
    else if !x.posting then raise 0x08 0 (uGate r.stallGate) (mktInfo r m) f.src s
    else
      let fresh := !x.expect.any (fun g => g.slot == slot)
      let s := modCtx m.ctx (crierRange f.src inst slot) s
      let s := modCtx m.ctx (fun x => { x with expect := x.expect.map (noteRows st (slot * st + off) bs.length) }) s
      let s := if fresh then
          postWrite .gate (tagAt r m.layer slot) (tagBytes f.src 1 (Config.crierOrdinal f.src slot)) false s else s
      if bs.isEmpty then s else postWrite .gate (r.rows + slot * st + off) bs false s

def execRowFrame (s : State) : Res := onFrame false 3 2 s takeRow

/-- RETURN_ROW_FRAME (R401): bytes of a returned row go into the return area. -/
def takeReturnRow (r : CtxRec) (m : MOp) (f : MFrame) (s : State) : State :=
  let st := rowStride r.fmtRet r.hidden
  let ordinal := field (numAt f.body 8 4) 19 0
  let off := numAt f.body 12 4
  let bs := f.body.drop 16
  if r.tokens * r.k ≤ ordinal ∨ st < off + bs.length then raise 0x0C 4 (uGate r.stallGate) (mktInfo r m) f.src s
  else
    let s := modCtx m.ctx (fun x => { x with returned := x.returned ++ [(ordinal * st + off, bs.length)] }) s
    postWrite .gate (r.retArea + ordinal * st + off) bs false s

def execReturnRowFrame (s : State) : Res := onFrame false 4 2 s takeReturnRow

/-- A TOKEN chunk that bolts here: its bytes are written (R388), and counted where they belong to the context's open operation
(R390, R393). -/
def tokenBolts (r : CtxRec) (m : MOp) (b : Bytes) (s : State) : State :=
  let h := hdrOf b
  let count := fun (f : Ctx → Ctx) (s : State) => if turnOf s m h.step = .now then modCtx m.ctx f s else s
  let bs := (payloadOf b).take h.count
  let poison := chunkFlag b cfPoisoned
  if m.dir = 0 then
    let st := rowStride r.fmtOut r.hidden
    postWrite .gate (r.rows + h.base) bs poison
      (count (fun x => { x with expect := x.expect.map (noteRows st h.base h.count) }) s)
  else postWrite .gate (r.retArea + h.base) bs poison
    (count (fun x => { x with returned := x.returned ++ [(h.base, h.count)] }) s)

/-! ### Posting ends (R389, R390) -/

/-- An instance record (Table 10-8); an unused one where the layer has no instance at this residue. -/
def instRecord (x : Ctx) (i : Nat) : Bytes :=
  match x.insts.find? (fun v => v.inst % 16 == i) with
  | some v => natLe 2 v.inst ++ natLe 1 (setBit v.flags 0) ++ natLe 1 x.pass ++ natLe 4 v.first ++ natLe 4 v.rows ++
      natLe 4 v.tokens ++ natLe 4 x.step ++ zeros 12
  | none => natLe 2 0xFFFF ++ zeros 30

/-- Instances of a crier layer: the rows that came for each of this member's instances (R398). -/
def crierInsts (s : State) (r : CtxRec) (layer : Nat) (x : Ctx) : List MInst :=
  let span := (mktMembers s r).length * r.tokens
  (myInsts s r layer).map (fun v =>
    let n := x.expect.countP (fun g => g.inst == v)
    let miss := x.expect.any (fun g => g.inst == v && !g.complete)
    ⟨v, v % 16 * span, span, n, 2 * b2n miss⟩)

/-- The layer completes: all 16 instance records, which follow their rows through the wells (R414), and the posted half of
BLK_MKT_DONE (R390). -/
def finishPosting (c : Nat) (r : CtxRec) (s : State) : State :=
  let x := getCtx s c
  let s := if x.mode = 2 && x.pass = 0 then
      let is := crierInsts s r x.layer x
      let s := modCtx c (fun x => { x with insts := is }) s
      if r.counted then is.foldl (addCount c) s else s
    else s
  let x := getCtx s c
  let s := postAnnounce .gate (ledgerAt r x.layer) ((List.range 16).flatMap (instRecord x)) s
  modCtx c (fun x => { x with posting := false, posted := (x.posted + 1) % 2 ^ 16 }) s

/-- POSTING_COMPLETE (R390). -/
def postingComplete (c : Nat) (s : State) : State :=
  let x := getCtx s c
  match x.record with
  | none => s
  | some r => if x.posting && x.allocated && x.expect.all (·.complete) && !anyPending .gate s then finishPosting c r s else s

def execPostingComplete (ctx : Nat) (s : State) : Res := act s (postingComplete (ctx % 32))

/-- Zero and tag the rows of a range that are not completely written (R390). -/
def zeroMissing (r : CtxRec) (layer : Nat) (s : State) (g : MRange) : State :=
  let st := rowStride r.fmtOut r.hidden
  (List.range g.count).foldl (fun s q =>
    let slot := g.slot + q
    if covers (slot * st) st g.done then s
    else
      let t := tagRead s r layer slot
      postWrite .gate (tagAt r layer slot) (tagBytes t.src (setBit t.flags 1) t.ordinal) false
        (postWrite .gate (r.rows + slot * st) (zeros st) false s)) s

/-- POSTING_TIMEOUT (R390): at 2 × D. -/
def postingTimeout (c : Nat) (s : State) : State :=
  let x := getCtx s c
  match x.record with
  | none => s
  | some r =>
    if !x.posting || !x.allocated then s
    else
      let bad := x.expect.filter (fun g => !g.complete)
      if bad.isEmpty then postingComplete c s
      else
        let s := bad.foldl (zeroMissing r x.layer) s
        let s := modCtx c (fun x => { x with
          insts := mapWhere (fun v => bad.any (fun g => g.inst == v.inst)) (fun v => { v with flags := setBit v.flags 1 }) x.insts }) s
        let s := setModeAt x.step mfMarket (setCtxBit c mkMissing s)
        finishPosting c r (raise 0x07 0 (uGate r.stallGate) (mktInfo r (openOp c x)) (memberId s) s)

def execPostingTimeout (ctx : Nat) (s : State) : Res := act s (postingTimeout (ctx % 32))

/-! ### RETURN (R392) -/

/-- The expert output rows of one range go back to its source. -/
def returnRange (rd : ReadEnd) (r : CtxRec) (m : MOp) (step : Nat) (crier : Bool) (s : State) (g : MRange) : State :=
  let st := rowStride r.fmtRet r.hidden
  let back : MOp := { m with dir := 1 }
  let row := fun (q : Nat) => (r.expOut + st * (g.slot + q), st)
  if crier then (List.range g.count).foldl (fun s q =>
    sendRowFrames r back step g.peer 4 (g.ordinal + q) (hostRead s (row q).1 st) s) s
  else postStream r back step r.fmtRet g.peer (g.ordinal * st) (hostRead s (row 0).1 (st * g.count))
    (fun i => readBad s rd ((row 0).1 + 4096 * i) (min 4096 (st * g.count - 4096 * i))) s

def returnStarts (rd : ReadEnd) (r : CtxRec) (m : MOp) (step : Nat) (s : State) : State :=
  let s := readsEnd rd s
  let crier := decide ((getCtx s m.ctx).mode = 2)
  let gs := ledgerRanges s r m.layer (fun f => bitOf f 1 || bitOf f 2)
  let s := modCtx m.ctx (fun x => { x with
    returning := true, layer := m.layer, pass := m.pass, step := step, combinedTok := [], timedOut := false, leftOut := [] }) s
  gs.foldl (returnRange rd r m step crier) s

/-- RETURN (R392). -/
def execRet (rd : ReadEnd) (s : State) : Res := onMarket 0x21 s none (returnStarts rd)

/-! ### Combine (R393 to R395) -/

/-- Whether a copy has come back whole. -/
def copyBack (x : Ctx) (r : CtxRec) (ordinal : Nat) : Bool :=
  let st := rowStride r.fmtRet r.hidden
  covers (ordinal * st) st x.returned

/-- The live copies of a token in rank order. -/
def liveCopies (s : State) (r : CtxRec) (layer t : Nat) : List BookEnt :=
  ((bookRead s r layer).filter (fun e => e.token == t)).filter BookEnt.lives

/-- R394: the combined values of one token. -/
def combineRow (s : State) (r : CtxRec) (weighted : Bool) (es : List BookEnt) : List F32 :=
  let st := rowStride r.fmtRet r.hidden
  es.foldl (fun acc e =>
    let y := decodeRow r.fmtRet r.hidden (hostRead s (r.retArea + st * e.ordinal) st)
    (acc.zip y).map (fun p => if weighted then f32Fma e.gate p.2 p.1 else f32Add p.1 p.2)) (List.replicate r.hidden 0)

def outputBytes (r : CtxRec) (vs : List F32) : Bytes :=
  vs.flatMap (fun v => if r.fp32Out then natLe 4 v.toNat else natLe 2 (bf16Rne v).toNat)

/-- The last combine of a RETURN: the combined half of BLK_MKT_DONE, and a context that is free again (R26, R367, R395). -/
def combineEnds (c : Nat) (r : CtxRec) (s : State) : State :=
  let x := getCtx s c
  let last := decide (x.pass = 1) && decide (x.firstLayer = some x.layer)
  let members := mktMembers s r
  modCtx c (fun x =>
    let y := { noteMissed members x with combined := (x.combined + 1) % 2 ^ 16, returning := false }
    if !r.counted || last then freeCtx y else y) s

/-- Once every token is combined, the RETURN ends when the market program's writes have completed (R395). -/
def combineDone (c : Nat) (r : CtxRec) (s : State) : State :=
  if (getCtx s c).combinedTok.length = r.tokens ∧ !anyPending programOwner s then combineEnds c r s else s

/-- COMBINE (R393 to R395) for one token; for one that is combined already, a look at whether the last write has completed. -/
def combineToken (rd : ReadEnd) (c t : Nat) (s : State) : State :=
  let x := getCtx s c
  match x.record with
  | none => s
  | some r =>
    if !x.returning || r.tokens ≤ t then s
    else if x.combinedTok.contains t then combineDone c r s
    else
      let es := liveCopies s r x.layer t
      if es.any (fun e => !copyBack x r e.ordinal && !x.leftOut.contains e.ordinal) then s
      else
        let es := es.filter (fun e => !x.leftOut.contains e.ordinal)
        let st := rowStride r.fmtRet r.hidden
        let s := readsEnd rd s
        let bad := es.any (fun e => readBad s rd (r.retArea + st * e.ordinal) st)
        let bs := outputBytes r (combineRow s r (decide (x.pass = 0)) es)
        let s := postWrite programOwner (r.output + bs.length * t) bs bad s
        combineDone c r (modCtx c (fun x => { x with combinedTok := x.combinedTok ++ [t] }) s)

def execCombine (ctx token : Nat) (rd : ReadEnd) (s : State) : Res := act s (combineToken rd (ctx % 32) token)

/-- COMBINE_TIMEOUT (R393): the copies that have not returned by D are left out. -/
def combineTimeout (c : Nat) (s : State) : State :=
  let x := getCtx s c
  match x.record with
  | none => s
  | some r =>
    if !x.returning || x.timedOut then s
    else
      let gone := (bookRead s r x.layer).filter (fun e =>
        e.lives && !x.combinedTok.contains e.token && !copyBack x r e.ordinal)
      let s := modCtx c (fun x => { x with timedOut := true, leftOut := gone.map (·.ordinal) }) s
      if gone.isEmpty then s
      else
        let s := (dedup (gone.map (·.token))).foldl (fun s t => headerFlag r x.layer t 2 s) s
        let s := setModeAt x.step mfMarket (setCtxBit c mkUnreturned s)
        raise 0x07 0 (uGate r.stallGate) (mktInfo r ⟨c, 1, x.pass, x.layer⟩) (memberId s) s

def execCombineTimeout (ctx : Nat) (s : State) : Res := act s (combineTimeout (ctx % 32))

end Sys2Proof.Machine
end

