-- ==== Sys2Proof/Machine/Receive.lean ====
section
/-! DEFINITION. Chunks at a gate: sending (07 R262 to R267; 09 R345), receiving (R259, R282, R334, R388) and bolting (R343). -/

namespace Sys2Proof.Machine

/-! ### CHUNK_SEND -/

/-- Whether a chunk about to be sent has not bolted here, so that its copy leaves latched (R253, R345). A member's own
first-hop and market chunks, and what it broadcasts as root, have bolted. -/
def unbolted (s : State) (i : SendItem) : Bool :=
  let h := hdrOf i.bytes
  if i.vc = 7 then anyGate s (fun k => k.mkt.any (fun c => c.forwardTo.isSome && sameChunk (hdrOf c.bytes) h))
  else match findOp s (hdrName h) with
    | none => false
    | some o =>
      if i.vc = 6 then o.bc.any (fun c => sameChunk (hdrOf c.bytes) h && !c.bolted)
      else match i.cell.bind o.cell with
        | some c => !c.bolted
        | none => false

/-- Whether a copy is the retained one of a queued chunk. -/
def sameCopy (i : SendItem) (r : Retained) : Bool := sameChunk (hdrOf r.bytes) (hdrOf i.bytes) && (r.green == i.green)

/-- Whether a retention slot already holds an earlier copy of a queued chunk. -/
def holdsSlot (i : SendItem) (k : Gate) : Bool := k.retained.any (sameCopy i)

/-- Whether a queued chunk may start (R264): a retention slot, its GRANT on VC 2 to 5, and a link that is up. -/
def maySend (s : State) (g : Nat) (i : SendItem) : Bool :=
  (i.resend || i.slot || holdsSlot i (getGate s g) || decide (slotsUsed (getGate s g) < 64)) && (!i.needGrant || i.granted) &&
    (i.green || linkUp s g)

/-- Take the first queued chunk of a channel that may start. -/
def takeFirst (p : α → Bool) : List α → Option (α × List α)
  | [] => none
  | x :: xs => if p x then some (x, xs) else (takeFirst p xs).map (fun r => (r.1, x :: r.2))

/-- The retained copy of a chunk that starts (R263): a resent one keeps its slot and its CACKs (R353), a rebuilt output takes the
slot of the copy that it replaces. -/
def retainSent (i : SendItem) (b : Bytes) (latched stomped : Bool) (k : Gate) : Gate :=
  let new : Retained :=
    { bytes := b, mask := i.mask, excluded := i.excluded, vc := i.vc, green := i.green, firstHop := i.firstHop, unsent := false,
      acked := [], reabsorbed := [], latched := latched, gone := i.green, heldNotices := [], stomped := stomped, cell := i.cell }
  let again := fun (r : Retained) => { r with bytes := b, latched := latched, gone := i.green, stomped := r.stomped || stomped }
  if holdsSlot i k then
    { k with retained := replaceFirst (sameCopy i) (fun r => if i.resend then again r else new) k.retained }
  else { k with retained := k.retained ++ [new] }

/-- A first-hop chunk that leaves after a CLOSE re-absorbs what of it lies in the closed ranges (R340). -/
def reabsorbClosed (g : Nat) (b : Bytes) (s : State) : State :=
  let rs := ((findOp s (hdrName (hdrOf b))).map (·.closed)).getD []
  let s := rs.foldl (fun s r =>
    match (getGate s g).retained.find? (fun x => x.firstHop && sameChunk (hdrOf x.bytes) (hdrOf b)) with
    | some x => reabsorbChunk g r.1 r.2 s x
    | none => s) s
  if rs.isEmpty then s else releaseGate g s

/-- Faults of an uncorrectable word met while a chunk is sent (R267, R518). -/
def sendFaults (g : Nat) (h : Hdr) (err : Option GateErr) (s : State) : State :=
  match err with
  | some .granary => raise 0x01 4 (uGate g) (chunkInfo h.group h.seq h.index) 0 s
  | some .retention =>
    raise 0x14 1 (uGate g) (chunkInfo h.group h.seq h.index) h.member
      (raise 0x01 5 (uGate g) (chunkInfo h.group h.seq h.index) 0 s)
  | _ => s

/-- Whether the retained copy of a chunk is already marked stomped (Table 15-1). -/
def sentStomped (k : Gate) (green : Bool) (b : Bytes) : Bool :=
  k.retained.any (fun r => r.stomped && (r.green == green) && sameChunk (hdrOf r.bytes) (hdrOf b))

/-- CHUNK_SEND for one queued chunk. An uncorrectable word, or poison, that the gate reads from its granary or its retention
buffer for it leaves the chunk stomped and retained so; the cell of a granary word is rebuilt (R267, Table 15-1). -/
def startItem (g : Nat) (err : Option GateErr) (i : SendItem) (rest : List SendItem) (s : State) : State :=
  let latched := unbolted s i
  let b := chunkSetFlag i.bytes cfLatched latched
  let h := hdrOf b
  let bad := decide (err = some .retention ∨ err = some .granary) || (i.resend && sentStomped (getGate s g) i.green b)
  let wire := if bad then chunkStomp b else b
  let s := modGate g (fun k => retainSent i b latched bad { k with sendQ := rest }) s
  let s := if i.green then modGate g (fun k => { k with greenIn := k.greenIn ++ [⟨wire, 0⟩] }) s
    else pushFlits g i.vc (chunkFlits wire i.mask i.excluded) s
  let s := match i.cell with
    | some j => modCell (hdrName h) j (fun c => { c with phase := .sent }) s
    | none => s
  let s := if i.firstHop && !i.resend && decide (i.vc ≠ 7) then reabsorbClosed g b s else s
  let s := sendFaults g h err s
  match err, i.cell with
  | some .granary, some j => rebuildCell (hdrName h) j Config.granaryReason s
  | _, _ => s

/-- CHUNK_SEND (R263, R264, R345, R267): `err` is an uncorrectable word that the gate meets in it. -/
def chunkSend (g vc : Nat) (err : Option GateErr) (s : State) : State :=
  match takeFirst (fun i => i.vc == vc && maySend s g i) (getGate s g).sendQ with
  | some (i, rest) => startItem g err i rest s
  | none => s

def execChunkSend (g vc : Nat) (err : Option GateErr) (s : State) : Res := actOn numGates g s (chunkSend g vc err)

/-! ### CHUNK_RECEIVE -/

/-- A market chunk that reaches a gate (R371 to R373, R388, R405): held until it bolts, and forwarded at once. -/
def mktArrives (g : Nat) (b : Bytes) (ok : Bool) (s : State) : State :=
  let h := hdrOf b
  let m := mopOf h.seq
  let dst := Config.tokenDestination b % 2 ^ 18
  if (grpOf s h.group).isNone then gateFault 0x0C 4 g h h.member 0 s
  else if !sealGood b || !ok then
    let r := if sealStomped b then 4 else 0
    sendResend g 1 r h (gateFault 0x04 r g h h.member 0 (modGate g (fun k => { k with sealErr := satInc k.sealErr 1 }) s))
  else if malformed 7 b then gateFault 0x06 6 g h h.member 0 (modGate g (fun k => { k with massErr := satInc k.massErr 1 }) s)
  else
    let same := fun (c : MktChunk) => decide (c.fromGate = g) && sameChunk (hdrOf c.bytes) h
    let hold := fun (o : Option Nat) (s : State) => modGate g (fun k => { k with
      mkt := k.mkt.filter (fun c => !same c) ++ [⟨b, g, true, !chunkFlag b cfLatched, o, dst⟩] }) s
    match routeFrom s m.ctx dst g with
    | .here => if h.kind = kCounts ∧ (getCtx s m.ctx).mode ≠ 1 then gateFault 0x0C 4 g h h.member 0 s else hold none s
    | .gate o => enqueueItem o (mkItem b [] 0 7 false false true none) (hold (some o) s)
    | why => routeFault why (uGate g) 4 (chunkInfo h.group h.seq h.index) h.member s

/-- A whole chunk with its mask frame goes where its channel says (07 Table 07-5). -/
def chunkArrives (g vc : Nat) (b : Bytes) (mask : List MaskEnt) (excluded : Nat) (ok : Bool) (s : State) : State :=
  if vc = 7 then mktArrives g b ok s
  else if vc = 6 then bcastArrives g b mask excluded ok s
  else inputArrives g vc b mask excluded ok s

/-- What an uncorrectable word of a gate's memories does to a chunk that arrives (Table 15-1): before it, and after it. -/
def arriveErr (h : Hdr) (err : Option GateErr) (s : State) : State :=
  match err with
  | some (.cache reloads) =>
    let s := raise 0x01 7 uSteward (chunkInfo h.group h.seq h.index) 0 s
    if reloads then s else { s with roll := { s.roll with groups := s.roll.groups.filter (fun g => g.id != h.group) } }
  | _ => s

def granaryErr (g : Nat) (h : Hdr) (err : Option GateErr) (s : State) : State :=
  match err, grpOf s h.group, findOp s (hdrName h) with
  | some .granary, some gr, some o =>
    let s := raise 0x01 4 (uGate g) (chunkInfo h.group h.seq h.index) 0 s
    ((cellsOf gr h.base h.count).filter (fun j => (o.cell j).isSome)).foldl
      (fun s j => rebuildCell (hdrName h) j Config.granaryReason s) s
  | _, _, _ => s

/-- Flits from the first CHUNK_FIRST to the first CHUNK_LAST, and how many stand before them. -/
def nextFrame (fs : List Bytes) : Option (Nat × List Bytes) :=
  let lead := fs.takeWhile (fun f => decide (numAt f 0 1 ≠ 4))
  let rest := fs.drop lead.length
  let body := rest.takeWhile (fun f => decide (numAt f 0 1 ≠ 6))
  match rest.drop body.length with
  | [] => none
  | l :: _ => some (lead.length, body ++ [l])

/-- Whether a CLOSE with outcome 0 for a chunk's range stands before it on the link: it goes on to the children first (R338). -/
def closeAhead (s : State) (g : Nat) (h : Hdr) : Bool :=
  (tget [] (getGate s g).rxBuf 1).any (fun f =>
    let n := f.drop 1
    let c := noticeHdr n
    decide (noticeCode n = nClose ∧ numAt n 33 1 = 0 ∧ hdrName c = hdrName h ∧ c.base = h.base ∧ c.count = h.count))

/-- Whether a broadcast chunk stays in its receive buffer: its CLOSE notices go first (R338), and one that would open an operation
waits until that may open (R35, R36, R38). -/
def bcastWaits (s : State) (g : Nat) (h : Hdr) : Bool :=
  closeAhead s g h ||
    ((myGrp s h.group).any (fun x => !x.failed) && (findOp s (hdrName h)).isNone && !nameEnded s (hdrName h) && !mayOpen s (hdrName h))

/-- CHUNK_RECEIVE over a link: the next whole chunk of a channel; one with mask_follows waits for its mask frame (R262). -/
def linkChunk (g vc : Nat) (err : Option GateErr) (s : State) : State :=
  if (getGate s g).maskWait.any (fun w => w.1 == vc) then s
  else match nextFrame (tget [] (getGate s g).rxBuf vc) with
  | none => s
  | some (lead, fs) =>
    let b := fit 0 chunkBytes (fs.flatMap (·.drop 1))
    let h := hdrOf b
    if vc = 6 && bcastWaits s g h then s else
    let s := arriveErr h err (popRx g vc (lead + fs.length) s)
    if bitOf h.flags cfMask then modGate g (fun k => { k with maskWait := k.maskWait ++ [(vc, b)] }) s
    else granaryErr g h err (chunkArrives g vc b [] 0 true s)

/-- CHUNK_RECEIVE across the green: the next first-hop chunk handed to an adder of this block (R288). -/
def greenChunk (g : Nat) (err : Option GateErr) (s : State) : State :=
  match (getGate s g).greenIn with
  | [] => s
  | c :: rest =>
    let h := hdrOf c.bytes
    let s := arriveErr h err (modGate g (fun k => { k with greenIn := rest }) s)
    granaryErr g h err (inputArrives g (redVc h.group) c.bytes [] 0 true s)

/-- CHUNK_RECEIVE (R259, R282). -/
def execChunkReceive (g : Nat) (via : Via) (err : Option GateErr) (s : State) : Res :=
  actOn numGates g s (fun s => match via with
    | .link vc => if 2 ≤ vc then linkChunk g vc err s else s
    | .green => greenChunk g err s)

/-! ### MASK_FRAME_RECEIVE -/

/-- The chunk that waits on a channel goes on with its mask frame, or as a seal failure (R334). -/
def maskDone (g vc n : Nat) (b : Bytes) (frame : Option Bytes) (s : State) : State :=
  let s := popRx g vc n (modGate g (fun k => { k with maskWait := k.maskWait.filter (fun w => w.1 != vc) }) s)
  match frame.bind maskParse with
  | some (es, x) => chunkArrives g vc b es x true s
  | none => chunkArrives g vc b [] 0 false s

def maskReceive (g vc : Nat) (s : State) : State :=
  match (getGate s g).maskWait.find? (fun w => w.1 == vc), tget [] (getGate s g).rxBuf vc with
  | some (_, b), f :: fs =>
    let ms := (f :: fs).takeWhile (fun x => decide (numAt x 0 1 = 8))
    let n := maskLen f
    if ms.isEmpty then maskDone g vc 0 b none s
    else if n ≤ ms.length then maskDone g vc n b (some ((ms.take n).flatMap (·.drop 1))) s
    else if ms.length < (f :: fs).length ∨ 65 < n then maskDone g vc ms.length b none s
    else s
  | _, _ => s

/-- MASK_FRAME_RECEIVE (R262, R334). -/
def execMaskFrameReceive (g vc : Nat) (s : State) : Res := actOn numGates g s (maskReceive g vc)

/-! ### CHUNK_BOLT -/

/-- The bolting of a market chunk itself: it enters C if it came over a link, sets its mode flags, and is acknowledged. -/
def mktBoltMarks (g : Nat) (c : MktChunk) (s : State) : State :=
  let h := hdrOf c.bytes
  let s := modGate g (fun k => { k with mkt := k.mkt.erase c, mktDone := k.mktDone ++ [c.bytes.take 40] }) s
  let s := boltModes c.bytes [] s
  if c.fromGate < numGates then
    sendNotice c.fromGate (cackNotice h h.base h.count) (tallyChunk c.bytes [] 0 s)
  else s

/-- CHUNK_BOLT for a market chunk (R343, R346, R388): a forwarded one confirms the copy sent on; one addressed here waits
until its market operation is open, then its rows are written or its counts go to the stall gate. -/
def mktBolt (g i : Nat) (s : State) : State :=
  match (getGate s g).mkt[i]? with
  | none => s
  | some c =>
    let h := hdrOf c.bytes
    let m := mopOf h.seq
    if !c.confirmed || !c.sealOk then s
    else match c.forwardTo with
    | some o => boltSent o h (mktBoltMarks g c s)
    | none =>
      if h.kind = kCounts then
        pushFrame ⟨h.member, c.fromGate, true, (payloadOf c.bytes).take (8 + 8 * h.count)⟩ (mktBoltMarks g c s)
      else match (getCtx s m.ctx).record with
      | none => gateFault 0x0C 4 g h h.member 0 (modGate g (fun k => { k with mkt := k.mkt.erase c }) s)
      | some r =>
        if turnOf s m h.step = .wait || (decide (m.dir = 0) && (getCtx s m.ctx).posting && !(getCtx s m.ctx).allocated) then s
        else tokenBolts r m c.bytes (mktBoltMarks g c s)

/-- CHUNK_BOLT (R343). -/
def execChunkBolt (r : BoltRef) (s : State) : Res :=
  match r with
  | .cell op j => act s (boltCell op j)
  | .bcast op index => act s (boltBcast op index)
  | .market g i => actOn numGates g s (mktBolt g i)

end Sys2Proof.Machine
end

