-- ==== Sys2Proof/Machine/Steward.lean ====
section
/-! DEFINITION. The steward: unit status over time, coalesced records and exposure lists (15 R528 to R532, R540), the book's
format and dump (R537), and the almanac (R542 to R545). -/

namespace Sys2Proof.Machine

/-! ### Unit status and held faults (R528, R540) -/

/-- The units of 15 Table 15-5. -/
def unitExists (u : Nat) : Bool :=
  decide (u < numCores ∨ (0x1000 ≤ u ∧ u < 0x1000 + numGates) ∨ (0x2000 ≤ u ∧ u < 0x2000 + numWells) ∨ u = uSteward ∨
    (0x4000 ≤ u ∧ u < 0x4000 + numCores) ∨ u = uBlock)

/-- A timer of a unit. -/
def actUnit (u : Nat) (s : State) (f : State → State) : Res :=
  if unitExists u then act s f else .fault .noSuchUnit

/-- A whole window without a fault: a transient or suspect unit is clean again (R528). -/
def windowExpires (u : Nat) (s : State) : State :=
  let k := getUnit s u
  if k.status = 1 ∨ k.status = 2 then setStatus u 0 0 (modUnit u (fun k => { k with faults := [] }) s) else s

/-- STATUS_WINDOW_EXPIRE (R528). -/
def execStatusWindowExpire (unit : Nat) (s : State) : Res := actUnit unit s (windowExpires unit)

/-- The coalesced record of a unit's held faults (R540; log 35). -/
def coalescedRecord (s : State) (u : Nat) (k : UnitSt) : Bytes :=
  let (cls, detail) := k.heldFirst
  let (i0, i1, outcome) := Config.coalescedInfo cls detail
  recordBytes s 1 cls detail u (min k.heldN 65535) (i0 % 2 ^ 64) (i1 % 2 ^ 64) (outcome % 3) (b2n k.heldMixed)

/-- Sixty seconds after a unit's last record. -/
def coalesce (u : Nat) (s : State) : State :=
  let k := getUnit s u
  if k.lastRec.isNone then s
  else if k.heldN = 0 then modUnit u (fun k => { k with lastRec := none }) s
  else
    let s := nextSeq s
    let r := coalescedRecord s u k
    let s := modUnit u (fun k => { k with
      lastRec := some (recordTime s), heldN := 0, heldFirst := (0, 0), heldMixed := false }) s
    bookWatch s (bookWrite r s)

/-- BOOK_COALESCE_TIMER (R540). An uncorrectable word of steward memory met meanwhile raises IRQ_HALT (15 Table 15-1). -/
def execBookCoalesceTimer (unit : Nat) (memErr : Bool) (s : State) : Res :=
  actUnit unit s (fun s =>
    if memErr then raise 0x01 8 uSteward 0 0 { s with boot := { s.boot with memErr := true } } else coalesce unit s)

/-! ### Exposure lists (R531, R532) -/

/-- One entry of 15 Table 15-6: kind, id, first, count. -/
abbrev ExpEntry := Nat × Nat × Nat × Nat

/-- Group entries of a gate: the groups whose view names it, or the gate it shadows, as adder gate or root gate. -/
def gateEntries (s : State) (g : Nat) : List ExpEntry :=
  let at_ := [g, shadowGate g]
  (s.roll.groups.filter (fun x => x.view.memberOf &&
    (at_.contains x.view.adderGate || x.view.rootGates.any at_.contains))).map (fun x => (0, x.id, 0, 0))

/-- Forge ranges with a moment block at a well or at the well it partners, under every map. -/
def wellEntries (s : State) (w : Nat) : List ExpEntry :=
  let at_ := [w, partnerWell s w]
  let recs := ((s.charter.map (·.maps)).getD []).flatMap (·.forges)
  dedup ((recs.filter (fun r => (List.range (recBlocks r)).any (fun j => at_.contains (blockWell s r j)))).map
    (fun r => (1, r.tensor, r.first, r.count)))

def coreEntries (s : State) (c : Nat) : List ExpEntry :=
  dedup ((((s.charter.map (·.slivers)).getD []).filter (fun v => decide (v.core = c) || decide (checkCore s v.core = c))).map
    (fun v => (2, v.tensor, v.first, v.count)))

/-- The entries of a unit, and the all flag (R531). -/
def exposureEntries (s : State) (u : Nat) : List ExpEntry × Bool :=
  if u < 0x1000 then (coreEntries s u, false)
  else if u < 0x2000 then (gateEntries s (u - 0x1000), false)
  else if u < 0x3000 then (wellEntries s (u - 0x2000), false)
  else if 0x4000 ≤ u ∧ u < 0x5000 then
    let c := u - 0x4000
    let gs := (List.range numGates).filter (fun g => 24 * g + 9 = c)
    let ws := (List.range numWells).filter (fun w => 24 * (3 * w + 1) + 14 = c)
    (coreEntries s c ++ gs.flatMap (gateEntries s) ++ ws.flatMap (wellEntries s), false)
  else ([(0, 0, 0, 0)], true)

def entryBytes16 (e : ExpEntry) : Bytes := natLe 1 e.1 ++ zeros 3 ++ natLe 4 e.2.1 ++ natLe 4 e.2.2.1 ++ natLe 4 e.2.2.2

/-- The list of a trigger (15 Table 15-6), cut at BLK_EXPOSE_SIZE entries. -/
def exposureList (s : State) (t : Trigger) : Bytes × Bool :=
  let (es, all) := exposureEntries s t.unit
  let cut := decide (s.expose.size < es.length)
  let es := es.take s.expose.size
  let agree := (getUnit s t.unit).lastAgree
  let first := agree.getD (s.step.firstStep.getD t.step)
  (natLe 4 es.length ++ natLe 2 t.unit ++ natLe 1 t.cls ++ natLe 1 (b2n agree.isNone + 2 * b2n all + 4 * b2n cut) ++
    natLe 4 first ++ natLe 4 t.step ++ natLe 4 t.seq ++ zeros 12 ++ es.flatMap entryBytes16, cut)

/-- The first waiting list is written once ready is clear (R532). -/
def exposureWrites (s : State) : State :=
  match s.expose.waiting with
  | [] => s
  | t :: rest =>
    if s.expose.ready then s
    else
      let (bs, cut) := exposureList s t
      let s := postWrite .steward s.expose.base.toNat bs false s
      { s with expose := { s.expose with ready := true, truncated := cut, waiting := rest } }

/-- EXPOSURE_LIST_WRITE (R532). -/
def execExposureListWrite (s : State) : Res := act s exposureWrites

/-! ### The book's format and dump (R537) -/

/-- The book header of 15 Table 15-7. -/
def bookIdentity (c : Charter) (sectors : Nat) : Bytes :=
  withCrc (natLe 4 0x4B4F4F42 ++ natLe 2 1 ++ natLe 2 sectors ++ natLe 8 c.serial ++ natLe 4 c.rated ++ natLe 4 c.jedec ++
    natLe 4 c.density ++ zeros 32)

/-- The flash answers as the charter names it, can be written, and its sector 0 is blank. -/
def formatOk (s : State) (c : Charter) : Bool :=
  (s.book.flashId.any (fun f => decide (f.jedec = c.jedec ∧ f.density = c.density))) && !s.book.unusable &&
    (flashRead s 0 4096).all (· == 0xFF)

def bookFormats (s : State) : State :=
  match s.charter with
  | some c => if formatOk s c then flashProgram 0 (bookIdentity c (bookSectors s)) s else s
  | none => s

/-- BOOK_FORMAT (R537). -/
def execBookFormat (s : State) : Res := act s bookFormats

def bookDumps (s : State) : State :=
  let bs := if s.book.unusable then [] else (bookRecords s).flatten
  let s := postWrite .steward s.book.dumpBase.toNat bs false s
  { s with book := { s.book with dumpLen := BitVec.ofNat 32 bs.length } }

/-- BOOK_DUMP (Table 15-10). -/
def execBookDump (s : State) : Res := act s bookDumps

/-! ### The almanac (R542 to R545) -/

/-- Test i of a package at address a (15 Table 15-8), with the tally of its pattern. -/
def almTestAt (s : State) (a i : Nat) : AlmTest :=
  let b := hostRead s (a + 64 + 32 * i) 32
  let off := numAt b 4 4
  let len := numAt b 8 4
  { unitClass := numAt b 0 1, offset := off, len := len, budget := numAt b 12 4,
    expected := BitVec.ofNat 64 (numAt b 16 8), patTally := tally (hostRead s (a + off) len) ((a + off) / 8) }

/-- Magic, format, L and the reserved fields (R543). -/
def almLayoutOk (s : State) (a : Nat) (h : Bytes) : Bool :=
  let n := numAt h 6 2
  let l := numAt h 16 4
  decide (numAt h 0 4 = 0x4E4D4C41 ∧ numAt h 4 2 = 1 ∧ 1 ≤ n ∧ n ≤ 256 ∧ l % 64 = 0 ∧ l ≤ 4 * 2 ^ 20 ∧ 128 + 32 * n ≤ l) &&
  allZero h 20 44 &&
  (List.range n).all (fun i =>
    let b := hostRead s (a + 64 + 32 * i) 32
    decide (numAt b 0 1 ≤ 2 ∧ numAt b 4 4 % 64 = 0) && allZero b 1 3 && allZero b 24 8)

/-- The highest serial of the type 0x03 records in the book and in steward memory. -/
def highestSerial (s : State) : Nat :=
  let book := if s.book.unusable then [] else bookRecords s
  ((book ++ s.aon.held).filter (fun r => decide (numAt r 0 1 = 3))).foldl (fun m r => max m (numAt r 24 8)) s.alm.highest

/-- Why a package is refused, if it is. -/
def almRefused (s : State) (a : Nat) (rd : ReadEnd) : Option Nat :=
  let h := hostRead s a 64
  let l := numAt h 16 4
  let key := (s.charter.map (·.almKey)).getD []
  if rd ≠ .ok then some 4
  else if !almLayoutOk s a h then some 0
  else if hostPoisoned s a l then some 4
  else if numAt h 12 4 ≠ blkVersion.toNat then some 1
  else if !ed25519Verify key (hostRead s a (l - 64)) (hostRead s (a + l - 64) 64) then some 2
  else if numAt h 8 4 < highestSerial s then some 3
  else none

def almPackageFault (cause : Nat) (s : State) : State := raise 0x19 (Config.almRefusal cause % 256) uSteward 0 0 s

/-- ALM_LOAD (R543): the package is installed with a type 0x03 record, or refused with the old one left in force. -/
def almLoads (rd : ReadEnd) (v : Nat) (s : State) : State :=
  let a := cmdAddr v
  let s := readsEnd rd (popCmd s)
  match almRefused s a rd with
  | some cause => almPackageFault cause s
  | none =>
    let h := hostRead s a 64
    let serial := numAt h 8 4
    let s := nextSeq { s with alm := { s.alm with
      tests := (List.range (numAt h 6 2)).map (almTestAt s a), installed := true, pkg := a, serial := BitVec.ofNat 32 serial,
      highest := max s.alm.highest serial } }
    bookWatch s (bookWrite (recordBytes s 3 0 0 uSteward 1 serial 0 0 0) s)

def execAlmLoad (rd : ReadEnd) (s : State) : Res := onHead 0x50 s (almLoads rd)

/-- Unit id of unit n of a test's class. -/
def almUnit (cls n : Nat) : Nat := if cls = 0 then uCore n else if cls = 1 then uGate n else uWell n

def almUnits (cls : Nat) : Nat := if cls = 0 then numCores else if cls = 1 then numGates else numWells

/-- Fenced cores and gates and tied-off wells run no test (R533). -/
def almSkips (s : State) (cls n : Nat) : Bool :=
  if cls = 0 then fencedCore s n else if cls = 1 then fencedGate s n else !wellPresent s n

/-- A unit goes under test: a loaded core is saved first, a gate leaves service (R545). -/
def testBegins (cls n : Nat) (s : State) : State :=
  if cls = 0 then if (getCore s n).state = 0 then s else modCore n askSave s
  else if cls = 1 then modGate n (fun k => { k with testing := true }) s
  else s

/-- The test of a unit is over: a saved core is restored, a gate serves again. -/
def testOver (cls n : Nat) (s : State) : State :=
  if cls = 0 then if (getCore s n).saved then modCore n askRestore s else s
  else if cls = 1 then modGate n (fun k => { k with testing := false }) s
  else s

/-- The next unit of a run goes under test; with none left the run is over. -/
def almNext (cls test : Nat) : Nat → Nat → State → State
  | 0, _, s => { s with alm := { s.alm with run := none } }
  | left + 1, n, s =>
    if almSkips s cls n then almNext cls test left (n + 1) s
    else testBegins cls n { s with alm := { s.alm with run := some ⟨test, n, left⟩ } }

/-- ALM_RUN (R544): waits for the conditions of step 1 of R461, then checks the pattern and tests the first unit; a test or
unit that does not exist is discarded (R562). -/
def almRuns (v : Nat) (s : State) : State :=
  let i := field v 15 8
  let first := field v 27 16
  let count := field v 39 28
  match s.alm.tests[i]? with
  | none => discardCmd 0x51 s
  | some t =>
    if count = 0 ∨ almUnits t.unitClass < first + count then discardCmd 0x51 s
    else if s.alm.run.isSome || !(mapInForce s).all (fun m => hingeIdle m s) || !blockIdle s then s
    else
      let s := popCmd s
      let a := s.alm.pkg + t.offset
      if tally (hostRead s a t.len) (a / 8) ≠ t.patTally then almPackageFault 5 s
      else almNext t.unitClass i count first { s with alm := { s.alm with results := 0 } }

def execAlmRun (s : State) : Res := onHead 0x51 s almRuns

/-- The outcome of a test: 0 pass, 1 tally, 2 timeout, 3 halted (R545). -/
def almOutcome (t : AlmTest) (how : TestEnd) (got : U64) : Nat :=
  match how with
  | .passTally => if got = t.expected then 0 else 1
  | .timeout => 2
  | .halted => 3

/-- The result of the unit under test is written and counted; the next unit follows. -/
def almResult (how : TestEnd) (got : U64) (s : State) : State :=
  match s.alm.run with
  | none => s
  | some r => match s.alm.tests[r.test]? with
    | none => { s with alm := { s.alm with run := none } }
    | some t =>
      if decide (t.unitClass = 0) && (getCore s r.next).saving then s
      else
        let u := almUnit t.unitClass r.next
        let o := almOutcome t how got
        let s := postWrite .steward (s.alm.resultBase.toNat + 16 * s.alm.results)
          (natLe 2 u ++ natLe 1 r.test ++ natLe 1 o ++ zeros 4 ++ natLe 8 got.toNat) false s
        let s := { s with alm := { s.alm with
          results := s.alm.results + 1, pass := if o = 0 then s.alm.pass + 1 else s.alm.pass,
          fail := if o = 0 then s.alm.fail else s.alm.fail + 1 } }
        let s := if o = 0 then s else raise 0x18 (o - 1) u 0 0 s
        almNext t.unitClass r.test r.left (r.next + 1) (testOver t.unitClass r.next s)

/-- ALM_TEST_RESULT (R545). -/
def execAlmTestResult (how : TestEnd) (got : U64) (s : State) : Res := act s (almResult how got)

end Sys2Proof.Machine
end

