-- ==== Sys2Proof/Machine/TallyCmd.lean ====
section
/-! DEFINITION. DECLARE and TALLY (14 R513, R515 to R517, Table 14-6). -/

namespace Sys2Proof.Machine

/-- Regions of a tally descriptor: address and length. -/
def tallyRegions (b : Bytes) : List (Nat × Nat) :=
  (List.range (numAt b 0 2)).map (fun j => (numAt b (64 + 16 * j) 8, numAt b (72 + 16 * j) 8))

def tallyCheck (b : Bytes) : Bool := bitOf (numAt b 2 1) 0
def tallyChain (b : Bytes) : Bool := bitOf (numAt b 2 1) 1

/-- Whether a descriptor is accepted: its counts, its reserved bytes, its regions, and no flags for DECLARE. -/
def tallyDescOk (declare : Bool) (b : Bytes) : Bool :=
  decide (1 ≤ numAt b 0 2 ∧ numAt b 0 2 ≤ 252 ∧ numAt b 2 1 < (if declare then 1 else 4)) && allZero b 3 5 &&
  allZero b 48 16 && (tallyRegions b).all (fun r => decide (r.1 % 8 = 0 ∧ r.2 % 8 = 0 ∧ r.2 ≠ 0 ∧ r.1 + r.2 ≤ 2 ^ 52))

/-- The sum of the regions' tallies, each word at its address over 8. -/
def tallyOfRegions (s : State) (b : Bytes) : U64 :=
  (tallyRegions b).foldl (fun t r => t ^^^ tally (hostRead s r.1 r.2) (r.1 / 8)) 0

/-- A descriptor is read and its job begins, or the command is discarded. -/
def tallyBegins (declare : Bool) (op : Nat) (rd : ReadEnd) (v : Nat) (s : State) : State :=
  let a := cmdAddr v
  let s := readsEnd rd s
  if rd = .ok && tallyDescOk declare (hostRead s a 4096) then
    let s := popCmd s
    { s with step := { s.step with
      jobs := s.step.jobs ++ [⟨declare, a, s.step.opened.getD (2 ^ 32)⟩], tallyBusy := s.step.tallyBusy || !declare } }
  else discardCmd op s

/-- DECLARE (R513). -/
def execDeclare (rd : ReadEnd) (s : State) : Res := onHead 0x40 s (tallyBegins true 0x40 rd)

/-- TALLY (R516): waits until no operation is open and the forges and park regions are idle. -/
def tallyStarts (rd : ReadEnd) (v : Nat) (s : State) : State :=
  if anyOpOpen s || !forgesIdle s || s.step.tallyBusy then s else tallyBegins false 0x41 rd v s

def execTally (rd : ReadEnd) (s : State) : Res := onHead 0x41 s (tallyStarts rd)

/-- A declaration ends: its regions enter I of its step, and their tally is the result (R511, R513, Table 14-9). -/
def declareEnds (j : TallyJob) (t : U64) (s : State) : State :=
  let s := { s with step := { s.step with tallyVal := t } }
  if s.step.opened = some j.step then { s with step := { s.step with tI := s.step.tI ^^^ t } } else s

/-- The kind-3 audit record (14 Table 14-5). -/
def tallyRecord (s : State) (regions result : Nat) (t : U64) : Bytes :=
  natLe 1 3 ++ natLe 1 1 ++ zeros 2 ++ natLe 4 (s.step.lastCurfew.getD 0) ++ zeros 4 ++ natLe 4 (memberId s) ++
    natLe 4 regions ++ natLe 4 result ++ natLe 8 t.toNat ++ s.step.digest

/-- A tally ends: its value, the check, the chain and the record (R515 to R517). -/
def tallyEnds (b : Bytes) (t : U64) (s : State) : State :=
  let agree := decide (t.toNat = numAt b 8 8)
  let result := if !tallyCheck b then 2 else if agree then 0 else 1
  let s := { s with step := { s.step with tallyVal := t, tallyBusy := false } }
  let s := if result = 1 then raise 0x15 1 uBlock 0 0 { s with step := { s.step with mismatch := true } }
    else if result = 0 then { s with step := { s.step with modeNext := setBit s.step.modeNext mfRestored } }
    else s
  let s := if tallyChain b then { s with step := { s.step with digest := slice b 16 32 } } else s
  auditPush 2 (tallyRecord s (numAt b 0 2) result t) s

/-- TALLY_COMPLETE (R513, R516): the oldest DECLARE or TALLY has read its last region. -/
def tallyComplete (rd : ReadEnd) (s : State) : State :=
  match s.step.jobs with
  | [] => s
  | j :: rest =>
    let b := hostRead s j.addr 4096
    let s := readsEnd rd s
    let t := tallyOfRegions s b
    let s := { s with step := { s.step with jobs := rest, tallyDone := s.step.tallyDone + 1 } }
    if j.declare then declareEnds j t s else tallyEnds b t s

def execTallyComplete (rd : ReadEnd) (s : State) : Res := act s (tallyComplete rd)

end Sys2Proof.Machine
end

