-- ==== Sys2Proof/Machine/Registers.lean ====
section
/-! DEFINITION. The management window (17_register_map.md; 00 R12 to R16; 16 R563): where each register stands, what a read
returns, what a write does, the holding copies of pairs, and the key turn. -/

namespace Sys2Proof.Machine

/-! ### The window (R580, R581, R584) -/

/-- A page of the window. -/
inductive Page where
  | block | book | roll
  | gate (g : Nat)
  | core (c : Nat)
  | well (w : Nat)
deriving DecidableEq, Repr

/-- The page and offset that an address reaches for a master; none for an unmapped address (Table 17-1). -/
def place (s : State) (m a : Nat) : Option (Page × Nat) :=
  if a < 0x10000 then some (.block, a)
  else if a < 0x20000 then some (.book, a - 0x10000)
  else if a < 0x30000 then some (.roll, a - 0x20000)
  else if 0x100000 ≤ a ∧ a < 0x100000 + numGates * 0x1000 then some (.gate ((a - 0x100000) / 0x1000), a % 0x1000)
  else if 0x200000 ≤ a ∧ a < 0x300000 then
    let c := 1024 * tget 0 s.mgt.bank m + (a - 0x200000) / 0x400
    if c < numCores then some (.core c, a % 0x400) else none
  else if 0x300000 ≤ a ∧ a < 0x300000 + numWells * 0x1000 then some (.well ((a - 0x300000) / 0x1000), a % 0x1000)
  else none

/-- A number of its own for each register. -/
def regKey (p : Page) (o : Nat) : Nat :=
  match p with
  | .block => o
  | .book => 0x10000 + o
  | .roll => 0x20000 + o
  | .gate g => 0x100000 + g * 0x1000 + o
  | .core c => 0x400000 + c * 0x400 + o
  | .well w => if 0x800 ≤ o then 0x300000 + o else 0x300000 + w * 0x1000 + o

/-- Index of an offset in an array of registers, when it lies in it (R582). -/
def idx (o base n : Nat) : Option Nat := if base ≤ o ∧ o < base + 4 * n ∧ o % 4 = 0 then some ((o - base) / 4) else none

/-- A value of 32 bits of a digest: bytes 4n to 4n + 3, least significant first. -/
def digestWord (d : Bytes) (n : Nat) : Nat := numAt d (4 * n) 4

def charterNat (s : State) (f : Charter → Nat) : Nat := (s.charter.map f).getD 0

/-- A tied-off well's per-well registers read zero, save WELL_STAT.tied_off (R585). -/
def tiedOff (s : State) (w : Nat) : Bool := s.charter.isSome && !wellPresent s w

/-! ### 64-bit pairs (R15, R16, R583) -/

/-- The live value of the pair whose _LO half stands at an offset. -/
def pairAt (s : State) (p : Page) (o : Nat) : Option U64 :=
  let ch := fun (f : Charter → Nat) => BitVec.ofNat 64 (charterNat s f)
  match p with
  | .block =>
    if o = 0x28 then some (ch (·.ctxBase))
    else if o = 0x64 then some s.boot.base
    else if o = 0x10C then some (((s.charter.map (·.sampleSeed)).getD 0))
    else if o = 0x200 then some s.bell.base
    else if o = 0x610 then some s.step.tallyVal
    else if o = 0x620 then some s.step.lastF
    else if o = 0x628 then some s.step.lastI
    else if o = 0x630 then some s.step.lastC
    else if o = 0x638 then some s.step.lastK
    else if o = 0x680 then some s.audit.base
    else if o = 0x700 then some s.flt.base
    else if o = 0x718 then some s.epoch
    else if o = 0x720 then some s.expose.base
    else if o = 0x804 then some (ch (·.mktCtx))
    else if o = 0x80C then some (ch (·.mktRoute))
    else none
  | .book =>
    if o = 0x08 then some s.book.dumpBase
    else if o = 0x124 then some (ch (·.almScratch))
    else if o = 0x12C then some s.alm.resultBase
    else none
  | .roll => if o = 0x0C then some (ch (·.rollDir)) else if o = 0x14 then some (ch (·.rollView)) else none
  | .gate _ => none
  | .core c =>
    if o = 0x18 then some (BitVec.ofNat 64 (getCore s c).brkCnt)
    else if o = 0x20 then some (BitVec.ofNat 64 (getCore s c).issueCnt)
    else none
  | .well w =>
    if o = 0x804 then some s.exp.src
    else if tiedOff s w then none
    else if o = 0x28 then some (getWell s w).expAddr
    else if o = 0x44 then some (BitVec.ofNat 64 (((s.charter.map (·.parkBase)).getD []).getD w 0))
    else none

/-- Write a whole pair; a pair that is read-only keeps its value. Ring and list addresses keep bits 11:0 at zero; the count
breakpoint has 48 bits; BLK_EPOCH restarts the time since it was written (15 Table 15-3). -/
def commitPair (p : Page) (o : Nat) (v : U64) (s : State) : State :=
  let page := v &&& 0xFFFFFFFFFFFFF000#64
  match p with
  | .block =>
    if o = 0x64 then { s with boot := { s.boot with base := v } }
    else if o = 0x200 then { s with bell := { s.bell with base := page } }
    else if o = 0x680 then { s with audit := { s.audit with base := page } }
    else if o = 0x700 then { s with flt := { s.flt with base := page } }
    else if o = 0x718 then { s with epoch := v, aon := { s.aon with timeUs := 0 } }
    else if o = 0x720 then { s with expose := { s.expose with base := page } }
    else s
  | .book =>
    if o = 0x08 then { s with book := { s.book with dumpBase := v } }
    else if o = 0x12C then { s with alm := { s.alm with resultBase := v } }
    else s
  | .core c => if o = 0x18 then modCore c (fun k => { k with brkCnt := v.toNat % 2 ^ 48 }) s else s
  | .well _ => if o = 0x804 then { s with exp := { s.exp with src := v } } else s
  | _ => s

/-- Whether a pair may be written. -/
def rwPair (p : Page) (o : Nat) : Bool :=
  match p with
  | .block => [0x64, 0x200, 0x680, 0x700, 0x718, 0x720].contains o
  | .book => [0x08, 0x12C].contains o
  | .core _ => o == 0x18
  | .well _ => o == 0x804
  | _ => false

/-! ### What a read returns -/

/-- The 15 commands of the FIFO, each as it would start now with every read of it done. -/
def headStarts (s : State) : State :=
  let run := fun (r : Res) => match r with | .next t => t | _ => s
  match s.cmd.fifo with
  | [] => s
  | w :: _ => match cmdOp w with
    | 0x01 => run (execStep s)
    | 0x02 => run (execLayerReady s)
    | 0x03 => run (execCurfew s)
    | 0x04 => run (execBarrier s)
    | 0x06 => run (execReset s)
    | 0x08 => run (execHinge s)
    | 0x0C => run (execProgram .ok s)
    | 0x20 =>
      let t := run (execDispatchForward .ok s)
      if t.cmd.fifo.length = s.cmd.fifo.length then run (execDispatchReplay .ok s) else t
    | 0x21 => run (execRet .ok s)
    | 0x30 => run (execExpand .ok s)
    | 0x40 => run (execDeclare .ok s)
    | 0x41 => run (execTally .ok s)
    | 0x50 => run (execAlmLoad .ok s)
    | 0x51 => run (execAlmRun s)
    | 0x60 => run (execPost s)
    | _ => s

/-- BLK_CMD_STAT.head_wait: the head command cannot start. -/
def headWaits (s : State) : Bool := !s.cmd.fifo.isEmpty && decide ((headStarts s).cmd.fifo.length = s.cmd.fifo.length)

def ringCtl (r : Ring) : Nat := r.ctl + r.log2 * 2 ^ 5

/-- A field of a quantisation class. -/
def qclassReg (s : State) (n : Nat) (f : QClass → U32) : Nat :=
  ((((s.charter.map (·.qclasses)).getD [])[n]?).map (fun q => (f q).toNat)).getD 0

/-- The arrays of the block page. -/
def blockArray (s : State) (o : Nat) : Option Nat :=
  (idx o 0x40 8).map (digestWord ((s.charter.map (·.digest)).getD [])) <|>
  (idx o 0x300 64).map (fun j => (tget 0 s.doneCnt j).toNat) <|>
  (idx o 0x400 16).map (fun n => qclassReg s n (·.ctl)) <|>
  (idx o 0x440 16).map (fun n => qclassReg s n (·.ratio)) <|>
  (idx o 0x480 16).map (fun n => qclassReg s n (·.thr4)) <|>
  (idx o 0x4C0 16).map (fun n => qclassReg s n (·.thr6)) <|>
  (idx o 0x500 16).map (fun n => qclassReg s n (·.thr8)) <|>
  (idx o 0x640 8).map (digestWord s.step.digest) <|>
  (idx o 0x660 8).map (digestWord s.step.progDigest) <|>
  (idx o 0x740 16).map (fun n => (((s.charter.map Charter.ranges).getD []).getD n 0).toNat) <|>
  (idx o 0x780 32).map (fun n => (tget 0 s.faultCnt n).toNat) <|>
  (idx o 0x880 32).map (fun c => let x := tget {} s.mkt.ctx c; x.mode + x.state * 4 + x.bits) <|>
  (idx o 0x900 32).map (fun c => let x := tget {} s.mkt.ctx c; x.posted % 2 ^ 16 + x.combined % 2 ^ 16 * 2 ^ 16) <|>
  (idx o 0x980 32).map (fun c => (tget {} s.mkt.ctx c).drop % 2 ^ 16) <|>
  (idx o 0xA00 72).map (fun n => (tget 0 s.signalMap n).toNat) <|>
  (idx o 0x4000 4096).map (fun i => (tget 0 s.mkt.count i).toNat)

/-- Registers of the block page that are not halves of a pair (Tables 17-3, 17-4, 16-10, 08-4, 08-9, 09-7, 10-13, 14-9, 15-9).
Write-only registers and offsets without a register read zero (R581). -/
def blockReg (s : State) (m o : Nat) : Nat :=
  match o with
  | 0x0000 => blkId.toNat
  | 0x0004 => blkVersion.toNat
  | 0x0008 => s.boot.stage
  | 0x000C => s.aon.resetCause
  | 0x0010 => s.boot.fwVersion
  | 0x0014 => memberId s + nodeSize s * 2 ^ 18
  | 0x0018 => charterNat s (·.curfewGroup)
  | 0x001C => tget 0 s.mgt.bank m
  | 0x0024 => b2n s.forge.pendScale + 2 * b2n s.forge.pendStep + s.forge.turns % 2 ^ 16 * 2 ^ 16
  | 0x0060 => b2n s.boot.target + 2 * b2n s.boot.source
  | 0x006C => s.boot.len
  | 0x0074 => s.boot.loadState + s.boot.reason * 2 ^ 4 + s.boot.record % 2 ^ 16 * 2 ^ 16
  | 0x0088 => s.cmd.fifo.length + b2n s.cmd.overflow * 2 ^ 9 + b2n (headWaits s) * 2 ^ 10 +
      (s.cmd.fifo.head?.map cmdOp).getD 0 * 2 ^ 16
  | 0x0100 => charterNat s (·.deadline)
  | 0x0104 => charterNat s (·.quorum)
  | 0x0108 => charterNat s (·.sampleLog2)
  | 0x0114 => s.gfail.group + s.gfail.reason * 2 ^ 12 + b2n s.gfail.valid * 2 ^ 16
  | 0x0208 => ringCtl s.bell
  | 0x020C => s.bell.head
  | 0x0210 => s.bell.tail
  | 0x0214 => s.bell.lost.toNat
  | 0x0600 => s.step.retry.toNat
  | 0x0604 => s.step.refresh.toNat
  | 0x0608 => s.step.mode % 2 ^ 16 + s.step.modeLast % 2 ^ 16 * 2 ^ 16
  | 0x0618 => s.step.tallyDone.toNat
  | 0x061C => b2n (s.step.tallyBusy || !s.step.jobs.isEmpty) + 2 * b2n s.step.mismatch
  | 0x0688 => ringCtl s.audit
  | 0x068C => s.audit.head
  | 0x0690 => s.audit.tail
  | 0x0694 => s.audit.lost.toNat
  | 0x0708 => ringCtl s.flt
  | 0x070C => s.flt.head
  | 0x0710 => s.flt.tail
  | 0x0714 => s.flt.lost.toNat
  | 0x0728 => s.expose.size
  | 0x072C => b2n s.expose.ready + 2 * b2n s.expose.truncated + 4 * b2n s.expose.lost + s.expose.waiting.length * 2 ^ 8
  | 0x0800 => b2n s.mkt.divFix
  | 0x0814 => s.mkt.fallback.toNat
  | 0x0818 => s.mkt.crierErr.toNat
  | _ => (blockArray s o).getD 0

/-- The book and almanac page (Table 15-10). -/
def bookReg (s : State) (o : Nat) : Nat :=
  match o with
  | 0x00 => b2n s.book.bound + 2 * b2n s.book.readonly + 4 * b2n s.book.unusable + 8 * b2n s.book.warn +
      16 * b2n s.book.stopped + 32 * b2n s.book.scanning
  | 0x10 => s.book.dumpLen.toNat
  | 0x14 => s.book.wear
  | 0x18 => s.book.window.toNat
  | 0x1C => s.book.seq.toNat
  | 0x20 => s.book.bad.toNat
  | 0x24 => s.book.memLost.toNat
  | 0x28 => s.book.query
  | 0x2C => let u := getUnit s s.book.query
      u.status + min ((u.faults.filter (fun f => inWindow s f.1)).length) 65535 * 2 ^ 16
  | 0x120 => s.alm.serial.toNat
  | 0x134 => b2n s.alm.installed + 2 * b2n s.alm.run.isSome
  | 0x138 => s.alm.pass.toNat
  | 0x13C => s.alm.fail.toNat
  | _ => ((idx o 0x100 8).map (digestWord ((s.charter.map (·.almKey)).getD []))).getD 0

/-- The roll page (08 Table 08-4). -/
def rollReg (s : State) (o : Nat) : Nat :=
  match o with
  | 0x00 => 4 * b2n s.roll.forceArrival
  | 0x04 => rollState s + 4 * b2n s.roll.loadErr + 8 * b2n s.roll.peerErr + 16 * b2n s.roll.refused +
      s.roll.groups.length * 2 ^ 16
  | 0x08 => s.roll.errGroup + s.roll.errReason * 2 ^ 12
  | _ => 0

/-- A gate page (07 Table 07-6, 08 Table 08-9, 09 Table 09-7, Table 17-7). -/
def gateReg (s : State) (g o : Nat) : Nat :=
  let k := getGate s g
  let four := fun (w : Nat) (f : Nat → Nat) => f 0 % w + f 1 % w * w + f 2 % w * w ^ 2 + f 3 % w * w ^ 3
  match o with
  | 0x00 => b2n k.enable
  | 0x04 => k.state + 8 * b2n k.aligned + 16 * b2n k.nak + k.bits
  | 0x08 => k.timer + k.limit * 2 ^ 16
  | 0x0C => k.trainTimeout.toNat
  | 0x10 => k.retryCount.toNat
  | 0x14 => k.crcErr.toNat
  | 0x18 => k.peerMember + k.peerGate * 2 ^ 18
  | 0x40 => (((s.charter.map Charter.gran).getD []).getD g 0).toNat
  | 0x44 => four 256 (poolFree s g)
  | 0x48 => four 16 (hmaxOf s g)
  | 0x4C => ((List.range 4).foldl (fun n k => n + (pendingReq s g k).length) 0) % 2 ^ 16
  | 0x80 => k.dlMiss.toNat
  | 0x84 => k.late.toNat
  | 0x88 => k.sealErr.toNat
  | 0x8C => k.massErr.toNat
  | 0x90 => k.revokes.toNat
  | 0x94 => k.resends.toNat
  | 0x98 => k.shadowCmp.toNat
  | 0x9C => k.shadowErr.toNat
  | 0xA0 => k.reabsorb.toNat
  | _ => 0

/-- A core page (13 Table 13-12, Table 17-9). -/
def coreReg (s : State) (c o : Nat) : Nat :=
  let k := getCore s c
  match o with
  | 0x00 => 8 * b2n k.brkCntEn + 16 * b2n k.brkTagEn
  | 0x04 => (if k.saving || k.restoring then 3 else k.state) + 4 * b2n (drained k) +
      8 * b2n (decide (k.state = 2) && resumable k.haltCode) + 16 * b2n k.more
  | 0x08 => k.haltAddr % 2 ^ 14 / 2 * 2
  | 0x0C => k.haltCode + k.haltEngine * 2 ^ 8
  | 0x10 => k.pc % 2 ^ 14
  | 0x14 => k.brkTag
  | 0x28 => (List.range 6).foldl (fun n e => n + depth k e * 2 ^ (5 * e)) 0
  | 0x2C => k.progLen
  | 0x30 => k.sigVal + k.sigCnt * 2 ^ 16
  | 0x34 => k.eccCe.toNat
  | 0x38 => k.memErr.toNat
  | _ => 0

/-- The block-wide registers of the well page (R586; 11 Table 11-6, 12 Table 12-6, Table 17-11). -/
def wideReg (s : State) (o : Nat) : Nat :=
  let f := s.forge
  match o with
  | 0x800 => wellGroups s
  | 0x80C => s.exp.slot + s.exp.gen * 2 ^ 8
  | 0x810 => b2n s.exp.loading.isSome + 2 * b2n s.exp.busy + 4 * b2n s.exp.badTable + 8 * b2n s.exp.pinErr
  | 0x840 => f.scaleLive.toNat
  | 0x844 => f.stepLive.toNat
  | 0x848 => f.clip.toNat
  | 0x84C => b2n f.sent + 2 * b2n f.result + 4 * b2n f.clean + 8 * b2n f.hold
  | 0x854 => f.expect.toNat
  | 0x858 => f.seen.toNat
  | 0x85C => f.phase + 8 * b2n f.hinging + f.hinges * 2 ^ 16
  | _ => ((idx o 0x820 8).map (fun n =>
      let k := getSlot s n
      k.gen + b2n (slotValid s n) * 2 ^ 8 + k.fmt * 2 ^ 12 + slotCount s n % 2 ^ 16 * 2 ^ 16)).getD 0

/-- A well page (11 Table 11-5, 12 Table 12-5). -/
def wellReg (s : State) (w o : Nat) : Nat :=
  let k := getWell s w
  if 0x800 ≤ o then wideReg s o
  else if tiedOff s w then (if o = 0 then 2 ^ 25 else 0)
  else match o with
  | 0x00 => k.busy.length + k.quar.length * 2 ^ 11 + b2n k.timeoutF * 2 ^ 22 + b2n k.errCpl * 2 ^ 23 + b2n k.lateCpl * 2 ^ 24
  | 0x04 => k.timeout.toNat
  | 0x08 => k.poisonRd.toNat
  | 0x0C => k.poisonWr.toNat
  | 0x10 => k.refresh.toNat
  | 0x20 => min 1024 k.expBuf.length + k.queueHigh * 2 ^ 11
  | 0x24 => k.expCause + 16 * b2n k.expValid
  | 0x30 => k.dmg.toNat
  | 0x34 => k.jobDone.toNat
  | 0x40 => b2n k.fbusy.isSome + 2 * b2n (s.forge.hold && !k.fqueue.isEmpty)
  | 0x4C => ((s.charter.map (·.parkSlots)).getD []).getD w 0
  | 0x50 => k.parked
  | 0x54 => k.applied.toNat
  | 0x58 => k.skipped.toNat
  | 0x5C => k.fcause + 16 * b2n k.fvalid
  | 0x60 => k.finfo.toNat
  | _ => 0

/-- A register that is not half of a pair. -/
def plainReg (s : State) (m : Nat) (p : Page) (o : Nat) : U32 :=
  BitVec.ofNat 32 (match p with
    | .block => blockReg s m o
    | .book => bookReg s o
    | .roll => rollReg s o
    | .gate g => gateReg s g o
    | .core c => coreReg s c o
    | .well w => wellReg s w o)

/-- The pair whose _HI half stands at an offset. -/
def pairBelow (s : State) (p : Page) (o : Nat) : Option U64 := if 4 ≤ o then pairAt s p (o - 4) else none

def loHalf (v : U64) : U32 := BitVec.ofNat 32 v.toNat
def hiHalf (v : U64) : U32 := BitVec.ofNat 32 (v.toNat / 2 ^ 32)
def joinHalves (lo hi : U32) : U64 := BitVec.ofNat 64 (lo.toNat + hi.toNat * 2 ^ 32)

/-- The live value of a register. -/
def liveReg (s : State) (m : Nat) (p : Page) (o : Nat) : U32 :=
  match pairAt s p o with
  | some v => loHalf v
  | none => match pairBelow s p o with
    | some v => hiHalf v
    | none => plainReg s m p o

/-! ### Registers that a read clears (RC) -/

def clearGate (o : Nat) (k : Gate) : Gate :=
  match o with
  | 0x14 => { k with crcErr := 0 } | 0x80 => { k with dlMiss := 0 } | 0x84 => { k with late := 0 }
  | 0x88 => { k with sealErr := 0 } | 0x8C => { k with massErr := 0 } | 0x90 => { k with revokes := 0 }
  | 0x94 => { k with resends := 0 } | 0x9C => { k with shadowErr := 0 } | 0xA0 => { k with reabsorb := 0 }
  | _ => k

def clearWell (o : Nat) (k : Well) : Well :=
  match o with
  | 0x08 => { k with poisonRd := 0 } | 0x0C => { k with poisonWr := 0 } | 0x30 => { k with dmg := 0 }
  | 0x58 => { k with skipped := 0 }
  | _ => k

/-- What a read of a register clears (Table 00-3, RC). -/
def readClears (p : Page) (o : Nat) (s : State) : State :=
  match p with
  | .block =>
    if o = 0x214 then { s with bell := { s.bell with lost := 0 } }
    else if o = 0x694 then { s with audit := { s.audit with lost := 0 } }
    else if o = 0x714 then { s with flt := { s.flt with lost := 0 } }
    else if o = 0x818 then { s with mkt := { s.mkt with crierErr := 0 } }
    else match idx o 0x780 32 with
      | some n => { s with faultCnt := tset 0 s.faultCnt n 0 }
      | none => s
  | .book => if o = 0x24 then { s with book := { s.book with memLost := 0 } } else s
  | .roll => s
  | .gate g => modGate g (clearGate o) s
  | .core c => if o = 0x34 then modCore c (fun k => { k with eccCe := 0 }) s else s
  | .well w => if tiedOff s w then s else modWell w (clearWell o) s

/-! ### A read (R16, R563) -/

/-- After an uncorrectable error in steward memory only BLK_ID, BLK_VERSION and the fault registers answer
(15 Table 15-1). -/
def servesRead (s : State) (p : Page) (o : Nat) : Bool :=
  !s.boot.memErr || decide (p = .block ∧ (o = 0 ∨ o = 4 ∨ (0x700 ≤ o ∧ o < 0x718) ∨ (0x780 ≤ o ∧ o < 0x800)))

/-- The holding copy of a master, if it holds the _HI half of a pair (R16). -/
def heldHi (s : State) (m key : Nat) : Option U32 := (s.mgt.holdHi.find? (fun e => e.1 == m && e.2.1 == key)).map (·.2.2)

/-- A master's copies of reads, one for each pair whose _LO it read last (R16). -/
def dropHi (m key : Nat) (t : List (Nat × (Nat × U32))) : List (Nat × (Nat × U32)) :=
  t.filter (fun e => !(e.1 == m && e.2.1 == key))

def putHi (m key : Nat) (v : U32) (t : List (Nat × (Nat × U32))) : List (Nat × (Nat × U32)) :=
  insertBy (fun e => e.1 * 2 ^ 40 + e.2.1) (m, (key, v)) (dropHi m key t)

/-- A master's one copy of a written _LO (R583). -/
def dropHold (m : Nat) (t : List (Nat × (Nat × U32))) : List (Nat × (Nat × U32)) := t.filter (fun e => e.1 != m)

def putHold (m key : Nat) (v : U32) (t : List (Nat × (Nat × U32))) : List (Nat × (Nat × U32)) :=
  insertBy (·.1) (m, (key, v)) (dropHold m t)

/-- A read of the management port: the answer stands in MGT_RDATA and MGT_ERR. A read of _LO captures _HI; the next read of
_HI by the same master returns that copy, once. -/
def mgtRead (m a : Nat) (s : State) : State :=
  match place s m a with
  | none => { s with pins := { s.pins with mgtRdata := 0, mgtErr := true } }
  | some (p, o) =>
    if !servesRead s p o then s
    else
      let hi := (pairAt s p o).map hiHalf
      let copy := if (pairBelow s p o).isSome then heldHi s m (regKey p (o - 4)) else none
      let v := copy.getD (liveReg s m p o)
      let s := match hi with
        | some h => { s with mgt := { s.mgt with holdHi := putHi m (regKey p o) h s.mgt.holdHi } }
        | none => if copy.isSome then { s with mgt := { s.mgt with holdHi := dropHi m (regKey p (o - 4)) s.mgt.holdHi } } else s
      readClears p o { s with pins := { s.pins with mgtRdata := v, mgtErr := false } }

/-- READ_LO_CAPTURE (R16): a read by a master; of a _LO half it captures _HI. -/
def execReadLoCapture (m addr : Nat) (s : State) : Res := act s (mgtRead (m % 16) (addr % 2 ^ 22 / 4 * 4))

/-- READ_CLEAR (R587, Table 00-3): a read by a master; an RC register returns its value and clears. -/
def execReadClear (m addr : Nat) (s : State) : Res := act s (mgtRead (m % 16) (addr % 2 ^ 22 / 4 * 4))

/-! ### Writes -/

/-- A write between a read of _LO and a read of _HI of one pair ends the holding copy for it (R16). -/
def writeEndsHold (m key : Nat) (s : State) : State :=
  if (heldHi s m key).isSome then { s with mgt := { s.mgt with holdHi := dropHi m key s.mgt.holdHi } } else s

/-- A write to either half of a pair, whatever it does there, is an access to the pair (R16). -/
def writeIsAccess (m : Nat) (p : Page) (o : Nat) (s : State) : State :=
  if (pairAt s p o).isSome then writeEndsHold m (regKey p o) s
  else if (pairBelow s p o).isSome then writeEndsHold m (regKey p (o - 4)) s
  else s

/-- The _LO half of a pair goes to the master's holding copy (R583). -/
def holdLo (m : Nat) (p : Page) (o : Nat) (v : U32) (s : State) : State :=
  writeEndsHold m (regKey p o) { s with mgt := { s.mgt with holdLo := putHold m (regKey p o) v s.mgt.holdLo } }

/-- A write of _HI commits both halves: with the _LO that the same master wrote before it, or else the _LO in force (R583). -/
def commitHi (m : Nat) (p : Page) (o : Nat) (hi : U32) (s : State) : State :=
  let key := regKey p o
  let held := (s.mgt.holdLo.find? (fun e => e.1 == m && e.2.1 == key)).map (·.2.2)
  let lo := held.getD (loHalf ((pairAt s p o).getD 0))
  let s := if held.isSome then { s with mgt := { s.mgt with holdLo := dropHold m s.mgt.holdLo } } else s
  commitPair p o (joinHalves lo hi) (writeEndsHold m key s)

/-- A control register of a ring: its low bits, and its size when the value lies in the range of its table (R594). -/
def writeRingCtl (i : RingId) (bits : Nat) (v : Nat) (s : State) : State :=
  let r := getRing s i
  let n := field v 9 5
  setRing s i { r with ctl := v % 2 ^ bits, log2 := if i.minLog ≤ n ∧ n ≤ 20 then n else r.log2 }

/-- A ring tail moves: queued entries follow while there is room (R316, R587). -/
def writeTail (i : RingId) (v : Nat) (s : State) : State :=
  let r := getRing s i
  ringDrain i i.cap (setRing s i { r with tail := v % 2 ^ 20 })

/-- The state that an action leaves. -/
def fired (r : Res) (s : State) : State := match r with | .next t => t | _ => s

def whenBit (v i : Nat) (f : State → State) (s : State) : State := if bitOf v i then f s else s

/-- Clear the bits written as 1. -/
def w1c (old v : Nat) : Nat := (List.range 32).foldl (fun n i => if bitOf v i then clearBit n i else n) old

/-- The staged pair: a write goes to the shadow and sets its pending bit (R589). -/
def stageScale (v : U32) (s : State) : State := { s with forge := { s.forge with scaleShadow := v, pendScale := true } }
def stageStep (v : U32) (s : State) : State := { s with forge := { s.forge with stepShadow := v, pendStep := true } }

/-- The key turn: both shadows become live and the pending bits clear (R589; Table 17-4). -/
def keyTurns (s : State) : State :=
  { s with forge := { s.forge with
    scaleLive := s.forge.scaleShadow, stepLive := s.forge.stepShadow, pendScale := false, pendStep := false,
    turns := (s.forge.turns + 1) % 2 ^ 16 } }

/-- BLK_LOAD_CTL: target and source, then abort or go. -/
def writeLoadCtl (v : Nat) (s : State) : State :=
  let s := { s with boot := { s.boot with target := bitOf v 0, source := bitOf v 1 } }
  let src : LoadSource := if bitOf v 1 then .well0 else .stream
  if bitOf v 3 then fired (execLoadAbort s) s
  else if bitOf v 2 then (if bitOf v 0 then fired (execCharterLoad src .ok s) s else fired (execFirmwareLoad src .ok s) s)
  else s

/-- Writes to the block page. -/
def writeBlock (m o : Nat) (v : U32) (s : State) : State :=
  let n := v.toNat
  match o with
  | 0x001C => { s with mgt := { s.mgt with bank := tset 0 s.mgt.bank m (n % 4) } }
  | 0x0020 => whenBit n 0 keyTurns s
  | 0x0060 => writeLoadCtl n s
  | 0x006C => { s with boot := { s.boot with len := n % 2 ^ 25 } }
  | 0x0070 => fired (execLoadData v s) s
  | 0x0080 => { s with mgt := { s.mgt with cmdLo := v } }
  | 0x0084 => fired (execCmdRegisterWord v s) s
  | 0x0088 => if bitOf n 9 then { s with cmd := { s.cmd with overflow := false } } else s
  | 0x0114 => if bitOf n 16 then { s with gfail := { s.gfail with valid := false } } else s
  | 0x0208 => writeRingCtl .bell 2 n s
  | 0x0210 => writeTail .bell n s
  | 0x061C => if bitOf n 1 then openWaiting { s with step := { s.step with mismatch := false } } else s
  | 0x0688 => writeRingCtl .audit 3 n s
  | 0x0690 => writeTail .audit n s
  | 0x0708 => writeRingCtl .flt 2 n s
  | 0x0710 => writeTail .flt n s
  | 0x0728 => { s with expose := { s.expose with size := n % 2 ^ 16 } }
  | 0x072C => { s with expose := { s.expose with
      ready := s.expose.ready && !bitOf n 0, lost := s.expose.lost && !bitOf n 2 } }
  | 0x0800 => { s with mkt := { s.mkt with divFix := bitOf n 0 } }
  | 0x0814 => { s with mkt := { s.mkt with fallback := v } }
  | _ => match idx o 0x880 32, idx o 0xA00 72 with
    | some c, _ =>
      let x := tget {} s.mkt.ctx c
      { s with mkt := { s.mkt with ctx := tset {} s.mkt.ctx c { x with bits := w1c x.bits n } } }
    | none, some j => { s with signalMap := tset 0 s.signalMap j (tget 0 s.signalMap j &&& ~~~ v) }
    | none, none => s

def writeBook (o : Nat) (v : U32) (s : State) : State :=
  let n := v.toNat
  match o with
  | 0x00 => if bitOf n 3 then { s with book := { s.book with warn := false } } else s
  | 0x04 => whenBit n 1 bookDumps (whenBit n 0 bookFormats s)
  | 0x18 => { s with book := { s.book with window := v } }
  | 0x28 => { s with book := { s.book with query := n % 2 ^ 16 } }
  | _ => s

/-- ROLL_CTL: force_arrival as written, then confirm, then load; ROLL_STAT clears what is written as 1. -/
def writeRoll (o : Nat) (v : U32) (s : State) : State :=
  let n := v.toNat
  match o with
  | 0x00 =>
    let s := if bitOf n 2 then forceArrival s else { s with roll := { s.roll with forceArrival := false } }
    whenBit n 0 (rollLoad .ok) (whenBit n 1 rollConfirm s)
  | 0x04 => { s with roll := { s.roll with
      loadErr := s.roll.loadErr && !bitOf n 2, peerErr := s.roll.peerErr && !bitOf n 3,
      refused := s.roll.refused && !bitOf n 4 } }
  | _ => s

/-- The status bits of GATE_LINK_STAT that a write clears are 13:5. -/
def writeGate (g o : Nat) (v : U32) (s : State) : State :=
  let n := v.toNat
  match o with
  | 0x00 =>
    let s := if bitOf n 0 then fired (execLinkEnableSet g s) s else fired (execLinkDisable g s) s
    whenBit n 1 (fun s => fired (execLinkRetrain g s) s) s
  | 0x04 => modGate g (fun k => { k with bits := w1c k.bits (field n 13 5 * 2 ^ 5) }) s
  | 0x08 => modGate g (fun k => { k with timer := field n 15 0, limit := field n 23 16 }) s
  | 0x0C => modGate g (fun k => { k with trainTimeout := v }) s
  | _ => s

/-- CORE_CTL: the breakpoint enables, then halt, resume and step; CORE_STAT.more and CORE_MEM_ERR.valid clear. -/
def writeCore (c o : Nat) (v : U32) (s : State) : State :=
  let n := v.toNat
  match o with
  | 0x00 =>
    let s := modCore c (fun k => { k with brkCntEn := bitOf n 3, brkTagEn := bitOf n 4 }) s
    let s := whenBit n 0 (fun s => fired (execCoreHaltRequest c s) s) s
    let s := whenBit n 1 (fun s => fired (execCoreResume c s) s) s
    whenBit n 2 (fun s => fired (execCoreSingleStep c s) s) s
  | 0x04 => if bitOf n 4 then modCore c (fun k => { k with more := false }) s else s
  | 0x14 => modCore c (fun k => { k with brkTag := n % 2 ^ 16 }) s
  | 0x38 => if bitOf n 31 then modCore c (fun k => { k with memErr := k.memErr &&& 0x7FFFFFFF#32 }) s else s
  | _ => s

/-- The block-wide registers of the well page. -/
def writeWide (o : Nat) (v : U32) (s : State) : State :=
  let n := v.toNat
  match o with
  | 0x80C => whenBit n 16 tableLoad { s with exp := { s.exp with slot := n % 8, gen := field n 15 8 } }
  | 0x810 => { s with exp := { s.exp with
      busy := s.exp.busy && !bitOf n 1, badTable := s.exp.badTable && !bitOf n 2, pinErr := s.exp.pinErr && !bitOf n 3 } }
  | 0x814 => if bitOf n 8 then expUnpin (n % 8) s else expPin (n % 8) s
  | 0x840 => stageScale v s
  | 0x844 => stageStep v s
  | 0x850 => if bitOf n 1 then normAbandonDo s else whenBit n 0 normReleaseDo s
  | _ => s

def writeWell (w o : Nat) (v : U32) (s : State) : State :=
  let n := v.toNat
  if 0x800 ≤ o then writeWide o v s
  else if tiedOff s w then s
  else match o with
  | 0x00 => modWell w (fun k => { k with
      timeoutF := k.timeoutF && !bitOf n 22, errCpl := k.errCpl && !bitOf n 23, lateCpl := k.lateCpl && !bitOf n 24 }) s
  | 0x04 => modWell w (fun k => { k with timeout := v }) s
  | 0x24 => modWell w (fun k => { k with expValid := k.expValid && !bitOf n 4 }) s
  | 0x5C => modWell w (fun k => { k with fvalid := k.fvalid && !bitOf n 4 }) s
  | _ => s

/-- A write of the management port (R14, R563, R583): read-only and read-clear bits, reserved bits and offsets without a
register ignore it. -/
def mgtWrite (m a : Nat) (v : U32) (s : State) : State :=
  match place s m a with
  | none => { s with pins := { s.pins with mgtErr := true } }
  | some (p, o) =>
    if s.boot.memErr then s
    else
      let s := writeIsAccess m p o { s with pins := { s.pins with mgtErr := false } }
      if rwPair p o then holdLo m p o v s
      else if decide (4 ≤ o) && rwPair p (o - 4) then commitHi m p (o - 4) v s
      else match p with
      | .block => writeBlock m o v s
      | .book => writeBook o v s
      | .roll => writeRoll o v s
      | .gate g => writeGate g o v s
      | .core c => writeCore c o v s
      | .well w => writeWell w o v s

/-- PAIR_WRITE_LO (R583): the _LO half of a 64-bit RW pair goes to the writing master's holding copy. -/
def pairWriteLo (m a : Nat) (v : U32) (s : State) : State :=
  match place s m a with
  | some (p, o) => if rwPair p o && !s.boot.memErr then holdLo m p o v { s with pins := { s.pins with mgtErr := false } } else s
  | none => s

def execPairWriteLo (m addr : Nat) (v : U32) (s : State) : Res :=
  act s (pairWriteLo (m % 16) (addr % 2 ^ 22 / 4 * 4) v)

/-- REGISTER_WRITE (R14, R583, R587, R594). A bit that starts an action with a row of its own does what that row does. -/
def execRegisterWrite (m addr : Nat) (v : U32) (s : State) : Res :=
  act s (mgtWrite (m % 16) (addr % 2 ^ 22 / 4 * 4) v)

/-- STAGED_WRITE (R589): a write to FORGE_LR_SCALE or FORGE_LR_STEP in any well page. -/
def stagedWrite (a : Nat) (v : U32) (s : State) : State :=
  match place s 0 a with
  | some (.well _, o) => if o = 0x840 then stageScale v s else if o = 0x844 then stageStep v s else s
  | _ => s

def execStagedWrite (addr : Nat) (v : U32) (s : State) : Res := act s (stagedWrite (addr % 2 ^ 22 / 4 * 4) v)

/-- KEY_TURN (R589). -/
def execKeyTurn (s : State) : Res := act s keyTurns

end Sys2Proof.Machine
end

