-- ==== Sys2Proof/Machine/Vector.lean ====
section
/-! DEFINITION. The vector engine and the reduction unit (03 R84 to R91; 13 R477; Tables 03-4, 03-5, 13-7), the sieve's passes
(04 R119 to R150) and the quantiser (05 R153 to R176). -/

namespace Sys2Proof.Machine

/-! ### Streams (R84 to R86) -/

/-- One element inside a chain: an FP32 value, a code of a 16-bit or narrow format with the input it came from (`madeHere` for
a result of cvt or quant), or a mask bit. -/
inductive VElem where
  | f (x : F32)
  | code (fmt : Fmt) (v src : Nat)
  | mask (b : Bool)
deriving DecidableEq, Repr

/-- The FP32 value of an element. -/
def VElem.toF : VElem → F32
  | .f x => x
  | .code fmt v _ => f32Enc (macValue fmt v)
  | .mask b => if b then f32One else 0

def VElem.bit : VElem → Bool
  | .mask b => b
  | e => !f32IsZero e.toF

/-- A raw value of a stream as it enters a chain (R86). -/
def elemOf (fmt : Fmt) (src v : Nat) : VElem :=
  match fmt with
  | .fp32 => .f (BitVec.ofNat 32 v)
  | .xf => .f (xfToF32 (BitVec.ofNat 640 v))
  | .int32 => .f (f32OfInt (signed 32 v))
  | fmt => .code fmt v src

/-- Lane of a vector register for element e: 16 FP32 lanes. DESIGN CHOICE (log 149): a stream longer than 16 elements takes
lane e mod 16. -/
def laneOf (k : Core) (v e : Nat) : F32 := BitVec.ofNat 32 (leNat (mread 0 k.v (64 * v + 4 * (e % 16)) 4))

/-- Everything that a pass reads before it writes. -/
structure Pass where
  core : Core
  chain : Chain
  ins : List Desc
  outs : List Desc
  vl : Nat

def Pass.bind (p : Pass) (i : Nat) : Nat := p.chain.binds.getD i 0xFF
def Pass.input (p : Pass) (i : Nat) : Desc := p.ins.getD i (descOf 0)
def placeOfElem (d : Desc) (e : Nat) : Nat × Nat := (e / max 1 d.count, e % max 1 d.count)

/-- Element e of input i. -/
def Pass.elem (p : Pass) (i e : Nat) : VElem :=
  let b := p.bind i
  if 0x80 ≤ b then .f (laneOf p.core (b - 0x80) e)
  else let d := p.input i; let q := placeOfElem d e; elemOf d.format i (d.raw p.core q.1 q.2)

/-- The source of a code that a cvt or quant stage made. -/
def madeHere : Nat := 3

/-! ### Group scales and decode (R88, R165) -/

/-- The first input that is a chunk payload. -/
def Pass.payload (p : Pass) : Option Desc :=
  ((List.range 3).filter (fun i => decide (p.bind i = 0 ∧ (p.input i).kind ≠ 0))).head?.map p.input

/-- Scale of the group of an element of a payload. -/
def elemScale (k : Core) (d : Desc) (e : Nat) : FVal :=
  let q := placeOfElem d e
  d.scale k (d.payloadIndex q.1 q.2 / d.groupLen)

/-- The side list of a payload in the scratchpad. -/
def sideList (k : Core) (d : Desc) : List SideEnt :=
  match layOf d.kind with
  | none => []
  | some l => sideOf l (scrRead k d.aux 4096)
      (field (leNat (scrRead k (d.aux + (countWordAt d.kind).getD 0) 4)) 5 0)

/-- The decode stage (R88, R165): the value, and whether it counts as not finite (R49). -/
def decodeElem (p : Pass) (fmt : Fmt) (x : VElem) (e : Nat) : F32 × Bool :=
  match x with
  | .code _ v src =>
    let d := p.input src
    if !fmt.isNarrow then (dec16 fmt.code v, false)
    else if v = fmt.escape then
      let q := placeOfElem d e
      match (sideList p.core d).find? (fun s => decide (d.kind ≠ 0 ∧ s.pos = d.payloadIndex q.1 q.2)) with
      | some s => (s.val, false)
      | none => (f32NaN, true)
    else
      let y := f32Enc (vMul (fmt.value v) (if d.kind = 0 then .fin false 1 0 else elemScale p.core d e))
      (if f32IsZero y then 0 else y, false)
  | x => (if f32IsZero x.toF then 0 else x.toF, false)

/-- The inputs whose codes each stage's result may hand on: a decode stage reads them through pass, tap and sel. -/
def codeSources (ch : Chain) : List (List Nat) :=
  ch.stages.foldl (fun done s =>
    let src := fun (o : Nat) => if o ≤ 2 then [o] else if 8 ≤ o ∧ o < 0x10 then done.getD (o - 8) [] else []
    done ++ [if s.op = 0x00 ∨ s.op = 0x15 then src s.a else if s.op = 0x12 then src s.b ++ src s.c else []]) []

/-- The payload inputs that some decode stage of a pass decodes. -/
def Pass.decoded (p : Pass) : List Desc :=
  let srcs := codeSources p.chain
  let used := (p.chain.stages.filter (fun s => s.op == 0x0E)).flatMap (fun s =>
    if s.a ≤ 2 then [s.a] else if 8 ≤ s.a ∧ s.a < 0x10 then srcs.getD (s.a - 8) [] else [])
  ((List.range 3).filter (fun i => used.contains i && decide (p.bind i = 0 ∧ (p.input i).kind ≠ 0))).map p.input

/-- R187 for a payload that a pass decodes. DESIGN CHOICE (log 150): a payload in the scratchpad has no header, and a
descriptor may name a part of its codes, so a dense payload is inconsistent when no element count makes it consistent; the
largest count asks least. -/
def payloadBad (p : Pass) (d : Desc) : Bool :=
  match layOf d.kind, Fmt.ofCode d.fmt with
  | some l, some f =>
    let pl := scrRead p.core d.aux 4096
    let sparse := kindSparse d.kind
    let m := if sparse then field (numAt pl ((countWordAt d.kind).getD 0) 4) 21 12 else 0
    let h : Hdr :=
      { kind := d.kind, fmt := d.fmt, grp := d.gsz, flags := 0, group := 0, seq := 0, index := 0, base := 0,
        count := if sparse then 2 ^ 31 else l.cap, member := 0, sparse := m, weight := 0, step := 0 }
    !narrowConsistent h l f pl
  | _, _ => false

/-! ### Quantising (R153 to R168) -/

/-- What the quantiser has chosen before the codes: format, group length, scale, multipliers and escaping positions; without
a control block, the scales are those of the destination (log 13). -/
structure Plan where
  ctl : Bool
  narrow : Option Fmt
  group : Nat
  c : F32
  mus : List Nat
  escapes : List Nat
  wide : Fmt
deriving DecidableEq, Repr

/-- A group record (Table 05-3). -/
structure GroupRec where
  m1 : F32
  m2 : F32
  m3 : F32
  p1 : Nat
  p2 : Nat
  n : Nat
  nonfinite : Bool
deriving DecidableEq, Repr

def groupRecOf (b : Bytes) : GroupRec :=
  { m1 := BitVec.ofNat 32 (numAt b 0 4), m2 := BitVec.ofNat 32 (numAt b 4 4), m3 := BitVec.ofNat 32 (numAt b 8 4),
    p1 := numAt b 12 1, p2 := numAt b 13 1, n := numAt b 14 1, nonfinite := bitOf (numAt b 15 1) 0 }

def GroupRec.bytes (g : GroupRec) : Bytes :=
  natLe 4 g.m1.toNat ++ natLe 4 g.m2.toNat ++ natLe 4 g.m3.toNat ++ natLe 1 g.p1 ++ natLe 1 g.p2 ++ natLe 1 g.n ++
    natLe 1 (b2n g.nonfinite)

/-- R158: escapes of a group. -/
def groupEscapes (rho : F32) (g : GroupRec) : Nat :=
  let outgrows := fun (a b : F32) => vLt (vMul (f32Dec rho) (f32Dec b)) (f32Dec a)
  if g.n < 8 then 0 else if outgrows g.m2 g.m3 then 2 else if outgrows g.m1 g.m2 then 1 else 0

/-- R159: the group maximum. -/
def groupTop (rho : F32) (g : GroupRec) : F32 :=
  match groupEscapes rho g with | 2 => g.m3 | 1 => g.m2 | _ => g.m1

/-- Positions of the escaping elements of a chunk, ascending (R160). -/
def escapePos (rho : F32) (len : Nat) (gs : List GroupRec) : List Nat :=
  sortBy id (gs.zipIdx.flatMap (fun (g, i) =>
    ([g.p1, g.p2].take (groupEscapes rho g)).map (fun q => i * len + q)))

/-- A class register field, and the threshold of a rung (Table 05-2). -/
def classOf (s : State) (n : Nat) : QClass := ((s.charter.map (·.qclasses)).getD []).getD n ⟨0, 0, 0, 0, 0⟩
def threshold8 (q : QClass) (rung : Nat) : F32 := match rung with | 0 => q.thr4 | 1 => q.thr6 | _ => q.thr8

/-- Group length of an encoding (R155). -/
def quantGroup (q : QClass) (d : Desc) : Nat :=
  if kindSparse d.kind || bitOf q.ctl.toNat 9 then 64 else groupSize (field q.ctl.toNat 15 14)

/-- One code (R164, R53): the quotient by the effective scale, rounded once; an input that is not finite is that input of
Table 02-4. DESIGN CHOICE (log 144): a finite input other than zero over a zero scale, which R164 says no group holds,
saturates and counts. -/
def quantCode (f : Fmt) (scale : FVal) (x : F32) : Nat × NarrowCounts :=
  if !f32IsFinite x then f.encodeNarrow (f32Dec x) false
  else match scale, f32Dec x with
    | .fin _ 0 _, .fin _ 0 _ => (0, ⟨0, 0⟩)
    | .fin _ 0 _, .fin neg _ _ => f.encodeNarrow (.fin neg 1 1024) false
    | sc, v => let r := ratio v sc; f.encodeNarrow r.1 r.2

/-! ### Stages (Table 03-4) -/

/-- A stage's result with what it adds to the pass's nonfinite and saturation counts. -/
structure StageRes where
  val : VElem
  nonfinite : Nat := 0
  sat : Nat := 0

/-- The output that stage j feeds: the one bound to it, else the first. -/
def outOfStage (ch : Chain) (j : Nat) : Nat := if ch.out.getD 0 0xFF = j then 0 else if ch.out.getD 1 0xFF = j then 1 else 0

/-- The element's effective scale for stage j under a plan. -/
def planScale (p : Pass) (pl : Plan) (j e : Nat) : FVal :=
  if pl.ctl then vMul (f32Dec pl.c) (fmtE4M3.decode (pl.mus.getD (e / pl.group) 0))
  else
    let d := p.outs.getD (outOfStage p.chain j) (descOf 0)
    if d.kind = 0 then .fin false 1 0 else elemScale p.core d e

/-- Stage j on element e (Table 03-4). -/
def stageValue (p : Pass) (pl : Plan) (e j : Nat) (s : Stage) (a b c : VElem) : StageRes :=
  let x := a.toF
  let y := b.toF
  let z := c.toF
  let fmt := (Fmt.ofCode s.mode).getD .bf16
  match s.op with
  | 0x00 => ⟨a, 0, 0⟩
  | 0x01 => ⟨.f (f32Add x y), 0, 0⟩
  | 0x02 => ⟨.f (f32Sub x y), 0, 0⟩
  | 0x03 => ⟨.f (f32Mul x y), 0, 0⟩
  | 0x04 => ⟨.f (f32Fma x y z), 0, 0⟩
  | 0x05 => ⟨.f (f32Max x y), 0, 0⟩
  | 0x06 => ⟨.f (f32Min x y), 0, 0⟩
  | 0x07 => ⟨.f (f32Abs x), 0, 0⟩
  | 0x08 => ⟨.f (f32Neg x), 0, 0⟩
  | 0x09 => ⟨.f (f32Mul x x), 0, 0⟩
  | 0x0A => ⟨.f (f32Exp x), 0, 0⟩
  | 0x0B => ⟨.f (f32Sqrt x), 0, 0⟩
  | 0x0C => ⟨.f (f32Recip x), 0, 0⟩
  | 0x0D =>
    let sc := match p.payload with | some d => elemScale p.core d e | none => .fin false 1 0
    ⟨.f (f32Enc (vMul (f32Dec x) sc)), 0, 0⟩
  | 0x0E => let r := decodeElem p fmt a e; ⟨.f r.1, b2n r.2, 0⟩
  | 0x0F =>
    if pl.ctl && pl.escapes.contains e then ⟨.code fmt fmt.escape madeHere, 0, 0⟩
    else
      let r := quantCode fmt (planScale p pl j e) x
      ⟨.code fmt r.1 madeHere, r.2.nonfinite, r.2.saturation⟩
  | 0x10 =>
    if pl.ctl then ⟨.code pl.wide (fmt16 pl.wide.code x) madeHere, 0, 0⟩
    else ⟨.code fmt (if s.mode = 2 then (fp16Rne x).toNat else (bf16Rne x).toNat) madeHere, 0, 0⟩
  | 0x11 => ⟨.mask (f32Gt x y), 0, 0⟩
  | 0x12 => ⟨if a.bit then b else c, 0, 0⟩
  | 0x13 => ⟨.f (f32Min (f32Max x y) z), 0, 0⟩
  | 0x14 => if f32IsFinite x then ⟨.f x, 0, 0⟩ else ⟨.f 0, 1, 0⟩
  | _ => ⟨a, 0, 0⟩

/-- An operand of element e. -/
def operand (p : Pass) (e : Nat) (done : List StageRes) (o : Nat) : VElem :=
  if o ≤ 2 then p.elem o e
  else if o < 0x10 then ((done[o - 8]?).map (·.val)).getD (.f 0)
  else if o < 0x40 then .f (getS p.core (o - 0x20))
  else if o < 0x60 then .f (laneOf p.core (o - 0x40) e)
  else .f 0

/-- All stages of one element. -/
def runElem (p : Pass) (pl : Plan) (e : Nat) : List StageRes :=
  p.chain.stages.foldl (fun done s =>
    done ++ [stageValue p pl e done.length s (operand p e done s.a) (operand p e done s.b) (operand p e done s.c)]) []

def runPass (p : Pass) (pl : Plan) : List (List StageRes) := (List.range p.vl).map (runElem p pl)

/-! ### Poison (R105) -/

def Pass.boundTo (p : Pass) (i : Nat) : Bool := decide (p.bind i = 0)

/-- Whether a scale of element e of a payload stands in a poisoned word. -/
def elemScaleBad (k : Core) (d : Desc) (e : Nat) : Bool :=
  let q := placeOfElem d e
  d.scaleBad k (d.payloadIndex q.1 q.2 / d.groupLen)

/-- Whether the side list or the count word of a payload stands in a poisoned word. -/
def sideBad (k : Core) (d : Desc) : Bool :=
  match layOf d.kind with
  | none => false
  | some l => scrBad k (d.aux + l.side) (8 * l.sides) || scrBad k (d.aux + (countWordAt d.kind).getD 0) 4

/-- Group records that a quantiser operation reads. -/
def Pass.groupSpan (p : Pass) (len : Nat) : Nat × Nat := (p.chain.recAt, 16 * ((p.vl + len - 1) / len))

/-- Whether element e of any bound input is poisoned. -/
def Pass.elemBad (p : Pass) (e : Nat) : Bool :=
  (List.range 3).any (fun i => p.boundTo i && (let d := p.input i; let q := placeOfElem d e; d.badAt p.core q.1 q.2))

/-- Whether the result of element e comes from a poisoned word: of its inputs, of the scales that a scale, decode or quant
stage takes, of the side list of an element that escapes, or of the control block and group records of an encoding. -/
def Pass.bad (p : Pass) (pl : Plan) (e : Nat) : Bool :=
  p.elemBad e ||
  (hasStage p.chain 0x0D && (match p.payload with | some d => elemScaleBad p.core d e | none => false)) ||
  p.decoded.any (fun d =>
    let q := placeOfElem d e
    if d.raw p.core q.1 q.2 = d.format.escape then sideBad p.core d else elemScaleBad p.core d e) ||
  (if pl.ctl then
    let r := p.groupSpan pl.group
    scrBad p.core p.chain.ctlAt 32 || scrBad p.core r.1 r.2
   else hasStage p.chain 0x0F && (List.range 2).any (fun o =>
    p.boundTo (3 + o) && (let d := p.outs.getD o (descOf 0); decide (d.kind ≠ 0) && elemScaleBad p.core d e)))

/-! ### Outputs -/

/-- The bits that an element leaves in a stream's format: codes that cvt or quant made in that format, FP32 and XF; what
another result leaves is open (R86; log 32). -/
def outBits (fmt : Nat) (x : VElem) : Nat :=
  match x with
  | .code f v src => if f.code = fmt ∧ src = madeHere then v else if fmt = 0 then x.toF.toNat else if fmt = 0xA then (xfOfF32 x.toF).toNat
    else Config.vecStore fmt x.toF
  | x => if fmt = 0 then x.toF.toNat else if fmt = 0xA then (xfOfF32 x.toF).toNat else Config.vecStore fmt x.toF

/-- Write output o: elements into its descriptor, or lanes of a vector register. -/
def writeOut (p : Pass) (pl : Plan) (rs : List (List StageRes)) (o : Nat) (k : Core) : Core :=
  let b := p.bind (3 + o)
  let st := p.chain.out.getD o 0xFF
  if b = 0xFF ∨ st = 0xFF then k
  else
    rs.zipIdx.foldl (fun k (r, e) =>
      let x := ((r[st]?).map (·.val)).getD (.f 0)
      if 0x80 ≤ b then { k with v := mwrite 0 k.v (64 * (b - 0x80) + 4 * (e % 16)) (natLe 4 x.toF.toNat) }
      else
        let d := p.outs.getD o (descOf 0)
        let q := placeOfElem d e
        d.put q.1 q.2 (outBits d.fmt x) (p.bad pl e) k) k

/-! ### The reduction unit (R89 to R91, R156) -/

/-- Values that the stages of one element tap. -/
def tapsAt (p : Pass) (r : List StageRes) : List F32 :=
  (p.chain.stages.zip r).filterMap (fun x => if x.1.op = 0x15 then some x.2.val.toF else none)

/-- Values that a pass taps, in order. -/
def tapped (p : Pass) (rs : List (List StageRes)) : List F32 := rs.flatMap (tapsAt p)

/-- The largest finite magnitude and the first place that holds it; zero at place 0 when there is no finite value. -/
def topMagnitude (vs : List F32) : F32 × Nat :=
  ((vs.zipIdx.filter (fun x => f32IsFinite x.1)).foldl (fun (a : Option (F32 × Nat)) x =>
    match a with
    | none => some (f32Abs x.1, x.2)
    | some b => if f32Lt b.1 (f32Abs x.1) then some (f32Abs x.1, x.2) else a) none).getD (0, 0)

def largestFinite (vs : List F32) : F32 :=
  vs.foldl (fun m x => if f32IsFinite x && f32Lt m x then x else m) (f32Inf true)

/-- The online exp-sum over a row, 16 terms at a time (R89, R100; log 34). -/
def rowExpSum (vs : List F32) : F32 :=
  ((chunksOf 16 (vs.length / 16 + 1) vs).foldl (fun a xs => rowStats xs a.1 a.2) (f32Inf true, (0 : F32))).2

/-- The row statistics record (Table 03-5). -/
def rowRecord (vs : List F32) (exps : Bool) : Bytes :=
  let a := xfSum (vs.map xfOfF32)
  let q := xfSum (vs.map xfSquare)
  let t := topMagnitude vs
  xfBytes a.1 ++ xfBytes q.1 ++ natLe 4 (largestFinite vs).toNat ++ natLe 4 t.1.toNat ++ natLe 4 t.2 ++ natLe 4 vs.length ++
    natLe 4 (vs.countP (fun x => !f32IsFinite x)) ++
    natLe 4 (b2n (a.2 || q.2) + 2 * b2n (xfIsMarker a.1 || xfIsMarker q.1)) ++
    natLe 4 (if exps then (rowExpSum vs).toNat else 0) ++ zeros 4

/-- The 64 counters by the buckets of a sieve, or of measure 1 (R128). -/
def rowHistogram (ctl : SieveCtl) (row : SieveRow) : Bytes :=
  let keys := (row.filter ctl.valid).map (fun e => ctl.key e.1)
  (histogram (keys.map (bucketOf (topIndex keys)))).flatMap (fun n => natLe 4 (min n (2 ^ 31 - 1)))

def plainCtl : SieveCtl :=
  { k := 1, base := 0, m := 0, measure := 1, router := false, refined := false, renorm := false, maskAt := 0, stateAt := 0,
    outAt := 0, clean := true }

/-- The group record of a group (R156, R157). -/
def groupRecord (vs : List F32) : GroupRec :=
  let fin := vs.zipIdx.filter (fun x => f32IsFinite x.1)
  let pick := fun (skip : List Nat) => fin.foldl (fun (a : F32 × Option Nat) x =>
    if skip.contains x.2 then a
    else match a.2 with
      | none => (f32Abs x.1, some x.2)
      | some _ => if f32Lt a.1 (f32Abs x.1) then (f32Abs x.1, some x.2) else a) ((0 : F32), none)
  let a := pick []
  let b := pick a.2.toList
  let c := pick (a.2.toList ++ b.2.toList)
  { m1 := a.1, m2 := b.1, m3 := c.1, p1 := a.2.getD 0, p2 := b.2.getD 0, n := vs.length,
    nonfinite := vs.any (fun x => !f32IsFinite x) }

/-- Whether element e of the first input is a sparse entry that names no element: past the entries of a sparse payload's
count word, or, in a list of 8-byte entries (Table 04-5), under the index 0xFFFFFFFF (R123, R141; log 151). -/
def Pass.voidEntry (p : Pass) (e : Nat) : Bool :=
  let d := p.input 0
  let q := placeOfElem d e
  p.boundTo 0 &&
  (if kindSparse d.kind then
    decide (field (leNat (scrRead p.core (d.aux + (countWordAt d.kind).getD 0) 4)) 21 12 ≤ d.payloadIndex q.1 q.2)
   else decide (d.kind = 0 ∧ d.fmt = 0 ∧ d.elemStride = 8 ∧ 4 ≤ (d.elemAt q.1 q.2).1 ∧
    leNat (scrRead p.core ((d.elemAt q.1 q.2).1 - 4) 4) = 0xFFFFFFFF))

/-- Group records of what a pass tapped, invalid sparse entries left out, in groups of its first input's size code (R155 to
R157; log 33). -/
def groupRecords (p : Pass) (rs : List (List StageRes)) : List GroupRec :=
  let g := tapGroup p.chain (p.input 0)
  let vs := (rs.zipIdx.filter (fun r => !p.voidEntry r.2)).flatMap (fun r => tapsAt p r.1)
  (chunksOf g (vs.length / g + 1) vs).map groupRecord

/-! ### The sieve's passes (R119 to R143) -/

/-- The sieve control block of a pass. DESIGN CHOICE (log 152): R120 places it at a 32-byte aligned address; one that is not is
read as it stands. -/
def passCtl (p : Pass) : SieveCtl := sieveCtlOf (scrRead p.core p.chain.ctlAt 32)

/-- R121: the checks at the start of each pass. -/
def sieveOk (p : Pass) (c : SieveCtl) (n : Nat) : Bool :=
  let ins := ((List.range 3).filter (fun i => decide (p.bind i = 0))).flatMap (fun i => (p.input i).ranges)
  let all := sieveAreas c n ++ [ins]
  c.ok n && !(all.zipIdx).any (fun x => (all.drop (x.2 + 1)).any (rangesMeet x.1))

/-- The row with its mask bits. -/
def maskedRow (k : Core) (c : SieveCtl) (vs : List F32) : SieveRow :=
  vs.zipIdx.map (fun x => (x.1, c.router && bitOf (leNat (scrRead k (c.maskAt + x.2 / 8) 1)) (x.2 % 8)))

/-! ### A row ends -/

/-- What a row leaves: writes into the scratchpad, the reduction records written, a conservation fault's index_base, and the range of
a gradient row flagged nonfinite (R142, R197). -/
structure RowEnd where
  writes : List (Nat × Bytes)
  records : Nat
  fault : Option Nat
  nil : Option (Nat × Nat) := none

/-- Whether a sieve pass over a row of n entries reads a poisoned word of its control block, state block or mask. -/
def sieveBad (p : Pass) (n : Nat) : Bool :=
  let c := passCtl p
  sieveChain p.chain &&
  (scrBad p.core p.chain.ctlAt 32 || ((tapFlag p.chain 1 || tapFlag p.chain 2) && scrBad p.core c.stateAt 128) ||
    (c.router && scrBad p.core c.maskAt ((n + 7) / 8)))

/-- What the end of a row writes (R89, R130, R131, R138, Table 03-5). DESIGN CHOICE (log 153): the record address is used as it
stands when it is no multiple of 64. -/
def rowEnds (p : Pass) (core : Nat) (row : RowSt) (after : Nat) : RowEnd :=
  let vs := row.vals
  let ctl := passCtl p
  let first := tapFlag p.chain 0
  let masked := maskedRow p.core ctl vs
  let record := rowRecord vs row.expSum ++
    (if row.histo || first then rowHistogram (if first then ctl else plainCtl) (if first then masked else vs.map (·, false)) else [])
  let st := sieveStOf (scrRead p.core ctl.stateAt 128)
  if tapFlag p.chain 2 then
    let r := ctl.second st masked
    ⟨[(ctl.outAt, r.bytes ctl.k ctl.base core 1)], 1, if bitOf r.flags sfConserve then some ctl.base else none,
      if !ctl.router && bitOf r.flags sfNonfinite then some (ctl.base, vs.length) else none⟩
  else if tapFlag p.chain 1 then
    ⟨if ctl.refines st then [(ctl.stateAt, (ctl.refine st masked).bytes)] else [], 0, none, none⟩
  else if first then ⟨[(after, record), (ctl.stateAt, (ctl.first masked).bytes)], 1, none, none⟩
  else ⟨[(after, record)], 1, none, none⟩

/-! ### The chunk record of an encoding (R161, R166 to R170) -/

/-- What an encoding writes beside its codes. -/
structure Encoding where
  writes : List (Nat × Bytes)
  codes : Bool

def countWordOf (esc grp fmt entries : Nat) : Nat := esc + grp * 2 ^ 6 + fmt * 2 ^ 8 + entries * 2 ^ 12

/-- Scales, count word and side list of a narrow payload, zero elsewhere (R182 to R186). -/
def payloadTail (l : Lay) (d : Desc) (pl : Plan) (grp n : Nat) (xs : List F32) (ctl : Bytes) : Bytes :=
  let spills := decide (l.sides < pl.escapes.length)
  let side := pl.escapes.flatMap (fun e => natLe 2 e ++ natLe 1 (e / pl.group) ++ zeros 1 ++ natLe 4 (xs.getD e 0).toNat)
  let word := natLe 4 (countWordOf pl.escapes.length (if kindSparse d.kind then 1 else grp) d.fmt (if kindSparse d.kind then n else 0))
  let void := Config.quantVoid ctl
  let b := splice (zeros 4096) l.mult (fit 0 l.mults (pl.mus.map (BitVec.ofNat 8 ·)))
  let b := splice b l.scale (natLe 4 pl.c.toNat)
  let b := splice b ((countWordAt d.kind).getD 0) (if spills then fit 0 4 void else word)
  (splice b l.side (fit 0 (8 * l.sides) (if spills then void.drop 4 else side))).drop l.mult

/-- Whether err exceeds θ × ssq (R168). -/
def errTooLarge (theta : F32) (err ssq : XF) : Bool := vLt (vMul (f32Dec theta) (xfToVal ssq)) (xfToVal err)

/-- The chunk record (Table 05-5). -/
def chunkRecord (err ssq : XF) (mass : U64) (escapes rung verdict n : Nat) : Bytes :=
  xfBytes err ++ xfBytes ssq ++ natLe 8 mass.toNat ++ natLe 2 escapes ++ natLe 1 rung ++ natLe 1 verdict ++ natLe 4 n ++ zeros 16

/-- The value that an encoded element decodes to (R165). -/
def encodedValue (pl : Plan) (e : Nat) (x : F32) (r : VElem) : F32 :=
  match r with
  | .code f v _ =>
    if !f.isNarrow then dec16 f.code v
    else if pl.escapes.contains e then x
    else decNarrow f (f32Dec pl.c) (fmtE4M3.decode (pl.mus.getD (e / pl.group) 0)) v
  | r => r.toF

/-- The stage that encodes, and the output bound to it. -/
def encodeStage (ch : Chain) : Nat :=
  (ch.stages.findIdx? (fun s => s.op == 0x0F)).getD ((ch.stages.findIdx? (fun s => s.op == 0x10)).getD 0)

/-- The operation's plan and class (R153, R158 to R162). -/
def planOf (s : State) (p : Pass) : Plan × QClass × Nat × Nat × Bool :=
  let (cls, rung, base, _) := Config.quantControl (scrRead p.core p.chain.ctlAt 32)
  let q := classOf s (cls % 16)
  let st := encodeStage p.chain
  let d := p.outs.getD (if p.chain.out.getD 0 0xFF = st then 0 else 1) (descOf 0)
  let len := quantGroup q d
  let gs := (List.range ((p.vl + len - 1) / len)).map (fun i => groupRecOf (scrRead p.core (p.chain.recAt + 16 * i) 16))
  let fmt := (p.chain.stages[st]?).bind (fun x => if x.op = 0x0F then Fmt.ofCode x.mode else none)
  let bad := gs.any (·.nonfinite)
  let wide := if bitOf q.ctl.toNat 8 then .fp16 else .bf16
  match fmt with
  | some f =>
    let as := gs.map (groupTop q.ratio)
    let c := chunkScale f as
    (⟨true, some f, len, c, as.map (groupMult f c), (escapePos q.ratio len gs).filter (fun e => decide (e < p.vl)), wide⟩, q, rung, base, bad)
  | none => (⟨true, none, len, 0, [], [], wide⟩, q, rung, base, bad)

def plainPlan : Plan := ⟨false, none, 32, 0, [], [], .bf16⟩

/-- The record of an encoding and the rest of its payload (R167 to R170). -/
def encodingEnds (p : Pass) (pl : Plan) (q : QClass) (rung : Nat) (bad : Bool) (rs : List (List StageRes)) : Encoding :=
  let block := scrRead p.core p.chain.ctlAt 32
  let recAt := (Config.quantControl block).2.2.2 % 2 ^ 16
  let st := encodeStage p.chain
  if bad then
    ⟨[(recAt, fit 0 168 (Config.quantVoid block) ++ natLe 2 pl.escapes.length ++ natLe 1 rung ++ natLe 1 4 ++ natLe 4 p.vl ++ zeros 16)],
      false⟩
  else
    let xs := rs.zipIdx.map (fun (r, e) => match p.chain.stages[st]? with
      | some g => (operand p e r g.a).toF
      | none => 0)
    let ds := (rs.zip xs).zipIdx.map (fun (r, e) => encodedValue pl e r.2 (((r.1[st]?).map (·.val)).getD (.f 0)))
    let err := (xfSum ((xs.zip ds).map (fun x => xfSquare (f32Sub x.1 x.2)))).1
    let ssq := (xfSum (xs.map xfSquare)).1
    let o := if p.chain.out.getD 0 0xFF = st then 0 else 1
    let d := p.outs.getD o (descOf 0)
    let room := ((layOf d.kind).map (·.sides)).getD pl.escapes.length
    let v := (if rung < 3 && errTooLarge (threshold8 q rung) err ssq then 1 else 0) +
      (if room < pl.escapes.length then 2 else 0)
    let record := chunkRecord err ssq (massOfVals ds) pl.escapes.length rung v p.vl
    let tail := match layOf d.kind, decide (p.bind (3 + o) = 0) with
      | some l, true =>
        (if d.base = d.aux ∧ d.elemStride = 0 then [(d.aux, zeros l.mult)] else []) ++
          [(d.aux + l.mult, payloadTail l d pl (field q.ctl.toNat 15 14) p.vl xs block)]
      | _, _ => []
    ⟨tail ++ [(recAt, record)], true⟩

/-! ### VECTOR_RUN -/

/-- The pass at the head of the queue. DESIGN CHOICE (log 154): the scalar and vector registers that its chain names are read
when it starts; R471 has issue copy what the slot itself names. -/
def passOf (k : Core) (chain : Nat) (ins outs : List (BitVec 128)) (vl : Nat) : Pass :=
  { core := k, chain := chainOf (sdataRead k (64 * chain) 64), ins := ins.map descOf, outs := outs.map descOf, vl := vl }

def Pass.bound (p : Pass) : List Desc :=
  ((p.chain.binds.zip (p.ins ++ p.outs)).filter (fun b => b.1 == 0)).map (·.2)

/-- Ranges of the scratchpad that a pass reads, its row having `had` entries before it: its inputs with their scales, whole
payloads that it decodes, the payload scales of a destination that quant uses, the control block, group records, and the
state block and mask of a sieve. -/
def Pass.reads (s : State) (p : Pass) (had : Nat) : List (Nat × Nat) :=
  let c := passCtl p
  (List.range 3).flatMap (fun i => if p.boundTo i then (p.input i).ranges ++ (p.input i).scaleRanges else []) ++
  p.decoded.map (fun d => (d.aux, 4096)) ++
  (if hasStage p.chain 0x0F && !quantChain p.chain then
    (List.range 2).flatMap (fun o => if p.boundTo (3 + o) then (p.outs.getD o (descOf 0)).scaleRanges else []) else []) ++
  (if sieveChain p.chain || quantChain p.chain then [(p.chain.ctlAt, 32)] else []) ++
  (if quantChain p.chain then [p.groupSpan (planOf s p).1.group] else []) ++
  (if tapFlag p.chain 1 || tapFlag p.chain 2 then [(c.stateAt, 128)] else []) ++
  (if sieveChain p.chain && c.router then [(c.maskAt, (had + tapsOf p.chain * p.vl + 7) / 8)] else [])

/-- How many elements of a pass come before the row passes 2^24 entries (R122). -/
def rowRoom (p : Pass) (had : Nat) : Nat := if tapsOf p.chain = 0 then p.vl else min p.vl ((2 ^ 24 - had) / tapsOf p.chain)

/-- Halt codes found when a pass starts (R84, R121, R122, R176, R187, R477). DESIGN CHOICE (log 155): a row that would end with
no entry, which R122 does not allow, halts with R122's code. -/
def passFaults (s : State) (p : Pass) (row : RowSt) (start stop : Bool) : List Nat :=
  if !chainOk p.chain then [0x01]
  else
    let had := if start then 0 else row.vals.length
    let n := had + tapsOf p.chain * p.vl
    p.bound.flatMap (descFaults s) ++ (if p.bound.any (fun d => d.elems < p.vl) then [0x0B] else []) ++
    (if sieveChain p.chain && !sieveOk p (passCtl p) n then [0x04] else []) ++
    (if stop && hasStage p.chain 0x15 && decide (n = 0) then [0x04] else []) ++
    (if quantChain p.chain && decide ((Config.quantControl (scrRead p.core p.chain.ctlAt 32)).2.2.1 % 128 ≠ 0) then [0x04] else []) ++
    (if p.decoded.any (payloadBad p) then [0x04] else [])

/-- Writes of a pass beside its streams stay inside the scratchpad (R76). -/
def writesFit (ws : List (Nat × Bytes)) : Bool := ws.all (fun w => decide (w.1 + w.2.length ≤ 0x10000))

/-- A row passes 2^24 entries (R122): what the elements before that leaves stands. -/
def rowTooLong (p : Pass) (n : Nat) (k : Core) : Core :=
  let p' := { p with vl := n }
  let rs := runPass p' plainPlan
  writeOut p' plainPlan rs 1 (writeOut p' plainPlan rs 0 k)

/-- Whether a pass ends a row that has entries, or taps into it. -/
def endsRow (p : Pass) (old : RowSt) (stop : Bool) : Bool := stop && (hasStage p.chain 0x15 || !old.vals.isEmpty)

/-- What a pass reports. -/
structure PassNote where
  conserve : Option Nat
  nil : Option (Nat × Nat)
  quant : Option (Nat × Nat)

/-- What a pass does to its core, with the conservation fault's index_base, the range that it found not finite (R197) and the range
that it encodes, or the code it halts with. The pass's counts run on (Table 03-7). -/
def passEffect (s : State) (c : Nat) (p : Pass) (start stop : Bool) (k : Core) : Except Nat (Core × PassNote) :=
  let quant := quantChain p.chain
  let (pl, q, rung, base, bad) := if quant then planOf s p else (plainPlan, ⟨0, 0, 0, 0, 0⟩, 0, 0, false)
  let rs := runPass p pl
  let enc := if quant then encodingEnds p pl q rung bad rs else ⟨[], true⟩
  let vs := tapped p rs
  let poison := (List.range p.vl).any (p.bad pl)
  let old : RowSt := if start then {} else k.row
  let row : RowSt :=
    { vals := old.vals ++ vs, active := !stop, histo := old.histo || tapFlag p.chain 4,
      expSum := old.expSum || tapFlag p.chain 5, poison := old.poison || poison || sieveBad p (old.vals.length + vs.length) }
  let groups := if tapFlag p.chain 3 then (groupRecords p rs).flatMap GroupRec.bytes else []
  let after := if groups.isEmpty then p.chain.recAt else roundUp (p.chain.recAt + groups.length) 64
  let fin : RowEnd := if endsRow p old stop then rowEnds p c row after else ⟨[], 0, none, none⟩
  let ws := enc.writes ++ (if groups.isEmpty then [] else [(p.chain.recAt, groups)]) ++ fin.writes
  if !writesFit ws then .error 0x03
  else
    let k := enc.writes.foldl (fun k w => scrWrite w.1 w.2 poison k) k
    let k := if enc.codes then writeOut p pl rs 1 (writeOut p pl rs 0 k) else k
    let k := (ws.drop enc.writes.length).foldl (fun k w => scrWrite w.1 w.2 row.poison k) k
    let k := (List.range fin.records).foldl (fun k _ => countEvent evRed k) k
    let sum := fun (f : StageRes → Nat) => rs.foldl (fun n r => r.foldl (fun n x => n + f x) n) 0
    .ok ({ k with
      row := if stop then {} else row
      passNonfinite := satInc k.passNonfinite (sum (·.nonfinite)), passSat := satInc k.passSat (sum (·.sat)) },
      ⟨fin.fault, if bad then some (base, p.vl) else fin.nil, if quant then some (base, p.vl) else none⟩)

/-- The conservation fault of the sieve (R137, R150). -/
def conserveFault (c : Nat) (base : Option Nat) (s : State) : State :=
  match base with
  | some b => raise 0x06 4 (uCore c) b 0 s
  | none => s

/-- What a pass reports: a sliver that starts at its initial rung (R179), a range that is not finite (R197), a conservation fault. -/
def notePass (c : Nat) (n : PassNote) (s : State) : State :=
  let s := match n.quant with
    | some r => noteInitialRung c r.1 r.2 s
    | none => s
  let s := match n.nil with
    | some r => nonfiniteRange c r.1 r.2 s
    | none => s
  conserveFault c n.conserve s

/-- A vector pass starts and runs (R84 to R91). -/
def vectorPass (c : Nat) (errs : List MemErr) (s : State) : State :=
  let k := getCore s c
  if k.busyV then s
  else match k.q1 with
  | ⟨.run chain ins outs start stop vl, addr⟩ :: q =>
    let p := passOf k chain ins outs vl
    let had := if start then 0 else k.row.vals.length
    let es := errsOn .sdata [(64 * chain, 64)] errs ++ errsOn .scratch (p.reads s had) errs
    let (s', bad) := engineErrs c addr eVector es s
    if bad then s'
    else match passFaults s p k.row start stop with
    | code :: _ => modCore c (engineHalt addr code eVector) s'
    | [] => if rowRoom p had < p.vl then modCore c (fun k => engineHalt addr 0x04 eVector (rowTooLong p (rowRoom p had) k)) s'
      else match passEffect s c p start stop (getCore s' c) with
      | .error code => modCore c (engineHalt addr code eVector) s'
      | .ok (k', note) => notePass c note (setCore s' c { k' with q1 := q, busyV := true })
  | _ => s

/-- A sieve merge (R147 to R150). -/
def vectorMerge (c : Nat) (inputs : List MergeIn) (out k : Nat) (errs : List MemErr) (s : State) : State :=
  let x := getCore s c
  if x.busyV || decide (x.state = 0) then s
  else
    let spans := inputs.map (fun i => (i.addr, 320 + 8 * leNat (scrRead x (i.addr + 244) 4)))
    let (s', bad) := engineErrs c x.pc eVector (errsOn .scratch spans errs) s
    if bad then s'
    else if (spans ++ [(out, 320 + 8 * k)]).any (fun r => decide (0x10000 < r.1 + r.2)) then
      modCore c (engineHalt x.pc 0x03 eVector) s'
    else
      let recs := spans.map (fun r => scrRead x r.1 r.2)
      if !mergeOk inputs k recs then modCore c (engineHalt x.pc 0x04 eVector) s'
      else
        let m := mergeRecs ((inputs.map (·.measure)).headD 1) k recs
        let poison := spans.any (fun r => scrBad x r.1 r.2)
        let s' := modCore c (fun k => countEvent evRed { scrWrite out m.1 poison k with busyV := true }) s'
        conserveFault c (if m.2 then some (numAt m.1 264 4) else none) s'

/-- VECTOR_RUN (R84, R147). -/
def execVectorRun (c : Nat) (job : VecJob) (errs : List MemErr) (s : State) : Res :=
  actOn numCores c s (fun s => match job with
    | .pass => vectorPass c errs s
    | .merge inputs out k => vectorMerge c inputs out k errs s)

/-- VECTOR_PASS_COMPLETE (R83): VEC_DONE counts the pass. -/
def vectorDone (k : Core) : Core := if k.busyV then countEvent evVec { k with busyV := false } else k

def execVectorPassComplete (c : Nat) (s : State) : Res := actOn numCores c s (modCore c vectorDone)

end Sys2Proof.Machine
end

