-- ==== Sys2Proof/Machine/Dispatch.lean ====
section
/-! DEFINITION. One arm per command, each one call of its meaning. -/

namespace Sys2Proof.Machine

def exec (i : Instr) (s : State) : Host.Outcome State Fault Refusal :=
  match i with
  | .powerGoodRise p => Sys2Proof.Machine.execPowerGoodRise p s
  | .powerGoodFall p => Sys2Proof.Machine.execPowerGoodFall p s
  | .powerOnReset low => Sys2Proof.Machine.execPowerOnReset low s
  | .softReset low => Sys2Proof.Machine.execSoftReset low s
  | .romSelfTest pass => Sys2Proof.Machine.execRomSelfTest pass s
  | .firmwareLoad src rd => Sys2Proof.Machine.execFirmwareLoad src rd s
  | .charterLoad src rd => Sys2Proof.Machine.execCharterLoad src rd s
  | .loadAbort => Sys2Proof.Machine.execLoadAbort s
  | .loadData v => Sys2Proof.Machine.execLoadData v s
  | .bookScan flash => Sys2Proof.Machine.execBookScan flash s
  | .baselineTest fails => Sys2Proof.Machine.execBaselineTest fails s
  | .wsBypass => Sys2Proof.Machine.execWsBypass s
  | .wsExtest => Sys2Proof.Machine.execWsExtest s
  | .wsIntestScan => Sys2Proof.Machine.execWsIntestScan s
  | .svIdcode => Sys2Proof.Machine.execSvIdcode s
  | .svMbist => Sys2Proof.Machine.execSvMbist s
  | .cmdPortWord v => Sys2Proof.Machine.execCmdPortWord v s
  | .cmdRegisterWord hi => Sys2Proof.Machine.execCmdRegisterWord hi s
  | .step => Sys2Proof.Machine.execStep s
  | .layerReady => Sys2Proof.Machine.execLayerReady s
  | .curfew => Sys2Proof.Machine.execCurfew s
  | .barrier => Sys2Proof.Machine.execBarrier s
  | .reset => Sys2Proof.Machine.execReset s
  | .hinge => Sys2Proof.Machine.execHinge s
  | .hingeSwitch rd => Sys2Proof.Machine.execHingeSwitch rd s
  | .coreSave c => Sys2Proof.Machine.execCoreSave c s
  | .coreRestore c rd => Sys2Proof.Machine.execCoreRestore c rd s
  | .program rd => Sys2Proof.Machine.execProgram rd s
  | .dispatchForward rd => Sys2Proof.Machine.execDispatchForward rd s
  | .dispatchReplay rd => Sys2Proof.Machine.execDispatchReplay rd s
  | .ret rd => Sys2Proof.Machine.execRet rd s
  | .expand rd => Sys2Proof.Machine.execExpand rd s
  | .declare rd => Sys2Proof.Machine.execDeclare rd s
  | .tally rd => Sys2Proof.Machine.execTally rd s
  | .tallyComplete rd => Sys2Proof.Machine.execTallyComplete rd s
  | .almLoad rd => Sys2Proof.Machine.execAlmLoad rd s
  | .almRun => Sys2Proof.Machine.execAlmRun s
  | .almTestResult how got => Sys2Proof.Machine.execAlmTestResult how got s
  | .post => Sys2Proof.Machine.execPost s
  | .readLoCapture m addr => Sys2Proof.Machine.execReadLoCapture m addr s
  | .readClear m addr => Sys2Proof.Machine.execReadClear m addr s
  | .pairWriteLo m addr v => Sys2Proof.Machine.execPairWriteLo m addr v s
  | .registerWrite m addr v => Sys2Proof.Machine.execRegisterWrite m addr v s
  | .stagedWrite addr v => Sys2Proof.Machine.execStagedWrite addr v s
  | .keyTurn => Sys2Proof.Machine.execKeyTurn s
  | .rollLoad rd => Sys2Proof.Machine.execRollLoad rd s
  | .rollConfirm => Sys2Proof.Machine.execRollConfirm s
  | .forceArrival => Sys2Proof.Machine.execForceArrival s
  | .linkEnableSet g => Sys2Proof.Machine.execLinkEnableSet g s
  | .linkDisable g => Sys2Proof.Machine.execLinkDisable g s
  | .linkRetrain g => Sys2Proof.Machine.execLinkRetrain g s
  | .normRelease => Sys2Proof.Machine.execNormRelease s
  | .normAbandon => Sys2Proof.Machine.execNormAbandon s
  | .expTableLoad => Sys2Proof.Machine.execExpTableLoad s
  | .expTableLoadDone rd => Sys2Proof.Machine.execExpTableLoadDone rd s
  | .expPin slot => Sys2Proof.Machine.execExpPin slot s
  | .expUnpin slot => Sys2Proof.Machine.execExpUnpin slot s
  | .coreHaltRequest c => Sys2Proof.Machine.execCoreHaltRequest c s
  | .coreResume c => Sys2Proof.Machine.execCoreResume c s
  | .coreSingleStep c => Sys2Proof.Machine.execCoreSingleStep c s
  | .bookFormat => Sys2Proof.Machine.execBookFormat s
  | .bookDump => Sys2Proof.Machine.execBookDump s
  | .laneFail g l => Sys2Proof.Machine.execLaneFail g l s
  | .phyLost g => Sys2Proof.Machine.execPhyLost g s
  | .linkBringupStart g => Sys2Proof.Machine.execLinkBringupStart g s
  | .trainFlit g flit => Sys2Proof.Machine.execTrainFlit g flit s
  | .trainTimeout g => Sys2Proof.Machine.execTrainTimeout g s
  | .flitReceive g b0 b1 bufErr => Sys2Proof.Machine.execFlitReceive g b0 b1 bufErr s
  | .ackReceive g ack nak => Sys2Proof.Machine.execAckReceive g ack nak s
  | .ackSend g => Sys2Proof.Machine.execAckSend g s
  | .creditFlitSend g => Sys2Proof.Machine.execCreditFlitSend g s
  | .replayTimeout g => Sys2Proof.Machine.execReplayTimeout g s
  | .greenFlitReceive unit parityOk => Sys2Proof.Machine.execGreenFlitReceive unit parityOk s
  | .chunkSend g vc err => Sys2Proof.Machine.execChunkSend g vc err s
  | .chunkReceive g via err => Sys2Proof.Machine.execChunkReceive g via err s
  | .maskFrameReceive g vc => Sys2Proof.Machine.execMaskFrameReceive g vc s
  | .chunkBolt r => Sys2Proof.Machine.execChunkBolt r s
  | .shadowCopyReceive g => Sys2Proof.Machine.execShadowCopyReceive g s
  | .shadowResult g err => Sys2Proof.Machine.execShadowResult g err s
  | .boltNotice g via => Sys2Proof.Machine.execBoltNotice g via s
  | .revokeNotice g via => Sys2Proof.Machine.execRevokeNotice g via s
  | .resendNotice g via => Sys2Proof.Machine.execResendNotice g via s
  | .closeNotice g via => Sys2Proof.Machine.execCloseNotice g via s
  | .reabsorbDone => Sys2Proof.Machine.execReabsorbDone s
  | .cackNotice g via => Sys2Proof.Machine.execCackNotice g via s
  | .askNotice g via => Sys2Proof.Machine.execAskNotice g via s
  | .grantNotice g via => Sys2Proof.Machine.execGrantNotice g via s
  | .granaryGrant g pool => Sys2Proof.Machine.execGranaryGrant g pool s
  | .stepNoticeUp g => Sys2Proof.Machine.execStepNoticeUp g s
  | .stepNoticeDown g => Sys2Proof.Machine.execStepNoticeDown g s
  | .localResetEnd => Sys2Proof.Machine.execLocalResetEnd s
  | .deadlineExpire op => Sys2Proof.Machine.execDeadlineExpire op s
  | .confirmationLimit op => Sys2Proof.Machine.execConfirmationLimit op s
  | .orphanLimit op => Sys2Proof.Machine.execOrphanLimit op s
  | .curfewWaveTimeout wave => Sys2Proof.Machine.execCurfewWaveTimeout wave s
  | .crierFrameReceive g => Sys2Proof.Machine.execCrierFrameReceive g s
  | .countsFrame => Sys2Proof.Machine.execCountsFrame s
  | .stallAllocate ctx => Sys2Proof.Machine.execStallAllocate ctx s
  | .grantFrame rd => Sys2Proof.Machine.execGrantFrame rd s
  | .rowFrame => Sys2Proof.Machine.execRowFrame s
  | .returnRowFrame => Sys2Proof.Machine.execReturnRowFrame s
  | .countsRequest => Sys2Proof.Machine.execCountsRequest s
  | .capacityAdmit ctx => Sys2Proof.Machine.execCapacityAdmit ctx s
  | .countsReply rd => Sys2Proof.Machine.execCountsReply rd s
  | .postingComplete ctx => Sys2Proof.Machine.execPostingComplete ctx s
  | .postingTimeout ctx => Sys2Proof.Machine.execPostingTimeout ctx s
  | .combine ctx token rd => Sys2Proof.Machine.execCombine ctx token rd s
  | .combineTimeout ctx => Sys2Proof.Machine.execCombineTimeout ctx s
  | .normOpen => Sys2Proof.Machine.execNormOpen s
  | .forgeApply w err rd => Sys2Proof.Machine.execForgeApply w err rd s
  | .forgeBlockApplied w => Sys2Proof.Machine.execForgeBlockApplied w s
  | .wellRequestIssue w => Sys2Proof.Machine.execWellRequestIssue w s
  | .wellReadBeat w tag data poison => Sys2Proof.Machine.execWellReadBeat w tag data poison s
  | .wellCompletion w tag status => Sys2Proof.Machine.execWellCompletion w tag status s
  | .wellTimeout w tag => Sys2Proof.Machine.execWellTimeout w tag s
  | .wellRefresh w => Sys2Proof.Machine.execWellRefresh w s
  | .expanderFetch w => Sys2Proof.Machine.execExpanderFetch w s
  | .expandBlock w => Sys2Proof.Machine.execExpandBlock w s
  | .longWordIssue c errs => Sys2Proof.Machine.execLongWordIssue c errs s
  | .add c rd rs1 rs2 => Sys2Proof.Machine.execAdd c rd rs1 rs2 s
  | .sub c rd rs1 rs2 => Sys2Proof.Machine.execSub c rd rs1 rs2 s
  | .mul c rd rs1 rs2 => Sys2Proof.Machine.execMul c rd rs1 rs2 s
  | .and c rd rs1 rs2 => Sys2Proof.Machine.execAnd c rd rs1 rs2 s
  | .or c rd rs1 rs2 => Sys2Proof.Machine.execOr c rd rs1 rs2 s
  | .xor c rd rs1 rs2 => Sys2Proof.Machine.execXor c rd rs1 rs2 s
  | .shl c rd rs1 rs2 => Sys2Proof.Machine.execShl c rd rs1 rs2 s
  | .shr c rd rs1 rs2 => Sys2Proof.Machine.execShr c rd rs1 rs2 s
  | .sra c rd rs1 rs2 => Sys2Proof.Machine.execSra c rd rs1 rs2 s
  | .slt c rd rs1 rs2 => Sys2Proof.Machine.execSlt c rd rs1 rs2 s
  | .sltu c rd rs1 rs2 => Sys2Proof.Machine.execSltu c rd rs1 rs2 s
  | .addi c rd rs1 imm => Sys2Proof.Machine.execAddi c rd rs1 imm s
  | .andi c rd rs1 imm => Sys2Proof.Machine.execAndi c rd rs1 imm s
  | .ori c rd rs1 imm => Sys2Proof.Machine.execOri c rd rs1 imm s
  | .xori c rd rs1 imm => Sys2Proof.Machine.execXori c rd rs1 imm s
  | .lui c rd imm => Sys2Proof.Machine.execLui c rd imm s
  | .li c rd imm => Sys2Proof.Machine.execLi c rd imm s
  | .ld c errs => Sys2Proof.Machine.execLd c errs s
  | .st c errs => Sys2Proof.Machine.execSt c errs s
  | .loop c level cnt e => Sys2Proof.Machine.execLoop c level cnt e s
  | .br c rs sense o => Sys2Proof.Machine.execBr c rs sense o s
  | .dput c d q rs => Sys2Proof.Machine.execDput c d q rs s
  | .setvl c rs1 => Sys2Proof.Machine.execSetvl c rs1 s
  | .setcnt c k source => Sys2Proof.Machine.execSetcnt c k source s
  | .setcmp c k eq rs => Sys2Proof.Machine.execSetcmp c k eq rs s
  | .rdcnt c rd k => Sys2Proof.Machine.execRdcnt c rd k s
  | .rdlp c rd level => Sys2Proof.Machine.execRdlp c rd level s
  | .layout c code => Sys2Proof.Machine.execLayout c code s
  | .vectorRun c job errs => Sys2Proof.Machine.execVectorRun c job errs s
  | .eccWriteback c => Sys2Proof.Machine.execEccWriteback c s
  | .mac c errs => Sys2Proof.Machine.execMac c errs s
  | .preload c errs => Sys2Proof.Machine.execPreload c errs s
  | .drain c errs => Sys2Proof.Machine.execDrain c errs s
  | .load c => Sys2Proof.Machine.execLoad c s
  | .loadExpand c => Sys2Proof.Machine.execLoadExpand c s
  | .store c errs => Sys2Proof.Machine.execStore c errs s
  | .handoff c errs check => Sys2Proof.Machine.execHandoff c errs check s
  | .storeToCore c errs => Sys2Proof.Machine.execStoreToCore c errs s
  | .opn c errs => Sys2Proof.Machine.execOpn c errs s
  | .loadComplete c => Sys2Proof.Machine.execLoadComplete c s
  | .storeComplete c => Sys2Proof.Machine.execStoreComplete c s
  | .vectorPassComplete c => Sys2Proof.Machine.execVectorPassComplete c s
  | .matrixOpComplete c => Sys2Proof.Machine.execMatrixOpComplete c s
  | .wait c k => Sys2Proof.Machine.execWait c k s
  | .waitq c engine depth => Sys2Proof.Machine.execWaitq c engine depth s
  | .fence c => Sys2Proof.Machine.execFence c s
  | .signal c v => Sys2Proof.Machine.execSignal c v s
  | .halt c => Sys2Proof.Machine.execHalt c s
  | .take c => Sys2Proof.Machine.execTake c s
  | .syncRelease c => Sys2Proof.Machine.execSyncRelease c s
  | .statusWindowExpire unit => Sys2Proof.Machine.execStatusWindowExpire unit s
  | .bookCoalesceTimer unit memErr => Sys2Proof.Machine.execBookCoalesceTimer unit memErr s
  | .exposureListWrite => Sys2Proof.Machine.execExposureListWrite s
  | .gateTxtake g take0 take1 => Sys2Proof.Machine.execGateTxtake g take0 take1 s
  | .grantDeadline ctx => Sys2Proof.Machine.execGrantDeadline ctx s
  | .confirmationIncomplete group => Sys2Proof.Machine.execConfirmationIncomplete group s

end Sys2Proof.Machine
end

