-- ==== Sys2Proof/Safety.lean ====
section
/-! DEFINITION. What the claims call safe: which commands name units that the block has, when a state's memories are in
canonical form, the invariant that every step keeps, and a safe run. -/

namespace Sys2Proof.Machine

/-! ### Units -/

/-- The unit that a command names exists: 2,304 cores, 96 gates, 32 wells (R1), the units of
15 Table 15-5. A command that names no unit is always possible. -/
def unitOk : Instr → Bool
  | .powerGoodRise _ => true
  | .powerGoodFall _ => true
  | .powerOnReset _ => true
  | .softReset _ => true
  | .romSelfTest _ => true
  | .firmwareLoad _ _ => true
  | .charterLoad _ _ => true
  | .loadAbort => true
  | .loadData _ => true
  | .bookScan _ => true
  | .baselineTest _ => true
  | .wsBypass => true
  | .wsExtest => true
  | .wsIntestScan => true
  | .svIdcode => true
  | .svMbist => true
  | .cmdPortWord _ => true
  | .cmdRegisterWord _ => true
  | .step => true
  | .layerReady => true
  | .curfew => true
  | .barrier => true
  | .reset => true
  | .hinge => true
  | .hingeSwitch _ => true
  | .coreSave c => decide (c < numCores)
  | .coreRestore c _ => decide (c < numCores)
  | .program _ => true
  | .dispatchForward _ => true
  | .dispatchReplay _ => true
  | .ret _ => true
  | .expand _ => true
  | .declare _ => true
  | .tally _ => true
  | .tallyComplete _ => true
  | .almLoad _ => true
  | .almRun => true
  | .almTestResult _ _ => true
  | .post => true
  | .readLoCapture _ _ => true
  | .readClear _ _ => true
  | .pairWriteLo _ _ _ => true
  | .registerWrite _ _ _ => true
  | .stagedWrite _ _ => true
  | .keyTurn => true
  | .rollLoad _ => true
  | .rollConfirm => true
  | .forceArrival => true
  | .linkEnableSet g => decide (g < numGates)
  | .linkDisable g => decide (g < numGates)
  | .linkRetrain g => decide (g < numGates)
  | .normRelease => true
  | .normAbandon => true
  | .expTableLoad => true
  | .expTableLoadDone _ => true
  | .expPin _ => true
  | .expUnpin _ => true
  | .coreHaltRequest c => decide (c < numCores)
  | .coreResume c => decide (c < numCores)
  | .coreSingleStep c => decide (c < numCores)
  | .bookFormat => true
  | .bookDump => true
  | .laneFail g _ => decide (g < numGates)
  | .phyLost g => decide (g < numGates)
  | .linkBringupStart g => decide (g < numGates)
  | .trainFlit g _ => decide (g < numGates)
  | .trainTimeout g => decide (g < numGates)
  | .flitReceive g _ _ _ => decide (g < numGates)
  | .ackReceive g _ _ => decide (g < numGates)
  | .ackSend g => decide (g < numGates)
  | .creditFlitSend g => decide (g < numGates)
  | .replayTimeout g => decide (g < numGates)
  | .greenFlitReceive unit _ => greenUnit unit
  | .chunkSend g _ _ => decide (g < numGates)
  | .chunkReceive g _ _ => decide (g < numGates)
  | .maskFrameReceive g _ => decide (g < numGates)
  | .chunkBolt (.market g _) => decide (g < numGates)
  | .chunkBolt _ => true
  | .shadowCopyReceive g => decide (g < numGates)
  | .shadowResult g _ => decide (g < numGates)
  | .boltNotice g _ => decide (g < numGates)
  | .revokeNotice g _ => decide (g < numGates)
  | .resendNotice g _ => decide (g < numGates)
  | .closeNotice g _ => decide (g < numGates)
  | .reabsorbDone => true
  | .cackNotice g _ => decide (g < numGates)
  | .askNotice g _ => decide (g < numGates)
  | .grantNotice g _ => decide (g < numGates)
  | .granaryGrant g _ => decide (g < numGates)
  | .stepNoticeUp g => g.all (fun g => decide (g < numGates))
  | .stepNoticeDown g => decide (g < numGates)
  | .localResetEnd => true
  | .deadlineExpire _ => true
  | .confirmationLimit _ => true
  | .orphanLimit _ => true
  | .curfewWaveTimeout _ => true
  | .crierFrameReceive g => decide (g < numGates)
  | .countsFrame => true
  | .stallAllocate _ => true
  | .grantFrame _ => true
  | .rowFrame => true
  | .returnRowFrame => true
  | .countsRequest => true
  | .capacityAdmit _ => true
  | .countsReply _ => true
  | .postingComplete _ => true
  | .postingTimeout _ => true
  | .combine _ _ _ => true
  | .combineTimeout _ => true
  | .normOpen => true
  | .forgeApply w _ _ => decide (w < numWells)
  | .forgeBlockApplied w => decide (w < numWells)
  | .wellRequestIssue w => decide (w < numWells)
  | .wellReadBeat w _ _ _ => decide (w < numWells)
  | .wellCompletion w _ _ => decide (w < numWells)
  | .wellTimeout w _ => decide (w < numWells)
  | .wellRefresh w => decide (w < numWells)
  | .expanderFetch w => decide (w < numWells)
  | .expandBlock w => decide (w < numWells)
  | .longWordIssue c _ => decide (c < numCores)
  | .add c _ _ _ => decide (c < numCores)
  | .sub c _ _ _ => decide (c < numCores)
  | .mul c _ _ _ => decide (c < numCores)
  | .and c _ _ _ => decide (c < numCores)
  | .or c _ _ _ => decide (c < numCores)
  | .xor c _ _ _ => decide (c < numCores)
  | .shl c _ _ _ => decide (c < numCores)
  | .shr c _ _ _ => decide (c < numCores)
  | .sra c _ _ _ => decide (c < numCores)
  | .slt c _ _ _ => decide (c < numCores)
  | .sltu c _ _ _ => decide (c < numCores)
  | .addi c _ _ _ => decide (c < numCores)
  | .andi c _ _ _ => decide (c < numCores)
  | .ori c _ _ _ => decide (c < numCores)
  | .xori c _ _ _ => decide (c < numCores)
  | .lui c _ _ => decide (c < numCores)
  | .li c _ _ => decide (c < numCores)
  | .ld c _ => decide (c < numCores)
  | .st c _ => decide (c < numCores)
  | .loop c _ _ _ => decide (c < numCores)
  | .br c _ _ _ => decide (c < numCores)
  | .dput c _ _ _ => decide (c < numCores)
  | .setvl c _ => decide (c < numCores)
  | .setcnt c _ _ => decide (c < numCores)
  | .setcmp c _ _ _ => decide (c < numCores)
  | .rdcnt c _ _ => decide (c < numCores)
  | .rdlp c _ _ => decide (c < numCores)
  | .layout c _ => decide (c < numCores)
  | .vectorRun c _ _ => decide (c < numCores)
  | .eccWriteback c => decide (c < numCores)
  | .mac c _ => decide (c < numCores)
  | .preload c _ => decide (c < numCores)
  | .drain c _ => decide (c < numCores)
  | .load c => decide (c < numCores)
  | .loadExpand c => decide (c < numCores)
  | .store c _ => decide (c < numCores)
  | .handoff c _ _ => decide (c < numCores)
  | .storeToCore c _ => decide (c < numCores)
  | .opn c _ => decide (c < numCores)
  | .loadComplete c => decide (c < numCores)
  | .storeComplete c => decide (c < numCores)
  | .vectorPassComplete c => decide (c < numCores)
  | .matrixOpComplete c => decide (c < numCores)
  | .wait c _ => decide (c < numCores)
  | .waitq c _ _ => decide (c < numCores)
  | .fence c => decide (c < numCores)
  | .signal c _ => decide (c < numCores)
  | .halt c => decide (c < numCores)
  | .take c => decide (c < numCores)
  | .syncRelease c => decide (c < numCores)
  | .statusWindowExpire unit => unitExists unit
  | .bookCoalesceTimer unit _ => unitExists unit
  | .exposureListWrite => true
  | .gateTxtake g _ _ => decide (g < numGates)
  | .grantDeadline _ => true
  | .confirmationIncomplete _ => true

/-! ### When a command may start -/

/-- The rows that start the command at the head of the command FIFO, with its opcode (16 Table 16-4). -/
def fifoOp : Instr → Option Nat
  | .step => some 0x01
  | .layerReady => some 0x02
  | .curfew => some 0x03
  | .barrier => some 0x04
  | .reset => some 0x06
  | .hinge => some 0x08
  | .program _ => some 0x0C
  | .dispatchForward _ => some 0x20
  | .dispatchReplay _ => some 0x20
  | .ret _ => some 0x21
  | .expand _ => some 0x30
  | .declare _ => some 0x40
  | .tally _ => some 0x41
  | .almLoad _ => some 0x50
  | .almRun => some 0x51
  | .post => some 0x60
  | _ => none

/-- The block runs, the word `w` with opcode `op` is at the head of its command FIFO with `rest` behind it, and nothing
holds the FIFO (R461, R517, R555, R562). -/
abbrev headIs (s : State) (op : Nat) (w : U64) (rest : List U64) : Prop :=
  live s = true ∧ s.cmd.fifo = w :: rest ∧ cmdOp w = op ∧ fifoHeld s = false

/-- The rows of the supply, reset and wrapper inputs, which act whatever the power inputs and resets are. -/
def pinRow : Instr → Bool
  | .powerGoodRise _ => true
  | .powerGoodFall _ => true
  | .powerOnReset _ => true
  | .softReset _ => true
  | .wsBypass => true
  | .wsExtest => true
  | .wsIntestScan => true
  | .svIdcode => true
  | .svMbist => true
  | _ => false

/-! ### Memories -/

/-- Every memory of a core is in canonical form. -/
def Core.memsWf (k : Core) : Bool :=
  memWf 0 k.prog && memWf 0 k.scratch && memWf 0 k.acc && memWf 0 k.sdata && memWf 0 k.v

/-- Every register table of a core is in canonical form. -/
def Core.tablesWf (k : Core) : Bool :=
  tableWf 0 k.s && tableWf 0 k.cnt && tableWf 0 k.cntSrc && tableWf {} k.cmp && tableWf {} k.loops && tableWf 0 k.d &&
    tableWf 0 k.tile

/-- A core's memories and register tables are in canonical form. -/
def Core.wf (k : Core) : Bool := k.memsWf && k.tablesWf

/-- The tables of the units are in canonical form: no unit is listed twice, none equals what an unlisted one reads as. -/
def State.unitsWf (s : State) : Bool :=
  tableWf {} s.cores && tableWf {} s.gates && tableWf {} s.wells && tableWf {} s.units

/-- Host memory, the flash, and the memories and registers of every core are in canonical form. -/
def State.memsWf (s : State) : Bool :=
  memWf 0 s.host && memWf 0xFF s.book.flash && s.cores.all (fun e => e.2.wf)

/-- The invariant that every step keeps: memories and unit tables in canonical form, and at most 256 words in the command
FIFO (R560). -/
def State.Inv (s : State) : Prop := s.memsWf = true ∧ s.unitsWf = true ∧ s.cmd.fifo.length ≤ 256

/-! ### What a command changes -/

/-- From `s` to `t` only core `c` changes, and of it only scalar register `rd`, which takes `v`; s0 stays zero. -/
def writesReg (s t : State) (c rd : Nat) (v : U32) : Prop :=
  t = { s with cores := t.cores } ∧ (∀ x, x ≠ c → getCore t x = getCore s x) ∧
  getCore t c = { getCore s c with s := (getCore t c).s } ∧
  ∀ r, r < 32 → getS (getCore t c) r = if r = rd % 32 ∧ r ≠ 0 then v else getS (getCore s c) r

/-- Core `c` is halted with code 0x21 by the scalar engine at an entry's address, and the scalar queue is empty (R104, R490). -/
def stopsScalar (t : State) (c addr : Nat) : Prop :=
  (getCore t c).state = 2 ∧ (getCore t c).haltCode = 0x21 ∧ (getCore t c).haltAddr = addr ∧
  (getCore t c).haltEngine = 0 ∧ (getCore t c).q0 = []

/-- From `s` to `t` only core `c` changes: it halts at its address with a code and an engine, and issues nothing (R490, R492). -/
def haltsHere (s t : State) (c code e : Nat) : Prop :=
  t = { s with cores := t.cores } ∧ (∀ x, x ≠ c → getCore t x = getCore s x) ∧
  getCore t c = { getCore s c with
    state := 2, haltAddr := (getCore s c).pc, haltCode := code, haltEngine := e, haltReq := false, stepping := false
    cntDue := false, saving := false, more := (getCore t c).more }

/-- From `s` to `t` the memory `m` of a core takes the bytes `bs` at `a` and keeps every other byte. -/
def bytesStored (m n : Mem) (a : Nat) (bs : Bytes) : Prop :=
  ∀ x, mget 0 n x = if a ≤ x ∧ x < a + bs.length then bs.getD (x - a) 0 else mget 0 m x

/-- From `s` to `t` only the records of faults change: counters, the fault ring and the writes that carry it to host memory,
the parish book, the units' histories and status, and the exposure lists that wait (R525 to R531). -/
def reported (s t : State) : Prop :=
  t = { s with
    aon := { s.aon with held := t.aon.held }, faultCnt := t.faultCnt, flt := t.flt, units := t.units, expose := t.expose
    book := t.book, wells := t.wells, host := t.host, hostPoison := t.hostPoison, wellStamp := t.wellStamp }

/-! ### What a reset leaves -/

/-- The state `t` is what a reset of `s` leaves, with the pins as `p` and the always-on store and the faults not yet recorded
apart: every other part at its reset value, but for the levels at the pins and at each gate's PHY, host memory, the flash and
the queue (R552 to R554). -/
def resetsTo (p : Pins) (s t : State) : Prop :=
  t = { State.reset with
    pending := s.pending, host := s.host, hostPoison := s.hostPoison, aon := t.aon, units := t.units, gates := t.gates
    pins := { p with mgtRdata := 0, mgtErr := false }, book := { State.reset.book with flash := s.book.flash } } ∧
  (∀ e ∈ t.gates, ∃ b0 b1 b2, e.2 = { phyRdy := b0, laneFail0 := b1, laneFail1 := b2 }) ∧
  (s.unitsWf = true → ∀ g, getGate t g = { phyRdy := (getGate s g).phyRdy, laneFail0 := (getGate s g).laneFail0
                                           laneFail1 := (getGate s g).laneFail1 })

/-- Of the units' histories only the faults not yet written to the parish book are left (R553). -/
def keepsUnwritten (s t : State) : Prop :=
  ∀ u, getUnit t u = { lastRec := (getUnit s u).lastRec, heldN := (getUnit s u).heldN, heldFirst := (getUnit s u).heldFirst
                       heldMixed := (getUnit s u).heldMixed }

/-! ### Runs -/

/-- A run of `n` steps that neither faults nor refuses. -/
def safeRun : Nat → State → Prop
  | 0, _ => True
  | n + 1, s => match step s with
    | .next t => safeRun n t
    | .fault _ => False
    | .refused _ => False

/-- The state after `n` steps, if none of them stops. -/
def stateAfter : Nat → State → Option State
  | 0, s => some s
  | n + 1, s => match step s with
    | .next t => stateAfter n t
    | .fault _ => none
    | .refused _ => none

end Sys2Proof.Machine
end

