-- ==== Sys2Proof/Certificates/Slice0/Obligations.lean ====
section
/-! DEFINITION. The statements about the block, one definition each; OBLIGATIONS.json lists them. -/

section

open Sys2Proof Sys2Proof.Machine

/-! ### The queue and the whole block -/

/-- For every command c, queue rest and state s, step of s with c in front of rest is exec of c on s with the queue rest. -/
def Obligations.StepRunsFrontCommand : Prop :=
  ∀ (c : Instr) (rest : List Instr) (s : State),
    step { s with pending := c :: rest } = exec c { s with pending := rest }

/-- With no command waiting, step answers a next state in which the time counter behind BLK_EPOCH has counted one
microsecond while VDD_AON is good, and nothing else has changed. This is the choice of the model that log 8 names. -/
def Obligations.EmptyQueuePassesTime : Prop :=
  ∀ s : State, s.pending = [] →
    (s.pins.pgAon = true → step s = .next { s with aon := { s.aon with timeUs := s.aon.timeUs + 1 } }) ∧
    (s.pins.pgAon = false → step s = .next s)

/-- For every command and state, if exec answers a next state, the queue of waiting commands in it is the one before. -/
def Obligations.NoCommandTouchesTheQueue : Prop :=
  ∀ (c : Instr) (s t : State), exec c s = .next t → t.pending = s.pending

/-- For every command and state: exec faults, with the fault noSuchUnit, exactly when the command names a core, gate, well
or unit id that does not exist; exec never refuses; otherwise it answers a next state. -/
def Obligations.OnlyMissingUnitsStop : Prop :=
  ∀ (c : Instr) (s : State),
    (unitOk c = false → exec c s = .fault .noSuchUnit) ∧ (unitOk c = true → ∃ t, exec c s = .next t)

/-- While a power-good input or a reset input is low, every command on an existing unit, other than the rows of the
supply, reset and wrapper inputs, leaves the state as it is (log 5 names the choice that a row whose condition does
not hold changes nothing). -/
def Obligations.DeadBlockIgnoresCommands : Prop :=
  ∀ (c : Instr) (s : State), live s = false → unitOk c = true → pinRow c = false → exec c s = .next s

/-- From every state whose host memory, flash, core memories and registers, and unit tables are in canonical form and
whose command FIFO holds at most 256 words, every step that answers a next state gives such a state again. -/
def Obligations.EveryStepKeepsCanonicalForm : Prop :=
  ∀ s t : State, s.Inv → step s = .next t → t.Inv

/-- The state right after reset satisfies the invariant that every step keeps. -/
def Obligations.ResetIsCanonical : Prop :=
  State.reset.Inv

/-- From every state that satisfies the invariant and whose waiting commands all name existing units, n steps all answer
next states, and every state reached satisfies the invariant. -/
def Obligations.EveryRunIsCanonical : Prop :=
  ∀ (n : Nat) (s : State), s.Inv → (∀ c ∈ s.pending, unitOk c = true) →
    safeRun n s ∧ ∃ t, stateAfter n s = some t ∧ t.Inv

/-! ### Supplies, resets and test access -/

/-- Every rise completes: it sets its input and changes nothing else (R550). Every fall completes too (R551): a fall of
PG_AON leaves the block with that input low as the power-on reset does, the always-on store and the histories of its
units included; a fall of PG_CORE or PG_SRAM while PG_AON and RST_PWR_N are high leaves it, with that input low, as an
assertion of RST_SOFT_N does, the always-on store kept with cause 2 and only the faults not yet written kept of the
histories; otherwise it only lowers the input. Unless all three power-good inputs are high, IRQ_FAULT, IRQ_BELL,
IRQ_HALT and CMD_READY are low and the clock outputs stand; once all three are high the clock outputs run. -/
def Obligations.SupplyInputsActAsTheManualSays : Prop :=
  (∀ s : State,
    exec (.powerGoodRise .core) s = .next { s with pins := { s.pins with pgCore := true } } ∧
    exec (.powerGoodRise .sram) s = .next { s with pins := { s.pins with pgSram := true } } ∧
    exec (.powerGoodRise .aon) s = .next { s with pins := { s.pins with pgAon := true } } ∧
    (∃ t, exec (.powerGoodFall .aon) s = .next t ∧ t.aon = {} ∧ t.units = [] ∧
      resetsTo { s.pins with pgAon := false } s t) ∧
    (s.pins.pgAon = true → s.pins.rstPwrN = true →
      (∃ t, exec (.powerGoodFall .core) s = .next t ∧ t.aon = { s.aon with resetCause := 2 } ∧
        (s.unitsWf = true → keepsUnwritten s t) ∧ resetsTo { s.pins with pgCore := false } s t) ∧
      (∃ t, exec (.powerGoodFall .sram) s = .next t ∧ t.aon = { s.aon with resetCause := 2 } ∧
        (s.unitsWf = true → keepsUnwritten s t) ∧ resetsTo { s.pins with pgSram := false } s t)) ∧
    (s.pins.pgAon = false ∨ s.pins.rstPwrN = false →
      exec (.powerGoodFall .core) s = .next { s with pins := { s.pins with pgCore := false } } ∧
      exec (.powerGoodFall .sram) s = .next { s with pins := { s.pins with pgSram := false } })) ∧
  (∀ s : State,
    (¬ (s.pins.pgCore = true ∧ s.pins.pgSram = true ∧ s.pins.pgAon = true) →
      irqFault s = false ∧ irqBell s = false ∧ irqHalt s = false ∧ cmdReady s = false ∧ clocksOut s = false) ∧
    (s.pins.pgCore = true ∧ s.pins.pgSram = true ∧ s.pins.pgAon = true → clocksOut s = true))

/-- In every state: with RST_PWR_N driven low every part of the block returns to its reset value, the always-on store and
the histories of its units included. With RST_SOFT_N driven low while RST_PWR_N is high everything but the always-on
store does: its cause reads 1, and the faults not yet written stay; with RST_PWR_N also low the power-on reset
applies. A released input only rises. Either reset leaves stage 0, no firmware, no charter, no roll, every link
disabled and in state 0, and no quarantined tag. The levels at the pins and at the PHY of each gate, the flash, host
memory and the queue are outside what the block resets (log 169). -/
def Obligations.ResetsReachTheRomStage : Prop :=
  ∀ s : State,
    (∃ t, exec (.powerOnReset true) s = .next t ∧ t.aon = {} ∧ t.units = [] ∧
      resetsTo { s.pins with rstPwrN := false } s t) ∧
    exec (.powerOnReset false) s = .next { s with pins := { s.pins with rstPwrN := true } } ∧
    (s.pins.rstPwrN = true → ∃ t, exec (.softReset true) s = .next t ∧ t.aon = { s.aon with resetCause := 1 } ∧
      (s.unitsWf = true → keepsUnwritten s t) ∧
      resetsTo { s.pins with rstSoftN := false } s t) ∧
    (s.pins.rstPwrN = false → ∃ t, exec (.softReset true) s = .next t ∧ t.aon = {} ∧ t.units = [] ∧
      resetsTo { s.pins with rstSoftN := false } s t) ∧
    exec (.softReset false) s = .next { s with pins := { s.pins with rstSoftN := true } } ∧
    (∀ (p : Pins) (t : State), resetsTo p s t →
      t.boot.stage = 0 ∧ t.boot.fwVersion = 0 ∧ t.charter = none ∧ t.roll.loaded = false ∧ t.roll.groups = [] ∧
      (∀ g, (getGate t g).enable = false ∧ (getGate t g).state = 0) ∧ (∀ w, (getWell t w).quar = []))

/-- While all three supplies are good each wrapper instruction comes into force, whatever the resets are; SV_IDCODE also
presents BLK_ID in bits 31:0 and BLK_VERSION in bits 63:32. While the block is isolated none changes anything. -/
def Obligations.WrapperInstructions : Prop :=
  ∀ s : State,
    (powered s = true →
      exec .wsBypass s = .next { s with pins := { s.pins with wrap := .bypass } } ∧
      exec .wsExtest s = .next { s with pins := { s.pins with wrap := .extest } } ∧
      exec .wsIntestScan s = .next { s with pins := { s.pins with wrap := .intestScan } } ∧
      exec .svMbist s = .next { s with pins := { s.pins with wrap := .mbist } } ∧
      exec .svIdcode s = .next { s with pins := { s.pins with wrap := .idcode, wso := 0x0003000153564C58#64 } }) ∧
    (powered s = false → ∀ c ∈ [Instr.wsBypass, .wsExtest, .wsIntestScan, .svMbist, .svIdcode], exec c s = .next s)

/-! ### Start-up and loads -/

/-- In stage 0 a passed self-test reaches stage 1 and a failed one stays with IRQ_HALT high; in a later stage the row
changes nothing. In stage 1 a stream load of firmware of some length begins to receive, and one of length 0 is checked
at once; a load through the wells that reads well is accepted, with version 0x0203 and stage 2, exactly when the image
is at most 1 MiB and its signature verifies, and is rejected with reason 3 or 5 otherwise; a failed read gives load
state 4 with reason 12 and leaves stage 1. Outside stage 1 a firmware load ends with reason 10. An abort ends a load
that receives or is checked with reason 11 and else does nothing. -/
def Obligations.SelfTestAndLoadsMoveTheStages : Prop :=
  ∀ s : State, live s = true →
    (s.boot.stage = 0 →
      exec (.romSelfTest true) s = .next { s with boot := { s.boot with stage := 1, selfTestFailed := false } } ∧
      (∃ t, exec (.romSelfTest false) s = .next t ∧ t = { s with boot := { s.boot with selfTestFailed := true } } ∧
        irqHalt t = true)) ∧
    (s.boot.stage ≠ 0 → ∀ p, exec (.romSelfTest p) s = .next s) ∧
    (s.boot.stage = 1 → ∀ rd,
      (s.boot.len ≠ 0 → exec (.firmwareLoad .stream rd) s = .next { s with boot := { s.boot with
        target := false, source := false, buf := [], loadState := 1, reason := 0, record := 0 } }) ∧
      (s.boot.len = 0 → exec (.firmwareLoad .stream rd) s =
        .next (loadCheck [] { s with boot := { s.boot with target := false, source := false, buf := [] } }))) ∧
    (s.boot.stage = 1 →
      exec (.firmwareLoad .well0 .ok) s = .next (
        let img := hostRead s s.boot.base.toNat s.boot.len
        let b : Boot := { s.boot with target := false, source := true, buf := [] }
        if 2 ^ 20 < s.boot.len then { s with boot := { b with loadState := 4, reason := 3, record := 0 } }
        else if ed25519Verify Config.romKey (img.take (img.length - 64)) (img.drop (img.length - 64)) then
          { s with boot := { b with loadState := 3, reason := 0, record := 0, fwVersion := 0x0203, stage := 2 } }
        else { s with boot := { b with loadState := 4, reason := 5, record := 0 } })) ∧
    (s.boot.stage = 1 → ∀ rd, rd ≠ .ok →
      ∃ t, exec (.firmwareLoad .well0 rd) s = .next t ∧ t.boot.loadState = 4 ∧ t.boot.reason = 12 ∧ t.boot.stage = 1) ∧
    (s.boot.stage ≠ 1 → ∀ src rd, exec (.firmwareLoad src rd) s = .next { s with boot := { s.boot with
      target := false, source := decide (src = .well0), buf := [], loadState := 4, reason := 10, record := 0 } }) ∧
    (s.boot.loadState = 1 ∨ s.boot.loadState = 2 →
      exec .loadAbort s = .next { s with boot := { s.boot with loadState := 4, reason := 11, record := 0, buf := [] } }) ∧
    (s.boot.loadState ≠ 1 → s.boot.loadState ≠ 2 → exec .loadAbort s = .next s)

/-- A charter load before stage 2, or while the block is not idle, ends with reason 10 and changes nothing else. Otherwise
a stream load of some length begins to receive, and one of length 0 is checked at once; a failed read of an image
through the wells ends with reason 12 and leaves the charter; an image read well is either rejected with the reason
and the record that the loader finds, and nothing else changes, or becomes the charter in force with load state 3 and
reason 0, the roll and the almanac dropped, map 0 in force, stage 3 when the stage was 2, and the pins, the command
FIFO and the list of operations as they were. While a stream load receives, each word appends its 4 bytes, the low
byte first, until the length is reached; at that moment the whole image goes through the same check as an image read
through the wells. While no stream load receives the word is ignored. -/
def Obligations.CharterIsAcceptedWholeOrNotAtAll : Prop :=
  (∀ s : State, live s = true →
    (s.boot.stage < 2 ∨ idleForCharter s = false → ∀ src rd, exec (.charterLoad src rd) s = .next { s with boot := { s.boot with
      target := true, source := decide (src = .well0), buf := [], loadState := 4, reason := 10, record := 0 } }) ∧
    (2 ≤ s.boot.stage → idleForCharter s = true → ∀ rd,
      (s.boot.len ≠ 0 → exec (.charterLoad .stream rd) s = .next { s with boot := { s.boot with
        target := true, source := false, buf := [], loadState := 1, reason := 0, record := 0 } }) ∧
      (s.boot.len = 0 → exec (.charterLoad .stream rd) s =
        .next (loadCheck [] { s with boot := { s.boot with target := true, source := false, buf := [] } })) ∧
      (rd ≠ .ok → ∃ t, exec (.charterLoad .well0 rd) s = .next t ∧ t.boot.loadState = 4 ∧ t.boot.reason = 12 ∧
        t.charter = s.charter ∧ t.boot.stage = s.boot.stage)) ∧
    (2 ≤ s.boot.stage → idleForCharter s = true →
      let b := hostRead s s.boot.base.toNat s.boot.len
      let s' : State := { s with boot := { s.boot with target := true, source := true, buf := [] } }
      match charterReason s' b with
      | some (reason, record) => exec (.charterLoad .well0 .ok) s = .next { s with boot := { s.boot with
          target := true, source := true, buf := [], loadState := 4, reason := reason, record := record } }
      | none => ∃ t, exec (.charterLoad .well0 .ok) s = .next t ∧
          t.charter = some (charterOf b) ∧ t.boot.loadState = 3 ∧ t.boot.reason = 0 ∧
          t.boot.stage = (if s.boot.stage = 2 then 3 else s.boot.stage) ∧ t.roll.loaded = false ∧ t.roll.groups = [] ∧
          t.alm.installed = false ∧ t.forge.map = 0 ∧ t.pins = s.pins ∧ t.cmd = s.cmd ∧ t.ops = s.ops)) ∧
  (∀ (s : State) (v : U32), live s = true →
    (s.boot.loadState = 1 → s.boot.buf.length + 4 < s.boot.len →
      exec (.loadData v) s = .next { s with boot := { s.boot with buf := s.boot.buf ++
        [v.truncate 8, (v >>> 8).truncate 8, (v >>> 16).truncate 8, (v >>> 24).truncate 8] } }) ∧
    (s.boot.loadState = 1 → s.boot.len ≤ s.boot.buf.length + 4 →
      exec (.loadData v) s = .next (loadCheck ((s.boot.buf ++ natLe 4 v.toNat).take s.boot.len) s)) ∧
    (s.boot.loadState ≠ 1 → exec (.loadData v) s = .next s))

/-- In stage 3 with a charter in force BOOK_SCAN reaches stage 4 and keeps the flash identity; without the 4 KiB erase or
the SFDP table the book is unusable; an identity that is not the charter's leaves it read-only. In stage 4
BASELINE_TEST reaches stage 5, and a failing test does not stop start-up. In other stages both change nothing.
BOOK_FORMAT writes the identity of the charter's book into a blank sector 0 of the flash that the charter names, and
leaves every other byte of the flash; on a flash that is not blank there, unusable or another, or without a charter,
it changes nothing. BOOK_DUMP writes the valid records, one after another, to the dump address and gives their length;
of an unusable book it writes nothing and the length is 0. -/
def Obligations.ParishBookRows : Prop :=
  (∀ (s : State) (c : Charter) (f : FlashId) (fails : List Nat), live s = true → s.charter = some c →
    (s.boot.stage = 3 → ∃ t, exec (.bookScan f) s = .next t ∧ t.boot.stage = 4 ∧ t.book.flashId = some f ∧
      ((f.sfdp = false ∨ f.erase4k = false) → t.book.unusable = true) ∧
      (f.sfdp = true → f.erase4k = true → (f.jedec ≠ c.jedec ∨ f.density ≠ c.density) →
        t.book.readonly = true ∧ t.book.bound = false)) ∧
    (s.boot.stage ≠ 3 → exec (.bookScan f) s = .next s) ∧
    (s.boot.stage = 4 → ∃ t, exec (.baselineTest fails) s = .next t ∧ t.boot.stage = 5) ∧
    (s.boot.stage ≠ 4 → exec (.baselineTest fails) s = .next s)) ∧
  (∀ s : State, live s = true →
    (s.charter = none → exec .bookFormat s = .next s) ∧
    (∀ c, s.charter = some c → formatOk s c = false → exec .bookFormat s = .next s) ∧
    (∀ c, s.charter = some c → formatOk s c = true → memWf 0xFF s.book.flash = true → ∃ m,
      exec .bookFormat s = .next { s with book := { s.book with flash := m } } ∧
      ∀ x, mget 0xFF m x = if x < 64 then (bookIdentity c (bookSectors s)).getD x 0xFF else mget 0xFF s.book.flash x) ∧
    (∀ bs, bs = (if s.book.unusable then [] else (bookRecords s).flatten) → exec .bookDump s = .next
      { postWrite .steward s.book.dumpBase.toNat bs false s with
        book := { s.book with dumpLen := BitVec.ofNat 32 bs.length } }) ∧
    (let n := postWrite .steward s.book.dumpBase.toNat [] false s
     n.host = s.host ∧ n.wells = s.wells))

/-! ### The command FIFO -/

/-- While the FIFO holds fewer than 256 words, a well-formed word goes to its end, and a word with a reserved opcode or a
bit outside its fields is discarded with a configuration fault that names its opcode. While it holds 256 words, a port
word waits outside, and a register word is dropped and sets overflow. A register word is the value written to
BLK_CMD_LO with that of BLK_CMD_HI above it. For every row that starts a command of the FIFO: when the FIFO is empty,
its head has another opcode, or a tally mismatch, a local reset, a running hinge or an uncorrectable error in steward
memory holds the FIFO, the row leaves the state as it is. -/
def Obligations.WordsEnterTheFifo : Prop :=
  (∀ (s : State) (v : U64) (hi : U32), live s = true →
    (s.cmd.fifo.length < 256 → cmdWordOk v = true →
      exec (.cmdPortWord v) s = .next { s with cmd := { s.cmd with fifo := s.cmd.fifo ++ [v] } }) ∧
    (s.cmd.fifo.length < 256 → cmdWordOk v = false →
      exec (.cmdPortWord v) s = .next (raise 0x0E (v.toNat % 256) uBlock 0 0 s)) ∧
    (256 ≤ s.cmd.fifo.length → exec (.cmdPortWord v) s = .next s) ∧
    (s.cmd.fifo.length < 256 → exec (.cmdRegisterWord hi) s = exec (.cmdPortWord (hi ++ s.mgt.cmdLo)) s) ∧
    (256 ≤ s.cmd.fifo.length →
      exec (.cmdRegisterWord hi) s = .next { s with cmd := { s.cmd with overflow := true } })) ∧
  (∀ (c : Instr) (op : Nat) (s : State), fifoOp c = some op →
    (s.cmd.fifo = [] ∨ (∃ w rest, s.cmd.fifo = w :: rest ∧ cmdOp w ≠ op) ∨ s.step.mismatch = true ∨
      s.step.resetDone = false ∨ s.forge.hinging = true ∨ s.boot.memErr = true) → exec c s = .next s)

/-! ### Steps, waves and hinges -/

/-- At the head of the FIFO and with no step open, STEP leaves the FIFO and bits 47:16 of its word become the open step;
the mode flags are those set for the next step, the tallies and the operations counted start at zero, and the first
step since the charter load is kept. While a step is open the command holds the head and nothing changes. -/
def Obligations.StepCommandOpensTheStep : Prop :=
  ∀ (s : State) (w : U64) (rest : List U64), headIs s 0x01 w rest →
    (s.step.opened = none → exec .step s = .next { s with
      cmd := { s.cmd with fifo := rest }
      step := { s.step with
        opened := some (w.toNat / 2 ^ 16 % 2 ^ 32), firstStep := some (s.step.firstStep.getD (w.toNat / 2 ^ 16 % 2 ^ 32))
        curfewStarted := false, mode := s.step.modeNext, modeNext := 0, tC := 0, tK := 0, tF := 0, tI := 0
        opTallies := [] } }) ∧
    (s.step.opened ≠ none → exec .step s = .next s)

/-- At the head of the FIFO: CURFEW of the open step leaves the FIFO, marks the curfew as started and begins this member's
part of the curfew wave of purpose 1; any other CURFEW is discarded with a configuration fault of detail 0x03. BARRIER
over a loaded group that lists this member, with a sequence other than 0xFFFF, begins its wave of purpose 0 in the
step of the last curfew; any other BARRIER is discarded with detail 0x04. RESET begins the wave of purpose 3 over the
curfew group. -/
def Obligations.CurfewBarrierResetStartTheirWaves : Prop :=
  ∀ (s : State) (w : U64) (rest : List U64),
    (headIs s 0x03 w rest →
      (s.step.opened = some (field w.toNat 47 16) → exec .curfew s = .next (startWave
        ⟨curfewGroup s, 1, 0, field w.toNat 47 16⟩
        { s with cmd := { s.cmd with fifo := rest }, step := { s.step with curfewStarted := true } })) ∧
      (s.step.opened ≠ some (field w.toNat 47 16) →
        exec .curfew s = .next (raise 0x0E 0x03 uBlock 0 0 { s with cmd := { s.cmd with fifo := rest } }))) ∧
    (headIs s 0x04 w rest →
      ((∃ g, grpOf s (field w.toNat 19 8) = some g ∧ g.view.memberOf = true) → field w.toNat 35 20 ≠ 0xFFFF →
        exec .barrier s = .next (startWave ⟨field w.toNat 19 8, 0, field w.toNat 35 20, s.step.lastCurfew.getD 0⟩
          { s with cmd := { s.cmd with fifo := rest } })) ∧
      ((∀ g, grpOf s (field w.toNat 19 8) = some g → g.view.memberOf = false) ∨ field w.toNat 35 20 = 0xFFFF →
        exec .barrier s = .next (raise 0x0E 0x04 uBlock 0 0 { s with cmd := { s.cmd with fifo := rest } }))) ∧
    (headIs s 0x06 w rest →
      exec .reset s = .next (startWave ⟨curfewGroup s, 3, 0, s.step.lastCurfew.getD 0⟩
        { s with cmd := { s.cmd with fifo := rest } }))

/-- For a wave known here, in a group that lists this member: once STEP down has come, the member acts as its purpose
requires, but a curfew waits while its local condition fails. Before that, a wave that was sent up stays as it is, and
so does one whose local condition fails or of which a child has not reported; once both hold, a member with a parent
marks the wave as sent and sends STEP up to the gate of the parent with the number of members present, itself and what
its children reported, and the root turns the wave downward. Without a gate, STEP_NOTICE_UP completes by looking again
at every wave known here. With a gate below 96 whose next notice is a STEP notice of a phase other than 1, it takes
the notice off the receive buffer; a notice of phase 1 stays for STEP_NOTICE_DOWN, which takes it in the same way. A
notice for a group that is not loaded or lacks this member, and a STEP up of a purpose above 3 or from a member that
is no child here, is a protocol fault; else a STEP up is heard once in its wave, which then goes on, and a STEP down
of a wave that was sent up goes down. A notice of another kind, or none, leaves the state unchanged. -/
def Obligations.StepUpGoesOnceBothConditionsHold : Prop :=
  (∀ (s : State) (nm : WaveName) (wv : Wave) (g : Grp), findWave s nm = some wv → myGrp s nm.group = some g →
    (wv.down = true → advanceWave s nm = (if nm.purpose = 1 ∧ localCond s wv = false
      then modWave nm (fun x => { x with down := true, present := wv.present }) s
      else waveDone nm wv.present (dropWave nm s))) ∧
    (wv.down = false → wv.sentUp = true → advanceWave s nm = s) ∧
    (wv.down = false → wv.sentUp = false →
     (localCond s wv = false ∨ upComplete g wv = false → advanceWave s nm = s) ∧
    (localCond s wv = true → upComplete g wv = true → ∀ p gate, waveParent g = some (p, gate) →
      advanceWave s nm = modWave nm (fun x => { x with sentUp := true })
        (sendNotice gate (stepNotice s nm 0 (wv.heard.foldl (fun n h => n + h.2) 1)) s)) ∧
    (localCond s wv = true → upComplete g wv = true → waveParent g = none →
      advanceWave s nm = waveDown g wv (wv.heard.foldl (fun n h => n + h.2) 1) s))) ∧
  (∀ (s : State) (g : Nat), live s = true → g < numGates →
    exec (.stepNoticeUp none) s = .next ((s.waves.map (·.name)).foldl advanceWave s) ∧
    (∀ n, headNotice s g (.link 1) = some n → noticeCode n = nStep →
      (stepPhase n ≠ 1 → exec (.stepNoticeUp (some g)) s = .next (stepUpArrives g n (popRx g 1 1 s)) ∧
        exec (.stepNoticeDown g) s = .next s) ∧
      (stepPhase n = 1 → exec (.stepNoticeDown g) s = .next (stepDownArrives g n (popRx g 1 1 s)) ∧
        exec (.stepNoticeUp (some g)) s = .next s)) ∧
    (∀ n, let h := noticeHdr n
      let nm : WaveName := ⟨h.group, numAt n 28 1, h.seq, h.step⟩
      (myGrp s h.group = none → stepUpArrives g n s = gateFault 0x0C nStep g h h.member 0 s ∧
        stepDownArrives g n s = gateFault 0x0C nStep g h h.member 0 s) ∧
      (∀ x, myGrp s h.group = some x →
        (3 < nm.purpose ∨ (∀ c ∈ waveChildren x, c.1 ≠ h.member) →
          stepUpArrives g n s = gateFault 0x0C nStep g h h.member 0 s) ∧
        (nm.purpose ≤ 3 → (∃ c ∈ waveChildren x, c.1 = h.member) → stepUpArrives g n s =
          advanceWave (modWave nm (fun wv => if wv.heard.any (fun y => y.1 == h.member) then wv
            else { wv with heard := wv.heard ++ [(h.member, numAt n 32 4)] }) (needWave nm s)) nm) ∧
        (∀ wv, findWave s nm = some wv → stepDownArrives g n s =
          (if wv.sentUp = true ∧ wv.down = false then waveDown x wv (numAt n 32 4) s else s)) ∧
        (findWave s nm = none → stepDownArrives g n s = s))) ∧
    ((∀ n, headNotice s g (.link 1) = some n → noticeCode n ≠ nStep) →
      exec (.stepNoticeUp (some g)) s = .next s ∧ exec (.stepNoticeDown g) s = .next s))

/-- On STEP down a barrier rings a bell of kind 3 and status 0x0 when bells are enabled, and the barrier of a hinge lets
the hinge switch; the curfew of the step passes: no step is open, the step is that of the last curfew, and F and the
mode flags move to those of the last step; a confirmed group enters ordered mode unless force_arrival or its arrival-
only flag keeps it in arrival-order mode; a reset performs the local reset, after which no operation, wave, held CLOSE
or hand-off is left, every core is in state 0 with nothing queued, the gates and forges are empty, the mode flags and
C are zero and the cause reads 3, and which keeps the charter, the roll, the command FIFO, the digest chain and the
almanac. -/
def Obligations.StepDownActsAsItsPurposeRequires : Prop :=
  ∀ (s : State) (g q st present : Nat),
    (¬ (q = 0xFFFF ∧ s.forge.hinging = true) →
      waveDone ⟨g, 0, q, st⟩ present s = (if bitOf s.bell.ctl 0 then ringPush .bell (bellBytes g q 0 0 3) s else s)) ∧
    (q = 0xFFFF → s.forge.hinging = true → ∃ t, waveDone ⟨g, 0, q, st⟩ present s = t ∧ t.forge = { s.forge with hingeReady := true }) ∧
    (let t := waveDone ⟨g, 1, q, st⟩ present s;
      t.step.opened = none ∧ t.step.lastCurfew = some st ∧ t.step.tF = 0 ∧ t.step.lastF = s.step.tF ∧
      t.step.modeLast = s.step.mode) ∧
    waveDone ⟨g, 2, q, st⟩ present s = { s with roll := { s.roll with
      groups := s.roll.groups.map (fun x => if x.id = g then { x with ordered := !s.roll.forceArrival && !x.arrivalOnly } else x)
      confirming := s.roll.confirming.filter (· != g) } } ∧
    (let t := waveDone ⟨g, 3, q, st⟩ present s;
      t.ops = [] ∧ t.waves = [] ∧ t.heldCloses = [] ∧ (∀ e ∈ t.cores, e.2.state = 0 ∧ e.2.q0 = [] ∧ e.2.loads = []) ∧
      (∀ e ∈ t.gates, e.2.sendQ = [] ∧ e.2.retained = [] ∧ e.2.rxBuf = []) ∧ (∀ e ∈ t.wells, e.2.fqueue = []) ∧
      t.step.mode = 0 ∧ t.step.tC = 0 ∧ t.step.resetDone = false ∧ t.aon.resetCause = 3 ∧
      t.charter = s.charter ∧ t.roll = s.roll ∧ t.cmd = s.cmd ∧ t.step.digest = s.step.digest ∧ t.alm = s.alm)

/-- LOCAL_RESET_END lets the FIFO go on. FORCE_ARRIVAL sets the bit and puts every loaded group into arrival-order mode.
ROLL_CONFIRM is refused, with the refused bit, while no group is loaded or another confirmation runs; else a
confirmation wave of purpose 2 starts in every loaded group that lists this member. CONFIRMATION_INCOMPLETE of a group
being confirmed puts every group into arrival-order mode, ends every confirmation and its waves and raises a roll
fault; of any other group it changes nothing. A timeout of a wave that is unknown, of a confirmation, already sent up
or down, or whose local condition fails changes nothing; otherwise each missing child has a fault of class 0x16 and a
CLOSE with outcome 3, counts as given up, and the wave goes on without it. -/
def Obligations.ResetEndsAndTimeoutsOfWaves : Prop :=
  ∀ s : State, live s = true →
    exec .localResetEnd s = .next { s with step := { s.step with resetDone := true } } ∧
    exec .forceArrival s = .next { s with roll := { s.roll with
      forceArrival := true, groups := s.roll.groups.map (fun g => { g with ordered := false }) } } ∧
    (s.roll.groups = [] ∨ s.roll.confirming ≠ [] →
      exec .rollConfirm s = .next { s with roll := { s.roll with refused := true } }) ∧
    (s.roll.groups ≠ [] → s.roll.confirming = [] →
      exec .rollConfirm s = .next (
        let ids := (s.roll.groups.filter (fun g => g.view.memberOf)).map (·.id)
        ids.foldl (fun t i => startWave ⟨i, 2, 0, 0⟩ t) { s with roll := { s.roll with confirming := ids } })) ∧
    (∀ g, g ∈ s.roll.confirming → ∃ t, exec (.confirmationIncomplete g) s = .next t ∧ t.roll.confirming = [] ∧
      (∀ x ∈ t.roll.groups, x.ordered = false) ∧ t.waves = s.waves.filter (fun w => w.name.purpose != 2) ∧
      tget 0 t.faultCnt 0x0F = satInc (tget 0 s.faultCnt 0x0F) 1) ∧
    (∀ g, g ∉ s.roll.confirming → exec (.confirmationIncomplete g) s = .next s) ∧
    (∀ nm wv g, findWave s nm = some wv → myGrp s nm.group = some g →
      nm.purpose = 2 ∨ wv.sentUp = true ∨ wv.down = true ∨ localCond s wv = false → exec (.curfewWaveTimeout nm) s = .next s) ∧
    (∀ nm, findWave s nm = none → exec (.curfewWaveTimeout nm) s = .next s) ∧
    (∀ nm wv g, findWave s nm = some wv → myGrp s nm.group = some g → nm.purpose ≠ 2 → wv.sentUp = false →
      wv.down = false → localCond s wv = true →
      let missing := (waveChildren g).filter (fun c => !(wv.heard.any (fun h => h.1 == c.1) || wv.gaveUp.contains c.1))
      exec (.curfewWaveTimeout nm) s = .next (advanceWave (modWave nm (fun x =>
        { x with gaveUp := x.gaveUp ++ missing.map (fun c => c.1) })
        (missing.foldl (fun t c =>
          let u := raise 0x16 0 uBlock (chunkInfo nm.group nm.seq 0) c.1 t
          sendNotice c.2 (mkNotice nClose nm.group nm.seq 0 0 0 c.1 nm.step (closeTail u g c.1 3 g.members.length true)) u) s)) nm))

/-- At the head of the FIFO, HINGE to a map that the charter does not hold is discarded with detail 0x08; to a map it
holds, it waits while step 1 of R461 fails, and else leaves the FIFO, holds it, and joins the barrier wave with
sequence 0xFFFF and the number of the hinge. HINGE_SWITCH changes nothing until the barrier has completed, nor while
step 1 fails again before the switch. Then, when an evaluation map is entered with cores loaded, each of them is asked
to save; with none left the target map comes into force with its expected count of norm blocks, its contexts and its
moves. While a move is open or a forge is busy nothing more changes; then, when an evaluation map was left with cores
saved, each of them is asked to come back; with none left and none coming back the hinge ends, the FIFO goes on and
the hinge count has risen. -/
def Obligations.HingeWaitsJoinsAndSwitches : Prop :=
  ∀ s : State,
    (∀ w rest, headIs s 0x08 w rest →
      (mapNo s (field w.toNat 10 8) = none →
        exec .hinge s = .next (raise 0x0E 0x08 uBlock 0 0 { s with cmd := { s.cmd with fifo := rest } })) ∧
      (∀ m, mapNo s (field w.toNat 10 8) = some m →
        (hingeIdle m s = false → exec .hinge s = .next s) ∧
        (hingeIdle m s = true → exec .hinge s = .next (startWave ⟨curfewGroup s, 0, 0xFFFF, s.forge.hinges % 2 ^ 16⟩
          { s with cmd := { s.cmd with fifo := rest }, forge := { s.forge with
            hinging := true, hingeReady := false, switched := false, target := field w.toNat 10 8
            hingeGroups := concernedGroups m { s with cmd := { s.cmd with fifo := rest } } } })))) ∧
    (live s = true →
      (∀ rd, s.forge.hinging = false ∨ s.forge.hingeReady = false → exec (.hingeSwitch rd) s = .next s) ∧
      (∀ m, s.forge.hinging = true → s.forge.hingeReady = true → mapNo s s.forge.target = some m →
        (s.forge.switched = false → hingeIdle m s = false → ∀ rd, exec (.hingeSwitch rd) s = .next s) ∧
        (s.forge.switched = false → hingeIdle m s = true → mapEval m = true → evalInForce s = false → loadedCores s ≠ [] → ∀ rd,
          exec (.hingeSwitch rd) s = .next ((loadedCores s).foldl (fun t c => modCore c (fun k => { k with
            saving := true, state := if k.state = 1 then 3 else k.state }) t) s)) ∧
        (s.forge.switched = false → hingeIdle m s = true → (mapEval m = false ∨ evalInForce s = true ∨ loadedCores s = []) →
          exec (.hingeSwitch .ok) s = .next (m.moves.foldl (doMove (mapInForce s)) (readContexts true
            { s with forge := { s.forge with
              wasEval := evalInForce s, map := s.forge.target, switched := true
              expect := BitVec.ofNat 32 (normExpect m) } }))) ∧
        (s.forge.switched = true → movesOpen s = true ∨ forgesIdle s = false → ∀ rd, exec (.hingeSwitch rd) s = .next s) ∧
        (s.forge.switched = true → movesOpen s = false → forgesIdle s = true → s.forge.wasEval = true → mapEval m = false →
          savedCores s ≠ [] → ∀ rd, exec (.hingeSwitch rd) s = .next ((savedCores s).foldl (fun t c => modCore c (fun k =>
            { k with restoring := true, state := 3 }) t) s)) ∧
        (s.forge.switched = true → movesOpen s = false → forgesIdle s = true →
          s.forge.wasEval = false ∨ mapEval m = true ∨ savedCores s = [] →
          s.cores.all (fun e => !e.2.restoring) = true → ∀ rd,
          exec (.hingeSwitch rd) s = .next { s with forge := { s.forge with
            hinging := false, hingeReady := false, switched := false, hingeGroups := [], phase := s.forge.target
            hinges := (s.forge.hinges + 1) % 2 ^ 16 } })))

/-! ### Programs, command words and saved cores -/

/-- POST to a core of 2,304 or above or to a fenced core is discarded with detail 0x60; to a core whose ring has no room
it waits; else it completes: the word leaves the FIFO, stands little-endian at 0xF80 + 8 (n mod 16) of the scalar data
memory of that core, n being the number of words routed before, every counter whose source is CMD counts it, and
nothing else changes but the poison of the words written. LAYER_READY waits while its step has not opened or a core of
the mill has no room; else it completes: the word leaves the FIFO, the step, the layer and the contribution weights,
which are the market counts of the instances of the layer, are fixed, and the word goes to each core of the mill. A
tensor of an instance with count zero has, before that, its gleanings carried over from the other buffer and its
operation opened and filled with NIL chunks of weight zero. -/
def Obligations.CommandWordsReachTheirCores : Prop :=
  ∀ (s : State) (w : U64) (rest : List U64),
    (headIs s 0x60 w rest →
      (2304 ≤ field w.toNat 19 8 ∨ fencedCore s (field w.toNat 19 8) = true →
        exec .post s = .next (raise 0x0E 0x60 uBlock 0 0 { s with cmd := { s.cmd with fifo := rest } })) ∧
      (field w.toNat 19 8 < 2304 → fencedCore s (field w.toNat 19 8) = false →
        let k := getCore s (field w.toNat 19 8)
        (k.takes + 15 < k.posted → exec .post s = .next s) ∧
        (k.posted ≤ k.takes + 15 → ∃ k',
          exec .post s = .next (setCore { s with cmd := { s.cmd with fifo := rest } } (field w.toNat 19 8) k') ∧
          k' = { k with posted := k.posted + 1, sdata := mwrite 0 k.sdata (0xF80 + 8 * (k.posted % 16)) (natLe 8 w.toNat)
                        poisonD := k'.poisonD, cnt := k'.cnt } ∧
          (tableWf 0 k.cnt = true → ∀ i, i < 8 →
            tget 0 k'.cnt i = tget 0 k.cnt i + (if tget 0 k.cntSrc i = evCmd then 1 else 0))))) ∧
    (headIs s 0x02 w rest →
      let step := field w.toNat 47 16
      let layer := field w.toNat 13 8
      let may : Prop := (∃ o, s.step.opened = some o ∧ step ≤ o) ∨ (s.step.opened = none ∧
        ((∃ l, s.step.lastCurfew = some l ∧ step ≤ l) ∨ (evalInForce s = true ∧ 2 ^ 31 ≤ step)))
      let cold := (countedTensors s layer).filter (fun x => coldCount s x == 0)
      let t0 : State := { s with cmd := { s.cmd with fifo := rest }, step := { s.step with
        ready := s.step.ready ++ [⟨step, layer, (countedTensors s layer).map (fun x => (x.inst, coldCount s x))⟩] } }
      (¬ may ∨ (∃ c ∈ millCores s, ringRoom (getCore s c) = false) → exec .layerReady s = .next s) ∧
      (may → (∀ c ∈ millCores s, ringRoom (getCore s c) = true) →
        exec .layerReady s = .next ((millCores s).foldl (fun t c => modCore c (postWord w.toNat) t)
          (cold.foldl (coldTensor step) t0)) ∧
        (cold = [] → exec .layerReady s = .next ((millCores s).foldl (fun t c => modCore c (postWord w.toNat) t) t0)))) ∧
    (∀ step (x : TensorRec) (g : Grp), myGrp s x.group = some g → sliversOf s x.tensor = [] → coldTensor step s x =
      (nilPieces g (x.rows * x.cols)).foldl (fun t p => handOwn (nilChunk t (millOp s x step) p.1 p.2) t)
        (openReduction (millOp s x step) (x.rows * x.cols) s)) ∧
    (∀ nm e n, let h := hdrOf (nilChunk s nm e n)
      h.kind = kNil ∧ h.weight = 0 ∧ (nm.group < 4096 → nm.seq < 65536 → nm.step < 2 ^ 32 → e < 2 ^ 31 → n < 2 ^ 32 →
        hdrName h = nm ∧ h.base = e ∧ h.count = n)) ∧
    (∀ step (x : TensorRec) (v : Sliver), let w := if bitOf x.flags 0 then 4 else 2
      let at_ := fun odd => (if odd then x.glean1 else x.glean0) + w * v.first
      memWf 0 s.host = true → at_ (decide (step % 2 = 1)) + w * v.count ≤ 2 ^ 52 →
      bytesStored s.host (carryGleanings x step s v).host (at_ (decide (step % 2 = 1)))
        (hostRead s (at_ (decide (step % 2 = 0))) (w * v.count)))

/-- PROGRAM at the head, its header and table sound, waits while a named core runs or saves; with a good read, no poison
and a matching tally it loads every named core, no other, as R498 says, and folds the program digest; with poison or
another tally, or with a header or table that is not sound, it is discarded with detail 0x0C; after a failed or
poisoned read no core changes and the command leaves the FIFO. A core loaded by an image starts at address 0 in state
1 with its registers, counters, comparators, loops, descriptors and tile status cleared, its program and scalar data
written, its program length set, its issue count and ring counts 0, and keeps its accumulators and scratchpad.
CORE_SAVE of a core asked to save whose engines have finished writes its image of 114,688 bytes into its context and
leaves it in state 0, saved; else it changes nothing. CORE_RESTORE of a core asked for it whose engines have finished
takes everything from an image that passes its checks; a failing image leaves the core halted with 0x30 and counts a
restore fault; else it changes nothing. -/
def Obligations.ProgramIsAcceptedWholeOrRefused : Prop :=
  ∀ s : State,
    (∀ w rest, headIs s 0x0C w rest →
      let a := field w.toNat 47 8 * 4096
      let gs := segments s a (min (numAt (hostRead s a 128) 12 4) 2304)
      let img := hostRead s a (imageLen (numAt (hostRead s a 128) 12 4) gs)
      (imageHeadOk s (hostRead s a 128) a gs = true →
        (gs.any (fun g => decide ((getCore s g.core).state = 1 ∨ (getCore s g.core).state = 3) || (getCore s g.core).saving) = true →
          ∀ rd, exec (.program rd) s = .next s) ∧
        (gs.all (fun g => decide ((getCore s g.core).state ≠ 1 ∧ (getCore s g.core).state ≠ 3) && !(getCore s g.core).saving) = true →
          hostPoisoned s a img.length = false → (tally (img.drop 128) 0).toNat = numAt (hostRead s a 128) 84 8 →
          exec (.program .ok) s = .next (acceptImage a gs img { s with cmd := { s.cmd with fifo := rest } })) ∧
        (gs.all (fun g => decide ((getCore s g.core).state ≠ 1 ∧ (getCore s g.core).state ≠ 3) && !(getCore s g.core).saving) = true →
          hostPoisoned s a img.length = true ∨ (tally (img.drop 128) 0).toNat ≠ numAt (hostRead s a 128) 84 8 →
          exec (.program .ok) s = .next (raise 0x0E 0x0C uBlock 0 0 { s with cmd := { s.cmd with fifo := rest } }))) ∧
      (imageHeadOk s (hostRead s a 128) a gs = false →
        exec (.program .ok) s = .next (raise 0x0E 0x0C uBlock 0 0 { s with cmd := { s.cmd with fifo := rest } })) ∧
      (∀ rd, rd ≠ .ok → (∀ g ∈ gs, (getCore s g.core).state ≠ 1 ∧ (getCore s g.core).state ≠ 3 ∧ (getCore s g.core).saving = false) →
        ∃ t, exec (.program rd) s = .next t ∧ t.cmd.fifo = rest ∧ t.cores = s.cores ∧ t.step = s.step)) ∧
    (∀ a gs img, (gs.map (fun (g : Segment) => g.core)).Nodup → s.unitsWf = true → let t := acceptImage a gs img s
      (∀ g ∈ gs, getCore t g.core = loadCore s a g (getCore s g.core)) ∧
      (∀ c, (∀ g ∈ gs, g.core ≠ c) → getCore t c = getCore s c) ∧
      t = { s with cores := t.cores, signalMap := t.signalMap,
                   step := { s.step with progDigest := sha256 (s.step.progDigest ++ sha256 img) } }) ∧
    (∀ a g k, let k' := loadCore s a g k
      k'.state = 1 ∧ k'.pc = 0 ∧ k'.s = [] ∧ k'.d = [] ∧ k'.cnt = [] ∧ k'.cmp = [] ∧ k'.loops = [] ∧ k'.tile = [] ∧
      k'.issueCnt = 0 ∧ k'.progLen = g.prog ∧ k'.posted = 0 ∧ k'.takes = 0 ∧ k'.acc = k.acc ∧ k'.scratch = k.scratch ∧
      k'.prog = mwrite 0 k.prog 0 (hostRead s (a + g.off) g.prog) ∧
      k'.sdata = mwrite 0 [] 0 (hostRead s (a + g.off + g.prog) g.data)) ∧
    (live s = true → ∀ c, c < numCores → ∀ rd,
      ((getCore s c).saving = false ∨ engineIdle (getCore s c) = false → exec (.coreSave c) s = .next s) ∧
      ((getCore s c).saving = true → engineIdle (getCore s c) = true → s.unitsWf = true → ∃ t,
        exec (.coreSave c) s = .next t ∧ getCore t c = { getCore s c with
          state := 0, saving := false, saved := true, kept := (getCore t c).kept, hold := none } ∧
        t = { s with cores := t.cores, host := t.host, hostPoison := t.hostPoison, wells := t.wells, wellStamp := t.wellStamp } ∧
        (memWf 0 s.host = true → ctxAt s c + 114688 ≤ 2 ^ 52 →
          bytesStored s.host t.host (ctxAt s c) (coreImage s c (getCore s c)))) ∧
      ((getCore s c).restoring = false ∨ engineIdle (getCore s c) = false → exec (.coreRestore c rd) s = .next s) ∧
      ((getCore s c).restoring = true → engineIdle (getCore s c) = true → s.unitsWf = true →
        imageOk c (hostRead s (ctxAt s c) 114688) = false → ∃ t, exec (.coreRestore c .ok) s = .next t ∧
        getCore t c = { getCore s c with restoring := false, saved := false, kept := none, state := 2
                                         haltAddr := (getCore s c).pc, haltCode := 0x30, haltEngine := 0xF } ∧
        tget 0 t.faultCnt 0x15 = satInc (tget 0 s.faultCnt 0x15) 1) ∧
      ((getCore s c).restoring = true → engineIdle (getCore s c) = true →
        imageOk c (hostRead s (ctxAt s c) 114688) = true →
        exec (.coreRestore c .ok) s = .next (setCore s c
          (restored s (ctxAt s c) (hostRead s (ctxAt s c) 114688) .ok (getCore s c)))))

/-! ### Cores: the scalar engine -/

/-- On a live block with canonical tables and registers, every arithmetic row of a core below 2,304 completes: rd takes
the value that Table 13-4 gives from the source registers and the immediate (32-bit wrapping sums and products; shifts
by the low 5 bits; signed and unsigned comparisons giving 1 or 0; ADDI sign-extends its immediate and the other
immediates are zero-extended; LUI puts the immediate into the upper half). A write to s0 is dropped. Every other
register, core and part of the block is unchanged. -/
def Obligations.ScalarArithmeticRows : Prop :=
  ∀ (s : State) (c rd a b : Nat) (imm : U16), live s = true → c < 2304 → s.unitsWf = true → (getCore s c).wf = true →
    let x := getS (getCore s c) a
    let y := getS (getCore s c) b
    (∃ t, exec (.add c rd a b) s = .next t ∧ writesReg s t c rd (x + y)) ∧
    (∃ t, exec (.sub c rd a b) s = .next t ∧ writesReg s t c rd (x - y)) ∧
    (∃ t, exec (.mul c rd a b) s = .next t ∧ writesReg s t c rd (x * y)) ∧
    (∃ t, exec (.and c rd a b) s = .next t ∧ writesReg s t c rd (x &&& y)) ∧
    (∃ t, exec (.or c rd a b) s = .next t ∧ writesReg s t c rd (x ||| y)) ∧
    (∃ t, exec (.xor c rd a b) s = .next t ∧ writesReg s t c rd (x ^^^ y)) ∧
    (∃ t, exec (.shl c rd a b) s = .next t ∧ writesReg s t c rd (x <<< (y.toNat % 32))) ∧
    (∃ t, exec (.shr c rd a b) s = .next t ∧ writesReg s t c rd (x >>> (y.toNat % 32))) ∧
    (∃ t, exec (.sra c rd a b) s = .next t ∧ writesReg s t c rd (x.sshiftRight (y.toNat % 32))) ∧
    (∃ t, exec (.slt c rd a b) s = .next t ∧ writesReg s t c rd (if x.toInt < y.toInt then 1 else 0)) ∧
    (∃ t, exec (.sltu c rd a b) s = .next t ∧ writesReg s t c rd (if x.toNat < y.toNat then 1 else 0)) ∧
    (∃ t, exec (.addi c rd a imm) s = .next t ∧ writesReg s t c rd (x + imm.signExtend 32)) ∧
    (∃ t, exec (.andi c rd a imm) s = .next t ∧ writesReg s t c rd (x &&& imm.setWidth 32)) ∧
    (∃ t, exec (.ori c rd a imm) s = .next t ∧ writesReg s t c rd (x ||| imm.setWidth 32)) ∧
    (∃ t, exec (.xori c rd a imm) s = .next t ∧ writesReg s t c rd (x ^^^ imm.setWidth 32)) ∧
    (∃ t, exec (.lui c rd imm) s = .next t ∧ writesReg s t c rd (imm.setWidth 32 <<< 16)) ∧
    (∃ t, exec (.li c rd imm) s = .next t ∧ writesReg s t c rd (imm.setWidth 32))

/-- RDCNT and RDLP write rd with the counter and with the index of the loop level; DPUT replaces quarter q of a descriptor
by a register and keeps the other three; SETVL sets the vector length; SETCNT with a source below 8 selects the source
and clears the counter, and with any other source halts a running core with code 0x01; SETCMP sets a comparator.
Nothing else of the core changes. -/
def Obligations.ScalarRegisterReadsAndDescriptors : Prop :=
  ∀ (s : State) (c rd i q r src : Nat) (eq : Bool), live s = true → c < 2304 → s.unitsWf = true → (getCore s c).wf = true →
    let k := getCore s c
    (∃ t, exec (.rdcnt c rd i) s = .next t ∧ writesReg s t c rd (tget 0 k.cnt (i % 8))) ∧
    (∃ t, exec (.rdlp c rd i) s = .next t ∧ writesReg s t c rd (BitVec.ofNat 32 (tget {} k.loops (i % 4)).index)) ∧
    (∃ d, exec (.dput c i q r) s = .next (setCore s c { k with d := tset 0 k.d (i % 16) d }) ∧
      ∀ j, j < 4 → d.toNat / 2 ^ (32 * j) % 2 ^ 32 =
        if j = q % 4 then (getS k r).toNat else (getD k i).toNat / 2 ^ (32 * j) % 2 ^ 32) ∧
    exec (.setvl c r) s = .next (setCore s c { k with vl := (getS k r).toNat }) ∧
    (src < 8 → exec (.setcnt c i src) s = .next (setCore s c { k with
      cntSrc := tset 0 k.cntSrc (i % 8) src, cnt := tset 0 k.cnt (i % 8) 0 })) ∧
    (8 ≤ src → exec (.setcnt c i src) s = .next (setCore s c (haltCore k.pc 0x01 0 k))) ∧
    exec (.setcmp c i eq r) s = .next (setCore s c { k with cmp := tset {} k.cmp (i % 8) ⟨getS k r, eq⟩ })

/-- LOOP at a level equal to the loops open, with a count other than zero, opens the level with its body from the next
word to its end; with a count of zero the core goes to the word after the body. At another level the core halts with
0x06 when four loops are open and else with 0x07. BR goes to its target when its condition holds and else on; a target
outside the program, or outside the innermost loop's body, halts the core with 0x0D whether or not the branch is
taken. LAYOUT with a code below 4 selects the layout and clears every tile with its accumulators, the tiles of the
integer layout with status 0x20; another code halts with 0x04. -/
def Obligations.LoopsAndBranches : Prop :=
  ∀ (s : State) (c level cnt e r code : Nat) (sense : Bool) (o : BitVec 13), live s = true → c < 2304 →
    let k := getCore s c
    (level = k.sp → getS k cnt ≠ 0 → exec (.loop c level cnt e) s = .next (setCore s c { k with
      sp := level + 1, loops := tset {} k.loops level ⟨k.pc, k.pc + 2 * e, (getS k cnt).toNat, 0⟩ })) ∧
    (level = k.sp → getS k cnt = 0 → exec (.loop c level cnt e) s =
      .next (setCore s c { k with pc := k.pc + 2 * e + wordLen k (k.pc + 2 * e) })) ∧
    (level ≠ k.sp → exec (.loop c level cnt e) s =
      .next (setCore s c (haltCore k.pc (if k.sp = 4 then 0x06 else 0x07) 0 k))) ∧
    (let dest : Int := k.pc + 2 * o.toInt
     let l := tget {} k.loops (k.sp - 1)
     let bad : Prop := dest < 0 ∨ k.progLen ≤ dest ∨ (0 < k.sp ∧ (dest < l.start ∨ l.stop < dest))
     (bad → exec (.br c r sense o) s = .next (setCore s c (haltCore k.pc 0x0D 0 k))) ∧
     (¬ bad → ((getS k r = 0) ↔ sense = false) →
       exec (.br c r sense o) s = .next (setCore s c { k with pc := dest.toNat })) ∧
     (¬ bad → ¬ ((getS k r = 0) ↔ sense = false) → exec (.br c r sense o) s = .next (setCore s c k))) ∧
    (code < 4 → ∃ tiles, exec (.layout c code) s = .next (setCore s c { k with
      layout := code, acc := [], poisonA := [], tile := tiles }) ∧
      ∀ i, tget 0 tiles i = if code = 3 ∧ i < 80 then 0x20#64 else 0) ∧
    (4 ≤ code → exec (.layout c code) s = .next (setCore s c (haltCore k.pc 0x04 0 k)))

/-- With LD at the head of the scalar queue and no bit error on its word, the entry leaves the queue and rd takes the four
bytes at the copied address, low byte first. With ST at the head, the entry leaves and the four bytes of the copied
value stand at the copied address; every other byte of scalar data memory, every other memory, register and core is
unchanged. An uncorrectable error on that word, of more than two bits, halts a core that runs with code 0x21 at the
address of the entry and drops the scalar queue. With the other head, or an empty queue, both rows change nothing. -/
def Obligations.ScalarLoadsAndStores : Prop :=
  ∀ (s : State) (c : Nat), live s = true → c < 2304 →
    let k := getCore s c
    (∀ rd a at_ q, k.q0 = ⟨.ld rd a, at_⟩ :: q → s.unitsWf = true →
      exec (.ld c []) s = .next (setCore s c (setS rd
        (BitVec.ofNat 32 (leNat ((List.range 4).map (fun i => mget 0 k.sdata (a + i))))) { k with q0 := q })) ∧
      exec (.st c []) s = .next s) ∧
    (∀ a v at_ q, k.q0 = ⟨.st a v, at_⟩ :: q → s.unitsWf = true → k.wf = true →
      (∃ m p, exec (.st c []) s = .next (setCore s c { k with q0 := q, sdata := m, poisonD := p }) ∧
        bytesStored k.sdata m a (natLe 4 v.toNat)) ∧
      exec (.ld c []) s = .next s) ∧
    (∀ a op at_ q errs, k.q0 = ⟨op, at_⟩ :: q → k.state = 1 ∨ k.state = 3 → s.unitsWf = true →
      (∃ e ∈ errs, e.mem = CoreMem.sdata ∧ e.word = a / 8 ∧ 2 < e.bits.length) →
      (∀ rd, op = .ld rd a → ∃ t, exec (.ld c errs) s = .next t ∧ stopsScalar t c at_ ∧ (getCore t c).s = k.s) ∧
      (∀ v, op = .st a v → ∃ t, exec (.st c errs) s = .next t ∧ stopsScalar t c at_ ∧ (getCore t c).s = k.s)) ∧
    (k.q0 = [] → ∀ errs, exec (.ld c errs) s = .next s ∧ exec (.st c errs) s = .next s)

/-! ### Cores: issue, waits and halts -/

/-- WAIT, WAITQ and FENCE let the core go on when their condition holds and else hold its issue; WAITQ on an engine or a
depth that does not exist halts the core with 0x01. SYNC_RELEASE ends a hold whose condition holds and else changes
nothing. SIGNAL sets the value, counts it and sets the core's bit of the signal map. HALT halts a running core at its
address with code 0x12. TAKE counts one more word taken. -/
def Obligations.SyncRows : Prop :=
  ∀ (s : State) (c i e n : Nat) (v : U16), live s = true → c < 2304 →
    let k := getCore s c
    (holdOver k (.cmp (i % 8)) = true → exec (.wait c i) s = .next (setCore s c k)) ∧
    (holdOver k (.cmp (i % 8)) = false → exec (.wait c i) s = .next (setCore s c { k with hold := some (.cmp (i % 8)) })) ∧
    (e < 5 → n ≤ 16 → depth k e ≤ n → exec (.waitq c e n) s = .next (setCore s c k)) ∧
    (e < 5 → n ≤ 16 → n < depth k e → exec (.waitq c e n) s = .next (setCore s c { k with hold := some (.queue e n) })) ∧
    (¬ (e < 5 ∧ n ≤ 16) → exec (.waitq c e n) s = .next (setCore s c (haltCore k.pc 0x01 5 k))) ∧
    (engineIdle k = true → exec (.fence c) s = .next (setCore s c k)) ∧
    (engineIdle k = false → exec (.fence c) s = .next (setCore s c { k with hold := some .fence })) ∧
    (∀ h, k.hold = some h → holdOver k h = true → exec (.syncRelease c) s = .next (setCore s c { k with hold := none })) ∧
    (∀ h, k.hold = some h → holdOver k h = false → exec (.syncRelease c) s = .next (setCore s c k)) ∧
    (k.hold = none → exec (.syncRelease c) s = .next (setCore s c k)) ∧
    exec (.signal c v) s = .next { setCore s c { k with sigVal := v.toNat, sigCnt := (k.sigCnt + 1) % 2 ^ 16 } with
      signalMap := tset 0 s.signalMap (c / 32) (tget 0 s.signalMap (c / 32) ||| (1#32 <<< (c % 32))) } ∧
    exec (.halt c) s = .next (setCore s c (haltCore k.pc 0x12 5 k)) ∧
    exec (.take c) s = .next (setCore s c { k with takes := k.takes + 1 })

/-- A halt request stands on a running core until its next word boundary and changes nothing on another. Resume and single
step continue issue on a core halted with a code 0x10 to 0x14 that is neither saved nor restored, for as long as it
runs or for one word; on any other core they change nothing. ECC_WRITEBACK writes the oldest corrected word back. A
bit error of at most two bits counts in eccCe and queues the corrected word for write-back; one of more bits poisons
the word, is counted as a fault of class 0x01 and recorded unless a record stands, and halts the engine that met it
with code 0x21 at the address of its operation. A halt condition on a core in state 1 or 3 puts it into state 2 and
latches the address, the code and the engine; on a core in state 2 it sets more and changes nothing else; on a core in
state 0 it changes nothing. -/
def Obligations.CoreControlRows : Prop :=
  (∀ (s : State) (c : Nat), live s = true → c < 2304 →
    let k := getCore s c
    (k.state = 1 → exec (.coreHaltRequest c) s = .next (setCore s c { k with haltReq := true })) ∧
    (k.state ≠ 1 → exec (.coreHaltRequest c) s = .next (setCore s c k)) ∧
    (k.state = 2 → 0x10 ≤ k.haltCode → k.haltCode ≤ 0x14 → k.saving = false → k.restoring = false →
      exec (.coreResume c) s = .next (setCore s c { k with
        state := 1, stepping := false, skipTag := true, cntDue := false, haltReq := false }) ∧
      exec (.coreSingleStep c) s = .next (setCore s c { k with
        state := 1, stepping := true, skipTag := true, cntDue := false, haltReq := false })) ∧
    (¬ (k.state = 2 ∧ 0x10 ≤ k.haltCode ∧ k.haltCode ≤ 0x14 ∧ k.saving = false ∧ k.restoring = false) →
      exec (.coreResume c) s = .next (setCore s c k) ∧ exec (.coreSingleStep c) s = .next (setCore s c k)) ∧
    exec (.eccWriteback c) s = .next (setCore s c { k with writeback := k.writeback.tail }) ∧
    (∀ e : MemErr, e.bits.length ≤ 2 → memError c e s = setCore s c { k with
      eccCe := satInc k.eccCe 1, writeback := k.writeback ++ [(e.mem, e.word)] }) ∧
    (∀ e : MemErr, 2 < e.bits.length → s.unitsWf = true → let t := memError c e s
      wordPoison e.mem (getCore t c) e.word = true ∧ tget 0 t.faultCnt 0x01 = satInc (tget 0 s.faultCnt 0x01) 1 ∧
      (bitOf k.memErr.toNat 31 = false →
        (getCore t c).memErr = BitVec.ofNat 32 (e.word + coreMemCode e.mem * 2 ^ 16 + 2 ^ 31)) ∧
      (bitOf k.memErr.toNat 31 = true → (getCore t c).memErr = k.memErr)) ∧
    (∀ addr engine (errs : List MemErr), k.state = 1 ∨ k.state = 3 → s.unitsWf = true →
      (∃ e ∈ errs, e.mem ≠ CoreMem.prog ∧ 2 < e.bits.length) → let t := (engineErrs c addr engine errs s).1
      (engineErrs c addr engine errs s).2 = true ∧ (getCore t c).state = 2 ∧ (getCore t c).haltCode = 0x21 ∧
        (getCore t c).haltAddr = addr ∧ (getCore t c).haltEngine = engine)) ∧
  (∀ (k : Core) (a code e : Nat),
    (k.state = 1 ∨ k.state = 3 → haltCore a code e k = { k with
      state := 2, haltAddr := a, haltCode := code, haltEngine := e, haltReq := false, stepping := false, cntDue := false
      saving := false }) ∧
    (k.state = 2 → haltCore a code e k = { k with more := true }) ∧
    (k.state = 0 → haltCore a code e k = k))

/-- A core that does not run issues nothing, and one that a sync slot holds only halts when a halt request (0x13) or a
count breakpoint (0x10) stands. For a running core that meets no bit error: a word that reaches past the program halts
with 0x0E, one with a poisoned program word with 0x23; then a halt request halts with 0x13, a count breakpoint with
0x10, and a tag breakpoint of that tag with 0x11. Otherwise a scalar operation still queued may hold the word back; a
condition found at issue halts the core at the word with the lowest code, its engine, and nothing of the word issued;
with none the word issues whole: the issue count rises by one modulo 2^48, each engine slot adds one entry to its
queue, the scratchpad and program stay, and no other core and no byte of host memory changes. -/
def Obligations.LongWordIssuesWholeOrHalts : Prop :=
  ∀ (s : State) (c : Nat), live s = true → c < 2304 → s.unitsWf = true →
    let k := getCore s c
    let w := readWord k k.pc
    let found := issueFaults s k { k with pc := w.addr + w.len } w
    let due := fun (code : Nat) => (k.haltReq = true ∧ code = 0x13) ∨ (k.haltReq = false ∧ k.cntDue = true ∧ code = 0x10)
    (k.state ≠ 1 → ∀ errs, exec (.longWordIssue c errs) s = .next s) ∧
    (k.state = 1 → k.hold ≠ none → ∀ errs,
      (k.haltReq = false → k.cntDue = false → exec (.longWordIssue c errs) s = .next s) ∧
      (∀ code, due code → ∃ t, exec (.longWordIssue c errs) s = .next t ∧ haltsHere s t c code 0xF)) ∧
    (k.state = 1 → k.hold = none →
      (k.progLen ≤ w.addr ∨ k.progLen < w.addr + w.len →
        ∃ t, exec (.longWordIssue c []) s = .next t ∧ haltsHere s t c 0x0E 0xF) ∧
      (w.addr + w.len ≤ k.progLen → w.addr < k.progLen →
        (anyPoison k.poisonP w.addr w.len = true → ∃ t, exec (.longWordIssue c []) s = .next t ∧ haltsHere s t c 0x23 0xF) ∧
        (anyPoison k.poisonP w.addr w.len = false →
          (∀ code, due code → ∃ t, exec (.longWordIssue c []) s = .next t ∧ haltsHere s t c code 0xF) ∧
          (k.haltReq = false → k.cntDue = false →
            (k.brkTagEn = true → k.skipTag = false → w.tag = some k.brkTag →
              ∃ t, exec (.longWordIssue c []) s = .next t ∧ haltsHere s t c 0x11 0xF) ∧
            (k.brkTagEn = false ∨ k.skipTag = true ∨ w.tag ≠ some k.brkTag →
              ((interlocked w && !k.q0.isEmpty) = true → exec (.longWordIssue c []) s = .next s) ∧
              ((interlocked w && !k.q0.isEmpty) = false →
                (∀ code e, lowest found = some (code, e) →
                  ∃ t, exec (.longWordIssue c []) s = .next t ∧ haltsHere s t c code e) ∧
                (found = [] → ∃ t, exec (.longWordIssue c []) s = .next t ∧
                  (getCore t c).issueCnt = (k.issueCnt + 1) % 2 ^ 48 ∧
                  (getCore t c).q1.length = k.q1.length + b2n (w.slot 1).isSome ∧
                  (getCore t c).q2.length = k.q2.length + b2n (w.slot 2).isSome ∧
                  (getCore t c).q3.length = k.q3.length + b2n (w.slot 3).isSome ∧
                  (getCore t c).q4.length = k.q4.length + b2n (w.slot 4).isSome ∧
                  (getCore t c).scratch = k.scratch ∧ (getCore t c).prog = k.prog ∧
                  (∀ x, x ≠ c → getCore t x = getCore s x) ∧ t.host = s.host)))))))

/-! ### Cores: the vector, matrix, load and store engines -/

/-- While the matrix engine is busy or the head of its queue is another operation, MAC, PRELOAD and DRAIN change nothing.
With their operation at the head of a free engine, no bit error on what they read, and a tile and shapes that fit the
layout in force, the entry leaves the queue, the engine is busy, and the operation's effect on the tile, its status
word and the scratchpad is done; a MAC or a PRELOAD leaves the scratchpad as it was, a DRAIN without clear leaves the
accumulators as they were, and no other memory or register of the core, and no other part of the block, changes. A
shape that no longer fits halts with 0x04, a tile that the layout does not have with 0x0A. MATRIX_OP_COMPLETE frees a
busy engine and counts the operation. -/
def Obligations.MatrixEngineRows : Prop :=
  ∀ (s : State) (c : Nat), live s = true → c < 2304 →
    let k := getCore s c
    (k.busyM = true → ∀ errs, exec (.mac c errs) s = .next s ∧ exec (.preload c errs) s = .next s ∧ exec (.drain c errs) s = .next s) ∧
    (∀ t a b int at_ q, k.busyM = false → k.q2 = ⟨.mac t a b int, at_⟩ :: q →
      (descOf a).rows = tileRows k.layout → (descOf b).rows = tileCols k.layout → int = decide (k.layout = 3) →
      (t < tileCount k.layout →
        let m := if int then macInt t (descOf a) (descOf b) k else macFloat t (descOf a) (descOf b) k
        exec (.mac c []) s = .next (setCore s c { m with q2 := q, busyM := true }) ∧
        m = { k with acc := m.acc, poisonA := m.poisonA, tile := m.tile }) ∧
      (tileCount k.layout ≤ t → exec (.mac c []) s = .next (setCore s c (engineHalt at_ 0x0A 2 k)))) ∧
    (∀ t a b int at_ q, k.busyM = false → k.q2 = ⟨.mac t a b int, at_⟩ :: q →
      (descOf a).rows ≠ tileRows k.layout ∨ (descOf b).rows ≠ tileCols k.layout ∨ int ≠ decide (k.layout = 3) →
      exec (.mac c []) s = .next (setCore s c (engineHalt at_ 0x04 2 k))) ∧
    (∀ t d at_ q, k.busyM = false → k.q2 = ⟨.preload t d, at_⟩ :: q →
      let ok : Prop := k.layout = 3 → (descOf d).fmt ∈ [7, 8, 9]
      let m := preloadTile t (descOf d) k
      (ok → t < tileCount k.layout →
        exec (.preload c []) s = .next (setCore s c { m with q2 := q, busyM := true }) ∧
        m = { k with acc := m.acc, poisonA := m.poisonA, tile := m.tile }) ∧
      (¬ ok → exec (.preload c []) s = .next (setCore s c (engineHalt at_ 0x04 2 k))) ∧
      (ok → tileCount k.layout ≤ t → exec (.preload c []) s = .next (setCore s c (engineHalt at_ 0x0A 2 k)))) ∧
    (∀ t a d clear stats at_ q, k.busyM = false → k.q2 = ⟨.drain t a d clear stats, at_⟩ :: q →
      let ok : Prop := (descOf d).fmt ∈ (if k.layout = 3 then [0, 9] else [0, 1, 2, 0xA])
      let m := drainTile t (descOf a) (descOf d) clear stats k
      (ok → t < tileCount k.layout →
        exec (.drain c []) s = .next (setCore s c { m with q2 := q, busyM := true }) ∧
        m = { k with scratch := m.scratch, poisonS := m.poisonS, acc := m.acc, poisonA := m.poisonA, tile := m.tile } ∧
        (clear = false → m.acc = k.acc ∧ m.tile = k.tile)) ∧
      (¬ ok → exec (.drain c []) s = .next (setCore s c (engineHalt at_ 0x04 2 k))) ∧
      (ok → tileCount k.layout ≤ t → exec (.drain c []) s = .next (setCore s c (engineHalt at_ 0x0A 2 k)))) ∧
    (k.busyM = true → ∃ n, exec (.matrixOpComplete c) s = .next (setCore s c { k with busyM := false, cnt := n }) ∧
      (tableWf 0 k.cnt = true → ∀ i, i < 8 →
        tget 0 n i = tget 0 k.cnt i + (if tget 0 k.cntSrc i = evMat then 1 else 0))) ∧
    (k.busyM = false → exec (.matrixOpComplete c) s = .next (setCore s c k))

/-- While the vector engine is busy, a pass or a merge changes nothing. With a pass at the head of a free engine and no
bit error on what it reads: a condition found at its start halts the core with that code and drops the vector queue; a
row that would pass 2^24 entries halts with 0x04 after the elements before that; a write outside the scratchpad halts
with its code; otherwise the pass completes: its effect is done and reported, its entry leaves the queue and the
engine is busy, and of the core only the scratchpad, the vector registers, the counters, the open row and the counts
of the pass change. A merge on a free engine of a loaded core halts with 0x03 when a record or its output reaches past
the scratchpad and with 0x04 when the records may not be merged (R147); otherwise it completes: the merged record
stands at its place, counts as a reduction record, and a record that fails conservation is reported.
VECTOR_PASS_COMPLETE frees a busy engine and counts the pass. -/
def Obligations.VectorEngineRows : Prop :=
  ∀ (s : State) (c : Nat), live s = true → c < 2304 →
    let k := getCore s c
    (k.busyV = true → ∀ job errs, exec (.vectorRun c job errs) s = .next s) ∧
    (∀ chain ins outs start stop vl at_ q, k.busyV = false → k.q1 = ⟨.run chain ins outs start stop vl, at_⟩ :: q →
      let p := passOf k chain ins outs vl
      let had := if start then 0 else k.row.vals.length
      (∀ code rest, passFaults s p k.row start stop = code :: rest →
        exec (.vectorRun c .pass []) s = .next (setCore s c (engineHalt at_ code 1 k))) ∧
      (passFaults s p k.row start stop = [] →
        (rowRoom p had < p.vl → exec (.vectorRun c .pass []) s =
          .next (setCore s c (engineHalt at_ 0x04 1 (rowTooLong p (rowRoom p had) k)))) ∧
        (p.vl ≤ rowRoom p had →
          (∀ code, passEffect s c p start stop k = .error code →
            exec (.vectorRun c .pass []) s = .next (setCore s c (engineHalt at_ code 1 k))) ∧
          (∀ k' note, passEffect s c p start stop k = .ok (k', note) →
            exec (.vectorRun c .pass []) s = .next (notePass c note (setCore s c { k' with q1 := q, busyV := true })) ∧
            k' = { k with scratch := k'.scratch, poisonS := k'.poisonS, v := k'.v, cnt := k'.cnt, row := k'.row
                          passNonfinite := k'.passNonfinite, passSat := k'.passSat } ∧
            (stop = true → k'.row = {}))))) ∧
    (∀ (ins : List MergeIn) out n, k.busyV = false → k.state ≠ 0 →
      let spans := ins.map (fun i => (i.addr, 320 + 8 * leNat (scrRead k (i.addr + 244) 4)))
      let recs := spans.map (fun r => scrRead k r.1 r.2)
      let fits : Prop := out + 320 + 8 * n ≤ 0x10000 ∧ ∀ r ∈ spans, r.1 + r.2 ≤ 0x10000
      (¬ fits → exec (.vectorRun c (.merge ins out n) []) s = .next (setCore s c (engineHalt k.pc 0x03 1 k))) ∧
      (fits → mergeOk ins n recs = false →
        exec (.vectorRun c (.merge ins out n) []) s = .next (setCore s c (engineHalt k.pc 0x04 1 k))) ∧
      (fits → mergeOk ins n recs = true →
        let m := mergeRecs ((ins.map (fun i => i.measure)).headD 1) n recs
        exec (.vectorRun c (.merge ins out n) []) s =
          .next (conserveFault c (if m.2 then some (numAt m.1 264 4) else none) (setCore s c (countEvent evRed
            { scrWrite out m.1 (spans.any (fun r => scrBad k r.1 r.2)) k with busyV := true }))))) ∧
    (k.busyV = true → ∃ n, exec (.vectorPassComplete c) s = .next (setCore s c { k with busyV := false, cnt := n }) ∧
      (tableWf 0 k.cnt = true → ∀ i, i < 8 →
        tget 0 n i = tget 0 k.cnt i + (if tget 0 k.cntSrc i = evVec then 1 else 0))) ∧
    (k.busyV = false → exec (.vectorPassComplete c) s = .next (setCore s c k))

/-- With a load at the head of the load queue the entry becomes a started load of the core with the next job number. Where
it meets no slot of a sketch whose Q is not valid for the step, one read request for each piece of each row, none
crossing a 4 KiB unit, waits at the well that serves it; a row that lies wholly in such a slot takes the bytes of Q0
in its place, and the mode flag of Q0 sets. A load with expand puts its blocks at the end of the jobs of the well that
serves the first byte. With another head the rows change nothing. LOAD_COMPLETE ends the first load whose requests
have all completed and counts it; with none complete it changes nothing. -/
def Obligations.LoadEngineRows : Prop :=
  ∀ (s : State) (c : Nat), live s = true → c < 2304 →
    let k := getCore s c
    let started := fun (kind : JobKind) (q : List QEntry) =>
      setCore s c { k with q3 := q, loads := k.loads ++ [⟨k.nextJob, kind⟩], nextJob := k.nextJob + 1 }
    (∀ d a stride at_ q, k.q3 = ⟨.load d a stride, at_⟩ :: q →
      ((∀ x, needsQ0 s x = none) → exec (.load c) s = .next (((List.range (descOf d).rows).flatMap (fun r =>
        rowReads (.core c k.nextJob) (a + r * stride) (descOf d).rowBytes ((descOf d).base + r * (descOf d).rowStride))).foldl
          (fun t r => enqueueReq r t) (started .well q))) ∧
      (∀ x off room, (descOf d).rows = 1 → needsQ0 s a = some (x, off, room) → 0 < (descOf d).rowBytes →
        (descOf d).rowBytes ≤ room → exec (.load c) s = .next (setModeAt (millStep s) mfQ0
          (modCore c (scrWrite (descOf d).base (firstQBytes x off (descOf d).rowBytes) false) (started .well q)))) ∧
      (∃ t, exec (.load c) s = .next t ∧ (s.unitsWf = true → (getCore t c).q3 = q ∧
        (getCore t c).loads = k.loads ++ [⟨k.nextJob, .well⟩] ∧ (getCore t c).nextJob = k.nextJob + 1)) ∧
      exec (.loadExpand c) s = .next s) ∧
    (∀ base a n at_ q, k.q3 = ⟨.loadx base a n, at_⟩ :: q →
      exec (.loadExpand c) s = .next (modWell (wellOf s a) (fun w => { w with jobs := w.jobs ++
        [{ src := a, dst := base, left := n, core := some (c, k.nextJob), fetch := a / 64 * 64 }] }) (started .expand q)) ∧
      exec (.load c) s = .next s) ∧
    (k.q3 = [] → exec (.load c) s = .next s ∧ exec (.loadExpand c) s = .next s) ∧
    (∀ j, k.loads.find? (loadOver s c) = some j → ∃ n,
      exec (.loadComplete c) s = .next (setCore s c { k with loads := k.loads.filter (fun x => x.id != j.id), cnt := n }) ∧
      (tableWf 0 k.cnt = true → ∀ i, i < 8 →
        tget 0 n i = tget 0 k.cnt i + (if tget 0 k.cntSrc i = evLoad then 1 else 0))) ∧
    (k.loads.find? (loadOver s c) = none → exec (.loadComplete c) s = .next s)

/-- With a store at the head and no bit error on its rows, the entry becomes a started store and each row of the
descriptor is written to its address in host memory with the poison of the words it comes from; every byte outside the
rows stays, and one row of a core without ranges that are not finite is stored as it stands. A store to core below
2,304 copies each row into the scratchpad of that core; to another number it writes nothing. OPEN for a group that is
not loaded or lacks this member halts with 0x0C; for an operation that may open it registers it; else it waits in the
engine. HANDOFF for such a group halts with 0x0C; for an operation that is not open it halts with 0x0F unless an open
of it waits, in which case it waits too; for an ended one it halts with 0x0F; for a failed one the chunk is dropped; a
sketched result goes to the forge; while a gleaning write of its elements is unfinished it waits; while the gate holds
64 chunks it waits; else the chunk, with its weight or as NIL (R197, R203), is handed to its gate. A chunk that the
core check samples, other than NIL, is first encoded on a second core: seals that agree make the step the last
agreeing one of both cores; seals that differ once raise a fault of class 0x0B, and those that differ twice send NIL
in the place of the chunk (R524). While an open waits, nothing behind it starts. STORE_COMPLETE ends the first
complete store and counts it. A chunk handed to an operation goes to the gate of the parent's link when this member is
a leaf of the cell, and otherwise across the green to its own adder. While that gate holds 64 chunks the hand-off
waits and nothing changes. Otherwise, unless its range is closed here, the chunk stands at the end of the gate's send
queue with its retention slot, not granted, its range counts as handed, and an ASK follows the same way. -/
def Obligations.StoreEngineRows : Prop :=
  (∀ (s : State) (c : Nat), live s = true → c < 2304 →
    let k := getCore s c
    let started := fun (kind : JobKind) (q : List QEntry) =>
      setCore s c { k with q4 := q, stores := k.stores ++ [⟨k.nextJob, kind⟩], nextJob := k.nextJob + 1 }
    let free := k.stores.all (fun j => match j.kind with | .openWait _ _ => false | _ => true)
    (free = false → ∀ errs, exec (.store c errs) s = .next s ∧ exec (.storeToCore c errs) s = .next s ∧
      exec (.opn c errs) s = .next s ∧ ∀ check, exec (.handoff c errs check) s = .next s) ∧
    (free = true → ∀ d a stride at_ q, k.q4 = ⟨.store d a stride, at_⟩ :: q →
      let dd := descOf d
      let post := fun (t : State) (r : Nat) =>
        let src := dd.base + r * dd.rowStride
        let dst := a + r * stride
        postWriteAs (statWrite t dst dd.rowBytes) (.core c k.nextJob) dst (nilStore t c dst (scrRead k src dd.rowBytes))
          (badUnits k src dd.rowBytes dst) t
      let t0 := (List.range dd.rows).foldl post (started .well q)
      exec (.store c []) s = .next (if Config.storeFence c k.nextJob then storeFences (.core c k.nextJob) t0 else t0) ∧
      (memWf 0 s.host = true → (∀ r, r < dd.rows → a + r * stride + dd.rowBytes ≤ 2 ^ 52) →
        ∃ t, exec (.store c []) s = .next t ∧
          ∀ x, (∀ r, r < dd.rows → x < a + r * stride ∨ a + r * stride + dd.rowBytes ≤ x) →
            mget 0 t.host x = mget 0 s.host x) ∧
      (memWf 0 s.host = true → a + dd.rowBytes ≤ 2 ^ 52 → dd.rows = 1 → k.nilRanges = [] → s.unitsWf = true →
        ∃ t, exec (.store c []) s = .next t ∧ bytesStored s.host t.host a (scrRead k dd.base dd.rowBytes))) ∧
    (free = true → ∀ d dest dst stride at_ q, k.q4 = ⟨.stcore d dest dst stride, at_⟩ :: q →
      (2304 ≤ dest → exec (.storeToCore c []) s = .next (started .done q)) ∧
      (dest < 2304 → s.unitsWf = true → (getCore s dest).torn = false → exec (.storeToCore c []) s =
        .next (modCore dest (fun t => (List.range (descOf d).rows).foldl (fun t r =>
          copyRow k ((descOf d).base + r * (descOf d).rowStride) (descOf d).rowBytes (dst + r * stride) t) t) (started .done q))) ∧
      (dest < 2304 → s.unitsWf = true → (getCore s dest).torn = true → 0 < (descOf d).rows → ∃ t,
        exec (.storeToCore c []) s = .next t ∧ (getCore t dest).torn = false)) ∧
    (free = true → ∀ base at_ q, k.q4 = ⟨.opn base, at_⟩ :: q →
      let nm := (openRecord (scrRead k base 16)).1
      let n := (openRecord (scrRead k base 16)).2
      (myGrp s nm.group = none → exec (.opn c []) s = .next (setCore s c (engineHalt at_ 0x0C 4 k))) ∧
      (∀ g, myGrp s nm.group = some g → mayOpen s nm = true →
        exec (.opn c []) s = .next (openReduction nm n (started .done q))) ∧
      (∀ g, myGrp s nm.group = some g → mayOpen s nm = false →
        exec (.opn c []) s = .next (started (.openWait nm n) q))) ∧
    (free = true → ∀ base at_ q check, k.q4 = ⟨.handoff base, at_⟩ :: q →
      let b0 := handoffChunk k base
      let b := if forForge s b0 then b0 else millChunk s c b0
      let h := hdrOf b
      (myGrp s h.group = none → exec (.handoff c [] check) s = .next (setCore s c (engineHalt at_ 0x0C 4 k))) ∧
      (∀ g, myGrp s h.group = some g → (findOp s (hdrName h)).filter (·.registered) = none →
        (openWaits s (hdrName h) = true → exec (.handoff c [] check) s = .next s) ∧
        (openWaits s (hdrName h) = false → exec (.handoff c [] check) s = .next (setCore s c (engineHalt at_ 0x0F 4 k)))) ∧
      (∀ g o, myGrp s h.group = some g → findOp s (hdrName h) = some o → o.registered = true →
        (o.failed = true → exec (.handoff c [] check) s = .next (started .done q)) ∧
        (o.failed = false → sketchResult s g o h = true → exec (.handoff c [] check) s = .next (forgeAccept b (started .done q))) ∧
        (o.failed = false → sketchResult s g o h = false → opEnded s o = true →
          exec (.handoff c [] check) s = .next (setCore s c (engineHalt at_ 0x0F 4 k))) ∧
        (o.failed = false → sketchResult s g o h = false → opEnded s o = false → gleanPending s c h = true →
          exec (.handoff c [] check) s = .next s) ∧
        (o.failed = false → sketchResult s g o h = false → opEnded s o = false → gleanPending s c h = false →
          let gate := (handoffGate g o.n (h.base / cellLen g)).1
          let d := checkCore s c
          (64 ≤ slotsUsed (getGate s gate) → exec (.handoff c [] check) s = .next s) ∧
          (slotsUsed (getGate s gate) < 64 →
            (coreSampled s h = false ∨ h.kind = kNil → exec (.handoff c [] check) s = .next (handTo c g o b s)) ∧
            (coreSampled s h = true → h.kind ≠ kNil →
              (check.1 = 0 → exec (.handoff c [] check) s = .next (handTo c g o b
                (modUnit (uCore d) (fun u => { u with lastAgree := some h.step })
                  (modUnit (uCore c) (fun u => { u with lastAgree := some h.step }) s)))) ∧
              (check.1 ≠ 0 → check.2 = 0 → exec (.handoff c [] check) s = .next (handTo c g o b
                (raiseFull 0x0B 1 (uCore c) (chunkInfo h.group h.seq h.index) (uCore d) 1 (some (uCore d)) s))) ∧
              (check.1 ≠ 0 → check.2 ≠ 0 → exec (.handoff c [] check) s = .next (handTo c g o (mkNil h)
                (coreRefused c h (raiseFull 0x0B 2 (uCore c) (chunkInfo h.group h.seq h.index) (uCore d) 2 (some (uCore d)) s))))))))) ∧
    (∀ j, (getCore (openWaiting s) c).stores.find? (storeOver (openWaiting s) c) = some j → ∃ n,
      exec (.storeComplete c) s = .next (setCore (openWaiting s) c { getCore (openWaiting s) c with
        stores := (getCore (openWaiting s) c).stores.filter (fun x => x.id != j.id), cnt := n })) ∧
    ((getCore (openWaiting s) c).stores.find? (storeOver (openWaiting s) c) = none →
      exec (.storeComplete c) s = .next (openWaiting s))) ∧
  (∀ (s : State) (c : Nat) (g : Grp) (o : Op) (b : Bytes), s.unitsWf = true →
    let h := hdrOf b
    let at_ := handoffGate g o.n (h.base / cellLen g)
    (64 ≤ slotsUsed (getGate s at_.1) → handTo c g o b s = s) ∧
    (slotsUsed (getGate s at_.1) < 64 → closedHere o h.base h.count = false →
      let i : SendItem := { mkItem b [] 0 (redVc (hdrName h).group) at_.2 true false none with slot := true }
      let t := handTo c g o b s
      (getGate t at_.1).sendQ = (getGate s at_.1).sendQ ++ [i] ∧ i.granted = false ∧
      (getCore t c).q4 = (getCore s c).q4.tail ∧
      (at_.2 = true → (getGate t at_.1).greenNotices = (getGate s at_.1).greenNotices ++ [noticeOf nAsk h []])))

/-! ### Wells and expanders -/

/-- At a present well with a waiting request that may leave and a free tag, the first such request leaves the waiting list
and is outstanding under the lowest tag that is neither in use nor quarantined, with the limit in force; each poisoned
quarter of a write is counted, and the write raises a fault of class 0x12 that names its writer and sets the poisoned
flag of the step's mode unless evaluation is in force. With none that may leave, no free tag, or an absent well,
nothing changes. A refresh pulse is counted at a present well and at no other. A timeout of a tag in use frees it,
sets timeout and the error bit, quarantines it and counts a memory fault; of another tag it changes nothing. -/
def Obligations.WellRequestsLeaveUnderTheLowestFreeTag : Prop :=
  ∀ (s : State) (w : Nat), live s = true → w < 32 →
    let k := getWell s w
    (wellPresent s w = true → ∀ i r t, nextReq s k = some (i, r) → freeTag k = some t →
      exec (.wellRequestIssue w) s = .next (poisonWrite w r (setWell s w { k with
        waiting := k.waiting.eraseIdx i, busy := tinsert k.busy t r, limits := tset 0 k.limits t k.timeout })) ∧
      t < 1024 ∧ (∀ b ∈ k.busy, b.1 ≠ t) ∧ t ∉ k.quar ∧
      (∀ u, u < t → (∃ b ∈ k.busy, b.1 = u) ∨ u ∈ k.quar)) ∧
    (wellPresent s w = false ∨ nextReq s k = none ∨ freeTag k = none → exec (.wellRequestIssue w) s = .next s) ∧
    (wellPresent s w = true → exec (.wellRefresh w) s = .next (setWell s w { k with refresh := k.refresh + 1 })) ∧
    (wellPresent s w = false → exec (.wellRefresh w) s = .next s) ∧
    (∀ tag r, k.busy.find? (fun b => b.1 == tag) = some (tag, r) → s.unitsWf = true → ∃ t,
      exec (.wellTimeout w tag) s = .next t ∧ tag ∈ (getWell t w).quar ∧ (getWell t w).timeoutF = true ∧
      (getWell t w).errCpl = true ∧ (∀ b ∈ (getWell t w).busy, b.1 ≠ tag) ∧
      tget 0 t.faultCnt 0x11 = satInc (tget 0 s.faultCnt 0x11) 1) ∧
    (∀ r : WReq, poisonWrite w r s = if r.op = 1 ∧ r.poison ≠ [] then raise 0x12 r.owner.code (uWell w) r.addr 0
      (setWell (poisonMode s) w { k with poisonWr := satInc k.poisonWr r.poison.length }) else s) ∧
    (∀ tag, k.busy.find? (fun b => b.1 == tag) = none → exec (.wellTimeout w tag) s = .next s)

/-- A beat for a tag that is not in use, or past the length of its read, changes nothing; the next beat of a read is
counted and its quarters, those that the read has left, are delivered in order with their poison, each poisoned one
counted at the well. A quarter of a read by a core that is all the read brings goes to its place in the scratchpad of
that core. A completion with status 0 or 1 frees its tag and changes nothing else; with status 2 or 3 it also sets the
error bit and counts a memory fault. A completion for a quarantined tag frees it and sets the late bit; for another
unused tag, or at an absent well, it changes nothing. -/
def Obligations.WellAnswersAreDelivered : Prop :=
  ∀ (s : State) (w tag : Nat), live s = true → w < 32 →
    let k := getWell s w
    (k.busy.find? (fun b => b.1 == tag) = none → ∀ data poison, exec (.wellReadBeat w tag data poison) s = .next s) ∧
    (∀ r, k.busy.find? (fun b => b.1 == tag) = some (tag, r) → (r.op ≠ 0 ∨ r.len ≤ 4 * r.beats) →
      ∀ data poison, exec (.wellReadBeat w tag data poison) s = .next s) ∧
    (∀ r, k.busy.find? (fun b => b.1 == tag) = some (tag, r) → wellPresent s w = true → r.op = 0 → 4 * r.beats < r.len →
      ∀ data poison, exec (.wellReadBeat w tag data poison) s = .next ((List.range 4).foldl (fun t i =>
        if 4 * r.beats + i < r.len then
          deliverQuarter r (64 * (4 * r.beats + i)) (slice data (64 * i) 64) (bitOf poison i)
            (if bitOf poison i then modWell w (fun x => { x with poisonRd := satInc x.poisonRd 1 }) t else t)
        else t) (setWell s w { k with
          busy := k.busy.map (fun b => if b.1 = tag then (b.1, { b.2 with beats := b.2.beats + 1 }) else b) }))) ∧
    (∀ (r : WReq) c j lo bs bad dst, r.owner = .core c j → (getCore s c).torn = false → bs ≠ [] →
      r.dests = [(lo, dst, bs.length)] → deliverQuarter r lo bs bad s = modCore c (scrWrite dst bs bad) s) ∧
    (wellPresent s w = true → ∀ r, k.busy.find? (fun b => b.1 == tag) = some (tag, r) →
      (∀ st, st < 2 → exec (.wellCompletion w tag st) s = .next (setWell s w { k with
        busy := k.busy.filter (fun b => b.1 != tag), limits := terase k.limits tag })) ∧
      (∀ st, 2 ≤ st → s.unitsWf = true → ∃ t, exec (.wellCompletion w tag st) s = .next t ∧ (getWell t w).errCpl = true ∧
        (∀ b ∈ (getWell t w).busy, b.1 ≠ tag) ∧ tget 0 t.faultCnt 0x11 = satInc (tget 0 s.faultCnt 0x11) 1)) ∧
    (wellPresent s w = true → k.busy.find? (fun b => b.1 == tag) = none → ∀ st,
      (tag ∈ k.quar → exec (.wellCompletion w tag st) s = .next (setWell s w { k with
        lateCpl := true, quar := k.quar.filter (· != tag) })) ∧
      (tag ∉ k.quar → exec (.wellCompletion w tag st) s = .next s)) ∧
    (wellPresent s w = false → ∀ st, exec (.wellCompletion w tag st) s = .next s)

/-- A table load starts unless one runs or its slot is counted in use, which sets busy. It ends with the slot valid under
the new generation when the image reads well and passes its checks, and else sets bad_table; an EXP_TABLE_LOAD_DONE
without a load changes nothing. A pin counts up to 65,535 and an unpin down to 0; beyond either they set pin_err.
EXPAND at the head puts a job at the end of its well's jobs when its descriptor reads well and passes its checks; else
the command is discarded with a fault of class 0x0E. Without a job EXPANDER_FETCH and EXPAND_BLOCK change nothing. A
fetch asks for the next bytes of the stream at the head job's address, in one read that stays inside one 4 KiB unit,
unless the queue has no room for it and the block in hand needs no more bytes, or the source is lost. A block whose
header, or whose body under a good header, is not all here changes nothing. A block with a good header and all its
bytes here is expanded: its output goes to the scratchpad of its load or to host memory, poisoned when the stream was
poisoned or damaged; a damaged one is counted; and the job moves to the next block or, after its last, ends and is
counted. A bad header writes a block of zeros, poisoned, and is damaged with cause 4; when its length is not
believable the source is lost, and each later block of the job writes zeros, poisoned. -/
def Obligations.ExpanderRows : Prop :=
  (∀ (s : State) (n : Nat), live s = true → n < 8 →
    (s.exp.loading = none → slotCount s s.exp.slot = 0 → exec .expTableLoad s = .next { s with exp := { s.exp with
      loading := some (s.exp.slot % 8, s.exp.gen, s.exp.src.toNat) } }) ∧
    (s.exp.loading = none → slotCount s s.exp.slot ≠ 0 →
      exec .expTableLoad s = .next { s with exp := { s.exp with busy := true } }) ∧
    (s.exp.loading ≠ none → exec .expTableLoad s = .next s) ∧
    (s.exp.loading = none → ∀ rd, exec (.expTableLoadDone rd) s = .next s) ∧
    (∀ m g a, s.exp.loading = some (m, g, a) →
      (tableOk (hostRead s a 272) = true → ∃ slots, exec (.expTableLoadDone .ok) s =
          .next { s with exp := { s.exp with loading := none, slots := slots } } ∧
        slots = tset {} s.exp.slots (m % 8) { getSlot s m with
          gen := g, valid := true, fmt := numAt (hostRead s a 272) 0 1, lens := slice (hostRead s a 272) 16 256 }) ∧
      (tableOk (hostRead s a 272) = false → exec (.expTableLoadDone .ok) s =
        .next { s with exp := { s.exp with loading := none, badTable := true } }) ∧
      (∀ rd, rd ≠ .ok → ∃ t, exec (.expTableLoadDone rd) s = .next t ∧
        t.exp = { s.exp with loading := none, badTable := true })) ∧
    ((getSlot s n).pins < 65535 → exec (.expPin n) s = .next { s with exp := { s.exp with
      slots := tset {} s.exp.slots n { getSlot s n with pins := (getSlot s n).pins + 1 } } }) ∧
    (65535 ≤ (getSlot s n).pins → exec (.expPin n) s = .next { s with exp := { s.exp with pinErr := true } }) ∧
    (0 < (getSlot s n).pins → exec (.expUnpin n) s = .next { s with exp := { s.exp with
      slots := tset {} s.exp.slots n { getSlot s n with pins := (getSlot s n).pins - 1 } } }) ∧
    ((getSlot s n).pins = 0 → exec (.expUnpin n) s = .next { s with exp := { s.exp with pinErr := true } }) ∧
    (∀ w rest, headIs s 0x30 w rest →
      let b := hostRead s (field w.toNat 47 8 * 4096) 64
      (expandOk s b = true → exec (.expand .ok) s = .next (modWell (numAt b 20 1) (fun k => { k with jobs := k.jobs ++
        [{ src := numAt b 0 8, dst := numAt b 8 8, left := numAt b 16 4, core := none, fetch := numAt b 0 8 }] })
        { s with cmd := { s.cmd with fifo := rest } })) ∧
      (expandOk s b = false → exec (.expand .ok) s =
        .next (raise 0x0E 0x30 uBlock 0 0 { s with cmd := { s.cmd with fifo := rest } })) ∧
      (∀ rd, rd ≠ .ok → ∃ t, exec (.expand rd) s = .next t ∧ t.cmd.fifo = rest ∧ (∀ v, (getWell t v).jobs = (getWell s v).jobs) ∧
        tget 0 t.faultCnt 0x0E = satInc (tget 0 s.faultCnt 0x0E) 1))) ∧
  (∀ (s : State) (w : Nat), live s = true → w < 32 →
    let k := getWell s w
    (k.jobs = [] → exec (.expanderFetch w) s = .next s ∧ exec (.expandBlock w) s = .next s) ∧
    (∀ j js, k.jobs = j :: js →
      let a := j.fetch % 2 ^ 52
      let len := min (max 1 (min 64 (Config.fetchUnits a))) (64 - a % 4096 / 64)
      (j.lostAt = false → (k.expBuf.length + fetching s w + len ≤ 1024 ∨ j.fetch < blockEnd k j) →
        exec (.expanderFetch w) s = .next (enqueueReq
          { op := 0, addr := a, len := len, owner := .stream w, data := [], mask := [], poison := [], dests := [], beats := 0 }
          (setWell s w { k with jobs := { j with fetch := j.fetch + 64 * len } :: js }))) ∧
      (j.lostAt = true ∨ ¬ (k.expBuf.length + fetching s w + len ≤ 1024 ∨ j.fetch < blockEnd k j) →
        exec (.expanderFetch w) s = .next s) ∧
      (j.lostAt = false → streamAt k j.src 32 = none → exec (.expandBlock w) s = .next s) ∧
      (∀ h b0 blk bad, j.lostAt = false → streamAt k j.src 32 = some (h, b0) → headerOk h = true →
        streamAt k j.src (numAt h 20 4) = some (blk, bad) →
        let r := expandBytes s blk
        exec (.expandBlock w) s = .next (expandNext w (some (j.src + numAt h 20 4))
          (damaged w r.2 j.src (expandWrite j (some (numAt h 3 1)) r.1 (bad || decide (r.2 ≠ 0)) s)))) ∧
      (∀ h b0, j.lostAt = false → streamAt k j.src 32 = some (h, b0) → headerOk h = true →
        streamAt k j.src (numAt h 20 4) = none → exec (.expandBlock w) s = .next s) ∧
      (j.lostAt = true →
        exec (.expandBlock w) s = .next (expandNext w none (expandWrite j none (zeros 4096) true s))) ∧
      (∀ h b0, j.lostAt = false → streamAt k j.src 32 = some (h, b0) → headerOk h = false →
        exec (.expandBlock w) s = .next (expandNext w
          (if 64 ≤ numAt h 20 4 ∧ numAt h 20 4 ≤ 8192 then some (j.src + roundUp (numAt h 20 4) 64) else none)
          (damaged w 4 j.src (expandWrite j none (zeros 4096) true s))))))

/-! ### Forges and the norm -/

/-- A forge that is busy, has nothing queued, or whose head chunk may not be applied yet (a hold stands or no pair is
latched, unless its family is 3) changes nothing. A chunk with no record or no whole block leaves the queue. Of any
other the block is computed, and what its reads met (a poisoned quarter, a failed read) is counted. A block that is
skipped leaves the queue and is broadcast with its old weights. A block that is written leaves the queue, occupies the
forge, and its bytes are written; when it is sampled, agreement with the partner is recorded at both wells, one
disagreement is a fault of class 0x0A that resolves, and two make a fault that skips the block. FORGE_BLOCK_APPLIED
waits for every write of the forge; then the forge is free and the block is counted. NORM_RELEASE while a step is held
ends the hold, sets the norm release flag of that step and latches the held value with the pair; NORM_ABANDON ends the
hold, sets the forge skip flag of the step, and takes every chunk of it from the forge queues, whose blocks are
broadcast with their old weights. While no step is held both change nothing. NORM_OPEN hands in one XF chunk, of the
exact sum of the forges' totals and the failed blocks, for the operation of the norm group, when a step is open, the
map in force names a loaded norm group of which this block is a member, nothing has been sent for the step, every
expected block counts and the operation may open; else it changes nothing. -/
def Obligations.ForgeAndNormRows : Prop :=
  (∀ (s : State) (w : Nat) (err : U64 × U64) (rd : ReadEnd), live s = true → w < 32 →
    let k := getWell s w
    (k.fbusy ≠ none ∨ k.fqueue = [] → exec (.forgeApply w err rd) s = .next s) ∧
    (∀ a rest, k.fbusy = none → k.fqueue = a :: rest →
      let b := entryChunk s w a
      let h := hdrOf b
      (recordOf s h.group h.seq = none → exec (.forgeApply w err rd) s = .next (unqueue w a.slot s)) ∧
      (∀ r, recordOf s h.group h.seq = some r → mayApply s r a.step = false → exec (.forgeApply w err rd) s = .next s) ∧
      (∀ r, recordOf s h.group h.seq = some r → mayApply s r a.step = true → blockOf r h.base h.count = none →
        exec (.forgeApply w err rd) s = .next (unqueue w a.slot s)) ∧
      (∀ r j, recordOf s h.group h.seq = some r → mayApply s r a.step = true → blockOf r h.base h.count = some j →
        let u := readsEnd rd s
        let bad := blockPoisoned rd s r j b || a.slot.any (fun n => readBad s rd (parkAt s w n) 4144)
        let p := partnerWell s w
        let differ := fun n => raiseFull 0x0A n (uWell w) (chunkInfo h.group h.seq h.index) (uWell p) n (some (uWell p)) u
        let written := fun ws (t : State) =>
          modWell w (fun k => { k with fqueue := k.fqueue.tail, fbusy := some (b, a.slot) })
            (ws.foldl (fun t x => forgeWrite w h.step x.1 x.2 t) t)
        (∀ ws, computeBlock u r j b (latchedFor u a.step) bad = .writes ws →
          (forgeSampled s r j h.step = false → exec (.forgeApply w err rd) s = .next (written ws u)) ∧
          (forgeSampled s r j h.step = true → err.1 = 0 → exec (.forgeApply w err rd) s = .next (written ws
            (modUnit (uWell p) (fun x => { x with lastAgree := some (recordStep u) })
              (modUnit (uWell w) (fun x => { x with lastAgree := some (recordStep u) }) u)))) ∧
          (forgeSampled s r j h.step = true → err.1 ≠ 0 → err.2 = 0 →
            exec (.forgeApply w err rd) s = .next (written ws (differ 1))) ∧
          (forgeSampled s r j h.step = true → err.1 ≠ 0 → err.2 ≠ 0 →
            exec (.forgeApply w err rd) s = .next (skipBlock 0 w r j h (unqueue w a.slot (differ 2))))) ∧
        (∀ cause, computeBlock u r j b (latchedFor u a.step) bad = .skip cause →
          exec (.forgeApply w err rd) s = .next (skipBlock cause w r j h (unqueue w a.slot u))) ∧
        (computeBlock u r j b (latchedFor u a.step) bad = .nothing →
          exec (.forgeApply w err rd) s = .next (updateBroadcast r j h.step (unqueue w a.slot u))))) ∧
    (k.fbusy = none ∨ anyPending (.forge w) s = true → exec (.forgeBlockApplied w) s = .next s) ∧
    (∀ b slot, k.fbusy = some (b, slot) → anyPending (.forge w) s = false → recordOf s (hdrOf b).group (hdrOf b).seq = none →
      exec (.forgeBlockApplied w) s = .next (setWell s w { k with
        fbusy := none, applied := k.applied + 1, parked := k.parked - b2n slot.isSome })) ∧
    (∀ b slot r, k.fbusy = some (b, slot) → anyPending (.forge w) s = false →
      recordOf s (hdrOf b).group (hdrOf b).seq = some r →
      let t := setWell s w { k with fbusy := none, applied := k.applied + 1, parked := k.parked - b2n slot.isSome }
      (blockOf r (hdrOf b).base (hdrOf b).count = none → exec (.forgeBlockApplied w) s = .next t) ∧
      (∀ j, blockOf r (hdrOf b).base (hdrOf b).count = some j →
        exec (.forgeBlockApplied w) s = .next (updateBroadcast r j (hdrOf b).step t)))) ∧
  (∀ s : State, live s = true →
    (s.forge.hold = false → exec .normRelease s = .next s ∧ exec .normAbandon s = .next s) ∧
    (s.forge.hold = true →
      exec .normRelease s = .next (latchPair s.forge.heldStep s.forge.heldKappa
        (setModeAt s.forge.heldStep mfNormRelease { s with forge := { s.forge with hold := false } }))) ∧
    (s.forge.hold = true →
      exec .normAbandon s = .next ((List.range 32).foldl (fun t w =>
        let q := (getWell t w).fqueue
        let mine := q.filter (fun a => a.step == s.forge.heldStep)
        modWell w (fun k => { k with
          fqueue := k.fqueue.filter (fun a => a.step != s.forge.heldStep),
          parked := k.parked - (q.filter (fun a => a.step == s.forge.heldStep && a.slot.isSome)).length })
          (mine.foldl (abandonEntry w) t))
        (setModeAt s.forge.heldStep mfForgeSkip
          { s with forge := { s.forge with hold := false, abandoned := some s.forge.heldStep } }))) ∧
    (∀ w a, abandonEntry w s a = match recordOf s (hdrOf (entryChunk s w a)).group (hdrOf (entryChunk s w a)).seq with
      | none => s
      | some r => match blockOf r (hdrOf (entryChunk s w a)).base (hdrOf (entryChunk s w a)).count with
        | none => s
        | some j => updateBroadcast r j (hdrOf (entryChunk s w a)).step s) ∧
    (s.step.opened = none ∨ mapInForce s = none ∨ normDue s = false → exec .normOpen s = .next s) ∧
    (∀ st m, s.step.opened = some st → mapInForce s = some m → normDue s = true →
      let nm : OpName := ⟨m.normGroup, m.normSeq, st⟩
      let h : Hdr := { kind := 7, fmt := 0xA, grp := 0, flags := 0, group := m.normGroup, seq := m.normSeq, index := 0,
                       base := 0, count := 2, member := memberId s, sparse := 0, weight := 1, step := st }
      (mayOpen s nm = false → exec .normOpen s = .next s) ∧
      (mayOpen s nm = true → exec .normOpen s = .next (handOwn (mkXf h [normSum s, xfNat s.forge.failed])
        (openReduction nm 2 { s with forge := { s.forge with sent := true, ownSq := normSum s } })))))

/-! ### Registers -/

/-- A read of an unmapped address returns zero with MGT_ERR and changes nothing else. A read of a mapped one returns the
holding copy that this master has of it, if it reads the _HI half of a pair it captured, and else the live value; a
read of the _LO half captures the _HI half for this master, and the copy serves one read. A counter that a read
clears, in any page, is zero afterwards; a read of any other register changes only the answer and the holding copies.
After an uncorrectable steward memory error only BLK_ID, BLK_VERSION and the fault registers answer. -/
def Obligations.RegisterReadsAnswer : Prop :=
  ∀ (s : State) (m a : Nat), live s = true → m < 16 → a < 2 ^ 22 → a % 4 = 0 →
    exec (.readClear m a) s = exec (.readLoCapture m a) s ∧
    (place s m a = none → exec (.readLoCapture m a) s = .next { s with pins := { s.pins with mgtRdata := 0, mgtErr := true } }) ∧
    (∀ p o, place s m a = some (p, o) → servesRead s p o = false → exec (.readLoCapture m a) s = .next s) ∧
    (∀ p o, place s m a = some (p, o) → servesRead s p o = true → ∃ t, exec (.readLoCapture m a) s = .next t ∧
      t.pins.mgtErr = false ∧
      (∀ v, heldHi s m (regKey p (o - 4)) = some v → pairBelow s p o ≠ none → t.pins.mgtRdata = v) ∧
      ((heldHi s m (regKey p (o - 4)) = none ∨ pairBelow s p o = none) → t.pins.mgtRdata = liveReg s m p o) ∧
      (∀ v, pairAt s p o = some v → heldHi t m (regKey p o) = some (hiHalf v)) ∧
      (pairAt s p o = none → pairBelow s p o ≠ none → heldHi t m (regKey p (o - 4)) = none)) ∧
    (let clears := fun (p : Page) (o : Nat) => match p with
        | .block => [0x214, 0x694, 0x714, 0x818].contains o || decide (0x780 ≤ o ∧ o < 0x800)
        | .book => o == 0x24
        | .roll => false
        | .gate _ => [0x14, 0x80, 0x84, 0x88, 0x8C, 0x90, 0x94, 0x9C, 0xA0].contains o
        | .core _ => o == 0x34
        | .well w => !tiedOff s w && [0x08, 0x0C, 0x30, 0x58].contains o
      ∀ p o t, place s m a = some (p, o) → servesRead s p o = true → exec (.readLoCapture m a) s = .next t →
        (clears p o = true → s.unitsWf = true → tableWf 0 s.faultCnt = true → liveReg t m p o = 0) ∧
        (clears p o = false → s.unitsWf = true → t = { s with mgt := { s.mgt with holdHi := t.mgt.holdHi }, pins := t.pins })) ∧
    (∀ p o, servesRead s p o = (!s.boot.memErr ||
      decide (p = .block ∧ (o = 0 ∨ o = 4 ∨ (0x700 ≤ o ∧ o < 0x718) ∨ (0x780 ≤ o ∧ o < 0x800)))))

/-- A write of the _LO half of a pair that may be written goes to the holding copy of its master and leaves the pair as it
was. A write of the _HI half commits both halves: with the _LO that the same master wrote before, which it uses up, or
else with the _LO in force. A ring base or the exposure base takes them with bits 11:0 zero; BLK_EPOCH takes the whole
value and restarts the time. A PAIR_WRITE_LO to any other address, or after an uncorrectable steward memory error,
changes nothing. -/
def Obligations.PairsCommitBothHalves : Prop :=
  ∀ (s : State) (m a : Nat) (v hi : U32), live s = true → m < 16 →
    let r := a % 2 ^ 22 / 4 * 4
    (s.boot.memErr = true ∨ (∀ p o, place s m r = some (p, o) → rwPair p o = false) →
      exec (.pairWriteLo m a v) s = .next s) ∧
    (s.boot.memErr = false →
      (∀ p o, place s m r = some (p, o) → rwPair p o = true →
        (∃ t, exec (.pairWriteLo m a v) s = .next t ∧ pairAt t p o = pairAt s p o ∧
          t.mgt.holdLo.find? (fun e => e.1 == m) = some (m, (regKey p o, v))) ∧
        exec (.registerWrite m a v) s = exec (.pairWriteLo m a v) s) ∧
      (∀ p o, place s m r = some (p, o + 4) → rwPair p o = true → rwPair p (o + 4) = false → ∃ t u old,
        exec (.registerWrite m a hi) s = .next t ∧ t = commitPair p o (hi ++ old) u ∧
        u = { s with mgt := u.mgt, pins := { s.pins with mgtErr := false } } ∧
        (∀ lo, s.mgt.holdLo.find? (fun e => e.1 == m && e.2.1 == regKey p o) = some (m, (regKey p o, lo)) →
          old = lo ∧ u.mgt.holdLo.find? (fun e => e.1 == m) = none) ∧
        (s.mgt.holdLo.find? (fun e => e.1 == m && e.2.1 == regKey p o) = none →
          (∀ w, pairAt s p o = some w → old = w.truncate 32) ∧ u.mgt.holdLo = s.mgt.holdLo))) ∧
    (∀ w : U64, (commitPair .block 0x200 w s).bell.base = w &&& 0xFFFFFFFFFFFFF000#64 ∧
      (commitPair .block 0x680 w s).audit.base = w &&& 0xFFFFFFFFFFFFF000#64 ∧
      (commitPair .block 0x700 w s).flt.base = w &&& 0xFFFFFFFFFFFFF000#64 ∧
      (commitPair .block 0x720 w s).expose.base = w &&& 0xFFFFFFFFFFFFF000#64 ∧
      (commitPair .block 0x718 w s).epoch = w ∧ (commitPair .block 0x718 w s).aon.timeUs = 0)

/-- A write completes whatever its address and value. At an unmapped address it is ignored with MGT_ERR; after an
uncorrectable steward memory error one to a mapped address changes nothing. Writes to BLK_ID, BLK_MEMBER and
BLK_DONE_CNT change no register. Writing 1 clears BLK_GFAIL.valid and 0 does not. The bell ring and fault ring
controls take their enables, and their log2_entries only inside the range of its table. A write of BLK_CMD_HI does
what CMD_REGISTER_WORD does, one of BLK_KEYTURN with turn set what KEY_TURN does, and one of a gate's enable what the
link rows do. The reports of access errors end with each of these. -/
def Obligations.RegisterWritesTakeEffect : Prop :=
  ∀ (s : State) (m a : Nat) (v : U32), live s = true → m < 16 →
    (∃ t, exec (.registerWrite m a v) s = .next t) ∧
    (a < 2 ^ 22 → a % 4 = 0 → place s m a ≠ none → s.boot.memErr = true → exec (.registerWrite m a v) s = .next s) ∧
    (a < 2 ^ 22 → a % 4 = 0 → place s m a = none →
      exec (.registerWrite m a v) s = .next { s with pins := { s.pins with mgtErr := true } }) ∧
    (s.boot.memErr = false →
    let ok : State := { s with pins := { s.pins with mgtErr := false } }
    (∀ r, r = 0x0000 ∨ r = 0x0014 ∨ r = 0x0300 → exec (.registerWrite m r v) s = .next ok) ∧
    exec (.registerWrite m 0x0114 0x10000) s = .next { ok with gfail := { s.gfail with valid := false } } ∧
    exec (.registerWrite m 0x0114 0) s = .next ok ∧
    (∃ t, exec (.registerWrite m 0x0208 v) s = .next t ∧ t.bell.ctl = v.toNat % 4 ∧
      t.bell.log2 = (if 9 ≤ v.toNat / 32 % 32 ∧ v.toNat / 32 % 32 ≤ 20 then v.toNat / 32 % 32 else s.bell.log2)) ∧
    (∃ t, exec (.registerWrite m 0x0708 v) s = .next t ∧ t.flt.ctl = v.toNat % 4 ∧
      t.flt.log2 = (if 6 ≤ v.toNat / 32 % 32 ∧ v.toNat / 32 % 32 ≤ 20 then v.toNat / 32 % 32 else s.flt.log2)) ∧
    exec (.registerWrite m 0x0080 v) s = .next { ok with mgt := { s.mgt with cmdLo := v } } ∧
    exec (.registerWrite m 0x0084 v) s = exec (.cmdRegisterWord v) ok ∧
    exec (.registerWrite m 0x0020 1) s = exec .keyTurn ok ∧
    (∀ g, g < 96 → exec (.registerWrite m (0x100000 + 0x1000 * g) 1) s = exec (.linkEnableSet g) ok ∧
      exec (.registerWrite m (0x100000 + 0x1000 * g) 0) s = exec (.linkDisable g) ok))

/-- A write to FORGE_LR_SCALE or FORGE_LR_STEP, in any well page, goes to the shadow of that register and marks it
pending; the live value stays. Another address changes nothing. A key turn copies both shadows into their live
registers, clears the pending marks and counts itself; a second key turn without new writes changes the live values no
more. -/
def Obligations.KeyTurnCopiesEveryShadow : Prop :=
  ∀ (s : State) (v : U32) (w : Nat), live s = true → w < 32 →
    exec (.stagedWrite (0x300000 + 0x1000 * w + 0x840) v) s =
      .next { s with forge := { s.forge with scaleShadow := v, pendScale := true } } ∧
    exec (.stagedWrite (0x300000 + 0x1000 * w + 0x844) v) s =
      .next { s with forge := { s.forge with stepShadow := v, pendStep := true } } ∧
    (∀ a, a < 2 ^ 22 → a < 0x300000 → exec (.stagedWrite a v) s = .next s) ∧
    (∃ t, exec .keyTurn s = .next t ∧ t = { s with forge := { s.forge with
        scaleLive := s.forge.scaleShadow, stepLive := s.forge.stepShadow, pendScale := false, pendStep := false
        turns := (s.forge.turns + 1) % 2 ^ 16 } } ∧
      ∃ u, exec .keyTurn t = .next u ∧ u.forge.scaleLive = t.forge.scaleLive ∧ u.forge.stepLive = t.forge.stepLive)

/-! ### Tallies, the almanac, the book and the steward -/

/-- At the head of the FIFO a DECLARE with an accepted descriptor leaves it and joins the jobs in the open step; a TALLY
waits while an operation is open, a forge or park region is not idle, or another tally runs, and else does the same
and sets busy; a descriptor that is not accepted, or whose read fails, discards its command with a fault of class
0x0E. TALLY_COMPLETE ends the oldest job and counts it, however its reads end: a declaration enters I of its step
while that step is open; a checked tally that differs sets mismatch and raises a restore fault, one that agrees sets
the restored flag of the next step; a chain flag makes the descriptor's digest the previous curfew digest. With no job
it changes nothing. ALM_LOAD at the head leaves the FIFO, however its reads end; a package that is refused leaves the
installed one in force and raises an almanac package fault; an accepted one is installed with its serial and its
tests. ALM_RUN names a test and units that exist, or is discarded with detail 0x51; it waits for an idle block and for
the end of another run, and else leaves the FIFO and puts its first unit under test, or, when its pattern does not
read as it was installed, raises an almanac package fault. A result while a run is in progress, once the state of a
core under test is saved, is written and counted as a pass or a fail, a failed unit has an almanac fault, and the next
unit is tested; with no run in progress nothing changes. -/
def Obligations.TallyDeclareAndAlmanacRows : Prop :=
  (∀ s : State,
    (∀ w rest, headIs s 0x40 w rest → let b := hostRead s (cmdAddr w.toNat) 4096
      (tallyDescOk true b = true → exec (.declare .ok) s = .next { s with
        cmd := { s.cmd with fifo := rest }
        step := { s.step with jobs := s.step.jobs ++ [⟨true, cmdAddr w.toNat, s.step.opened.getD (2 ^ 32)⟩] } }) ∧
      (tallyDescOk true b = false → exec (.declare .ok) s =
        .next (raise 0x0E 0x40 uBlock 0 0 { s with cmd := { s.cmd with fifo := rest } }))) ∧
    (∀ w rest, headIs s 0x41 w rest → let b := hostRead s (cmdAddr w.toNat) 4096
      (anyOpOpen s = true ∨ forgesIdle s = false ∨ s.step.tallyBusy = true → ∀ rd, exec (.tally rd) s = .next s) ∧
      (anyOpOpen s = false → forgesIdle s = true → s.step.tallyBusy = false →
        (tallyDescOk false b = true → exec (.tally .ok) s = .next { s with
          cmd := { s.cmd with fifo := rest }
          step := { s.step with tallyBusy := true
                                jobs := s.step.jobs ++ [⟨false, cmdAddr w.toNat, s.step.opened.getD (2 ^ 32)⟩] } }) ∧
        (tallyDescOk false b = false → exec (.tally .ok) s =
          .next (raise 0x0E 0x41 uBlock 0 0 { s with cmd := { s.cmd with fifo := rest } })))) ∧
    (∀ w rest rd, rd ≠ .ok →
      let drop := fun (r : Res) => ∃ t, r = .next t ∧ t.cmd.fifo = rest ∧ t.step = s.step ∧
        tget 0 t.faultCnt 0x0E = satInc (tget 0 s.faultCnt 0x0E) 1
      (headIs s 0x40 w rest → drop (exec (.declare rd) s)) ∧
      (headIs s 0x41 w rest → anyOpOpen s = false → forgesIdle s = true → s.step.tallyBusy = false →
        drop (exec (.tally rd) s))) ∧
    (live s = true → ∀ rd,
      (s.step.jobs = [] → exec (.tallyComplete rd) s = .next s) ∧
      (∀ j rest, s.step.jobs = j :: rest →
        let b := hostRead s j.addr 4096
        let u := readsEnd rd s
        let v := tallyOfRegions u b
        (j.declare = true → exec (.tallyComplete rd) s = .next { u with step := { u.step with
          jobs := rest, tallyDone := u.step.tallyDone + 1, tallyVal := v
          tI := if s.step.opened = some j.step then u.step.tI ^^^ v else u.step.tI } }) ∧
        (j.declare = false → ∃ t, exec (.tallyComplete rd) s = .next t ∧ t.step.tallyVal = v ∧ t.step.tallyBusy = false ∧
          t.step.jobs = rest ∧ t.step.tallyDone = s.step.tallyDone + 1 ∧
          (tallyCheck b = true → v.toNat ≠ numAt b 8 8 → t.step.mismatch = true ∧ t.step.modeNext = s.step.modeNext ∧
            tget 0 t.faultCnt 0x15 = satInc (tget 0 s.faultCnt 0x15) 1) ∧
          (tallyCheck b = true → v.toNat = numAt b 8 8 → t.step.modeNext = setBit s.step.modeNext 7 ∧
            t.step.mismatch = s.step.mismatch) ∧
          (tallyCheck b = false → t.step.modeNext = s.step.modeNext ∧ t.step.mismatch = s.step.mismatch) ∧
          (tallyChain b = true → t.step.digest = slice b 16 32) ∧
          (tallyChain b = false → t.step.digest = s.step.digest))))) ∧
  (∀ s : State,
    (∀ w rest, headIs s 0x50 w rest → let t0 : State := { s with cmd := { s.cmd with fifo := rest } }
      let a := cmdAddr w.toNat
      ∀ rd, (∀ cause, almRefused (readsEnd rd t0) a rd = some cause → ∃ t, exec (.almLoad rd) s = .next t ∧ t.alm = s.alm ∧
        t.cmd = t0.cmd ∧ tget 0 t.faultCnt 0x19 = satInc (tget 0 s.faultCnt 0x19) 1) ∧
      (almRefused (readsEnd rd t0) a rd = none → ∃ t, exec (.almLoad rd) s = .next t ∧ t.alm.installed = true ∧ t.alm.pkg = a ∧
        t.alm.serial = BitVec.ofNat 32 (numAt (hostRead s a 64) 8 4) ∧ t.cmd = t0.cmd ∧
        t.alm.tests = (List.range (numAt (hostRead s a 64) 6 2)).map (almTestAt s a) ∧ t.alm.run = s.alm.run)) ∧
    (∀ w rest, headIs s 0x51 w rest → let t0 : State := { s with cmd := { s.cmd with fifo := rest } }
      (s.alm.tests[field w.toNat 15 8]? = none → exec .almRun s = .next (raise 0x0E 0x51 uBlock 0 0 t0)) ∧
      (∀ x, s.alm.tests[field w.toNat 15 8]? = some x →
        (field w.toNat 39 28 = 0 ∨ almUnits x.unitClass < field w.toNat 27 16 + field w.toNat 39 28 →
          exec .almRun s = .next (raise 0x0E 0x51 uBlock 0 0 t0)) ∧
        (field w.toNat 39 28 ≠ 0 → field w.toNat 27 16 + field w.toNat 39 28 ≤ almUnits x.unitClass →
          (s.alm.run ≠ none ∨ blockIdle s = false → exec .almRun s = .next s) ∧
          ((mapInForce s).any (fun m => !hingeIdle m s) = true → exec .almRun s = .next s) ∧
          (s.alm.run = none → (mapInForce s).all (fun m => hingeIdle m s) = true → blockIdle s = true →
            let now := tally (hostRead s (s.alm.pkg + x.offset) x.len) ((s.alm.pkg + x.offset) / 8)
            (now = x.patTally →
              exec .almRun s = .next (almNext x.unitClass (field w.toNat 15 8) (field w.toNat 39 28) (field w.toNat 27 16)
                { t0 with alm := { s.alm with results := 0 } })) ∧
            (now ≠ x.patTally → exec .almRun s = .next (almPackageFault 5 t0)))))) ∧
    (live s = true → ∀ how got,
      (s.alm.run = none → exec (.almTestResult how got) s = .next s) ∧
      (∀ r x, s.alm.run = some r → s.alm.tests[r.test]? = some x →
        (x.unitClass = 0 → (getCore s r.next).saving = true → exec (.almTestResult how got) s = .next s) ∧
        (x.unitClass ≠ 0 ∨ (getCore s r.next).saving = false → ∃ t u,
          exec (.almTestResult how got) s = .next t ∧ t = almNext x.unitClass r.test r.left (r.next + 1) u ∧
          t.alm.results = s.alm.results + 1 ∧
          (almOutcome x how got = 0 → t.alm.pass = s.alm.pass + 1 ∧ t.alm.fail = s.alm.fail ∧
            tget 0 t.faultCnt 0x18 = tget 0 s.faultCnt 0x18) ∧
          (almOutcome x how got ≠ 0 → t.alm.fail = s.alm.fail + 1 ∧ t.alm.pass = s.alm.pass ∧
            tget 0 t.faultCnt 0x18 = satInc (tget 0 s.faultCnt 0x18) 1))) ∧
      (∀ r, s.alm.run = some r → s.alm.tests[r.test]? = none →
        exec (.almTestResult how got) s = .next { s with alm := { s.alm with run := none } })))

/-- A window without a fault makes a transient or suspect unit clean and empties its history; it leaves a clean or a
permanent unit as it is. Sixty seconds after a unit's last record, held faults become one record with the next
sequence number, given to the parish book, or else the record time is forgotten; a unit without a record stays as it
is; a memory error of the steward raises IRQ_HALT. The first waiting exposure list is written to host memory once
ready is clear, and then ready is set. -/
def Obligations.StewardTimersAndLists : Prop :=
  ∀ (s : State) (u : Nat), live s = true → unitExists u = true → s.unitsWf = true →
    ((getUnit s u).status = 0 ∨ (getUnit s u).status = 3 → exec (.statusWindowExpire u) s = .next s) ∧
    ((getUnit s u).status = 1 ∨ (getUnit s u).status = 2 → ∃ t, exec (.statusWindowExpire u) s = .next t ∧
      (getUnit t u).status = 0 ∧ (getUnit t u).faults = []) ∧
    ((getUnit s u).lastRec = none → exec (.bookCoalesceTimer u false) s = .next s) ∧
    ((getUnit s u).lastRec ≠ none → (getUnit s u).heldN = 0 →
      exec (.bookCoalesceTimer u false) s = .next (setUnit s u { getUnit s u with lastRec := none })) ∧
    ((getUnit s u).lastRec ≠ none → 0 < (getUnit s u).heldN → ∃ t, exec (.bookCoalesceTimer u false) s = .next t ∧
      (let n := nextSeq s
       let v := setUnit n u { getUnit s u with
         lastRec := some (recordTime s), heldN := 0, heldFirst := (0, 0), heldMixed := false }
       t = bookWatch v (bookWrite (coalescedRecord n u (getUnit s u)) v)) ∧
      (u ≠ uSteward → (getUnit t u).heldN = 0 ∧ (getUnit t u).lastRec = some (recordTime s))) ∧
    (∃ t, exec (.bookCoalesceTimer u true) s = .next t ∧ t.boot.memErr = true ∧ irqHalt t = true) ∧
    (s.expose.waiting = [] → exec .exposureListWrite s = .next s) ∧
    (s.expose.ready = true → exec .exposureListWrite s = .next s) ∧
    (∀ x rest, s.expose.waiting = x :: rest → s.expose.ready = false → exec .exposureListWrite s = .next
      { postWrite .steward s.expose.base.toNat (exposureList s x).1 false s with expose := { s.expose with ready := true, truncated := (exposureList s x).2, waiting := rest } })

/-! ### Links -/

/-- Bring-up starts, with the link state cleared and state 1, exactly when the link is enabled and down, its PHY is ready,
both lanes are good and the gate is not fenced; LINK_ENABLE_SET and LINK_BRINGUP_START set what they say first.
LINK_DISABLE clears the enable bit and takes a link that trains, is up or has failed to state 0. LINK_RETRAIN sets the
refused bit in state 4, and in state 3 while an operation uses the link; else it takes state 3 down to a new bring-up;
in the other states it changes nothing. A lane failure, a lost PHY or a training timeout takes a link that trains (the
first two: or is up) to state 3 with its status bit and a link fault. Nothing changes beyond that. Taking a link down
with a status bit sets that bit and the new state, empties the replay buffer, the credits, the crier queue, the
sequence numbers and the flits of chunks being sent, keeps every retained chunk, every queued chunk and every waiting
notice, keeps of what the channels hold only whole frames, and counts one link fault; no other gate changes, and no
operation, when none has passed its deadline or has chunks that a rebuild passed over. -/
def Obligations.LinksComeUpAndGoDown : Prop :=
  (∀ (s : State) (g : Nat), live s = true → g < 96 →
    let st := (getGate s g).state
    exec (.linkEnableSet g) s = .next (startTraining g (modGate g (fun k => { k with enable := true }) s)) ∧
    exec (.linkBringupStart g) s = .next (startTraining g (modGate g (fun k => { k with
      phyRdy := true, laneFail0 := false, laneFail1 := false }) s)) ∧
    (let k := getGate s g;
      startTraining g s = if k.enable = true ∧ k.phyRdy = true ∧ k.laneFail0 = false ∧ k.laneFail1 = false ∧ k.state = 0 ∧
        fencedGate s g = false then setGate s g { clearLink k with state := 1 } else s) ∧
    (let t := modGate g (fun k => { k with enable := false }) s;
      s.unitsWf = true → exec (.linkDisable g) s = .next (if st = 1 ∨ st = 2 ∨ st = 3 then
        downExcludes g (modGate g (fun k => { clearLink k with state := 0 }) t) else t)) ∧
    (st = 4 ∨ (st = 3 ∧ linkInUse s g = true) → exec (.linkRetrain g) s =
      .next (modGate g (fun k => { k with bits := setBit k.bits lbRefused }) s)) ∧
    (st = 3 → linkInUse s g = false → exec (.linkRetrain g) s =
      .next (startTraining g (modGate g (fun k => { k with state := 0 }) s))) ∧
    (st ≠ 3 → st ≠ 4 → exec (.linkRetrain g) s = .next s) ∧
    (∀ l, let bit := if l = 0 then lbLane0 else lbLane1;
      let t := modGate g (fun k => { k with
        laneFail0 := k.laneFail0 || decide (l = 0), laneFail1 := k.laneFail1 || decide (l ≠ 0),
        bits := setBit k.bits bit }) s;
      s.unitsWf = true → exec (.laneFail g l) s = .next (if st = 1 ∨ st = 2 then linkDown g bit 3 t else t)) ∧
    (let t := modGate g (fun k => { k with phyRdy := false }) s;
      s.unitsWf = true → exec (.phyLost g) s = .next (if st = 1 ∨ st = 2 then linkDown g lbPhyLost 3 t else t)) ∧
    exec (.trainTimeout g) s = .next (if st = 1 then linkDown g lbTrain 3 s else s)) ∧
  (∀ (s : State) (g bit st : Nat), g < 96 → s.unitsWf = true → (∀ o ∈ s.ops, o.limit = 0 ∧ o.stale = []) →
    let k := getGate s g
    let t := linkDown g bit st s
    (getGate t g).state = st ∧ (getGate t g).bits = setBit k.bits bit ∧ (getGate t g).enable = k.enable ∧
    (getGate t g).replayBuf = [] ∧ (getGate t g).replays = [] ∧ (getGate t g).sendCred = [] ∧ (getGate t g).credPend = [] ∧
    (getGate t g).crierQ = [] ∧ (getGate t g).chunkQ = [] ∧ (getGate t g).expSeq = 0 ∧ (getGate t g).nextSeq = 0 ∧
    (getGate t g).noticeQ = k.noticeQ ∧ (getGate t g).sendQ = k.sendQ ∧
    (getGate t g).retained.map (fun r => r.bytes) = k.retained.map (fun r => r.bytes) ∧
    (tableWf [] k.rxBuf = true → ∀ v, tget [] (getGate t g).rxBuf v = keepWhole v (tget [] k.rxBuf v)) ∧
    (getGate t g).retryCount = k.retryCount ∧ (getGate t g).crcErr = k.crcErr ∧
    (∀ x, x ≠ g → getGate t x = getGate s x) ∧ t.ops = s.ops ∧ t.cores = s.cores ∧ t.roll = s.roll ∧ t.step = s.step ∧
    tget 0 t.faultCnt 0x03 = satInc (tget 0 s.faultCnt 0x03) 1)

/-- While the link does not train, TRAIN_FLIT changes nothing; a flit with a bad CRC is counted and starts the count of
good flits again; another version takes the link to state 4; a good TRAIN flit adds to that count, aligns the link at
64, and brings it up once both ends have sent state 2. On a link that neither trains nor is up FLIT_RECEIVE changes
nothing. On another the n-th beats of the two lanes pair, and a beat whose partner is more than 16 gate cycles behind
takes the link down; a flit goes where TRAIN_FLIT takes it while the link trains. On a link that is up, a bad CRC is
counted and asks for one nak; IDLE and TRAIN change nothing and an ACK acts as ACK_RECEIVE does; a sequenced flit is
accepted only with the next sequence number, on a channel of its type and with zero reserved bits, and else asks for
one nak; an accepted one advances the sequence number, adds its returned credits and enters the buffer of its channel
while there is room, a notice with a reserved code apart, which is a protocol fault. An uncorrectable error of the
receive buffer is a memory fault, and its flit is not accepted. -/
def Obligations.FlitsAreTakenInSequence : Prop :=
  ∀ (s : State) (g : Nat), live s = true → g < 96 → s.unitsWf = true →
    let k := getGate s g
    (k.state ≠ 1 → ∀ f, exec (.trainFlit g f) s = .next s) ∧
    (k.state = 1 → ∀ f, flitGood f = false →
      exec (.trainFlit g f) s = .next (setGate s g { k with crcErr := satInc k.crcErr 1, trainGood := 0 })) ∧
    (k.state = 1 → ∀ f, flitGood f = true → numAt f 0 4 % 16 = 2 →
      let p := flitPayload f
      (numAt p 28 1 ≠ 0x5A → exec (.trainFlit g f) s = .next (setGate s g { k with trainGood := 0 })) ∧
      (numAt p 28 1 = 0x5A → numAt p 0 4 ≠ 0x53564C58 ∨ numAt p 4 4 ≠ 0x00030001 →
        exec (.trainFlit g f) s = .next (linkDown g lbVersion 4 s)) ∧
      (numAt p 28 1 = 0x5A → numAt p 0 4 = 0x53564C58 → numAt p 4 4 = 0x00030001 → ∃ t, exec (.trainFlit g f) s = .next t ∧
        (getGate t g).trainGood = k.trainGood + 1 ∧
        (getGate t g).aligned = (k.aligned || decide (64 ≤ k.trainGood + 1)) ∧
        (getGate t g).peerCredits = (List.range 8).map (fun i => numAt p (32 + 2 * i) 2) ∧
        (getGate t g).state = (if (k.aligned || decide (64 ≤ k.trainGood + 1)) = true ∧ k.sent2 = true ∧ numAt p 13 1 = 2
          then 2 else 1))) ∧
    (k.state = 1 → ∀ f, flitGood f = true → numAt f 0 4 % 16 ≠ 2 → exec (.trainFlit g f) s = .next s) ∧
    (k.state ≠ 1 → k.state ≠ 2 → ∀ a b e, exec (.flitReceive g a b e) s = .next s) ∧
    (k.rx0 = [] → k.rx1 = [] → k.rxAges = [] → ∀ x y e,
      (k.state = 1 → exec (.flitReceive g (some x) (some y) e) s = exec (.trainFlit g (x ++ y)) s) ∧
      (k.state = 2 → exec (.flitReceive g (some x) (some y) e) s = .next (rxFlit g (x ++ y) e s))) ∧
    (k.state = 1 ∨ k.state = 2 → ∀ a b e,
      let q0 := k.rx0 ++ a.toList
      let q1 := k.rx1 ++ b.toList
      let ages := k.rxAges.map (fun n => n + 1) ++ List.replicate (max q0.length q1.length - k.rxAges.length) 0
      exec (.flitReceive g a b e) s = .next (
        if ages.any (fun n => decide (16 < n)) then linkDown g lbDeskew 3 (setGate s g { k with rx0 := q0, rx1 := q1 })
        else match q0, q1 with
          | x :: xs, y :: ys =>
            let t := setGate s g { k with rx0 := xs, rx1 := ys, rxAges := ages.drop 1 }
            if k.state = 1 then trainRx g (x ++ y) t else rxFlit g (x ++ y) e t
          | xs, ys => setGate s g { k with rx0 := xs, rx1 := ys, rxAges := ages })) ∧
    (∀ f e, flitGood f = false → rxFlit g f e s = setGate s g { k with
      crcErr := satInc k.crcErr 1, nak := true, nakDue := k.nakDue || !k.nak }) ∧
    (∀ f, flitGood f = true →
      let h := numAt f 0 4
      let ok : Prop := bitOf h 7 = false ∧ field h 31 29 = 0 ∧ typeOnVc (h % 16) (field h 6 4) = true ∧ field h 19 8 = k.expSeq
      (h % 16 = 0 ∨ h % 16 = 2 → ∀ e, rxFlit g f e s = s) ∧
      (h % 16 = 1 → k.state = 2 → ∀ e, exec (.ackReceive g (numAt (flitPayload f) 0 2 % 4096)
        (bitOf (numAt (flitPayload f) 0 2) 15)) s = .next (rxFlit g f e s)) ∧
      (2 < h % 16 → rxFlit g f true s =
        rxDiscard g (raise 0x01 6 (uGate g) 0 0 (setGate s g { k with crcErr := satInc k.crcErr 1 }))) ∧
      (2 < h % 16 → let p := flitPayload f
        let u := setGate s g { k with
          nak := false, expSeq := (k.expSeq + 1) % 4096, accepted := true, ackSince := true
          sendCred := tmod 0 k.sendCred (field h 22 20) (· + field h 28 23) }
      (¬ ok → rxFlit g f false s = setGate s g { k with nak := true, nakDue := k.nakDue || !k.nak }) ∧
      (ok → h % 16 ≠ 3 → h % 16 ≠ 7 → (tget [] k.rxBuf (field h 6 4)).length < vcSize (field h 6 4) →
        rxFlit g f false s = setGate s g { k with
          nak := false, expSeq := (k.expSeq + 1) % 4096, accepted := true, ackSince := true,
          sendCred := tmod 0 k.sendCred (field h 22 20) (· + field h 28 23),
          rxBuf := tmod [] k.rxBuf (field h 6 4) (· ++ [natLe 1 (h % 16) ++ p]) }) ∧
      (ok → h % 16 = 3 → rxFlit g f false s = u) ∧
      (ok → h % 16 = 7 → (tget [] k.rxBuf 1).length < vcSize 1 → rxFlit g f false s =
        if 1 ≤ noticeCode p ∧ noticeCode p ≤ 8 then modGate g (fun k => { k with rxBuf := tmod [] k.rxBuf 1 (· ++ [7#8 :: p]) }) u
        else gateFault 0x0C (noticeCode p % 256) g (noticeHdr p) (noticeHdr p).member 0
          (modGate g (fun k => { k with credPend := tmod 0 k.credPend 1 (· + 1) }) u)) ∧
      (ok → h % 16 ≠ 3 → vcSize (field h 6 4) ≤ (tget [] k.rxBuf (field h 6 4)).length →
        rxFlit g f false s = linkDown g lbCredit 3 u)))

/-- On a link that is not up, ACK_RECEIVE, ACK_SEND, CREDIT_FLIT_SEND and REPLAY_TIMEOUT change nothing. An ACK that names
one of the flits in the replay buffer releases the flits up to it and clears the count of consecutive replays, and any
other releases nothing; with nak, the flits that are left are replayed. A replay timeout with flits outstanding
replays them all and is counted; at the limit the link goes down. ACK_SEND and CREDIT_FLIT_SEND mark an
acknowledgement or a credit flit as due. GATE_TXTAKE moves the lanes on; a slot that is then empty carries a TRAIN
flit while the link trains and, on a link that is up, first an acknowledgement that is due, else a replay; a new
sequenced flit takes the next number and a place in the replay buffer; on another link no flit is formed. A green flit
with good parity changes nothing; one with bad parity is a fault of class 0x02, halts a core with 0x22, tears what a
gate was receiving, and loses the request of a well; at a unit without a green port the row faults. -/
def Obligations.SentFlitsAreAcknowledgedOrReplayed : Prop :=
  ∀ (s : State) (g : Nat), live s = true → g < 96 → s.unitsWf = true →
    let k := getGate s g
    (k.state ≠ 2 → exec (.ackSend g) s = .next s ∧ exec (.creditFlitSend g) s = .next s ∧ exec (.replayTimeout g) s = .next s ∧
      ∀ a n, exec (.ackReceive g a n) s = .next s) ∧
    (k.state = 2 → ∀ a,
      (k.replayBuf = [] → exec (.ackReceive g a false) s = .next s) ∧
      (∀ q f rest, k.replayBuf = (q, f) :: rest →
        let rel := (a % 4096 + 4097 - q) % 4096
        (0 < rel → rel ≤ rest.length + 1 → exec (.ackReceive g a false) s = .next (setGate s g { k with
          replayBuf := k.replayBuf.drop rel, consec := 0,
          replays := k.replays.drop (k.replays.length - (rest.length + 1 - rel)) })) ∧
        (rel = 0 ∨ rest.length + 1 < rel → exec (.ackReceive g a false) s = .next s)) ∧
      (∀ t, exec (.ackReceive g a false) s = .next t → exec (.ackReceive g a true) s = .next (replayAll g t))) ∧
    (k.state = 2 → exec (.replayTimeout g) s = .next (replayAll g s)) ∧
    replayAll g s = (if k.replayBuf = [] then s else
      let t := setGate s g { k with
        replays := k.replayBuf.map (fun x => x.2), retryCount := k.retryCount + 1, consec := k.consec + 1 }
      if k.limit ≤ k.consec + 1 then linkDown g lbRetry 3 t else t) ∧
    (k.state = 2 → exec (.ackSend g) s =
      .next (setGate s g (if k.ackSince then { k with ackDue := true, ackSince := false } else k))) ∧
    (k.state = 2 → exec (.creditFlitSend g) s =
      .next (setGate s g (if k.credPend.any (fun c => decide (0 < c.2)) then { k with creditDue := true } else k))) ∧
    (∀ a b, let m := takeBeats a b k;
      (m.txLead.1 < m.txWin.length → m.txLead.2 < m.txWin.length → exec (.gateTxtake g a b) s =
        .next (setGate s g (offerBeats m))) ∧
      (k.state ≠ 1 → k.state ≠ 2 → exec (.gateTxtake g a b) s = .next (setGate s g (offerBeats m))) ∧
      (k.state = 2 → m.txWin.length ≤ max m.txLead.1 m.txLead.2 → exec (.gateTxtake g a b) s = .next (setGate s g
        (offerBeats { (pickFlit m).2 with txWin := (pickFlit m).2.txWin ++ [(pickFlit m).1] })))) ∧
    (∀ a b, let m := takeBeats a b k
      k.state = 1 → m.txWin.length ≤ max m.txLead.1 m.txLead.2 → exec (.gateTxtake g a b) s = .next (setGate s g
        (offerBeats { linkIsUp { m with sent2 := m.sent2 || decide (m.trainState = 2) } with
          txWin := m.txWin ++ [flitBytes 2 (trainPayload s g)] }))) ∧
    (k.ackDue = true ∨ k.nakDue = true → pickFlit k = (flitBytes 1 (natLe 2 ((k.expSeq + 4095) % 4096 +
      (if k.nakDue then 2 ^ 15 else 0))), { k with ackDue := false, nakDue := false, ackSince := false })) ∧
    (k.ackDue = false → k.nakDue = false → ∀ f fs, k.replays = f :: fs → pickFlit k = (f, { k with replays := fs })) ∧
    (∀ ty vc p, (newFlit ty vc p k).2.nextSeq = (k.nextSeq + 1) % 4096 ∧
      (newFlit ty vc p k).2.replayBuf = k.replayBuf ++ [(k.nextSeq, (newFlit ty vc p k).1)]) ∧
    (∀ u, greenUnit u = true → exec (.greenFlitReceive u true) s = .next s ∧
      (let r := raise 0x02 0 u 0 0 s
       exec (.greenFlitReceive u false) s = .next (
        if u < 0x1000 then modCore u (fun k => { haltCore k.pc 0x22 eNone k with torn := true }) r
        else if u < 0x2000 then tearGreen (u - 0x1000) r
        else loseRequest (u - 0x2000) r))) ∧
    (∀ u p, greenUnit u = false → exec (.greenFlitReceive u p) s = .fault .noSuchUnit)

/-! ### Rolls -/

/-- Without a charter ROLL_LOAD changes nothing; while an operation is open or a confirmation runs it is refused and only
sets the refused bit. Else, however its reads end, the directory in force becomes the groups that pass every check,
each under a number below 4,096 that no other has and with a valid record, the route table becomes the entries whose
gate has an up link or that name none, a failing group sets load_err and, as the first since it was clear, its group
and reason, and beyond the roll registers only the records of faults change. -/
def Obligations.RollLoadReplacesTheDirectory : Prop :=
  ∀ s : State, live s = true →
    (s.charter = none → ∀ rd, exec (.rollLoad rd) s = .next s) ∧
    (∀ c, s.charter = some c → anyOpOpen s = true ∨ s.roll.confirming ≠ [] → ∀ rd,
      exec (.rollLoad rd) s = .next { s with roll := { s.roll with refused := true } }) ∧
    (∀ c, s.charter = some c → anyOpOpen s = false → s.roll.confirming = [] →
      ∀ rd, let u := readsEnd rd s
      let l := (List.range 4096).foldl (loadGroup u c) ⟨[], 0, [], []⟩
      let es := (hostRead u c.mktRoute 32768).map (fun b : Byte =>
        if b.toNat = 0x7F then some b else if b.toNat < 96 && linkUp s b.toNat then some b else none)
      (∀ g ∈ l.groups, g.id < 4096 ∧ dirOk g.id (hostRead u (c.rollDir + 64 * g.id) 64)
        (dirRec (hostRead u (c.rollDir + 64 * g.id) 64)) = true) ∧
      (l.groups.map (fun g => g.id)).Nodup ∧ l.entries ≤ 32768 ∧
      ∃ t, exec (.rollLoad rd) s = .next t ∧ reported { s with roll := t.roll } t ∧
        t.roll.loaded = true ∧ t.roll.groups = l.groups ∧ t.roll.hmax = l.hmax ∧
        t.roll.route = es.map (fun e => e.getD 0x7F) ∧ t.roll.loadErr = (s.roll.loadErr || !l.errs.isEmpty) ∧
        (∀ e rest, s.roll.loadErr = false → l.errs = e :: rest → t.roll.errGroup = e.1 ∧ t.roll.errReason = e.2) ∧
        (s.roll.loadErr = true ∨ l.errs = [] →
          t.roll.errGroup = s.roll.errGroup ∧ t.roll.errReason = s.roll.errReason))

/-! ### Chunks -/

/-- The first queued chunk of the channel that has a retention slot, its grant and a link that is up starts; with none
that may, nothing changes. A chunk sent for the first time leaves the queue, is marked latched when it has not bolted
here, is retained until its CACKs cover it, in the slot of an earlier copy where there is one, and its flits join
those of its channel (or it crosses the green); no other gate changes. An uncorrectable word of the granary or the
retention buffer is a memory fault, and the chunk leaves stomped and is retained so; one of the granary rebuilds the
cell. -/
def Obligations.ChunksLeaveInQueueOrder : Prop :=
  ∀ (s : State) (g vc : Nat), live s = true → g < 96 → s.unitsWf = true →
    let k := getGate s g
    ((∀ x ∈ k.sendQ, x.vc = vc → maySend s g x = false) → ∀ err, exec (.chunkSend g vc err) s = .next s) ∧
    (∀ a i b, k.sendQ = a ++ i :: b → (∀ x ∈ a, x.vc = vc → maySend s g x = false) → i.vc = vc → maySend s g i = true →
      (∀ err, exec (.chunkSend g vc err) s = .next (startItem g err i (a ++ b) s)) ∧
      let w := chunkSetFlag i.bytes cfLatched (unbolted s i)
      (i.resend = false → (i.firstHop = true → vc ≠ 7 → ∀ o, findOp s (hdrName (hdrOf w)) = some o → o.closed = []) → ∀ err,
        let bad := decide (err = some .retention ∨ err = some .granary)
        let wire := if bad then chunkStomp w else w
        let kept : Retained := { bytes := w, mask := i.mask, excluded := i.excluded, vc := vc, green := i.green, cell := i.cell
                                 firstHop := i.firstHop, unsent := false, acked := [], reabsorbed := [], heldNotices := []
                                 latched := unbolted s i, gone := i.green, stomped := bad }
        let slots := if holdsSlot i k then replaceFirst (sameCopy i) (fun _ => kept) k.retained else k.retained ++ [kept]
        let t := setGate s g (if i.green then
            { k with sendQ := a ++ b, retained := slots, greenIn := k.greenIn ++ [⟨wire, 0⟩] }
          else { k with
            sendQ := a ++ b, retained := slots, chunkQ := tmod [] k.chunkQ vc (· ++ chunkFlits wire i.mask i.excluded) })
        let u := sendFaults g (hdrOf w) err (match i.cell with
          | some j => modCell (hdrName (hdrOf w)) j (fun c => { c with phase := .sent }) t
          | none => t)
        exec (.chunkSend g vc err) s = .next (match err, i.cell with
          | some .granary, some j => rebuildCell (hdrName (hdrOf w)) j Config.granaryReason u
          | _, _ => u))) ∧
    (∀ h x, sendFaults g h none x = x ∧
      sendFaults g h (some .granary) x = raise 0x01 4 (uGate g) (chunkInfo h.group h.seq h.index) 0 x ∧
      sendFaults g h (some .retention) x = raise 0x14 1 (uGate g) (chunkInfo h.group h.seq h.index) h.member
        (raise 0x01 5 (uGate g) (chunkInfo h.group h.seq h.index) 0 x))

/-- A channel below 2, one with no whole chunk, or one on which a chunk waits for its mask frame changes nothing, nor does
a broadcast chunk that still has to wait. A whole chunk frees the credits of its flits and goes where its channel
says; one whose header announces a mask frame waits for it, and goes on with the frame's exclusions when it is good
and as a seal failure when it is not. A chunk handed across the green goes to the adder. An uncorrectable word of the
gate's memories is a memory fault before the chunk goes on, or rebuilds its cells after it. A reduction chunk of a
group that is not loaded is a protocol fault; one of an open operation and a listed sender fails by its seal, its
form, its kind or its mass in that order, and else is held, unless a rebuild has passed it over. -/
def Obligations.ChunksArriveWhole : Prop :=
  ∀ (s : State) (g vc : Nat), live s = true → g < 96 → s.unitsWf = true →
    let k := getGate s g
    (vc < 2 → ∀ err, exec (.chunkReceive g (.link vc) err) s = .next s) ∧
    ((k.maskWait.any (fun w => w.1 == vc)) = true ∨ nextFrame (tget [] k.rxBuf vc) = none → ∀ err,
      exec (.chunkReceive g (.link vc) err) s = .next s) ∧
    (2 ≤ vc → (k.maskWait.any (fun w => w.1 == vc)) = false → ∀ n fs, nextFrame (tget [] k.rxBuf vc) = some (n, fs) →
      let b := fit 0 4144 (fs.flatMap (fun f => f.drop 1))
      let k' := { k with
        rxBuf := tmod [] k.rxBuf vc (·.drop (n + fs.length)), credPend := tmod 0 k.credPend vc (· + (n + fs.length)) }
      let h := hdrOf b
      ∀ err, (vc = 6 → bcastWaits s g h = true → exec (.chunkReceive g (.link vc) err) s = .next s) ∧
      (vc ≠ 6 ∨ bcastWaits s g h = false →
        (bitOf h.flags cfMask = false → exec (.chunkReceive g (.link vc) err) s =
          .next (granaryErr g h err (chunkArrives g vc b [] 0 true (arriveErr h err (setGate s g k'))))) ∧
        (bitOf h.flags cfMask = true → exec (.chunkReceive g (.link vc) err) s =
          .next (modGate g (fun k => { k with maskWait := k.maskWait ++ [(vc, b)] }) (arriveErr h err (setGate s g k')))))) ∧
    (k.greenIn = [] → ∀ err, exec (.chunkReceive g .green err) s = .next s) ∧
    (∀ c rest err, k.greenIn = c :: rest → exec (.chunkReceive g .green err) s =
      .next (granaryErr g (hdrOf c.bytes) err (inputArrives g (redVc (hdrOf c.bytes).group) c.bytes [] 0 true
        (arriveErr (hdrOf c.bytes) err (setGate s g { k with greenIn := rest }))))) ∧
    (∀ h x, granaryErr g h none x = x ∧ arriveErr h none x = x ∧ arriveErr h (some .granary) x = x ∧
      arriveErr h (some (.cache true)) x = raise 0x01 7 uSteward (chunkInfo h.group h.seq h.index) 0 x ∧
      (∀ gr o, grpOf x h.group = some gr → findOp x (hdrName h) = some o → granaryErr g h (some .granary) x =
        ((cellsOf gr h.base h.count).filter (fun j => (o.cell j).isSome)).foldl
          (fun y j => rebuildCell (hdrName h) j Config.granaryReason y)
          (raise 0x01 4 (uGate g) (chunkInfo h.group h.seq h.index) 0 x))) ∧
    (k.maskWait.find? (fun w => w.1 == vc) = none ∨ tget [] k.rxBuf vc = [] → exec (.maskFrameReceive g vc) s = .next s) ∧
    (∀ v b f fs, k.maskWait.find? (fun w => w.1 == vc) = some (v, b) → tget [] k.rxBuf vc = f :: fs →
      let ms := (f :: fs).takeWhile (fun x => decide (numAt x 0 1 = 8))
      let frame := (ms.take (maskLen f)).flatMap (fun x => x.drop 1)
      (ms = [] → exec (.maskFrameReceive g vc) s = .next (maskDone g vc 0 b none s)) ∧
      (ms ≠ [] → maskLen f ≤ ms.length → ∀ es x, maskParse frame = some (es, x) → exec (.maskFrameReceive g vc) s =
        .next (chunkArrives g vc b es x true (popRx g vc (maskLen f)
          (setGate s g { k with maskWait := k.maskWait.filter (fun w => w.1 != vc) })))) ∧
      (ms ≠ [] → maskLen f ≤ ms.length → maskParse frame = none → exec (.maskFrameReceive g vc) s =
        .next (chunkArrives g vc b [] 0 false (popRx g vc (maskLen f)
          (setGate s g { k with maskWait := k.maskWait.filter (fun w => w.1 != vc) })))) ∧
      (ms ≠ [] → ms.length < maskLen f → (ms.length < (f :: fs).length ∨ 65 < maskLen f) →
        exec (.maskFrameReceive g vc) s = .next (maskDone g vc ms.length b none s)) ∧
      (ms ≠ [] → ms.length < maskLen f → ms.length = (f :: fs).length → maskLen f ≤ 65 →
        exec (.maskFrameReceive g vc) s = .next s)) ∧
    (∀ v b m x ok, grpOf s (hdrOf b).group = none →
      inputArrives g v b m x ok s = gateFault 0x0C 4 g (hdrOf b) (hdrOf b).member 0 s) ∧
    (∀ v b m x ok gr o j js pos, let h := hdrOf b
      let nm := hdrName h
      grpOf s h.group = some gr → findOp s nm = some o → o.registered = true → opOpen s o = true →
      (cellsOf gr h.base h.count).filter (fun j => (o.cell j).isSome) = j :: js → sibPos s gr o.n j h.member = some pos →
      (∀ i ∈ j :: js, ∀ c, o.cell i = some c → pos ∉ c.excl) →
      ((h.member, h.base, h.count) ∈ o.stale → inputArrives g v b m x ok s =
        modOp nm (fun o => { o with stale := o.stale.erase (h.member, h.base, h.count) }) s) ∧
      ((h.member, h.base, h.count) ∉ o.stale →
      inputArrives g v b m x ok s =
        if sealGood b = false ∨ ok = false then inputSealFailure nm g pos (j :: js) b s
        else if malformed v b = true then inputInconsistent nm g pos (j :: js) h 6 s
        else if kindAccepted gr o.n j pos h.kind = false ∨ consistent b = false then inputInconsistent nm g pos (j :: js) h 5 s
        else if massGood b = false then inputMassFailure nm g pos (j :: js) b s
        else holdInput nm g pos (j :: js) b m x (if gr.cls = 2 then s else
          plausible (uGate (adderGate gr o.n j)) h ((decodeVals b).map (fun y => y.2)) s)))

/-- A cell that is not there, whose output is not built, that has bolted, or one of whose inputs has not bolted changes
nothing, and so does a broadcast chunk that is not confirmed and a market chunk that is absent, not confirmed or not
good. A settled cell at its root without quorum fails its group with reason 1, whether or not its second path has
agreed; without that agreement any other changes nothing. With it the cell bolts: its tallies enter C and K of the
step, which an evaluation operation leaves alone, its BOLT follows the copy sent to the parent, its inputs are
acknowledged, and at the root it is delivered; no fault is raised below the root. A forwarded market chunk leaves its
gate, and its BOLT follows the copy; a counts chunk goes to the stall gate; a chunk of rows for a context without a
record is a protocol fault, and else waits for its market operation or has its rows written. -/
def Obligations.ChunksBoltOnce : Prop :=
  ∀ s : State, live s = true →
    (∀ nm j, findOp s nm = none → exec (.chunkBolt (.cell nm j)) s = .next s) ∧
    (∀ nm j o g c, findOp s nm = some o → grpOf s nm.group = some g → o.cell j = some c →
      let root := isRoot g o.n j
      let quorum := g.members.length * (s.charter.map (fun c => c.quorum)).getD 0 < (g.members.length - c.outExcluded) * 256
      (cellSettled o c = false → exec (.chunkBolt (.cell nm j)) s = .next s) ∧
      (cellSettled o c = true → root = true → ¬ quorum →
        exec (.chunkBolt (.cell nm j)) s = .next (failGroup nm 1 (some (cellFail g o.n j c.outExcluded 1)) none s)) ∧
      (cellSettled o c = true → (root = false ∨ quorum) → shadowPassed s g o c = false →
        exec (.chunkBolt (.cell nm j)) s = .next s) ∧
      (cellSettled o c = true → (root = false ∨ quorum) → shadowPassed s g o c = true →
        let h := hdrOf c.out
        let a := boltModes c.out c.outMask (tallyChunk c.out c.outMask c.outExcluded
          (modCell nm j (fun c => { c with bolted := true }) s))
        let d := match cellParent g o.n j with
          | some p => boltSent p.1 h a
          | none => a
        let e := (o.arrived.filter (fun x => x.added.contains j)).foldl (cackInput g o.n j) d
        let f := if root = true then rootDeliver g nm c (c.outMask.foldl (closeEntry nm g h c.outExcluded) e) else e
        exec (.chunkBolt (.cell nm j)) s = .next (tensorDigest nm (modOp nm (pruneInputs g) f))) ∧
      (cellSettled o c = true → shadowPassed s g o c = true → root = false → ∃ t, exec (.chunkBolt (.cell nm j)) s = .next t ∧
        (∃ o', findOp t nm = some o' ∧ (o'.cell j).map (fun c => c.bolted) = some true ∧ o'.failed = o.failed) ∧
        (2 ^ 31 ≤ (hdrOf c.out).step → t.step.tC = s.step.tC ∧ t.step.tK = s.step.tK) ∧
        ((hdrOf c.out).step < 2 ^ 31 → t.step.tC = s.step.tC ^^^ tallyC c.out ∧
          t.step.tK = s.step.tK ^^^ tallyK c.out c.outMask c.outExcluded) ∧
        t.faultCnt = s.faultCnt ∧ t.cores = s.cores ∧ t.bell = s.bell)) ∧
    (∀ nm j o, findOp s nm = some o → o.cell j = none → exec (.chunkBolt (.cell nm j)) s = .next s) ∧
    (∀ nm i o, findOp s nm = some o →
      o.bc.find? (fun c => decide ((hdrOf c.bytes).index = i) && c.confirmed && !c.bolted) = none →
      exec (.chunkBolt (.bcast nm i)) s = .next s) ∧
    (∀ nm i o g c, findOp s nm = some o → grpOf s nm.group = some g →
      o.bc.find? (fun c => decide ((hdrOf c.bytes).index = i) && c.confirmed && !c.bolted) = some c → ∃ t,
      exec (.chunkBolt (.bcast nm i)) s = .next t ∧ ((hdrOf c.bytes).step < 2 ^ 31 →
        t.step.tC = s.step.tC ^^^ tallyC c.bytes ∧ t.step.tK = s.step.tK ^^^ tallyK c.bytes c.mask c.excluded)) ∧
    (∀ g i, g < 96 → (getGate s g).mkt[i]? = none → exec (.chunkBolt (.market g i)) s = .next s) ∧
    (∀ g i c, g < 96 → (getGate s g).mkt[i]? = some c →
      (c.confirmed = false ∨ c.sealOk = false → exec (.chunkBolt (.market g i)) s = .next s) ∧
      (c.confirmed = true → c.sealOk = true → ∀ o, c.forwardTo = some o →
        exec (.chunkBolt (.market g i)) s = .next (boltSent o (hdrOf c.bytes) (mktBoltMarks g c s))) ∧
      (c.confirmed = true → c.sealOk = true → c.forwardTo = none →
        let h := hdrOf c.bytes
        let x := getCtx s (mopOf h.seq).ctx
        (h.kind = kCounts → exec (.chunkBolt (.market g i)) s = .next (pushFrame ⟨h.member, c.fromGate, true,
          (payloadOf c.bytes).take (8 + 8 * h.count)⟩ (mktBoltMarks g c s))) ∧
        (h.kind ≠ kCounts → x.record = none → exec (.chunkBolt (.market g i)) s =
          .next (gateFault 0x0C 4 g h h.member 0 (modGate g (fun k => { k with mkt := k.mkt.erase c }) s))) ∧
        (∀ r, h.kind ≠ kCounts → x.record = some r →
          let waits := turnOf s (mopOf h.seq) h.step = .wait ∨ ((mopOf h.seq).dir = 0 ∧ x.posting = true ∧ x.allocated = false)
          (waits → exec (.chunkBolt (.market g i)) s = .next s) ∧
          (¬ waits → exec (.chunkBolt (.market g i)) s =
            .next (tokenBolts r (mopOf h.seq) c.bytes (mktBoltMarks g c s))))))

/-- A gate takes a notice only when it is the next one on its link or across the green and has the code asked for; else
nothing changes. One for a group that is not loaded, or a CLOSE or an ASK of a group without this member, is discarded
as a protocol fault of its code. A CACK adds its range to those of the retained chunk it names, and the gate keeps
only what is not covered. A GRANT lets the queued chunks of its range go and, at a parent in the tree, requests the
cell. A RESEND queues the retained copy again, once, and nothing of a failed operation or a closed range. A BOLT whose
seal is that of a held input or broadcast copy confirms it; another seal is a protocol fault and, before the copy has
bolted, a seal failure. A REVOKE of what has bolted is a protocol fault; of an input it rebuilds the cells, of a
broadcast copy it discards the copy and asks again. An ASK joins those of its operation, or waits for it to open. A
CLOSE of outcome 1, 2 or 4 fails its group with reason 1, 2 or 3; one of outcome 0 that names this member closes its
range. -/
def Obligations.NoticesAreTakenInTurn : Prop :=
  ∀ (s : State) (g : Nat) (via : Via), live s = true → g < 96 →
    let rows : List (Nat × Instr) := [(1, .boltNotice g via), (2, .revokeNotice g via), (3, .resendNotice g via),
      (4, .closeNotice g via), (5, .cackNotice g via), (6, .askNotice g via), (7, .grantNotice g via)]
    (headNotice s g via = none → ∀ r ∈ rows, exec r.2 s = .next s) ∧
    (∀ n, headNotice s g via = some n →
      let t := popNotice g via s
      let h := noticeHdr n
      let nm := hdrName h
      let green := viaGreen via
      let same := fun (b : Bytes) => sameChunk (hdrOf b) h
      let sl : U64 := BitVec.ofNat 64 (numAt n 28 8)
      (∀ r ∈ rows, noticeCode n ≠ r.1 → exec r.2 s = .next s) ∧
      (grpOf s h.group = none → ∀ r ∈ rows, noticeCode n = r.1 → exec r.2 s = .next (gateFault 0x0C r.1 g h h.member 0 t)) ∧
      (myGrp s h.group = none →
        (noticeCode n = 4 → exec (.closeNotice g via) s = .next (gateFault 0x0C 4 g h h.member 0 t)) ∧
        (noticeCode n = 6 → exec (.askNotice g via) s = .next (gateFault 0x0C 6 g h h.member 0 t))) ∧
      (∀ gr, grpOf s h.group = some gr →
        (noticeCode n = 5 →
          let mine := fun (r : Retained) => (r.green == green) && (let c := hdrOf r.bytes
            decide (hdrName c = nm ∧ c.member = h.member ∧ c.base ≤ h.base ∧ h.base + h.count ≤ c.base + c.count))
          let more := fun (r : Retained) => { r with acked := r.acked ++ [(h.base, h.count)] }
          exec (.cackNotice g via) s = .next (releaseGate g (modGate g (fun k => { k with
            retained := replaceFirst mine more k.retained }) t))) ∧
        (noticeCode n = 7 →
          let mine := fun (i : SendItem) => (i.green == green) && (let c := hdrOf i.bytes
            decide (hdrName c = nm ∧ c.base = h.base ∧ c.count = h.count))
          let go := fun (i : SendItem) => { i with granted := true }
          let u := modGate g (fun k => { k with sendQ := mapWhere mine go k.sendQ }) (noticeOpens nm t)
          (findOp u nm = none → exec (.grantNotice g via) s = .next u) ∧
          (∀ o, findOp u nm = some o → let j := h.base / cellLen gr
            (green = true ∨ cellChildren gr o.n j = [] → exec (.grantNotice g via) s = .next u) ∧
            (green = false → cellChildren gr o.n j ≠ [] → exec (.grantNotice g via) s = .next
              (modCell nm j (fun c => { c with requested := true })
                (modOp nm (fun o => { o with parentGranted := dedup (o.parentGranted ++ [j]) }) u))))) ∧
        (noticeCode n = 3 →
          let shut := (findOp s nm).any (fun o => o.failed || closedHere o h.base h.count)
          let kept := (getGate t g).retained.find? (fun r => same r.bytes && (r.green == green) && !r.unsent &&
            !(r.stomped && (r.cell.isSome || decide (r.vc = 6))))
          let again := (getGate t g).sendQ.any (fun i => i.resend && (i.green == green) && same i.bytes)
          (shut = true ∨ (kept ≠ none ∧ again = true) ∨ (kept = none ∧ findOp s nm = none) →
            exec (.resendNotice g via) s = .next t) ∧
          (∀ r, shut = false → kept = some r → again = false → exec (.resendNotice g via) s = .next (enqueueItem g
            { bytes := r.bytes, mask := r.mask, excluded := r.excluded, vc := r.vc, green := r.green, firstHop := r.firstHop
              needGrant := false, granted := true, cell := r.cell, poisoned := false, resend := true } t))) ∧
        (noticeCode n = 1 → namesMarket t g n = true → exec (.boltNotice g via) s = .next (mktBoltArrives g n t)) ∧
        (noticeCode n = 2 → namesMarket t g n = true → exec (.revokeNotice g via) s = .next (mktRevokeArrives g n t)) ∧
        (∀ o, findOp s nm = some o → namesMarket t g n = false → o.failed = false →
          let cells := (cellsOf gr h.base h.count).filter (fun j => (o.cell j).isSome)
          let cast := o.bc.find? (fun c => decide (c.fromGate = g) && same c.bytes)
          let input := o.arrived.find? (fun x => decide (x.gate = g ∧ x.pos ≠ 0) && same x.bytes)
          (noticeCode n = 1 →
            let wrong := gateFault 0x0C nBolt g h h.member 0 t
            (∀ c, cast = some c →
              let it := fun (x : BcChunk) => same x.bytes
              let confirm := fun (x : BcChunk) => { x with confirmed := true }
              (sealOf c.bytes = sl → c.bolted = false → exec (.boltNotice g via) s =
                .next (modOp nm (fun o => { o with bc := mapWhere it confirm o.bc }) t)) ∧
              (sealOf c.bytes ≠ sl → c.bolted = false → exec (.boltNotice g via) s = .next (bcastDiscard g h 0
                (gateFault 0x04 0 g h h.member 0 (gateFault 0x0C nBolt g h h.member 0
                  (modGate g (fun k => { k with sealErr := satInc k.sealErr 1 }) t))))) ∧
              (sealOf c.bytes = sl → c.bolted = true → exec (.boltNotice g via) s = .next t) ∧
              (sealOf c.bytes ≠ sl → c.bolted = true → exec (.boltNotice g via) s = .next wrong)) ∧
            (∀ x, cast = none → input = some x → x.held = true →
              let it := fun (y : InChunk) => y.pos == x.pos && same y.bytes
              let bolt := fun (y : InChunk) => { y with bolted := true }
              (sealOf x.bytes = sl → x.bolted = false → exec (.boltNotice g via) s = .next
                (noteInput nm x.pos x.bytes x.mask x.excluded
                  (modOp nm (fun o => { o with arrived := mapWhere it bolt o.arrived }) t))) ∧
              (sealOf x.bytes ≠ sl → x.bolted = false → exec (.boltNotice g via) s = .next
                (inputSealFailure nm g x.pos cells x.bytes (dropCopy nm x.pos h wrong))) ∧
              (sealOf x.bytes = sl → x.bolted = true → exec (.boltNotice g via) s = .next t) ∧
              (sealOf x.bytes ≠ sl → x.bolted = true → exec (.boltNotice g via) s = .next wrong))) ∧
          (noticeCode n = 2 → closedHere o h.base h.count = false →
            let wrong := gateFault 0x0C nRevoke g h h.member 0 t
            (∀ c, cast = some c → exec (.revokeNotice g via) s = .next (if c.bolted then wrong else bcastDiscard g h 5 t)) ∧
            (∀ x, cast = none → input = some x → x.bolted = true → exec (.revokeNotice g via) s = .next wrong) ∧
            (∀ x, cast = none → input = some x → x.bolted = false →
              let js := (cellsOf gr h.base h.count).filter (fun j => (o.cell j).any (fun c => !c.bolted && !c.excl.contains x.pos))
              exec (.revokeNotice g via) s =
                .next (advanceCells nm js (js.foldl (fun u j => rebuildCell nm j 5 u) t)))))) ∧
      (∀ gr pos, noticeCode n = 6 → myGrp s h.group = some gr → gr.failed = false → green = false →
        (gr.children.zipIdx.find? (fun c => c.1.1 == h.member)).map (fun c => c.2 + 1) = some pos →
        let u := noticeOpens nm t
        let a : AskSt := { pos := pos, member := h.member, gate := g, base := h.base, count := h.count, granted := false
                           waitCell := none }
        (∀ o, findOp u nm = some o → o.registered = true → opEnded u o = false → addsCell gr o.n (h.base / cellLen gr) = true →
          exec (.askNotice g via) s = .next (answerAsks nm (modOp nm (fun o => { o with asks := o.asks ++ [a] }) u))) ∧
        (findOp u nm = none → nameEnded u nm = false →
          exec (.askNotice g via) s = .next { u with heldAsks := u.heldAsks ++ [(nm, a)] })) ∧
      (noticeCode n = 4 → myGrp s h.group ≠ none →
        let msg : FailMsg := ⟨numAt n 33 1, h.index, h.base, h.count, numAt n 36 4⟩
        (numAt n 33 1 = 1 → exec (.closeNotice g via) s = .next (failGroup nm 1 (some msg) (some g) t)) ∧
        (numAt n 33 1 = 2 → exec (.closeNotice g via) s = .next (failGroup nm 2 (some msg) (some g) t)) ∧
        (numAt n 33 1 = 4 → exec (.closeNotice g via) s = .next (failGroup nm 3 (some msg) (some g) t)) ∧
        (numAt n 33 1 = 0 → h.member = memberId s → bitOf (numAt n 34 1) 0 = false →
          exec (.closeNotice g via) s = .next (closeActs g h t) ∧
          ∀ o, findOp s nm = some o → o.registered = true → opEnded t o = false →
            closeActs g h t = closeRange nm h.base h.count t)) ∧
      (∀ x : State, x.unitsWf = true →
        (getGate (releaseGate g x) g).retained = (getGate x g).retained.filter (fun r => !releasable r)))

/-- An operation that is not open here, or whose next limit is another, is not changed by a limit. At the deadline, each
input of an unbolted cell that has not arrived is excluded and the requests still pending are reported; at the
confirmation limit, each input with unbolted chunks here is excluded; at the orphan limit an operation whose outcome
is lacking fails its group with reason 4 and no CLOSE. A failure of a group that had not failed is recorded once,
counts one fault of class 0x17 and marks the group failed; without a CLOSE a further one changes nothing.
REABSORB_DONE waits for the gates' writes, then rings the bell of one closed range. While a gate is under test no
granary is granted; else each pending reservation of the pool, in admission order, is granted exactly when the pool
has the slots and the reserve it needs, and then the cells and ASKs of its operations move on. -/
def Obligations.LimitsExcludeAndFail : Prop :=
  ∀ s : State, live s = true →
    (∀ nm, (atLimit s nm 0 = none → exec (.deadlineExpire nm) s = .next s) ∧
      (atLimit s nm 1 = none → exec (.confirmationLimit nm) s = .next s) ∧
      (atLimit s nm 2 = none → exec (.orphanLimit nm) s = .next s)) ∧
    (∀ nm o g, atLimit s nm 0 = some (o, g) → opOpen s o = true ∧ o.limit = 0 ∧ exec (.deadlineExpire nm) s =
      .next (let t := modOp nm (fun o => { o with limit := 1 }) s
        deadlineReports g o (excludeWhere nm g o (fun c p => !inputArrived t g o c.idx p) t))) ∧
    (∀ nm o g, atLimit s nm 1 = some (o, g) → exec (.confirmationLimit nm) s =
      .next (excludeWhere nm g o (fun c p => inputUnbolted g o c.idx p) (modOp nm (fun o => { o with limit := 2 }) s))) ∧
    (∀ nm o g, atLimit s nm 2 = some (o, g) →
      let t := modOp nm (fun o => { o with limit := 4 }) s
      (orphaned t g o = false → exec (.orphanLimit nm) s = .next t) ∧
      (orphaned t g o = true → exec (.orphanLimit nm) s = .next (failGroup nm 4 none none t))) ∧
    (∀ nm g reason msg, grpOf s nm.group = some g → g.failed = false →
      let t := failGroup nm reason msg none s
      t.gfail = (if s.gfail.valid then s.gfail else ⟨nm.group, reason, true⟩) ∧
      tget 0 t.faultCnt 0x17 = satInc (tget 0 s.faultCnt 0x17) 1 ∧
      (∀ x ∈ t.roll.groups, x.id = nm.group → x.failed = true) ∧ t.cores = s.cores) ∧
    (∀ nm g reason fr, grpOf s nm.group = some g → g.failed = true → failGroup nm reason none fr s = s) ∧
    (anyPending .gate s = true → exec .reabsorbDone s = .next s) ∧
    ((∀ o ∈ s.ops, o.reabsorbing = []) → exec .reabsorbDone s = .next s) ∧
    (∀ o g r rest, anyPending .gate s = false → s.ops = o :: rest → o.reabsorbing = [r] → covers r.1 r.2 o.handed = true →
      grpOf s o.name.group = some g → exec .reabsorbDone s =
        .next (ringBell o.name.group o.name.seq (cellIndex g (r.1 / cellLen g)) 3 3
          { s with ops := { o with reabsorbing := [] } :: rest })) ∧
    (∀ g p, g < 96 →
      ((getGate s g).testing = true → exec (.granaryGrant g p) s = .next s) ∧
      ((getGate s g).testing = false → exec (.granaryGrant g p) s = .next (
        let k := p % 4
        let t := (pendingReq s g k).foldl (tryReserve g k) s
        (sortBy (fun (o : Op) => match grpOf t o.name.group with
          | some x => admission x o.name 0
          | none => 0) (t.ops.filter (fun o => decide (redVc o.name.group = 2 + k)))).foldl
            (fun t o => advanceCells o.name (o.cells.map (fun c => c.idx)) t) t)) ∧
      (∀ r o gr, findOp s r.2.1 = some o → grpOf s r.2.1.group = some gr → tryReserve g p s r =
        if sumSlots gr + 2 * (cellHeight gr o.n r.2.2 - 1) ≤ poolFree s g p then
          modCell r.2.1 r.2.2 (fun c => { c with reserved := true }) s else s))

/-- A gate with no copy waiting for its shadow adder changes nothing; else the first copy leaves and is added into the
shadow slots of its cell, and no other part of the cell changes. Without a sampled cell ready for comparison
SHADOW_RESULT changes nothing. Each comparison is counted. One that agrees marks the cell as compared and records the
step for both adders; after a disagreement it also raises the one record of the event, a fault of class 0x09, detail
1, against both gates. The first disagreement is counted and rebuilds the cell; a second raises detail 2 against both
and fails the group with reason 3. -/
def Obligations.ShadowAddersCompare : Prop :=
  ∀ (s : State) (g : Nat), live s = true → g < 96 → s.unitsWf = true →
    let k := getGate s g
    (k.shadowIn = [] → exec (.shadowCopyReceive g) s = .next s) ∧
    (∀ nm j pos b rest, k.shadowIn = (nm, j, pos, b) :: rest →
      let t := setGate s g { k with shadowIn := rest }
      (findOp s nm = none → exec (.shadowCopyReceive g) s = .next t) ∧
      (∀ o gr, findOp s nm = some o → grpOf s nm.group = some gr → ∃ f : Cell → Cell,
        exec (.shadowCopyReceive g) s = .next (modCell nm j f t) ∧
        ∀ c, f c = { c with
          shadowSum := (f c).shadowSum, shadowXf := (f c).shadowXf, shadowDense := (f c).shadowDense
          shadowWeight := (f c).shadowWeight, shadowAdded := (f c).shadowAdded } ∧ pos ∈ (f c).shadowAdded)) ∧
    (shadowReady s g = none → ∀ e, exec (.shadowResult g e) s = .next s) ∧
    (∀ nm j o gr c e, shadowReady s g = some (nm, j) → findOp s nm = some o → grpOf s nm.group = some gr →
      o.cell j = some c →
      let crcOf := fun (b : Bytes) => crc64 ((b.take 4136).drop 32)
      let agree := decide (crcOf (shadowOutput s gr o c) ^^^ e = crcOf c.out) &&
        decide (min c.shadowWeight 0xFFFFFFFF = (hdrOf c.out).weight)
      let t := setGate s g { k with shadowCmp := satInc k.shadowCmp 1 }
      let u := uGate g
      let p := uGate (shadowGate g)
      let fault := fun n x => raiseFull 0x09 n u (chunkInfo nm.group nm.seq (cellIndex gr j)) p n (some p) x
      (agree = true → exec (.shadowResult g e) s =
        .next (let v := if c.disagreements = 0 then t else fault 1 t
          modCell nm j (fun c => { c with shadowOk := true })
            (modUnit u (fun x => { x with lastAgree := some (recordStep v) })
              (modUnit p (fun x => { x with lastAgree := some (recordStep v) }) v)))) ∧
      (agree = false →
        let v := setGate s g { k with shadowCmp := satInc k.shadowCmp 1, shadowErr := satInc k.shadowErr 1 }
        exec (.shadowResult g e) s = .next (if c.disagreements = 0
          then rebuildCell nm j 3 (modCell nm j (fun c => { c with disagreements := 1 }) v)
          else failGroup nm 3 (some (cellFail gr o.n j c.outExcluded 4)) none (fault 2 v))))

/-! ### The market -/

/-- A market command at the head starts when its context has a record, its layer is one of the context's, the forward
order of layers is kept, a step is open (or an evaluation map is in force) and the context's previous command has
completed. One whose context or layer is not valid, or out of order, is discarded as a configuration fault; one that
has no step or finds its context busy waits; the row of the other pass changes nothing. The command leaves the FIFO,
however its reads end. A forward dispatch makes the context forward with its layer and step, and asks for the ranges
of its copies; a replay makes it backward and waits for the ranges of its ledger page; a RETURN starts returning and
sends the rows of its ledger page back. -/
def Obligations.MarketCommandsStartOnAFreeContext : Prop :=
  ∀ (s : State) (w : U64) (rest : List U64) (op : Nat) (rd : ReadEnd), op = 0x20 ∨ op = 0x21 → headIs s op w rest →
    let m : MOp := ⟨field w.toNat 12 8, 0, field w.toNat 19 19, field w.toNat 18 13⟩
    let i : Instr := if op = 0x21 then .ret rd else if m.pass = 0 then .dispatchForward rd else .dispatchReplay rd
    let x := getCtx s m.ctx
    let t := { s with cmd := { s.cmd with fifo := rest } }
    let again : Prop := op = 0x20 ∧ m.pass = 0 ∧ (x.state = 2 ∨ (x.state = 1 ∧ ∃ l, x.lastLayer = some l ∧ m.layer ≤ l))
    (op = 0x20 → exec (if m.pass = 0 then .dispatchReplay rd else .dispatchForward rd) s = .next s) ∧
    (x.record = none → exec i s = .next (raise 0x0E op uBlock 0 0 t)) ∧
    (∀ r, x.record = some r →
      (r.layers ≤ m.layer ∨ again → exec i s = .next (raise 0x0E op uBlock 0 0 t)) ∧
      (m.layer < r.layers → ¬ again → mktStep s = none ∨ ctxBusy s m.ctx = true → exec i s = .next s) ∧
      (m.layer < r.layers → ¬ again → ∀ step, mktStep s = some step → ctxBusy s m.ctx = false → ∃ u, exec i s = .next u ∧
        u.cmd.fifo = rest ∧ u.cores = s.cores ∧ u.ops = s.ops ∧ u.forge = s.forge ∧
        (getCtx u m.ctx).record = some r ∧ (getCtx u m.ctx).step = step ∧ (getCtx u m.ctx).layer = m.layer ∧
        (getCtx u m.ctx).pass = m.pass ∧ (∀ c, c ≠ m.ctx → tableWf {} s.mkt.ctx = true → getCtx u c = getCtx s c) ∧
        (op = 0x20 → (getCtx u m.ctx).state = m.pass + 1 ∧ (getCtx u m.ctx).returning = false) ∧
        (op = 0x20 → m.pass = 0 → (getCtx u m.ctx).lastLayer = some m.layer) ∧
        (let v := readsEnd rd t
         (op = 0x20 → m.pass = 0 →
            let alive := (List.range r.experts).map (fun e => !(replicas v r m.layer e).isEmpty)
            (getCtx u m.ctx).asked = if x.mode = 2 then []
              else rangesOf (copiesOf v r m.layer ((List.range r.tokens).map (routeToken v r alive)))) ∧
         (op = 0x20 → m.pass = 1 → (getCtx u m.ctx).expect = ledgerRanges v r m.layer (fun f => bitOf f 2)) ∧
         (op = 0x21 → u = (ledgerRanges v r m.layer (fun f => bitOf f 1 || bitOf f 2)).foldl
            (returnRange rd r m step (decide (x.mode = 2))) (modCtx m.ctx (fun x => { x with
              returning := true, layer := m.layer, pass := m.pass, step := step, combinedTok := [], timedOut := false
              leftOut := [] }) v))) ∧
        (op = 0x21 → (getCtx u m.ctx).returning = true ∧ (getCtx u m.ctx).state = x.state)))

/-- CRIER_FRAME_RECEIVE takes the flits of one whole frame off the channel; with none it changes nothing; a frame with a
bad CRC, or a flit that begins no frame, is counted and flagged at the context it names, and of a row for this member
only the head reaches the market. Each of the other rows takes the first frame of its kind and type whose operation is
open or past, and with none changes nothing. A frame for a context with no record or in another mode is a protocol
fault of its type, one of a past operation a late fault; else counts are kept once for each source until allocation
and are late after it, and grants, replies and the bytes of rows act as their operations say. -/
def Obligations.MarketFramesAreTakenOrReported : Prop :=
  ∀ s : State, live s = true →
    (∀ g, g < 96 →
      (tget [] (getGate s g).rxBuf 0 = [] → exec (.crierFrameReceive g) s = .next s) ∧
      (∀ f fs, tget [] (getGate s g).rxBuf 0 = f :: fs → numAt f 3 2 = 0 ∨ 512 < numAt f 3 2 →
        exec (.crierFrameReceive g) s =
          .next (badFrame g (field (numAt f 5 4) 17 0) (field (numAt f 9 4) 17 0) (slice f 13 16) (popRx g 0 1 s))) ∧
      (∀ f fs, tget [] (getGate s g).rxBuf 0 = f :: fs → 1 ≤ numAt f 3 2 → numAt f 3 2 ≤ 512 →
        let n := (numAt f 3 2 + 71) / 56
        let b := (((f :: fs).take n).flatMap (fun x => x.drop 1)).take (16 + numAt f 3 2)
        (fs.length + 1 < n → exec (.crierFrameReceive g) s = .next s) ∧
        (n ≤ fs.length + 1 → crcGood b = false → exec (.crierFrameReceive g) s =
          .next (badFrame g (field (numAt b 4 4) 17 0) (field (numAt b 8 4) 17 0) (slice b 12 (numAt f 3 2)) (popRx g 0 n s))) ∧
        (n ≤ fs.length + 1 → crcGood b = true → exec (.crierFrameReceive g) s =
          .next (routeFrame g (field (numAt b 4 4) 17 0) (field (numAt b 8 4) 17 0) (slice b 12 (numAt f 3 2))
            (((f :: fs).take n).map (fun x => x.drop 1)) (popRx g 0 n s))))) ∧
    (∀ g src dst b,
      let m := mopOf (numAt b 2 2)
      let t := setCtxBit m.ctx mkCrierCrc { s with mkt := { s.mkt with crierErr := satInc s.mkt.crierErr 1 } }
      badFrame g src dst b s =
        if numAt b 0 1 = 3 ∧ (getCtx t m.ctx).mode = 2 ∧ routeOf t m.ctx dst = .here then pushFrame ⟨src, g, false, b.take 16⟩ t
        else t) ∧
    (∀ rd, ∀ row ∈ [(Instr.countsFrame, false, 1, 0, takeCounts), (.countsRequest, true, 1, 1, takeCounts),
        (.grantFrame rd, false, 2, 0, takeGrant rd), (.countsReply rd, true, 2, 1, takeReply rd), (.rowFrame, false, 3, 2, takeRow),
        (.returnRowFrame, false, 4, 2, takeReturnRow)],
      let hit := fun (x : MFrame) => (x.counts == row.2.1) && decide (frameType x = row.2.2.1) &&
        decide (frameTurn s x ≠ .wait)
      (s.mkt.frames.find? hit = none → exec row.1 s = .next s) ∧
      (∀ x, s.mkt.frames.find? hit = some x →
        let t := { s with mkt := { s.mkt with frames := s.mkt.frames.erase x } }
        ((getCtx s (frameOp x).ctx).record = none → exec row.1 s = .next (raise 0x0C row.2.2.1
          (uGate (if x.gate < 96 then x.gate else 0)) (frameOp x).code x.src t)) ∧
        (∀ r, (getCtx s (frameOp x).ctx).record = some r →
          ((getCtx s (frameOp x).ctx).mode ≠ row.2.2.2.1 → exec row.1 s =
            .next (raise 0x0C row.2.2.1 (uGate r.stallGate) (mktInfo r (frameOp x)) x.src t)) ∧
          ((getCtx s (frameOp x).ctx).mode = row.2.2.2.1 → frameTurn s x = .late → exec row.1 s =
            .next (raise 0x08 0 (uGate r.stallGate) (mktInfo r (frameOp x)) x.src
              (modCtx (frameOp x).ctx (fun c => { c with missed := c.missed.erase (frameKey x) }) t))) ∧
          ((getCtx s (frameOp x).ctx).mode = row.2.2.2.1 → frameTurn s x = .now →
            exec row.1 s = .next (row.2.2.2.2 r (frameOp x) x t))))) ∧
    (∀ r m f, let x := getCtx s m.ctx
      let t := takeCounts r m f s
      (x.posting = true → x.allocated = false → (∀ c ∈ x.counts, c.1 ≠ f.src) →
        (getCtx t m.ctx).counts = x.counts ++ [(f.src, (frameEntries f.body).map (fun e => (e.1, e.2.1, e.2.2.1)))] ∧
        (getCtx t m.ctx).arrivals = x.arrivals ++ [(f.src, f.gate)] ∧
        t = { s with mkt := t.mkt }) ∧
      (x.posting = false ∨ x.allocated = true ∨ (∃ c ∈ x.counts, c.1 = f.src) →
        t = raise 0x08 0 (uGate r.stallGate) (mktInfo r m) f.src (modCtx m.ctx (fun x => { x with
          counts := if x.counts.any (fun c => c.1 == f.src) then x.counts else x.counts ++ [(f.src, [])] }) s)))

/-- STALL_ALLOCATE and CAPACITY_ADMIT change nothing unless the context posts as a holder, has no stalls yet, is not free
and is in grant mode or in capacity mode; else the context holds its stalls, expects their ranges, and its allocation
is made once. In grant mode the instances are taken in ascending number, each gets the next free slots of the pool for
all its rows or, with every later one, none with status 1; no two stalls overlap and none passes the pool. In capacity
mode each instance has 48 slots a unit. GRANT_DEADLINE refuses every range without a grant: nothing is asked any more,
and with a range refused the context's refused bit is set. -/
def Obligations.StallsAreAllocatedInOrder : Prop :=
  ∀ (s : State) (c : Nat), live s = true → c < 32 →
    let x := getCtx s c
    (x.record = none → exec (.stallAllocate c) s = .next s ∧ exec (.capacityAdmit c) s = .next s ∧
      exec (.grantDeadline c) s = .next s) ∧
    (x.posting = false ∨ x.allocated = true ∨ x.state = 0 ∨ x.mode ≠ 0 → exec (.stallAllocate c) s = .next s) ∧
    (x.posting = false ∨ x.allocated = true ∨ x.state = 0 ∨ x.mode ≠ 1 → exec (.capacityAdmit c) s = .next s) ∧
    (∀ r, x.record = some r → x.posting = true → x.allocated = false → x.state ≠ 0 →
      (x.mode = 0 → ∃ t, exec (.stallAllocate c) s = .next t ∧ (getCtx t c).allocated = true ∧
        (getCtx t c).expect = expectOf (allocate x (mktMembers s r) r.pool) ∧
        (getCtx t c).insts.map (fun i => (i.inst, i.first, i.rows, i.tokens)) =
          (allocate x (mktMembers s r) r.pool).map (fun a => (a.inst, a.first, a.rows, a.rows)) ∧
        (getCtx t c).posting = true ∧ (getCtx t c).asked = x.asked ∧ t.cores = s.cores ∧ t.ops = s.ops) ∧
      (x.mode = 1 → ∃ t, exec (.capacityAdmit c) s = .next t ∧ (getCtx t c).allocated = true ∧
        (let as := (dedup (sortBy id (namedInsts x ++ myInsts s r x.layer))).map
            (admitInst x (mktMembers s r) (48 * r.units) (keepOrder s r x))
         (getCtx t c).expect = expectOf (as.map (fun a => a.1)) ∧
         (getCtx t c).insts.map (fun i => (i.inst, i.first, i.rows)) = as.map (fun a => (a.1.inst, a.1.first, 48 * r.units))) ∧
        (getCtx t c).posting = true ∧ (getCtx t c).asked = x.asked ∧ t.cores = s.cores ∧ t.ops = s.ops)) ∧
    (∀ r, x.record = some r → ∃ t, exec (.grantDeadline c) s = .next t ∧ (getCtx t c).asked = [] ∧
      t = modCtx c (fun y => { y with asked := [] })
        (x.asked.foldl (fun u g => refuseRange ⟨c, 0, x.pass, x.layer⟩ r x.step g u) s) ∧
      (getCtx t c).bits = (if x.asked = [] then x.bits else setBit x.bits mkRefused) ∧
      t.cores = s.cores ∧ t.ops = s.ops ∧ t.gates = s.gates ∧ t.faultCnt = s.faultCnt) ∧
    (∀ (y : Ctx) ms p, (allocate y ms p).map (fun a => a.inst) = namedInsts y ∧ (namedInsts y).Pairwise (· < ·) ∧
      (∀ a ∈ allocate y ms p, a.first + a.rows ≤ p ∧ (a.status = 0 ∨ a.rows = 0)) ∧
      (allocate y ms p).Pairwise (fun a b => a.first + a.rows ≤ b.first ∧ (a.status = 1 → b.status = 1)))

/-- POSTING_COMPLETE waits until the context has its stalls, every expected range is whole and no write of a gate is
outstanding; then the instance records are written, posting ends and the posted count goes up by one. POSTING_TIMEOUT
does the same when no range is missing; with one missing it ends posting too, sets the missing bit and raises a
deadline fault at the stall gate. COMBINE writes the output row of a token of a returning context once each of its
live copies has come back or is left out, and each token once. Once every token is combined and no write of the market
program is outstanding, it ends the return and adds one to the combined count. COMBINE_TIMEOUT leaves out, once, every
copy that has not come back. -/
def Obligations.PostingAndCombineComplete : Prop :=
  ∀ (s : State) (c : Nat), live s = true → c < 32 →
    let x := getCtx s c
    (x.record = none → exec (.postingComplete c) s = .next s ∧ exec (.postingTimeout c) s = .next s ∧
      exec (.combineTimeout c) s = .next s ∧ ∀ n rd, exec (.combine c n rd) s = .next s) ∧
    (x.posting = false ∨ x.allocated = false ∨ (∃ g ∈ x.expect, g.complete = false) ∨ anyPending .gate s = true →
      exec (.postingComplete c) s = .next s) ∧
    (∀ r, x.record = some r → x.posting = true → x.allocated = true →
      ((∀ g ∈ x.expect, g.complete = true) → anyPending .gate s = false → exec (.postingTimeout c) s = exec (.postingComplete c) s ∧
        ∃ t, exec (.postingComplete c) s = .next t ∧ t = finishPosting c r s ∧ (getCtx t c).posting = false ∧ (getCtx t c).posted = (x.posted + 1) % 65536 ∧ t.faultCnt = s.faultCnt ∧
        t.cores = s.cores ∧ t.gates = s.gates) ∧
      ((∃ g ∈ x.expect, g.complete = false) → ∃ t, exec (.postingTimeout c) s = .next t ∧ (getCtx t c).posting = false ∧
        bitOf (getCtx t c).bits mkMissing = true ∧ (getCtx t c).posted = (x.posted + 1) % 65536 ∧
        tget 0 t.faultCnt 0x07 = satInc (tget 0 s.faultCnt 0x07) 1 ∧ t.cores = s.cores ∧ t.gates = s.gates)) ∧
    (x.posting = false ∨ x.allocated = false → exec (.postingTimeout c) s = .next s) ∧
    (∀ r n rd, x.record = some r →
      let es := liveCopies s r x.layer n
      let ready : Prop := ∀ e ∈ es, copyBack x r e.ordinal = true ∨ e.ordinal ∈ x.leftOut
      (x.returning = false ∨ r.tokens ≤ n → exec (.combine c n rd) s = .next s) ∧
      (x.returning = true → n < r.tokens → n ∈ x.combinedTok → exec (.combine c n rd) s = .next (combineDone c r s)) ∧
      (x.returning = true → n < r.tokens → n ∉ x.combinedTok → ¬ ready → exec (.combine c n rd) s = .next s) ∧
      (x.returning = true → n < r.tokens → n ∉ x.combinedTok → ready →
        let kept := es.filter (fun e => !x.leftOut.contains e.ordinal)
        let st := rowStride r.fmtRet r.hidden
        let v := readsEnd rd s
        let row := outputBytes r (combineRow v r (decide (x.pass = 0)) kept)
        let bad := kept.any (fun e => readBad s rd (r.retArea + st * e.ordinal) st)
        exec (.combine c n rd) s = .next (combineDone c r (modCtx c (fun x => { x with combinedTok := x.combinedTok ++ [n] })
          (postWrite programOwner (r.output + (if r.fp32Out then 4 else 2) * r.hidden * n) row bad v)))) ∧
      combineDone c r s = (if x.combinedTok.length = r.tokens ∧ anyPending programOwner s = false then combineEnds c r s else s) ∧
      (getCtx (combineEnds c r s) c).returning = false ∧ (getCtx (combineEnds c r s) c).combined = (x.combined + 1) % 65536) ∧
    (x.returning = false ∨ x.timedOut = true → exec (.combineTimeout c) s = .next s) ∧
    (∀ r, x.record = some r → x.returning = true → x.timedOut = false → ∃ t, exec (.combineTimeout c) s = .next t ∧
      (getCtx t c).timedOut = true ∧ (getCtx t c).returning = true ∧
      (∀ e ∈ bookRead s r x.layer, e.lives = true → e.token ∉ x.combinedTok → copyBack x r e.ordinal = false →
        e.ordinal ∈ (getCtx t c).leftOut) ∧ t.cores = s.cores ∧ t.gates = s.gates)

/-! ### Faults, writes and bells -/

/-- A fault counts once in the saturating counter of its class and, wear of the book apart, in no other; nothing but the
counters, the ring, the book, the units, the exposure lists and the writes that carry records changes. A deadline
fault of a unit without a history, with an unbound book, takes one sequence number, enters the unit's history and
leaves its status; with the ring enabled and empty of waiting entries its record takes the next place of the ring, and
with a full ring it waits. A bell rings only when bells are enabled, takes the next place or waits in the same way,
and an event of status 0 to 2 counts at its operation class. -/
def Obligations.FaultsAreCountedAndRecorded : Prop :=
  (∀ (s : State) (cls detail unit info0 info1 : Nat),
    let t := raise cls detail unit info0 info1 s
    reported s t ∧
    (cls ≠ 0x1A → tget 0 t.faultCnt cls = satInc (tget 0 s.faultCnt cls) 1) ∧
    (∀ c, c ≠ cls → c ≠ 0x1A → tget 0 t.faultCnt c = tget 0 s.faultCnt c) ∧
    (bitOf s.flt.ctl 0 = false → t.flt = s.flt ∧ t.host = s.host ∧ t.wells = s.wells) ∧
    (s.unitsWf = true → getUnit s unit = {} → unit ≠ uSteward → cls = 0x07 →
      (getUnit t unit).status = 0 ∧ (getUnit t unit).faults = [(recordTime s, cls)] ∧
      (s.book.bound = false → t.book.seq = s.book.seq + 1 ∧
        (bitOf s.flt.ctl 0 = true → s.flt.queue = [] → s.flt.full = false →
          t.flt.head = (s.flt.head % s.flt.size + 1) % s.flt.size ∧ t.flt.tail = s.flt.tail) ∧
        (bitOf s.flt.ctl 0 = true → s.flt.full = true → s.flt.queue.length < 256 → t.flt = { s.flt with
          queue := s.flt.queue ++ [recordBytes (nextSeq s) 1 cls detail unit 1 info0 info1 0 0] })))) ∧
  (∀ (s : State) (group seq chunk status kind : Nat),
    let t := ringBell group seq chunk status kind s
    t = { s with
      bell := t.bell, doneCnt := t.doneCnt, host := t.host, hostPoison := t.hostPoison, wells := t.wells, wellStamp := t.wellStamp } ∧
    (bitOf s.bell.ctl 0 = false → t.bell = s.bell ∧ t.host = s.host) ∧
    (2 < status → t.doneCnt = s.doneCnt) ∧
    (status ≤ 2 → t.doneCnt = tset 0 s.doneCnt (seq / 1024 % 64) (tget 0 s.doneCnt (seq / 1024 % 64) + 1)) ∧
    (bitOf s.bell.ctl 0 = true → s.bell.queue = [] → s.bell.full = false →
      t.bell.head = (s.bell.head % s.bell.size + 1) % s.bell.size ∧ t.bell.tail = s.bell.tail ∧
      (t.bell.lap = s.bell.lap ↔ t.bell.head ≠ 0)) ∧
    (bitOf s.bell.ctl 0 = true → s.bell.full = true → s.bell.queue.length < 1024 →
      t.bell = { s.bell with queue := s.bell.queue ++ [bellBytes group seq chunk status kind] } ∧ t.host = s.host))

/-- A write below the top of the address space stores its bytes and no others, keeps the canonical form of host memory,
and hands each of its pieces, none of which crosses a 4 KiB unit and each aligned to 64 B, to the well that serves it,
at the end of that well's waiting list; beyond the count of requests nothing else changes. -/
def Obligations.WritesReachTheirBytesAndTheirWells : Prop :=
  ∀ (s : State) (owner : Owner) (a : Nat) (bs : Bytes) (poison : Bool), a + bs.length ≤ 2 ^ 52 → memWf 0 s.host = true →
    s.unitsWf = true →
    let t := postWrite owner a bs poison s
    bytesStored s.host t.host a bs ∧ memWf 0 t.host = true ∧
    t = { s with host := t.host, hostPoison := t.hostPoison, wells := t.wells, wellStamp := t.wellStamp } ∧
    (∀ w, ∃ rs, getWell t w = { getWell s w with waiting := (getWell s w).waiting ++ rs } ∧
      ∀ r ∈ rs, r.owner = owner ∧ r.op = 1 ∧ r.addr % 64 = 0 ∧ wellOf s r.addr = w ∧
        r.addr % 4096 + 64 * r.len ≤ 4096 ∧ r.data.length = 64 * r.len ∧ r.mask.length = 64 * r.len ∧
        (poison = false → r.poison = []))

end
end

