-- ==== Sys2Proof/Laws/Tables.lean ====
section
/-! SUPPORT. The laws of tables and memories: reading after writing, and that every operation keeps the canonical form. -/

namespace Sys2Proof.Machine

/-! ### Canonical form as a proposition -/

theorem keysRise_iff (t : List (Nat × α)) : keysRise t = true ↔ t.Pairwise (fun a b => a.1 < b.1) := by
  induction t with
  | nil => simp [keysRise]
  | cons c t ih => simp [keysRise, ih, List.all_eq_true]

theorem tableWf_iff [DecidableEq α] (d : α) (t : List (Nat × α)) :
    tableWf d t = true ↔ t.Pairwise (fun a b => a.1 < b.1) ∧ ∀ e ∈ t, e.2 ≠ d := by
  simp [tableWf, keysRise_iff, List.all_eq_true]

/-! ### Entries of a changed table -/

theorem mem_terase {t : List (Nat × α)} {i : Nat} {e : Nat × α} (h : e ∈ terase t i) : e ∈ t := by
  induction t with
  | nil => simp [terase] at h
  | cons c t ih =>
    obtain ⟨k, v⟩ := c
    unfold terase at h
    split at h
    · exact List.mem_cons_of_mem _ h
    · split at h
      · exact h
      · rcases List.mem_cons.1 h with rfl | h
        · exact List.mem_cons_self
        · exact List.mem_cons_of_mem _ (ih h)

theorem mem_tinsert {t : List (Nat × α)} {i : Nat} {a : α} {e : Nat × α} (h : e ∈ tinsert t i a) : e = (i, a) ∨ e ∈ t := by
  induction t with
  | nil => simpa [tinsert] using h
  | cons c t ih =>
    obtain ⟨k, v⟩ := c
    unfold tinsert at h
    split at h
    · rcases List.mem_cons.1 h with h | h
      · exact .inl h
      · exact .inr (List.mem_cons_of_mem _ h)
    · split at h
      · rcases List.mem_cons.1 h with h | h
        · exact .inl h
        · exact .inr h
      · rcases List.mem_cons.1 h with rfl | h
        · exact .inr List.mem_cons_self
        · exact (ih h).imp id (List.mem_cons_of_mem _)

theorem mem_tset [DecidableEq α] {d : α} {t : List (Nat × α)} {i : Nat} {a : α} {e : Nat × α} (h : e ∈ tset d t i a) :
    e = (i, a) ∨ e ∈ t := by
  unfold tset at h
  split at h
  · exact .inr (mem_terase h)
  · exact mem_tinsert h

/-! ### Every operation keeps the canonical form -/

theorem pairwise_terase {t : List (Nat × α)} (i : Nat) (h : t.Pairwise (fun a b => a.1 < b.1)) :
    (terase t i).Pairwise (fun a b => a.1 < b.1) := by
  induction t with
  | nil => simp [terase]
  | cons c t ih =>
    obtain ⟨k, v⟩ := c
    have ht := List.pairwise_cons.1 h
    unfold terase
    split
    · exact ht.2
    · split
      · exact h
      · exact List.pairwise_cons.2 ⟨fun e he => ht.1 e (mem_terase he), ih ht.2⟩

theorem pairwise_tinsert {t : List (Nat × α)} (i : Nat) (a : α) (h : t.Pairwise (fun a b => a.1 < b.1)) :
    (tinsert t i a).Pairwise (fun a b => a.1 < b.1) := by
  induction t with
  | nil => simp [tinsert]
  | cons c t ih =>
    obtain ⟨k, v⟩ := c
    have ht := List.pairwise_cons.1 h
    unfold tinsert
    split
    · next hk => subst hk; exact List.pairwise_cons.2 ⟨ht.1, ht.2⟩
    · split
      · next hk =>
        refine List.pairwise_cons.2 ⟨fun e he => ?_, h⟩
        rcases List.mem_cons.1 he with rfl | he
        · exact hk
        · exact Nat.lt_trans hk (ht.1 e he)
      · refine List.pairwise_cons.2 ⟨fun e he => ?_, ih ht.2⟩
        rcases mem_tinsert he with rfl | he
        · simp only; omega
        · exact ht.1 e he

theorem tableWf_tset [DecidableEq α] {d : α} {t : List (Nat × α)} (i : Nat) (a : α) (h : tableWf d t = true) :
    tableWf d (tset d t i a) = true := by
  rw [tableWf_iff] at h ⊢
  unfold tset
  split
  · exact ⟨pairwise_terase i h.1, fun e he => h.2 e (mem_terase he)⟩
  · next ha =>
    refine ⟨pairwise_tinsert i a h.1, fun e he => ?_⟩
    rcases mem_tinsert he with rfl | he
    · exact ha
    · exact h.2 e he

theorem tableWf_tmod [DecidableEq α] {d : α} {t : List (Nat × α)} (i : Nat) (f : α → α) (h : tableWf d t = true) :
    tableWf d (tmod d t i f) = true := tableWf_tset _ _ h

/-! ### Reading after writing -/

@[simp] theorem tget_tinsert_same (d : α) (t : List (Nat × α)) (i : Nat) (a : α) : tget d (tinsert t i a) i = a := by
  induction t with
  | nil => simp [tinsert, tget]
  | cons c t ih =>
    obtain ⟨k, v⟩ := c
    unfold tinsert
    split
    · simp [tget]
    · split
      · simp [tget]
      · next h1 h2 => simp only [tget]; rw [if_neg h1, if_neg h2]; exact ih

theorem tget_tinsert_other (d : α) (t : List (Nat × α)) {i j : Nat} (a : α) (h : j ≠ i) :
    tget d (tinsert t i a) j = tget d t j := by
  induction t with
  | nil => simp only [tinsert, tget]; split <;> simp_all
  | cons c t ih =>
    obtain ⟨k, v⟩ := c
    unfold tinsert
    split
    · next hk => subst hk; simp only [tget]; rw [if_neg (Ne.symm h), if_neg (Ne.symm h)]
    · split
      · next hk hl =>
        simp only [tget]
        split
        · next h2 => exact absurd h2.symm h
        · split
          · next h2 => rw [if_neg (by omega), if_pos (by omega)]
          · rfl
      · simp only [tget, ih]

theorem tget_none (d : α) {t : List (Nat × α)} {i : Nat} (h : ∀ e ∈ t, i < e.1) : tget d t i = d := by
  cases t with
  | nil => rfl
  | cons c t =>
    obtain ⟨k, v⟩ := c
    have := h (k, v) List.mem_cons_self
    simp only [tget] at this ⊢
    rw [if_neg (by omega), if_pos this]

theorem tget_terase_same (d : α) {t : List (Nat × α)} (i : Nat) (h : t.Pairwise (fun a b => a.1 < b.1)) :
    tget d (terase t i) i = d := by
  induction t with
  | nil => rfl
  | cons c t ih =>
    obtain ⟨k, v⟩ := c
    have ht := List.pairwise_cons.1 h
    unfold terase
    split
    · next hk => subst hk; exact tget_none d ht.1
    · split
      · next hk hl => simp only [tget]; rw [if_neg hk, if_pos hl]
      · next hk hl => simp only [tget]; rw [if_neg hk, if_neg hl]; exact ih ht.2

theorem tget_terase_other (d : α) {t : List (Nat × α)} {i j : Nat} (hj : j ≠ i) (h : t.Pairwise (fun a b => a.1 < b.1)) :
    tget d (terase t i) j = tget d t j := by
  induction t with
  | nil => rfl
  | cons c t ih =>
    obtain ⟨k, v⟩ := c
    have ht := List.pairwise_cons.1 h
    unfold terase
    split
    · next hk =>
      subst hk
      simp only [tget]
      rw [if_neg (Ne.symm hj)]
      split
      · next hl => exact tget_none d (fun e he => Nat.lt_trans hl (ht.1 e he))
      · rfl
    · split
      · rfl
      · simp only [tget, ih ht.2]

theorem tget_tset [DecidableEq α] {d : α} {t : List (Nat × α)} (i : Nat) (a : α) (j : Nat) (h : tableWf d t = true) :
    tget d (tset d t i a) j = if j = i then a else tget d t j := by
  rw [tableWf_iff] at h
  unfold tset
  split
  · next ha =>
    split
    · next hj => subst hj; rw [tget_terase_same d j h.1, ha]
    · next hj => exact tget_terase_other d hj h.1
  · split
    · next hj => subst hj; simp
    · next hj => exact tget_tinsert_other d t a hj

theorem tget_of_all {d : α} {p : α → Prop} {t : List (Nat × α)} (i : Nat) (hd : p d) (h : ∀ e ∈ t, p e.2) :
    p (tget d t i) := by
  induction t with
  | nil => exact hd
  | cons c t ih =>
    obtain ⟨k, v⟩ := c
    unfold tget
    split
    · exact h (k, v) List.mem_cons_self
    · split
      · exact hd
      · exact ih (fun e he => h e (List.mem_cons_of_mem _ he))

/-! ### Memories -/

theorem memWf_mset {d : Byte} {m : Mem} (a : Nat) (b : Byte) (h : memWf d m = true) : memWf d (mset d m a b) = true :=
  tableWf_tset a b h

theorem memWf_mwrite {d : Byte} {m : Mem} (a : Nat) (bs : Bytes) (h : memWf d m = true) :
    memWf d (mwrite d m a bs) = true := by
  induction bs generalizing m a with
  | nil => exact h
  | cons b bs ih => exact ih (a + 1) (memWf_mset a b h)

theorem memWf_mwriteMasked {d : Byte} {m : Mem} (a : Nat) (bs : Bytes) (es : List Bool) (h : memWf d m = true) :
    memWf d (mwriteMasked d m a bs es) = true := by
  induction bs generalizing m a es with
  | nil => simpa [mwriteMasked] using h
  | cons b bs ih =>
    cases es with
    | nil => simpa [mwriteMasked] using h
    | cons e es =>
      refine ih (a + 1) es ?_
      split
      · exact memWf_mset a b h
      · exact h

theorem memWf_filter {d : Byte} {m : Mem} (p : Host.Cell → Bool) (h : memWf d m = true) : memWf d (m.filter p) = true := by
  unfold memWf at h ⊢
  rw [tableWf_iff] at h ⊢
  exact ⟨h.1.filter p, fun e he => h.2 e (List.mem_filter.1 he).1⟩

theorem memWf_merase {d : Byte} {m : Mem} (a n : Nat) (h : memWf d m = true) : memWf d (merase m a n) = true :=
  memWf_filter _ h

theorem mget_mset {d : Byte} {m : Mem} (a : Nat) (b : Byte) (x : Nat) (h : memWf d m = true) :
    mget d (mset d m a b) x = if x = a then b else mget d m x := tget_tset a b x h

/-- What a write leaves at every address. -/
theorem mget_mwrite {d : Byte} {m : Mem} (a : Nat) (bs : Bytes) (x : Nat) (h : memWf d m = true) :
    mget d (mwrite d m a bs) x = if a ≤ x ∧ x < a + bs.length then bs.getD (x - a) d else mget d m x := by
  induction bs generalizing m a with
  | nil => rw [mwrite, if_neg (fun h => by have := h.2; rw [List.length_nil] at this; omega)]
  | cons b bs ih =>
    rw [mwrite, ih (a + 1) (memWf_mset a b h), mget_mset a b x h]
    by_cases hx : x = a
    · subst hx
      rw [if_neg (by omega), if_pos rfl, if_pos ⟨Nat.le_refl _, by rw [List.length_cons]; omega⟩, Nat.sub_self, List.getD_cons_zero]
    · by_cases h1 : a + 1 ≤ x ∧ x < a + 1 + bs.length
      · rw [if_pos h1, if_pos (by simp only [List.length_cons]; omega)]
        have : x - a = (x - (a + 1)) + 1 := by omega
        rw [this, List.getD_cons_succ]
      · rw [if_neg h1, if_neg hx, if_neg (by simp only [List.length_cons]; omega)]

theorem mget_merase_outside {d : Byte} {m : Mem} (a n x : Nat) (h : memWf d m = true) (hx : x < a ∨ a + n ≤ x) :
    mget d (merase m a n) x = mget d m x := by
  unfold memWf at h
  rw [tableWf_iff] at h
  have hp := h.1
  clear h
  unfold mget merase
  induction m with
  | nil => rfl
  | cons c t ih =>
    obtain ⟨k, v⟩ := c
    have ht := List.pairwise_cons.1 hp
    rw [List.filter_cons]
    split
    · simp only [tget, ih ht.2]
    · next hk =>
      simp only [tget]
      rw [if_neg (by rintro rfl; simp at hk; omega)]
      split
      · next hl =>
        refine tget_none d (fun e he => ?_)
        exact Nat.lt_trans hl (ht.1 e (List.mem_filter.1 he).1)
      · exact ih ht.2

end Sys2Proof.Machine
end

