-- ==== Sys2Proof/Laws/Bytes.lean ====
section
/-! SUPPORT. What a slice of a byte string and of a read of host memory holds, and the tally of zero bytes. -/

namespace Sys2Proof.Machine

/-- A slice that lies inside the string is its bytes in order. -/
theorem slice_eq_map {b : Bytes} {o n : Nat} (h : o + n ≤ b.length) : slice b o n = (List.range n).map (fun i => b.getD (o + i) 0) := by
  apply List.ext_getElem
  · simp only [slice, fit, List.length_append, List.length_take, List.length_drop, List.length_replicate, List.length_map,
      List.length_range]
    omega
  · intro i h1 h2
    simp [slice, fit] at h1 h2 ⊢
    rw [List.getElem_append_left (by simp; omega)]
    simp
    rw [List.getElem?_eq_getElem (by omega)]; rfl

/-- A slice of a read of host memory that does not wrap is the bytes at its addresses. -/
theorem slice_hostRead (s : State) {a n o m : Nat} (h : o + m ≤ n) (l : a + n ≤ 2 ^ 52) :
    slice (hostRead s a n) o m = (List.range m).map (fun i => mget 0 s.host (a + (o + i))) := by
  rw [slice_eq_map (by simpa [hostRead] using h)]
  apply List.map_congr_left
  intro i hi
  have hi := List.mem_range.mp hi
  rw [List.getD_eq_getElem?_getD, List.getElem?_eq_getElem (by simp [hostRead]; omega)]
  simp [hostRead]
  rw [Nat.mod_eq_of_lt (by omega)]

theorem gfMul_zero (b : U64) : gfMul 0#64 b = 0#64 := by
  have key : ∀ l : List Nat, l.foldl (gfMulStep b) (0#64, 0#64) = (0#64, 0#64) := by
    intro l
    induction l with
    | nil => rfl
    | cons i t ih => rw [List.foldl_cons, show gfMulStep b (0#64, 0#64) i = (0#64, 0#64) by simp [gfMulStep]]; exact ih
  show ((List.range 64).foldl (gfMulStep b) (0#64, 0#64)).1 = 0#64
  rw [key]

theorem leNat_zero : ∀ l : Bytes, (∀ x ∈ l, x = 0) → leNat l = 0
  | [], _ => rfl
  | x :: t, h => by
    rw [leNat, leNat_zero t (fun y hy => h y (by simp [hy])), h x (by simp)]; rfl

/-- Zero bytes have tally 0 wherever they stand. -/
theorem tally_zero (bs : Bytes) (p : Nat) (h : ∀ x ∈ bs, x = 0) : tally bs p = 0 := by
  have words : ∀ (n : Nat) (l : Bytes), (∀ x ∈ l, x = 0) → ∀ q,
      tallyWords ((chunksOf 8 n l).map (fun w => BitVec.ofNat 64 (leNat w))) q = 0 := by
    intro n
    induction n with
    | zero => intro l _ q; rfl
    | succ n ih =>
      intro l hl q
      cases l with
      | nil => rfl
      | cons x t =>
        rw [chunksOf, List.map_cons, leNat_zero _ (fun y hy => hl y (List.mem_of_mem_take hy)), tallyWords, gfMul_zero,
          ih _ (fun y hy => hl y (List.mem_of_mem_drop hy))]
        · rfl
        · simp
  exact words _ _ h _

end Sys2Proof.Machine
end

