-- ==== Sys2Proof/Laws/State.lean ====
section
/-! SUPPORT. What each named update of the state leaves: one lemma for each field and update, true by unfolding the update, and
what reading a unit gives after another was changed. -/

namespace Sys2Proof.Machine

variable (s : State)

/-! ### setCore changes only `cores` -/

@[simp] theorem setCore_pending (c : Nat) (k : Core) : (setCore s c k).pending = s.pending := rfl
@[simp] theorem setCore_pins (c : Nat) (k : Core) : (setCore s c k).pins = s.pins := rfl
@[simp] theorem setCore_mgt (c : Nat) (k : Core) : (setCore s c k).mgt = s.mgt := rfl
@[simp] theorem setCore_aon (c : Nat) (k : Core) : (setCore s c k).aon = s.aon := rfl
@[simp] theorem setCore_boot (c : Nat) (k : Core) : (setCore s c k).boot = s.boot := rfl
@[simp] theorem setCore_charter (c : Nat) (k : Core) : (setCore s c k).charter = s.charter := rfl
@[simp] theorem setCore_cmd (c : Nat) (k : Core) : (setCore s c k).cmd = s.cmd := rfl
@[simp] theorem setCore_step (c : Nat) (k : Core) : (setCore s c k).step = s.step := rfl
@[simp] theorem setCore_bell (c : Nat) (k : Core) : (setCore s c k).bell = s.bell := rfl
@[simp] theorem setCore_audit (c : Nat) (k : Core) : (setCore s c k).audit = s.audit := rfl
@[simp] theorem setCore_flt (c : Nat) (k : Core) : (setCore s c k).flt = s.flt := rfl
@[simp] theorem setCore_doneCnt (c : Nat) (k : Core) : (setCore s c k).doneCnt = s.doneCnt := rfl
@[simp] theorem setCore_faultCnt (c : Nat) (k : Core) : (setCore s c k).faultCnt = s.faultCnt := rfl
@[simp] theorem setCore_epoch (c : Nat) (k : Core) : (setCore s c k).epoch = s.epoch := rfl
@[simp] theorem setCore_gfail (c : Nat) (k : Core) : (setCore s c k).gfail = s.gfail := rfl
@[simp] theorem setCore_signalMap (c : Nat) (k : Core) : (setCore s c k).signalMap = s.signalMap := rfl
@[simp] theorem setCore_units (c : Nat) (k : Core) : (setCore s c k).units = s.units := rfl
@[simp] theorem setCore_expose (c : Nat) (k : Core) : (setCore s c k).expose = s.expose := rfl
@[simp] theorem setCore_book (c : Nat) (k : Core) : (setCore s c k).book = s.book := rfl
@[simp] theorem setCore_alm (c : Nat) (k : Core) : (setCore s c k).alm = s.alm := rfl
@[simp] theorem setCore_forge (c : Nat) (k : Core) : (setCore s c k).forge = s.forge := rfl
@[simp] theorem setCore_exp (c : Nat) (k : Core) : (setCore s c k).exp = s.exp := rfl
@[simp] theorem setCore_roll (c : Nat) (k : Core) : (setCore s c k).roll = s.roll := rfl
@[simp] theorem setCore_ops (c : Nat) (k : Core) : (setCore s c k).ops = s.ops := rfl
@[simp] theorem setCore_waves (c : Nat) (k : Core) : (setCore s c k).waves = s.waves := rfl
@[simp] theorem setCore_heldCloses (c : Nat) (k : Core) : (setCore s c k).heldCloses = s.heldCloses := rfl
@[simp] theorem setCore_heldAsks (c : Nat) (k : Core) : (setCore s c k).heldAsks = s.heldAsks := rfl
@[simp] theorem setCore_wellStamp (c : Nat) (k : Core) : (setCore s c k).wellStamp = s.wellStamp := rfl
@[simp] theorem setCore_lost (c : Nat) (k : Core) : (setCore s c k).lost = s.lost := rfl
@[simp] theorem setCore_mkt (c : Nat) (k : Core) : (setCore s c k).mkt = s.mkt := rfl
@[simp] theorem setCore_gates (c : Nat) (k : Core) : (setCore s c k).gates = s.gates := rfl
@[simp] theorem setCore_wells (c : Nat) (k : Core) : (setCore s c k).wells = s.wells := rfl
@[simp] theorem setCore_host (c : Nat) (k : Core) : (setCore s c k).host = s.host := rfl
@[simp] theorem setCore_hostPoison (c : Nat) (k : Core) : (setCore s c k).hostPoison = s.hostPoison := rfl
@[simp] theorem getGate_setCore (c : Nat) (k : Core) (x : Nat) : getGate (setCore s c k) x = getGate s x := rfl
@[simp] theorem getWell_setCore (c : Nat) (k : Core) (x : Nat) : getWell (setCore s c k) x = getWell s x := rfl
@[simp] theorem getUnit_setCore (c : Nat) (k : Core) (x : Nat) : getUnit (setCore s c k) x = getUnit s x := rfl

/-! ### modCore changes only `cores` -/

@[simp] theorem modCore_pending (c : Nat) (f : Core → Core) : (modCore c f s).pending = s.pending := rfl
@[simp] theorem modCore_pins (c : Nat) (f : Core → Core) : (modCore c f s).pins = s.pins := rfl
@[simp] theorem modCore_mgt (c : Nat) (f : Core → Core) : (modCore c f s).mgt = s.mgt := rfl
@[simp] theorem modCore_aon (c : Nat) (f : Core → Core) : (modCore c f s).aon = s.aon := rfl
@[simp] theorem modCore_boot (c : Nat) (f : Core → Core) : (modCore c f s).boot = s.boot := rfl
@[simp] theorem modCore_charter (c : Nat) (f : Core → Core) : (modCore c f s).charter = s.charter := rfl
@[simp] theorem modCore_cmd (c : Nat) (f : Core → Core) : (modCore c f s).cmd = s.cmd := rfl
@[simp] theorem modCore_step (c : Nat) (f : Core → Core) : (modCore c f s).step = s.step := rfl
@[simp] theorem modCore_bell (c : Nat) (f : Core → Core) : (modCore c f s).bell = s.bell := rfl
@[simp] theorem modCore_audit (c : Nat) (f : Core → Core) : (modCore c f s).audit = s.audit := rfl
@[simp] theorem modCore_flt (c : Nat) (f : Core → Core) : (modCore c f s).flt = s.flt := rfl
@[simp] theorem modCore_doneCnt (c : Nat) (f : Core → Core) : (modCore c f s).doneCnt = s.doneCnt := rfl
@[simp] theorem modCore_faultCnt (c : Nat) (f : Core → Core) : (modCore c f s).faultCnt = s.faultCnt := rfl
@[simp] theorem modCore_epoch (c : Nat) (f : Core → Core) : (modCore c f s).epoch = s.epoch := rfl
@[simp] theorem modCore_gfail (c : Nat) (f : Core → Core) : (modCore c f s).gfail = s.gfail := rfl
@[simp] theorem modCore_signalMap (c : Nat) (f : Core → Core) : (modCore c f s).signalMap = s.signalMap := rfl
@[simp] theorem modCore_units (c : Nat) (f : Core → Core) : (modCore c f s).units = s.units := rfl
@[simp] theorem modCore_expose (c : Nat) (f : Core → Core) : (modCore c f s).expose = s.expose := rfl
@[simp] theorem modCore_book (c : Nat) (f : Core → Core) : (modCore c f s).book = s.book := rfl
@[simp] theorem modCore_alm (c : Nat) (f : Core → Core) : (modCore c f s).alm = s.alm := rfl
@[simp] theorem modCore_forge (c : Nat) (f : Core → Core) : (modCore c f s).forge = s.forge := rfl
@[simp] theorem modCore_exp (c : Nat) (f : Core → Core) : (modCore c f s).exp = s.exp := rfl
@[simp] theorem modCore_roll (c : Nat) (f : Core → Core) : (modCore c f s).roll = s.roll := rfl
@[simp] theorem modCore_ops (c : Nat) (f : Core → Core) : (modCore c f s).ops = s.ops := rfl
@[simp] theorem modCore_waves (c : Nat) (f : Core → Core) : (modCore c f s).waves = s.waves := rfl
@[simp] theorem modCore_heldCloses (c : Nat) (f : Core → Core) : (modCore c f s).heldCloses = s.heldCloses := rfl
@[simp] theorem modCore_heldAsks (c : Nat) (f : Core → Core) : (modCore c f s).heldAsks = s.heldAsks := rfl
@[simp] theorem modCore_wellStamp (c : Nat) (f : Core → Core) : (modCore c f s).wellStamp = s.wellStamp := rfl
@[simp] theorem modCore_lost (c : Nat) (f : Core → Core) : (modCore c f s).lost = s.lost := rfl
@[simp] theorem modCore_mkt (c : Nat) (f : Core → Core) : (modCore c f s).mkt = s.mkt := rfl
@[simp] theorem modCore_gates (c : Nat) (f : Core → Core) : (modCore c f s).gates = s.gates := rfl
@[simp] theorem modCore_wells (c : Nat) (f : Core → Core) : (modCore c f s).wells = s.wells := rfl
@[simp] theorem modCore_host (c : Nat) (f : Core → Core) : (modCore c f s).host = s.host := rfl
@[simp] theorem modCore_hostPoison (c : Nat) (f : Core → Core) : (modCore c f s).hostPoison = s.hostPoison := rfl
@[simp] theorem getGate_modCore (c : Nat) (f : Core → Core) (x : Nat) : getGate (modCore c f s) x = getGate s x := rfl
@[simp] theorem getWell_modCore (c : Nat) (f : Core → Core) (x : Nat) : getWell (modCore c f s) x = getWell s x := rfl
@[simp] theorem getUnit_modCore (c : Nat) (f : Core → Core) (x : Nat) : getUnit (modCore c f s) x = getUnit s x := rfl

/-! ### setGate changes only `gates` -/

@[simp] theorem setGate_pending (g : Nat) (k : Gate) : (setGate s g k).pending = s.pending := rfl
@[simp] theorem setGate_pins (g : Nat) (k : Gate) : (setGate s g k).pins = s.pins := rfl
@[simp] theorem setGate_mgt (g : Nat) (k : Gate) : (setGate s g k).mgt = s.mgt := rfl
@[simp] theorem setGate_aon (g : Nat) (k : Gate) : (setGate s g k).aon = s.aon := rfl
@[simp] theorem setGate_boot (g : Nat) (k : Gate) : (setGate s g k).boot = s.boot := rfl
@[simp] theorem setGate_charter (g : Nat) (k : Gate) : (setGate s g k).charter = s.charter := rfl
@[simp] theorem setGate_cmd (g : Nat) (k : Gate) : (setGate s g k).cmd = s.cmd := rfl
@[simp] theorem setGate_step (g : Nat) (k : Gate) : (setGate s g k).step = s.step := rfl
@[simp] theorem setGate_bell (g : Nat) (k : Gate) : (setGate s g k).bell = s.bell := rfl
@[simp] theorem setGate_audit (g : Nat) (k : Gate) : (setGate s g k).audit = s.audit := rfl
@[simp] theorem setGate_flt (g : Nat) (k : Gate) : (setGate s g k).flt = s.flt := rfl
@[simp] theorem setGate_doneCnt (g : Nat) (k : Gate) : (setGate s g k).doneCnt = s.doneCnt := rfl
@[simp] theorem setGate_faultCnt (g : Nat) (k : Gate) : (setGate s g k).faultCnt = s.faultCnt := rfl
@[simp] theorem setGate_epoch (g : Nat) (k : Gate) : (setGate s g k).epoch = s.epoch := rfl
@[simp] theorem setGate_gfail (g : Nat) (k : Gate) : (setGate s g k).gfail = s.gfail := rfl
@[simp] theorem setGate_signalMap (g : Nat) (k : Gate) : (setGate s g k).signalMap = s.signalMap := rfl
@[simp] theorem setGate_units (g : Nat) (k : Gate) : (setGate s g k).units = s.units := rfl
@[simp] theorem setGate_expose (g : Nat) (k : Gate) : (setGate s g k).expose = s.expose := rfl
@[simp] theorem setGate_book (g : Nat) (k : Gate) : (setGate s g k).book = s.book := rfl
@[simp] theorem setGate_alm (g : Nat) (k : Gate) : (setGate s g k).alm = s.alm := rfl
@[simp] theorem setGate_forge (g : Nat) (k : Gate) : (setGate s g k).forge = s.forge := rfl
@[simp] theorem setGate_exp (g : Nat) (k : Gate) : (setGate s g k).exp = s.exp := rfl
@[simp] theorem setGate_roll (g : Nat) (k : Gate) : (setGate s g k).roll = s.roll := rfl
@[simp] theorem setGate_ops (g : Nat) (k : Gate) : (setGate s g k).ops = s.ops := rfl
@[simp] theorem setGate_waves (g : Nat) (k : Gate) : (setGate s g k).waves = s.waves := rfl
@[simp] theorem setGate_heldCloses (g : Nat) (k : Gate) : (setGate s g k).heldCloses = s.heldCloses := rfl
@[simp] theorem setGate_heldAsks (g : Nat) (k : Gate) : (setGate s g k).heldAsks = s.heldAsks := rfl
@[simp] theorem setGate_wellStamp (g : Nat) (k : Gate) : (setGate s g k).wellStamp = s.wellStamp := rfl
@[simp] theorem setGate_lost (g : Nat) (k : Gate) : (setGate s g k).lost = s.lost := rfl
@[simp] theorem setGate_mkt (g : Nat) (k : Gate) : (setGate s g k).mkt = s.mkt := rfl
@[simp] theorem setGate_cores (g : Nat) (k : Gate) : (setGate s g k).cores = s.cores := rfl
@[simp] theorem setGate_wells (g : Nat) (k : Gate) : (setGate s g k).wells = s.wells := rfl
@[simp] theorem setGate_host (g : Nat) (k : Gate) : (setGate s g k).host = s.host := rfl
@[simp] theorem setGate_hostPoison (g : Nat) (k : Gate) : (setGate s g k).hostPoison = s.hostPoison := rfl
@[simp] theorem getCore_setGate (g : Nat) (k : Gate) (x : Nat) : getCore (setGate s g k) x = getCore s x := rfl
@[simp] theorem getWell_setGate (g : Nat) (k : Gate) (x : Nat) : getWell (setGate s g k) x = getWell s x := rfl
@[simp] theorem getUnit_setGate (g : Nat) (k : Gate) (x : Nat) : getUnit (setGate s g k) x = getUnit s x := rfl

/-! ### modGate changes only `gates` -/

@[simp] theorem modGate_pending (g : Nat) (f : Gate → Gate) : (modGate g f s).pending = s.pending := rfl
@[simp] theorem modGate_pins (g : Nat) (f : Gate → Gate) : (modGate g f s).pins = s.pins := rfl
@[simp] theorem modGate_mgt (g : Nat) (f : Gate → Gate) : (modGate g f s).mgt = s.mgt := rfl
@[simp] theorem modGate_aon (g : Nat) (f : Gate → Gate) : (modGate g f s).aon = s.aon := rfl
@[simp] theorem modGate_boot (g : Nat) (f : Gate → Gate) : (modGate g f s).boot = s.boot := rfl
@[simp] theorem modGate_charter (g : Nat) (f : Gate → Gate) : (modGate g f s).charter = s.charter := rfl
@[simp] theorem modGate_cmd (g : Nat) (f : Gate → Gate) : (modGate g f s).cmd = s.cmd := rfl
@[simp] theorem modGate_step (g : Nat) (f : Gate → Gate) : (modGate g f s).step = s.step := rfl
@[simp] theorem modGate_bell (g : Nat) (f : Gate → Gate) : (modGate g f s).bell = s.bell := rfl
@[simp] theorem modGate_audit (g : Nat) (f : Gate → Gate) : (modGate g f s).audit = s.audit := rfl
@[simp] theorem modGate_flt (g : Nat) (f : Gate → Gate) : (modGate g f s).flt = s.flt := rfl
@[simp] theorem modGate_doneCnt (g : Nat) (f : Gate → Gate) : (modGate g f s).doneCnt = s.doneCnt := rfl
@[simp] theorem modGate_faultCnt (g : Nat) (f : Gate → Gate) : (modGate g f s).faultCnt = s.faultCnt := rfl
@[simp] theorem modGate_epoch (g : Nat) (f : Gate → Gate) : (modGate g f s).epoch = s.epoch := rfl
@[simp] theorem modGate_gfail (g : Nat) (f : Gate → Gate) : (modGate g f s).gfail = s.gfail := rfl
@[simp] theorem modGate_signalMap (g : Nat) (f : Gate → Gate) : (modGate g f s).signalMap = s.signalMap := rfl
@[simp] theorem modGate_units (g : Nat) (f : Gate → Gate) : (modGate g f s).units = s.units := rfl
@[simp] theorem modGate_expose (g : Nat) (f : Gate → Gate) : (modGate g f s).expose = s.expose := rfl
@[simp] theorem modGate_book (g : Nat) (f : Gate → Gate) : (modGate g f s).book = s.book := rfl
@[simp] theorem modGate_alm (g : Nat) (f : Gate → Gate) : (modGate g f s).alm = s.alm := rfl
@[simp] theorem modGate_forge (g : Nat) (f : Gate → Gate) : (modGate g f s).forge = s.forge := rfl
@[simp] theorem modGate_exp (g : Nat) (f : Gate → Gate) : (modGate g f s).exp = s.exp := rfl
@[simp] theorem modGate_roll (g : Nat) (f : Gate → Gate) : (modGate g f s).roll = s.roll := rfl
@[simp] theorem modGate_ops (g : Nat) (f : Gate → Gate) : (modGate g f s).ops = s.ops := rfl
@[simp] theorem modGate_waves (g : Nat) (f : Gate → Gate) : (modGate g f s).waves = s.waves := rfl
@[simp] theorem modGate_heldCloses (g : Nat) (f : Gate → Gate) : (modGate g f s).heldCloses = s.heldCloses := rfl
@[simp] theorem modGate_heldAsks (g : Nat) (f : Gate → Gate) : (modGate g f s).heldAsks = s.heldAsks := rfl
@[simp] theorem modGate_wellStamp (g : Nat) (f : Gate → Gate) : (modGate g f s).wellStamp = s.wellStamp := rfl
@[simp] theorem modGate_lost (g : Nat) (f : Gate → Gate) : (modGate g f s).lost = s.lost := rfl
@[simp] theorem modGate_mkt (g : Nat) (f : Gate → Gate) : (modGate g f s).mkt = s.mkt := rfl
@[simp] theorem modGate_cores (g : Nat) (f : Gate → Gate) : (modGate g f s).cores = s.cores := rfl
@[simp] theorem modGate_wells (g : Nat) (f : Gate → Gate) : (modGate g f s).wells = s.wells := rfl
@[simp] theorem modGate_host (g : Nat) (f : Gate → Gate) : (modGate g f s).host = s.host := rfl
@[simp] theorem modGate_hostPoison (g : Nat) (f : Gate → Gate) : (modGate g f s).hostPoison = s.hostPoison := rfl
@[simp] theorem getCore_modGate (g : Nat) (f : Gate → Gate) (x : Nat) : getCore (modGate g f s) x = getCore s x := rfl
@[simp] theorem getWell_modGate (g : Nat) (f : Gate → Gate) (x : Nat) : getWell (modGate g f s) x = getWell s x := rfl
@[simp] theorem getUnit_modGate (g : Nat) (f : Gate → Gate) (x : Nat) : getUnit (modGate g f s) x = getUnit s x := rfl

/-! ### setWell changes only `wells` -/

@[simp] theorem setWell_pending (w : Nat) (k : Well) : (setWell s w k).pending = s.pending := rfl
@[simp] theorem setWell_pins (w : Nat) (k : Well) : (setWell s w k).pins = s.pins := rfl
@[simp] theorem setWell_mgt (w : Nat) (k : Well) : (setWell s w k).mgt = s.mgt := rfl
@[simp] theorem setWell_aon (w : Nat) (k : Well) : (setWell s w k).aon = s.aon := rfl
@[simp] theorem setWell_boot (w : Nat) (k : Well) : (setWell s w k).boot = s.boot := rfl
@[simp] theorem setWell_charter (w : Nat) (k : Well) : (setWell s w k).charter = s.charter := rfl
@[simp] theorem setWell_cmd (w : Nat) (k : Well) : (setWell s w k).cmd = s.cmd := rfl
@[simp] theorem setWell_step (w : Nat) (k : Well) : (setWell s w k).step = s.step := rfl
@[simp] theorem setWell_bell (w : Nat) (k : Well) : (setWell s w k).bell = s.bell := rfl
@[simp] theorem setWell_audit (w : Nat) (k : Well) : (setWell s w k).audit = s.audit := rfl
@[simp] theorem setWell_flt (w : Nat) (k : Well) : (setWell s w k).flt = s.flt := rfl
@[simp] theorem setWell_doneCnt (w : Nat) (k : Well) : (setWell s w k).doneCnt = s.doneCnt := rfl
@[simp] theorem setWell_faultCnt (w : Nat) (k : Well) : (setWell s w k).faultCnt = s.faultCnt := rfl
@[simp] theorem setWell_epoch (w : Nat) (k : Well) : (setWell s w k).epoch = s.epoch := rfl
@[simp] theorem setWell_gfail (w : Nat) (k : Well) : (setWell s w k).gfail = s.gfail := rfl
@[simp] theorem setWell_signalMap (w : Nat) (k : Well) : (setWell s w k).signalMap = s.signalMap := rfl
@[simp] theorem setWell_units (w : Nat) (k : Well) : (setWell s w k).units = s.units := rfl
@[simp] theorem setWell_expose (w : Nat) (k : Well) : (setWell s w k).expose = s.expose := rfl
@[simp] theorem setWell_book (w : Nat) (k : Well) : (setWell s w k).book = s.book := rfl
@[simp] theorem setWell_alm (w : Nat) (k : Well) : (setWell s w k).alm = s.alm := rfl
@[simp] theorem setWell_forge (w : Nat) (k : Well) : (setWell s w k).forge = s.forge := rfl
@[simp] theorem setWell_exp (w : Nat) (k : Well) : (setWell s w k).exp = s.exp := rfl
@[simp] theorem setWell_roll (w : Nat) (k : Well) : (setWell s w k).roll = s.roll := rfl
@[simp] theorem setWell_ops (w : Nat) (k : Well) : (setWell s w k).ops = s.ops := rfl
@[simp] theorem setWell_waves (w : Nat) (k : Well) : (setWell s w k).waves = s.waves := rfl
@[simp] theorem setWell_heldCloses (w : Nat) (k : Well) : (setWell s w k).heldCloses = s.heldCloses := rfl
@[simp] theorem setWell_heldAsks (w : Nat) (k : Well) : (setWell s w k).heldAsks = s.heldAsks := rfl
@[simp] theorem setWell_wellStamp (w : Nat) (k : Well) : (setWell s w k).wellStamp = s.wellStamp := rfl
@[simp] theorem setWell_lost (w : Nat) (k : Well) : (setWell s w k).lost = s.lost := rfl
@[simp] theorem setWell_mkt (w : Nat) (k : Well) : (setWell s w k).mkt = s.mkt := rfl
@[simp] theorem setWell_cores (w : Nat) (k : Well) : (setWell s w k).cores = s.cores := rfl
@[simp] theorem setWell_gates (w : Nat) (k : Well) : (setWell s w k).gates = s.gates := rfl
@[simp] theorem setWell_host (w : Nat) (k : Well) : (setWell s w k).host = s.host := rfl
@[simp] theorem setWell_hostPoison (w : Nat) (k : Well) : (setWell s w k).hostPoison = s.hostPoison := rfl
@[simp] theorem getCore_setWell (w : Nat) (k : Well) (x : Nat) : getCore (setWell s w k) x = getCore s x := rfl
@[simp] theorem getGate_setWell (w : Nat) (k : Well) (x : Nat) : getGate (setWell s w k) x = getGate s x := rfl
@[simp] theorem getUnit_setWell (w : Nat) (k : Well) (x : Nat) : getUnit (setWell s w k) x = getUnit s x := rfl

/-! ### modWell changes only `wells` -/

@[simp] theorem modWell_pending (w : Nat) (f : Well → Well) : (modWell w f s).pending = s.pending := rfl
@[simp] theorem modWell_pins (w : Nat) (f : Well → Well) : (modWell w f s).pins = s.pins := rfl
@[simp] theorem modWell_mgt (w : Nat) (f : Well → Well) : (modWell w f s).mgt = s.mgt := rfl
@[simp] theorem modWell_aon (w : Nat) (f : Well → Well) : (modWell w f s).aon = s.aon := rfl
@[simp] theorem modWell_boot (w : Nat) (f : Well → Well) : (modWell w f s).boot = s.boot := rfl
@[simp] theorem modWell_charter (w : Nat) (f : Well → Well) : (modWell w f s).charter = s.charter := rfl
@[simp] theorem modWell_cmd (w : Nat) (f : Well → Well) : (modWell w f s).cmd = s.cmd := rfl
@[simp] theorem modWell_step (w : Nat) (f : Well → Well) : (modWell w f s).step = s.step := rfl
@[simp] theorem modWell_bell (w : Nat) (f : Well → Well) : (modWell w f s).bell = s.bell := rfl
@[simp] theorem modWell_audit (w : Nat) (f : Well → Well) : (modWell w f s).audit = s.audit := rfl
@[simp] theorem modWell_flt (w : Nat) (f : Well → Well) : (modWell w f s).flt = s.flt := rfl
@[simp] theorem modWell_doneCnt (w : Nat) (f : Well → Well) : (modWell w f s).doneCnt = s.doneCnt := rfl
@[simp] theorem modWell_faultCnt (w : Nat) (f : Well → Well) : (modWell w f s).faultCnt = s.faultCnt := rfl
@[simp] theorem modWell_epoch (w : Nat) (f : Well → Well) : (modWell w f s).epoch = s.epoch := rfl
@[simp] theorem modWell_gfail (w : Nat) (f : Well → Well) : (modWell w f s).gfail = s.gfail := rfl
@[simp] theorem modWell_signalMap (w : Nat) (f : Well → Well) : (modWell w f s).signalMap = s.signalMap := rfl
@[simp] theorem modWell_units (w : Nat) (f : Well → Well) : (modWell w f s).units = s.units := rfl
@[simp] theorem modWell_expose (w : Nat) (f : Well → Well) : (modWell w f s).expose = s.expose := rfl
@[simp] theorem modWell_book (w : Nat) (f : Well → Well) : (modWell w f s).book = s.book := rfl
@[simp] theorem modWell_alm (w : Nat) (f : Well → Well) : (modWell w f s).alm = s.alm := rfl
@[simp] theorem modWell_forge (w : Nat) (f : Well → Well) : (modWell w f s).forge = s.forge := rfl
@[simp] theorem modWell_exp (w : Nat) (f : Well → Well) : (modWell w f s).exp = s.exp := rfl
@[simp] theorem modWell_roll (w : Nat) (f : Well → Well) : (modWell w f s).roll = s.roll := rfl
@[simp] theorem modWell_ops (w : Nat) (f : Well → Well) : (modWell w f s).ops = s.ops := rfl
@[simp] theorem modWell_waves (w : Nat) (f : Well → Well) : (modWell w f s).waves = s.waves := rfl
@[simp] theorem modWell_heldCloses (w : Nat) (f : Well → Well) : (modWell w f s).heldCloses = s.heldCloses := rfl
@[simp] theorem modWell_heldAsks (w : Nat) (f : Well → Well) : (modWell w f s).heldAsks = s.heldAsks := rfl
@[simp] theorem modWell_wellStamp (w : Nat) (f : Well → Well) : (modWell w f s).wellStamp = s.wellStamp := rfl
@[simp] theorem modWell_lost (w : Nat) (f : Well → Well) : (modWell w f s).lost = s.lost := rfl
@[simp] theorem modWell_mkt (w : Nat) (f : Well → Well) : (modWell w f s).mkt = s.mkt := rfl
@[simp] theorem modWell_cores (w : Nat) (f : Well → Well) : (modWell w f s).cores = s.cores := rfl
@[simp] theorem modWell_gates (w : Nat) (f : Well → Well) : (modWell w f s).gates = s.gates := rfl
@[simp] theorem modWell_host (w : Nat) (f : Well → Well) : (modWell w f s).host = s.host := rfl
@[simp] theorem modWell_hostPoison (w : Nat) (f : Well → Well) : (modWell w f s).hostPoison = s.hostPoison := rfl
@[simp] theorem getCore_modWell (w : Nat) (f : Well → Well) (x : Nat) : getCore (modWell w f s) x = getCore s x := rfl
@[simp] theorem getGate_modWell (w : Nat) (f : Well → Well) (x : Nat) : getGate (modWell w f s) x = getGate s x := rfl
@[simp] theorem getUnit_modWell (w : Nat) (f : Well → Well) (x : Nat) : getUnit (modWell w f s) x = getUnit s x := rfl

/-! ### setUnit changes only `units` -/

@[simp] theorem setUnit_pending (u : Nat) (k : UnitSt) : (setUnit s u k).pending = s.pending := rfl
@[simp] theorem setUnit_pins (u : Nat) (k : UnitSt) : (setUnit s u k).pins = s.pins := rfl
@[simp] theorem setUnit_mgt (u : Nat) (k : UnitSt) : (setUnit s u k).mgt = s.mgt := rfl
@[simp] theorem setUnit_aon (u : Nat) (k : UnitSt) : (setUnit s u k).aon = s.aon := rfl
@[simp] theorem setUnit_boot (u : Nat) (k : UnitSt) : (setUnit s u k).boot = s.boot := rfl
@[simp] theorem setUnit_charter (u : Nat) (k : UnitSt) : (setUnit s u k).charter = s.charter := rfl
@[simp] theorem setUnit_cmd (u : Nat) (k : UnitSt) : (setUnit s u k).cmd = s.cmd := rfl
@[simp] theorem setUnit_step (u : Nat) (k : UnitSt) : (setUnit s u k).step = s.step := rfl
@[simp] theorem setUnit_bell (u : Nat) (k : UnitSt) : (setUnit s u k).bell = s.bell := rfl
@[simp] theorem setUnit_audit (u : Nat) (k : UnitSt) : (setUnit s u k).audit = s.audit := rfl
@[simp] theorem setUnit_flt (u : Nat) (k : UnitSt) : (setUnit s u k).flt = s.flt := rfl
@[simp] theorem setUnit_doneCnt (u : Nat) (k : UnitSt) : (setUnit s u k).doneCnt = s.doneCnt := rfl
@[simp] theorem setUnit_faultCnt (u : Nat) (k : UnitSt) : (setUnit s u k).faultCnt = s.faultCnt := rfl
@[simp] theorem setUnit_epoch (u : Nat) (k : UnitSt) : (setUnit s u k).epoch = s.epoch := rfl
@[simp] theorem setUnit_gfail (u : Nat) (k : UnitSt) : (setUnit s u k).gfail = s.gfail := rfl
@[simp] theorem setUnit_signalMap (u : Nat) (k : UnitSt) : (setUnit s u k).signalMap = s.signalMap := rfl
@[simp] theorem setUnit_expose (u : Nat) (k : UnitSt) : (setUnit s u k).expose = s.expose := rfl
@[simp] theorem setUnit_book (u : Nat) (k : UnitSt) : (setUnit s u k).book = s.book := rfl
@[simp] theorem setUnit_alm (u : Nat) (k : UnitSt) : (setUnit s u k).alm = s.alm := rfl
@[simp] theorem setUnit_forge (u : Nat) (k : UnitSt) : (setUnit s u k).forge = s.forge := rfl
@[simp] theorem setUnit_exp (u : Nat) (k : UnitSt) : (setUnit s u k).exp = s.exp := rfl
@[simp] theorem setUnit_roll (u : Nat) (k : UnitSt) : (setUnit s u k).roll = s.roll := rfl
@[simp] theorem setUnit_ops (u : Nat) (k : UnitSt) : (setUnit s u k).ops = s.ops := rfl
@[simp] theorem setUnit_waves (u : Nat) (k : UnitSt) : (setUnit s u k).waves = s.waves := rfl
@[simp] theorem setUnit_heldCloses (u : Nat) (k : UnitSt) : (setUnit s u k).heldCloses = s.heldCloses := rfl
@[simp] theorem setUnit_heldAsks (u : Nat) (k : UnitSt) : (setUnit s u k).heldAsks = s.heldAsks := rfl
@[simp] theorem setUnit_wellStamp (u : Nat) (k : UnitSt) : (setUnit s u k).wellStamp = s.wellStamp := rfl
@[simp] theorem setUnit_lost (u : Nat) (k : UnitSt) : (setUnit s u k).lost = s.lost := rfl
@[simp] theorem setUnit_mkt (u : Nat) (k : UnitSt) : (setUnit s u k).mkt = s.mkt := rfl
@[simp] theorem setUnit_cores (u : Nat) (k : UnitSt) : (setUnit s u k).cores = s.cores := rfl
@[simp] theorem setUnit_gates (u : Nat) (k : UnitSt) : (setUnit s u k).gates = s.gates := rfl
@[simp] theorem setUnit_wells (u : Nat) (k : UnitSt) : (setUnit s u k).wells = s.wells := rfl
@[simp] theorem setUnit_host (u : Nat) (k : UnitSt) : (setUnit s u k).host = s.host := rfl
@[simp] theorem setUnit_hostPoison (u : Nat) (k : UnitSt) : (setUnit s u k).hostPoison = s.hostPoison := rfl
@[simp] theorem getCore_setUnit (u : Nat) (k : UnitSt) (x : Nat) : getCore (setUnit s u k) x = getCore s x := rfl
@[simp] theorem getGate_setUnit (u : Nat) (k : UnitSt) (x : Nat) : getGate (setUnit s u k) x = getGate s x := rfl
@[simp] theorem getWell_setUnit (u : Nat) (k : UnitSt) (x : Nat) : getWell (setUnit s u k) x = getWell s x := rfl

/-! ### modUnit changes only `units` -/

@[simp] theorem modUnit_pending (u : Nat) (f : UnitSt → UnitSt) : (modUnit u f s).pending = s.pending := rfl
@[simp] theorem modUnit_pins (u : Nat) (f : UnitSt → UnitSt) : (modUnit u f s).pins = s.pins := rfl
@[simp] theorem modUnit_mgt (u : Nat) (f : UnitSt → UnitSt) : (modUnit u f s).mgt = s.mgt := rfl
@[simp] theorem modUnit_aon (u : Nat) (f : UnitSt → UnitSt) : (modUnit u f s).aon = s.aon := rfl
@[simp] theorem modUnit_boot (u : Nat) (f : UnitSt → UnitSt) : (modUnit u f s).boot = s.boot := rfl
@[simp] theorem modUnit_charter (u : Nat) (f : UnitSt → UnitSt) : (modUnit u f s).charter = s.charter := rfl
@[simp] theorem modUnit_cmd (u : Nat) (f : UnitSt → UnitSt) : (modUnit u f s).cmd = s.cmd := rfl
@[simp] theorem modUnit_step (u : Nat) (f : UnitSt → UnitSt) : (modUnit u f s).step = s.step := rfl
@[simp] theorem modUnit_bell (u : Nat) (f : UnitSt → UnitSt) : (modUnit u f s).bell = s.bell := rfl
@[simp] theorem modUnit_audit (u : Nat) (f : UnitSt → UnitSt) : (modUnit u f s).audit = s.audit := rfl
@[simp] theorem modUnit_flt (u : Nat) (f : UnitSt → UnitSt) : (modUnit u f s).flt = s.flt := rfl
@[simp] theorem modUnit_doneCnt (u : Nat) (f : UnitSt → UnitSt) : (modUnit u f s).doneCnt = s.doneCnt := rfl
@[simp] theorem modUnit_faultCnt (u : Nat) (f : UnitSt → UnitSt) : (modUnit u f s).faultCnt = s.faultCnt := rfl
@[simp] theorem modUnit_epoch (u : Nat) (f : UnitSt → UnitSt) : (modUnit u f s).epoch = s.epoch := rfl
@[simp] theorem modUnit_gfail (u : Nat) (f : UnitSt → UnitSt) : (modUnit u f s).gfail = s.gfail := rfl
@[simp] theorem modUnit_signalMap (u : Nat) (f : UnitSt → UnitSt) : (modUnit u f s).signalMap = s.signalMap := rfl
@[simp] theorem modUnit_expose (u : Nat) (f : UnitSt → UnitSt) : (modUnit u f s).expose = s.expose := rfl
@[simp] theorem modUnit_book (u : Nat) (f : UnitSt → UnitSt) : (modUnit u f s).book = s.book := rfl
@[simp] theorem modUnit_alm (u : Nat) (f : UnitSt → UnitSt) : (modUnit u f s).alm = s.alm := rfl
@[simp] theorem modUnit_forge (u : Nat) (f : UnitSt → UnitSt) : (modUnit u f s).forge = s.forge := rfl
@[simp] theorem modUnit_exp (u : Nat) (f : UnitSt → UnitSt) : (modUnit u f s).exp = s.exp := rfl
@[simp] theorem modUnit_roll (u : Nat) (f : UnitSt → UnitSt) : (modUnit u f s).roll = s.roll := rfl
@[simp] theorem modUnit_ops (u : Nat) (f : UnitSt → UnitSt) : (modUnit u f s).ops = s.ops := rfl
@[simp] theorem modUnit_waves (u : Nat) (f : UnitSt → UnitSt) : (modUnit u f s).waves = s.waves := rfl
@[simp] theorem modUnit_heldCloses (u : Nat) (f : UnitSt → UnitSt) : (modUnit u f s).heldCloses = s.heldCloses := rfl
@[simp] theorem modUnit_heldAsks (u : Nat) (f : UnitSt → UnitSt) : (modUnit u f s).heldAsks = s.heldAsks := rfl
@[simp] theorem modUnit_wellStamp (u : Nat) (f : UnitSt → UnitSt) : (modUnit u f s).wellStamp = s.wellStamp := rfl
@[simp] theorem modUnit_lost (u : Nat) (f : UnitSt → UnitSt) : (modUnit u f s).lost = s.lost := rfl
@[simp] theorem modUnit_mkt (u : Nat) (f : UnitSt → UnitSt) : (modUnit u f s).mkt = s.mkt := rfl
@[simp] theorem modUnit_cores (u : Nat) (f : UnitSt → UnitSt) : (modUnit u f s).cores = s.cores := rfl
@[simp] theorem modUnit_gates (u : Nat) (f : UnitSt → UnitSt) : (modUnit u f s).gates = s.gates := rfl
@[simp] theorem modUnit_wells (u : Nat) (f : UnitSt → UnitSt) : (modUnit u f s).wells = s.wells := rfl
@[simp] theorem modUnit_host (u : Nat) (f : UnitSt → UnitSt) : (modUnit u f s).host = s.host := rfl
@[simp] theorem modUnit_hostPoison (u : Nat) (f : UnitSt → UnitSt) : (modUnit u f s).hostPoison = s.hostPoison := rfl
@[simp] theorem getCore_modUnit (u : Nat) (f : UnitSt → UnitSt) (x : Nat) : getCore (modUnit u f s) x = getCore s x := rfl
@[simp] theorem getGate_modUnit (u : Nat) (f : UnitSt → UnitSt) (x : Nat) : getGate (modUnit u f s) x = getGate s x := rfl
@[simp] theorem getWell_modUnit (u : Nat) (f : UnitSt → UnitSt) (x : Nat) : getWell (modUnit u f s) x = getWell s x := rfl

/-! ### nextSeq changes only `book` -/

@[simp] theorem nextSeq_pending : (nextSeq s).pending = s.pending := rfl
@[simp] theorem nextSeq_pins : (nextSeq s).pins = s.pins := rfl
@[simp] theorem nextSeq_mgt : (nextSeq s).mgt = s.mgt := rfl
@[simp] theorem nextSeq_aon : (nextSeq s).aon = s.aon := rfl
@[simp] theorem nextSeq_boot : (nextSeq s).boot = s.boot := rfl
@[simp] theorem nextSeq_charter : (nextSeq s).charter = s.charter := rfl
@[simp] theorem nextSeq_cmd : (nextSeq s).cmd = s.cmd := rfl
@[simp] theorem nextSeq_step : (nextSeq s).step = s.step := rfl
@[simp] theorem nextSeq_bell : (nextSeq s).bell = s.bell := rfl
@[simp] theorem nextSeq_audit : (nextSeq s).audit = s.audit := rfl
@[simp] theorem nextSeq_flt : (nextSeq s).flt = s.flt := rfl
@[simp] theorem nextSeq_doneCnt : (nextSeq s).doneCnt = s.doneCnt := rfl
@[simp] theorem nextSeq_faultCnt : (nextSeq s).faultCnt = s.faultCnt := rfl
@[simp] theorem nextSeq_epoch : (nextSeq s).epoch = s.epoch := rfl
@[simp] theorem nextSeq_gfail : (nextSeq s).gfail = s.gfail := rfl
@[simp] theorem nextSeq_signalMap : (nextSeq s).signalMap = s.signalMap := rfl
@[simp] theorem nextSeq_units : (nextSeq s).units = s.units := rfl
@[simp] theorem nextSeq_expose : (nextSeq s).expose = s.expose := rfl
@[simp] theorem nextSeq_alm : (nextSeq s).alm = s.alm := rfl
@[simp] theorem nextSeq_forge : (nextSeq s).forge = s.forge := rfl
@[simp] theorem nextSeq_exp : (nextSeq s).exp = s.exp := rfl
@[simp] theorem nextSeq_roll : (nextSeq s).roll = s.roll := rfl
@[simp] theorem nextSeq_ops : (nextSeq s).ops = s.ops := rfl
@[simp] theorem nextSeq_waves : (nextSeq s).waves = s.waves := rfl
@[simp] theorem nextSeq_heldCloses : (nextSeq s).heldCloses = s.heldCloses := rfl
@[simp] theorem nextSeq_heldAsks : (nextSeq s).heldAsks = s.heldAsks := rfl
@[simp] theorem nextSeq_wellStamp : (nextSeq s).wellStamp = s.wellStamp := rfl
@[simp] theorem nextSeq_lost : (nextSeq s).lost = s.lost := rfl
@[simp] theorem nextSeq_mkt : (nextSeq s).mkt = s.mkt := rfl
@[simp] theorem nextSeq_cores : (nextSeq s).cores = s.cores := rfl
@[simp] theorem nextSeq_gates : (nextSeq s).gates = s.gates := rfl
@[simp] theorem nextSeq_wells : (nextSeq s).wells = s.wells := rfl
@[simp] theorem nextSeq_host : (nextSeq s).host = s.host := rfl
@[simp] theorem nextSeq_hostPoison : (nextSeq s).hostPoison = s.hostPoison := rfl
@[simp] theorem getCore_nextSeq (x : Nat) : getCore (nextSeq s) x = getCore s x := rfl
@[simp] theorem getGate_nextSeq (x : Nat) : getGate (nextSeq s) x = getGate s x := rfl
@[simp] theorem getWell_nextSeq (x : Nat) : getWell (nextSeq s) x = getWell s x := rfl
@[simp] theorem getUnit_nextSeq (x : Nat) : getUnit (nextSeq s) x = getUnit s x := rfl

/-! ### flashProgram changes only `book` -/

@[simp] theorem flashProgram_pending (a : Nat) (bs : Bytes) : (flashProgram a bs s).pending = s.pending := rfl
@[simp] theorem flashProgram_pins (a : Nat) (bs : Bytes) : (flashProgram a bs s).pins = s.pins := rfl
@[simp] theorem flashProgram_mgt (a : Nat) (bs : Bytes) : (flashProgram a bs s).mgt = s.mgt := rfl
@[simp] theorem flashProgram_aon (a : Nat) (bs : Bytes) : (flashProgram a bs s).aon = s.aon := rfl
@[simp] theorem flashProgram_boot (a : Nat) (bs : Bytes) : (flashProgram a bs s).boot = s.boot := rfl
@[simp] theorem flashProgram_charter (a : Nat) (bs : Bytes) : (flashProgram a bs s).charter = s.charter := rfl
@[simp] theorem flashProgram_cmd (a : Nat) (bs : Bytes) : (flashProgram a bs s).cmd = s.cmd := rfl
@[simp] theorem flashProgram_step (a : Nat) (bs : Bytes) : (flashProgram a bs s).step = s.step := rfl
@[simp] theorem flashProgram_bell (a : Nat) (bs : Bytes) : (flashProgram a bs s).bell = s.bell := rfl
@[simp] theorem flashProgram_audit (a : Nat) (bs : Bytes) : (flashProgram a bs s).audit = s.audit := rfl
@[simp] theorem flashProgram_flt (a : Nat) (bs : Bytes) : (flashProgram a bs s).flt = s.flt := rfl
@[simp] theorem flashProgram_doneCnt (a : Nat) (bs : Bytes) : (flashProgram a bs s).doneCnt = s.doneCnt := rfl
@[simp] theorem flashProgram_faultCnt (a : Nat) (bs : Bytes) : (flashProgram a bs s).faultCnt = s.faultCnt := rfl
@[simp] theorem flashProgram_epoch (a : Nat) (bs : Bytes) : (flashProgram a bs s).epoch = s.epoch := rfl
@[simp] theorem flashProgram_gfail (a : Nat) (bs : Bytes) : (flashProgram a bs s).gfail = s.gfail := rfl
@[simp] theorem flashProgram_signalMap (a : Nat) (bs : Bytes) : (flashProgram a bs s).signalMap = s.signalMap := rfl
@[simp] theorem flashProgram_units (a : Nat) (bs : Bytes) : (flashProgram a bs s).units = s.units := rfl
@[simp] theorem flashProgram_expose (a : Nat) (bs : Bytes) : (flashProgram a bs s).expose = s.expose := rfl
@[simp] theorem flashProgram_alm (a : Nat) (bs : Bytes) : (flashProgram a bs s).alm = s.alm := rfl
@[simp] theorem flashProgram_forge (a : Nat) (bs : Bytes) : (flashProgram a bs s).forge = s.forge := rfl
@[simp] theorem flashProgram_exp (a : Nat) (bs : Bytes) : (flashProgram a bs s).exp = s.exp := rfl
@[simp] theorem flashProgram_roll (a : Nat) (bs : Bytes) : (flashProgram a bs s).roll = s.roll := rfl
@[simp] theorem flashProgram_ops (a : Nat) (bs : Bytes) : (flashProgram a bs s).ops = s.ops := rfl
@[simp] theorem flashProgram_waves (a : Nat) (bs : Bytes) : (flashProgram a bs s).waves = s.waves := rfl
@[simp] theorem flashProgram_heldCloses (a : Nat) (bs : Bytes) : (flashProgram a bs s).heldCloses = s.heldCloses := rfl
@[simp] theorem flashProgram_heldAsks (a : Nat) (bs : Bytes) : (flashProgram a bs s).heldAsks = s.heldAsks := rfl
@[simp] theorem flashProgram_wellStamp (a : Nat) (bs : Bytes) : (flashProgram a bs s).wellStamp = s.wellStamp := rfl
@[simp] theorem flashProgram_lost (a : Nat) (bs : Bytes) : (flashProgram a bs s).lost = s.lost := rfl
@[simp] theorem flashProgram_mkt (a : Nat) (bs : Bytes) : (flashProgram a bs s).mkt = s.mkt := rfl
@[simp] theorem flashProgram_cores (a : Nat) (bs : Bytes) : (flashProgram a bs s).cores = s.cores := rfl
@[simp] theorem flashProgram_gates (a : Nat) (bs : Bytes) : (flashProgram a bs s).gates = s.gates := rfl
@[simp] theorem flashProgram_wells (a : Nat) (bs : Bytes) : (flashProgram a bs s).wells = s.wells := rfl
@[simp] theorem flashProgram_host (a : Nat) (bs : Bytes) : (flashProgram a bs s).host = s.host := rfl
@[simp] theorem flashProgram_hostPoison (a : Nat) (bs : Bytes) : (flashProgram a bs s).hostPoison = s.hostPoison := rfl
@[simp] theorem getCore_flashProgram (a : Nat) (bs : Bytes) (x : Nat) : getCore (flashProgram a bs s) x = getCore s x := rfl
@[simp] theorem getGate_flashProgram (a : Nat) (bs : Bytes) (x : Nat) : getGate (flashProgram a bs s) x = getGate s x := rfl
@[simp] theorem getWell_flashProgram (a : Nat) (bs : Bytes) (x : Nat) : getWell (flashProgram a bs s) x = getWell s x := rfl
@[simp] theorem getUnit_flashProgram (a : Nat) (bs : Bytes) (x : Nat) : getUnit (flashProgram a bs s) x = getUnit s x := rfl

/-! ### enqueueReq changes only `wells` and `wellStamp` -/

@[simp] theorem enqueueReq_pending (r : WReq) : (enqueueReq r s).pending = s.pending := rfl
@[simp] theorem enqueueReq_pins (r : WReq) : (enqueueReq r s).pins = s.pins := rfl
@[simp] theorem enqueueReq_mgt (r : WReq) : (enqueueReq r s).mgt = s.mgt := rfl
@[simp] theorem enqueueReq_aon (r : WReq) : (enqueueReq r s).aon = s.aon := rfl
@[simp] theorem enqueueReq_boot (r : WReq) : (enqueueReq r s).boot = s.boot := rfl
@[simp] theorem enqueueReq_charter (r : WReq) : (enqueueReq r s).charter = s.charter := rfl
@[simp] theorem enqueueReq_cmd (r : WReq) : (enqueueReq r s).cmd = s.cmd := rfl
@[simp] theorem enqueueReq_step (r : WReq) : (enqueueReq r s).step = s.step := rfl
@[simp] theorem enqueueReq_bell (r : WReq) : (enqueueReq r s).bell = s.bell := rfl
@[simp] theorem enqueueReq_audit (r : WReq) : (enqueueReq r s).audit = s.audit := rfl
@[simp] theorem enqueueReq_flt (r : WReq) : (enqueueReq r s).flt = s.flt := rfl
@[simp] theorem enqueueReq_doneCnt (r : WReq) : (enqueueReq r s).doneCnt = s.doneCnt := rfl
@[simp] theorem enqueueReq_faultCnt (r : WReq) : (enqueueReq r s).faultCnt = s.faultCnt := rfl
@[simp] theorem enqueueReq_epoch (r : WReq) : (enqueueReq r s).epoch = s.epoch := rfl
@[simp] theorem enqueueReq_gfail (r : WReq) : (enqueueReq r s).gfail = s.gfail := rfl
@[simp] theorem enqueueReq_signalMap (r : WReq) : (enqueueReq r s).signalMap = s.signalMap := rfl
@[simp] theorem enqueueReq_units (r : WReq) : (enqueueReq r s).units = s.units := rfl
@[simp] theorem enqueueReq_expose (r : WReq) : (enqueueReq r s).expose = s.expose := rfl
@[simp] theorem enqueueReq_book (r : WReq) : (enqueueReq r s).book = s.book := rfl
@[simp] theorem enqueueReq_alm (r : WReq) : (enqueueReq r s).alm = s.alm := rfl
@[simp] theorem enqueueReq_forge (r : WReq) : (enqueueReq r s).forge = s.forge := rfl
@[simp] theorem enqueueReq_exp (r : WReq) : (enqueueReq r s).exp = s.exp := rfl
@[simp] theorem enqueueReq_roll (r : WReq) : (enqueueReq r s).roll = s.roll := rfl
@[simp] theorem enqueueReq_ops (r : WReq) : (enqueueReq r s).ops = s.ops := rfl
@[simp] theorem enqueueReq_waves (r : WReq) : (enqueueReq r s).waves = s.waves := rfl
@[simp] theorem enqueueReq_heldCloses (r : WReq) : (enqueueReq r s).heldCloses = s.heldCloses := rfl
@[simp] theorem enqueueReq_heldAsks (r : WReq) : (enqueueReq r s).heldAsks = s.heldAsks := rfl
@[simp] theorem enqueueReq_wellStamp (r : WReq) : (enqueueReq r s).wellStamp = s.wellStamp + 1 := rfl
@[simp] theorem enqueueReq_lost (r : WReq) : (enqueueReq r s).lost = s.lost := rfl
@[simp] theorem enqueueReq_mkt (r : WReq) : (enqueueReq r s).mkt = s.mkt := rfl
@[simp] theorem enqueueReq_cores (r : WReq) : (enqueueReq r s).cores = s.cores := rfl
@[simp] theorem enqueueReq_gates (r : WReq) : (enqueueReq r s).gates = s.gates := rfl
@[simp] theorem enqueueReq_host (r : WReq) : (enqueueReq r s).host = s.host := rfl
@[simp] theorem enqueueReq_hostPoison (r : WReq) : (enqueueReq r s).hostPoison = s.hostPoison := rfl
@[simp] theorem getCore_enqueueReq (r : WReq) (x : Nat) : getCore (enqueueReq r s) x = getCore s x := rfl
@[simp] theorem getGate_enqueueReq (r : WReq) (x : Nat) : getGate (enqueueReq r s) x = getGate s x := rfl
@[simp] theorem getUnit_enqueueReq (r : WReq) (x : Nat) : getUnit (enqueueReq r s) x = getUnit s x := rfl

/-! ### modOp changes only `ops` -/

@[simp] theorem modOp_pending (nm : OpName) (f : Op → Op) : (modOp nm f s).pending = s.pending := rfl
@[simp] theorem modOp_pins (nm : OpName) (f : Op → Op) : (modOp nm f s).pins = s.pins := rfl
@[simp] theorem modOp_mgt (nm : OpName) (f : Op → Op) : (modOp nm f s).mgt = s.mgt := rfl
@[simp] theorem modOp_aon (nm : OpName) (f : Op → Op) : (modOp nm f s).aon = s.aon := rfl
@[simp] theorem modOp_boot (nm : OpName) (f : Op → Op) : (modOp nm f s).boot = s.boot := rfl
@[simp] theorem modOp_charter (nm : OpName) (f : Op → Op) : (modOp nm f s).charter = s.charter := rfl
@[simp] theorem modOp_cmd (nm : OpName) (f : Op → Op) : (modOp nm f s).cmd = s.cmd := rfl
@[simp] theorem modOp_step (nm : OpName) (f : Op → Op) : (modOp nm f s).step = s.step := rfl
@[simp] theorem modOp_bell (nm : OpName) (f : Op → Op) : (modOp nm f s).bell = s.bell := rfl
@[simp] theorem modOp_audit (nm : OpName) (f : Op → Op) : (modOp nm f s).audit = s.audit := rfl
@[simp] theorem modOp_flt (nm : OpName) (f : Op → Op) : (modOp nm f s).flt = s.flt := rfl
@[simp] theorem modOp_doneCnt (nm : OpName) (f : Op → Op) : (modOp nm f s).doneCnt = s.doneCnt := rfl
@[simp] theorem modOp_faultCnt (nm : OpName) (f : Op → Op) : (modOp nm f s).faultCnt = s.faultCnt := rfl
@[simp] theorem modOp_epoch (nm : OpName) (f : Op → Op) : (modOp nm f s).epoch = s.epoch := rfl
@[simp] theorem modOp_gfail (nm : OpName) (f : Op → Op) : (modOp nm f s).gfail = s.gfail := rfl
@[simp] theorem modOp_signalMap (nm : OpName) (f : Op → Op) : (modOp nm f s).signalMap = s.signalMap := rfl
@[simp] theorem modOp_units (nm : OpName) (f : Op → Op) : (modOp nm f s).units = s.units := rfl
@[simp] theorem modOp_expose (nm : OpName) (f : Op → Op) : (modOp nm f s).expose = s.expose := rfl
@[simp] theorem modOp_book (nm : OpName) (f : Op → Op) : (modOp nm f s).book = s.book := rfl
@[simp] theorem modOp_alm (nm : OpName) (f : Op → Op) : (modOp nm f s).alm = s.alm := rfl
@[simp] theorem modOp_forge (nm : OpName) (f : Op → Op) : (modOp nm f s).forge = s.forge := rfl
@[simp] theorem modOp_exp (nm : OpName) (f : Op → Op) : (modOp nm f s).exp = s.exp := rfl
@[simp] theorem modOp_roll (nm : OpName) (f : Op → Op) : (modOp nm f s).roll = s.roll := rfl
@[simp] theorem modOp_waves (nm : OpName) (f : Op → Op) : (modOp nm f s).waves = s.waves := rfl
@[simp] theorem modOp_heldCloses (nm : OpName) (f : Op → Op) : (modOp nm f s).heldCloses = s.heldCloses := rfl
@[simp] theorem modOp_heldAsks (nm : OpName) (f : Op → Op) : (modOp nm f s).heldAsks = s.heldAsks := rfl
@[simp] theorem modOp_wellStamp (nm : OpName) (f : Op → Op) : (modOp nm f s).wellStamp = s.wellStamp := rfl
@[simp] theorem modOp_lost (nm : OpName) (f : Op → Op) : (modOp nm f s).lost = s.lost := rfl
@[simp] theorem modOp_mkt (nm : OpName) (f : Op → Op) : (modOp nm f s).mkt = s.mkt := rfl
@[simp] theorem modOp_cores (nm : OpName) (f : Op → Op) : (modOp nm f s).cores = s.cores := rfl
@[simp] theorem modOp_gates (nm : OpName) (f : Op → Op) : (modOp nm f s).gates = s.gates := rfl
@[simp] theorem modOp_wells (nm : OpName) (f : Op → Op) : (modOp nm f s).wells = s.wells := rfl
@[simp] theorem modOp_host (nm : OpName) (f : Op → Op) : (modOp nm f s).host = s.host := rfl
@[simp] theorem modOp_hostPoison (nm : OpName) (f : Op → Op) : (modOp nm f s).hostPoison = s.hostPoison := rfl
@[simp] theorem getCore_modOp (nm : OpName) (f : Op → Op) (x : Nat) : getCore (modOp nm f s) x = getCore s x := rfl
@[simp] theorem getGate_modOp (nm : OpName) (f : Op → Op) (x : Nat) : getGate (modOp nm f s) x = getGate s x := rfl
@[simp] theorem getWell_modOp (nm : OpName) (f : Op → Op) (x : Nat) : getWell (modOp nm f s) x = getWell s x := rfl
@[simp] theorem getUnit_modOp (nm : OpName) (f : Op → Op) (x : Nat) : getUnit (modOp nm f s) x = getUnit s x := rfl

/-! ### modCell changes only `ops` -/

@[simp] theorem modCell_pending (nm : OpName) (j : Nat) (f : Cell → Cell) : (modCell nm j f s).pending = s.pending := rfl
@[simp] theorem modCell_pins (nm : OpName) (j : Nat) (f : Cell → Cell) : (modCell nm j f s).pins = s.pins := rfl
@[simp] theorem modCell_mgt (nm : OpName) (j : Nat) (f : Cell → Cell) : (modCell nm j f s).mgt = s.mgt := rfl
@[simp] theorem modCell_aon (nm : OpName) (j : Nat) (f : Cell → Cell) : (modCell nm j f s).aon = s.aon := rfl
@[simp] theorem modCell_boot (nm : OpName) (j : Nat) (f : Cell → Cell) : (modCell nm j f s).boot = s.boot := rfl
@[simp] theorem modCell_charter (nm : OpName) (j : Nat) (f : Cell → Cell) : (modCell nm j f s).charter = s.charter := rfl
@[simp] theorem modCell_cmd (nm : OpName) (j : Nat) (f : Cell → Cell) : (modCell nm j f s).cmd = s.cmd := rfl
@[simp] theorem modCell_step (nm : OpName) (j : Nat) (f : Cell → Cell) : (modCell nm j f s).step = s.step := rfl
@[simp] theorem modCell_bell (nm : OpName) (j : Nat) (f : Cell → Cell) : (modCell nm j f s).bell = s.bell := rfl
@[simp] theorem modCell_audit (nm : OpName) (j : Nat) (f : Cell → Cell) : (modCell nm j f s).audit = s.audit := rfl
@[simp] theorem modCell_flt (nm : OpName) (j : Nat) (f : Cell → Cell) : (modCell nm j f s).flt = s.flt := rfl
@[simp] theorem modCell_doneCnt (nm : OpName) (j : Nat) (f : Cell → Cell) : (modCell nm j f s).doneCnt = s.doneCnt := rfl
@[simp] theorem modCell_faultCnt (nm : OpName) (j : Nat) (f : Cell → Cell) : (modCell nm j f s).faultCnt = s.faultCnt := rfl
@[simp] theorem modCell_epoch (nm : OpName) (j : Nat) (f : Cell → Cell) : (modCell nm j f s).epoch = s.epoch := rfl
@[simp] theorem modCell_gfail (nm : OpName) (j : Nat) (f : Cell → Cell) : (modCell nm j f s).gfail = s.gfail := rfl
@[simp] theorem modCell_signalMap (nm : OpName) (j : Nat) (f : Cell → Cell) : (modCell nm j f s).signalMap = s.signalMap := rfl
@[simp] theorem modCell_units (nm : OpName) (j : Nat) (f : Cell → Cell) : (modCell nm j f s).units = s.units := rfl
@[simp] theorem modCell_expose (nm : OpName) (j : Nat) (f : Cell → Cell) : (modCell nm j f s).expose = s.expose := rfl
@[simp] theorem modCell_book (nm : OpName) (j : Nat) (f : Cell → Cell) : (modCell nm j f s).book = s.book := rfl
@[simp] theorem modCell_alm (nm : OpName) (j : Nat) (f : Cell → Cell) : (modCell nm j f s).alm = s.alm := rfl
@[simp] theorem modCell_forge (nm : OpName) (j : Nat) (f : Cell → Cell) : (modCell nm j f s).forge = s.forge := rfl
@[simp] theorem modCell_exp (nm : OpName) (j : Nat) (f : Cell → Cell) : (modCell nm j f s).exp = s.exp := rfl
@[simp] theorem modCell_roll (nm : OpName) (j : Nat) (f : Cell → Cell) : (modCell nm j f s).roll = s.roll := rfl
@[simp] theorem modCell_waves (nm : OpName) (j : Nat) (f : Cell → Cell) : (modCell nm j f s).waves = s.waves := rfl
@[simp] theorem modCell_heldCloses (nm : OpName) (j : Nat) (f : Cell → Cell) : (modCell nm j f s).heldCloses = s.heldCloses := rfl
@[simp] theorem modCell_heldAsks (nm : OpName) (j : Nat) (f : Cell → Cell) : (modCell nm j f s).heldAsks = s.heldAsks := rfl
@[simp] theorem modCell_wellStamp (nm : OpName) (j : Nat) (f : Cell → Cell) : (modCell nm j f s).wellStamp = s.wellStamp := rfl
@[simp] theorem modCell_lost (nm : OpName) (j : Nat) (f : Cell → Cell) : (modCell nm j f s).lost = s.lost := rfl
@[simp] theorem modCell_mkt (nm : OpName) (j : Nat) (f : Cell → Cell) : (modCell nm j f s).mkt = s.mkt := rfl
@[simp] theorem modCell_cores (nm : OpName) (j : Nat) (f : Cell → Cell) : (modCell nm j f s).cores = s.cores := rfl
@[simp] theorem modCell_gates (nm : OpName) (j : Nat) (f : Cell → Cell) : (modCell nm j f s).gates = s.gates := rfl
@[simp] theorem modCell_wells (nm : OpName) (j : Nat) (f : Cell → Cell) : (modCell nm j f s).wells = s.wells := rfl
@[simp] theorem modCell_host (nm : OpName) (j : Nat) (f : Cell → Cell) : (modCell nm j f s).host = s.host := rfl
@[simp] theorem modCell_hostPoison (nm : OpName) (j : Nat) (f : Cell → Cell) : (modCell nm j f s).hostPoison = s.hostPoison := rfl
@[simp] theorem getCore_modCell (nm : OpName) (j : Nat) (f : Cell → Cell) (x : Nat) : getCore (modCell nm j f s) x = getCore s x := rfl
@[simp] theorem getGate_modCell (nm : OpName) (j : Nat) (f : Cell → Cell) (x : Nat) : getGate (modCell nm j f s) x = getGate s x := rfl
@[simp] theorem getWell_modCell (nm : OpName) (j : Nat) (f : Cell → Cell) (x : Nat) : getWell (modCell nm j f s) x = getWell s x := rfl
@[simp] theorem getUnit_modCell (nm : OpName) (j : Nat) (f : Cell → Cell) (x : Nat) : getUnit (modCell nm j f s) x = getUnit s x := rfl

/-! ### modWave changes only `waves` -/

@[simp] theorem modWave_pending (nm : WaveName) (f : Wave → Wave) : (modWave nm f s).pending = s.pending := rfl
@[simp] theorem modWave_pins (nm : WaveName) (f : Wave → Wave) : (modWave nm f s).pins = s.pins := rfl
@[simp] theorem modWave_mgt (nm : WaveName) (f : Wave → Wave) : (modWave nm f s).mgt = s.mgt := rfl
@[simp] theorem modWave_aon (nm : WaveName) (f : Wave → Wave) : (modWave nm f s).aon = s.aon := rfl
@[simp] theorem modWave_boot (nm : WaveName) (f : Wave → Wave) : (modWave nm f s).boot = s.boot := rfl
@[simp] theorem modWave_charter (nm : WaveName) (f : Wave → Wave) : (modWave nm f s).charter = s.charter := rfl
@[simp] theorem modWave_cmd (nm : WaveName) (f : Wave → Wave) : (modWave nm f s).cmd = s.cmd := rfl
@[simp] theorem modWave_step (nm : WaveName) (f : Wave → Wave) : (modWave nm f s).step = s.step := rfl
@[simp] theorem modWave_bell (nm : WaveName) (f : Wave → Wave) : (modWave nm f s).bell = s.bell := rfl
@[simp] theorem modWave_audit (nm : WaveName) (f : Wave → Wave) : (modWave nm f s).audit = s.audit := rfl
@[simp] theorem modWave_flt (nm : WaveName) (f : Wave → Wave) : (modWave nm f s).flt = s.flt := rfl
@[simp] theorem modWave_doneCnt (nm : WaveName) (f : Wave → Wave) : (modWave nm f s).doneCnt = s.doneCnt := rfl
@[simp] theorem modWave_faultCnt (nm : WaveName) (f : Wave → Wave) : (modWave nm f s).faultCnt = s.faultCnt := rfl
@[simp] theorem modWave_epoch (nm : WaveName) (f : Wave → Wave) : (modWave nm f s).epoch = s.epoch := rfl
@[simp] theorem modWave_gfail (nm : WaveName) (f : Wave → Wave) : (modWave nm f s).gfail = s.gfail := rfl
@[simp] theorem modWave_signalMap (nm : WaveName) (f : Wave → Wave) : (modWave nm f s).signalMap = s.signalMap := rfl
@[simp] theorem modWave_units (nm : WaveName) (f : Wave → Wave) : (modWave nm f s).units = s.units := rfl
@[simp] theorem modWave_expose (nm : WaveName) (f : Wave → Wave) : (modWave nm f s).expose = s.expose := rfl
@[simp] theorem modWave_book (nm : WaveName) (f : Wave → Wave) : (modWave nm f s).book = s.book := rfl
@[simp] theorem modWave_alm (nm : WaveName) (f : Wave → Wave) : (modWave nm f s).alm = s.alm := rfl
@[simp] theorem modWave_forge (nm : WaveName) (f : Wave → Wave) : (modWave nm f s).forge = s.forge := rfl
@[simp] theorem modWave_exp (nm : WaveName) (f : Wave → Wave) : (modWave nm f s).exp = s.exp := rfl
@[simp] theorem modWave_roll (nm : WaveName) (f : Wave → Wave) : (modWave nm f s).roll = s.roll := rfl
@[simp] theorem modWave_ops (nm : WaveName) (f : Wave → Wave) : (modWave nm f s).ops = s.ops := rfl
@[simp] theorem modWave_heldCloses (nm : WaveName) (f : Wave → Wave) : (modWave nm f s).heldCloses = s.heldCloses := rfl
@[simp] theorem modWave_heldAsks (nm : WaveName) (f : Wave → Wave) : (modWave nm f s).heldAsks = s.heldAsks := rfl
@[simp] theorem modWave_wellStamp (nm : WaveName) (f : Wave → Wave) : (modWave nm f s).wellStamp = s.wellStamp := rfl
@[simp] theorem modWave_lost (nm : WaveName) (f : Wave → Wave) : (modWave nm f s).lost = s.lost := rfl
@[simp] theorem modWave_mkt (nm : WaveName) (f : Wave → Wave) : (modWave nm f s).mkt = s.mkt := rfl
@[simp] theorem modWave_cores (nm : WaveName) (f : Wave → Wave) : (modWave nm f s).cores = s.cores := rfl
@[simp] theorem modWave_gates (nm : WaveName) (f : Wave → Wave) : (modWave nm f s).gates = s.gates := rfl
@[simp] theorem modWave_wells (nm : WaveName) (f : Wave → Wave) : (modWave nm f s).wells = s.wells := rfl
@[simp] theorem modWave_host (nm : WaveName) (f : Wave → Wave) : (modWave nm f s).host = s.host := rfl
@[simp] theorem modWave_hostPoison (nm : WaveName) (f : Wave → Wave) : (modWave nm f s).hostPoison = s.hostPoison := rfl
@[simp] theorem getCore_modWave (nm : WaveName) (f : Wave → Wave) (x : Nat) : getCore (modWave nm f s) x = getCore s x := rfl
@[simp] theorem getGate_modWave (nm : WaveName) (f : Wave → Wave) (x : Nat) : getGate (modWave nm f s) x = getGate s x := rfl
@[simp] theorem getWell_modWave (nm : WaveName) (f : Wave → Wave) (x : Nat) : getWell (modWave nm f s) x = getWell s x := rfl
@[simp] theorem getUnit_modWave (nm : WaveName) (f : Wave → Wave) (x : Nat) : getUnit (modWave nm f s) x = getUnit s x := rfl

/-! ### dropWave changes only `waves` -/

@[simp] theorem dropWave_pending (nm : WaveName) : (dropWave nm s).pending = s.pending := rfl
@[simp] theorem dropWave_pins (nm : WaveName) : (dropWave nm s).pins = s.pins := rfl
@[simp] theorem dropWave_mgt (nm : WaveName) : (dropWave nm s).mgt = s.mgt := rfl
@[simp] theorem dropWave_aon (nm : WaveName) : (dropWave nm s).aon = s.aon := rfl
@[simp] theorem dropWave_boot (nm : WaveName) : (dropWave nm s).boot = s.boot := rfl
@[simp] theorem dropWave_charter (nm : WaveName) : (dropWave nm s).charter = s.charter := rfl
@[simp] theorem dropWave_cmd (nm : WaveName) : (dropWave nm s).cmd = s.cmd := rfl
@[simp] theorem dropWave_step (nm : WaveName) : (dropWave nm s).step = s.step := rfl
@[simp] theorem dropWave_bell (nm : WaveName) : (dropWave nm s).bell = s.bell := rfl
@[simp] theorem dropWave_audit (nm : WaveName) : (dropWave nm s).audit = s.audit := rfl
@[simp] theorem dropWave_flt (nm : WaveName) : (dropWave nm s).flt = s.flt := rfl
@[simp] theorem dropWave_doneCnt (nm : WaveName) : (dropWave nm s).doneCnt = s.doneCnt := rfl
@[simp] theorem dropWave_faultCnt (nm : WaveName) : (dropWave nm s).faultCnt = s.faultCnt := rfl
@[simp] theorem dropWave_epoch (nm : WaveName) : (dropWave nm s).epoch = s.epoch := rfl
@[simp] theorem dropWave_gfail (nm : WaveName) : (dropWave nm s).gfail = s.gfail := rfl
@[simp] theorem dropWave_signalMap (nm : WaveName) : (dropWave nm s).signalMap = s.signalMap := rfl
@[simp] theorem dropWave_units (nm : WaveName) : (dropWave nm s).units = s.units := rfl
@[simp] theorem dropWave_expose (nm : WaveName) : (dropWave nm s).expose = s.expose := rfl
@[simp] theorem dropWave_book (nm : WaveName) : (dropWave nm s).book = s.book := rfl
@[simp] theorem dropWave_alm (nm : WaveName) : (dropWave nm s).alm = s.alm := rfl
@[simp] theorem dropWave_forge (nm : WaveName) : (dropWave nm s).forge = s.forge := rfl
@[simp] theorem dropWave_exp (nm : WaveName) : (dropWave nm s).exp = s.exp := rfl
@[simp] theorem dropWave_roll (nm : WaveName) : (dropWave nm s).roll = s.roll := rfl
@[simp] theorem dropWave_ops (nm : WaveName) : (dropWave nm s).ops = s.ops := rfl
@[simp] theorem dropWave_heldCloses (nm : WaveName) : (dropWave nm s).heldCloses = s.heldCloses := rfl
@[simp] theorem dropWave_heldAsks (nm : WaveName) : (dropWave nm s).heldAsks = s.heldAsks := rfl
@[simp] theorem dropWave_wellStamp (nm : WaveName) : (dropWave nm s).wellStamp = s.wellStamp := rfl
@[simp] theorem dropWave_lost (nm : WaveName) : (dropWave nm s).lost = s.lost := rfl
@[simp] theorem dropWave_mkt (nm : WaveName) : (dropWave nm s).mkt = s.mkt := rfl
@[simp] theorem dropWave_cores (nm : WaveName) : (dropWave nm s).cores = s.cores := rfl
@[simp] theorem dropWave_gates (nm : WaveName) : (dropWave nm s).gates = s.gates := rfl
@[simp] theorem dropWave_wells (nm : WaveName) : (dropWave nm s).wells = s.wells := rfl
@[simp] theorem dropWave_host (nm : WaveName) : (dropWave nm s).host = s.host := rfl
@[simp] theorem dropWave_hostPoison (nm : WaveName) : (dropWave nm s).hostPoison = s.hostPoison := rfl
@[simp] theorem getCore_dropWave (nm : WaveName) (x : Nat) : getCore (dropWave nm s) x = getCore s x := rfl
@[simp] theorem getGate_dropWave (nm : WaveName) (x : Nat) : getGate (dropWave nm s) x = getGate s x := rfl
@[simp] theorem getWell_dropWave (nm : WaveName) (x : Nat) : getWell (dropWave nm s) x = getWell s x := rfl
@[simp] theorem getUnit_dropWave (nm : WaveName) (x : Nat) : getUnit (dropWave nm s) x = getUnit s x := rfl

/-! ### modCtx changes only `mkt` -/

@[simp] theorem modCtx_pending (c : Nat) (f : Ctx → Ctx) : (modCtx c f s).pending = s.pending := rfl
@[simp] theorem modCtx_pins (c : Nat) (f : Ctx → Ctx) : (modCtx c f s).pins = s.pins := rfl
@[simp] theorem modCtx_mgt (c : Nat) (f : Ctx → Ctx) : (modCtx c f s).mgt = s.mgt := rfl
@[simp] theorem modCtx_aon (c : Nat) (f : Ctx → Ctx) : (modCtx c f s).aon = s.aon := rfl
@[simp] theorem modCtx_boot (c : Nat) (f : Ctx → Ctx) : (modCtx c f s).boot = s.boot := rfl
@[simp] theorem modCtx_charter (c : Nat) (f : Ctx → Ctx) : (modCtx c f s).charter = s.charter := rfl
@[simp] theorem modCtx_cmd (c : Nat) (f : Ctx → Ctx) : (modCtx c f s).cmd = s.cmd := rfl
@[simp] theorem modCtx_step (c : Nat) (f : Ctx → Ctx) : (modCtx c f s).step = s.step := rfl
@[simp] theorem modCtx_bell (c : Nat) (f : Ctx → Ctx) : (modCtx c f s).bell = s.bell := rfl
@[simp] theorem modCtx_audit (c : Nat) (f : Ctx → Ctx) : (modCtx c f s).audit = s.audit := rfl
@[simp] theorem modCtx_flt (c : Nat) (f : Ctx → Ctx) : (modCtx c f s).flt = s.flt := rfl
@[simp] theorem modCtx_doneCnt (c : Nat) (f : Ctx → Ctx) : (modCtx c f s).doneCnt = s.doneCnt := rfl
@[simp] theorem modCtx_faultCnt (c : Nat) (f : Ctx → Ctx) : (modCtx c f s).faultCnt = s.faultCnt := rfl
@[simp] theorem modCtx_epoch (c : Nat) (f : Ctx → Ctx) : (modCtx c f s).epoch = s.epoch := rfl
@[simp] theorem modCtx_gfail (c : Nat) (f : Ctx → Ctx) : (modCtx c f s).gfail = s.gfail := rfl
@[simp] theorem modCtx_signalMap (c : Nat) (f : Ctx → Ctx) : (modCtx c f s).signalMap = s.signalMap := rfl
@[simp] theorem modCtx_units (c : Nat) (f : Ctx → Ctx) : (modCtx c f s).units = s.units := rfl
@[simp] theorem modCtx_expose (c : Nat) (f : Ctx → Ctx) : (modCtx c f s).expose = s.expose := rfl
@[simp] theorem modCtx_book (c : Nat) (f : Ctx → Ctx) : (modCtx c f s).book = s.book := rfl
@[simp] theorem modCtx_alm (c : Nat) (f : Ctx → Ctx) : (modCtx c f s).alm = s.alm := rfl
@[simp] theorem modCtx_forge (c : Nat) (f : Ctx → Ctx) : (modCtx c f s).forge = s.forge := rfl
@[simp] theorem modCtx_exp (c : Nat) (f : Ctx → Ctx) : (modCtx c f s).exp = s.exp := rfl
@[simp] theorem modCtx_roll (c : Nat) (f : Ctx → Ctx) : (modCtx c f s).roll = s.roll := rfl
@[simp] theorem modCtx_ops (c : Nat) (f : Ctx → Ctx) : (modCtx c f s).ops = s.ops := rfl
@[simp] theorem modCtx_waves (c : Nat) (f : Ctx → Ctx) : (modCtx c f s).waves = s.waves := rfl
@[simp] theorem modCtx_heldCloses (c : Nat) (f : Ctx → Ctx) : (modCtx c f s).heldCloses = s.heldCloses := rfl
@[simp] theorem modCtx_heldAsks (c : Nat) (f : Ctx → Ctx) : (modCtx c f s).heldAsks = s.heldAsks := rfl
@[simp] theorem modCtx_wellStamp (c : Nat) (f : Ctx → Ctx) : (modCtx c f s).wellStamp = s.wellStamp := rfl
@[simp] theorem modCtx_lost (c : Nat) (f : Ctx → Ctx) : (modCtx c f s).lost = s.lost := rfl
@[simp] theorem modCtx_cores (c : Nat) (f : Ctx → Ctx) : (modCtx c f s).cores = s.cores := rfl
@[simp] theorem modCtx_gates (c : Nat) (f : Ctx → Ctx) : (modCtx c f s).gates = s.gates := rfl
@[simp] theorem modCtx_wells (c : Nat) (f : Ctx → Ctx) : (modCtx c f s).wells = s.wells := rfl
@[simp] theorem modCtx_host (c : Nat) (f : Ctx → Ctx) : (modCtx c f s).host = s.host := rfl
@[simp] theorem modCtx_hostPoison (c : Nat) (f : Ctx → Ctx) : (modCtx c f s).hostPoison = s.hostPoison := rfl
@[simp] theorem getCore_modCtx (c : Nat) (f : Ctx → Ctx) (x : Nat) : getCore (modCtx c f s) x = getCore s x := rfl
@[simp] theorem getGate_modCtx (c : Nat) (f : Ctx → Ctx) (x : Nat) : getGate (modCtx c f s) x = getGate s x := rfl
@[simp] theorem getWell_modCtx (c : Nat) (f : Ctx → Ctx) (x : Nat) : getWell (modCtx c f s) x = getWell s x := rfl
@[simp] theorem getUnit_modCtx (c : Nat) (f : Ctx → Ctx) (x : Nat) : getUnit (modCtx c f s) x = getUnit s x := rfl

/-! ### modSlot changes only `exp` -/

@[simp] theorem modSlot_pending (n : Nat) (f : ExpSlot → ExpSlot) : (modSlot n f s).pending = s.pending := rfl
@[simp] theorem modSlot_pins (n : Nat) (f : ExpSlot → ExpSlot) : (modSlot n f s).pins = s.pins := rfl
@[simp] theorem modSlot_mgt (n : Nat) (f : ExpSlot → ExpSlot) : (modSlot n f s).mgt = s.mgt := rfl
@[simp] theorem modSlot_aon (n : Nat) (f : ExpSlot → ExpSlot) : (modSlot n f s).aon = s.aon := rfl
@[simp] theorem modSlot_boot (n : Nat) (f : ExpSlot → ExpSlot) : (modSlot n f s).boot = s.boot := rfl
@[simp] theorem modSlot_charter (n : Nat) (f : ExpSlot → ExpSlot) : (modSlot n f s).charter = s.charter := rfl
@[simp] theorem modSlot_cmd (n : Nat) (f : ExpSlot → ExpSlot) : (modSlot n f s).cmd = s.cmd := rfl
@[simp] theorem modSlot_step (n : Nat) (f : ExpSlot → ExpSlot) : (modSlot n f s).step = s.step := rfl
@[simp] theorem modSlot_bell (n : Nat) (f : ExpSlot → ExpSlot) : (modSlot n f s).bell = s.bell := rfl
@[simp] theorem modSlot_audit (n : Nat) (f : ExpSlot → ExpSlot) : (modSlot n f s).audit = s.audit := rfl
@[simp] theorem modSlot_flt (n : Nat) (f : ExpSlot → ExpSlot) : (modSlot n f s).flt = s.flt := rfl
@[simp] theorem modSlot_doneCnt (n : Nat) (f : ExpSlot → ExpSlot) : (modSlot n f s).doneCnt = s.doneCnt := rfl
@[simp] theorem modSlot_faultCnt (n : Nat) (f : ExpSlot → ExpSlot) : (modSlot n f s).faultCnt = s.faultCnt := rfl
@[simp] theorem modSlot_epoch (n : Nat) (f : ExpSlot → ExpSlot) : (modSlot n f s).epoch = s.epoch := rfl
@[simp] theorem modSlot_gfail (n : Nat) (f : ExpSlot → ExpSlot) : (modSlot n f s).gfail = s.gfail := rfl
@[simp] theorem modSlot_signalMap (n : Nat) (f : ExpSlot → ExpSlot) : (modSlot n f s).signalMap = s.signalMap := rfl
@[simp] theorem modSlot_units (n : Nat) (f : ExpSlot → ExpSlot) : (modSlot n f s).units = s.units := rfl
@[simp] theorem modSlot_expose (n : Nat) (f : ExpSlot → ExpSlot) : (modSlot n f s).expose = s.expose := rfl
@[simp] theorem modSlot_book (n : Nat) (f : ExpSlot → ExpSlot) : (modSlot n f s).book = s.book := rfl
@[simp] theorem modSlot_alm (n : Nat) (f : ExpSlot → ExpSlot) : (modSlot n f s).alm = s.alm := rfl
@[simp] theorem modSlot_forge (n : Nat) (f : ExpSlot → ExpSlot) : (modSlot n f s).forge = s.forge := rfl
@[simp] theorem modSlot_roll (n : Nat) (f : ExpSlot → ExpSlot) : (modSlot n f s).roll = s.roll := rfl
@[simp] theorem modSlot_ops (n : Nat) (f : ExpSlot → ExpSlot) : (modSlot n f s).ops = s.ops := rfl
@[simp] theorem modSlot_waves (n : Nat) (f : ExpSlot → ExpSlot) : (modSlot n f s).waves = s.waves := rfl
@[simp] theorem modSlot_heldCloses (n : Nat) (f : ExpSlot → ExpSlot) : (modSlot n f s).heldCloses = s.heldCloses := rfl
@[simp] theorem modSlot_heldAsks (n : Nat) (f : ExpSlot → ExpSlot) : (modSlot n f s).heldAsks = s.heldAsks := rfl
@[simp] theorem modSlot_wellStamp (n : Nat) (f : ExpSlot → ExpSlot) : (modSlot n f s).wellStamp = s.wellStamp := rfl
@[simp] theorem modSlot_lost (n : Nat) (f : ExpSlot → ExpSlot) : (modSlot n f s).lost = s.lost := rfl
@[simp] theorem modSlot_mkt (n : Nat) (f : ExpSlot → ExpSlot) : (modSlot n f s).mkt = s.mkt := rfl
@[simp] theorem modSlot_cores (n : Nat) (f : ExpSlot → ExpSlot) : (modSlot n f s).cores = s.cores := rfl
@[simp] theorem modSlot_gates (n : Nat) (f : ExpSlot → ExpSlot) : (modSlot n f s).gates = s.gates := rfl
@[simp] theorem modSlot_wells (n : Nat) (f : ExpSlot → ExpSlot) : (modSlot n f s).wells = s.wells := rfl
@[simp] theorem modSlot_host (n : Nat) (f : ExpSlot → ExpSlot) : (modSlot n f s).host = s.host := rfl
@[simp] theorem modSlot_hostPoison (n : Nat) (f : ExpSlot → ExpSlot) : (modSlot n f s).hostPoison = s.hostPoison := rfl
@[simp] theorem getCore_modSlot (n : Nat) (f : ExpSlot → ExpSlot) (x : Nat) : getCore (modSlot n f s) x = getCore s x := rfl
@[simp] theorem getGate_modSlot (n : Nat) (f : ExpSlot → ExpSlot) (x : Nat) : getGate (modSlot n f s) x = getGate s x := rfl
@[simp] theorem getWell_modSlot (n : Nat) (f : ExpSlot → ExpSlot) (x : Nat) : getWell (modSlot n f s) x = getWell s x := rfl
@[simp] theorem getUnit_modSlot (n : Nat) (f : ExpSlot → ExpSlot) (x : Nat) : getUnit (modSlot n f s) x = getUnit s x := rfl

/-! ### popCmd changes only `cmd` -/

@[simp] theorem popCmd_pending : (popCmd s).pending = s.pending := rfl
@[simp] theorem popCmd_pins : (popCmd s).pins = s.pins := rfl
@[simp] theorem popCmd_mgt : (popCmd s).mgt = s.mgt := rfl
@[simp] theorem popCmd_aon : (popCmd s).aon = s.aon := rfl
@[simp] theorem popCmd_boot : (popCmd s).boot = s.boot := rfl
@[simp] theorem popCmd_charter : (popCmd s).charter = s.charter := rfl
@[simp] theorem popCmd_step : (popCmd s).step = s.step := rfl
@[simp] theorem popCmd_bell : (popCmd s).bell = s.bell := rfl
@[simp] theorem popCmd_audit : (popCmd s).audit = s.audit := rfl
@[simp] theorem popCmd_flt : (popCmd s).flt = s.flt := rfl
@[simp] theorem popCmd_doneCnt : (popCmd s).doneCnt = s.doneCnt := rfl
@[simp] theorem popCmd_faultCnt : (popCmd s).faultCnt = s.faultCnt := rfl
@[simp] theorem popCmd_epoch : (popCmd s).epoch = s.epoch := rfl
@[simp] theorem popCmd_gfail : (popCmd s).gfail = s.gfail := rfl
@[simp] theorem popCmd_signalMap : (popCmd s).signalMap = s.signalMap := rfl
@[simp] theorem popCmd_units : (popCmd s).units = s.units := rfl
@[simp] theorem popCmd_expose : (popCmd s).expose = s.expose := rfl
@[simp] theorem popCmd_book : (popCmd s).book = s.book := rfl
@[simp] theorem popCmd_alm : (popCmd s).alm = s.alm := rfl
@[simp] theorem popCmd_forge : (popCmd s).forge = s.forge := rfl
@[simp] theorem popCmd_exp : (popCmd s).exp = s.exp := rfl
@[simp] theorem popCmd_roll : (popCmd s).roll = s.roll := rfl
@[simp] theorem popCmd_ops : (popCmd s).ops = s.ops := rfl
@[simp] theorem popCmd_waves : (popCmd s).waves = s.waves := rfl
@[simp] theorem popCmd_heldCloses : (popCmd s).heldCloses = s.heldCloses := rfl
@[simp] theorem popCmd_heldAsks : (popCmd s).heldAsks = s.heldAsks := rfl
@[simp] theorem popCmd_wellStamp : (popCmd s).wellStamp = s.wellStamp := rfl
@[simp] theorem popCmd_lost : (popCmd s).lost = s.lost := rfl
@[simp] theorem popCmd_mkt : (popCmd s).mkt = s.mkt := rfl
@[simp] theorem popCmd_cores : (popCmd s).cores = s.cores := rfl
@[simp] theorem popCmd_gates : (popCmd s).gates = s.gates := rfl
@[simp] theorem popCmd_wells : (popCmd s).wells = s.wells := rfl
@[simp] theorem popCmd_host : (popCmd s).host = s.host := rfl
@[simp] theorem popCmd_hostPoison : (popCmd s).hostPoison = s.hostPoison := rfl
@[simp] theorem getCore_popCmd (x : Nat) : getCore (popCmd s) x = getCore s x := rfl
@[simp] theorem getGate_popCmd (x : Nat) : getGate (popCmd s) x = getGate s x := rfl
@[simp] theorem getWell_popCmd (x : Nat) : getWell (popCmd s) x = getWell s x := rfl
@[simp] theorem getUnit_popCmd (x : Nat) : getUnit (popCmd s) x = getUnit s x := rfl

/-! ### Reading a unit that has been changed -/

theorem getCore_setCore (c x : Nat) (k : Core) (h : tableWf {} s.cores = true) :
    getCore (setCore s c k) x = if x = c then k else getCore s x := tget_tset c k x h

theorem getCore_modCore (c x : Nat) (f : Core → Core) (h : tableWf {} s.cores = true) :
    getCore (modCore c f s) x = if x = c then f (getCore s c) else getCore s x := getCore_setCore s c x _ h

theorem getGate_setGate (g x : Nat) (k : Gate) (h : tableWf {} s.gates = true) :
    getGate (setGate s g k) x = if x = g then k else getGate s x := tget_tset g k x h

theorem getGate_modGate (g x : Nat) (f : Gate → Gate) (h : tableWf {} s.gates = true) :
    getGate (modGate g f s) x = if x = g then f (getGate s g) else getGate s x := getGate_setGate s g x _ h

theorem getWell_setWell (w x : Nat) (k : Well) (h : tableWf {} s.wells = true) :
    getWell (setWell s w k) x = if x = w then k else getWell s x := tget_tset w k x h

theorem getWell_modWell (w x : Nat) (f : Well → Well) (h : tableWf {} s.wells = true) :
    getWell (modWell w f s) x = if x = w then f (getWell s w) else getWell s x := getWell_setWell s w x _ h

theorem getUnit_setUnit (u x : Nat) (k : UnitSt) (h : tableWf {} s.units = true) :
    getUnit (setUnit s u k) x = if x = u then k else getUnit s x := tget_tset u k x h

theorem getUnit_modUnit (u x : Nat) (f : UnitSt → UnitSt) (h : tableWf {} s.units = true) :
    getUnit (modUnit u f s) x = if x = u then f (getUnit s u) else getUnit s x := getUnit_setUnit s u x _ h

end Sys2Proof.Machine
end

