-- ==== Sys2Proof/Laws/Faults.lean ====
section
/-! SUPPORT. What raising a fault can change (15 R525 to R541): each operation of the fault report keeps everything that
`reported` keeps, and one fault counts once in the counter of its class. -/

namespace Sys2Proof.Machine

/-! ### Only the report changes -/

theorem reported_refl (s : State) : reported s s := rfl

theorem reported_trans {a b c : State} (h1 : reported a b) (h2 : reported b c) : reported a c := by
  unfold reported at *
  rw [h1] at h2
  exact h2

theorem reported_ite {s a b : State} {c : Prop} [Decidable c] (ha : reported s a) (hb : reported s b) : reported s (if c then a else b) := by
  split <;> assumption

theorem reported_foldl {α} {f : State → α → State} (hf : ∀ s x, reported s (f s x)) (l : List α) (s) : reported s (l.foldl f s) := by
  induction l generalizing s with
  | nil => exact reported_refl s
  | cons x l ih => exact reported_trans (hf s x) (ih _)

theorem reported_enqueueReq (r s) : reported s (enqueueReq r s) := rfl

theorem reported_postWriteAs (n o a bs bad s) : reported s (postWriteAs n o a bs bad s) := by
  unfold postWriteAs
  exact reported_trans (b := { s with host := _, hostPoison := _ }) rfl (reported_foldl (fun s p => reported_enqueueReq _ s) _ _)

theorem reported_postWrite (o a bs p s) : reported s (postWrite o a bs p s) := reported_postWriteAs _ _ _ _ _ _

theorem reported_postAnnounce (o a bs s) : reported s (postAnnounce o a bs s) := reported_postWriteAs _ _ _ _ _ _

theorem reported_ringPut (e s) : reported s (ringPut .flt e s) := by
  unfold ringPut
  exact reported_trans (reported_postWrite _ _ _ _ _) rfl

theorem reported_ringPush (e s) : reported s (ringPush .flt e s) := by
  unfold ringPush
  exact reported_ite (reported_ringPut _ _) (reported_ite rfl rfl)

theorem reported_holdRecord (r s) : reported s (holdRecord r s) := by
  unfold holdRecord; exact reported_ite rfl rfl

theorem reported_flashProgram (a b s) : reported s (flashProgram a b s) := rfl

theorem reported_bookNextSector (s) : reported s (bookNextSector s) := by
  unfold bookNextSector
  refine reported_trans ?_ (reported_foldl ?_ _ _)
  · rfl
  · intro s x; rfl

theorem reported_book (s : State) (b : Book) : reported s { s with book := b } := rfl

theorem reported_bookWear (s) : reported s (bookWear s) := reported_book _ _

theorem reported_bookWrite (r s) : reported s (bookWrite r s) := by
  unfold bookWrite
  refine reported_ite ?_ (reported_holdRecord _ _)
  extract_lets s1 s2
  have h1 : reported s s1 := reported_ite (reported_trans (reported_bookNextSector s) (reported_bookWear _)) (reported_refl s)
  have h2 : reported s s2 := reported_trans h1 (reported_flashProgram _ _ _)
  exact reported_trans h2 (reported_book _ _)

theorem reported_trigger (u c n s) : reported s (trigger u c n s) := by unfold trigger; exact reported_ite rfl rfl

theorem reported_setStatus (u c n s) : reported s (setStatus u c n s) := by
  unfold setStatus
  refine reported_ite (reported_refl s) ?_
  extract_lets s1 s2
  have h : reported s s2 := reported_trans (b := s1) rfl (reported_bookWrite _ _)
  exact reported_ite (reported_trans h (reported_trigger _ _ _ _)) h

theorem reported_chargeUnit (c u s) : reported s (chargeUnit c u s) := by
  unfold chargeUnit
  exact reported_trans (b := modUnit u _ s) rfl (reported_setStatus _ _ _ _)

theorem reported_bookFault (c d u r s) : reported s (bookFault c d u r s) := by
  unfold bookFault
  extract_lets u1
  split
  · exact reported_ite rfl (reported_trans (b := modUnit u _ s) rfl (reported_bookWrite _ _))
  · exact reported_trans (b := modUnit u _ s) rfl (reported_bookWrite _ _)

theorem reported_raiseOnce (a b c d e f p s) : reported s (raiseOnce a b c d e f p s) := by
  unfold raiseOnce
  extract_lets s1 sq r s2 s3 s4
  have h1 : reported s s1 := rfl
  have h2 : reported s s2 := reported_trans h1 (reported_ite (reported_ringPush _ _) rfl)
  have h3 : reported s s3 := reported_trans h2 (reported_bookFault _ _ _ _ _)
  have h4 : reported s s4 := reported_trans h3 (reported_chargeUnit _ _ _)
  split
  · exact h4
  · exact reported_trans h4 (reported_trans (reported_chargeUnit _ _ _) (reported_trans (reported_trigger _ _ _ _) (reported_trigger _ _ _ _)))

theorem reported_bookWatch (o s) : reported s (bookWatch o s) := by
  unfold bookWatch
  extract_lets b s1
  have h1 : reported s s1 := reported_ite (reported_trans (b := { s with book := b }) rfl (reported_raiseOnce _ _ _ _ _ _ _ _)) (reported_refl s)
  exact reported_ite (reported_trans h1 (reported_raiseOnce _ _ _ _ _ _ _ _)) h1

theorem reported_raiseFull (a b c d e f p s) : reported s (raiseFull a b c d e f p s) := reported_trans (reported_raiseOnce _ _ _ _ _ _ _ _) (reported_bookWatch _ _)

theorem reported_raise (a b c d e s) : reported s (raise a b c d e s) := reported_raiseFull _ _ _ _ _ _ _ _

/-! ### The parts that stay -/

@[simp] theorem raise_pending (a b c d e s) : (raise a b c d e s).pending = s.pending := by rw [reported_raise a b c d e s]
@[simp] theorem raiseFull_pending (a b c d e f p s) : (raiseFull a b c d e f p s).pending = s.pending := by rw [reported_raiseFull a b c d e f p s]
@[simp] theorem raise_pins (a b c d e s) : (raise a b c d e s).pins = s.pins := by rw [reported_raise a b c d e s]
@[simp] theorem raiseFull_pins (a b c d e f p s) : (raiseFull a b c d e f p s).pins = s.pins := by rw [reported_raiseFull a b c d e f p s]
@[simp] theorem raise_mgt (a b c d e s) : (raise a b c d e s).mgt = s.mgt := by rw [reported_raise a b c d e s]
@[simp] theorem raiseFull_mgt (a b c d e f p s) : (raiseFull a b c d e f p s).mgt = s.mgt := by rw [reported_raiseFull a b c d e f p s]
@[simp] theorem raise_boot (a b c d e s) : (raise a b c d e s).boot = s.boot := by rw [reported_raise a b c d e s]
@[simp] theorem raiseFull_boot (a b c d e f p s) : (raiseFull a b c d e f p s).boot = s.boot := by rw [reported_raiseFull a b c d e f p s]
@[simp] theorem raise_charter (a b c d e s) : (raise a b c d e s).charter = s.charter := by rw [reported_raise a b c d e s]
@[simp] theorem raiseFull_charter (a b c d e f p s) : (raiseFull a b c d e f p s).charter = s.charter := by rw [reported_raiseFull a b c d e f p s]
@[simp] theorem raise_cmd (a b c d e s) : (raise a b c d e s).cmd = s.cmd := by rw [reported_raise a b c d e s]
@[simp] theorem raiseFull_cmd (a b c d e f p s) : (raiseFull a b c d e f p s).cmd = s.cmd := by rw [reported_raiseFull a b c d e f p s]
@[simp] theorem raise_step (a b c d e s) : (raise a b c d e s).step = s.step := by rw [reported_raise a b c d e s]
@[simp] theorem raiseFull_step (a b c d e f p s) : (raiseFull a b c d e f p s).step = s.step := by rw [reported_raiseFull a b c d e f p s]
@[simp] theorem raise_bell (a b c d e s) : (raise a b c d e s).bell = s.bell := by rw [reported_raise a b c d e s]
@[simp] theorem raiseFull_bell (a b c d e f p s) : (raiseFull a b c d e f p s).bell = s.bell := by rw [reported_raiseFull a b c d e f p s]
@[simp] theorem raise_audit (a b c d e s) : (raise a b c d e s).audit = s.audit := by rw [reported_raise a b c d e s]
@[simp] theorem raiseFull_audit (a b c d e f p s) : (raiseFull a b c d e f p s).audit = s.audit := by rw [reported_raiseFull a b c d e f p s]
@[simp] theorem raise_doneCnt (a b c d e s) : (raise a b c d e s).doneCnt = s.doneCnt := by rw [reported_raise a b c d e s]
@[simp] theorem raiseFull_doneCnt (a b c d e f p s) : (raiseFull a b c d e f p s).doneCnt = s.doneCnt := by rw [reported_raiseFull a b c d e f p s]
@[simp] theorem raise_epoch (a b c d e s) : (raise a b c d e s).epoch = s.epoch := by rw [reported_raise a b c d e s]
@[simp] theorem raiseFull_epoch (a b c d e f p s) : (raiseFull a b c d e f p s).epoch = s.epoch := by rw [reported_raiseFull a b c d e f p s]
@[simp] theorem raise_gfail (a b c d e s) : (raise a b c d e s).gfail = s.gfail := by rw [reported_raise a b c d e s]
@[simp] theorem raiseFull_gfail (a b c d e f p s) : (raiseFull a b c d e f p s).gfail = s.gfail := by rw [reported_raiseFull a b c d e f p s]
@[simp] theorem raise_signalMap (a b c d e s) : (raise a b c d e s).signalMap = s.signalMap := by rw [reported_raise a b c d e s]
@[simp] theorem raiseFull_signalMap (a b c d e f p s) : (raiseFull a b c d e f p s).signalMap = s.signalMap := by rw [reported_raiseFull a b c d e f p s]
@[simp] theorem raise_alm (a b c d e s) : (raise a b c d e s).alm = s.alm := by rw [reported_raise a b c d e s]
@[simp] theorem raiseFull_alm (a b c d e f p s) : (raiseFull a b c d e f p s).alm = s.alm := by rw [reported_raiseFull a b c d e f p s]
@[simp] theorem raise_forge (a b c d e s) : (raise a b c d e s).forge = s.forge := by rw [reported_raise a b c d e s]
@[simp] theorem raiseFull_forge (a b c d e f p s) : (raiseFull a b c d e f p s).forge = s.forge := by rw [reported_raiseFull a b c d e f p s]
@[simp] theorem raise_exp (a b c d e s) : (raise a b c d e s).exp = s.exp := by rw [reported_raise a b c d e s]
@[simp] theorem raiseFull_exp (a b c d e f p s) : (raiseFull a b c d e f p s).exp = s.exp := by rw [reported_raiseFull a b c d e f p s]
@[simp] theorem raise_roll (a b c d e s) : (raise a b c d e s).roll = s.roll := by rw [reported_raise a b c d e s]
@[simp] theorem raiseFull_roll (a b c d e f p s) : (raiseFull a b c d e f p s).roll = s.roll := by rw [reported_raiseFull a b c d e f p s]
@[simp] theorem raise_ops (a b c d e s) : (raise a b c d e s).ops = s.ops := by rw [reported_raise a b c d e s]
@[simp] theorem raiseFull_ops (a b c d e f p s) : (raiseFull a b c d e f p s).ops = s.ops := by rw [reported_raiseFull a b c d e f p s]
@[simp] theorem raise_waves (a b c d e s) : (raise a b c d e s).waves = s.waves := by rw [reported_raise a b c d e s]
@[simp] theorem raiseFull_waves (a b c d e f p s) : (raiseFull a b c d e f p s).waves = s.waves := by rw [reported_raiseFull a b c d e f p s]
@[simp] theorem raise_heldCloses (a b c d e s) : (raise a b c d e s).heldCloses = s.heldCloses := by rw [reported_raise a b c d e s]
@[simp] theorem raiseFull_heldCloses (a b c d e f p s) : (raiseFull a b c d e f p s).heldCloses = s.heldCloses := by rw [reported_raiseFull a b c d e f p s]
@[simp] theorem raise_heldAsks (a b c d e s) : (raise a b c d e s).heldAsks = s.heldAsks := by rw [reported_raise a b c d e s]
@[simp] theorem raiseFull_heldAsks (a b c d e f p s) : (raiseFull a b c d e f p s).heldAsks = s.heldAsks := by rw [reported_raiseFull a b c d e f p s]
@[simp] theorem raise_mkt (a b c d e s) : (raise a b c d e s).mkt = s.mkt := by rw [reported_raise a b c d e s]
@[simp] theorem raiseFull_mkt (a b c d e f p s) : (raiseFull a b c d e f p s).mkt = s.mkt := by rw [reported_raiseFull a b c d e f p s]
@[simp] theorem raise_cores (a b c d e s) : (raise a b c d e s).cores = s.cores := by rw [reported_raise a b c d e s]
@[simp] theorem raiseFull_cores (a b c d e f p s) : (raiseFull a b c d e f p s).cores = s.cores := by rw [reported_raiseFull a b c d e f p s]
@[simp] theorem raise_gates (a b c d e s) : (raise a b c d e s).gates = s.gates := by rw [reported_raise a b c d e s]
@[simp] theorem raiseFull_gates (a b c d e f p s) : (raiseFull a b c d e f p s).gates = s.gates := by rw [reported_raiseFull a b c d e f p s]

/-! ### The counters -/

theorem foldl_faultCnt {f : State → α → State} (hf : ∀ s x, (f s x).faultCnt = s.faultCnt) (l : List α) (s : State) :
    (l.foldl f s).faultCnt = s.faultCnt := by
  induction l generalizing s with
  | nil => rfl
  | cons x l ih => exact (ih _).trans (hf s x)

@[simp] theorem postWriteAs_faultCnt (n : Bool) (o : Owner) (a : Nat) (bs : Bytes) (bad : List Nat) (s : State) :
    (postWriteAs n o a bs bad s).faultCnt = s.faultCnt := by
  unfold postWriteAs
  exact foldl_faultCnt (f := fun s p => enqueueReq _ s) (fun _ _ => rfl) _ _

@[simp] theorem postWriteBad_faultCnt (o : Owner) (a : Nat) (bs : Bytes) (bad : List Nat) (s : State) :
    (postWriteBad o a bs bad s).faultCnt = s.faultCnt := postWriteAs_faultCnt _ _ _ _ _ _

@[simp] theorem postAnnounce_faultCnt (o : Owner) (a : Nat) (bs : Bytes) (s : State) :
    (postAnnounce o a bs s).faultCnt = s.faultCnt := postWriteAs_faultCnt _ _ _ _ _ _

@[simp] theorem ringPush_faultCnt (i : RingId) (e : Bytes) (s : State) : (ringPush i e s).faultCnt = s.faultCnt := by
  cases i <;> unfold ringPush ringPut setRing postWrite <;> simp only <;> split <;> (try split) <;> simp

theorem faultCnt_ite {s a b : State} {c : Prop} [Decidable c] (ha : a.faultCnt = s.faultCnt) (hb : b.faultCnt = s.faultCnt) :
    (if c then a else b).faultCnt = s.faultCnt := by
  split <;> assumption

theorem bookNextSector_faultCnt (s : State) : (bookNextSector s).faultCnt = s.faultCnt := by
  unfold bookNextSector
  extract_lets n k kept ec lap s1 s2
  have h : s2.faultCnt = s.faultCnt := rfl
  clear_value s2
  refine (foldl_faultCnt ?_ _ _).trans h
  intro s x
  rfl

theorem bookWear_faultCnt (s : State) : (bookWear s).faultCnt = s.faultCnt := rfl

@[simp] theorem bookWrite_faultCnt (r : Bytes) (s : State) : (bookWrite r s).faultCnt = s.faultCnt := by
  unfold bookWrite
  refine faultCnt_ite ?_ ?_
  · extract_lets s1 s2
    have h : s1.faultCnt = s.faultCnt := faultCnt_ite ((bookWear_faultCnt _).trans (bookNextSector_faultCnt s)) rfl
    have h2 : s2.faultCnt = s1.faultCnt := flashProgram_faultCnt s1 _ _
    exact h2.trans h
  · unfold holdRecord
    exact faultCnt_ite rfl rfl

@[simp] theorem trigger_faultCnt (u c n : Nat) (s : State) : (trigger u c n s).faultCnt = s.faultCnt := by
  unfold trigger
  split <;> rfl

@[simp] theorem chargeUnit_faultCnt (c u : Nat) (s : State) : (chargeUnit c u s).faultCnt = s.faultCnt := by
  unfold chargeUnit setStatus
  simp only
  split
  · simp
  · split <;> simp

@[simp] theorem bookFault_faultCnt (c d u : Nat) (r : Bytes) (s : State) : (bookFault c d u r s).faultCnt = s.faultCnt := by
  unfold bookFault
  simp only
  split
  · split <;> simp
  · simp

/-- One fault changes the counters as its class says. -/
theorem raiseOnce_faultCnt (cls d u i0 i1 o : Nat) (p : Option Nat) (s : State) :
    (raiseOnce cls d u i0 i1 o p s).faultCnt = tset 0 s.faultCnt cls (satInc (tget 0 s.faultCnt cls) 1) := by
  unfold raiseOnce
  simp only
  split <;> simp only [trigger_faultCnt, chargeUnit_faultCnt, bookFault_faultCnt] <;> split <;> simp

theorem satInc_one_ne (v : U32) : satInc v 1 ≠ 0 := by
  intro h
  have h2 := congrArg BitVec.toNat h
  have hv := v.isLt
  simp only [satInc, BitVec.toNat_ofNat] at h2
  change _ = 0 at h2
  omega

/-- A counter that counts one fault of its class. -/
theorem raiseOnce_count (cls d u i0 i1 o : Nat) (p : Option Nat) (s : State) :
    tget 0 (raiseOnce cls d u i0 i1 o p s).faultCnt cls = satInc (tget 0 s.faultCnt cls) 1 := by
  rw [raiseOnce_faultCnt, tset, if_neg (satInc_one_ne _), tget_tinsert_same]

theorem raiseOnce_count_other (cls d u i0 i1 o : Nat) (p : Option Nat) (s : State) {c : Nat} (h : c ≠ cls) :
    tget 0 (raiseOnce cls d u i0 i1 o p s).faultCnt c = tget 0 s.faultCnt c := by
  rw [raiseOnce_faultCnt, tset, if_neg (satInc_one_ne _), tget_tinsert_other _ _ _ h]

/-- The book's own faults are of class 0x1A and change no other counter. -/
theorem bookWatch_count (o s : State) {c : Nat} (h : c ≠ 0x1A) :
    tget 0 (bookWatch o s).faultCnt c = tget 0 s.faultCnt c := by
  unfold bookWatch
  extract_lets b s1
  have h1 : tget 0 s1.faultCnt c = tget 0 s.faultCnt c := by
    change tget 0 (if _ then _ else _ : State).faultCnt c = _
    split
    · exact raiseOnce_count_other _ _ _ _ _ _ _ _ h
    · rfl
  split
  · exact (raiseOnce_count_other _ _ _ _ _ _ _ _ h).trans h1
  · exact h1

/-- A fault counts once in the counter of its class, the book's own class apart. -/
theorem raiseFull_count (cls d u i0 i1 o : Nat) (p : Option Nat) (s : State) (h : cls ≠ 0x1A) :
    tget 0 (raiseFull cls d u i0 i1 o p s).faultCnt cls = satInc (tget 0 s.faultCnt cls) 1 := by
  unfold raiseFull
  rw [bookWatch_count _ _ h, raiseOnce_count]

theorem raiseFull_count_other (cls d u i0 i1 o : Nat) (p : Option Nat) (s : State) {c : Nat} (h : c ≠ cls) (h2 : c ≠ 0x1A) :
    tget 0 (raiseFull cls d u i0 i1 o p s).faultCnt c = tget 0 s.faultCnt c := by
  unfold raiseFull
  rw [bookWatch_count _ _ h2, raiseOnce_count_other _ _ _ _ _ _ _ _ h]

theorem raise_count (cls d u i0 i1 : Nat) (s : State) (h : cls ≠ 0x1A) :
    tget 0 (raise cls d u i0 i1 s).faultCnt cls = satInc (tget 0 s.faultCnt cls) 1 := raiseFull_count _ _ _ _ _ _ _ _ h

theorem raise_count_other (cls d u i0 i1 : Nat) (s : State) {c : Nat} (h : c ≠ cls) (h2 : c ≠ 0x1A) :
    tget 0 (raise cls d u i0 i1 s).faultCnt c = tget 0 s.faultCnt c := raiseFull_count_other _ _ _ _ _ _ _ _ h h2

end Sys2Proof.Machine
end

