-- ==== Sys2Proof/Laws/Keep.lean ====
section
/-! SUPPORT. What every operation of the block keeps: the queue, and the canonical form of the memories and tables. -/

namespace Sys2Proof.Machine

/-! ### Cores -/

/-- The tables of a core, one by one. -/
theorem Core.wf_iff (k : Core) : k.wf = true ↔
    memWf 0 k.prog = true ∧ memWf 0 k.scratch = true ∧ memWf 0 k.acc = true ∧ memWf 0 k.sdata = true ∧ memWf 0 k.v = true ∧
    tableWf 0 k.s = true ∧ tableWf 0 k.cnt = true ∧ tableWf 0 k.cntSrc = true ∧ tableWf {} k.cmp = true ∧
    tableWf {} k.loops = true ∧ tableWf 0 k.d = true ∧ tableWf 0 k.tile = true := by
  simp only [Core.wf, Core.memsWf, Core.tablesWf, Bool.and_eq_true, and_assoc]

/-- A core whose memories and tables are those of a core in canonical form. -/
theorem Core.wf_same {k j : Core} (h : k.wf = true) (hm : j.memsWf = k.memsWf) (ht : j.tablesWf = k.tablesWf) : j.wf = true := by
  unfold Core.wf at *; rw [hm, ht]; exact h

theorem Core.wf_default : ({} : Core).wf = true := rfl

theorem tableWf_nil {α : Type} [DecidableEq α] (d : α) : tableWf d [] = true := rfl

/-! ### Updates of a core -/

theorem wf_ite {c : Prop} [Decidable c] {a b : Core} (ha : c → a.wf = true) (hb : ¬ c → b.wf = true) :
    (if c then a else b).wf = true := by
  split
  · exact ha ‹_›
  · exact hb ‹_›

theorem wf_let {v : Core} {b : Core → Core} (hv : v.wf = true) (hb : ∀ x : Core, x.wf = true → (b x).wf = true) :
    (let x := v; b x).wf = true := hb v hv

theorem wf_val {α : Sort u} {v : α} {b : α → Core} (hb : ∀ x, x = v → (b x).wf = true) : (let x := v; b x).wf = true := hb v rfl

theorem wf_foldl {α : Type} {f : Core → α → Core} (hf : ∀ k x, Core.wf k = true → (f k x).wf = true) (l : List α) {k : Core}
    (h : k.wf = true) : (l.foldl f k).wf = true := by
  induction l generalizing k with
  | nil => exact h
  | cons x l ih => exact ih (hf k x h)

/-- A core whose memories and tables are in canonical form where another core's are. -/
theorem wf_upd {k j : Core} (h : k.wf = true) (h1 : memWf 0 k.prog = true → memWf 0 j.prog = true)
    (h2 : memWf 0 k.scratch = true → memWf 0 j.scratch = true) (h3 : memWf 0 k.acc = true → memWf 0 j.acc = true)
    (h4 : memWf 0 k.sdata = true → memWf 0 j.sdata = true) (h5 : memWf 0 k.v = true → memWf 0 j.v = true)
    (h6 : tableWf 0 k.s = true → tableWf 0 j.s = true) (h7 : tableWf 0 k.cnt = true → tableWf 0 j.cnt = true)
    (h8 : tableWf 0 k.cntSrc = true → tableWf 0 j.cntSrc = true) (h9 : tableWf {} k.cmp = true → tableWf {} j.cmp = true)
    (h10 : tableWf {} k.loops = true → tableWf {} j.loops = true) (h11 : tableWf 0 k.d = true → tableWf 0 j.d = true)
    (h12 : tableWf 0 k.tile = true → tableWf 0 j.tile = true) : j.wf = true := by
  obtain ⟨a1, a2, a3, a4, a5, a6, a7, a8, a9, a10, a11, a12⟩ := (Core.wf_iff k).1 h
  exact (Core.wf_iff j).2 ⟨h1 a1, h2 a2, h3 a3, h4 a4, h5 a5, h6 a6, h7 a7, h8 a8, h9 a9, h10 a10, h11 a11, h12 a12⟩

/-! ### The state -/

/-- The state holds the queue `q` and satisfies the invariant. -/
def State.Holds (q : List Instr) (s : State) : Prop := s.pending = q ∧ s.Inv

variable {q : List Instr} {s : State}

theorem State.Holds.iff : s.Holds q ↔ s.pending = q ∧ memWf 0 s.host = true ∧ memWf 0xFF s.book.flash = true ∧
    (∀ e ∈ s.cores, e.2.wf = true) ∧ tableWf {} s.cores = true ∧ tableWf {} s.gates = true ∧ tableWf {} s.wells = true ∧
    tableWf {} s.units = true ∧ s.cmd.fifo.length ≤ 256 := by
  simp only [State.Holds, State.Inv, State.memsWf, State.unitsWf, Bool.and_eq_true, List.all_eq_true, and_assoc]

theorem holds_ite {c : Prop} [Decidable c] {a b : State} (ha : c → a.Holds q) (hb : ¬ c → b.Holds q) : (if c then a else b).Holds q := by
  split
  · exact ha ‹_›
  · exact hb ‹_›

/-- A state that is named before it is used further. -/
theorem holds_let {v : State} {b : State → State} (hv : v.Holds q) (hb : ∀ x : State, x.Holds q → (b x).Holds q) :
    (let x := v; b x).Holds q := hb v hv

/-- A value that is named before it is used. -/
theorem holds_val {α : Sort u} {v : α} {b : α → State} (hb : ∀ x, x = v → (b x).Holds q) : (let x := v; b x).Holds q := hb v rfl

theorem holds_foldl {α : Type} {f : State → α → State} (hf : ∀ s x, State.Holds q s → State.Holds q (f s x)) (l : List α)
    (h : s.Holds q) : (l.foldl f s).Holds q := by
  induction l generalizing s with
  | nil => exact h
  | cons x l ih => exact ih (hf s x h)

theorem getCore_wf (h : s.Holds q) (c : Nat) : (getCore s c).wf = true :=
  tget_of_all (p := fun k => Core.wf k = true) c Core.wf_default (State.Holds.iff.1 h).2.2.2.1

theorem holds_setCore (c : Nat) {k : Core} (hk : k.wf = true) (h : s.Holds q) : (setCore s c k).Holds q := by
  obtain ⟨h1, h2, h3, h4, h5, h6, h7, h8, h9⟩ := State.Holds.iff.1 h
  refine State.Holds.iff.2 ⟨h1, h2, h3, ?_, tableWf_tset _ _ h5, h6, h7, h8, h9⟩
  intro e he
  rcases mem_tset he with rfl | he
  · exact hk
  · exact h4 e he

theorem holds_modCore (c : Nat) {f : Core → Core} (hf : ∀ k, k.wf = true → (f k).wf = true) (h : s.Holds q) :
    (modCore c f s).Holds q := holds_setCore c (hf _ (getCore_wf h c)) h

theorem holds_setGate (g : Nat) (k : Gate) (h : s.Holds q) : (setGate s g k).Holds q := by
  obtain ⟨h1, h2, h3, h4, h5, h6, h7, h8, h9⟩ := State.Holds.iff.1 h
  exact State.Holds.iff.2 ⟨h1, h2, h3, h4, h5, tableWf_tset _ _ h6, h7, h8, h9⟩

theorem holds_setWell (w : Nat) (k : Well) (h : s.Holds q) : (setWell s w k).Holds q := by
  obtain ⟨h1, h2, h3, h4, h5, h6, h7, h8, h9⟩ := State.Holds.iff.1 h
  exact State.Holds.iff.2 ⟨h1, h2, h3, h4, h5, h6, tableWf_tset _ _ h7, h8, h9⟩

theorem holds_setUnit (u : Nat) (k : UnitSt) (h : s.Holds q) : (setUnit s u k).Holds q := by
  obtain ⟨h1, h2, h3, h4, h5, h6, h7, h8, h9⟩ := State.Holds.iff.1 h
  exact State.Holds.iff.2 ⟨h1, h2, h3, h4, h5, h6, h7, tableWf_tset _ _ h8, h9⟩

theorem holds_modGate (g : Nat) (f : Gate → Gate) (h : s.Holds q) : (modGate g f s).Holds q := holds_setGate _ _ h
theorem holds_modWell (w : Nat) (f : Well → Well) (h : s.Holds q) : (modWell w f s).Holds q := holds_setWell _ _ h
theorem holds_modUnit (u : Nat) (f : UnitSt → UnitSt) (h : s.Holds q) : (modUnit u f s).Holds q := holds_setUnit _ _ h

theorem holds_host {m : Mem} (hm : memWf 0 m = true) (h : s.Holds q) : ({ s with host := m } : State).Holds q := by
  obtain ⟨h1, h2, h3, h4, h5, h6, h7, h8, h9⟩ := State.Holds.iff.1 h
  exact State.Holds.iff.2 ⟨h1, hm, h3, h4, h5, h6, h7, h8, h9⟩

theorem holds_flash {b : Book} (hm : memWf 0xFF b.flash = true) (h : s.Holds q) : ({ s with book := b } : State).Holds q := by
  obtain ⟨h1, h2, h3, h4, h5, h6, h7, h8, h9⟩ := State.Holds.iff.1 h
  exact State.Holds.iff.2 ⟨h1, h2, hm, h4, h5, h6, h7, h8, h9⟩

theorem State.Holds.host (h : s.Holds q) : memWf 0 s.host = true := (State.Holds.iff.1 h).2.1
theorem State.Holds.flash (h : s.Holds q) : memWf 0xFF s.book.flash = true := (State.Holds.iff.1 h).2.2.1
theorem State.Holds.fifo (h : s.Holds q) : s.cmd.fifo.length ≤ 256 := (State.Holds.iff.1 h).2.2.2.2.2.2.2.2

/-- An update that leaves what the invariant speaks of. -/
theorem holds_same {t : State} (h : s.Holds q) (h1 : t.pending = s.pending) (h2 : t.host = s.host)
    (h3 : t.book.flash = s.book.flash) (h4 : t.cores = s.cores) (h5 : t.gates = s.gates) (h6 : t.wells = s.wells)
    (h7 : t.units = s.units) (h8 : t.cmd.fifo = s.cmd.fifo) : t.Holds q := by
  rw [State.Holds.iff] at *
  rw [h1, h2, h3, h4, h5, h6, h7, h8]; exact h

/-! ### Tables built anew, and states changed in several parts -/

theorem memWf_foldl {α : Type} {d : Byte} {f : Mem → α → Mem} (hf : ∀ m x, memWf d m = true → memWf d (f m x) = true)
    (l : List α) {m : Mem} (h : memWf d m = true) : memWf d (l.foldl f m) = true := by
  induction l generalizing m with
  | nil => exact h
  | cons x l ih => exact ih (hf m x h)

theorem tableWf_foldl {α β : Type} [DecidableEq β] {d : β} {f : List (Nat × β) → α → List (Nat × β)}
    (hf : ∀ t x, tableWf d t = true → tableWf d (f t x) = true) (l : List α) {t : List (Nat × β)} (h : tableWf d t = true) :
    tableWf d (l.foldl f t) = true := by
  induction l generalizing t with
  | nil => exact h
  | cons x l ih => exact ih (hf t x h)

/-- A state with the parts that the invariant speaks of changed one by one. -/
theorem holds_upd {t : State} (hs : s.Holds q) (h1 : t.pending = s.pending) (h2 : memWf 0 s.host = true → memWf 0 t.host = true)
    (h3 : memWf 0xFF s.book.flash = true → memWf 0xFF t.book.flash = true)
    (h4 : (∀ e ∈ s.cores, e.2.wf = true) → ∀ e ∈ t.cores, e.2.wf = true)
    (h5 : tableWf {} s.cores = true → tableWf {} t.cores = true) (h6 : tableWf {} s.gates = true → tableWf {} t.gates = true)
    (h7 : tableWf {} s.wells = true → tableWf {} t.wells = true) (h8 : tableWf {} s.units = true → tableWf {} t.units = true)
    (h9 : s.cmd.fifo.length ≤ 256 → t.cmd.fifo.length ≤ 256) : t.Holds q := by
  obtain ⟨a1, a2, a3, a4, a5, a6, a7, a8, a9⟩ := State.Holds.iff.1 hs
  exact State.Holds.iff.2 ⟨h1.trans a1, h2 a2, h3 a3, h4 a4, h5 a5, h6 a6, h7 a7, h8 a8, h9 a9⟩

/-- A table built anew entry by entry is in canonical form. -/
theorem tableWf_built {α β : Type} [DecidableEq β] (d : β) (g : α → Nat) (f : α → β) (l : List α) :
    tableWf d (l.foldl (fun t e => tset d t (g e) (f e)) []) = true :=
  tableWf_foldl (fun _ _ h => tableWf_tset _ _ h) l (tableWf_nil d)

/-- Cores put back one by one, each in canonical form. -/
theorem wf_built {f : Nat × Core → Core} (l : List (Nat × Core)) (hf : ∀ e ∈ l, (f e).wf = true) :
    ∀ e ∈ l.foldl (fun t e => tset {} t e.1 (f e)) ([] : List (Nat × Core)), e.2.wf = true := by
  have key : ∀ (l : List (Nat × Core)) (t : List (Nat × Core)), (∀ e ∈ l, (f e).wf = true) → (∀ e ∈ t, e.2.wf = true) →
      ∀ e ∈ l.foldl (fun t e => tset {} t e.1 (f e)) t, e.2.wf = true := by
    intro l
    induction l with
    | nil => intro t _ ht; exact ht
    | cons x l ih =>
      intro t hl ht
      refine ih _ (fun e he => hl e (List.mem_cons_of_mem _ he)) (fun e he => ?_)
      rcases mem_tset he with rfl | he
      · exact hl x List.mem_cons_self
      · exact ht e he
  exact key l [] hf (fun e he => by cases he)

/-! ### Outcomes -/

/-- If the outcome is a next state, that state holds the queue `q` and satisfies the invariant. -/
def Ends (q : List Instr) (r : Res) : Prop := ∀ t, r = .next t → t.Holds q

theorem ends_next (h : s.Holds q) : Ends q (.next s) := fun _ e => by cases e; exact h
theorem ends_fault (f : Fault) : Ends q (.fault f) := fun _ e => by cases e

theorem ends_ite {c : Prop} [Decidable c] {a b : Res} (ha : c → Ends q a) (hb : ¬ c → Ends q b) : Ends q (if c then a else b) := by
  split
  · exact ha ‹_›
  · exact hb ‹_›

theorem ends_let {v : State} {b : State → Res} (hv : v.Holds q) (hb : ∀ x : State, x.Holds q → Ends q (b x)) :
    Ends q (let x := v; b x) := hb v hv

theorem ends_val {α : Sort u} {v : α} {b : α → Res} (hb : ∀ x, x = v → Ends q (b x)) : Ends q (let x := v; b x) := hb v rfl

theorem ends_act {f : State → State} (h : s.Holds q) (hf : ∀ s : State, s.Holds q → (f s).Holds q) : Ends q (act s f) :=
  ends_ite (fun _ => ends_next (hf s h)) (fun _ => ends_next h)

theorem ends_actOn {n i : Nat} {f : State → State} (h : s.Holds q) (hf : ∀ s : State, s.Holds q → (f s).Holds q) :
    Ends q (actOn n i s f) := ends_ite (fun _ => ends_act h hf) (fun _ => ends_fault _)

end Sys2Proof.Machine
end

