-- ==== Sys2Proof/Laws/KeepOps.lean ====
section
/-! SUPPORT. Every meaning keeps the queue and the canonical form: the named operations (Flags, Ops, CoreOps). One lemma for each function:
`holds_<f>` and `wf_<f>` for what it does to a state or a core, `ends_<f>` for the outcome of a row. -/

namespace Sys2Proof.Machine

set_option Elab.async false

variable {q : List Instr} {s : State}

/-! ### Flags -/

theorem wf_countEvent (src : Nat) {k : Core} (hk : k.wf = true) : (countEvent src k).wf = true := by
  unfold countEvent
  refine wf_upd (k := k) hk id id id id id id (fun h => tableWf_foldl (fun t x ht => ?_) _ h) id id id id id
  split
  · exact tableWf_tset _ _ ht
  · exact ht

theorem holds_setMode (bit : Nat) (hs : s.Holds q) : (setMode bit s).Holds q := by
  unfold setMode
  split
  · refine holds_same (s := s) ?_ rfl rfl rfl rfl rfl rfl rfl rfl
    exact hs
  · refine holds_same (s := s) ?_ rfl rfl rfl rfl rfl rfl rfl rfl
    exact hs

theorem holds_setModeAt (step : Nat) (bit : Nat) (hs : s.Holds q) : (setModeAt step bit s).Holds q := by
  unfold setModeAt
  refine holds_ite (fun _ => ?_) (fun _ => ?_)
  · exact hs
  · apply holds_setMode
    exact hs

/-! ### Ops -/

theorem holds_flashProgram (a : Nat) (bs : Bytes) (h : s.Holds q) : (flashProgram a bs s).Holds q :=
  holds_flash (memWf_mwrite _ _ h.flash) h

theorem holds_nextSeq (hs : s.Holds q) : (nextSeq s).Holds q := by
  unfold nextSeq
  refine holds_same (s := s) ?_ rfl rfl rfl rfl rfl rfl rfl rfl
  exact hs

theorem holds_bookWear (hs : s.Holds q) : (bookWear s).Holds q := by
  unfold bookWear
  extract_lets v1 v2
  refine holds_same (s := s) ?_ rfl rfl rfl rfl rfl rfl rfl rfl
  exact hs

theorem holds_bookNextSector (h : s.Holds q) : (bookNextSector s).Holds q := by
  unfold bookNextSector
  refine holds_foldl (fun s1 x h1 => ?_) _ ?_
  · refine holds_same (s := flashProgram _ _ s1) ?_ rfl rfl rfl rfl rfl rfl rfl rfl
    exact holds_flashProgram _ _ h1
  · apply holds_flashProgram
    exact holds_flash (memWf_merase _ _ h.flash) h

theorem holds_holdRecord (r : Bytes) (hs : s.Holds q) : (holdRecord r s).Holds q := by
  unfold holdRecord
  refine holds_ite (fun _ => ?_) (fun _ => ?_)
  · extract_lets v1 v2
    refine holds_same (s := s) ?_ rfl rfl rfl rfl rfl rfl rfl rfl
    exact hs
  · refine holds_same (s := s) ?_ rfl rfl rfl rfl rfl rfl rfl rfl
    exact hs

theorem holds_bookWrite (r : Bytes) (hs : s.Holds q) : (bookWrite r s).Holds q := by
  unfold bookWrite
  refine holds_ite (fun _ => ?_) (fun _ => ?_)
  · extract_lets s1 s2 v3
    have h4 : State.Holds q s1 := by
      unfold s1
      refine holds_ite (fun _ => ?_) (fun _ => ?_)
      · apply holds_bookWear
        apply holds_bookNextSector
        exact hs
      · exact hs
    clear_value s1
    have h5 : State.Holds q s2 := by
      unfold s2
      apply holds_flashProgram
      exact h4
    clear_value s2
    refine holds_same (s := s2) ?_ rfl rfl rfl rfl rfl rfl rfl rfl
    exact h5
  · apply holds_holdRecord
    exact hs

theorem holds_trigger (unit cls seq : Nat) (hs : s.Holds q) : (trigger unit cls seq s).Holds q := by
  unfold trigger
  refine holds_ite (fun _ => ?_) (fun _ => ?_)
  · refine holds_same (s := s) ?_ rfl rfl rfl rfl rfl rfl rfl rfl
    exact hs
  · refine holds_same (s := s) ?_ rfl rfl rfl rfl rfl rfl rfl rfl
    exact hs

theorem holds_setStatus (unit : Nat) (cls : Nat) (new : Nat) (hs : s.Holds q) : (setStatus unit cls new s).Holds q := by
  unfold setStatus
  refine holds_ite (fun _ => ?_) (fun _ => ?_)
  · exact hs
  · extract_lets s1 s2
    have h3 : State.Holds q s1 := by
      unfold s1
      apply holds_nextSeq
      apply holds_modUnit
      exact hs
    clear_value s1
    have h4 : State.Holds q s2 := by
      unfold s2
      apply holds_bookWrite
      exact h3
    clear_value s2
    refine holds_ite (fun _ => ?_) (fun _ => ?_)
    · apply holds_trigger
      exact h4
    · exact h4

theorem holds_enqueueReq (r : WReq) (hs : s.Holds q) : (enqueueReq r s).Holds q := by
  unfold enqueueReq
  apply holds_modWell
  exact hs

theorem holds_postWriteAs (announce : Bool) (owner : Owner) (a : Nat) (bs : Bytes) (bad : List Nat) (h : s.Holds q) :
    (postWriteAs announce owner a bs bad s).Holds q := by
  unfold postWriteAs
  refine holds_foldl (fun s1 x h1 => holds_enqueueReq _ h1) _ ?_
  have hh := holds_host (memWf_foldl (f := fun m p => mwrite 0 m (p.1 % 2 ^ 52) ((bs.drop (p.1 - a)).take p.2))
    (fun m x hm => memWf_mwrite _ _ hm) (splitRange a bs.length) h.host) h
  exact holds_same hh rfl rfl rfl rfl rfl rfl rfl rfl

theorem holds_postWriteBad (owner : Owner) (a : Nat) (bs : Bytes) (bad : List Nat) (h : s.Holds q) :
    (postWriteBad owner a bs bad s).Holds q := holds_postWriteAs _ _ _ _ _ h

theorem holds_postWrite (owner : Owner) (a : Nat) (bs : Bytes) (poison : Bool) (hs : s.Holds q) : (postWrite owner a bs poison s).Holds q := by
  unfold postWrite
  apply holds_postWriteBad
  exact hs

theorem holds_postAnnounce (owner : Owner) (a : Nat) (bs : Bytes) (h : s.Holds q) : (postAnnounce owner a bs s).Holds q :=
  holds_postWriteAs _ _ _ _ _ h

theorem holds_setRing (i : RingId) (r : Ring) (hs : s.Holds q) : (setRing s i r).Holds q := by
  unfold setRing
  split
  · refine holds_same (s := s) ?_ rfl rfl rfl rfl rfl rfl rfl rfl
    exact hs
  · refine holds_same (s := s) ?_ rfl rfl rfl rfl rfl rfl rfl rfl
    exact hs
  · refine holds_same (s := s) ?_ rfl rfl rfl rfl rfl rfl rfl rfl
    exact hs

theorem holds_ringPut (i : RingId) (e : Bytes) (hs : s.Holds q) : (ringPut i e s).Holds q := by
  unfold ringPut
  extract_lets v1 v2 v3 s4 v5
  have h6 : State.Holds q s4 := by
    unfold s4
    refine holds_ite (fun _ => ?_) (fun _ => ?_)
    · apply holds_postWrite
      exact hs
    · apply holds_postAnnounce
      exact hs
  clear_value s4
  apply holds_setRing
  exact h6

theorem holds_ringPush (i : RingId) (e : Bytes) (hs : s.Holds q) : (ringPush i e s).Holds q := by
  unfold ringPush
  extract_lets v1
  refine holds_ite (fun _ => ?_) (fun _ => ?_)
  · apply holds_ringPut
    exact hs
  · refine holds_ite (fun _ => ?_) (fun _ => ?_)
    · apply holds_setRing
      exact hs
    · apply holds_setRing
      exact hs

theorem holds_bookFault (cls : Nat) (detail : Nat) (unit : Nat) (r : Bytes) (hs : s.Holds q) : (bookFault cls detail unit r s).Holds q := by
  unfold bookFault
  extract_lets v1
  split
  · refine holds_ite (fun _ => ?_) (fun _ => ?_)
    · apply holds_modUnit
      exact hs
    · apply holds_bookWrite
      apply holds_modUnit
      exact hs
  · apply holds_bookWrite
    apply holds_modUnit
    exact hs

theorem holds_chargeUnit (cls : Nat) (unit : Nat) (hs : s.Holds q) : (chargeUnit cls unit s).Holds q := by
  unfold chargeUnit
  extract_lets v1 s2
  have h3 : State.Holds q s2 := by
    unfold s2
    apply holds_modUnit
    exact hs
  clear_value s2
  apply holds_setStatus
  exact h3

theorem holds_raiseOnce (cls : Nat) (detail : Nat) (unit : Nat) (info0 : Nat) (info1 : Nat) (outcome : Nat) (partner : Option Nat) (hs : s.Holds q) : (raiseOnce cls detail unit info0 info1 outcome partner s).Holds q := by
  unfold raiseOnce
  extract_lets s1 vs v2 s3 s4 s5
  have h6 : State.Holds q s1 := by
    unfold s1
    apply holds_nextSeq
    refine holds_same (s := s) ?_ rfl rfl rfl rfl rfl rfl rfl rfl
    exact hs
  clear_value s1
  have h7 : State.Holds q s3 := by
    unfold s3
    refine holds_ite (fun _ => ?_) (fun _ => ?_)
    · apply holds_ringPush
      exact h6
    · exact h6
  clear_value s3
  have h8 : State.Holds q s4 := by
    unfold s4
    apply holds_bookFault
    exact h7
  clear_value s4
  have h9 : State.Holds q s5 := by
    unfold s5
    apply holds_chargeUnit
    exact h8
  clear_value s5
  split
  · exact h9
  · apply holds_trigger
    apply holds_trigger
    apply holds_chargeUnit
    exact h9

theorem holds_bookWatch (old : State) (hs : s.Holds q) : (bookWatch old s).Holds q := by
  unfold bookWatch
  extract_lets v1 s2
  have h3 : State.Holds q s2 := by
    unfold s2
    refine holds_ite (fun _ => ?_) (fun _ => ?_)
    · apply holds_raiseOnce
      refine holds_same (s := s) ?_ rfl rfl rfl rfl rfl rfl rfl rfl
      exact hs
    · exact hs
  clear_value s2
  refine holds_ite (fun _ => ?_) (fun _ => ?_)
  · apply holds_raiseOnce
    exact h3
  · exact h3

theorem holds_raiseFull (cls : Nat) (detail : Nat) (unit : Nat) (info0 : Nat) (info1 : Nat) (outcome : Nat) (partner : Option Nat) (hs : s.Holds q) : (raiseFull cls detail unit info0 info1 outcome partner s).Holds q := by
  unfold raiseFull
  apply holds_bookWatch
  apply holds_raiseOnce
  exact hs

theorem holds_raise (cls : Nat) (detail : Nat) (unit : Nat) (info0 : Nat) (info1 : Nat) (hs : s.Holds q) : (raise cls detail unit info0 info1 s).Holds q := by
  unfold raise
  apply holds_raiseFull
  exact hs

theorem holds_ringBell (group : Nat) (seq : Nat) (chunk : Nat) (status : Nat) (kind : Nat) (hs : s.Holds q) : (ringBell group seq chunk status kind s).Holds q := by
  unfold ringBell
  extract_lets s1
  have h2 : State.Holds q s1 := by
    unfold s1
    refine holds_ite (fun _ => ?_) (fun _ => ?_)
    · apply holds_ringPush
      exact hs
    · exact hs
  clear_value s1
  refine holds_ite (fun _ => ?_) (fun _ => ?_)
  · refine holds_same (s := s1) ?_ rfl rfl rfl rfl rfl rfl rfl rfl
    exact h2
  · exact h2

theorem holds_configFault (opcode : Nat) (hs : s.Holds q) : (configFault opcode s).Holds q := by
  unfold configFault
  apply holds_raise
  exact hs

theorem holds_readsEnd (rd : ReadEnd) (hs : s.Holds q) : (readsEnd rd s).Holds q := by
  unfold readsEnd
  split
  · exact hs
  · refine holds_foldl (fun s1 x3 h2 => ?_) _ ?_
    · apply holds_modWell
      exact h2
    · exact hs
  · extract_lets v4
    apply holds_raise
    apply holds_modWell
    exact hs

theorem holds_ringDrain (i : RingId) (n : Nat) (h : s.Holds q) : (ringDrain i n s).Holds q := by
  induction n generalizing s with
  | zero => exact h
  | succ n ih =>
    unfold ringDrain
    extract_lets v
    split
    · exact h
    · refine holds_ite (fun _ => h) (fun _ => ih (holds_ringPut _ _ (holds_setRing _ _ h)))

theorem holds_barrierBell (group : Nat) (seq : Nat) (hs : s.Holds q) : (barrierBell group seq s).Holds q := by
  unfold barrierBell
  refine holds_ite (fun _ => ?_) (fun _ => ?_)
  · apply holds_ringPush
    exact hs
  · exact hs

/-! ### CoreOps -/

theorem ends_execEccWriteback (c : Nat) (hs : s.Holds q) : Ends q (execEccWriteback c s) := by
  unfold execEccWriteback
  refine ends_actOn ?_ (fun s1 h2 => ?_)
  · exact hs
  · refine holds_modCore _ (fun k3 h4 => ?_) ?_
    · refine wf_upd (k := k3) ?_ id id id id id id id id id id id id
      exact h4
    · exact h2

theorem wf_haltCore (addr : Nat) (code : Nat) (engine : Nat) {k : Core} (hk : k.wf = true) : (haltCore addr code engine k).wf = true := by
  unfold haltCore
  refine wf_ite (fun _ => ?_) (fun _ => ?_)
  · refine wf_upd (k := k) ?_ id id id id id id id id id id id id
    exact hk
  · refine wf_ite (fun _ => ?_) (fun _ => ?_)
    · refine wf_upd (k := k) ?_ id id id id id id id id id id id id
      exact hk
    · exact hk

theorem wf_scrWrite (a : Nat) (bs : Bytes) (bad : Bool) {k : Core} (hk : k.wf = true) : (scrWrite a bs bad k).wf = true := by
  unfold scrWrite
  refine wf_upd (k := k) ?_ id (memWf_mwrite _ _) id id id id id id id id id id
  exact hk

theorem wf_sdataWrite (a : Nat) (bs : Bytes) (bad : Bool) {k : Core} (hk : k.wf = true) : (sdataWrite a bs bad k).wf = true := by
  unfold sdataWrite
  refine wf_upd (k := k) ?_ id id id (memWf_mwrite _ _) id id id id id id id id
  exact hk

theorem wf_recordMemErr (m : CoreMem) (w : Nat) {k : Core} (hk : k.wf = true) : (recordMemErr m w k).wf = true := by
  unfold recordMemErr
  refine wf_ite (fun _ => ?_) (fun _ => ?_)
  · exact hk
  · refine wf_upd (k := k) ?_ id id id id id id id id id id id id
    exact hk

theorem wf_setPoisonBit (m : CoreMem) (w : Nat) {k : Core} (hk : k.wf = true) : (setPoisonBit m w k).wf = true := by
  unfold setPoisonBit
  split
  · refine wf_upd (k := k) ?_ id id id id id id id id id id id id
    exact hk
  · refine wf_upd (k := k) ?_ id id id id id id id id id id id id
    exact hk
  · refine wf_upd (k := k) ?_ id id id id id id id id id id id id
    exact hk
  · refine wf_upd (k := k) ?_ id id id id id id id id id id id id
    exact hk

theorem wf_damageWord (e : MemErr) {k : Core} (hk : k.wf = true) : (damageWord e k).wf = true := by
  unfold damageWord
  extract_lets v1 v2
  split
  · refine wf_upd (k := k) ?_ (memWf_mwrite _ _) id id id id id id id id id id id
    exact hk
  · refine wf_upd (k := k) ?_ id (memWf_mwrite _ _) id id id id id id id id id id
    exact hk
  · refine wf_upd (k := k) ?_ id id (memWf_mwrite _ _) id id id id id id id id id
    exact hk
  · refine wf_upd (k := k) ?_ id id id (memWf_mwrite _ _) id id id id id id id id
    exact hk

theorem holds_memError (c : Nat) (e : MemErr) (hs : s.Holds q) : (memError c e s).Holds q := by
  unfold memError
  refine holds_ite (fun _ => ?_) (fun _ => ?_)
  · apply holds_raise
    refine holds_modCore _ (fun k1 h2 => ?_) ?_
    · apply wf_recordMemErr
      apply wf_setPoisonBit
      apply wf_damageWord
      exact h2
    · exact hs
  · refine holds_modCore _ (fun k3 h4 => ?_) ?_
    · refine wf_upd (k := k3) ?_ id id id id id id id id id id id id
      exact h4
    · exact hs

theorem holds_memErrors {c : Nat} {mems : List CoreMem} {errs : List MemErr} {s' : State} {b : Bool} (hs : s.Holds q)
    (e : memErrors c mems errs s = (s', b)) : s'.Holds q := by
  unfold memErrors at e
  cases e
  exact holds_foldl (fun s x h => holds_memError c x h) _ hs

theorem wf_dropQueue (e : Nat) {k : Core} (hk : k.wf = true) : (dropQueue e k).wf = true := by
  unfold dropQueue
  split
  · refine wf_upd (k := k) ?_ id id id id id id id id id id id id
    exact hk
  · refine wf_upd (k := k) ?_ id id id id id id id id id id id id
    exact hk
  · refine wf_upd (k := k) ?_ id id id id id id id id id id id id
    exact hk
  · refine wf_upd (k := k) ?_ id id id id id id id id id id id id
    exact hk
  · refine wf_upd (k := k) ?_ id id id id id id id id id id id id
    exact hk
  · exact hk

theorem wf_engineHalt (addr : Nat) (code : Nat) (engine : Nat) {k : Core} (hk : k.wf = true) : (engineHalt addr code engine k).wf = true := by
  unfold engineHalt
  apply wf_dropQueue
  apply wf_haltCore
  exact hk

theorem wf_setS (r : Nat) (v : U32) {k : Core} (hk : k.wf = true) : (setS r v k).wf = true := by
  unfold setS
  refine wf_ite (fun _ => ?_) (fun _ => ?_)
  · exact hk
  · refine wf_upd (k := k) ?_ id id id id id (tableWf_tset _ _) id id id id id id
    exact hk

theorem wf_accWrite (a : Nat) (bs : Bytes) (bad : Bool) {k : Core} (hk : k.wf = true) : (accWrite a bs bad k).wf = true := by
  unfold accWrite
  refine wf_upd (k := k) ?_ id id (memWf_mwrite _ _) id id id id id id id id id
  exact hk

end Sys2Proof.Machine
end

