-- ==== Sys2Proof/Laws/KeepReduce.lean ====
section
/-! SUPPORT. Every meaning keeps the queue and the canonical form: collectives, the mill, adders, the forge and contexts (Coll, Forge, Mill, Adder, Contexts, Settle). One lemma for each function:
`holds_<f>` and `wf_<f>` for what it does to a state or a core, `ends_<f>` for the outcome of a row. -/

namespace Sys2Proof.Machine

set_option Elab.async false

variable {q : List Instr} {s : State}

/-! ### Coll -/

theorem holds_modOp (nm : OpName) (f : Op → Op) (hs : s.Holds q) : (modOp nm f s).Holds q := by
  unfold modOp
  refine holds_same (s := s) ?_ rfl rfl rfl rfl rfl rfl rfl rfl
  exact hs

theorem holds_enqueueItem (g : Nat) (i : SendItem) (hs : s.Holds q) : (enqueueItem g i s).Holds q := by
  unfold enqueueItem
  apply holds_modGate
  exact hs

theorem holds_greenNotice (g : Nat) (n : Bytes) (hs : s.Holds q) : (greenNotice g n s).Holds q := by
  unfold greenNotice
  apply holds_modGate
  exact hs

theorem holds_sendNotice (g : Nat) (n : Bytes) (hs : s.Holds q) : (sendNotice g n s).Holds q := by
  unfold sendNotice
  apply holds_modGate
  exact hs

theorem holds_modCell (nm : OpName) (j : Nat) (f : Cell → Cell) (hs : s.Holds q) : (modCell nm j f s).Holds q := by
  unfold modCell
  apply holds_modOp
  exact hs

theorem holds_setOpMode (nm : OpName) (bit : Nat) (hs : s.Holds q) : (setOpMode nm bit s).Holds q := by
  unfold setOpMode
  extract_lets s1 v2 v3
  have h4 : State.Holds q s1 := by
    unfold s1
    apply holds_setModeAt
    exact hs
  clear_value s1
  refine holds_same (s := s1) ?_ rfl rfl rfl rfl rfl rfl rfl rfl
  exact h4

theorem holds_putOp (o : Op) (hs : s.Holds q) : (putOp o s).Holds q := by
  unfold putOp
  refine holds_ite (fun _ => ?_) (fun _ => ?_)
  · refine holds_same (s := s) ?_ rfl rfl rfl rfl rfl rfl rfl rfl
    exact hs
  · refine holds_same (s := s) ?_ rfl rfl rfl rfl rfl rfl rfl rfl
    exact hs

theorem holds_openBcast (nm : OpName) (hs : s.Holds q) : (openBcast nm s).Holds q := by
  unfold openBcast
  split
  · apply holds_modOp
    exact hs
  · apply holds_putOp
    exact hs

theorem holds_tallyChunk (b : Bytes) (mask : List MaskEnt) (excluded : Nat) (hs : s.Holds q) : (tallyChunk b mask excluded s).Holds q := by
  unfold tallyChunk
  extract_lets v1 v2 v3 v4 v5 v6 v7 v8
  refine holds_ite (fun _ => ?_) (fun _ => ?_)
  · exact hs
  · refine holds_same (s := s) ?_ rfl rfl rfl rfl rfl rfl rfl rfl
    exact hs

theorem holds_boltModes (b : Bytes) (mask : List MaskEnt) (hs : s.Holds q) : (boltModes b mask s).Holds q := by
  unfold boltModes
  extract_lets v1 s2 s3
  have h4 : State.Holds q s2 := by
    unfold s2
    refine holds_ite (fun _ => ?_) (fun _ => ?_)
    · apply holds_setOpMode
      exact hs
    · exact hs
  clear_value s2
  have h5 : State.Holds q s3 := by
    unfold s3
    refine holds_ite (fun _ => ?_) (fun _ => ?_)
    · exact h4
    · apply holds_setOpMode
      exact h4
  clear_value s3
  refine holds_ite (fun _ => ?_) (fun _ => ?_)
  · apply holds_setOpMode
    exact h5
  · exact h5

theorem holds_queueForward (g : Grp) (b : Bytes) (mask : List MaskEnt) (excluded : Nat) (hs : s.Holds q) : (queueForward g b mask excluded s).Holds q := by
  unfold queueForward
  refine holds_foldl (fun s1 x3 h2 => ?_) _ ?_
  · apply holds_enqueueItem
    exact h2
  · exact hs

theorem holds_gateFault (cls : Nat) (detail : Nat) (g : Nat) (h : Hdr) (src : Nat) (cnt : Nat) (hs : s.Holds q) : (gateFault cls detail g h src cnt s).Holds q := by
  unfold gateFault
  apply holds_raise
  exact hs

theorem wf_landChunk (a : Nat) (b : Bytes) {k : Core} (hk : k.wf = true) : (landChunk a b k).wf = true := by
  unfold landChunk
  extract_lets v1 k2
  have h3 : Core.wf k2 = true := by
    unfold k2
    apply wf_scrWrite
    exact hk
  clear_value k2
  refine wf_upd (k := k2) ?_ id id id id id id id id id id id id
  exact h3

theorem holds_noticeAfterChunk (g : Nat) (h : Hdr) (n : Bytes) (hs : s.Holds q) : (noticeAfterChunk g h n s).Holds q := by
  unfold noticeAfterChunk
  extract_lets v1 v2 v3
  refine holds_ite (fun _ => ?_) (fun _ => ?_)
  · apply holds_modGate
    exact hs
  · apply holds_sendNotice
    exact hs

theorem holds_sketchWrite (b : Bytes) (hs : s.Holds q) : (sketchWrite b s).Holds q := by
  unfold sketchWrite
  extract_lets v1
  split
  · refine holds_ite (fun _ => ?_) (fun _ => ?_)
    · extract_lets v2 s3 v4
      have h5 : State.Holds q s3 := by
        unfold s3
        apply holds_postWrite
        exact hs
      clear_value s3
      refine holds_ite (fun _ => ?_) (fun _ => ?_)
      · apply holds_postAnnounce
        exact h5
      · exact h5
    · exact hs
  · exact hs

theorem holds_inboxWrite (b : Bytes) (tail : Bytes) (c : Nat) (hs : s.Holds q) : (inboxWrite b tail s c).Holds q := by
  unfold inboxWrite
  extract_lets v1
  refine holds_ite (fun _ => ?_) (fun _ => ?_)
  · exact hs
  · refine holds_modCore _ (fun k2 h3 => ?_) ?_
    · extract_lets v4 k5
      have h6 : Core.wf k5 = true := by
        unfold k5
        apply wf_landChunk
        exact h3
      clear_value k5
      apply wf_countEvent
      apply wf_scrWrite
      refine wf_upd (k := k5) ?_ id id id id id id id id id id id id
      exact h6
    · exact hs

theorem holds_inboxDeliver (b : Bytes) (mask : List MaskEnt) (excluded : Nat) (hs : s.Holds q) : (inboxDeliver b mask excluded s).Holds q := by
  unfold inboxDeliver
  refine holds_foldl (fun s1 x3 h2 => ?_) _ ?_
  · apply holds_inboxWrite
    exact h2
  · exact hs

theorem holds_bcastDeliver (g : Grp) (b : Bytes) (mask : List MaskEnt) (excluded : Nat) (hs : s.Holds q) : (bcastDeliver g b mask excluded s).Holds q := by
  unfold bcastDeliver
  extract_lets v1 s2
  have h3 : State.Holds q s2 := by
    unfold s2
    apply holds_sketchWrite
    exact hs
  clear_value s2
  refine holds_ite (fun _ => ?_) (fun _ => ?_)
  · split
    · refine holds_ite (fun _ => ?_) (fun _ => ?_)
      · exact h3
      · apply holds_postWrite
        exact h3
    · apply holds_raise
      exact h3
  · apply holds_inboxDeliver
    exact h3

theorem holds_pushFlits (g : Nat) (vc : Nat) (fs : List Bytes) (hs : s.Holds q) : (pushFlits g vc fs s).Holds q := by
  unfold pushFlits
  apply holds_modGate
  exact hs

/-! ### Forge -/

theorem holds_normSeen (r : ForgeRec) (failed : Bool) (hs : s.Holds q) : (normSeen r failed s).Holds q := by
  unfold normSeen
  refine holds_ite (fun _ => ?_) (fun _ => ?_)
  · extract_lets v1
    refine holds_same (s := s) ?_ rfl rfl rfl rfl rfl rfl rfl rfl
    exact hs
  · exact hs

theorem holds_forgeOpFailed (nm : OpName) (hs : s.Holds q) : (forgeOpFailed nm s).Holds q := by
  unfold forgeOpFailed
  split
  · exact hs
  · refine holds_foldl (fun s1 x3 h2 => ?_) _ ?_
    · extract_lets v4
      refine holds_ite (fun _ => ?_) (fun _ => ?_)
      · exact h2
      · apply holds_normSeen
        apply holds_modWell
        exact h2
    · exact hs

theorem holds_plausible (unit : Nat) (h : Hdr) (vs : List F32) (hs : s.Holds q) : (plausible unit h vs s).Holds q := by
  unfold plausible
  split
  refine holds_ite (fun _ => ?_) (fun _ => ?_)
  · exact hs
  · apply holds_raise
    exact hs

theorem holds_rootBroadcast (b : Bytes) (mask : List MaskEnt) (excluded : Nat) (hs : s.Holds q) : (rootBroadcast b mask excluded s).Holds q := by
  unfold rootBroadcast
  extract_lets v1 s2 s3 s4 s5
  have h6 : State.Holds q s2 := by
    unfold s2
    apply holds_openBcast
    exact hs
  clear_value s2
  have h7 : State.Holds q s3 := by
    unfold s3
    apply holds_tallyChunk
    exact h6
  clear_value s3
  have h8 : State.Holds q s4 := by
    unfold s4
    apply holds_boltModes
    exact h7
  clear_value s4
  have h9 : State.Holds q s5 := by
    unfold s5
    apply holds_modOp
    exact h8
  clear_value s5
  split
  · exact hs
  · apply holds_queueForward
    exact h9

theorem holds_updateBroadcast (r : ForgeRec) (j : Nat) (step : Nat) (hs : s.Holds q) : (updateBroadcast r j step s).Holds q := by
  unfold updateBroadcast
  refine holds_ite (fun _ => ?_) (fun _ => ?_)
  · exact hs
  · extract_lets v1 v2 v3 v4 v5 v6
    apply holds_rootBroadcast
    exact hs

theorem holds_abandonEntry (w : Nat) (a : Accepted) (hs : s.Holds q) : (abandonEntry w s a).Holds q := by
  unfold abandonEntry
  extract_lets v1
  split
  · exact hs
  · split
    · exact hs
    · apply holds_updateBroadcast
      exact hs

theorem holds_normAbandonDo (hs : s.Holds q) : (normAbandonDo s).Holds q := by
  unfold normAbandonDo
  refine holds_ite (fun _ => ?_) (fun _ => ?_)
  · exact hs
  · extract_lets v1 v2 s3 s4
    have h5 : State.Holds q s3 := by
      unfold s3
      refine holds_same (s := s) ?_ rfl rfl rfl rfl rfl rfl rfl rfl
      exact hs
    clear_value s3
    have h6 : State.Holds q s4 := by
      unfold s4
      apply holds_setModeAt
      exact h5
    clear_value s4
    refine holds_foldl (fun s7 x9 h8 => ?_) _ ?_
    · extract_lets v10 s11
      have h12 : State.Holds q s11 := by
        unfold s11
        refine holds_foldl (fun s13 x15 h14 => ?_) _ ?_
        · apply holds_abandonEntry
          exact h14
        · exact h8
      clear_value s11
      apply holds_modWell
      exact h12
    · exact h6

theorem ends_execNormAbandon (hs : s.Holds q) : Ends q (execNormAbandon s) := by
  unfold execNormAbandon
  refine ends_act ?_ (fun s1 h2 => ?_)
  · exact hs
  · apply holds_normAbandonDo
    exact h2

theorem holds_forgeQueue (w : Nat) (r : ForgeRec) (b : Bytes) (hs : s.Holds q) : (forgeQueue w r b s).Holds q := by
  unfold forgeQueue
  extract_lets v1 v2 v3 v4 s5
  have h6 : State.Holds q s5 := by
    unfold s5
    apply holds_postWrite
    exact hs
  clear_value s5
  refine holds_ite (fun _ => ?_) (fun _ => ?_)
  · apply holds_modWell
    exact h6
  · apply holds_modWell
    exact hs

theorem holds_forgeFault (cause : Nat) (w : Nat) (unit : Nat) (h : Hdr) (hs : s.Holds q) : (forgeFault cause w unit h s).Holds q := by
  unfold forgeFault
  extract_lets s1
  have h2 : State.Holds q s1 := by
    unfold s1
    apply holds_modWell
    exact hs
  clear_value s1
  apply holds_raise
  exact h2

theorem holds_skipBlock (cause : Nat) (w : Nat) (r : ForgeRec) (j : Nat) (h : Hdr) (hs : s.Holds q) : (skipBlock cause w r j h s).Holds q := by
  unfold skipBlock
  extract_lets s1 s2 s3
  have h4 : State.Holds q s1 := by
    unfold s1
    apply holds_modWell
    exact hs
  clear_value s1
  have h5 : State.Holds q s2 := by
    unfold s2
    refine holds_ite (fun _ => ?_) (fun _ => ?_)
    · exact h4
    · apply holds_forgeFault
      exact h4
  clear_value s2
  have h6 : State.Holds q s3 := by
    unfold s3
    apply holds_setModeAt
    exact h5
  clear_value s3
  apply holds_updateBroadcast
  exact h6

theorem holds_holdStep (step : Nat) (kappa : F32) (hs : s.Holds q) : (holdStep step kappa s).Holds q := by
  unfold holdStep
  refine holds_same (s := s) ?_ rfl rfl rfl rfl rfl rfl rfl rfl
  exact hs

theorem holds_latchPair (step : Nat) (kappa : F32) (hs : s.Holds q) : (latchPair step kappa s).Holds q := by
  unfold latchPair
  refine holds_ite (fun _ => ?_) (fun _ => ?_)
  · refine holds_same (s := s) ?_ rfl rfl rfl rfl rfl rfl rfl rfl
    exact hs
  · apply holds_raise
    apply holds_holdStep
    exact hs

theorem holds_forgeAccept (b : Bytes) (hs : s.Holds q) : (forgeAccept b s).Holds q := by
  unfold forgeAccept
  extract_lets v1
  split
  · apply holds_forgeFault
    exact hs
  · extract_lets v2 v3
    refine holds_ite (fun _ => ?_) (fun _ => ?_)
    · apply holds_forgeFault
      exact hs
    · split
      · apply holds_forgeFault
        exact hs
      · extract_lets v4 v5 v6 s7 s8 v9 s10 s11 s12 s13
        have h14 : State.Holds q s7 := by
          unfold s7
          apply holds_modWell
          exact hs
        clear_value s7
        have h15 : State.Holds q s8 := by
          unfold s8
          refine holds_ite (fun _ => ?_) (fun _ => ?_)
          · exact h14
          · apply holds_modOp
            apply holds_openBcast
            exact h14
        clear_value s8
        have h16 : State.Holds q s10 := by
          unfold s10
          refine holds_ite (fun _ => ?_) (fun _ => ?_)
          · exact h15
          · apply holds_plausible
            exact h15
        clear_value s10
        have h17 : State.Holds q s11 := by
          unfold s11
          refine holds_ite (fun _ => ?_) (fun _ => ?_)
          · apply holds_modWell
            exact h16
          · exact h16
        clear_value s11
        have h18 : State.Holds q s12 := by
          unfold s12
          apply holds_normSeen
          exact h17
        clear_value s12
        have h19 : State.Holds q s13 := by
          unfold s13
          refine holds_ite (fun _ => ?_) (fun _ => ?_)
          · apply holds_latchPair
            exact h18
          · exact h18
        clear_value s13
        refine holds_ite (fun _ => ?_) (fun _ => ?_)
        · apply holds_forgeFault
          exact hs
        · refine holds_ite (fun _ => ?_) (fun _ => ?_)
          · apply holds_forgeFault
            exact hs
          · refine holds_ite (fun _ => ?_) (fun _ => ?_)
            · apply holds_skipBlock
              apply holds_normSeen
              exact h15
            · refine holds_ite (fun _ => ?_) (fun _ => ?_)
              · apply holds_updateBroadcast
                exact h18
              · apply holds_forgeQueue
                exact h19

theorem holds_normResult (b : Bytes) (hs : s.Holds q) : (normResult b s).Holds q := by
  unfold normResult
  extract_lets v1 v2 v3 v4 v5 s6 v7 s8
  have h9 : State.Holds q s6 := by
    unfold s6
    refine holds_ite (fun _ => ?_) (fun _ => ?_)
    · apply holds_raise
      exact hs
    · exact hs
  clear_value s6
  have h10 : State.Holds q s8 := by
    unfold s8
    refine holds_same (s := s6) ?_ rfl rfl rfl rfl rfl rfl rfl rfl
    exact h9
  clear_value s8
  refine holds_ite (fun _ => ?_) (fun _ => ?_)
  · exact h10
  · refine holds_ite (fun _ => ?_) (fun _ => ?_)
    · apply holds_latchPair
      exact h10
    · apply holds_forgeFault
      apply holds_holdStep
      exact h10

theorem holds_normRoot (b : Bytes) (excluded : Nat) (hs : s.Holds q) : (normRoot b excluded s).Holds q := by
  unfold normRoot
  extract_lets v1 v2 v3 v4 v5 s6 s7
  have h8 : State.Holds q s6 := by
    unfold s6
    apply holds_modOp
    apply holds_openBcast
    exact hs
  clear_value s6
  have h9 : State.Holds q s7 := by
    unfold s7
    apply holds_rootBroadcast
    exact h8
  clear_value s7
  refine holds_ite (fun _ => ?_) (fun _ => ?_)
  · apply holds_normResult
    exact h9
  · exact h9

theorem holds_normReleaseDo (hs : s.Holds q) : (normReleaseDo s).Holds q := by
  unfold normReleaseDo
  refine holds_ite (fun _ => ?_) (fun _ => ?_)
  · exact hs
  · extract_lets v1 v2 s3
    have h4 : State.Holds q s3 := by
      unfold s3
      refine holds_same (s := s) ?_ rfl rfl rfl rfl rfl rfl rfl rfl
      exact hs
    clear_value s3
    apply holds_latchPair
    apply holds_setModeAt
    exact h4

theorem holds_unqueue (w : Nat) (slot : Option Nat) (hs : s.Holds q) : (unqueue w slot s).Holds q := by
  unfold unqueue
  apply holds_modWell
  exact hs

theorem holds_forgeWrite (w : Nat) (step : Nat) (a : Nat) (bs : Bytes) (hs : s.Holds q) : (forgeWrite w step a bs s).Holds q := by
  unfold forgeWrite
  extract_lets s1 v2
  have h3 : State.Holds q s1 := by
    unfold s1
    apply holds_postWrite
    exact hs
  clear_value s1
  refine holds_ite (fun _ => ?_) (fun _ => ?_)
  · exact h3
  · refine holds_same (s := s1) ?_ rfl rfl rfl rfl rfl rfl rfl rfl
    exact h3

theorem holds_forgeApplyNext (w : Nat) (err : U64 × U64) (rd : ReadEnd) (hs : s.Holds q) : (forgeApplyNext w err rd s).Holds q := by
  unfold forgeApplyNext
  extract_lets v1 v2 s3
  have h4 : State.Holds q s3 := by
    unfold s3
    apply holds_readsEnd
    exact hs
  clear_value s3
  split
  · extract_lets v5 v6
    split
    · apply holds_unqueue
      exact hs
    · refine holds_ite (fun _ => ?_) (fun _ => ?_)
      · exact hs
      · split
        · apply holds_unqueue
          exact hs
        · extract_lets v7 v8 v9 v10 s11
          have h12 : State.Holds q s11 := by
            unfold s11
            refine holds_ite (fun _ => ?_) (fun _ => ?_)
            · apply holds_raiseFull
              exact h4
            · refine holds_ite (fun _ => ?_) (fun _ => ?_)
              · apply holds_modUnit
                apply holds_modUnit
                exact h4
              · exact h4
          clear_value s11
          split
          · apply holds_updateBroadcast
            apply holds_unqueue
            exact h4
          · apply holds_skipBlock
            apply holds_unqueue
            exact h4
          · refine holds_ite (fun _ => ?_) (fun _ => ?_)
            · apply holds_skipBlock
              apply holds_unqueue
              exact h12
            · extract_lets s13
              have h14 : State.Holds q s13 := by
                unfold s13
                refine holds_foldl (fun s15 x17 h16 => ?_) _ ?_
                · apply holds_forgeWrite
                  exact h16
                · exact h12
              clear_value s13
              apply holds_modWell
              exact h14
  · exact hs

theorem ends_execNormRelease (hs : s.Holds q) : Ends q (execNormRelease s) := by
  unfold execNormRelease
  refine ends_act ?_ (fun s1 h2 => ?_)
  · exact hs
  · apply holds_normReleaseDo
    exact h2

theorem holds_forgeBlockDone (w : Nat) (hs : s.Holds q) : (forgeBlockDone w s).Holds q := by
  unfold forgeBlockDone
  split
  · exact hs
  · refine holds_ite (fun _ => ?_) (fun _ => ?_)
    · exact hs
    · extract_lets v1 s2
      have h3 : State.Holds q s2 := by
        unfold s2
        apply holds_modWell
        exact hs
      clear_value s2
      split
      · exact h3
      · split
        · exact h3
        · apply holds_updateBroadcast
          exact h3

theorem ends_execForgeApply (w : Nat) (err : U64 × U64) (rd : ReadEnd) (hs : s.Holds q) : Ends q (execForgeApply w err rd s) := by
  unfold execForgeApply
  refine ends_actOn ?_ (fun s1 h2 => ?_)
  · exact hs
  · apply holds_forgeApplyNext
    exact h2

theorem ends_execForgeBlockApplied (w : Nat) (hs : s.Holds q) : Ends q (execForgeBlockApplied w s) := by
  unfold execForgeBlockApplied
  refine ends_actOn ?_ (fun s1 h2 => ?_)
  · exact hs
  · apply holds_forgeBlockDone
    exact h2

/-! ### Mill -/

theorem holds_noteInitialRung (c : Nat) (first : Nat) (n : Nat) (hs : s.Holds q) : (noteInitialRung c first n s).Holds q := by
  unfold noteInitialRung
  split
  · exact hs
  · extract_lets v1
    refine holds_ite (fun _ => ?_) (fun _ => ?_)
    · apply holds_setModeAt
      exact hs
    · exact hs

theorem holds_keepNil (c first n : Nat) (t : TensorRec) (b : Bool) (hs : s.Holds q) : (keepNil c first n t b s).Holds q := by
  unfold keepNil
  extract_lets v1 s2
  have h3 : State.Holds q s2 := by
    unfold s2
    apply holds_setModeAt
    apply holds_raise
    exact hs
  clear_value s2
  refine holds_modCore _ (fun k4 h5 => ?_) ?_
  · refine wf_upd (k := k4) ?_ id id id id id id id id id id id id
    exact h5
  · exact h3

theorem holds_nonfiniteRange (c : Nat) (first : Nat) (n : Nat) (hs : s.Holds q) : (nonfiniteRange c first n s).Holds q := by
  unfold nonfiniteRange
  split
  · apply holds_setModeAt
    apply holds_raise
    exact hs
  · apply holds_keepNil
    exact hs

theorem holds_carryRange (t : TensorRec) (step first n : Nat) (hs : s.Holds q) : (carryRange t step first n s).Holds q := by
  unfold carryRange
  extract_lets v1 v2 v3
  apply holds_postWriteBad
  exact hs

theorem holds_coreRefused (c : Nat) (h : Hdr) (hs : s.Holds q) : (coreRefused c h s).Holds q := by
  unfold coreRefused
  split
  · apply holds_nonfiniteRange
    exact hs
  · extract_lets v1 s2
    have h3 : State.Holds q s2 := by
      unfold s2
      apply holds_keepNil
      exact hs
    clear_value s2
    refine holds_ite (fun _ => ?_) (fun _ => ?_)
    · exact h3
    · apply holds_carryRange
      exact h3

theorem holds_coreCheck (c : Nat) (check : U64 × U64) (b : Bytes) (hs : s.Holds q) : (coreCheck c check b s).2.Holds q := by
  unfold coreCheck
  extract_lets h d n s1
  have h2 : State.Holds q s1 := by
    unfold s1
    apply holds_raiseFull
    exact hs
  clear_value s1
  split
  · exact hs
  · split
    · apply holds_modUnit
      apply holds_modUnit
      exact hs
    · split
      · exact h2
      · apply holds_coreRefused
        exact h2

/-! ### Adder -/

theorem holds_stompLeaving (gate : Nat) (r : Retained) (hs : s.Holds q) : (stompLeaving gate r s).Holds q := by
  unfold stompLeaving
  extract_lets v1 s2
  have h3 : State.Holds q s2 := by
    unfold s2
    apply holds_modGate
    exact hs
  clear_value s2
  apply holds_raise
  exact h3

theorem holds_withdrawOutput (nm : OpName) (g : Grp) (o : Op) (j : Nat) (reason : Nat) (hs : s.Holds q) : (withdrawOutput nm g o j reason s).Holds q := by
  unfold withdrawOutput
  split
  · extract_lets v1 s2 v3
    have h4 : State.Holds q s2 := by
      unfold s2
      apply holds_modGate
      exact hs
    clear_value s2
    split
    · exact h4
    · refine holds_ite (fun _ => ?_) (fun _ => ?_)
      · unfold v3
        apply holds_modCell
        exact h4
      · refine holds_ite (fun _ => ?_) (fun _ => ?_)
        · apply holds_modGate
          exact h4
        · refine holds_ite (fun _ => ?_) (fun _ => ?_)
          · extract_lets s5
            have h6 : State.Holds q s5 := by
              unfold s5
              apply holds_modGate
              exact h4
            clear_value s5
            unfold v3
            apply holds_modCell
            apply holds_sendNotice
            exact h6
          · unfold v3
            apply holds_modCell
            apply holds_stompLeaving
            exact h4
  · exact hs

theorem holds_sendResend (gate : Nat) (pos : Nat) (reason : Nat) (h : Hdr) (hs : s.Holds q) : (sendResend gate pos reason h s).Holds q := by
  unfold sendResend
  extract_lets v1
  refine holds_ite (fun _ => ?_) (fun _ => ?_)
  · apply holds_greenNotice
    exact hs
  · apply holds_sendNotice
    apply holds_modGate
    exact hs

theorem holds_resendArriving (nm : OpName) (g : Grp) (o : Op) (c : Cell) (reason : Nat) (hs : s.Holds q) : (resendArriving nm g o c reason s).Holds q := by
  unfold resendArriving
  refine holds_foldl (fun s1 x3 h2 => ?_) _ ?_
  · extract_lets v4 v5
    split
    · exact h2
    · refine holds_ite (fun _ => ?_) (fun _ => ?_)
      · exact h2
      · apply holds_sendResend
        apply holds_modOp
        exact h2
  · exact hs

theorem holds_rebuildCell (nm : OpName) (j : Nat) (reason : Nat) (hs : s.Holds q) : (rebuildCell nm j reason s).Holds q := by
  unfold rebuildCell
  split
  · split
    · exact hs
    · refine holds_ite (fun _ => ?_) (fun _ => ?_)
      · exact hs
      · extract_lets s1 v2 v3 v4 s5 s6 s7
        have h8 : State.Holds q s1 := by
          unfold s1
          refine holds_ite (fun _ => ?_) (fun _ => ?_)
          · exact hs
          · apply holds_withdrawOutput
            exact hs
        clear_value s1
        have h9 : State.Holds q s5 := by
          unfold s5
          apply holds_modGate
          exact h8
        clear_value s5
        have h10 : State.Holds q s6 := by
          unfold s6
          apply holds_modOp
          exact h9
        clear_value s6
        have h11 : State.Holds q s7 := by
          unfold s7
          apply holds_modCell
          exact h10
        clear_value s7
        apply holds_resendArriving
        refine holds_foldl (fun s12 x14 h13 => ?_) _ ?_
        · apply holds_sendResend
          exact h13
        · exact h11
  · exact hs

theorem holds_excludeInput (nm : OpName) (j : Nat) (pos : Nat) (hs : s.Holds q) : (excludeInput nm j pos s).Holds q := by
  unfold excludeInput
  split
  · split
    · exact hs
    · refine holds_ite (fun _ => ?_) (fun _ => ?_)
      · exact hs
      · extract_lets v1 v2 v3 s4 s5 s6
        have h7 : State.Holds q s4 := by
          unfold s4
          apply holds_modCell
          exact hs
        clear_value s4
        have h8 : State.Holds q s5 := by
          unfold s5
          apply holds_modGate
          exact h7
        clear_value s5
        have h9 : State.Holds q s6 := by
          unfold s6
          apply holds_raise
          exact h8
        clear_value s6
        refine holds_ite (fun _ => ?_) (fun _ => ?_)
        · apply holds_rebuildCell
          exact h9
        · exact h9
  · exact hs

theorem holds_sendGrant (nm : OpName) (idx : Nat) (a : AskSt) (wait : Bool) (hs : s.Holds q) : (sendGrant nm idx a wait s).Holds q := by
  unfold sendGrant
  extract_lets v1
  refine holds_ite (fun _ => ?_) (fun _ => ?_)
  · apply holds_greenNotice
    exact hs
  · apply holds_sendNotice
    exact hs

theorem holds_answerAsk (nm : OpName) (a : AskSt) (hs : s.Holds q) : (answerAsk nm s a).Holds q := by
  unfold answerAsk
  split
  · split
    · exact hs
    · extract_lets v1 s2
      have h3 : State.Holds q s2 := by
        unfold s2
        apply holds_modOp
        exact hs
      clear_value s2
      apply holds_sendGrant
      exact h3
  · exact hs

theorem holds_answerAsks (nm : OpName) (hs : s.Holds q) : (answerAsks nm s).Holds q := by
  unfold answerAsks
  split
  · refine holds_foldl (fun s1 x3 h2 => ?_) _ ?_
    · apply holds_answerAsk
      exact h2
    · exact hs
  · exact hs

theorem holds_markComplete (nm : OpName) (g : Grp) (j : Nat) (hs : s.Holds q) : (markComplete nm g j s).Holds q := by
  unfold markComplete
  split
  · exact hs
  · split
    · exact hs
    · extract_lets v1
      apply holds_modCell
      exact hs

theorem holds_addChunk (nm : OpName) (g : Grp) (o : Op) (j : Nat) (c : InChunk) (hs : s.Holds q) : (addChunk nm g o j c s).Holds q := by
  unfold addChunk
  split
  · exact hs
  · extract_lets v1 v2 v3 v4 v5 s6 s7
    have h8 : State.Holds q s6 := by
      unfold s6
      apply holds_modOp
      exact hs
    clear_value s6
    have h9 : State.Holds q s7 := by
      unfold s7
      refine holds_ite (fun _ => ?_) (fun _ => ?_)
      · exact h8
      · apply holds_setOpMode
        exact h8
    clear_value s7
    refine holds_ite (fun _ => ?_) (fun _ => ?_)
    · apply holds_modGate
      exact h9
    · exact h9

theorem holds_addLoop (nm : OpName) (g : Grp) (j n : Nat) (hs : s.Holds q) : (addLoop nm g j n s).Holds q := by
  induction n generalizing s with
  | zero => exact hs
  | succ n ih =>
    unfold addLoop
    split
    · exact hs
    · split
      · exact hs
      · refine holds_ite (fun _ => hs) (fun _ => ?_)
        split
        · exact hs
        · exact ih (holds_markComplete _ _ _ (holds_addChunk _ _ _ _ _ hs))

theorem holds_modGrp (id : Nat) (f : Grp → Grp) (hs : s.Holds q) : (modGrp id f s).Holds q := by
  unfold modGrp
  refine holds_same (s := s) ?_ rfl rfl rfl rfl rfl rfl rfl rfl
  exact hs

theorem holds_spreadFail (g : Grp) (nm : OpName) (f : FailMsg) (fromGate : Option Nat) (hs : s.Holds q) : (spreadFail g nm f fromGate s).Holds q := by
  unfold spreadFail
  refine holds_ite (fun _ => ?_) (fun _ => ?_)
  · exact hs
  · refine holds_foldl (fun s1 x3 h2 => ?_) _ ?_
    · refine holds_ite (fun _ => ?_) (fun _ => ?_)
      · exact h2
      · apply holds_sendNotice
        exact h2
    · apply holds_modGrp
      exact hs

theorem holds_recordGfail (group : Nat) (reason : Nat) (hs : s.Holds q) : (recordGfail group reason s).Holds q := by
  unfold recordGfail
  refine holds_ite (fun _ => ?_) (fun _ => ?_)
  · exact hs
  · refine holds_same (s := s) ?_ rfl rfl rfl rfl rfl rfl rfl rfl
    exact hs

theorem holds_dropChunks (p : Bytes → Bool) (hs : s.Holds q) : (dropChunks p s).Holds q :=
  holds_upd hs rfl id id id id (fun _ => tableWf_built _ _ _ _) id id id

theorem holds_auditPush (bit : Nat) (r : Bytes) (hs : s.Holds q) : (auditPush bit r s).Holds q := by
  unfold auditPush
  refine holds_ite (fun _ => ?_) (fun _ => ?_)
  · apply holds_ringPush
    exact hs
  · exact hs

theorem holds_tensorDigest (nm : OpName) (hs : s.Holds q) : (tensorDigest nm s).Holds q := by
  unfold tensorDigest
  split
  · extract_lets v1 v2 v3 v4 v5 v6 v7 v8 v9
    refine holds_ite (fun _ => ?_) (fun _ => ?_)
    · exact hs
    · apply holds_auditPush
      refine holds_same (s := s) ?_ rfl rfl rfl rfl rfl rfl rfl rfl
      exact hs
  · exact hs

theorem holds_failOp (g : Grp) (o : Op) (hs : s.Holds q) : (failOp g s o).Holds q := by
  unfold failOp
  extract_lets v1 s2 s3 s4 s5 s6
  have h7 : State.Holds q s2 := by
    unfold s2
    apply holds_ringBell
    exact hs
  clear_value s2
  have h8 : State.Holds q s3 := by
    unfold s3
    apply holds_forgeOpFailed
    exact h7
  clear_value s3
  have h9 : State.Holds q s4 := by
    unfold s4
    apply holds_dropChunks
    exact h8
  clear_value s4
  have h10 : State.Holds q s5 := by
    unfold s5
    apply holds_modOp
    exact h9
  clear_value s5
  have h11 : State.Holds q s6 := by
    unfold s6
    apply holds_tensorDigest
    exact h10
  clear_value s6
  apply holds_modOp
  exact h11

theorem holds_failGroup (nm : OpName) (reason : Nat) (msg : Option FailMsg) (fromGate : Option Nat) (hs : s.Holds q) : (failGroup nm reason msg fromGate s).Holds q := by
  unfold failGroup
  split
  · exact hs
  · extract_lets v1 s2 s3 s4 v5
    have h6 : State.Holds q s2 := by
      unfold s2
      apply holds_recordGfail
      exact hs
    clear_value s2
    have h7 : State.Holds q s3 := by
      unfold s3
      apply holds_raise
      exact h6
    clear_value s3
    have h8 : State.Holds q s4 := by
      unfold s4
      unfold v1
      split
      · apply holds_setModeAt
        exact h7
      · apply holds_spreadFail
        apply holds_setModeAt
        exact h7
    clear_value s4
    refine holds_ite (fun _ => ?_) (fun _ => ?_)
    · unfold v1
      split
      · exact hs
      · apply holds_spreadFail
        exact hs
    · apply holds_modGrp
      refine holds_foldl (fun s9 x11 h10 => ?_) _ ?_
      · apply holds_failOp
        exact h10
      · exact h8

theorem holds_placeOutput (nm : OpName) (g : Grp) (o : Op) (j : Nat) (hs : s.Holds q) : (placeOutput nm g o j s).Holds q := by
  unfold placeOutput
  split
  · exact hs
  · split
    · apply holds_modCell
      exact hs
    · extract_lets v1 s2
      have h3 : State.Holds q s2 := by
        unfold s2
        apply holds_modCell
        exact hs
      clear_value s2
      refine holds_ite (fun _ => ?_) (fun _ => ?_)
      · apply holds_modCell
        exact hs
      · refine holds_ite (fun _ => ?_) (fun _ => ?_)
        · apply holds_modCell
          exact hs
        · apply holds_enqueueItem
          exact h3

theorem holds_finishCell (nm : OpName) (j : Nat) (hs : s.Holds q) : (finishCell nm j s).Holds q := by
  unfold finishCell
  split
  · split
    · exact hs
    · refine holds_ite (fun _ => ?_) (fun _ => ?_)
      · exact hs
      · split
        · extract_lets v1 s2 s3
          have h4 : State.Holds q s2 := by
            unfold s2
            apply holds_modGate
            exact hs
          clear_value s2
          have h5 : State.Holds q s3 := by
            unfold s3
            apply holds_raise
            exact h4
          clear_value s3
          apply holds_excludeInput
          exact h5
        · split
          refine holds_ite (fun _ => ?_) (fun _ => ?_)
          · apply holds_failGroup
            exact hs
          · extract_lets v6 v7 s8 s9 s10
            have h11 : State.Holds q s8 := by
              unfold s8
              refine holds_ite (fun _ => ?_) (fun _ => ?_)
              · apply holds_raise
                exact hs
              · exact hs
            clear_value s8
            have h12 : State.Holds q s9 := by
              unfold s9
              refine holds_ite (fun _ => ?_) (fun _ => ?_)
              · exact h11
              · apply holds_plausible
                exact h11
            clear_value s9
            have h13 : State.Holds q s10 := by
              unfold s10
              apply holds_modCell
              exact h12
            clear_value s10
            split
            · apply holds_placeOutput
              exact h13
            · exact h13
  · exact hs

theorem holds_advanceCell (nm : OpName) (j : Nat) (hs : s.Holds q) : (advanceCell nm s j).Holds q := by
  unfold advanceCell
  split
  · exact hs
  · extract_lets v1 s2
    have h3 : State.Holds q s2 := by
      unfold s2
      apply holds_addLoop
      exact hs
    clear_value s2
    apply holds_finishCell
    apply holds_markComplete
    exact h3

theorem holds_advanceCells (nm : OpName) (js : List Nat) (hs : s.Holds q) : (advanceCells nm js s).Holds q := by
  unfold advanceCells
  apply holds_answerAsks
  refine holds_foldl (fun s1 x3 h2 => ?_) _ ?_
  · apply holds_advanceCell
    exact h2
  · exact hs

theorem holds_strayInput (gate : Nat) (vc : Nat) (b : Bytes) (maskOk : Bool) (hs : s.Holds q) : (strayInput gate vc b maskOk s).Holds q := by
  unfold strayInput
  extract_lets v1 v2
  refine holds_ite (fun _ => ?_) (fun _ => ?_)
  · apply holds_sendResend
    apply holds_gateFault
    apply holds_modGate
    exact hs
  · refine holds_ite (fun _ => ?_) (fun _ => ?_)
    · apply holds_gateFault
      apply holds_modGate
      exact hs
    · apply holds_gateFault
      exact hs

theorem holds_releaseGate (gate : Nat) (hs : s.Holds q) : (releaseGate gate s).Holds q := by
  unfold releaseGate
  apply holds_modGate
  exact hs

theorem holds_reabsorbElem (t : TensorRec) (step : Nat) (poison : Bool) (e : Nat × F32) (hs : s.Holds q) : (reabsorbElem t step poison s e).Holds q := by
  unfold reabsorbElem
  extract_lets v1 v2 v3 v4 v5
  apply holds_postWrite
  exact hs

theorem holds_reabsorbChunk (gate : Nat) (base : Nat) (count : Nat) (r : Retained) (hs : s.Holds q) : (reabsorbChunk gate base count s r).Holds q := by
  unfold reabsorbChunk
  extract_lets v1 v2 v3 v4 v5 v6
  refine holds_ite (fun _ => ?_) (fun _ => ?_)
  · exact hs
  · refine holds_ite (fun _ => ?_) (fun _ => ?_)
    · unfold v5
      apply holds_modGate
      exact hs
    · refine holds_ite (fun _ => ?_) (fun _ => ?_)
      · unfold v5
        apply holds_modGate
        apply holds_setModeAt
        apply holds_raise
        exact hs
      · split
        · unfold v5
          apply holds_modGate
          exact hs
        · refine holds_ite (fun _ => ?_) (fun _ => ?_)
          · unfold v5
            apply holds_modGate
            exact hs
          · extract_lets s7
            have h8 : State.Holds q s7 := by
              unfold s7
              refine holds_foldl (fun s9 x11 h10 => ?_) _ ?_
              · apply holds_reabsorbElem
                exact h10
              · exact hs
            clear_value s7
            unfold v5
            apply holds_modGate
            apply holds_modGate
            exact h8

theorem holds_closeRange (nm : OpName) (base : Nat) (count : Nat) (hs : s.Holds q) : (closeRange nm base count s).Holds q := by
  unfold closeRange
  extract_lets s1 v2 v3 v4 s5
  have h6 : State.Holds q s1 := by
    unfold s1
    apply holds_setOpMode
    exact hs
  clear_value s1
  have h7 : State.Holds q s5 := by
    unfold s5
    refine holds_foldl (fun s8 x10 h9 => ?_) _ ?_
    · extract_lets v11 v12 v13 s14 v15
      have h16 : State.Holds q s14 := by
        unfold s14
        apply holds_modGate
        exact h9
      clear_value s14
      apply holds_releaseGate
      refine holds_foldl (fun s17 x19 h18 => ?_) _ ?_
      · apply holds_reabsorbChunk
        exact h18
      · exact h16
    · exact h6
  clear_value s5
  apply holds_modOp
  exact h7

theorem holds_applyHeldCloses (nm : OpName) (hs : s.Holds q) : (applyHeldCloses nm s).Holds q := by
  unfold applyHeldCloses
  extract_lets v1 s2
  have h3 : State.Holds q s2 := by
    unfold s2
    refine holds_same (s := s) ?_ rfl rfl rfl rfl rfl rfl rfl rfl
    exact hs
  clear_value s2
  refine holds_foldl (fun s4 x6 h5 => ?_) _ ?_
  · apply holds_closeRange
    exact h5
  · exact h3

theorem holds_askParent (g : Grp) (nm : OpName) (n : Nat) (hs : s.Holds q) : (askParent g nm n s).Holds q := by
  unfold askParent
  refine holds_foldl (fun s1 x3 h2 => ?_) _ ?_
  · split
    · exact h2
    · refine holds_ite (fun _ => ?_) (fun _ => ?_)
      · exact h2
      · extract_lets v4
        apply holds_sendNotice
        exact h2
  · exact hs

theorem holds_takeHeldAsks (nm : OpName) (hs : s.Holds q) : (takeHeldAsks nm s).Holds q := by
  unfold takeHeldAsks
  extract_lets v1 s2
  have h3 : State.Holds q s2 := by
    unfold s2
    refine holds_same (s := s) ?_ rfl rfl rfl rfl rfl rfl rfl rfl
    exact hs
  clear_value s2
  apply holds_modOp
  exact h3

theorem holds_openReduction (nm : OpName) (n : Nat) (hs : s.Holds q) : (openReduction nm n s).Holds q := by
  unfold openReduction
  split
  · exact hs
  · extract_lets v1 s2 s3 s4 s5
    have h6 : State.Holds q s2 := by
      unfold s2
      apply holds_putOp
      exact hs
    clear_value s2
    have h7 : State.Holds q s3 := by
      unfold s3
      apply holds_putOp
      exact hs
    clear_value s3
    have h8 : State.Holds q s4 := by
      unfold s4
      refine holds_ite (fun _ => ?_) (fun _ => ?_)
      · apply holds_askParent
        exact h7
      · exact h7
    clear_value s4
    have h9 : State.Holds q s5 := by
      unfold s5
      apply holds_takeHeldAsks
      exact h8
    clear_value s5
    refine holds_ite (fun _ => ?_) (fun _ => ?_)
    · exact hs
    · refine holds_ite (fun _ => ?_) (fun _ => ?_)
      · apply holds_ringBell
        exact h6
      · apply holds_answerAsks
        apply holds_applyHeldCloses
        exact h9

theorem holds_countLate (gate : Nat) (h : Hdr) (hs : s.Holds q) : (countLate gate h s).Holds q := by
  unfold countLate
  apply holds_gateFault
  apply holds_modGate
  exact hs

theorem holds_excludeAll (nm : OpName) (js : List Nat) (pos : Nat) (hs : s.Holds q) : (excludeAll nm js pos s).Holds q := by
  unfold excludeAll
  apply holds_advanceCells
  refine holds_foldl (fun s1 x3 h2 => ?_) _ ?_
  · apply holds_excludeInput
    exact h2
  · exact hs

theorem holds_inputSealFailure (nm : OpName) (gate : Nat) (pos : Nat) (js : List Nat) (b : Bytes) (hs : s.Holds q) : (inputSealFailure nm gate pos js b s).Holds q := by
  unfold inputSealFailure
  extract_lets v1 v2 s3 s4
  have h5 : State.Holds q s3 := by
    unfold s3
    apply holds_modGate
    exact hs
  clear_value s3
  have h6 : State.Holds q s4 := by
    unfold s4
    apply holds_gateFault
    exact h5
  clear_value s4
  split
  · exact h6
  · extract_lets v7 v8 s9 s10
    have h11 : State.Holds q s9 := by
      unfold s9
      apply holds_modOp
      exact h6
    clear_value s9
    have h12 : State.Holds q s10 := by
      unfold s10
      refine holds_foldl (fun s13 x15 h14 => ?_) _ ?_
      · refine holds_ite (fun _ => ?_) (fun _ => ?_)
        · apply holds_rebuildCell
          exact h14
        · exact h14
      · exact h11
    clear_value s10
    refine holds_ite (fun _ => ?_) (fun _ => ?_)
    · apply holds_excludeAll
      exact h11
    · apply holds_sendResend
      exact h12

theorem holds_inputInconsistent (nm : OpName) (gate : Nat) (pos : Nat) (js : List Nat) (h : Hdr) (detail : Nat) (hs : s.Holds q) : (inputInconsistent nm gate pos js h detail s).Holds q := by
  unfold inputInconsistent
  extract_lets s1 s2
  have h3 : State.Holds q s1 := by
    unfold s1
    apply holds_modGate
    exact hs
  clear_value s1
  have h4 : State.Holds q s2 := by
    unfold s2
    apply holds_gateFault
    exact h3
  clear_value s2
  apply holds_excludeAll
  exact h4

theorem holds_inputMassFailure (nm : OpName) (gate : Nat) (pos : Nat) (js : List Nat) (b : Bytes) (hs : s.Holds q) : (inputMassFailure nm gate pos js b s).Holds q := by
  unfold inputMassFailure
  extract_lets v1 s2 s3 s4
  have h5 : State.Holds q s2 := by
    unfold s2
    apply holds_modGate
    exact hs
  clear_value s2
  have h6 : State.Holds q s3 := by
    unfold s3
    apply holds_gateFault
    exact h5
  clear_value s3
  have h7 : State.Holds q s4 := by
    unfold s4
    apply holds_modOp
    exact h6
  clear_value s4
  split
  · exact h6
  · refine holds_ite (fun _ => ?_) (fun _ => ?_)
    · apply holds_excludeAll
      exact h6
    · extract_lets s8
      have h9 : State.Holds q s8 := by
        unfold s8
        refine holds_foldl (fun s10 x12 h11 => ?_) _ ?_
        · refine holds_ite (fun _ => ?_) (fun _ => ?_)
          · apply holds_rebuildCell
            exact h11
          · exact h11
        · exact h7
      clear_value s8
      apply holds_sendResend
      exact h9

theorem holds_noteInput (nm : OpName) (pos : Nat) (b : Bytes) (mask : List MaskEnt) (excluded : Nat) (hs : s.Holds q) : (noteInput nm pos b mask excluded s).Holds q := by
  unfold noteInput
  extract_lets v1 v2 s3
  have h4 : State.Holds q s3 := by
    unfold s3
    apply holds_boltModes
    apply holds_modOp
    exact hs
  clear_value s3
  split
  · exact hs
  · refine holds_ite (fun _ => ?_) (fun _ => ?_)
    · exact hs
    · refine holds_ite (fun _ => ?_) (fun _ => ?_)
      · exact h4
      · apply holds_tallyChunk
        exact h4

theorem holds_holdInput (nm : OpName) (gate : Nat) (pos : Nat) (js : List Nat) (b : Bytes) (mask : List MaskEnt) (excluded : Nat) (hs : s.Holds q) : (holdInput nm gate pos js b mask excluded s).Holds q := by
  unfold holdInput
  extract_lets v1 v2 s3 s4
  have h5 : State.Holds q s3 := by
    unfold s3
    apply holds_modOp
    exact hs
  clear_value s3
  have h6 : State.Holds q s4 := by
    unfold s4
    refine holds_ite (fun _ => ?_) (fun _ => ?_)
    · exact h5
    · apply holds_noteInput
      exact h5
  clear_value s4
  apply holds_advanceCells
  exact h6

theorem holds_inputArrives (gate vc : Nat) (b : Bytes) (mask : List MaskEnt) (excluded : Nat) (maskOk : Bool) (hs : s.Holds q) :
    (inputArrives gate vc b mask excluded maskOk s).Holds q := by
  unfold inputArrives
  extract_lets h nm n key
  split
  · exact holds_gateFault _ _ _ _ _ _ hs
  · split
    · exact holds_ite (fun _ => holds_countLate _ _ hs) (fun _ => holds_gateFault _ _ _ _ _ _ hs)
    · extract_lets js
      clear_value js
      split
      · exact holds_strayInput _ _ _ _ hs
      · split
        · exact holds_strayInput _ _ _ _ hs
        · extract_lets late agate s1 s2
          have h1 : s1.Holds q := holds_foldl (fun _ _ h => holds_countLate _ _ h) _ hs
          have h2 : s2.Holds q := holds_ite (fun _ => h1) (fun _ => holds_plausible _ _ _ h1)
          refine holds_ite (fun _ => h1) (fun _ => holds_ite (fun _ => holds_modOp _ _ h1) (fun _ => ?_))
          refine holds_ite (fun _ => holds_inputSealFailure _ _ _ _ _ h1) (fun _ => ?_)
          refine holds_ite (fun _ => holds_inputInconsistent _ _ _ _ _ _ h1) (fun _ => ?_)
          refine holds_ite (fun _ => holds_inputInconsistent _ _ _ _ _ _ h1) (fun _ => ?_)
          exact holds_ite (fun _ => holds_inputMassFailure _ _ _ _ _ h1) (fun _ => holds_holdInput _ _ _ _ _ _ _ h2)

theorem holds_tryReserve (gate : Nat) (k : Nat) (r : Nat × OpName × Nat) (hs : s.Holds q) : (tryReserve gate k s r).Holds q := by
  unfold tryReserve
  split
  · refine holds_ite (fun _ => ?_) (fun _ => ?_)
    · apply holds_modCell
      exact hs
    · exact hs
  · exact hs

theorem holds_shadowCopy (gate : Nat) (hs : s.Holds q) : (shadowCopy gate s).Holds q := by
  unfold shadowCopy
  split
  · exact hs
  · extract_lets s1
    have h2 : State.Holds q s1 := by
      unfold s1
      apply holds_modGate
      exact hs
    clear_value s1
    split
    · apply holds_modCell
      exact h2
    · exact h2

theorem ends_execShadowCopyReceive (g : Nat) (hs : s.Holds q) : Ends q (execShadowCopyReceive g s) := by
  unfold execShadowCopyReceive
  refine ends_actOn ?_ (fun s1 h2 => ?_)
  · exact hs
  · apply holds_shadowCopy
    exact h2

theorem holds_shadowResult (gate : Nat) (err : U64) (hs : s.Holds q) : (shadowResult gate err s).Holds q := by
  unfold shadowResult
  split
  · exact hs
  · split
    · split
      · exact hs
      · extract_lets v1 v2 v3 v4 v5 s6 v7 s8 v9 s10 v11 s12
        have h13 : State.Holds q s6 := by
          unfold s6
          apply holds_modGate
          exact hs
        clear_value s6
        have h14 : State.Holds q s8 := by
          unfold s8
          refine holds_ite (fun _ => ?_) (fun _ => ?_)
          · exact h13
          · apply holds_raiseFull
            exact h13
        clear_value s8
        have h15 : State.Holds q s10 := by
          unfold s10
          apply holds_modUnit
          apply holds_modUnit
          exact h14
        clear_value s10
        have h16 : State.Holds q s12 := by
          unfold s12
          apply holds_modGate
          exact h13
        clear_value s12
        refine holds_ite (fun _ => ?_) (fun _ => ?_)
        · apply holds_modCell
          exact h15
        · refine holds_ite (fun _ => ?_) (fun _ => ?_)
          · apply holds_failGroup
            apply holds_raiseFull
            exact h16
          · apply holds_rebuildCell
            apply holds_modCell
            exact h16
    · exact hs

theorem ends_execShadowResult (g : Nat) (err : U64) (hs : s.Holds q) : Ends q (execShadowResult g err s) := by
  unfold execShadowResult
  refine ends_actOn ?_ (fun s1 h2 => ?_)
  · exact hs
  · apply holds_shadowResult
    exact h2

theorem holds_granaryGrant (gate : Nat) (k : Nat) (hs : s.Holds q) : (granaryGrant gate k s).Holds q := by
  unfold granaryGrant
  refine holds_ite (fun _ => ?_) (fun _ => ?_)
  · exact hs
  · extract_lets s1 v2
    have h3 : State.Holds q s1 := by
      unfold s1
      refine holds_foldl (fun s4 x6 h5 => ?_) _ ?_
      · apply holds_tryReserve
        exact h5
      · exact hs
    clear_value s1
    refine holds_foldl (fun s7 x9 h8 => ?_) _ ?_
    · apply holds_advanceCells
      exact h8
    · exact h3

theorem ends_execGranaryGrant (g : Nat) (pool : Nat) (hs : s.Holds q) : Ends q (execGranaryGrant g pool s) := by
  unfold execGranaryGrant
  refine ends_actOn ?_ (fun s1 h2 => ?_)
  · exact hs
  · apply holds_granaryGrant
    exact h2

/-! ### Contexts -/

theorem holds_readContext (base : Nat) (hinge : Bool) (c : Nat) (hs : s.Holds q) : (readContext base hinge s c).Holds q := by
  unfold readContext
  extract_lets v1 v2 v3 v4 v5 v6 v7 v8 s9 v10 s11
  have h12 : State.Holds q s9 := by
    unfold s9
    refine holds_ite (fun _ => ?_) (fun _ => ?_)
    · refine holds_same (s := s) ?_ rfl rfl rfl rfl rfl rfl rfl rfl
      exact hs
    · exact hs
  clear_value s9
  have h13 : State.Holds q s11 := by
    unfold s11
    unfold v4
    refine holds_same (s := s9) ?_ rfl rfl rfl rfl rfl rfl rfl rfl
    exact h12
  clear_value s11
  refine holds_ite (fun _ => ?_) (fun _ => ?_)
  · unfold v4
    refine holds_same (s := s9) ?_ rfl rfl rfl rfl rfl rfl rfl rfl
    exact h12
  · refine holds_ite (fun _ => ?_) (fun _ => ?_)
    · unfold v6
      apply holds_raise
      unfold v4
      refine holds_same (s := s9) ?_ rfl rfl rfl rfl rfl rfl rfl rfl
      exact h12
    · refine holds_ite (fun _ => ?_) (fun _ => ?_)
      · unfold v6
        apply holds_raise
        exact h13
      · exact h13

theorem holds_readContexts (hinge : Bool) (hs : s.Holds q) : (readContexts hinge s).Holds q := by
  unfold readContexts
  split
  · exact hs
  · extract_lets v1 s2 v3
    have h4 : State.Holds q s2 := by
      unfold s2
      refine holds_same (s := s) ?_ rfl rfl rfl rfl rfl rfl rfl rfl
      exact hs
    clear_value s2
    refine holds_ite (fun _ => ?_) (fun _ => ?_)
    · refine holds_same (s := s2) ?_ rfl rfl rfl rfl rfl rfl rfl rfl
      exact h4
    · refine holds_foldl (fun s5 x7 h6 => ?_) _ ?_
      · apply holds_readContext
        exact h6
      · exact h4

/-! ### Settle -/

theorem holds_deadlineReports (g : Grp) (o : Op) (hs : s.Holds q) : (deadlineReports g o s).Holds q := by
  unfold deadlineReports
  extract_lets v1 v2 s3
  have h4 : State.Holds q s3 := by
    unfold s3
    refine holds_foldl (fun s5 x7 h6 => ?_) _ ?_
    · unfold v2
      apply holds_raise
      exact h6
    · exact hs
  clear_value s3
  refine holds_foldl (fun s8 x10 h9 => ?_) _ ?_
  · unfold v2
    apply holds_raise
    exact h9
  · refine holds_foldl (fun s11 x13 h12 => ?_) _ ?_
    · unfold v2
      apply holds_raise
      exact h12
    · exact h4

theorem holds_excludeWhere (nm : OpName) (g : Grp) (o : Op) (bad : Cell → Nat → Bool) (hs : s.Holds q) : (excludeWhere nm g o bad s).Holds q := by
  unfold excludeWhere
  extract_lets v1 s2
  have h3 : State.Holds q s2 := by
    unfold s2
    refine holds_foldl (fun s4 x6 h5 => ?_) _ ?_
    · refine holds_foldl (fun s7 x9 h8 => ?_) _ ?_
      · apply holds_excludeInput
        exact h8
      · exact h5
    · exact hs
  clear_value s2
  apply holds_advanceCells
  exact h3

theorem holds_reabsorbDone (hs : s.Holds q) : (reabsorbDone s).Holds q := by
  unfold reabsorbDone
  refine holds_ite (fun _ => ?_) (fun _ => ?_)
  · exact hs
  · split
    · exact hs
    · split
      · extract_lets s1
        have h2 : State.Holds q s1 := by
          unfold s1
          apply holds_modOp
          exact hs
        clear_value s1
        apply holds_ringBell
        exact h2
      · exact hs

theorem holds_orphanLimit (nm : OpName) (hs : s.Holds q) : (orphanLimit nm s).Holds q := by
  unfold orphanLimit
  split
  · exact hs
  · extract_lets s1
    have h2 : State.Holds q s1 := by
      unfold s1
      apply holds_modOp
      exact hs
    clear_value s1
    refine holds_ite (fun _ => ?_) (fun _ => ?_)
    · apply holds_failGroup
      exact h2
    · exact h2

theorem ends_execOrphanLimit (op : OpName) (hs : s.Holds q) : Ends q (execOrphanLimit op s) := by
  unfold execOrphanLimit
  refine ends_act ?_ (fun s1 h2 => ?_)
  · exact hs
  · apply holds_orphanLimit
    exact h2

theorem ends_execReabsorbDone (hs : s.Holds q) : Ends q (execReabsorbDone s) := by
  unfold execReabsorbDone
  refine ends_act ?_ (fun s1 h2 => ?_)
  · exact hs
  · apply holds_reabsorbDone
    exact h2

theorem holds_boltSent (gate : Nat) (h : Hdr) (hs : s.Holds q) : (boltSent gate h s).Holds q := by
  unfold boltSent
  split
  · exact hs
  · refine holds_ite (fun _ => ?_) (fun _ => ?_)
    · apply holds_modGate
      exact hs
    · apply holds_noticeAfterChunk
      exact hs

theorem holds_cackInput (g : Grp) (n : Nat) (j : Nat) (x : InChunk) (hs : s.Holds q) : (cackInput g n j s x).Holds q := by
  unfold cackInput
  extract_lets v1 v2 v3
  refine holds_ite (fun _ => ?_) (fun _ => ?_)
  · apply holds_greenNotice
    exact hs
  · apply holds_sendNotice
    exact hs

theorem holds_allReduceHere (g : Grp) (nm : OpName) (b : Bytes) (mask : List MaskEnt) (excluded : Nat) (hs : s.Holds q) : (allReduceHere g nm b mask excluded s).Holds q := by
  unfold allReduceHere
  extract_lets v1 s2 s3
  have h4 : State.Holds q s2 := by
    unfold s2
    apply holds_ringBell
    exact hs
  clear_value s2
  have h5 : State.Holds q s3 := by
    unfold s3
    apply holds_modOp
    exact h4
  clear_value s3
  apply holds_bcastDeliver
  exact h5

theorem holds_rootDeliver (g : Grp) (nm : OpName) (c : Cell) (hs : s.Holds q) : (rootDeliver g nm c s).Holds q := by
  unfold rootDeliver
  extract_lets v1 v2 s3
  have h4 : State.Holds q s3 := by
    unfold s3
    apply holds_ringBell
    exact hs
  clear_value s3
  refine holds_ite (fun _ => ?_) (fun _ => ?_)
  · apply holds_allReduceHere
    apply holds_rootBroadcast
    exact hs
  · refine holds_ite (fun _ => ?_) (fun _ => ?_)
    · apply holds_forgeAccept
      exact h4
    · refine holds_ite (fun _ => ?_) (fun _ => ?_)
      · apply holds_inboxDeliver
        exact h4
      · apply holds_normRoot
        exact h4

theorem holds_closeEntry (nm : OpName) (g : Grp) (h : Hdr) (excluded : Nat) (e : MaskEnt) (hs : s.Holds q) : (closeEntry nm g h excluded s e).Holds q := by
  unfold closeEntry
  refine holds_ite (fun _ => ?_) (fun _ => ?_)
  · apply holds_closeRange
    exact hs
  · split
    · exact hs
    · apply holds_sendNotice
      exact hs

theorem holds_boltCell (nm : OpName) (j : Nat) (hs : s.Holds q) : (boltCell nm j s).Holds q := by
  unfold boltCell
  split
  · split
    · exact hs
    · refine holds_ite (fun _ => ?_) (fun _ => ?_)
      · exact hs
      · extract_lets v1 v2 v3 s4 s5 s6 s7 s8
        have h9 : State.Holds q s4 := by
          unfold s4
          apply holds_modCell
          exact hs
        clear_value s4
        have h10 : State.Holds q s5 := by
          unfold s5
          apply holds_boltModes
          apply holds_tallyChunk
          exact h9
        clear_value s5
        have h11 : State.Holds q s6 := by
          unfold s6
          split
          · apply holds_boltSent
            exact h10
          · exact h10
        clear_value s6
        have h12 : State.Holds q s7 := by
          unfold s7
          refine holds_foldl (fun s13 x15 h14 => ?_) _ ?_
          · apply holds_cackInput
            exact h14
          · exact h11
        clear_value s7
        have h16 : State.Holds q s8 := by
          unfold s8
          refine holds_ite (fun _ => ?_) (fun _ => ?_)
          · apply holds_rootDeliver
            refine holds_foldl (fun s17 x19 h18 => ?_) _ ?_
            · apply holds_closeEntry
              exact h18
            · exact h12
          · exact h12
        clear_value s8
        refine holds_ite (fun _ => ?_) (fun _ => ?_)
        · apply holds_failGroup
          exact hs
        · refine holds_ite (fun _ => ?_) (fun _ => ?_)
          · exact hs
          · apply holds_tensorDigest
            apply holds_modOp
            exact h16
  · exact hs

theorem holds_boltBcast (nm : OpName) (index : Nat) (hs : s.Holds q) : (boltBcast nm index s).Holds q := by
  unfold boltBcast
  split
  · split
    · exact hs
    · extract_lets v1 v2 s3 s4 s5 s6
      have h7 : State.Holds q s3 := by
        unfold s3
        apply holds_modOp
        exact hs
      clear_value s3
      have h8 : State.Holds q s4 := by
        unfold s4
        apply holds_boltModes
        apply holds_tallyChunk
        exact h7
      clear_value s4
      have h9 : State.Holds q s5 := by
        unfold s5
        refine holds_foldl (fun s10 x12 h11 => ?_) _ ?_
        · apply holds_boltSent
          exact h11
        · exact h8
      clear_value s5
      have h13 : State.Holds q s6 := by
        unfold s6
        apply holds_sendNotice
        exact h9
      clear_value s6
      refine holds_ite (fun _ => ?_) (fun _ => ?_)
      · apply holds_normResult
        apply holds_ringBell
        exact h13
      · refine holds_ite (fun _ => ?_) (fun _ => ?_)
        · apply holds_allReduceHere
          exact h13
        · apply holds_bcastDeliver
          apply holds_ringBell
          exact h13
  · exact hs

theorem holds_bcastArrives (gate : Nat) (b : Bytes) (mask : List MaskEnt) (excluded : Nat) (maskOk : Bool) (hs : s.Holds q) : (bcastArrives gate b mask excluded maskOk s).Holds q := by
  unfold bcastArrives
  extract_lets v1 v2 s3 v4 v5 s6 v7
  have h8 : State.Holds q s3 := by
    unfold s3
    apply holds_modGate
    exact hs
  clear_value s3
  have h9 : State.Holds q s6 := by
    unfold s6
    apply holds_openBcast
    exact hs
  clear_value s6
  split
  · apply holds_gateFault
    exact hs
  · refine holds_ite (fun _ => ?_) (fun _ => ?_)
    · apply holds_gateFault
      exact hs
    · refine holds_ite (fun _ => ?_) (fun _ => ?_)
      · exact hs
      · refine holds_ite (fun _ => ?_) (fun _ => ?_)
        · apply holds_sendResend
          apply holds_gateFault
          exact h8
        · refine holds_ite (fun _ => ?_) (fun _ => ?_)
          · apply holds_gateFault
            apply holds_modGate
            exact hs
          · refine holds_ite (fun _ => ?_) (fun _ => ?_)
            · apply holds_sendResend
              apply holds_gateFault
              apply holds_modGate
              exact hs
            · refine holds_ite (fun _ => ?_) (fun _ => ?_)
              · apply holds_countLate
                exact hs
              · split
                · refine holds_ite (fun _ => ?_) (fun _ => ?_)
                  · exact h9
                  · apply holds_modOp
                    exact h9
                · apply holds_queueForward
                  apply holds_modOp
                  exact h9

theorem holds_takeBack (reason : Nat) (gate : Nat) (r : Retained) (hs : s.Holds q) : (takeBack reason gate s r).Holds q := by
  unfold takeBack
  extract_lets v1 s2 v3
  have h4 : State.Holds q s2 := by
    unfold s2
    apply holds_modGate
    exact hs
  clear_value s2
  refine holds_ite (fun _ => ?_) (fun _ => ?_)
  · apply holds_modGate
    exact hs
  · refine holds_ite (fun _ => ?_) (fun _ => ?_)
    · apply holds_sendNotice
      apply holds_modGate
      exact h4
    · apply holds_modGate
      exact h4

theorem holds_takeBackAll (vc : Nat) (reason : Nat) (h : Hdr) (hs : s.Holds q) : (takeBackAll vc reason h s).Holds q := by
  unfold takeBackAll
  extract_lets v1
  refine holds_foldl (fun s2 x4 h3 => ?_) _ ?_
  · extract_lets s5
    have h6 : State.Holds q s5 := by
      unfold s5
      apply holds_modGate
      exact h3
    clear_value s5
    refine holds_foldl (fun s7 x9 h8 => ?_) _ ?_
    · apply holds_takeBack
      exact h8
    · exact h6
  · exact hs

theorem holds_bcastDiscard (gate : Nat) (h : Hdr) (reason : Nat) (hs : s.Holds q) : (bcastDiscard gate h reason s).Holds q := by
  unfold bcastDiscard
  extract_lets v1
  apply holds_sendResend
  apply holds_modOp
  apply holds_takeBackAll
  exact hs

theorem holds_closeActs (gate : Nat) (h : Hdr) (hs : s.Holds q) : (closeActs gate h s).Holds q := by
  unfold closeActs
  extract_lets v1
  split
  · refine holds_ite (fun _ => ?_) (fun _ => ?_)
    · apply holds_gateFault
      exact hs
    · apply holds_closeRange
      exact hs
  · refine holds_ite (fun _ => ?_) (fun _ => ?_)
    · apply holds_gateFault
      exact hs
    · refine holds_ite (fun _ => ?_) (fun _ => ?_)
      · refine holds_same (s := s) ?_ rfl rfl rfl rfl rfl rfl rfl rfl
        exact hs
      · apply holds_gateFault
        exact hs

theorem holds_closeArrives (gate : Nat) (n : Bytes) (hs : s.Holds q) : (closeArrives gate n s).Holds q := by
  unfold closeArrives
  extract_lets h nm outcome sub
  split
  · exact holds_gateFault _ _ _ _ _ _ hs
  · have hf : ∀ l : List (Nat × Nat), (l.foldl (fun s c => sendNotice c.2 n s) s).Holds q :=
      fun l => holds_foldl (fun _ _ h => holds_sendNotice _ _ h) l hs
    clear_value outcome
    split
    · refine holds_ite (fun _ => ?_) (fun _ => ?_)
      · extract_lets s1
        exact holds_closeActs _ _ (holds_ite (fun _ => holds_foldl (fun _ _ h => holds_sendNotice _ _ h) _ hs) (fun _ => hs))
      · split
        · exact holds_sendNotice _ _ hs
        · exact holds_ite (fun _ => holds_closeActs _ _ (holds_foldl (fun _ _ h => holds_sendNotice _ _ h) _ hs)) (fun _ => hs)
    · exact holds_failGroup _ _ _ _ hs
    · exact holds_failGroup _ _ _ _ hs
    · exact holds_failGroup _ _ _ _ hs
    · extract_lets s1
      exact holds_recordGfail _ _ (holds_ite (fun _ => hf _) (fun _ => hs))
    · exact holds_gateFault _ _ _ _ _ _ hs

theorem holds_resendRetained (gate : Nat) (r : Retained) (hs : s.Holds q) : (resendRetained gate r s).Holds q := by
  unfold resendRetained
  apply holds_enqueueItem
  exact hs

theorem holds_resendArrives (gate : Nat) (green : Bool) (n : Bytes) (hs : s.Holds q) : (resendArrives gate green n s).Holds q := by
  unfold resendArrives
  extract_lets v1 v2 v3
  refine holds_ite (fun _ => ?_) (fun _ => ?_)
  · exact hs
  · split
    · refine holds_ite (fun _ => ?_) (fun _ => ?_)
      · exact hs
      · apply holds_resendRetained
        exact hs
    · split
      · extract_lets v4 s5
        have h6 : State.Holds q s5 := by
          unfold s5
          apply holds_modCell
          exact hs
        clear_value s5
        split
        · exact hs
        · refine holds_ite (fun _ => ?_) (fun _ => ?_)
          · exact hs
          · refine holds_ite (fun _ => ?_) (fun _ => ?_)
            · exact h6
            · split
              · apply holds_placeOutput
                exact h6
              · exact h6
      · exact hs

theorem holds_dropCopy (nm : OpName) (pos : Nat) (h : Hdr) (hs : s.Holds q) : (dropCopy nm pos h s).Holds q := by
  unfold dropCopy
  extract_lets v1
  apply holds_modOp
  exact hs

theorem holds_revokeArrives (gate : Nat) (n : Bytes) (hs : s.Holds q) : (revokeArrives gate n s).Holds q := by
  unfold revokeArrives
  extract_lets v1 v2
  split
  · refine holds_ite (fun _ => ?_) (fun _ => ?_)
    · exact hs
    · split
      · refine holds_ite (fun _ => ?_) (fun _ => ?_)
        · apply holds_gateFault
          exact hs
        · apply holds_bcastDiscard
          exact hs
      · split
        · refine holds_ite (fun _ => ?_) (fun _ => ?_)
          · apply holds_gateFault
            exact hs
          · exact hs
        · refine holds_ite (fun _ => ?_) (fun _ => ?_)
          · apply holds_gateFault
            exact hs
          · extract_lets v3
            apply holds_advanceCells
            refine holds_foldl (fun s4 x6 h5 => ?_) _ ?_
            · apply holds_rebuildCell
              exact h5
            · exact hs
  · exact hs

theorem holds_noticeOpens (nm : OpName) (hs : s.Holds q) : (noticeOpens nm s).Holds q := by
  unfold noticeOpens
  refine holds_ite (fun _ => ?_) (fun _ => ?_)
  · apply holds_openBcast
    exact hs
  · exact hs

theorem holds_grantArrives (gate : Nat) (green : Bool) (n : Bytes) (hs : s.Holds q) : (grantArrives gate green n s).Holds q := by
  unfold grantArrives
  extract_lets v1 v2 v3 s4 s5
  have h6 : State.Holds q s4 := by
    unfold s4
    apply holds_noticeOpens
    exact hs
  clear_value s4
  have h7 : State.Holds q s5 := by
    unfold s5
    apply holds_modGate
    exact h6
  clear_value s5
  split
  · extract_lets v8 s9
    have h10 : State.Holds q s9 := by
      unfold s9
      apply holds_modOp
      exact h7
    clear_value s9
    refine holds_ite (fun _ => ?_) (fun _ => ?_)
    · exact h7
    · apply holds_modCell
      exact h10
  · exact h7

theorem holds_confirmationLimit (nm : OpName) (hs : s.Holds q) : (confirmationLimit nm s).Holds q := by
  unfold confirmationLimit
  split
  · exact hs
  · extract_lets s1
    have h2 : State.Holds q s1 := by
      unfold s1
      apply holds_modOp
      exact hs
    clear_value s1
    apply holds_excludeWhere
    exact h2

theorem ends_execConfirmationLimit (op : OpName) (hs : s.Holds q) : Ends q (execConfirmationLimit op s) := by
  unfold execConfirmationLimit
  refine ends_act ?_ (fun s1 h2 => ?_)
  · exact hs
  · apply holds_confirmationLimit
    exact h2

theorem holds_deadlineExpire (nm : OpName) (hs : s.Holds q) : (deadlineExpire nm s).Holds q := by
  unfold deadlineExpire
  split
  · exact hs
  · extract_lets s1
    have h2 : State.Holds q s1 := by
      unfold s1
      apply holds_modOp
      exact hs
    clear_value s1
    apply holds_deadlineReports
    apply holds_excludeWhere
    exact h2

theorem holds_boltArrives (gate : Nat) (n : Bytes) (hs : s.Holds q) : (boltArrives gate n s).Holds q := by
  unfold boltArrives
  extract_lets v1 v2 v3 v4 s5
  have h6 : State.Holds q s5 := by
    unfold s5
    apply holds_modGate
    exact hs
  clear_value s5
  split
  · refine holds_ite (fun _ => ?_) (fun _ => ?_)
    · exact hs
    · split
      · refine holds_ite (fun _ => ?_) (fun _ => ?_)
        · refine holds_ite (fun _ => ?_) (fun _ => ?_)
          · exact hs
          · apply holds_gateFault
            exact hs
        · refine holds_ite (fun _ => ?_) (fun _ => ?_)
          · apply holds_modOp
            exact hs
          · apply holds_bcastDiscard
            apply holds_gateFault
            apply holds_gateFault
            exact h6
      · split
        · exact hs
        · refine holds_ite (fun _ => ?_) (fun _ => ?_)
          · exact hs
          · refine holds_ite (fun _ => ?_) (fun _ => ?_)
            · refine holds_ite (fun _ => ?_) (fun _ => ?_)
              · exact hs
              · apply holds_gateFault
                exact hs
            · refine holds_ite (fun _ => ?_) (fun _ => ?_)
              · extract_lets v7 s8
                have h9 : State.Holds q s8 := by
                  unfold s8
                  apply holds_modOp
                  exact hs
                clear_value s8
                apply holds_noteInput
                exact h9
              · extract_lets v10
                apply holds_inputSealFailure
                apply holds_dropCopy
                apply holds_gateFault
                exact hs
  · exact hs

theorem holds_askArrives (gate : Nat) (green : Bool) (n : Bytes) (hs : s.Holds q) : (askArrives gate green n s).Holds q := by
  unfold askArrives
  extract_lets h nm k s1
  have h1 : s1.Holds q := holds_noticeOpens _ hs
  clear_value s1
  split
  · exact holds_gateFault _ _ _ _ _ _ hs
  · extract_lets j pos
    clear_value pos
    split
    · exact holds_gateFault _ _ _ _ _ _ hs
    · extract_lets a
      refine holds_ite (fun _ => h1) (fun _ => ?_)
      split
      · exact holds_ite (fun _ => h1) (fun _ => holds_same h1 rfl rfl rfl rfl rfl rfl rfl rfl)
      · exact holds_ite (fun _ => h1) (fun _ => holds_answerAsks _ (holds_modOp _ _ h1))

theorem ends_execDeadlineExpire (op : OpName) (hs : s.Holds q) : Ends q (execDeadlineExpire op s) := by
  unfold execDeadlineExpire
  refine ends_act ?_ (fun s1 h2 => ?_)
  · exact hs
  · apply holds_deadlineExpire
    exact h2

end Sys2Proof.Machine
end

