-- ==== Sys2Proof/Laws/KeepLink.lean ====
section
/-! SUPPORT. Every meaning keeps the queue and the canonical form: the FIFO, waves, rolls, links and start-up (Fifo, Waves, RollLoad, Link, Boot). One lemma for each function:
`holds_<f>` and `wf_<f>` for what it does to a state or a core, `ends_<f>` for the outcome of a row. -/

namespace Sys2Proof.Machine

set_option Elab.async false

variable {q : List Instr} {s : State}

/-! ### Fifo -/

theorem ends_onHead (op : Nat) {f : Nat → State → State} (hf : ∀ a0 (x : State), x.Holds q → (f a0 x).Holds q) (hs : s.Holds q) : Ends q (onHead op s f) := by
  unfold onHead
  refine ends_act ?_ (fun s1 h2 => ?_)
  · exact hs
  · split
    · refine holds_ite (fun _ => ?_) (fun _ => ?_)
      · apply hf
        exact h2
      · exact h2
    · exact h2

theorem holds_popCmd (hs : s.Holds q) : (popCmd s).Holds q := by
  obtain ⟨h1, h2, h3, h4, h5, h6, h7, h8, h9⟩ := State.Holds.iff.1 hs
  refine State.Holds.iff.2 ⟨h1, h2, h3, h4, h5, h6, h7, h8, ?_⟩
  show s.cmd.fifo.tail.length ≤ 256
  rw [List.length_tail]; omega

theorem holds_discardCmd (op : Nat) (hs : s.Holds q) : (discardCmd op s).Holds q := by
  unfold discardCmd
  apply holds_configFault
  apply holds_popCmd
  exact hs

theorem holds_cmdEnter (w : U64) (hl : s.cmd.fifo.length < 256) (hs : s.Holds q) : (cmdEnter w s).Holds q := by
  unfold cmdEnter
  refine holds_ite (fun _ => ?_) (fun _ => holds_configFault _ hs)
  obtain ⟨h1, h2, h3, h4, h5, h6, h7, h8, h9⟩ := State.Holds.iff.1 hs
  refine State.Holds.iff.2 ⟨h1, h2, h3, h4, h5, h6, h7, h8, ?_⟩
  show (s.cmd.fifo ++ [w]).length ≤ 256
  rw [List.length_append, List.length_singleton]; omega

theorem holds_pushRegisterWord (hi : U32) (hs : s.Holds q) : (pushRegisterWord hi s).Holds q := by
  unfold pushRegisterWord
  by_cases hf : fifoFull s
  · rw [if_pos hf]
    exact holds_same hs rfl rfl rfl rfl rfl rfl rfl rfl
  · rw [if_neg hf]
    refine holds_cmdEnter _ ?_ hs
    simpa [fifoFull] using hf

theorem ends_execCmdRegisterWord (hi : U32) (hs : s.Holds q) : Ends q (execCmdRegisterWord hi s) := by
  unfold execCmdRegisterWord
  refine ends_act ?_ (fun s1 h2 => ?_)
  · exact hs
  · apply holds_pushRegisterWord
    exact h2

theorem ends_execCmdPortWord (v : U64) (hs : s.Holds q) : Ends q (execCmdPortWord v s) := by
  unfold execCmdPortWord
  refine ends_act hs (fun s1 h1 => ?_)
  by_cases hf : fifoFull s1
  · rw [if_pos hf]; exact h1
  · rw [if_neg hf]
    refine holds_cmdEnter v ?_ h1
    simpa [fifoFull] using hf

/-! ### Waves -/

theorem holds_confirmIncomplete (group : Nat) (hs : s.Holds q) : (confirmIncomplete group s).Holds q := by
  unfold confirmIncomplete
  refine holds_ite (fun _ => ?_) (fun _ => ?_)
  · extract_lets v1 s2
    have h3 : State.Holds q s2 := by
      unfold s2
      refine holds_same (s := s) ?_ rfl rfl rfl rfl rfl rfl rfl rfl
      exact hs
    clear_value s2
    apply holds_raise
    exact h3
  · exact hs

theorem holds_clearUnits (hs : s.Holds q) : (clearUnits s).Holds q :=
  holds_upd hs rfl id id id id (fun _ => tableWf_built _ _ _ _) (fun _ => tableWf_built _ _ _ _) id id

theorem holds_openJob (c : Nat) (j : Job) (hs : s.Holds q) : (openJob c s j).Holds q := by
  unfold openJob
  split
  · refine holds_ite (fun _ => ?_) (fun _ => ?_)
    · apply holds_openReduction
      refine holds_modCore _ (fun k1 h2 => ?_) ?_
      · refine wf_upd (k := k1) ?_ id id id id id id id id id id id id
        exact h2
      · exact hs
    · exact hs
  · exact hs

theorem holds_openWaiting (hs : s.Holds q) : (openWaiting s).Holds q := by
  unfold openWaiting
  refine holds_foldl (fun s1 x3 h2 => ?_) _ ?_
  · refine holds_foldl (fun s4 x6 h5 => ?_) _ ?_
    · apply holds_openJob
      exact h5
    · exact h2
  · exact hs

theorem wf_stopCore {k : Core} (hk : k.wf = true) : (stopCore k).wf = true := by
  unfold stopCore
  refine wf_upd (k := k) ?_ id id id id id id id id id id id id
  exact hk

theorem holds_forceArrival (hs : s.Holds q) : (forceArrival s).Holds q := by
  unfold forceArrival
  refine holds_same (s := s) ?_ rfl rfl rfl rfl rfl rfl rfl rfl
  exact hs

theorem holds_modWave (nm : WaveName) (f : Wave → Wave) (hs : s.Holds q) : (modWave nm f s).Holds q := by
  unfold modWave
  refine holds_same (s := s) ?_ rfl rfl rfl rfl rfl rfl rfl rfl
  exact hs

theorem holds_normCheck (hs : s.Holds q) : (normCheck s).Holds q := by
  unfold normCheck
  refine holds_ite (fun _ => ?_) (fun _ => ?_)
  · exact hs
  · apply holds_raise
    exact hs

theorem holds_freeContexts (step : Nat) (hs : s.Holds q) : (freeContexts step s).Holds q := by
  unfold freeContexts
  extract_lets v1 v2
  refine holds_same (s := s) ?_ rfl rfl rfl rfl rfl rfl rfl rfl
  exact hs

theorem holds_dropHeldCloses (step : Nat) (hs : s.Holds q) : (dropHeldCloses step s).Holds q := by
  unfold dropHeldCloses
  extract_lets v1 s2
  have h3 : State.Holds q s2 := by
    unfold s2
    refine holds_same (s := s) ?_ rfl rfl rfl rfl rfl rfl rfl rfl
    exact hs
  clear_value s2
  refine holds_foldl (fun s4 x6 h5 => ?_) _ ?_
  · apply holds_raise
    exact h5
  · exact h3

theorem holds_passCurfew (step : Nat) (present : Nat) (hs : s.Holds q) : (passCurfew step present s).Holds q := by
  unfold passCurfew
  extract_lets s1 v2 v3 v4 v5 s6 s7 s8 v9 v10
  have h11 : State.Holds q s1 := by
    unfold s1
    apply holds_normCheck
    exact hs
  clear_value s1
  have h12 : State.Holds q s6 := by
    unfold s6
    apply holds_auditPush
    exact h11
  clear_value s6
  have h13 : State.Holds q s7 := by
    unfold s7
    apply holds_clearUnits
    exact h12
  clear_value s7
  have h14 : State.Holds q s8 := by
    unfold s8
    apply holds_freeContexts
    apply holds_dropHeldCloses
    exact h13
  clear_value s8
  apply holds_openWaiting
  refine holds_same (s := s8) ?_ rfl rfl rfl rfl rfl rfl rfl rfl
  exact h14

theorem holds_localReset (hs : s.Holds q) : (localReset s).Holds q :=
  holds_upd hs rfl id id
    (fun h => wf_built _ (fun e he => wf_upd (wf_stopCore (h e he)) id id id id id id id id id id id id))
    (fun _ => tableWf_built _ _ _ _) (fun _ => tableWf_built _ _ _ _) (fun _ => tableWf_built _ _ _ _) id id

theorem holds_waveDone (nm : WaveName) (present : Nat) (hs : s.Holds q) : (waveDone nm present s).Holds q := by
  unfold waveDone
  split
  · extract_lets s1 v2
    have h3 : State.Holds q s1 := by
      unfold s1
      apply holds_barrierBell
      exact hs
    clear_value s1
    refine holds_ite (fun _ => ?_) (fun _ => ?_)
    · refine holds_same (s := s1) ?_ rfl rfl rfl rfl rfl rfl rfl rfl
      exact h3
    · exact h3
  · apply holds_passCurfew
    exact hs
  · extract_lets v4 v5
    refine holds_same (s := s) ?_ rfl rfl rfl rfl rfl rfl rfl rfl
    exact hs
  · apply holds_localReset
    exact hs

theorem holds_dropWave (nm : WaveName) (hs : s.Holds q) : (dropWave nm s).Holds q := by
  unfold dropWave
  refine holds_same (s := s) ?_ rfl rfl rfl rfl rfl rfl rfl rfl
  exact hs

theorem holds_waveActs (w : Wave) (present : Nat) (hs : s.Holds q) : (waveActs w present s).Holds q := by
  unfold waveActs
  refine holds_ite (fun _ => ?_) (fun _ => ?_)
  · apply holds_modWave
    exact hs
  · apply holds_waveDone
    apply holds_dropWave
    exact hs

theorem holds_waveDown (g : Grp) (w : Wave) (present : Nat) (hs : s.Holds q) : (waveDown g w present s).Holds q := by
  unfold waveDown
  extract_lets s1
  have h2 : State.Holds q s1 := by
    unfold s1
    refine holds_foldl (fun s3 x5 h4 => ?_) _ ?_
    · apply holds_sendNotice
      exact h4
    · exact hs
  clear_value s1
  apply holds_waveActs
  exact h2

theorem holds_advanceWave (nm : WaveName) (hs : s.Holds q) : (advanceWave s nm).Holds q := by
  unfold advanceWave
  split
  · refine holds_ite (fun _ => ?_) (fun _ => ?_)
    · apply holds_waveActs
      exact hs
    · refine holds_ite (fun _ => ?_) (fun _ => ?_)
      · exact hs
      · extract_lets v1
        split
        · apply holds_modWave
          apply holds_sendNotice
          exact hs
        · apply holds_waveDown
          exact hs
  · exact hs

theorem holds_needWave (nm : WaveName) (hs : s.Holds q) : (needWave nm s).Holds q := by
  unfold needWave
  refine holds_ite (fun _ => ?_) (fun _ => ?_)
  · exact hs
  · refine holds_same (s := s) ?_ rfl rfl rfl rfl rfl rfl rfl rfl
    exact hs

theorem holds_startWave (nm : WaveName) (hs : s.Holds q) : (startWave nm s).Holds q := by
  unfold startWave
  apply holds_advanceWave
  apply holds_modWave
  apply holds_needWave
  exact hs

theorem holds_rollConfirm (hs : s.Holds q) : (rollConfirm s).Holds q := by
  unfold rollConfirm
  refine holds_ite (fun _ => ?_) (fun _ => ?_)
  · refine holds_same (s := s) ?_ rfl rfl rfl rfl rfl rfl rfl rfl
    exact hs
  · extract_lets v1 v2
    refine holds_foldl (fun s3 x5 h4 => ?_) _ ?_
    · apply holds_startWave
      exact h4
    · refine holds_same (s := s) ?_ rfl rfl rfl rfl rfl rfl rfl rfl
      exact hs

theorem holds_stepDownArrives (gate : Nat) (n : Bytes) (hs : s.Holds q) : (stepDownArrives gate n s).Holds q := by
  unfold stepDownArrives
  extract_lets v1 v2
  split
  · refine holds_ite (fun _ => ?_) (fun _ => ?_)
    · apply holds_waveDown
      exact hs
    · exact hs
  · apply holds_gateFault
    exact hs
  · exact hs

theorem holds_advanceAll (hs : s.Holds q) : (advanceAll s).Holds q := by
  unfold advanceAll
  refine holds_foldl (fun s1 x3 h2 => ?_) _ ?_
  · apply holds_advanceWave
    exact h2
  · exact hs

theorem holds_curfewStarts (v : Nat) (hs : s.Holds q) : (curfewStarts v s).Holds q := by
  unfold curfewStarts
  extract_lets v1 s2 v3 s4
  have h5 : State.Holds q s2 := by
    unfold s2
    apply holds_popCmd
    exact hs
  clear_value s2
  have h6 : State.Holds q s4 := by
    unfold s4
    refine holds_same (s := s2) ?_ rfl rfl rfl rfl rfl rfl rfl rfl
    exact h5
  clear_value s4
  refine holds_ite (fun _ => ?_) (fun _ => ?_)
  · apply holds_startWave
    exact h6
  · apply holds_discardCmd
    exact hs

theorem ends_execCurfew (hs : s.Holds q) : Ends q (execCurfew s) := by
  unfold execCurfew
  apply ends_onHead
  · intro x1 s2 h3
    apply holds_curfewStarts
    exact h3
  · exact hs

theorem holds_stepUpArrives (gate : Nat) (n : Bytes) (hs : s.Holds q) : (stepUpArrives gate n s).Holds q := by
  unfold stepUpArrives
  extract_lets v1 v2 v3
  split
  · apply holds_gateFault
    exact hs
  · refine holds_ite (fun _ => ?_) (fun _ => ?_)
    · apply holds_gateFault
      exact hs
    · apply holds_advanceWave
      apply holds_modWave
      apply holds_needWave
      exact hs

theorem ends_execRollConfirm (hs : s.Holds q) : Ends q (execRollConfirm s) := by
  unfold execRollConfirm
  refine ends_act ?_ (fun s1 h2 => ?_)
  · exact hs
  · apply holds_rollConfirm
    exact h2

theorem holds_barrierStarts (v : Nat) (hs : s.Holds q) : (barrierStarts v s).Holds q := by
  unfold barrierStarts
  extract_lets v1 v2
  refine holds_ite (fun _ => ?_) (fun _ => ?_)
  · apply holds_startWave
    apply holds_popCmd
    exact hs
  · apply holds_discardCmd
    exact hs

theorem holds_stepOpens (v : Nat) (hs : s.Holds q) : (stepOpens v s).Holds q := by
  unfold stepOpens
  refine holds_ite (fun _ => ?_) (fun _ => ?_)
  · exact hs
  · extract_lets s1 v2
    have h3 : State.Holds q s1 := by
      unfold s1
      apply holds_popCmd
      exact hs
    clear_value s1
    refine holds_same (s := s1) ?_ rfl rfl rfl rfl rfl rfl rfl rfl
    exact h3

theorem holds_waveTimeout (nm : WaveName) (hs : s.Holds q) : (waveTimeout nm s).Holds q := by
  unfold waveTimeout
  split
  · refine holds_ite (fun _ => ?_) (fun _ => ?_)
    · exact hs
    · extract_lets v1 s2
      have h3 : State.Holds q s2 := by
        unfold s2
        refine holds_foldl (fun s4 x6 h5 => ?_) _ ?_
        · extract_lets s7
          have h8 : State.Holds q s7 := by
            unfold s7
            apply holds_raise
            exact h5
          clear_value s7
          apply holds_sendNotice
          exact h8
        · exact hs
      clear_value s2
      apply holds_advanceWave
      apply holds_modWave
      exact h3
  · exact hs

theorem ends_execCurfewWaveTimeout (wave : WaveName) (hs : s.Holds q) : Ends q (execCurfewWaveTimeout wave s) := by
  unfold execCurfewWaveTimeout
  refine ends_act ?_ (fun s1 h2 => ?_)
  · exact hs
  · apply holds_waveTimeout
    exact h2

theorem ends_execConfirmationIncomplete (group : Nat) (hs : s.Holds q) : Ends q (execConfirmationIncomplete group s) := by
  unfold execConfirmationIncomplete
  refine ends_act ?_ (fun s1 h2 => ?_)
  · exact hs
  · apply holds_confirmIncomplete
    exact h2

theorem holds_resetStarts (_v : Nat) (hs : s.Holds q) : (resetStarts _v s).Holds q := by
  unfold resetStarts
  apply holds_startWave
  apply holds_popCmd
  exact hs

theorem ends_execStep (hs : s.Holds q) : Ends q (execStep s) := by
  unfold execStep
  apply ends_onHead
  · intro x1 s2 h3
    apply holds_stepOpens
    exact h3
  · exact hs

theorem ends_execBarrier (hs : s.Holds q) : Ends q (execBarrier s) := by
  unfold execBarrier
  apply ends_onHead
  · intro x1 s2 h3
    apply holds_barrierStarts
    exact h3
  · exact hs

theorem ends_execReset (hs : s.Holds q) : Ends q (execReset s) := by
  unfold execReset
  apply ends_onHead
  · intro x1 s2 h3
    apply holds_resetStarts
    exact h3
  · exact hs

theorem ends_execForceArrival (hs : s.Holds q) : Ends q (execForceArrival s) := by
  unfold execForceArrival
  refine ends_act ?_ (fun s1 h2 => ?_)
  · exact hs
  · apply holds_forceArrival
    exact h2

theorem ends_execLocalResetEnd (hs : s.Holds q) : Ends q (execLocalResetEnd s) := by
  unfold execLocalResetEnd
  refine ends_act ?_ (fun s1 h2 => ?_)
  · exact hs
  · refine holds_same (s := s1) ?_ rfl rfl rfl rfl rfl rfl rfl rfl
    exact h2

/-! ### RollLoad -/

theorem holds_rollFail (e : Nat × Nat) (hs : s.Holds q) : (rollFail s e).Holds q := by
  unfold rollFail
  extract_lets v1 v2
  apply holds_raise
  refine holds_same (s := s) ?_ rfl rfl rfl rfl rfl rfl rfl rfl
  exact hs

theorem holds_rollLoad (rd : ReadEnd) (hs : s.Holds q) : (rollLoad rd s).Holds q := by
  unfold rollLoad
  split
  · exact hs
  · refine holds_ite (fun _ => ?_) (fun _ => ?_)
    · refine holds_same (s := s) ?_ rfl rfl rfl rfl rfl rfl rfl rfl
      exact hs
    · extract_lets s1 v2 v3 v4 s5 s6
      have h7 : State.Holds q s1 := by
        unfold s1
        apply holds_readsEnd
        exact hs
      clear_value s1
      have h8 : State.Holds q s5 := by
        unfold s5
        refine holds_same (s := s1) ?_ rfl rfl rfl rfl rfl rfl rfl rfl
        exact h7
      clear_value s5
      have h9 : State.Holds q s6 := by
        unfold s6
        refine holds_foldl (fun s10 x12 h11 => ?_) _ ?_
        · apply holds_rollFail
          exact h11
        · exact h8
      clear_value s6
      refine holds_foldl (fun s13 x15 h14 => ?_) _ ?_
      · apply holds_raise
        exact h14
      · exact h9

theorem ends_execRollLoad (rd : ReadEnd) (hs : s.Holds q) : Ends q (execRollLoad rd s) := by
  unfold execRollLoad
  refine ends_act ?_ (fun s1 h2 => ?_)
  · exact hs
  · apply holds_rollLoad
    exact h2

/-! ### Link -/

theorem holds_downExcludes (gate : Nat) (hs : s.Holds q) : (downExcludes gate s).Holds q := by
  unfold downExcludes
  refine holds_foldl (fun s1 x3 h2 => ?_) _ ?_
  · split
    · exact h2
    · apply holds_excludeWhere
      exact h2
  · exact hs

theorem holds_disableLink (g : Nat) (hs : s.Holds q) : (disableLink g s).Holds q := by
  unfold disableLink
  extract_lets v1
  refine holds_ite (fun _ => ?_) (fun _ => ?_)
  · apply holds_downExcludes
    apply holds_modGate
    exact hs
  · exact hs

theorem holds_startTraining (g : Nat) (hs : s.Holds q) : (startTraining g s).Holds q := by
  unfold startTraining
  refine holds_ite (fun _ => ?_) (fun _ => ?_)
  · apply holds_modGate
    exact hs
  · exact hs

theorem holds_linkDown (g : Nat) (bit : Nat) (newState : Nat) (hs : s.Holds q) : (linkDown g bit newState s).Holds q := by
  unfold linkDown
  extract_lets s1
  have h2 : State.Holds q s1 := by
    unfold s1
    apply holds_modGate
    exact hs
  clear_value s1
  apply holds_downExcludes
  apply holds_raise
  exact h2

theorem ends_execTrainTimeout (g : Nat) (hs : s.Holds q) : Ends q (execTrainTimeout g s) := by
  unfold execTrainTimeout
  refine ends_actOn ?_ (fun s1 h2 => ?_)
  · exact hs
  · refine holds_ite (fun _ => ?_) (fun _ => ?_)
    · apply holds_linkDown
      exact h2
    · exact h2

theorem ends_execLinkEnableSet (g : Nat) (hs : s.Holds q) : Ends q (execLinkEnableSet g s) := by
  unfold execLinkEnableSet
  refine ends_actOn ?_ (fun s1 h2 => ?_)
  · exact hs
  · apply holds_startTraining
    apply holds_modGate
    exact h2

theorem ends_execLinkDisable (g : Nat) (hs : s.Holds q) : Ends q (execLinkDisable g s) := by
  unfold execLinkDisable
  refine ends_actOn ?_ (fun s1 h2 => ?_)
  · exact hs
  · apply holds_disableLink
    apply holds_modGate
    exact h2

theorem ends_execLinkRetrain (g : Nat) (hs : s.Holds q) : Ends q (execLinkRetrain g s) := by
  unfold execLinkRetrain
  refine ends_actOn ?_ (fun s1 h2 => ?_)
  · exact hs
  · extract_lets v3
    refine holds_ite (fun _ => ?_) (fun _ => ?_)
    · apply holds_modGate
      exact h2
    · refine holds_ite (fun _ => ?_) (fun _ => ?_)
      · apply holds_startTraining
        apply holds_modGate
        exact h2
      · exact h2

theorem holds_txTake (g : Nat) (t0 : Bool) (t1 : Bool) (hs : s.Holds q) : (txTake g t0 t1 s).Holds q := by
  unfold txTake
  extract_lets s1 v2
  have h3 : State.Holds q s1 := by
    unfold s1
    apply holds_modGate
    exact hs
  clear_value s1
  refine holds_ite (fun _ => ?_) (fun _ => ?_)
  · split
    · apply holds_setGate
      exact h3
    · apply holds_modGate
      exact h3
  · apply holds_modGate
    exact h3

theorem holds_rxNotice (g : Nat) (p : Bytes) (hs : s.Holds q) : (rxNotice g p s).Holds q := by
  unfold rxNotice
  extract_lets v1 s2
  have h3 : State.Holds q s2 := by
    unfold s2
    apply holds_modGate
    exact hs
  clear_value s2
  refine holds_ite (fun _ => ?_) (fun _ => ?_)
  · apply holds_modGate
    exact hs
  · apply holds_gateFault
    exact h3

theorem holds_rxAccept (g : Nat) (f : Bytes) (hs : s.Holds q) : (rxAccept g f s).Holds q := by
  unfold rxAccept
  extract_lets v1 v2 v3 s4
  have h5 : State.Holds q s4 := by
    unfold s4
    apply holds_modGate
    exact hs
  clear_value s4
  refine holds_ite (fun _ => ?_) (fun _ => ?_)
  · exact h5
  · refine holds_ite (fun _ => ?_) (fun _ => ?_)
    · apply holds_linkDown
      exact h5
    · refine holds_ite (fun _ => ?_) (fun _ => ?_)
      · apply holds_rxNotice
        exact h5
      · apply holds_modGate
        exact h5

theorem ends_execGateTxtake (g : Nat) (take0 : Bool) (take1 : Bool) (hs : s.Holds q) : Ends q (execGateTxtake g take0 take1 s) := by
  unfold execGateTxtake
  refine ends_actOn ?_ (fun s1 h2 => ?_)
  · exact hs
  · apply holds_txTake
    exact h2

theorem holds_trainRx (g : Nat) (f : Bytes) (hs : s.Holds q) : (trainRx g f s).Holds q := by
  unfold trainRx
  extract_lets v1 v2
  refine holds_ite (fun _ => ?_) (fun _ => ?_)
  · apply holds_modGate
    exact hs
  · refine holds_ite (fun _ => ?_) (fun _ => ?_)
    · exact hs
    · refine holds_ite (fun _ => ?_) (fun _ => ?_)
      · apply holds_modGate
        exact hs
      · refine holds_ite (fun _ => ?_) (fun _ => ?_)
        · apply holds_linkDown
          exact hs
        · apply holds_modGate
          exact hs

theorem ends_execLaneFail (g : Nat) (l : Nat) (hs : s.Holds q) : Ends q (execLaneFail g l s) := by
  unfold execLaneFail
  refine ends_actOn ?_ (fun s1 h2 => ?_)
  · exact hs
  · extract_lets v3 s4 v5
    have h6 : State.Holds q s4 := by
      unfold s4
      apply holds_modGate
      exact h2
    clear_value s4
    refine holds_ite (fun _ => ?_) (fun _ => ?_)
    · apply holds_linkDown
      exact h6
    · exact h6

theorem holds_rxDiscard (g : Nat) (hs : s.Holds q) : (rxDiscard g s).Holds q := by
  unfold rxDiscard
  apply holds_modGate
  exact hs

theorem ends_execAckSend (g : Nat) (hs : s.Holds q) : Ends q (execAckSend g s) := by
  unfold execAckSend
  refine ends_actOn ?_ (fun s1 h2 => ?_)
  · exact hs
  · apply holds_modGate
    exact h2

theorem holds_replayAll (g : Nat) (hs : s.Holds q) : (replayAll g s).Holds q := by
  unfold replayAll
  extract_lets v1 s2
  have h3 : State.Holds q s2 := by
    unfold s2
    apply holds_modGate
    exact hs
  clear_value s2
  refine holds_ite (fun _ => ?_) (fun _ => ?_)
  · exact hs
  · refine holds_ite (fun _ => ?_) (fun _ => ?_)
    · apply holds_linkDown
      exact h3
    · exact h3

theorem holds_ackRx (g : Nat) (ack : Nat) (nak : Bool) (hs : s.Holds q) : (ackRx g ack nak s).Holds q := by
  unfold ackRx
  extract_lets s1
  have h2 : State.Holds q s1 := by
    unfold s1
    apply holds_modGate
    exact hs
  clear_value s1
  refine holds_ite (fun _ => ?_) (fun _ => ?_)
  · apply holds_replayAll
    exact h2
  · exact h2

theorem ends_execAckReceive (g : Nat) (ack : Nat) (nak : Bool) (hs : s.Holds q) : Ends q (execAckReceive g ack nak s) := by
  unfold execAckReceive
  refine ends_actOn ?_ (fun s1 h2 => ?_)
  · exact hs
  · refine holds_ite (fun _ => ?_) (fun _ => ?_)
    · apply holds_ackRx
      exact h2
    · exact h2

theorem ends_execLinkBringupStart (g : Nat) (hs : s.Holds q) : Ends q (execLinkBringupStart g s) := by
  unfold execLinkBringupStart
  refine ends_actOn ?_ (fun s1 h2 => ?_)
  · exact hs
  · apply holds_startTraining
    apply holds_modGate
    exact h2

theorem ends_execPhyLost (g : Nat) (hs : s.Holds q) : Ends q (execPhyLost g s) := by
  unfold execPhyLost
  refine ends_actOn ?_ (fun s1 h2 => ?_)
  · exact hs
  · extract_lets s3 v4
    have h5 : State.Holds q s3 := by
      unfold s3
      apply holds_modGate
      exact h2
    clear_value s3
    refine holds_ite (fun _ => ?_) (fun _ => ?_)
    · apply holds_linkDown
      exact h5
    · exact h5

theorem ends_execCreditFlitSend (g : Nat) (hs : s.Holds q) : Ends q (execCreditFlitSend g s) := by
  unfold execCreditFlitSend
  refine ends_actOn ?_ (fun s1 h2 => ?_)
  · exact hs
  · apply holds_modGate
    exact h2

theorem ends_execTrainFlit (g : Nat) (flit : Bytes) (hs : s.Holds q) : Ends q (execTrainFlit g flit s) := by
  unfold execTrainFlit
  refine ends_actOn ?_ (fun s1 h2 => ?_)
  · exact hs
  · refine holds_ite (fun _ => ?_) (fun _ => ?_)
    · apply holds_trainRx
      exact h2
    · exact h2

theorem holds_rxFlit (g : Nat) (f : Bytes) (bufErr : Bool) (hs : s.Holds q) : (rxFlit g f bufErr s).Holds q := by
  unfold rxFlit
  extract_lets v1 v2 v3
  refine holds_ite (fun _ => ?_) (fun _ => ?_)
  · apply holds_rxDiscard
    apply holds_modGate
    exact hs
  · refine holds_ite (fun _ => ?_) (fun _ => ?_)
    · exact hs
    · refine holds_ite (fun _ => ?_) (fun _ => ?_)
      · apply holds_ackRx
        exact hs
      · refine holds_ite (fun _ => ?_) (fun _ => ?_)
        · apply holds_rxDiscard
          apply holds_raise
          apply holds_modGate
          exact hs
        · refine holds_ite (fun _ => ?_) (fun _ => ?_)
          · apply holds_rxDiscard
            exact hs
          · apply holds_rxAccept
            exact hs

theorem holds_flitReceive (g : Nat) (b0 : Option Bytes) (b1 : Option Bytes) (bufErr : Bool) (hs : s.Holds q) : (flitReceive g b0 b1 bufErr s).Holds q := by
  unfold flitReceive
  extract_lets v1 s2 v3 v4
  have h5 : State.Holds q s2 := by
    unfold s2
    apply holds_modGate
    exact hs
  clear_value s2
  refine holds_ite (fun _ => ?_) (fun _ => ?_)
  · exact hs
  · refine holds_ite (fun _ => ?_) (fun _ => ?_)
    · apply holds_linkDown
      exact h5
    · split
      · extract_lets s6
        have h7 : State.Holds q s6 := by
          unfold s6
          apply holds_modGate
          exact h5
        clear_value s6
        refine holds_ite (fun _ => ?_) (fun _ => ?_)
        · apply holds_trainRx
          exact h7
        · apply holds_rxFlit
          exact h7
      · apply holds_modGate
        exact h5

theorem ends_execFlitReceive (g : Nat) (b0 : Option Bytes) (b1 : Option Bytes) (bufErr : Bool) (hs : s.Holds q) : Ends q (execFlitReceive g b0 b1 bufErr s) := by
  unfold execFlitReceive
  refine ends_actOn ?_ (fun s1 h2 => ?_)
  · exact hs
  · apply holds_flitReceive
    exact h2

theorem ends_execReplayTimeout (g : Nat) (hs : s.Holds q) : Ends q (execReplayTimeout g s) := by
  unfold execReplayTimeout
  refine ends_actOn ?_ (fun s1 h2 => ?_)
  · exact hs
  · refine holds_ite (fun _ => ?_) (fun _ => ?_)
    · apply holds_replayAll
      exact h2
    · exact h2

/-! ### Boot -/

theorem holds_relink (c : Charter) (g : Nat) (hs : s.Holds q) : (relink c s g).Holds q := by
  unfold relink
  extract_lets v1 v2 s3 s4
  have h5 : State.Holds q s3 := by
    unfold s3
    refine holds_ite (fun _ => ?_) (fun _ => ?_)
    · apply holds_disableLink
      exact hs
    · exact hs
  clear_value s3
  have h6 : State.Holds q s4 := by
    unfold s4
    apply holds_modGate
    exact hs
  clear_value s4
  refine holds_ite (fun _ => ?_) (fun _ => ?_)
  · apply holds_modGate
    exact h5
  · refine holds_ite (fun _ => ?_) (fun _ => ?_)
    · apply holds_startTraining
      exact h6
    · exact h6

theorem holds_holdLink (c : Charter) (g : Nat) (hs : s.Holds q) : (holdLink c s g).Holds q := by
  unfold holdLink
  refine holds_ite (fun _ => ?_) (fun _ => ?_)
  · apply holds_modGate
    exact hs
  · apply holds_relink
    exact hs

theorem holds_loadRejected (reason : Nat) (record : Nat) (hs : s.Holds q) : (loadRejected reason record s).Holds q := by
  unfold loadRejected
  refine holds_same (s := s) ?_ rfl rfl rfl rfl rfl rfl rfl rfl
  exact hs

theorem holds_firmwareCheck (b : Bytes) (hs : s.Holds q) : (firmwareCheck b s).Holds q := by
  unfold firmwareCheck
  refine holds_ite (fun _ => ?_) (fun _ => ?_)
  · apply holds_loadRejected
    exact hs
  · refine holds_ite (fun _ => ?_) (fun _ => ?_)
    · apply holds_loadRejected
      exact hs
    · refine holds_ite (fun _ => ?_) (fun _ => ?_)
      · apply holds_loadRejected
        exact hs
      · refine holds_same (s := s) ?_ rfl rfl rfl rfl rfl rfl rfl rfl
        exact hs

theorem ends_execLoadAbort (hs : s.Holds q) : Ends q (execLoadAbort s) := by
  unfold execLoadAbort
  refine ends_act ?_ (fun s1 h2 => ?_)
  · exact hs
  · refine holds_ite (fun _ => ?_) (fun _ => ?_)
    · apply holds_loadRejected
      exact h2
    · exact h2

theorem holds_clearPermanent (hs : s.Holds q) : (clearPermanent s).Holds q := by
  unfold clearPermanent
  refine holds_foldl (fun s1 x3 h2 => ?_) _ ?_
  · apply holds_setStatus
    exact h2
  · exact hs

theorem holds_applyCharter (c : Charter) (hs : s.Holds q) : (applyCharter c s).Holds q := by
  unfold applyCharter
  extract_lets m first
  have h1 := holds_upd (t := { s with
    charter := some c
    roll := { s.roll with loaded := false, groups := [], route := [], hmax := [], confirming := [] }
    waves := s.waves.filter (fun w => w.name.purpose != 2)
    cores := s.cores.foldl (fun t e => tset {} t e.1 (stopCore e.2)) []
    step := { s.step with progDigest := zeros 32, digest := zeros 32, firstStep := none }
    units := s.units.foldl (fun t e => tset {} t e.1 { e.2 with lastAgree := none }) []
    forge := { s.forge with map := 0, phase := 0, expect := BitVec.ofNat 32 ((m.map normExpect).getD 0) }
    alm := { s.alm with tests := [], installed := false, pkg := 0, serial := 0, highest := 0 }
    boot := { s.boot with loadState := 3, reason := 0, record := 0, stage := if s.boot.stage = 2 then 3 else s.boot.stage } })
    hs rfl id id (fun h => wf_built _ (fun e he => wf_stopCore (h e he))) (fun _ => tableWf_built _ _ _ _) id id
    (fun _ => tableWf_built _ _ _ _) id
  refine holds_foldl (fun s g h => ?_) _ (holds_readContexts false (holds_clearPermanent h1))
  split
  · exact holds_holdLink _ _ h
  · exact holds_relink _ _ h

theorem holds_charterCheck (b : Bytes) (hs : s.Holds q) : (charterCheck b s).Holds q := by
  unfold charterCheck
  refine holds_ite (fun _ => ?_) (fun _ => ?_)
  · apply holds_loadRejected
    exact hs
  · split
    · apply holds_loadRejected
      exact hs
    · apply holds_applyCharter
      refine holds_same (s := s) ?_ rfl rfl rfl rfl rfl rfl rfl rfl
      exact hs

theorem holds_loadCheck (b : Bytes) (hs : s.Holds q) : (loadCheck b s).Holds q := by
  unfold loadCheck
  refine holds_ite (fun _ => ?_) (fun _ => ?_)
  · apply holds_charterCheck
    exact hs
  · apply holds_firmwareCheck
    exact hs

theorem holds_loadStarts (target : Bool) (src : LoadSource) (rd : ReadEnd) (hs : s.Holds q) : (loadStarts target src rd s).Holds q := by
  unfold loadStarts
  extract_lets v1 s2 v3 s4
  have h5 : State.Holds q s2 := by
    unfold s2
    refine holds_same (s := s) ?_ rfl rfl rfl rfl rfl rfl rfl rfl
    exact hs
  clear_value s2
  have h6 : State.Holds q s4 := by
    unfold s4
    apply holds_readsEnd
    exact h5
  clear_value s4
  refine holds_ite (fun _ => ?_) (fun _ => ?_)
  · apply holds_loadRejected
    exact h5
  · split
    · refine holds_ite (fun _ => ?_) (fun _ => ?_)
      · apply holds_loadCheck
        exact h5
      · refine holds_same (s := s2) ?_ rfl rfl rfl rfl rfl rfl rfl rfl
        exact h5
    · refine holds_ite (fun _ => ?_) (fun _ => ?_)
      · apply holds_loadCheck
        exact h6
      · apply holds_loadRejected
        exact h6

theorem ends_execCharterLoad (src : LoadSource) (rd : ReadEnd) (hs : s.Holds q) : Ends q (execCharterLoad src rd s) := by
  unfold execCharterLoad
  refine ends_act ?_ (fun s1 h2 => ?_)
  · exact hs
  · apply holds_loadStarts
    exact h2

theorem ends_execFirmwareLoad (src : LoadSource) (rd : ReadEnd) (hs : s.Holds q) : Ends q (execFirmwareLoad src rd s) := by
  unfold execFirmwareLoad
  refine ends_act ?_ (fun s1 h2 => ?_)
  · exact hs
  · apply holds_loadStarts
    exact h2

theorem holds_loadData (v : U32) (hs : s.Holds q) : (loadData v s).Holds q := by
  unfold loadData
  refine holds_ite (fun _ => ?_) (fun _ => ?_)
  · exact hs
  · extract_lets v1 v2
    refine holds_ite (fun _ => ?_) (fun _ => ?_)
    · refine holds_same (s := s) ?_ rfl rfl rfl rfl rfl rfl rfl rfl
      exact hs
    · apply holds_loadCheck
      exact hs

theorem ends_execLoadData (v : U32) (hs : s.Holds q) : Ends q (execLoadData v s) := by
  unfold execLoadData
  refine ends_act ?_ (fun s1 h2 => ?_)
  · exact hs
  · apply holds_loadData
    exact h2

theorem holds_readHistory (hs : s.Holds q) : (readHistory s).Holds q := by
  unfold readHistory
  extract_lets was rs s1 us big
  have h1 : s1.Holds q := by
    refine holds_foldl (fun s x h => ?_) _ hs
    refine holds_ite (fun _ => holds_ite (fun _ => holds_modUnit _ _ h) (fun _ => h)) (fun _ => ?_)
    exact holds_ite (fun _ => holds_modUnit _ _ h) (fun _ => h)
  exact holds_upd h1 rfl id id id id id id (fun _ => tableWf_built _ _ _ _) id

theorem holds_flushHeld (hs : s.Holds q) : (flushHeld s).Holds q := by
  unfold flushHeld
  extract_lets v1 v2
  refine holds_foldl (fun s3 x5 h4 => ?_) _ ?_
  · apply holds_bookWrite
    exact h4
  · refine holds_same (s := s) ?_ rfl rfl rfl rfl rfl rfl rfl rfl
    exact hs

theorem holds_scanRing (hs : s.Holds q) : (scanRing s).Holds q := by
  unfold scanRing
  extract_lets v1 v2 v3 v4 v5 v6 v7 v8 v9 v10 v11 v12
  refine holds_same (s := s) ?_ rfl rfl rfl rfl rfl rfl rfl rfl
  exact hs

theorem holds_bookScan (f : FlashId) (hs : s.Holds q) : (bookScan f s).Holds q := by
  unfold bookScan
  split
  · exact hs
  · refine holds_ite (fun _ => ?_) (fun _ => ?_)
    · exact hs
    · extract_lets v1 v2 s3 v4 v5 s6 s7
      have h8 : State.Holds q s3 := by
        unfold s3
        refine holds_same (s := s) ?_ rfl rfl rfl rfl rfl rfl rfl rfl
        exact hs
      clear_value s3
      have h9 : State.Holds q s6 := by
        unfold s6
        apply holds_readHistory
        apply holds_scanRing
        refine holds_same (s := s3) ?_ rfl rfl rfl rfl rfl rfl rfl rfl
        exact h8
      clear_value s6
      have h10 : State.Holds q s7 := by
        unfold s7
        apply holds_bookWatch
        apply holds_bookWear
        exact h9
      clear_value s7
      refine holds_ite (fun _ => ?_) (fun _ => ?_)
      · apply holds_raise
        apply holds_readHistory
        refine holds_same (s := s3) ?_ rfl rfl rfl rfl rfl rfl rfl rfl
        exact h8
      · refine holds_ite (fun _ => ?_) (fun _ => ?_)
        · apply holds_bookWatch
          apply holds_flushHeld
          exact h10
        · apply holds_raise
          exact h10

theorem ends_execBookScan (flash : FlashId) (hs : s.Holds q) : Ends q (execBookScan flash s) := by
  unfold execBookScan
  refine ends_act ?_ (fun s1 h2 => ?_)
  · exact hs
  · apply holds_bookScan
    exact h2

theorem holds_baselineTest (fails : List Nat) (hs : s.Holds q) : (baselineTest fails s).Holds q := by
  unfold baselineTest
  split
  · exact hs
  · refine holds_ite (fun _ => ?_) (fun _ => ?_)
    · exact hs
    · extract_lets s1 v2
      have h3 : State.Holds q s1 := by
        unfold s1
        refine holds_foldl (fun s4 x6 h5 => ?_) _ ?_
        · apply holds_raise
          exact h5
        · exact hs
      clear_value s1
      refine holds_foldl (fun s7 x9 h8 => ?_) _ ?_
      · apply holds_relink
        exact h8
      · refine holds_same (s := s1) ?_ rfl rfl rfl rfl rfl rfl rfl rfl
        exact h3

theorem ends_execBaselineTest (fails : List Nat) (hs : s.Holds q) : Ends q (execBaselineTest fails s) := by
  unfold execBaselineTest
  refine ends_act ?_ (fun s1 h2 => ?_)
  · exact hs
  · apply holds_baselineTest
    exact h2

end Sys2Proof.Machine
end

