-- ==== Sys2Proof/Laws/KeepCore.lean ====
section
/-! SUPPORT. Every meaning keeps the queue and the canonical form: cores, wells and expanders (Operands, Wells, Expander, Issue, Matrix, Vector, LoadStore). One lemma for each function:
`holds_<f>` and `wf_<f>` for what it does to a state or a core, `ends_<f>` for the outcome of a row. -/

namespace Sys2Proof.Machine

set_option Elab.async false

variable {q : List Instr} {s : State}

/-! ### Operands -/

theorem wf_Desc_put (d : Desc) (r : Nat) (i : Nat) (v : Nat) (bad : Bool) {k : Core} (hk : k.wf = true) : (Desc.put d r i v bad k).wf = true := by
  unfold Desc.put
  split
  extract_lets v1 v2 v3
  apply wf_scrWrite
  exact hk

/-! ### Wells -/

theorem holds_dropTag (w : Nat) (tag : Nat) (hs : s.Holds q) : (dropTag w tag s).Holds q := by
  unfold dropTag
  apply holds_modWell
  exact hs

theorem holds_deliverStream (w : Nat) (a : Nat) (bs : Bytes) (bad : Bool) (hs : s.Holds q) : (deliverStream w a bs bad s).Holds q := by
  unfold deliverStream
  apply holds_modWell
  exact hs

theorem holds_poisonRead (r : WReq) (hs : s.Holds q) : (poisonRead r s).Holds q := by
  unfold poisonRead
  split
  · refine holds_foldl (fun s1 x3 h2 => ?_) _ ?_
    · refine holds_modCore _ (fun k4 h5 => ?_) ?_
      · apply wf_scrWrite
        exact h5
      · exact h2
    · exact hs
  · refine holds_foldl (fun s6 x8 h7 => ?_) _ ?_
    · extract_lets v9
      apply holds_deliverStream
      exact h7
    · exact hs
  · exact hs

theorem holds_errorEnd (w : Nat) (r : WReq) (hs : s.Holds q) : (errorEnd w r s).Holds q := by
  unfold errorEnd
  extract_lets s1
  have h2 : State.Holds q s1 := by
    unfold s1
    refine holds_ite (fun _ => ?_) (fun _ => ?_)
    · apply holds_poisonRead
      exact hs
    · exact hs
  clear_value s1
  apply holds_raise
  apply holds_modWell
  exact h2

theorem holds_wellTimeout (w : Nat) (tag : Nat) (hs : s.Holds q) : (wellTimeout w tag s).Holds q := by
  unfold wellTimeout
  split
  · apply holds_errorEnd
    apply holds_modWell
    apply holds_dropTag
    exact hs
  · exact hs

theorem ends_execWellTimeout (w : Nat) (tag : Nat) (hs : s.Holds q) : Ends q (execWellTimeout w tag s) := by
  unfold execWellTimeout
  refine ends_actOn ?_ (fun s1 h2 => ?_)
  · exact hs
  · apply holds_wellTimeout
    exact h2

theorem holds_loseRequest (w : Nat) (hs : s.Holds q) : (loseRequest w s).Holds q := by
  unfold loseRequest
  split
  · exact hs
  · extract_lets s1 kept
    have h1 : s1.Holds q := holds_modWell _ _ hs
    clear_value s1
    refine holds_upd h1 rfl (fun h => ?_) id id id id id id id
    show memWf 0 (if _ then _ else _) = true
    split
    · exact memWf_foldl (fun _ _ hm => memWf_mwrite _ _ hm) _ h
    · exact h

theorem holds_completion (w : Nat) (tag : Nat) (status : Nat) (hs : s.Holds q) : (completion w tag status s).Holds q := by
  unfold completion
  extract_lets v1 s2
  have h3 : State.Holds q s2 := by
    unfold s2
    apply holds_dropTag
    exact hs
  clear_value s2
  refine holds_ite (fun _ => ?_) (fun _ => ?_)
  · exact hs
  · split
    · refine holds_ite (fun _ => ?_) (fun _ => ?_)
      · apply holds_errorEnd
        exact h3
      · exact h3
    · refine holds_ite (fun _ => ?_) (fun _ => ?_)
      · apply holds_modWell
        exact hs
      · exact hs

theorem holds_poisonMode (hs : s.Holds q) : (poisonMode s).Holds q := by
  unfold poisonMode
  refine holds_ite (fun _ => ?_) (fun _ => ?_)
  · exact hs
  · apply holds_setMode
    exact hs

theorem holds_poisonWrite (w : Nat) (r : WReq) (hs : s.Holds q) : (poisonWrite w r s).Holds q := by
  unfold poisonWrite
  refine holds_ite (fun _ => ?_) (fun _ => ?_)
  · apply holds_raise
    apply holds_modWell
    apply holds_poisonMode
    exact hs
  · exact hs

theorem holds_wellIssue (w : Nat) (hs : s.Holds q) : (wellIssue w s).Holds q := by
  unfold wellIssue
  extract_lets v1
  refine holds_ite (fun _ => ?_) (fun _ => ?_)
  · exact hs
  · split
    · apply holds_poisonWrite
      apply holds_modWell
      exact hs
    · exact hs

theorem holds_wellRefresh (w : Nat) (hs : s.Holds q) : (wellRefresh w s).Holds q := by
  unfold wellRefresh
  refine holds_ite (fun _ => ?_) (fun _ => ?_)
  · apply holds_modWell
    exact hs
  · exact hs

theorem holds_deliverCore (c : Nat) (job : Nat) (lo : Nat) (bs : Bytes) (bad : Bool) (dests : List (Nat × Nat × Nat)) (hs : s.Holds q) : (deliverCore c job lo bs bad dests s).Holds q := by
  unfold deliverCore
  refine holds_ite (fun _ => ?_) (fun _ => ?_)
  · refine holds_modCore _ (fun k1 h2 => ?_) ?_
    · refine wf_upd (k := k1) ?_ id id id id id id id id id id id id
      exact h2
    · refine holds_same (s := s) ?_ rfl rfl rfl rfl rfl rfl rfl rfl
      exact hs
  · refine holds_foldl (fun s3 x5 h4 => ?_) _ ?_
    · extract_lets v6 v7
      refine holds_ite (fun _ => ?_) (fun _ => ?_)
      · refine holds_modCore _ (fun k8 h9 => ?_) ?_
        · apply wf_scrWrite
          exact h9
        · exact h4
      · exact h4
    · exact hs

theorem holds_deliverQuarter (r : WReq) (off : Nat) (bs : Bytes) (bad : Bool) (hs : s.Holds q) : (deliverQuarter r off bs bad s).Holds q := by
  unfold deliverQuarter
  split
  · apply holds_deliverCore
    exact hs
  · apply holds_deliverStream
    exact hs
  · exact hs

theorem holds_readBeat (w : Nat) (tag : Nat) (data : Bytes) (poison : Nat) (hs : s.Holds q) : (readBeat w tag data poison s).Holds q := by
  unfold readBeat
  split
  · refine holds_ite (fun _ => ?_) (fun _ => ?_)
    · exact hs
    · extract_lets s1
      have h2 : State.Holds q s1 := by
        unfold s1
        apply holds_modWell
        exact hs
      clear_value s1
      refine holds_foldl (fun s3 x5 h4 => ?_) _ ?_
      · refine holds_ite (fun _ => ?_) (fun _ => ?_)
        · extract_lets v6 s7
          have h8 : State.Holds q s7 := by
            unfold s7
            refine holds_ite (fun _ => ?_) (fun _ => ?_)
            · apply holds_modWell
              exact h4
            · exact h4
          clear_value s7
          apply holds_deliverQuarter
          exact h8
        · exact h4
      · exact h2
  · exact hs

theorem ends_execWellRequestIssue (w : Nat) (hs : s.Holds q) : Ends q (execWellRequestIssue w s) := by
  unfold execWellRequestIssue
  refine ends_actOn ?_ (fun s1 h2 => ?_)
  · exact hs
  · apply holds_wellIssue
    exact h2

theorem ends_execWellReadBeat (w : Nat) (tag : Nat) (data : Bytes) (poison : Nat) (hs : s.Holds q) : Ends q (execWellReadBeat w tag data poison s) := by
  unfold execWellReadBeat
  refine ends_actOn ?_ (fun s1 h2 => ?_)
  · exact hs
  · apply holds_readBeat
    exact h2

theorem ends_execWellCompletion (w : Nat) (tag : Nat) (status : Nat) (hs : s.Holds q) : Ends q (execWellCompletion w tag status s) := by
  unfold execWellCompletion
  refine ends_actOn ?_ (fun s1 h2 => ?_)
  · exact hs
  · apply holds_completion
    exact h2

theorem ends_execWellRefresh (w : Nat) (hs : s.Holds q) : Ends q (execWellRefresh w s) := by
  unfold execWellRefresh
  refine ends_actOn ?_ (fun s1 h2 => ?_)
  · exact hs
  · apply holds_wellRefresh
    exact h2

/-! ### Expander -/

theorem holds_modSlot (n : Nat) (f : ExpSlot → ExpSlot) (hs : s.Holds q) : (modSlot n f s).Holds q := by
  unfold modSlot
  refine holds_same (s := s) ?_ rfl rfl rfl rfl rfl rfl rfl rfl
  exact hs

theorem holds_expPin (n : Nat) (hs : s.Holds q) : (expPin n s).Holds q := by
  unfold expPin
  refine holds_ite (fun _ => ?_) (fun _ => ?_)
  · refine holds_same (s := s) ?_ rfl rfl rfl rfl rfl rfl rfl rfl
    exact hs
  · apply holds_modSlot
    exact hs

theorem ends_execExpPin (slot : Nat) (hs : s.Holds q) : Ends q (execExpPin slot s) := by
  unfold execExpPin
  refine ends_act ?_ (fun s1 h2 => ?_)
  · exact hs
  · apply holds_expPin
    exact h2

theorem holds_expUnpin (n : Nat) (hs : s.Holds q) : (expUnpin n s).Holds q := by
  unfold expUnpin
  refine holds_ite (fun _ => ?_) (fun _ => ?_)
  · refine holds_same (s := s) ?_ rfl rfl rfl rfl rfl rfl rfl rfl
    exact hs
  · apply holds_modSlot
    exact hs

theorem holds_tableLoad (hs : s.Holds q) : (tableLoad s).Holds q := by
  unfold tableLoad
  refine holds_ite (fun _ => ?_) (fun _ => ?_)
  · exact hs
  · refine holds_ite (fun _ => ?_) (fun _ => ?_)
    · refine holds_same (s := s) ?_ rfl rfl rfl rfl rfl rfl rfl rfl
      exact hs
    · refine holds_same (s := s) ?_ rfl rfl rfl rfl rfl rfl rfl rfl
      exact hs

theorem holds_expandStarts (rd : ReadEnd) (v : Nat) (hs : s.Holds q) : (expandStarts rd v s).Holds q := by
  unfold expandStarts
  extract_lets v1 s2 v3 v4
  have h5 : State.Holds q s2 := by
    unfold s2
    apply holds_readsEnd
    exact hs
  clear_value s2
  refine holds_ite (fun _ => ?_) (fun _ => ?_)
  · apply holds_modWell
    apply holds_popCmd
    exact h5
  · apply holds_discardCmd
    exact h5

theorem holds_expandNext (w : Nat) (next : Option Nat) (hs : s.Holds q) : (expandNext w next s).Holds q := by
  unfold expandNext
  apply holds_modWell
  exact hs

theorem holds_expandWrite (j : ExpJob) (slot : Option Nat) (bs : Bytes) (bad : Bool) (hs : s.Holds q) : (expandWrite j slot bs bad s).Holds q := by
  unfold expandWrite
  split
  · refine holds_modCore _ (fun k1 h2 => ?_) ?_
    · apply wf_scrWrite
      exact h2
    · exact hs
  · apply holds_postWrite
    exact hs

theorem holds_damaged (w : Nat) (cause : Nat) (src : Nat) (hs : s.Holds q) : (damaged w cause src s).Holds q := by
  unfold damaged
  refine holds_ite (fun _ => ?_) (fun _ => ?_)
  · exact hs
  · extract_lets s1
    have h2 : State.Holds q s1 := by
      unfold s1
      apply holds_modWell
      exact hs
    clear_value s1
    apply holds_raise
    exact h2

theorem holds_expandBlock (w : Nat) (hs : s.Holds q) : (expandBlock w s).Holds q := by
  unfold expandBlock
  extract_lets v1
  split
  · exact hs
  · refine holds_ite (fun _ => ?_) (fun _ => ?_)
    · apply holds_expandNext
      apply holds_expandWrite
      exact hs
    · split
      · exact hs
      · extract_lets v2 s3
        have h4 : State.Holds q s3 := by
          unfold s3
          apply holds_damaged
          apply holds_expandWrite
          exact hs
        clear_value s3
        refine holds_ite (fun _ => ?_) (fun _ => ?_)
        · apply holds_expandNext
          exact h4
        · split
          · exact hs
          · extract_lets v5 s6
            have h7 : State.Holds q s6 := by
              unfold s6
              apply holds_expandWrite
              exact hs
            clear_value s6
            apply holds_expandNext
            apply holds_damaged
            exact h7

theorem ends_execExpandBlock (w : Nat) (hs : s.Holds q) : Ends q (execExpandBlock w s) := by
  unfold execExpandBlock
  refine ends_actOn ?_ (fun s1 h2 => ?_)
  · exact hs
  · apply holds_expandBlock
    exact h2

theorem holds_expanderFetch (w : Nat) (hs : s.Holds q) : (expanderFetch w s).Holds q := by
  unfold expanderFetch
  extract_lets v1
  split
  · exact hs
  · extract_lets v2 v3
    refine holds_ite (fun _ => ?_) (fun _ => ?_)
    · exact hs
    · apply holds_enqueueReq
      apply holds_modWell
      exact hs

theorem ends_execExpTableLoad (hs : s.Holds q) : Ends q (execExpTableLoad s) := by
  unfold execExpTableLoad
  refine ends_act ?_ (fun s1 h2 => ?_)
  · exact hs
  · apply holds_tableLoad
    exact h2

theorem ends_execExpUnpin (slot : Nat) (hs : s.Holds q) : Ends q (execExpUnpin slot s) := by
  unfold execExpUnpin
  refine ends_act ?_ (fun s1 h2 => ?_)
  · exact hs
  · apply holds_expUnpin
    exact h2

theorem ends_execExpand (rd : ReadEnd) (hs : s.Holds q) : Ends q (execExpand rd s) := by
  unfold execExpand
  apply ends_onHead
  · intro x1 s2 h3
    apply holds_expandStarts
    exact h3
  · exact hs

theorem holds_tableLoadDone (rd : ReadEnd) (hs : s.Holds q) : (tableLoadDone rd s).Holds q := by
  unfold tableLoadDone
  split
  · exact hs
  · extract_lets v1 s2 v3 v4
    have h5 : State.Holds q s2 := by
      unfold s2
      apply holds_readsEnd
      refine holds_same (s := s) ?_ rfl rfl rfl rfl rfl rfl rfl rfl
      exact hs
    clear_value s2
    refine holds_ite (fun _ => ?_) (fun _ => ?_)
    · apply holds_modSlot
      exact h5
    · refine holds_same (s := s2) ?_ rfl rfl rfl rfl rfl rfl rfl rfl
      exact h5

theorem ends_execExpanderFetch (w : Nat) (hs : s.Holds q) : Ends q (execExpanderFetch w s) := by
  unfold execExpanderFetch
  refine ends_actOn ?_ (fun s1 h2 => ?_)
  · exact hs
  · apply holds_expanderFetch
    exact h2

theorem ends_execExpTableLoadDone (rd : ReadEnd) (hs : s.Holds q) : Ends q (execExpTableLoadDone rd s) := by
  unfold execExpTableLoadDone
  refine ends_act ?_ (fun s1 h2 => ?_)
  · exact hs
  · apply holds_tableLoadDone
    exact h2

/-! ### Issue -/

theorem wf_setcmp (i : Nat) (eq : Bool) (rs : Nat) {k : Core} (hk : k.wf = true) : (setcmp i eq rs k).wf = true := by
  unfold setcmp
  refine wf_upd (k := k) ?_ id id id id id id id id (tableWf_tset _ _) id id id
  exact hk

theorem ends_execSetcmp (c : Nat) (k : Nat) (eq : Bool) (rs : Nat) (hs : s.Holds q) : Ends q (execSetcmp c k eq rs s) := by
  unfold execSetcmp
  refine ends_actOn ?_ (fun s1 h2 => ?_)
  · exact hs
  · refine holds_modCore _ (fun k3 h4 => ?_) ?_
    · apply wf_setcmp
      exact h4
    · exact h2

theorem wf_slotOr (e : Nat) (faults : List Nat) {f : Core → Core} (hf : ∀ x : Core, x.wf = true → (f x).wf = true) {k : Core} (hk : k.wf = true) : (slotOr e faults f k).wf = true := by
  unfold slotOr
  split
  · apply hf
    exact hk
  · apply wf_haltCore
    exact hk

theorem wf_setLayout (code : Nat) {k : Core} (hk : k.wf = true) : (setLayout code k).wf = true := by
  unfold setLayout
  refine wf_upd (k := k) hk id id (fun _ => rfl) id id id id id id id id (fun _ => ?_)
  show tableWf _ (if code = 3 then _ else _) = true
  split
  · decide
  · rfl

theorem ends_execLayout (c : Nat) (code : Nat) (hs : s.Holds q) : Ends q (execLayout c code s) := by
  unfold execLayout
  refine ends_actOn ?_ (fun s1 h2 => ?_)
  · exact hs
  · refine holds_modCore _ (fun k3 h4 => ?_) ?_
    · apply wf_slotOr
      · intro k5 h6
        apply wf_setLayout
        exact h6
      · exact h4
    · exact h2

theorem ends_execCoreHaltRequest (c : Nat) (hs : s.Holds q) : Ends q (execCoreHaltRequest c s) := by
  unfold execCoreHaltRequest
  refine ends_actOn ?_ (fun s1 h2 => ?_)
  · exact hs
  · refine holds_modCore _ (fun k3 h4 => ?_) ?_
    · refine wf_ite (fun _ => ?_) (fun _ => ?_)
      · refine wf_upd (k := k3) ?_ id id id id id id id id id id id id
        exact h4
      · exact h4
    · exact h2

theorem wf_resume (step : Bool) {k : Core} (hk : k.wf = true) : (resume step k).wf = true := by
  unfold resume
  refine wf_ite (fun _ => ?_) (fun _ => ?_)
  · refine wf_upd (k := k) ?_ id id id id id id id id id id id id
    exact hk
  · exact hk

theorem ends_execCoreResume (c : Nat) (hs : s.Holds q) : Ends q (execCoreResume c s) := by
  unfold execCoreResume
  refine ends_actOn ?_ (fun s1 h2 => ?_)
  · exact hs
  · refine holds_modCore _ (fun k3 h4 => ?_) ?_
    · apply wf_resume
      exact h4
    · exact h2

theorem ends_execCoreSingleStep (c : Nat) (hs : s.Holds q) : Ends q (execCoreSingleStep c s) := by
  unfold execCoreSingleStep
  refine ends_actOn ?_ (fun s1 h2 => ?_)
  · exact hs
  · refine holds_modCore _ (fun k3 h4 => ?_) ?_
    · apply wf_resume
      exact h4
    · exact h2

theorem wf_take {k : Core} (hk : k.wf = true) : (take k).wf = true := by
  unfold take
  refine wf_upd (k := k) ?_ id id id id id id id id id id id id
  exact hk

theorem wf_loopEnds {k : Core} (hk : k.wf = true) : (loopEnds k).wf = true := by
  unfold loopEnds
  extract_lets v1 v2 k3
  have h4 : Core.wf k3 = true := by
    unfold k3
    refine wf_upd (k := k) ?_ id id id id id id id id id (tableWf_tset _ _) id id
    exact hk
  clear_value k3
  refine wf_ite (fun _ => ?_) (fun _ => ?_)
  · refine wf_upd (k := k3) ?_ id id id id id id id id id id id id
    exact h4
  · refine wf_upd (k := k3) ?_ id id id id id id id id id id id id
    exact h4

theorem ends_execHalt (c : Nat) (hs : s.Holds q) : Ends q (execHalt c s) := by
  unfold execHalt
  refine ends_actOn ?_ (fun s1 h2 => ?_)
  · exact hs
  · refine holds_modCore _ (fun k3 h4 => ?_) ?_
    · apply wf_haltCore
      exact h4
    · exact h2

theorem holds_scalarLoad (c : Nat) (errs : List MemErr) (hs : s.Holds q) : (scalarLoad c errs s).Holds q := by
  unfold scalarLoad
  split
  · split
    rename_i s1 b2 e3
    have h4 : State.Holds q s1 := by
      refine holds_memErrors ?_ e3
      refine holds_modCore _ (fun k5 h6 => ?_) ?_
      · refine wf_upd (k := k5) ?_ id id id id id id id id id id id id
        exact h6
      · exact hs
    refine holds_ite (fun _ => ?_) (fun _ => ?_)
    · refine holds_modCore _ (fun k7 h8 => ?_) ?_
      · apply wf_engineHalt
        exact h8
      · exact h4
    · refine holds_modCore _ (fun k9 h10 => ?_) ?_
      · apply wf_setS
        exact h10
      · exact h4
  · exact hs

theorem ends_execLi (c : Nat) (rd : Nat) (imm : U16) (hs : s.Holds q) : Ends q (execLi c rd imm s) := by
  unfold execLi
  refine ends_actOn ?_ (fun s1 h2 => ?_)
  · exact hs
  · refine holds_modCore _ (fun k3 h4 => ?_) ?_
    · apply wf_setS
      exact h4
    · exact h2

theorem wf_aluR (f : U32 → U32 → U32) (rd : Nat) (rs1 : Nat) (rs2 : Nat) {k : Core} (hk : k.wf = true) : (aluR f rd rs1 rs2 k).wf = true := by
  unfold aluR
  apply wf_setS
  exact hk

theorem ends_execSub (c : Nat) (rd : Nat) (rs1 : Nat) (rs2 : Nat) (hs : s.Holds q) : Ends q (execSub c rd rs1 rs2 s) := by
  unfold execSub
  refine ends_actOn ?_ (fun s1 h2 => ?_)
  · exact hs
  · refine holds_modCore _ (fun k3 h4 => ?_) ?_
    · apply wf_aluR
      exact h4
    · exact h2

theorem wf_rdcnt (rd : Nat) (i : Nat) {k : Core} (hk : k.wf = true) : (rdcnt rd i k).wf = true := by
  unfold rdcnt
  apply wf_setS
  exact hk

theorem wf_enqueue (addr : Nat) (old : Core) (p : Nat × Nat) {k : Core} (hk : k.wf = true) : (enqueue addr old k p).wf = true := by
  unfold enqueue
  split
  · refine wf_upd (k := k) ?_ id id id id id id id id id id id id
    exact hk
  · refine wf_upd (k := k) ?_ id id id id id id id id id id id id
    exact hk
  · refine wf_upd (k := k) ?_ id id id id id id id id id id id id
    exact hk
  · refine wf_upd (k := k) ?_ id id id id id id id id id id id id
    exact hk
  · exact hk

theorem wf_aluI (f : U32 → U32) (rd : Nat) (rs1 : Nat) {k : Core} (hk : k.wf = true) : (aluI f rd rs1 k).wf = true := by
  unfold aluI
  apply wf_setS
  exact hk

theorem wf_openLoop (level : Nat) (cnt : Nat) (e : Nat) {k : Core} (hk : k.wf = true) : (openLoop level cnt e k).wf = true := by
  unfold openLoop
  extract_lets v1 v2 v3
  refine wf_ite (fun _ => ?_) (fun _ => ?_)
  · refine wf_upd (k := k) ?_ id id id id id id id id id id id id
    exact hk
  · refine wf_upd (k := k) ?_ id id id id id id id id id (tableWf_tset _ _) id id
    exact hk

theorem wf_branch (rs : Nat) (sense : Bool) (o : BitVec 13) {k : Core} (hk : k.wf = true) : (branch rs sense o k).wf = true := by
  unfold branch
  refine wf_ite (fun _ => ?_) (fun _ => ?_)
  · refine wf_upd (k := k) ?_ id id id id id id id id id id id id
    exact hk
  · exact hk

theorem wf_dput (d : Nat) (n : Nat) (rs : Nat) {k : Core} (hk : k.wf = true) : (dput d n rs k).wf = true := by
  unfold dput
  extract_lets v1 v2 v3
  refine wf_upd (k := k) ?_ id id id id id id id id id id (tableWf_tset _ _) id
  exact hk

theorem wf_setvl (rs1 : Nat) {k : Core} (hk : k.wf = true) : (setvl rs1 k).wf = true := by
  unfold setvl
  refine wf_upd (k := k) ?_ id id id id id id id id id id id id
  exact hk

theorem wf_setcnt (i src : Nat) {k : Core} (hk : k.wf = true) : (setcnt i src k).wf = true := by
  unfold setcnt
  refine wf_upd (k := k) hk id id id id id id (fun h => ?_) (fun h => tableWf_tset (i % 8) src h) id id id id
  show tableWf 0 (tset 0 k.cnt (i % 8) 0) = true
  exact tableWf_tset _ _ h

theorem wf_rdlp (rd : Nat) (level : Nat) {k : Core} (hk : k.wf = true) : (rdlp rd level k).wf = true := by
  unfold rdlp
  apply wf_setS
  exact hk

theorem wf_scApply (addr : Nat) (w : Nat) {k : Core} (hk : k.wf = true) : (scApply addr w k).wf = true := by
  unfold scApply
  extract_lets v1 v2 v3 v4
  split
  iterate 11 exact wf_aluR _ _ _ _ hk
  iterate 4 exact wf_aluI _ _ _ hk
  iterate 2 exact wf_setS _ _ hk
  iterate 2 exact wf_upd (k := k) hk id id id id id id id id id id id id
  · exact wf_openLoop _ _ _ hk
  · exact wf_branch _ _ _ hk
  · exact wf_dput _ _ _ hk
  · exact wf_setvl _ hk
  · exact wf_setcnt _ _ hk
  · exact wf_setcmp _ _ _ hk
  · exact wf_rdcnt _ _ hk
  · exact wf_rdlp _ _ hk
  · exact wf_setLayout _ hk
  · exact hk

theorem wf_setHold (h : Hold) {k : Core} (hk : k.wf = true) : (setHold h k).wf = true := by
  unfold setHold
  refine wf_ite (fun _ => ?_) (fun _ => ?_)
  · exact hk
  · refine wf_upd (k := k) ?_ id id id id id id id id id id id id
    exact hk

theorem holds_signal (c : Nat) (v : U16) (hs : s.Holds q) : (signal c v s).Holds q := by
  unfold signal
  extract_lets s1
  have h2 : State.Holds q s1 := by
    unfold s1
    refine holds_modCore _ (fun k3 h4 => ?_) ?_
    · refine wf_upd (k := k3) ?_ id id id id id id id id id id id id
      exact h4
    · exact hs
  clear_value s1
  refine holds_same (s := s1) ?_ rfl rfl rfl rfl rfl rfl rfl rfl
  exact h2

theorem holds_syncApply (c : Nat) (addr : Nat) (x : Nat) (hs : s.Holds q) : (syncApply c addr x s).Holds q := by
  unfold syncApply
  split
  · refine holds_modCore _ (fun k1 h2 => ?_) ?_
    · apply wf_setHold
      exact h2
    · exact hs
  · refine holds_modCore _ (fun k3 h4 => ?_) ?_
    · apply wf_setHold
      exact h4
    · exact hs
  · refine holds_modCore _ (fun k5 h6 => ?_) ?_
    · apply wf_setHold
      exact h6
    · exact hs
  · apply holds_signal
    exact hs
  · refine holds_modCore _ (fun k7 h8 => ?_) ?_
    · apply wf_haltCore
      exact h8
    · exact hs
  · refine holds_modCore _ (fun k9 h10 => ?_) ?_
    · apply wf_take
      exact h10
    · exact hs
  · exact hs

theorem wf_afterIssue {k : Core} (hk : k.wf = true) : (afterIssue k).wf = true := by
  unfold afterIssue
  extract_lets v1 v2 k3 v4
  have h5 : Core.wf k3 = true := by
    unfold k3
    refine wf_upd (k := k) ?_ id id id id id id id id id id id id
    exact hk
  clear_value k3
  refine wf_ite (fun _ => ?_) (fun _ => ?_)
  · apply wf_haltCore
    refine wf_upd (k := k3) ?_ id id id id id id id id id id id id
    exact h5
  · exact h5

theorem holds_issueWord (c : Nat) (w : LWord) (hs : s.Holds q) : (issueWord c w s).Holds q := by
  unfold issueWord
  extract_lets k1 k2 k3 k4 k5 s6 s7
  have h8 : Core.wf k1 = true := by
    unfold k1
    refine getCore_wf (q := q) ?_ _
    exact hs
  clear_value k1
  have h9 : Core.wf k2 = true := by
    unfold k2
    apply wf_countEvent
    refine wf_upd (k := k1) ?_ id id id id id id id id id id id id
    exact h8
  clear_value k2
  have h10 : Core.wf k3 = true := by
    unfold k3
    refine wf_foldl (fun k11 x13 h12 => ?_) _ ?_
    · apply wf_enqueue
      exact h12
    · exact h9
  clear_value k3
  have h14 : Core.wf k4 = true := by
    unfold k4
    split
    · refine wf_ite (fun _ => ?_) (fun _ => ?_)
      · apply wf_setS
        exact h10
      · apply wf_scApply
        exact h10
    · exact h10
  clear_value k4
  have h15 : Core.wf k5 = true := by
    unfold k5
    refine wf_ite (fun _ => ?_) (fun _ => ?_)
    · apply wf_loopEnds
      exact h14
    · exact h14
  clear_value k5
  have h16 : State.Holds q s6 := by
    unfold s6
    refine holds_setCore _ ?_ ?_
    · exact h15
    · exact hs
  clear_value s6
  have h17 : State.Holds q s7 := by
    unfold s7
    split
    · apply holds_syncApply
      exact h16
    · exact h16
  clear_value s7
  refine holds_modCore _ (fun k18 h19 => ?_) ?_
  · apply wf_afterIssue
    exact h19
  · exact h17

theorem ends_execSltu (c : Nat) (rd : Nat) (rs1 : Nat) (rs2 : Nat) (hs : s.Holds q) : Ends q (execSltu c rd rs1 rs2 s) := by
  unfold execSltu
  refine ends_actOn ?_ (fun s1 h2 => ?_)
  · exact hs
  · refine holds_modCore _ (fun k3 h4 => ?_) ?_
    · apply wf_aluR
      exact h4
    · exact h2

theorem holds_scalarStore (c : Nat) (errs : List MemErr) (hs : s.Holds q) : (scalarStore c errs s).Holds q := by
  unfold scalarStore
  split
  · split
    rename_i s1 b2 e3
    have h4 : State.Holds q s1 := by
      refine holds_memErrors ?_ e3
      refine holds_modCore _ (fun k5 h6 => ?_) ?_
      · refine wf_upd (k := k5) ?_ id id id id id id id id id id id id
        exact h6
      · exact hs
    refine holds_ite (fun _ => ?_) (fun _ => ?_)
    · refine holds_modCore _ (fun k7 h8 => ?_) ?_
      · apply wf_engineHalt
        exact h8
      · exact h4
    · refine holds_modCore _ (fun k9 h10 => ?_) ?_
      · apply wf_sdataWrite
        exact h10
      · exact h4
  · exact hs

theorem ends_execSignal (c : Nat) (v : U16) (hs : s.Holds q) : Ends q (execSignal c v s) := by
  unfold execSignal
  refine ends_actOn ?_ (fun s1 h2 => ?_)
  · exact hs
  · apply holds_signal
    exact h2

theorem ends_execSetvl (c : Nat) (rs1 : Nat) (hs : s.Holds q) : Ends q (execSetvl c rs1 s) := by
  unfold execSetvl
  refine ends_actOn ?_ (fun s1 h2 => ?_)
  · exact hs
  · refine holds_modCore _ (fun k3 h4 => ?_) ?_
    · apply wf_setvl
      exact h4
    · exact h2

theorem wf_syncRelease {k : Core} (hk : k.wf = true) : (syncRelease k).wf = true := by
  unfold syncRelease
  split
  · refine wf_ite (fun _ => ?_) (fun _ => ?_)
    · refine wf_upd (k := k) ?_ id id id id id id id id id id id id
      exact hk
    · exact hk
  · exact hk

theorem ends_execMul (c : Nat) (rd : Nat) (rs1 : Nat) (rs2 : Nat) (hs : s.Holds q) : Ends q (execMul c rd rs1 rs2 s) := by
  unfold execMul
  refine ends_actOn ?_ (fun s1 h2 => ?_)
  · exact hs
  · refine holds_modCore _ (fun k3 h4 => ?_) ?_
    · apply wf_aluR
      exact h4
    · exact h2

theorem ends_execLui (c : Nat) (rd : Nat) (imm : U16) (hs : s.Holds q) : Ends q (execLui c rd imm s) := by
  unfold execLui
  refine ends_actOn ?_ (fun s1 h2 => ?_)
  · exact hs
  · refine holds_modCore _ (fun k3 h4 => ?_) ?_
    · apply wf_setS
      exact h4
    · exact h2

theorem ends_execAnd (c : Nat) (rd : Nat) (rs1 : Nat) (rs2 : Nat) (hs : s.Holds q) : Ends q (execAnd c rd rs1 rs2 s) := by
  unfold execAnd
  refine ends_actOn ?_ (fun s1 h2 => ?_)
  · exact hs
  · refine holds_modCore _ (fun k3 h4 => ?_) ?_
    · apply wf_aluR
      exact h4
    · exact h2

theorem ends_execLoop (c : Nat) (level : Nat) (cnt : Nat) (e : Nat) (hs : s.Holds q) : Ends q (execLoop c level cnt e s) := by
  unfold execLoop
  refine ends_actOn ?_ (fun s1 h2 => ?_)
  · exact hs
  · refine holds_modCore _ (fun k3 h4 => ?_) ?_
    · apply wf_slotOr
      · intro k5 h6
        apply wf_openLoop
        exact h6
      · exact h4
    · exact h2

theorem ends_execAndi (c : Nat) (rd : Nat) (rs1 : Nat) (imm : U16) (hs : s.Holds q) : Ends q (execAndi c rd rs1 imm s) := by
  unfold execAndi
  refine ends_actOn ?_ (fun s1 h2 => ?_)
  · exact hs
  · refine holds_modCore _ (fun k3 h4 => ?_) ?_
    · apply wf_aluI
      exact h4
    · exact h2

theorem ends_execShr (c : Nat) (rd : Nat) (rs1 : Nat) (rs2 : Nat) (hs : s.Holds q) : Ends q (execShr c rd rs1 rs2 s) := by
  unfold execShr
  refine ends_actOn ?_ (fun s1 h2 => ?_)
  · exact hs
  · refine holds_modCore _ (fun k3 h4 => ?_) ?_
    · apply wf_aluR
      exact h4
    · exact h2

theorem ends_execBr (c : Nat) (rs : Nat) (sense : Bool) (o : BitVec 13) (hs : s.Holds q) : Ends q (execBr c rs sense o s) := by
  unfold execBr
  refine ends_actOn ?_ (fun s1 h2 => ?_)
  · exact hs
  · refine holds_modCore _ (fun k3 h4 => ?_) ?_
    · apply wf_slotOr
      · intro k5 h6
        apply wf_branch
        exact h6
      · exact h4
    · exact h2

theorem ends_execXori (c : Nat) (rd : Nat) (rs1 : Nat) (imm : U16) (hs : s.Holds q) : Ends q (execXori c rd rs1 imm s) := by
  unfold execXori
  refine ends_actOn ?_ (fun s1 h2 => ?_)
  · exact hs
  · refine holds_modCore _ (fun k3 h4 => ?_) ?_
    · apply wf_aluI
      exact h4
    · exact h2

theorem ends_execFence (c : Nat) (hs : s.Holds q) : Ends q (execFence c s) := by
  unfold execFence
  refine ends_actOn ?_ (fun s1 h2 => ?_)
  · exact hs
  · refine holds_modCore _ (fun k3 h4 => ?_) ?_
    · apply wf_setHold
      exact h4
    · exact h2

theorem ends_execSetcnt (c : Nat) (k : Nat) (source : Nat) (hs : s.Holds q) : Ends q (execSetcnt c k source s) := by
  unfold execSetcnt
  refine ends_actOn ?_ (fun s1 h2 => ?_)
  · exact hs
  · refine holds_modCore _ (fun k3 h4 => ?_) ?_
    · apply wf_slotOr
      · intro k5 h6
        apply wf_setcnt
        exact h6
      · exact h4
    · exact h2

theorem ends_execTake (c : Nat) (hs : s.Holds q) : Ends q (execTake c s) := by
  unfold execTake
  refine ends_actOn ?_ (fun s1 h2 => ?_)
  · exact hs
  · refine holds_modCore _ (fun k3 h4 => ?_) ?_
    · apply wf_take
      exact h4
    · exact h2

theorem holds_longWord (c : Nat) (errs : List MemErr) (hs : s.Holds q) : (longWord c errs s).Holds q := by
  unfold longWord
  extract_lets k stops halt w
  have hh : ∀ (fs : List (Nat × Nat)) (s : State), s.Holds q → (halt fs s).Holds q := by
    intro fs s1 h1
    unfold halt
    split
    · exact h1
    · refine holds_modCore _ (fun k hk => wf_haltCore _ _ _ ?_) h1
      exact wf_upd (k := k) hk id id id id id id id id id id id id
  refine holds_ite (fun _ => hs) (fun _ => holds_ite (fun _ => hh _ _ hs) (fun _ => ?_))
  split
  rename_i s1 bad e1
  have h1 : s1.Holds q := holds_memErrors hs e1
  extract_lets fetch tag issue
  refine holds_ite (fun _ => hh _ _ h1) (fun _ => holds_ite (fun _ => h1) (fun _ => ?_))
  split
  · exact hh (_ :: _) _ h1
  · exact holds_issueWord _ _ h1

theorem ends_execLongWordIssue (c : Nat) (errs : List MemErr) (hs : s.Holds q) : Ends q (execLongWordIssue c errs s) := by
  unfold execLongWordIssue
  refine ends_actOn ?_ (fun s1 h2 => ?_)
  · exact hs
  · apply holds_longWord
    exact h2

theorem ends_execRdlp (c : Nat) (rd : Nat) (level : Nat) (hs : s.Holds q) : Ends q (execRdlp c rd level s) := by
  unfold execRdlp
  refine ends_actOn ?_ (fun s1 h2 => ?_)
  · exact hs
  · refine holds_modCore _ (fun k3 h4 => ?_) ?_
    · apply wf_rdlp
      exact h4
    · exact h2

theorem ends_execLd (c : Nat) (errs : List MemErr) (hs : s.Holds q) : Ends q (execLd c errs s) := by
  unfold execLd
  refine ends_actOn ?_ (fun s1 h2 => ?_)
  · exact hs
  · apply holds_scalarLoad
    exact h2

theorem ends_execAdd (c : Nat) (rd : Nat) (rs1 : Nat) (rs2 : Nat) (hs : s.Holds q) : Ends q (execAdd c rd rs1 rs2 s) := by
  unfold execAdd
  refine ends_actOn ?_ (fun s1 h2 => ?_)
  · exact hs
  · refine holds_modCore _ (fun k3 h4 => ?_) ?_
    · apply wf_aluR
      exact h4
    · exact h2

theorem ends_execOr (c : Nat) (rd : Nat) (rs1 : Nat) (rs2 : Nat) (hs : s.Holds q) : Ends q (execOr c rd rs1 rs2 s) := by
  unfold execOr
  refine ends_actOn ?_ (fun s1 h2 => ?_)
  · exact hs
  · refine holds_modCore _ (fun k3 h4 => ?_) ?_
    · apply wf_aluR
      exact h4
    · exact h2

theorem ends_execXor (c : Nat) (rd : Nat) (rs1 : Nat) (rs2 : Nat) (hs : s.Holds q) : Ends q (execXor c rd rs1 rs2 s) := by
  unfold execXor
  refine ends_actOn ?_ (fun s1 h2 => ?_)
  · exact hs
  · refine holds_modCore _ (fun k3 h4 => ?_) ?_
    · apply wf_aluR
      exact h4
    · exact h2

theorem ends_execShl (c : Nat) (rd : Nat) (rs1 : Nat) (rs2 : Nat) (hs : s.Holds q) : Ends q (execShl c rd rs1 rs2 s) := by
  unfold execShl
  refine ends_actOn ?_ (fun s1 h2 => ?_)
  · exact hs
  · refine holds_modCore _ (fun k3 h4 => ?_) ?_
    · apply wf_aluR
      exact h4
    · exact h2

theorem ends_execSra (c : Nat) (rd : Nat) (rs1 : Nat) (rs2 : Nat) (hs : s.Holds q) : Ends q (execSra c rd rs1 rs2 s) := by
  unfold execSra
  refine ends_actOn ?_ (fun s1 h2 => ?_)
  · exact hs
  · refine holds_modCore _ (fun k3 h4 => ?_) ?_
    · apply wf_aluR
      exact h4
    · exact h2

theorem ends_execSlt (c : Nat) (rd : Nat) (rs1 : Nat) (rs2 : Nat) (hs : s.Holds q) : Ends q (execSlt c rd rs1 rs2 s) := by
  unfold execSlt
  refine ends_actOn ?_ (fun s1 h2 => ?_)
  · exact hs
  · refine holds_modCore _ (fun k3 h4 => ?_) ?_
    · apply wf_aluR
      exact h4
    · exact h2

theorem ends_execAddi (c : Nat) (rd : Nat) (rs1 : Nat) (imm : U16) (hs : s.Holds q) : Ends q (execAddi c rd rs1 imm s) := by
  unfold execAddi
  refine ends_actOn ?_ (fun s1 h2 => ?_)
  · exact hs
  · refine holds_modCore _ (fun k3 h4 => ?_) ?_
    · apply wf_aluI
      exact h4
    · exact h2

theorem ends_execOri (c : Nat) (rd : Nat) (rs1 : Nat) (imm : U16) (hs : s.Holds q) : Ends q (execOri c rd rs1 imm s) := by
  unfold execOri
  refine ends_actOn ?_ (fun s1 h2 => ?_)
  · exact hs
  · refine holds_modCore _ (fun k3 h4 => ?_) ?_
    · apply wf_aluI
      exact h4
    · exact h2

theorem ends_execSt (c : Nat) (errs : List MemErr) (hs : s.Holds q) : Ends q (execSt c errs s) := by
  unfold execSt
  refine ends_actOn ?_ (fun s1 h2 => ?_)
  · exact hs
  · apply holds_scalarStore
    exact h2

theorem ends_execDput (c : Nat) (d : Nat) (n : Nat) (rs : Nat) (hs : s.Holds q) : Ends q (execDput c d n rs s) := by
  unfold execDput
  refine ends_actOn ?_ (fun s1 h2 => ?_)
  · exact hs
  · refine holds_modCore _ (fun k3 h4 => ?_) ?_
    · apply wf_dput
      exact h4
    · exact h2

theorem ends_execRdcnt (c : Nat) (rd : Nat) (k : Nat) (hs : s.Holds q) : Ends q (execRdcnt c rd k s) := by
  unfold execRdcnt
  refine ends_actOn ?_ (fun s1 h2 => ?_)
  · exact hs
  · refine holds_modCore _ (fun k3 h4 => ?_) ?_
    · apply wf_rdcnt
      exact h4
    · exact h2

theorem ends_execWait (c : Nat) (k : Nat) (hs : s.Holds q) : Ends q (execWait c k s) := by
  unfold execWait
  refine ends_actOn ?_ (fun s1 h2 => ?_)
  · exact hs
  · refine holds_modCore _ (fun k3 h4 => ?_) ?_
    · apply wf_setHold
      exact h4
    · exact h2

theorem ends_execWaitq (c : Nat) (engine : Nat) (depth : Nat) (hs : s.Holds q) : Ends q (execWaitq c engine depth s) := by
  unfold execWaitq
  refine ends_actOn ?_ (fun s1 h2 => ?_)
  · exact hs
  · refine holds_modCore _ (fun k3 h4 => ?_) ?_
    · apply wf_slotOr
      · intro k5 h6
        apply wf_setHold
        exact h6
      · exact h4
    · exact h2

theorem ends_execSyncRelease (c : Nat) (hs : s.Holds q) : Ends q (execSyncRelease c s) := by
  unfold execSyncRelease
  refine ends_actOn ?_ (fun s1 h2 => ?_)
  · exact hs
  · refine holds_modCore _ (fun k3 h4 => ?_) ?_
    · apply wf_syncRelease
      exact h4
    · exact h2

/-! ### Matrix -/

theorem wf_setTile (t : Nat) (v : U64) {k : Core} (hk : k.wf = true) : (setTile t v k).wf = true := by
  unfold setTile
  refine wf_upd (k := k) ?_ id id id id id id id id id id id (tableWf_tset _ _)
  exact hk

theorem wf_macInt (t : Nat) (a : Desc) (b : Desc) {k : Core} (hk : k.wf = true) : (macInt t a b k).wf = true := by
  unfold macInt
  extract_lets v1 v2 v3 v4 v5 k6
  have h7 : Core.wf k6 = true := by
    unfold k6
    refine wf_foldl (fun k8 x10 h9 => ?_) _ ?_
    · apply wf_accWrite
      exact h9
    · exact hk
  clear_value k6
  apply wf_setTile
  exact h7

theorem holds_engineErrs {c addr engine : Nat} {errs : List MemErr} {s' : State} {b : Bool} (hs : s.Holds q)
    (e : engineErrs c addr engine errs s = (s', b)) : s'.Holds q := by
  unfold engineErrs at e
  split at e
  rename_i s1 b1 e1
  have h1 : s1.Holds q := holds_memErrors hs e1
  split at e
  · cases e
    exact holds_modCore _ (fun k hk => wf_engineHalt _ _ _ hk) h1
  · cases e
    exact h1

theorem holds_shaped (c addr : Nat) (f : Option Nat) {t : State} (hs : s.Holds q) (ht : t.Holds q) : (shaped c addr f s t).Holds q := by
  unfold shaped
  split
  · exact holds_modCore _ (fun k hk => wf_engineHalt _ _ _ hk) hs
  · exact ht

theorem wf_matStart {k : Core} (hk : k.wf = true) : (matStart k).wf = true := by
  unfold matStart
  refine wf_upd (k := k) ?_ id id id id id id id id id id id id
  exact hk

theorem wf_macFloat (t : Nat) (a : Desc) (b : Desc) {k : Core} (hk : k.wf = true) : (macFloat t a b k).wf = true := by
  unfold macFloat
  extract_lets v1 v2 v3 v4 v5 k6
  have h7 : Core.wf k6 = true := by
    unfold k6
    refine wf_foldl (fun k8 x10 h9 => ?_) _ ?_
    · apply wf_accWrite
      exact h9
    · exact hk
  clear_value k6
  apply wf_setTile
  exact h7

theorem holds_macRun (c : Nat) (errs : List MemErr) (hs : s.Holds q) : (macRun c errs s).Holds q := by
  unfold macRun
  split
  · rename_i t a b int addr _
    extract_lets v1 v2 k3 v4
    split
    rename_i s6 b7 e8
    have h9 : State.Holds q s6 := holds_engineErrs hs e8
    apply holds_shaped
    · exact hs
    · refine holds_ite (fun _ => h9) (fun _ => ?_)
      refine holds_modCore _ (fun k10 h11 => ?_) h9
      apply wf_matStart
      cases int
      · exact wf_macFloat _ _ _ h11
      · exact wf_macInt _ _ _ h11
  · exact hs

theorem wf_preloadTile (t : Nat) (d : Desc) {k : Core} (hk : k.wf = true) : (preloadTile t d k).wf = true := by
  unfold preloadTile
  extract_lets v1 v2 v3 k4
  have h5 : Core.wf k4 = true := by
    unfold k4
    refine wf_foldl (fun k6 x8 h7 => ?_) _ ?_
    · apply wf_accWrite
      exact h7
    · exact hk
  clear_value k4
  apply wf_setTile
  exact h5

theorem holds_preloadRun (c : Nat) (errs : List MemErr) (hs : s.Holds q) : (preloadRun c errs s).Holds q := by
  unfold preloadRun
  split
  · extract_lets v1 k2
    have h3 : Core.wf k2 = true := by
      unfold k2
      refine getCore_wf (q := q) ?_ _
      exact hs
    clear_value k2
    split
    rename_i s4 b5 e6
    have h7 : State.Holds q s4 := by
      refine holds_engineErrs ?_ e6
      exact hs
    apply holds_shaped
    · exact hs
    · refine holds_ite (fun _ => ?_) (fun _ => ?_)
      · exact h7
      · refine holds_modCore _ (fun k8 h9 => ?_) ?_
        · apply wf_matStart
          apply wf_preloadTile
          exact h9
        · exact h7
  · exact hs

theorem wf_statsRow (t : Nat) (a : Desc) (old : Core) (i : Nat) {k : Core} (hk : k.wf = true) : (statsRow t a old k i).wf = true := by
  unfold statsRow
  extract_lets v1 v2 v3 v4 v5
  apply wf_Desc_put
  apply wf_Desc_put
  exact hk

theorem ends_execPreload (c : Nat) (errs : List MemErr) (hs : s.Holds q) : Ends q (execPreload c errs s) := by
  unfold execPreload
  refine ends_actOn ?_ (fun s1 h2 => ?_)
  · exact hs
  · apply holds_preloadRun
    exact h2

theorem wf_clearTile (t : Nat) {k : Core} (hk : k.wf = true) : (clearTile t k).wf = true := by
  unfold clearTile
  extract_lets v1
  apply wf_setTile
  apply wf_accWrite
  exact hk

theorem wf_drainTile (t : Nat) (a : Desc) (d : Desc) (clear : Bool) (stats : Bool) {k : Core} (hk : k.wf = true) : (drainTile t a d clear stats k).wf = true := by
  unfold drainTile
  extract_lets v1 k2 k3 k4
  have h5 : Core.wf k2 = true := by
    unfold k2
    refine wf_foldl (fun k6 x8 h7 => ?_) _ ?_
    · extract_lets v9
      refine wf_ite (fun _ => ?_) (fun _ => ?_)
      · apply wf_Desc_put
        exact h7
      · exact h7
    · exact hk
  clear_value k2
  have h10 : Core.wf k3 = true := by
    unfold k3
    apply wf_scrWrite
    exact h5
  clear_value k3
  have h11 : Core.wf k4 = true := by
    unfold k4
    refine wf_ite (fun _ => ?_) (fun _ => ?_)
    · refine wf_foldl (fun k12 x14 h13 => ?_) _ ?_
      · apply wf_statsRow
        exact h13
      · exact h10
    · exact h10
  clear_value k4
  refine wf_ite (fun _ => ?_) (fun _ => ?_)
  · apply wf_clearTile
    exact h11
  · exact h11

theorem holds_drainRun (c : Nat) (errs : List MemErr) (hs : s.Holds q) : (drainRun c errs s).Holds q := by
  unfold drainRun
  split
  · extract_lets v1 v2 k3 v4
    have h5 : Core.wf k3 = true := by
      unfold k3
      refine getCore_wf (q := q) ?_ _
      exact hs
    clear_value k3
    split
    rename_i s6 b7 e8
    have h9 : State.Holds q s6 := by
      refine holds_engineErrs ?_ e8
      exact hs
    apply holds_shaped
    · exact hs
    · refine holds_ite (fun _ => ?_) (fun _ => ?_)
      · exact h9
      · refine holds_modCore _ (fun k10 h11 => ?_) ?_
        · apply wf_matStart
          apply wf_drainTile
          exact h11
        · exact h9
  · exact hs

theorem ends_execDrain (c : Nat) (errs : List MemErr) (hs : s.Holds q) : Ends q (execDrain c errs s) := by
  unfold execDrain
  refine ends_actOn ?_ (fun s1 h2 => ?_)
  · exact hs
  · apply holds_drainRun
    exact h2

theorem ends_execMac (c : Nat) (errs : List MemErr) (hs : s.Holds q) : Ends q (execMac c errs s) := by
  unfold execMac
  refine ends_actOn ?_ (fun s1 h2 => ?_)
  · exact hs
  · apply holds_macRun
    exact h2

theorem wf_matrixDone {k : Core} (hk : k.wf = true) : (matrixDone k).wf = true := by
  unfold matrixDone
  refine wf_ite (fun _ => ?_) (fun _ => ?_)
  · apply wf_countEvent
    refine wf_upd (k := k) ?_ id id id id id id id id id id id id
    exact hk
  · exact hk

theorem ends_execMatrixOpComplete (c : Nat) (hs : s.Holds q) : Ends q (execMatrixOpComplete c s) := by
  unfold execMatrixOpComplete
  refine ends_actOn ?_ (fun s1 h2 => ?_)
  · exact hs
  · refine holds_modCore _ (fun k3 h4 => ?_) ?_
    · apply wf_matrixDone
      exact h4
    · exact h2

/-! ### Vector -/

theorem wf_vectorDone {k : Core} (hk : k.wf = true) : (vectorDone k).wf = true := by
  unfold vectorDone
  refine wf_ite (fun _ => ?_) (fun _ => ?_)
  · apply wf_countEvent
    refine wf_upd (k := k) ?_ id id id id id id id id id id id id
    exact hk
  · exact hk

theorem ends_execVectorPassComplete (c : Nat) (hs : s.Holds q) : Ends q (execVectorPassComplete c s) := by
  unfold execVectorPassComplete
  refine ends_actOn ?_ (fun s1 h2 => ?_)
  · exact hs
  · refine holds_modCore _ (fun k3 h4 => ?_) ?_
    · apply wf_vectorDone
      exact h4
    · exact h2

theorem wf_writeOut (p : Pass) (pl : Plan) (rs : List (List StageRes)) (o : Nat) {k : Core} (hk : k.wf = true) : (writeOut p pl rs o k).wf = true := by
  unfold writeOut
  extract_lets v1 v2 v3
  refine wf_ite (fun _ => ?_) (fun _ => ?_)
  · exact hk
  · refine wf_foldl (fun k4 x6 h5 => ?_) _ ?_
    · split
      extract_lets v7 v8
      refine wf_ite (fun _ => ?_) (fun _ => ?_)
      · refine wf_upd (k := k4) ?_ id id id id (memWf_mwrite _ _) id id id id id id id
        exact h5
      · apply wf_Desc_put
        exact h5
    · exact hk

theorem wf_rowTooLong (p : Pass) (n : Nat) {k : Core} (hk : k.wf = true) : (rowTooLong p n k).wf = true := by
  unfold rowTooLong
  extract_lets v1 v2
  apply wf_writeOut
  apply wf_writeOut
  exact hk

theorem holds_conserveFault (c : Nat) (base : Option Nat) (hs : s.Holds q) : (conserveFault c base s).Holds q := by
  unfold conserveFault
  split
  · apply holds_raise
    exact hs
  · exact hs

theorem holds_notePass (c : Nat) (n : PassNote) (hs : s.Holds q) : (notePass c n s).Holds q := by
  unfold notePass
  extract_lets s1 s2
  have h3 : State.Holds q s1 := by
    unfold s1
    split
    · apply holds_noteInitialRung
      exact hs
    · exact hs
  clear_value s1
  have h4 : State.Holds q s2 := by
    unfold s2
    split
    · apply holds_nonfiniteRange
      exact h3
    · exact h3
  clear_value s2
  apply holds_conserveFault
  exact h4

theorem wf_passEffect {s : State} {c : Nat} {p : Pass} {start stop : Bool} {k k' : Core} {note : PassNote}
    (e : passEffect s c p start stop k = .ok (k', note)) (hk : k.wf = true) : k'.wf = true := by
  unfold passEffect at e
  extract_lets quant old at e
  split at e
  extract_lets rs enc vs poison row groups after fin ws k1 k2 k3 k4 sum at e
  split at e
  · cases e
  · have e1 := (Prod.mk.inj (Except.ok.inj e)).1
    have h1 : k1.wf = true := wf_foldl (fun k x h => wf_scrWrite _ _ _ h) _ hk
    have h2 : k2.wf = true := wf_ite (fun _ => wf_writeOut _ _ _ _ (wf_writeOut _ _ _ _ h1)) (fun _ => h1)
    have h3 : k3.wf = true := wf_foldl (fun k x h => wf_scrWrite _ _ _ h) _ h2
    have h4 : k4.wf = true := wf_foldl (fun k x h => wf_countEvent _ h) _ h3
    rw [← e1]
    exact wf_upd (k := k4) h4 id id id id id id id id id id id id

theorem holds_vectorPass (c : Nat) (errs : List MemErr) (hs : s.Holds q) : (vectorPass c errs s).Holds q := by
  unfold vectorPass
  extract_lets k
  refine holds_ite (fun _ => hs) (fun _ => ?_)
  split
  · extract_lets p had es
    split
    rename_i s1 bad e1
    have h1 : s1.Holds q := holds_engineErrs hs e1
    refine holds_ite (fun _ => h1) (fun _ => ?_)
    split
    · exact holds_modCore _ (fun k hk => wf_engineHalt _ _ _ hk) h1
    · refine holds_ite (fun _ => holds_modCore _ (fun k hk => wf_engineHalt _ _ _ (wf_rowTooLong _ _ hk)) h1) (fun _ => ?_)
      split
      · exact holds_modCore _ (fun k hk => wf_engineHalt _ _ _ hk) h1
      · rename_i e2
        refine holds_notePass _ _ (holds_setCore _ ?_ h1)
        exact wf_upd (wf_passEffect e2 (getCore_wf h1 c)) id id id id id id id id id id id id
  · exact hs

theorem holds_vectorMerge (c : Nat) (inputs : List MergeIn) (out : Nat) (k : Nat) (errs : List MemErr) (hs : s.Holds q) : (vectorMerge c inputs out k errs s).Holds q := by
  unfold vectorMerge
  extract_lets k1 v2 v3 v4 v5
  have h6 : Core.wf k1 = true := by
    unfold k1
    refine getCore_wf (q := q) ?_ _
    exact hs
  clear_value k1
  refine holds_ite (fun _ => ?_) (fun _ => ?_)
  · exact hs
  · split
    rename_i s7 b8 e9
    have h10 : State.Holds q s7 := by
      refine holds_engineErrs ?_ e9
      exact hs
    refine holds_ite (fun _ => ?_) (fun _ => ?_)
    · exact h10
    · refine holds_ite (fun _ => ?_) (fun _ => ?_)
      · refine holds_modCore _ (fun k11 h12 => ?_) ?_
        · apply wf_engineHalt
          exact h12
        · exact h10
      · refine holds_ite (fun _ => ?_) (fun _ => ?_)
        · refine holds_modCore _ (fun k13 h14 => ?_) ?_
          · apply wf_engineHalt
            exact h14
          · exact h10
        · extract_lets s15
          have h16 : State.Holds q s15 := by
            unfold s15
            refine holds_modCore _ (fun k17 h18 => ?_) ?_
            · apply wf_countEvent
              extract_lets k19
              have h20 : Core.wf k19 = true := by
                unfold k19
                apply wf_scrWrite
                exact h18
              clear_value k19
              refine wf_upd (k := k19) ?_ id id id id id id id id id id id id
              exact h20
            · exact h10
          clear_value s15
          apply holds_conserveFault
          exact h16

theorem ends_execVectorRun (c : Nat) (job : VecJob) (errs : List MemErr) (hs : s.Holds q) : Ends q (execVectorRun c job errs s) := by
  unfold execVectorRun
  refine ends_actOn ?_ (fun s1 h2 => ?_)
  · exact hs
  · split
    · apply holds_vectorPass
      exact h2
    · apply holds_vectorMerge
      exact h2

/-! ### LoadStore -/

theorem holds_storeDone (c : Nat) (hs : s.Holds q) : (storeDone c s).Holds q := by
  unfold storeDone
  extract_lets s1
  have h2 : State.Holds q s1 := by
    unfold s1
    apply holds_openWaiting
    exact hs
  clear_value s1
  split
  · refine holds_modCore _ (fun k3 h4 => ?_) ?_
    · apply wf_countEvent
      refine wf_upd (k := k3) ?_ id id id id id id id id id id id id
      exact h4
    · exact h2
  · exact h2

theorem ends_execStoreComplete (c : Nat) (hs : s.Holds q) : Ends q (execStoreComplete c s) := by
  unfold execStoreComplete
  refine ends_actOn ?_ (fun s1 h2 => ?_)
  · exact hs
  · apply holds_storeDone
    exact h2

theorem wf_startStore (kind : JobKind) {k : Core} (hk : k.wf = true) : (startStore kind k).wf = true := by
  unfold startStore
  refine wf_upd (k := k) ?_ id id id id id id id id id id id id
  exact hk

theorem holds_storeFences (owner : Owner) (hs : s.Holds q) : (storeFences owner s).Holds q := by
  unfold storeFences
  refine holds_foldl (fun s1 x3 h2 => ?_) _ ?_
  · refine holds_ite (fun _ => ?_) (fun _ => ?_)
    · apply holds_modWell
      refine holds_same (s := s1) ?_ rfl rfl rfl rfl rfl rfl rfl rfl
      exact h2
    · exact h2
  · exact hs

theorem holds_storeRun (c : Nat) (errs : List MemErr) (hs : s.Holds q) : (storeRun c errs s).Holds q := by
  unfold storeRun
  split
  · extract_lets v1
    split
    rename_i s2 b3 e4
    have h5 : State.Holds q s2 := by
      refine holds_engineErrs ?_ e4
      exact hs
    refine holds_ite (fun _ => ?_) (fun _ => ?_)
    · exact h5
    · extract_lets k6 s7
      have h8 : Core.wf k6 = true := by
        unfold k6
        refine getCore_wf (q := q) ?_ _
        exact h5
      clear_value k6
      have h9 : State.Holds q s7 := by
        unfold s7
        refine holds_foldl (fun s10 x12 h11 => ?_) _ ?_
        · extract_lets v13 v14
          apply holds_postWriteAs
          exact h11
        · refine holds_modCore _ (fun k15 h16 => ?_) ?_
          · apply wf_startStore
            exact h16
          · exact h5
      clear_value s7
      refine holds_ite (fun _ => ?_) (fun _ => ?_)
      · apply holds_storeFences
        exact h9
      · exact h9
  · exact hs

theorem ends_execStore (c : Nat) (errs : List MemErr) (hs : s.Holds q) : Ends q (execStore c errs s) := by
  unfold execStore
  refine ends_actOn ?_ (fun s1 h2 => ?_)
  · exact hs
  · apply holds_storeRun
    exact h2

theorem holds_loadRow (c : Nat) (owner : Owner) (fuel a n dst : Nat) (hs : s.Holds q) : (loadRow c owner fuel a n dst s).Holds q := by
  induction fuel generalizing s a n dst with
  | zero => exact hs
  | succ fuel ih =>
    unfold loadRow
    refine holds_ite (fun _ => hs) (fun _ => ?_)
    split
    · exact ih _ _ _ (holds_setModeAt _ _ (holds_modCore _ (fun k hk => wf_scrWrite _ _ _ hk) hs))
    · exact ih _ _ _ (holds_foldl (fun _ _ h => holds_enqueueReq _ h) _ hs)

theorem wf_startLoad (kind : JobKind) {k : Core} (hk : k.wf = true) : (startLoad kind k).wf = true := by
  unfold startLoad
  refine wf_upd (k := k) ?_ id id id id id id id id id id id id
  exact hk

theorem holds_loadRun (c : Nat) (hs : s.Holds q) : (loadRun c s).Holds q := by
  unfold loadRun
  split
  · extract_lets v1 v2
    refine holds_foldl (fun s3 x5 h4 => ?_) _ ?_
    · apply holds_loadRow
      exact h4
    · refine holds_modCore _ (fun k6 h7 => ?_) ?_
      · apply wf_startLoad
        exact h7
      · exact hs
  · exact hs

theorem ends_execLoad (c : Nat) (hs : s.Holds q) : Ends q (execLoad c s) := by
  unfold execLoad
  refine ends_actOn ?_ (fun s1 h2 => ?_)
  · exact hs
  · apply holds_loadRun
    exact h2

theorem holds_openRun (c : Nat) (errs : List MemErr) (hs : s.Holds q) : (openRun c errs s).Holds q := by
  unfold openRun
  split
  · split
    rename_i s1 b2 e3
    have h4 : State.Holds q s1 := by
      refine holds_engineErrs ?_ e3
      exact hs
    refine holds_ite (fun _ => ?_) (fun _ => ?_)
    · exact h4
    · split
      refine holds_ite (fun _ => ?_) (fun _ => ?_)
      · refine holds_modCore _ (fun k5 h6 => ?_) ?_
        · apply wf_engineHalt
          exact h6
        · exact h4
      · refine holds_ite (fun _ => ?_) (fun _ => ?_)
        · apply holds_openReduction
          refine holds_modCore _ (fun k7 h8 => ?_) ?_
          · apply wf_startStore
            exact h8
          · exact h4
        · refine holds_modCore _ (fun k9 h10 => ?_) ?_
          · apply wf_startStore
            exact h10
          · exact h4
  · exact hs

theorem ends_execOpn (c : Nat) (errs : List MemErr) (hs : s.Holds q) : Ends q (execOpn c errs s) := by
  unfold execOpn
  refine ends_actOn ?_ (fun s1 h2 => ?_)
  · exact hs
  · apply holds_openRun
    exact h2

theorem wf_copyRow (from_ : Core) (src : Nat) (n : Nat) (dst : Nat) {k : Core} (hk : k.wf = true) : (copyRow from_ src n dst k).wf = true := by
  unfold copyRow
  extract_lets v1 k2
  have h3 : Core.wf k2 = true := by
    unfold k2
    apply wf_scrWrite
    exact hk
  clear_value k2
  refine wf_foldl (fun k4 x6 h5 => ?_) _ ?_
  · extract_lets v7 v8
    apply wf_scrWrite
    exact h5
  · exact h3

theorem holds_stcoreRun (c : Nat) (errs : List MemErr) (hs : s.Holds q) : (stcoreRun c errs s).Holds q := by
  unfold stcoreRun
  split
  · extract_lets v1
    split
    rename_i s2 b3 e4
    have h5 : State.Holds q s2 := by
      refine holds_engineErrs ?_ e4
      exact hs
    refine holds_ite (fun _ => ?_) (fun _ => ?_)
    · exact h5
    · extract_lets k6 s7
      have h8 : Core.wf k6 = true := by
        unfold k6
        refine getCore_wf (q := q) ?_ _
        exact h5
      clear_value k6
      have h9 : State.Holds q s7 := by
        unfold s7
        refine holds_modCore _ (fun k10 h11 => ?_) ?_
        · apply wf_startStore
          exact h11
        · exact h5
      clear_value s7
      refine holds_ite (fun _ => ?_) (fun _ => ?_)
      · refine holds_modCore _ (fun k12 h13 => ?_) ?_
        · refine wf_foldl (fun k14 x16 h15 => ?_) _ ?_
          · refine wf_ite (fun _ => ?_) (fun _ => ?_)
            · extract_lets k17
              have h18 : Core.wf k17 = true := by
                unfold k17
                apply wf_copyRow
                exact h15
              clear_value k17
              refine wf_upd (k := k17) ?_ id id id id id id id id id id id id
              exact h18
            · apply wf_copyRow
              exact h15
          · exact h13
        · exact h9
      · exact h9
  · exact hs

theorem holds_loadDone (c : Nat) (hs : s.Holds q) : (loadDone c s).Holds q := by
  unfold loadDone
  split
  · refine holds_modCore _ (fun k1 h2 => ?_) ?_
    · apply wf_countEvent
      refine wf_upd (k := k1) ?_ id id id id id id id id id id id id
      exact h2
    · exact hs
  · exact hs

theorem ends_execLoadComplete (c : Nat) (hs : s.Holds q) : Ends q (execLoadComplete c s) := by
  unfold execLoadComplete
  refine ends_actOn ?_ (fun s1 h2 => ?_)
  · exact hs
  · apply holds_loadDone
    exact h2

theorem holds_loadxRun (c : Nat) (hs : s.Holds q) : (loadxRun c s).Holds q := by
  unfold loadxRun
  split
  · extract_lets v1
    apply holds_modWell
    refine holds_modCore _ (fun k2 h3 => ?_) ?_
    · apply wf_startLoad
      exact h3
    · exact hs
  · exact hs

theorem ends_execLoadExpand (c : Nat) (hs : s.Holds q) : Ends q (execLoadExpand c s) := by
  unfold execLoadExpand
  refine ends_actOn ?_ (fun s1 h2 => ?_)
  · exact hs
  · apply holds_loadxRun
    exact h2

theorem holds_handTo (c : Nat) (g : Grp) (o : Op) (b : Bytes) (hs : s.Holds q) : (handTo c g o b s).Holds q := by
  unfold handTo
  extract_lets v1 v2 v3 v4 v5
  split
  refine holds_ite (fun _ => ?_) (fun _ => ?_)
  · exact hs
  · refine holds_ite (fun _ => ?_) (fun _ => ?_)
    · extract_lets v6 s7 v8
      have h9 : State.Holds q s7 := by
        unfold s7
        unfold v4
        apply holds_modOp
        apply holds_modGate
        refine holds_modCore _ (fun k10 h11 => ?_) ?_
        · apply wf_startStore
          exact h11
        · exact hs
      clear_value s7
      apply holds_releaseGate
      refine holds_foldl (fun s12 x14 h13 => ?_) _ ?_
      · refine holds_foldl (fun s15 x17 h16 => ?_) _ ?_
        · apply holds_reabsorbChunk
          exact h16
        · exact h13
      · exact h9
    · extract_lets v18 v19 s20
      have h21 : State.Holds q s20 := by
        unfold s20
        unfold v4
        apply holds_modOp
        apply holds_enqueueItem
        refine holds_modCore _ (fun k22 h23 => ?_) ?_
        · apply wf_startStore
          exact h23
        · exact hs
      clear_value s20
      refine holds_ite (fun _ => ?_) (fun _ => ?_)
      · apply holds_greenNotice
        exact h21
      · apply holds_sendNotice
        exact h21

theorem holds_handChecked (c : Nat) (g : Grp) (o : Op) (check : U64 × U64) (b : Bytes) (hs : s.Holds q) :
    (handChecked c g o check b s).Holds q := by
  unfold handChecked
  extract_lets h
  refine holds_ite (fun _ => ?_) (fun _ => ?_)
  · exact hs
  · apply holds_handTo
    apply holds_coreCheck
    exact hs

theorem holds_handoffRun (c : Nat) (errs : List MemErr) (check : U64 × U64) (hs : s.Holds q) :
    (handoffRun c errs check s).Holds q := by
  unfold handoffRun
  split
  · split
    rename_i s1 b2 e3
    have h4 : State.Holds q s1 := by
      refine holds_engineErrs ?_ e3
      exact hs
    refine holds_ite (fun _ => ?_) (fun _ => ?_)
    · exact h4
    · extract_lets v5 v6 v7 v8 s9
      have h10 : State.Holds q s9 := by
        unfold s9
        refine holds_modCore _ (fun k11 h12 => ?_) ?_
        · apply wf_startStore
          exact h12
        · exact h4
      clear_value s9
      split
      · refine holds_modCore _ (fun k13 h14 => ?_) ?_
        · apply wf_engineHalt
          exact h14
        · exact h4
      · split
        · refine holds_ite (fun _ => ?_) (fun _ => ?_)
          · exact h10
          · refine holds_ite (fun _ => ?_) (fun _ => ?_)
            · apply holds_forgeAccept
              exact h10
            · refine holds_ite (fun _ => ?_) (fun _ => ?_)
              · refine holds_modCore _ (fun k15 h16 => ?_) ?_
                · apply wf_engineHalt
                  exact h16
                · exact h4
              · refine holds_ite (fun _ => ?_) (fun _ => ?_)
                · exact h4
                · apply holds_handChecked
                  exact h4
        · refine holds_ite (fun _ => ?_) (fun _ => ?_)
          · exact h4
          · refine holds_modCore _ (fun k17 h18 => ?_) ?_
            · apply wf_engineHalt
              exact h18
            · exact h4
  · exact hs

theorem ends_execHandoff (c : Nat) (errs : List MemErr) (check : U64 × U64) (hs : s.Holds q) :
    Ends q (execHandoff c errs check s) := by
  unfold execHandoff
  refine ends_actOn ?_ (fun s1 h2 => ?_)
  · exact hs
  · apply holds_handoffRun
    exact h2

theorem ends_execStoreToCore (c : Nat) (errs : List MemErr) (hs : s.Holds q) : Ends q (execStoreToCore c errs s) := by
  unfold execStoreToCore
  refine ends_actOn ?_ (fun s1 h2 => ?_)
  · exact hs
  · apply holds_stcoreRun
    exact h2

end Sys2Proof.Machine
end

