-- ==== Sys2Proof/Laws/KeepRows.lean ====
section
/-! SUPPORT. Every meaning keeps the queue and the canonical form: the hinge, the market, notices, power, programs, cold layers, chunks, the steward and the registers. One lemma for each function:
`holds_<f>` and `wf_<f>` for what it does to a state or a core, `ends_<f>` for the outcome of a row. -/

namespace Sys2Proof.Machine

set_option Elab.async false

variable {q : List Instr} {s : State}

/-! ### Hinge -/

theorem holds_handOwn (b : Bytes) (hs : s.Holds q) : (handOwn b s).Holds q := by
  unfold handOwn
  extract_lets v1 v2 s3 v4
  have h5 : State.Holds q s3 := by
    unfold s3
    apply holds_modOp
    exact hs
  clear_value s3
  split
  · refine holds_ite (fun _ => ?_) (fun _ => ?_)
    · exact hs
    · split
      refine holds_ite (fun _ => ?_) (fun _ => ?_)
      · exact h5
      · extract_lets s6
        have h7 : State.Holds q s6 := by
          unfold s6
          apply holds_enqueueItem
          exact h5
        clear_value s6
        refine holds_ite (fun _ => ?_) (fun _ => ?_)
        · apply holds_greenNotice
          exact h7
        · apply holds_sendNotice
          exact h7
  · exact hs

theorem wf_askSave {k : Core} (hk : k.wf = true) : (askSave k).wf = true := by
  unfold askSave
  refine wf_upd (k := k) ?_ id id id id id id id id id id id id
  exact hk

theorem wf_askRestore {k : Core} (hk : k.wf = true) : (askRestore k).wf = true := by
  unfold askRestore
  refine wf_upd (k := k) ?_ id id id id id id id id id id id id
  exact hk

theorem holds_gatherMove (old : Option PhaseMap) (v : MoveRec) (hs : s.Holds q) : (gatherMove old v s).Holds q := by
  unfold gatherMove
  extract_lets v1 v2
  split
  · exact hs
  · extract_lets v3 s4 s5
    have h6 : State.Holds q s4 := by
      unfold s4
      apply holds_modOp
      apply holds_openReduction
      exact hs
    clear_value s4
    have h7 : State.Holds q s5 := by
      unfold s5
      refine holds_ite (fun _ => ?_) (fun _ => ?_)
      · apply holds_handOwn
        exact h6
      · exact h6
    clear_value s5
    refine holds_foldl (fun s8 x10 h9 => ?_) _ ?_
    · extract_lets v11 s12
      have h13 : State.Holds q s12 := by
        unfold s12
        refine holds_foldl (fun s14 x16 h15 => ?_) _ ?_
        · split
          · apply holds_handOwn
            exact h15
          · apply holds_handOwn
            exact h15
        · exact h9
      clear_value s12
      refine holds_foldl (fun s17 x19 h18 => ?_) _ ?_
      · apply holds_handOwn
        exact h18
      · exact h13
    · exact h7

theorem holds_broadcastMove (v : MoveRec) (hs : s.Holds q) : (broadcastMove v s).Holds q := by
  unfold broadcastMove
  extract_lets v1 s2
  have h3 : State.Holds q s2 := by
    unfold s2
    apply holds_modOp
    apply holds_openBcast
    exact hs
  clear_value s2
  split
  · refine holds_ite (fun _ => ?_) (fun _ => ?_)
    · exact hs
    · refine holds_foldl (fun s4 x6 h5 => ?_) _ ?_
      · split
        · apply holds_rootBroadcast
          exact h5
        · exact h5
      · exact h3
  · exact hs

theorem holds_doMove (old : Option PhaseMap) (v : MoveRec) (hs : s.Holds q) : (doMove old s v).Holds q := by
  unfold doMove
  refine holds_ite (fun _ => ?_) (fun _ => ?_)
  · apply holds_gatherMove
    exact hs
  · apply holds_broadcastMove
    exact hs

theorem holds_hingeSwitches (m : PhaseMap) (hs : s.Holds q) : (hingeSwitches m s).Holds q := by
  unfold hingeSwitches
  extract_lets v1 v2 s3
  have h4 : State.Holds q s3 := by
    unfold s3
    refine holds_same (s := s) ?_ rfl rfl rfl rfl rfl rfl rfl rfl
    exact hs
  clear_value s3
  refine holds_foldl (fun s5 x7 h6 => ?_) _ ?_
  · apply holds_doMove
    exact h6
  · apply holds_readContexts
    exact h4

theorem holds_hingeEnds (hs : s.Holds q) : (hingeEnds s).Holds q := by
  unfold hingeEnds
  refine holds_same (s := s) ?_ rfl rfl rfl rfl rfl rfl rfl rfl
  exact hs

theorem holds_hingeSwitch (rd : ReadEnd) (hs : s.Holds q) : (hingeSwitch rd s).Holds q := by
  unfold hingeSwitch
  refine holds_ite (fun _ => ?_) (fun _ => ?_)
  · exact hs
  · split
    · exact hs
    · refine holds_ite (fun _ => ?_) (fun _ => ?_)
      · extract_lets v1
        refine holds_ite (fun _ => ?_) (fun _ => ?_)
        · exact hs
        · refine holds_ite (fun _ => ?_) (fun _ => ?_)
          · apply holds_hingeSwitches
            apply holds_readsEnd
            exact hs
          · refine holds_foldl (fun s2 x4 h3 => ?_) _ ?_
            · refine holds_modCore _ (fun k5 h6 => ?_) ?_
              · apply wf_askSave
                exact h6
              · exact h3
            · exact hs
      · refine holds_ite (fun _ => ?_) (fun _ => ?_)
        · exact hs
        · extract_lets v7
          refine holds_ite (fun _ => ?_) (fun _ => ?_)
          · refine holds_foldl (fun s8 x10 h9 => ?_) _ ?_
            · refine holds_modCore _ (fun k11 h12 => ?_) ?_
              · apply wf_askRestore
                exact h12
              · exact h9
            · exact hs
          · refine holds_ite (fun _ => ?_) (fun _ => ?_)
            · exact hs
            · apply holds_hingeEnds
              exact hs

theorem ends_execHingeSwitch (rd : ReadEnd) (hs : s.Holds q) : Ends q (execHingeSwitch rd s) := by
  unfold execHingeSwitch
  refine ends_act ?_ (fun s1 h2 => ?_)
  · exact hs
  · apply holds_hingeSwitch
    exact h2

theorem holds_hingeStarts (v : Nat) (hs : s.Holds q) : (hingeStarts v s).Holds q := by
  unfold hingeStarts
  extract_lets v1 s2 v3
  have h4 : State.Holds q s2 := by
    unfold s2
    apply holds_popCmd
    exact hs
  clear_value s2
  split
  · apply holds_discardCmd
    exact hs
  · refine holds_ite (fun _ => ?_) (fun _ => ?_)
    · exact hs
    · extract_lets s5
      have h6 : State.Holds q s5 := by
        unfold s5
        refine holds_same (s := s2) ?_ rfl rfl rfl rfl rfl rfl rfl rfl
        exact h4
      clear_value s5
      apply holds_startWave
      exact h6

theorem ends_execHinge (hs : s.Holds q) : Ends q (execHinge s) := by
  unfold execHinge
  apply ends_onHead
  · intro x1 s2 h3
    apply holds_hingeStarts
    exact h3
  · exact hs

theorem holds_normOpens (hs : s.Holds q) : (normOpens s).Holds q := by
  unfold normOpens
  split
  · extract_lets v1 v2 v3 v4 s5
    have h6 : State.Holds q s5 := by
      unfold s5
      refine holds_same (s := s) ?_ rfl rfl rfl rfl rfl rfl rfl rfl
      exact hs
    clear_value s5
    refine holds_ite (fun _ => ?_) (fun _ => ?_)
    · exact hs
    · apply holds_handOwn
      apply holds_openReduction
      exact h6
  · exact hs

theorem ends_execNormOpen (hs : s.Holds q) : Ends q (execNormOpen s) := by
  unfold execNormOpen
  refine ends_act ?_ (fun s1 h2 => ?_)
  · exact hs
  · apply holds_normOpens
    exact h2

/-! ### Market -/

theorem ends_onMarket (op : Nat) (pass : Option Nat) {f : CtxRec → MOp → Nat → State → State} (hf : ∀ a0 a1 a2 (x : State), x.Holds q → (f a0 a1 a2 x).Holds q) (hs : s.Holds q) : Ends q (onMarket op s pass f) := by
  unfold onMarket
  apply ends_onHead
  · intro x1 s2 h3
    extract_lets v4 v5 v6
    refine holds_ite (fun _ => ?_) (fun _ => ?_)
    · exact h3
    · split
      · apply holds_discardCmd
        exact h3
      · refine holds_ite (fun _ => ?_) (fun _ => ?_)
        · apply holds_discardCmd
          exact h3
        · split
          · exact h3
          · refine holds_ite (fun _ => ?_) (fun _ => ?_)
            · exact h3
            · apply hf
              apply holds_popCmd
              exact h3
  · exact hs

theorem holds_flaggedTokens (m : MOp) (recs : List SieveRec) (hs : s.Holds q) : (flaggedTokens m recs s).Holds q := by
  unfold flaggedTokens
  refine holds_foldl (fun s1 x3 h2 => ?_) _ ?_
  · split
    refine holds_ite (fun _ => ?_) (fun _ => ?_)
    · apply holds_raise
      exact h2
    · exact h2
  · exact hs

theorem holds_modCtx (c : Nat) (f : Ctx → Ctx) (hs : s.Holds q) : (modCtx c f s).Holds q := by
  unfold modCtx
  refine holds_same (s := s) ?_ rfl rfl rfl rfl rfl rfl rfl rfl
  exact hs

theorem holds_routeFault (why : Route) (unit : Nat) (type : Nat) (info : Nat) (dst : Nat) (hs : s.Holds q) : (routeFault why unit type info dst s).Holds q := by
  unfold routeFault
  split
  · apply holds_raise
    exact hs
  · apply holds_raise
    exact hs
  · exact hs

theorem holds_sendFrame (r : CtxRec) (m : MOp) (dst : Nat) (body : Bytes) (hs : s.Holds q) : (sendFrame r m dst body s).Holds q := by
  unfold sendFrame
  split
  · refine holds_same (s := s) ?_ rfl rfl rfl rfl rfl rfl rfl rfl
    exact hs
  · apply holds_modGate
    exact hs
  · apply holds_routeFault
    exact hs

theorem holds_sendMktChunk (r : CtxRec) (m : MOp) (dst : Nat) (b : Bytes) (hs : s.Holds q) : (sendMktChunk r m dst b s).Holds q := by
  unfold sendMktChunk
  split
  · apply holds_modGate
    exact hs
  · apply holds_enqueueItem
    exact hs
  · apply holds_routeFault
    exact hs

theorem holds_sendRowFrames (r : CtxRec) (m : MOp) (step : Nat) (dst : Nat) (type : Nat) (place : Nat) (row : Bytes) (hs : s.Holds q) : (sendRowFrames r m step dst type place row s).Holds q := by
  unfold sendRowFrames
  refine holds_foldl (fun s1 x3 h2 => ?_) _ ?_
  · apply holds_sendFrame
    exact h2
  · exact hs

theorem holds_sendRouted (r : CtxRec) (mode : Nat) (m : MOp) (step : Nat) (insts : List (Nat × Nat)) (cs : List Copy) (hs : s.Holds q) : (sendRouted r mode m step insts cs s).Holds q := by
  unfold sendRouted
  extract_lets v1
  refine holds_ite (fun _ => ?_) (fun _ => ?_)
  · refine holds_foldl (fun s2 x4 h3 => ?_) _ ?_
    · apply holds_sendFrame
      exact h3
    · exact hs
  · refine holds_ite (fun _ => ?_) (fun _ => ?_)
    · refine holds_foldl (fun s5 x7 h6 => ?_) _ ?_
      · extract_lets v8
        apply holds_sendMktChunk
        exact h6
      · exact hs
    · refine holds_foldl (fun s9 x11 h10 => ?_) _ ?_
      · apply holds_sendRowFrames
        exact h10
      · exact hs

theorem holds_dispatchForward (rd : ReadEnd) (r : CtxRec) (m : MOp) (step : Nat) (hs : s.Holds q) : (dispatchForward rd r m step s).Holds q := by
  unfold dispatchForward
  extract_lets s1 v2 v3 v4 v5 v6 v7 v8 v9 s10 v11 v12 v13 s14
  have h15 : State.Holds q s1 := by
    unfold s1
    apply holds_readsEnd
    exact hs
  clear_value s1
  have h16 : State.Holds q s10 := by
    unfold s10
    apply holds_flaggedTokens
    apply holds_postWrite
    exact h15
  clear_value s10
  have h17 : State.Holds q s14 := by
    unfold s14
    apply holds_modCtx
    exact h16
  clear_value s14
  apply holds_sendRouted
  exact h17

theorem ends_execDispatchForward (rd : ReadEnd) (hs : s.Holds q) : Ends q (execDispatchForward rd s) := by
  unfold execDispatchForward
  apply ends_onMarket
  · intro x1 x2 x3 s4 h5
    apply holds_dispatchForward
    exact h5
  · exact hs

theorem holds_postStream (r : CtxRec) (m : MOp) (step : Nat) (fmt : Nat) (dst : Nat) (start : Nat) (bs : Bytes) (bad : Nat → Bool) (hs : s.Holds q) : (postStream r m step fmt dst start bs bad s).Holds q := by
  unfold postStream
  refine holds_foldl (fun s1 x3 h2 => ?_) _ ?_
  · apply holds_sendMktChunk
    exact h2
  · exact hs

theorem holds_postRows (rd : ReadEnd) (r : CtxRec) (m : MOp) (step : Nat) (dst : Nat) (slot : Nat) (tokens : List Nat) (hs : s.Holds q) : (postRows rd r m step dst slot tokens s).Holds q := by
  unfold postRows
  extract_lets v1 v2 v3
  apply holds_postStream
  exact hs

theorem holds_dispatchReplay (rd : ReadEnd) (r : CtxRec) (m : MOp) (step : Nat) (hs : s.Holds q) : (dispatchReplay rd r m step s).Holds q := by
  unfold dispatchReplay
  extract_lets s1 v2 v3 v4 v5 v6 s7
  have h8 : State.Holds q s1 := by
    unfold s1
    apply holds_readsEnd
    exact hs
  clear_value s1
  have h9 : State.Holds q s7 := by
    unfold s7
    apply holds_modCtx
    exact h8
  clear_value s7
  refine holds_foldl (fun s10 x12 h11 => ?_) _ ?_
  · refine holds_ite (fun _ => ?_) (fun _ => ?_)
    · refine holds_foldl (fun s13 x15 h14 => ?_) _ ?_
      · apply holds_sendRowFrames
        exact h14
      · exact h11
    · apply holds_postRows
      exact h11
  · exact h9

theorem holds_setCtxBit (c : Nat) (bit : Nat) (hs : s.Holds q) : (setCtxBit c bit s).Holds q := by
  unfold setCtxBit
  apply holds_modCtx
  exact hs

theorem holds_headerFlag (r : CtxRec) (layer : Nat) (t : Nat) (bit : Nat) (hs : s.Holds q) : (headerFlag r layer t bit s).Holds q := by
  unfold headerFlag
  extract_lets v1
  apply holds_postWrite
  exact hs

theorem ends_execDispatchReplay (rd : ReadEnd) (hs : s.Holds q) : Ends q (execDispatchReplay rd s) := by
  unfold execDispatchReplay
  apply ends_onMarket
  · intro x1 x2 x3 s4 h5
    apply holds_dispatchReplay
    exact h5
  · exact hs

theorem holds_writeEntry (r : CtxRec) (layer : Nat) (e : BookEnt) (word : Nat) (slot : Nat) (hs : s.Holds q) : (writeEntry r layer e word slot s).Holds q := by
  unfold writeEntry
  apply holds_postWrite
  exact hs

theorem holds_cutCopy (r : CtxRec) (layer : Nat) (bit : Nat) (e : BookEnt) (hs : s.Holds q) : (cutCopy r layer bit s e).Holds q := by
  unfold cutCopy
  apply holds_headerFlag
  apply holds_writeEntry
  exact hs

theorem holds_postRange (rd : ReadEnd) (m : MOp) (r : CtxRec) (step : Nat) (dst : Nat) (slot : Nat) (es : List BookEnt) (hs : s.Holds q) : (postRange rd m r step dst slot es s).Holds q := by
  unfold postRange
  extract_lets s1
  have h2 : State.Holds q s1 := by
    unfold s1
    refine holds_foldl (fun s3 x5 h4 => ?_) _ ?_
    · split
      apply holds_writeEntry
      exact h4
    · exact hs
  clear_value s1
  apply holds_postRows
  exact h2

theorem holds_refuseRange (m : MOp) (r : CtxRec) (step : Nat) (g : MRange) (hs : s.Holds q) : (refuseRange m r step g s).Holds q := by
  unfold refuseRange
  extract_lets s1
  have h2 : State.Holds q s1 := by
    unfold s1
    refine holds_foldl (fun s3 x5 h4 => ?_) _ ?_
    · apply holds_cutCopy
      exact h4
    · exact hs
  clear_value s1
  apply holds_setModeAt
  apply holds_setCtxBit
  exact h2

/-! ### Power -/

theorem holds_idle (hs : s.Holds q) : (idle s).Holds q := by
  unfold idle
  refine holds_ite (fun _ => ?_) (fun _ => ?_)
  · refine holds_same (s := s) ?_ rfl rfl rfl rfl rfl rfl rfl rfl
    exact hs
  · exact hs

theorem holds_resetBase (hs : s.Holds q) : (resetBase s).Holds q :=
  holds_upd hs rfl id id (fun _ e he => by cases he) (fun _ => rfl) (fun _ => tableWf_built _ _ _ _) (fun _ => rfl) (fun _ => rfl)
    (fun _ => Nat.zero_le _)

theorem holds_softResetTo (cause : Nat) (hs : s.Holds q) : (softResetTo cause s).Holds q :=
  holds_upd (holds_resetBase hs) rfl id id id id id id (fun _ => tableWf_built _ _ _ _) id

theorem ends_execRomSelfTest (pass : Bool) (hs : s.Holds q) : Ends q (execRomSelfTest pass s) := by
  unfold execRomSelfTest
  refine ends_act ?_ (fun s1 h2 => ?_)
  · exact hs
  · refine holds_ite (fun _ => ?_) (fun _ => ?_)
    · exact h2
    · refine holds_ite (fun _ => ?_) (fun _ => ?_)
      · refine holds_same (s := s1) ?_ rfl rfl rfl rfl rfl rfl rfl rfl
        exact h2
      · refine holds_same (s := s1) ?_ rfl rfl rfl rfl rfl rfl rfl rfl
        exact h2

theorem holds_setWrap (w : WrapIns) (hs : s.Holds q) : (setWrap w s).Holds q := by
  unfold setWrap
  refine holds_ite (fun _ => ?_) (fun _ => ?_)
  · refine holds_same (s := s) ?_ rfl rfl rfl rfl rfl rfl rfl rfl
    exact hs
  · exact hs

theorem ends_execSvMbist (hs : s.Holds q) : Ends q (execSvMbist s) := by
  unfold execSvMbist
  refine ends_next ?_
  apply holds_setWrap
  exact hs

theorem holds_powerReset (hs : s.Holds q) : (powerReset s).Holds q := by
  unfold powerReset
  apply holds_resetBase
  exact hs

theorem ends_execSvIdcode (hs : s.Holds q) : Ends q (execSvIdcode s) := by
  unfold execSvIdcode
  refine ends_next ?_
  refine holds_ite (fun _ => ?_) (fun _ => ?_)
  · extract_lets s1 v2
    have h3 : State.Holds q s1 := by
      unfold s1
      apply holds_setWrap
      exact hs
    clear_value s1
    refine holds_same (s := s1) ?_ rfl rfl rfl rfl rfl rfl rfl rfl
    exact h3
  · exact hs

theorem ends_execSoftReset (low : Bool) (hs : s.Holds q) : Ends q (execSoftReset low s) := by
  unfold execSoftReset
  extract_lets v1 s2
  have h3 : State.Holds q s2 := by
    unfold s2
    refine holds_same (s := s) ?_ rfl rfl rfl rfl rfl rfl rfl rfl
    exact hs
  clear_value s2
  refine ends_ite (fun _ => ?_) (fun _ => ?_)
  · refine ends_ite (fun _ => ?_) (fun _ => ?_)
    · refine ends_next ?_
      apply holds_softResetTo
      exact h3
    · refine ends_next ?_
      apply holds_powerReset
      exact h3
  · refine ends_next ?_
    exact h3

theorem ends_execWsExtest (hs : s.Holds q) : Ends q (execWsExtest s) := by
  unfold execWsExtest
  refine ends_next ?_
  apply holds_setWrap
  exact hs

theorem holds_setSupply (p : Supply) (v : Bool) (hs : s.Holds q) : (setSupply p v s).Holds q := by
  unfold setSupply
  split
  · refine holds_same (s := s) ?_ rfl rfl rfl rfl rfl rfl rfl rfl
    exact hs
  · refine holds_same (s := s) ?_ rfl rfl rfl rfl rfl rfl rfl rfl
    exact hs
  · refine holds_same (s := s) ?_ rfl rfl rfl rfl rfl rfl rfl rfl
    exact hs

theorem ends_execPowerGoodRise (p : Supply) (hs : s.Holds q) : Ends q (execPowerGoodRise p s) := by
  unfold execPowerGoodRise
  refine ends_next ?_
  apply holds_setSupply
  exact hs

theorem ends_execPowerGoodFall (p : Supply) (hs : s.Holds q) : Ends q (execPowerGoodFall p s) := by
  unfold execPowerGoodFall
  extract_lets s1
  have h2 : State.Holds q s1 := by
    unfold s1
    apply holds_setSupply
    exact hs
  clear_value s1
  split
  · refine ends_next ?_
    apply holds_powerReset
    exact h2
  · refine ends_ite (fun _ => ?_) (fun _ => ?_)
    · refine ends_next ?_
      exact h2
    · refine ends_ite (fun _ => ?_) (fun _ => ?_)
      · refine ends_next ?_
        exact h2
      · refine ends_next ?_
        apply holds_softResetTo
        exact h2

theorem ends_execPowerOnReset (low : Bool) (hs : s.Holds q) : Ends q (execPowerOnReset low s) := by
  unfold execPowerOnReset
  refine ends_ite (fun _ => ?_) (fun _ => ?_)
  · refine ends_next ?_
    apply holds_powerReset
    refine holds_same (s := s) ?_ rfl rfl rfl rfl rfl rfl rfl rfl
    exact hs
  · refine ends_next ?_
    refine holds_same (s := s) ?_ rfl rfl rfl rfl rfl rfl rfl rfl
    exact hs

theorem ends_execWsBypass (hs : s.Holds q) : Ends q (execWsBypass s) := by
  unfold execWsBypass
  refine ends_next ?_
  apply holds_setWrap
  exact hs

theorem ends_execWsIntestScan (hs : s.Holds q) : Ends q (execWsIntestScan s) := by
  unfold execWsIntestScan
  refine ends_next ?_
  apply holds_setWrap
  exact hs

/-! ### Notice -/

theorem holds_popRx (g : Nat) (vc : Nat) (n : Nat) (hs : s.Holds q) : (popRx g vc n s).Holds q := by
  unfold popRx
  apply holds_modGate
  exact hs

theorem holds_popNotice (g : Nat) (via : Via) (hs : s.Holds q) : (popNotice g via s).Holds q := by
  unfold popNotice
  split
  · apply holds_popRx
    exact hs
  · apply holds_modGate
    exact hs

theorem holds_mktDiscard (g : Nat) (n : Bytes) (reason : Nat) (hs : s.Holds q) : (mktDiscard g n reason s).Holds q := by
  unfold mktDiscard
  extract_lets v1 s2
  have h3 : State.Holds q s2 := by
    unfold s2
    apply holds_modGate
    exact hs
  clear_value s2
  apply holds_sendResend
  apply holds_takeBackAll
  exact h3

theorem ends_onNotice (g : Nat) (via : Via) (code : Nat) {f : Bytes → State → State} (hf : ∀ a0 (x : State), x.Holds q → (f a0 x).Holds q) (hs : s.Holds q) : Ends q (onNotice g via code s f) := by
  unfold onNotice
  refine ends_actOn ?_ (fun s1 h2 => ?_)
  · exact hs
  · split
    · refine holds_ite (fun _ => ?_) (fun _ => ?_)
      · apply hf
        apply holds_popNotice
        exact h2
      · exact h2
    · exact h2

theorem ends_execStepNoticeDown (g : Nat) (hs : s.Holds q) : Ends q (execStepNoticeDown g s) := by
  unfold execStepNoticeDown
  apply ends_onNotice
  · intro x1 s2 h3
    refine holds_ite (fun _ => ?_) (fun _ => ?_)
    · apply holds_stepDownArrives
      exact h3
    · exact hs
  · exact hs

theorem holds_mktBoltArrives (g : Nat) (n : Bytes) (hs : s.Holds q) : (mktBoltArrives g n s).Holds q := by
  unfold mktBoltArrives
  extract_lets v1 s2
  have h3 : State.Holds q s2 := by
    unfold s2
    apply holds_modGate
    exact hs
  clear_value s2
  split
  · exact hs
  · refine holds_ite (fun _ => ?_) (fun _ => ?_)
    · apply holds_modGate
      exact hs
    · apply holds_mktDiscard
      apply holds_gateFault
      apply holds_gateFault
      exact h3

theorem holds_loadedOr (code : Nat) (g : Nat) (n : Bytes) {f : State → State} (hf : ∀ (x : State), x.Holds q → (f x).Holds q) (hs : s.Holds q) : (loadedOr code g n s f).Holds q := by
  unfold loadedOr
  extract_lets v1
  refine holds_ite (fun _ => ?_) (fun _ => ?_)
  · apply hf
    exact hs
  · apply holds_gateFault
    exact hs

theorem holds_mktRevokeArrives (g : Nat) (n : Bytes) (hs : s.Holds q) : (mktRevokeArrives g n s).Holds q := by
  unfold mktRevokeArrives
  extract_lets v1
  refine holds_ite (fun _ => ?_) (fun _ => ?_)
  · apply holds_mktDiscard
    exact hs
  · apply holds_gateFault
    exact hs

theorem ends_execRevokeNotice (g : Nat) (via : Via) (hs : s.Holds q) : Ends q (execRevokeNotice g via s) := by
  unfold execRevokeNotice
  apply ends_onNotice
  · intro x1 s2 h3
    apply holds_loadedOr
    · intro s4 h5
      refine holds_ite (fun _ => ?_) (fun _ => ?_)
      · apply holds_mktRevokeArrives
        exact h5
      · apply holds_revokeArrives
        exact h5
    · exact h3
  · exact hs

theorem holds_cackArrives (g : Nat) (green : Bool) (n : Bytes) (hs : s.Holds q) : (cackArrives g green n s).Holds q := by
  unfold cackArrives
  extract_lets v1 v2
  apply holds_releaseGate
  apply holds_modGate
  exact hs

theorem ends_execResendNotice (g : Nat) (via : Via) (hs : s.Holds q) : Ends q (execResendNotice g via s) := by
  unfold execResendNotice
  apply ends_onNotice
  · intro x1 s2 h3
    apply holds_loadedOr
    · intro s4 h5
      apply holds_resendArrives
      exact h5
    · exact h3
  · exact hs

theorem ends_execBoltNotice (g : Nat) (via : Via) (hs : s.Holds q) : Ends q (execBoltNotice g via s) := by
  unfold execBoltNotice
  apply ends_onNotice
  · intro x1 s2 h3
    apply holds_loadedOr
    · intro s4 h5
      refine holds_ite (fun _ => ?_) (fun _ => ?_)
      · apply holds_mktBoltArrives
        exact h5
      · apply holds_boltArrives
        exact h5
    · exact h3
  · exact hs

theorem ends_execCloseNotice (g : Nat) (via : Via) (hs : s.Holds q) : Ends q (execCloseNotice g via s) := by
  unfold execCloseNotice
  apply ends_onNotice
  · intro x1 s2 h3
    apply holds_closeArrives
    exact h3
  · exact hs

theorem ends_execCackNotice (g : Nat) (via : Via) (hs : s.Holds q) : Ends q (execCackNotice g via s) := by
  unfold execCackNotice
  apply ends_onNotice
  · intro x1 s2 h3
    apply holds_loadedOr
    · intro s4 h5
      apply holds_cackArrives
      exact h5
    · exact h3
  · exact hs

theorem ends_execAskNotice (g : Nat) (via : Via) (hs : s.Holds q) : Ends q (execAskNotice g via s) := by
  unfold execAskNotice
  apply ends_onNotice
  · intro x1 s2 h3
    apply holds_askArrives
    exact h3
  · exact hs

theorem ends_execGrantNotice (g : Nat) (via : Via) (hs : s.Holds q) : Ends q (execGrantNotice g via s) := by
  unfold execGrantNotice
  apply ends_onNotice
  · intro x1 s2 h3
    apply holds_loadedOr
    · intro s4 h5
      apply holds_grantArrives
      exact h5
    · exact h3
  · exact hs

theorem ends_execStepNoticeUp (g : Option Nat) (hs : s.Holds q) : Ends q (execStepNoticeUp g s) := by
  unfold execStepNoticeUp
  split
  · refine ends_act ?_ (fun s1 h2 => ?_)
    · exact hs
    · apply holds_advanceAll
      exact h2
  · apply ends_onNotice
    · intro x3 s4 h5
      refine holds_ite (fun _ => ?_) (fun _ => ?_)
      · exact hs
      · apply holds_stepUpArrives
        exact h5
    · exact hs

/-! ### MarketGate -/

theorem holds_pushFrame (f : MFrame) (hs : s.Holds q) : (pushFrame f s).Holds q := by
  unfold pushFrame
  refine holds_same (s := s) ?_ rfl rfl rfl rfl rfl rfl rfl rfl
  exact hs

theorem holds_tokenBolts (r : CtxRec) (m : MOp) (b : Bytes) (hs : s.Holds q) : (tokenBolts r m b s).Holds q := by
  unfold tokenBolts
  extract_lets v1 v2 v3 v4 v5
  refine holds_ite (fun _ => ?_) (fun _ => ?_)
  · apply holds_postWrite
    unfold v2
    refine holds_ite (fun _ => ?_) (fun _ => ?_)
    · apply holds_modCtx
      exact hs
    · exact hs
  · apply holds_postWrite
    unfold v2
    refine holds_ite (fun _ => ?_) (fun _ => ?_)
    · apply holds_modCtx
      exact hs
    · exact hs

theorem holds_padStall (r : CtxRec) (layer : Nat) (c : Nat) (a : Alloc) (hs : s.Holds q) : (padStall r layer c s a).Holds q := by
  unfold padStall
  extract_lets v1 v2 v3
  refine holds_ite (fun _ => ?_) (fun _ => ?_)
  · exact hs
  · apply holds_postWrite
    apply holds_postWrite
    exact hs

theorem holds_writeTags (r : CtxRec) (layer : Nat) (p : Nat × Nat × Nat × Nat) (hs : s.Holds q) : (writeTags r layer s p).Holds q := by
  unfold writeTags
  split
  apply holds_postWrite
  exact hs

theorem holds_addCount (c : Nat) (i : MInst) (hs : s.Holds q) : (addCount c s i).Holds q := by
  unfold addCount
  split
  extract_lets v1 s2
  have h3 : State.Holds q s2 := by
    unfold s2
    refine holds_same (s := s) ?_ rfl rfl rfl rfl rfl rfl rfl rfl
    exact hs
  clear_value s2
  refine holds_ite (fun _ => ?_) (fun _ => ?_)
  · apply holds_setCtxBit
    exact h3
  · exact h3

theorem holds_allocated (m : MOp) (r : CtxRec) (insts : List MInst) (expect : List MRange) (hs : s.Holds q) : (allocated m r insts expect s).Holds q := by
  unfold allocated
  extract_lets s1
  have h2 : State.Holds q s1 := by
    unfold s1
    apply holds_modCtx
    exact hs
  clear_value s1
  refine holds_ite (fun _ => ?_) (fun _ => ?_)
  · refine holds_foldl (fun s3 x5 h4 => ?_) _ ?_
    · apply holds_addCount
      exact h4
    · exact h2
  · exact h2

theorem holds_replyTo (r : CtxRec) (m : MOp) (x : Ctx) (as : List (Alloc × Nat)) (src : Nat) (hs : s.Holds q) : (replyTo r m x as s src).Holds q := by
  unfold replyTo
  extract_lets v1 v2 v3
  refine holds_ite (fun _ => ?_) (fun _ => ?_)
  · exact hs
  · apply holds_sendMktChunk
    exact hs

theorem holds_capacityAdmit (c : Nat) (hs : s.Holds q) : (capacityAdmit c s).Holds q := by
  unfold capacityAdmit
  extract_lets v1 v2
  split
  · exact hs
  · refine holds_ite (fun _ => ?_) (fun _ => ?_)
    · exact hs
    · extract_lets v3 v4 v5 v6 v7 v8 s9 v10 v11 s12 v13 s14 s15
      have h16 : State.Holds q s9 := by
        unfold s9
        refine holds_foldl (fun s17 x19 h18 => ?_) _ ?_
        · apply holds_padStall
          refine holds_foldl (fun s20 x22 h21 => ?_) _ ?_
          · apply holds_writeTags
            exact h21
          · exact h18
        · exact hs
      clear_value s9
      have h23 : State.Holds q s12 := by
        unfold s12
        apply holds_allocated
        exact h16
      clear_value s12
      have h24 : State.Holds q s14 := by
        unfold s14
        apply holds_modCtx
        exact h23
      clear_value s14
      have h25 : State.Holds q s15 := by
        unfold s15
        refine holds_ite (fun _ => ?_) (fun _ => ?_)
        · apply holds_setModeAt
          exact h24
        · exact h24
      clear_value s15
      refine holds_foldl (fun s26 x28 h27 => ?_) _ ?_
      · apply holds_replyTo
        exact h27
      · exact h25

theorem ends_onFrame (counts : Bool) (type : Nat) (mode : Nat) {f : CtxRec → MOp → MFrame → State → State} (hf : ∀ a0 a1 a2 (x : State), x.Holds q → (f a0 a1 a2 x).Holds q) (hs : s.Holds q) : Ends q (onFrame counts type mode s f) := by
  unfold onFrame
  refine ends_act ?_ (fun s1 h2 => ?_)
  · exact hs
  · extract_lets v3 v4
    split
    · exact h2
    · extract_lets s5 v6
      have h7 : State.Holds q s5 := by
        unfold s5
        refine holds_same (s := s1) ?_ rfl rfl rfl rfl rfl rfl rfl rfl
        exact h2
      clear_value s5
      split
      · apply holds_raise
        exact h7
      · refine holds_ite (fun _ => ?_) (fun _ => ?_)
        · apply holds_raise
          exact h7
        · refine holds_ite (fun _ => ?_) (fun _ => ?_)
          · apply holds_raise
            exact h7
          · apply hf
            exact h7

theorem holds_takeCounts (r : CtxRec) (m : MOp) (f : MFrame) (hs : s.Holds q) : (takeCounts r m f s).Holds q := by
  unfold takeCounts
  extract_lets v1
  refine holds_ite (fun _ => ?_) (fun _ => ?_)
  · apply holds_raise
    exact hs
  · apply holds_modCtx
    exact hs

theorem ends_execCountsRequest (hs : s.Holds q) : Ends q (execCountsRequest s) := by
  unfold execCountsRequest
  apply ends_onFrame
  · intro x1 x2 x3 s4 h5
    apply holds_takeCounts
    exact h5
  · exact hs

theorem holds_combineTimeout (c : Nat) (hs : s.Holds q) : (combineTimeout c s).Holds q := by
  unfold combineTimeout
  extract_lets v1
  split
  · exact hs
  · refine holds_ite (fun _ => ?_) (fun _ => ?_)
    · exact hs
    · extract_lets v2 s3 s4 s5
      have h6 : State.Holds q s3 := by
        unfold s3
        apply holds_modCtx
        exact hs
      clear_value s3
      have h7 : State.Holds q s4 := by
        unfold s4
        refine holds_foldl (fun s8 x10 h9 => ?_) _ ?_
        · apply holds_headerFlag
          exact h9
        · exact h6
      clear_value s4
      have h11 : State.Holds q s5 := by
        unfold s5
        apply holds_setModeAt
        apply holds_setCtxBit
        exact h7
      clear_value s5
      refine holds_ite (fun _ => ?_) (fun _ => ?_)
      · exact h6
      · apply holds_raise
        exact h11

theorem holds_badFrame (g : Nat) (src : Nat) (dst : Nat) (body : Bytes) (hs : s.Holds q) : (badFrame g src dst body s).Holds q := by
  unfold badFrame
  extract_lets v1 v2 s3
  have h4 : State.Holds q s3 := by
    unfold s3
    apply holds_setCtxBit
    refine holds_same (s := s) ?_ rfl rfl rfl rfl rfl rfl rfl rfl
    exact hs
  clear_value s3
  refine holds_ite (fun _ => ?_) (fun _ => ?_)
  · apply holds_pushFrame
    exact h4
  · exact h4

theorem holds_finishPosting (c : Nat) (r : CtxRec) (hs : s.Holds q) : (finishPosting c r s).Holds q := by
  unfold finishPosting
  extract_lets v1 v2 s3 s4 v5 s6
  have h7 : State.Holds q s3 := by
    unfold s3
    apply holds_modCtx
    exact hs
  clear_value s3
  have h8 : State.Holds q s4 := by
    unfold s4
    refine holds_ite (fun _ => ?_) (fun _ => ?_)
    · refine holds_ite (fun _ => ?_) (fun _ => ?_)
      · refine holds_foldl (fun s9 x11 h10 => ?_) _ ?_
        · apply holds_addCount
          exact h10
        · exact h7
      · exact h7
    · exact hs
  clear_value s4
  have h12 : State.Holds q s6 := by
    unfold s6
    apply holds_postAnnounce
    exact h8
  clear_value s6
  apply holds_modCtx
  exact h12

theorem holds_postingComplete (c : Nat) (hs : s.Holds q) : (postingComplete c s).Holds q := by
  unfold postingComplete
  extract_lets v1
  split
  · exact hs
  · refine holds_ite (fun _ => ?_) (fun _ => ?_)
    · apply holds_finishPosting
      exact hs
    · exact hs

theorem ends_execPostingComplete (ctx : Nat) (hs : s.Holds q) : Ends q (execPostingComplete ctx s) := by
  unfold execPostingComplete
  refine ends_act ?_ (fun s1 h2 => ?_)
  · exact hs
  · apply holds_postingComplete
    exact h2

theorem ends_execCombineTimeout (ctx : Nat) (hs : s.Holds q) : Ends q (execCombineTimeout ctx s) := by
  unfold execCombineTimeout
  refine ends_act ?_ (fun s1 h2 => ?_)
  · exact hs
  · apply holds_combineTimeout
    exact h2

theorem holds_dropAsked (c : Nat) (g : MRange) (hs : s.Holds q) : (dropAsked c g s).Holds q := by
  unfold dropAsked
  apply holds_modCtx
  exact hs

theorem holds_takeReply (rd : ReadEnd) (r : CtxRec) (m : MOp) (f : MFrame) (hs : s.Holds q) : (takeReply rd r m f s).Holds q := by
  unfold takeReply
  refine holds_foldl (fun s1 x3 h2 => ?_) _ ?_
  · extract_lets v4
    split
    · exact h2
    · extract_lets s5 v6 v7 s8
      have h9 : State.Holds q s5 := by
        unfold s5
        apply holds_dropAsked
        exact h2
      clear_value s5
      have h10 : State.Holds q s8 := by
        unfold s8
        refine holds_foldl (fun s11 x13 h12 => ?_) _ ?_
        · apply holds_cutCopy
          exact h12
        · exact h9
      clear_value s8
      refine holds_ite (fun _ => ?_) (fun _ => ?_)
      · apply holds_postRange
        exact h10
      · apply holds_refuseRange
        exact h9
  · apply holds_readsEnd
    exact hs

theorem holds_takeReturnRow (r : CtxRec) (m : MOp) (f : MFrame) (hs : s.Holds q) : (takeReturnRow r m f s).Holds q := by
  unfold takeReturnRow
  extract_lets v1 v2 v3 v4 s5
  have h6 : State.Holds q s5 := by
    unfold s5
    apply holds_modCtx
    exact hs
  clear_value s5
  refine holds_ite (fun _ => ?_) (fun _ => ?_)
  · apply holds_raise
    exact hs
  · apply holds_postWrite
    exact h6

theorem ends_execReturnRowFrame (hs : s.Holds q) : Ends q (execReturnRowFrame s) := by
  unfold execReturnRowFrame
  apply ends_onFrame
  · intro x1 x2 x3 s4 h5
    apply holds_takeReturnRow
    exact h5
  · exact hs

theorem holds_routeFrame (g : Nat) (src : Nat) (dst : Nat) (body : Bytes) (flits : List Bytes) (hs : s.Holds q) : (routeFrame g src dst body flits s).Holds q := by
  unfold routeFrame
  extract_lets v1 v2 v3
  refine holds_ite (fun _ => ?_) (fun _ => ?_)
  · apply holds_raise
    exact hs
  · split
    · apply holds_pushFrame
      exact hs
    · apply holds_modGate
      exact hs
    · apply holds_routeFault
      exact hs

theorem holds_crierReceive (g : Nat) (hs : s.Holds q) : (crierReceive g s).Holds q := by
  unfold crierReceive
  split
  · exact hs
  · extract_lets v1 v2 v3 v4 v5 s6 v7 v8
    have h9 : State.Holds q s6 := by
      unfold s6
      apply holds_popRx
      exact hs
    clear_value s6
    refine holds_ite (fun _ => ?_) (fun _ => ?_)
    · apply holds_badFrame
      apply holds_popRx
      exact hs
    · refine holds_ite (fun _ => ?_) (fun _ => ?_)
      · exact hs
      · refine holds_ite (fun _ => ?_) (fun _ => ?_)
        · apply holds_routeFrame
          exact h9
        · apply holds_badFrame
          exact h9

theorem ends_execCrierFrameReceive (g : Nat) (hs : s.Holds q) : Ends q (execCrierFrameReceive g s) := by
  unfold execCrierFrameReceive
  refine ends_actOn ?_ (fun s1 h2 => ?_)
  · exact hs
  · apply holds_crierReceive
    exact h2

theorem holds_sendGrants (r : CtxRec) (m : MOp) (x : Ctx) (as : List Alloc) (members : List Nat) (mine : List Nat) (hs : s.Holds q) : (sendGrants r m x as members mine s).Holds q := by
  unfold sendGrants
  refine holds_foldl (fun s1 x3 h2 => ?_) _ ?_
  · extract_lets v4 v5
    refine holds_ite (fun _ => ?_) (fun _ => ?_)
    · refine holds_ite (fun _ => ?_) (fun _ => ?_)
      · exact h2
      · apply holds_sendFrame
        exact h2
    · apply holds_sendFrame
      exact h2
  · exact hs

theorem holds_stallAllocate (c : Nat) (hs : s.Holds q) : (stallAllocate c s).Holds q := by
  unfold stallAllocate
  extract_lets v1 v2
  split
  · exact hs
  · refine holds_ite (fun _ => ?_) (fun _ => ?_)
    · exact hs
    · extract_lets v3 v4 v5 s6 v7 s8 s9 v10 s11
      have h12 : State.Holds q s6 := by
        unfold s6
        refine holds_foldl (fun s13 x15 h14 => ?_) _ ?_
        · refine holds_foldl (fun s16 x18 h17 => ?_) _ ?_
          · apply holds_writeTags
            exact h17
          · exact h14
        · exact hs
      clear_value s6
      have h19 : State.Holds q s8 := by
        unfold s8
        apply holds_allocated
        exact h12
      clear_value s8
      have h20 : State.Holds q s9 := by
        unfold s9
        apply holds_setCtxBit
        apply holds_raise
        exact h19
      clear_value s9
      have h21 : State.Holds q s11 := by
        unfold s11
        refine holds_ite (fun _ => ?_) (fun _ => ?_)
        · refine holds_ite (fun _ => ?_) (fun _ => ?_)
          · refine holds_same (s := s9) ?_ rfl rfl rfl rfl rfl rfl rfl rfl
            exact h20
          · exact h20
        · exact h19
      clear_value s11
      apply holds_sendGrants
      exact h21

theorem ends_execStallAllocate (ctx : Nat) (hs : s.Holds q) : Ends q (execStallAllocate ctx s) := by
  unfold execStallAllocate
  refine ends_act ?_ (fun s1 h2 => ?_)
  · exact hs
  · apply holds_stallAllocate
    exact h2

theorem holds_returnRange (rd : ReadEnd) (r : CtxRec) (m : MOp) (step : Nat) (crier : Bool) (g : MRange) (hs : s.Holds q) : (returnRange rd r m step crier s g).Holds q := by
  unfold returnRange
  extract_lets v1 v2 v3
  refine holds_ite (fun _ => ?_) (fun _ => ?_)
  · refine holds_foldl (fun s4 x6 h5 => ?_) _ ?_
    · apply holds_sendRowFrames
      exact h5
    · exact hs
  · apply holds_postStream
    exact hs

theorem holds_takeRow (r : CtxRec) (m : MOp) (f : MFrame) (hs : s.Holds q) : (takeRow r m f s).Holds q := by
  unfold takeRow
  extract_lets v1 v2 v3 v4 v5 v6 v7
  split
  · refine holds_ite (fun _ => ?_) (fun _ => ?_)
    · exact hs
    · apply holds_raise
      exact hs
  · refine holds_ite (fun _ => ?_) (fun _ => ?_)
    · exact hs
    · refine holds_ite (fun _ => ?_) (fun _ => ?_)
      · apply holds_raise
        exact hs
      · refine holds_ite (fun _ => ?_) (fun _ => ?_)
        · apply holds_raise
          exact hs
        · extract_lets s8 s9 s10
          have h11 : State.Holds q s8 := by
            unfold s8
            apply holds_modCtx
            exact hs
          clear_value s8
          have h12 : State.Holds q s9 := by
            unfold s9
            apply holds_modCtx
            exact h11
          clear_value s9
          have h13 : State.Holds q s10 := by
            unfold s10
            refine holds_ite (fun _ => ?_) (fun _ => ?_)
            · apply holds_postWrite
              exact h12
            · exact h12
          clear_value s10
          refine holds_ite (fun _ => ?_) (fun _ => ?_)
          · exact h13
          · apply holds_postWrite
            exact h13

theorem ends_execRowFrame (hs : s.Holds q) : Ends q (execRowFrame s) := by
  unfold execRowFrame
  apply ends_onFrame
  · intro x1 x2 x3 s4 h5
    apply holds_takeRow
    exact h5
  · exact hs

theorem holds_zeroMissing (r : CtxRec) (layer : Nat) (g : MRange) (hs : s.Holds q) : (zeroMissing r layer s g).Holds q := by
  unfold zeroMissing
  extract_lets v1
  refine holds_foldl (fun s2 x4 h3 => ?_) _ ?_
  · extract_lets v5 v6
    refine holds_ite (fun _ => ?_) (fun _ => ?_)
    · exact h3
    · apply holds_postWrite
      apply holds_postWrite
      exact h3
  · exact hs

theorem holds_postingTimeout (c : Nat) (hs : s.Holds q) : (postingTimeout c s).Holds q := by
  unfold postingTimeout
  extract_lets v1 v2
  split
  · exact hs
  · refine holds_ite (fun _ => ?_) (fun _ => ?_)
    · exact hs
    · refine holds_ite (fun _ => ?_) (fun _ => ?_)
      · apply holds_postingComplete
        exact hs
      · extract_lets s3 s4 s5
        have h6 : State.Holds q s3 := by
          unfold s3
          refine holds_foldl (fun s7 x9 h8 => ?_) _ ?_
          · apply holds_zeroMissing
            exact h8
          · exact hs
        clear_value s3
        have h10 : State.Holds q s4 := by
          unfold s4
          apply holds_modCtx
          exact h6
        clear_value s4
        have h11 : State.Holds q s5 := by
          unfold s5
          apply holds_setModeAt
          apply holds_setCtxBit
          exact h10
        clear_value s5
        apply holds_finishPosting
        apply holds_raise
        exact h11

theorem holds_takeGrant (rd : ReadEnd) (r : CtxRec) (m : MOp) (f : MFrame) (hs : s.Holds q) : (takeGrant rd r m f s).Holds q := by
  unfold takeGrant
  refine holds_foldl (fun s1 x3 h2 => ?_) _ ?_
  · extract_lets v4
    split
    · exact h2
    · extract_lets s5
      have h6 : State.Holds q s5 := by
        unfold s5
        apply holds_dropAsked
        exact h2
      clear_value s5
      refine holds_ite (fun _ => ?_) (fun _ => ?_)
      · apply holds_postRange
        exact h6
      · apply holds_refuseRange
        exact h6
  · apply holds_readsEnd
    exact hs

theorem holds_combineEnds (c : Nat) (r : CtxRec) (hs : s.Holds q) : (combineEnds c r s).Holds q := by
  unfold combineEnds
  extract_lets v1 v2
  apply holds_modCtx
  exact hs

theorem holds_combineDone (c : Nat) (r : CtxRec) (hs : s.Holds q) : (combineDone c r s).Holds q := by
  unfold combineDone
  refine holds_ite (fun _ => ?_) (fun _ => ?_)
  · apply holds_combineEnds
    exact hs
  · exact hs

theorem holds_combineToken (rd : ReadEnd) (c : Nat) (t : Nat) (hs : s.Holds q) : (combineToken rd c t s).Holds q := by
  unfold combineToken
  extract_lets v1 s2
  have h3 : State.Holds q s2 := by
    unfold s2
    apply holds_readsEnd
    exact hs
  clear_value s2
  split
  · exact hs
  · refine holds_ite (fun _ => ?_) (fun _ => ?_)
    · exact hs
    · refine holds_ite (fun _ => ?_) (fun _ => ?_)
      · apply holds_combineDone
        exact hs
      · extract_lets v4 v5 v6 v7 v8 s9
        have h10 : State.Holds q s9 := by
          unfold s9
          apply holds_postWrite
          exact h3
        clear_value s9
        refine holds_ite (fun _ => ?_) (fun _ => ?_)
        · exact hs
        · apply holds_combineDone
          apply holds_modCtx
          exact h10

theorem holds_returnStarts (rd : ReadEnd) (r : CtxRec) (m : MOp) (step : Nat) (hs : s.Holds q) : (returnStarts rd r m step s).Holds q := by
  unfold returnStarts
  extract_lets s1 v2 v3 s4
  have h5 : State.Holds q s1 := by
    unfold s1
    apply holds_readsEnd
    exact hs
  clear_value s1
  have h6 : State.Holds q s4 := by
    unfold s4
    apply holds_modCtx
    exact h5
  clear_value s4
  refine holds_foldl (fun s7 x9 h8 => ?_) _ ?_
  · apply holds_returnRange
    exact h8
  · exact h6

theorem ends_execRet (rd : ReadEnd) (hs : s.Holds q) : Ends q (execRet rd s) := by
  unfold execRet
  apply ends_onMarket
  · intro x1 x2 x3 s4 h5
    apply holds_returnStarts
    exact h5
  · exact hs

theorem ends_execCountsFrame (hs : s.Holds q) : Ends q (execCountsFrame s) := by
  unfold execCountsFrame
  apply ends_onFrame
  · intro x1 x2 x3 s4 h5
    apply holds_takeCounts
    exact h5
  · exact hs

theorem ends_execGrantFrame (rd : ReadEnd) (hs : s.Holds q) : Ends q (execGrantFrame rd s) := by
  unfold execGrantFrame
  apply ends_onFrame
  · intro x1 x2 x3 s4 h5
    apply holds_takeGrant
    exact h5
  · exact hs

theorem ends_execCapacityAdmit (ctx : Nat) (hs : s.Holds q) : Ends q (execCapacityAdmit ctx s) := by
  unfold execCapacityAdmit
  refine ends_act ?_ (fun s1 h2 => ?_)
  · exact hs
  · apply holds_capacityAdmit
    exact h2

theorem ends_execCountsReply (rd : ReadEnd) (hs : s.Holds q) : Ends q (execCountsReply rd s) := by
  unfold execCountsReply
  apply ends_onFrame
  · intro x1 x2 x3 s4 h5
    apply holds_takeReply
    exact h5
  · exact hs

theorem ends_execPostingTimeout (ctx : Nat) (hs : s.Holds q) : Ends q (execPostingTimeout ctx s) := by
  unfold execPostingTimeout
  refine ends_act ?_ (fun s1 h2 => ?_)
  · exact hs
  · apply holds_postingTimeout
    exact h2

theorem ends_execCombine (ctx : Nat) (token : Nat) (rd : ReadEnd) (hs : s.Holds q) : Ends q (execCombine ctx token rd s) := by
  unfold execCombine
  refine ends_act ?_ (fun s1 h2 => ?_)
  · exact hs
  · apply holds_combineToken
    exact h2

theorem holds_grantDeadline (c : Nat) (hs : s.Holds q) : (grantDeadline c s).Holds q := by
  unfold grantDeadline
  extract_lets v1
  split
  · exact hs
  · extract_lets s2
    have h3 : State.Holds q s2 := by
      unfold s2
      refine holds_foldl (fun s4 x6 h5 => ?_) _ ?_
      · apply holds_refuseRange
        exact h5
      · exact hs
    clear_value s2
    apply holds_modCtx
    exact h3

theorem ends_execGrantDeadline (ctx : Nat) (hs : s.Holds q) : Ends q (execGrantDeadline ctx s) := by
  unfold execGrantDeadline
  refine ends_act ?_ (fun s1 h2 => ?_)
  · exact hs
  · apply holds_grantDeadline
    exact h2

/-! ### Program -/

theorem wf_postWord (w : Nat) {k : Core} (hk : k.wf = true) : (postWord w k).wf = true := by
  unfold postWord
  apply wf_countEvent
  apply wf_sdataWrite
  refine wf_upd (k := k) ?_ id id id id id id id id id id id id
  exact hk

theorem holds_tearGreen (g : Nat) (hs : s.Holds q) : (tearGreen g s).Holds q := by
  unfold tearGreen
  split
  · apply holds_stompLeaving
    exact hs
  · apply holds_modGate
    exact hs
  · apply holds_modGate
    exact hs

theorem holds_badGreenFlit (u : Nat) (hs : s.Holds q) : (badGreenFlit u s).Holds q := by
  unfold badGreenFlit
  extract_lets s1
  have h2 : State.Holds q s1 := by
    unfold s1
    apply holds_raise
    exact hs
  clear_value s1
  refine holds_ite (fun _ => ?_) (fun _ => ?_)
  · refine holds_modCore _ (fun k3 h4 => ?_) ?_
    · extract_lets k5
      have h6 : Core.wf k5 = true := by
        unfold k5
        apply wf_haltCore
        exact h4
      clear_value k5
      refine wf_upd (k := k5) ?_ id id id id id id id id id id id id
      exact h6
    · exact h2
  · refine holds_ite (fun _ => ?_) (fun _ => ?_)
    · apply holds_tearGreen
      exact h2
    · apply holds_loseRequest
      exact h2

theorem wf_loadCore (s : State) (a : Nat) (g : Segment) {k : Core} (hk : k.wf = true) : (loadCore s a g k).wf = true := by
  refine wf_upd (k := k) hk (memWf_mwrite _ _) id id ?_ ?_ ?_ ?_ ?_ ?_ ?_ ?_ ?_ <;> intro _
  case refine_1 => exact memWf_mwrite _ _ (tableWf_nil _)
  all_goals rfl

theorem holds_acceptImage (a : Nat) (gs : List Segment) (img : Bytes) (hs : s.Holds q) : (acceptImage a gs img s).Holds q := by
  unfold acceptImage
  extract_lets s1 v2
  have h3 : State.Holds q s1 := by
    unfold s1
    refine holds_foldl (fun s4 x6 h5 => ?_) _ ?_
    · extract_lets s7 v8
      have h9 : State.Holds q s7 := by
        unfold s7
        refine holds_modCore _ (fun k10 h11 => ?_) ?_
        · apply wf_loadCore
          exact h11
        · exact h5
      clear_value s7
      refine holds_same (s := s7) ?_ rfl rfl rfl rfl rfl rfl rfl rfl
      exact h9
    · exact hs
  clear_value s1
  refine holds_same (s := s1) ?_ rfl rfl rfl rfl rfl rfl rfl rfl
  exact h3

theorem holds_programStarts (rd : ReadEnd) (v : Nat) (hs : s.Holds q) : (programStarts rd v s).Holds q := by
  unfold programStarts
  extract_lets v1 v2 v3 v4 s5 v6
  have h7 : State.Holds q s5 := by
    unfold s5
    apply holds_readsEnd
    exact hs
  clear_value s5
  refine holds_ite (fun _ => ?_) (fun _ => ?_)
  · exact hs
  · refine holds_ite (fun _ => ?_) (fun _ => ?_)
    · apply holds_acceptImage
      apply holds_popCmd
      exact h7
    · apply holds_discardCmd
      exact h7

theorem wf_restored (s : State) (a : Nat) (b : Bytes) (rd : ReadEnd) {k : Core} (hk : k.wf = true) : (restored s a b rd k).wf = true := by
  refine wf_upd (k := k) hk ?_ ?_ ?_ ?_ ?_ ?_ ?_ ?_ ?_ ?_ ?_ ?_ <;> intro _
  iterate 5 exact memWf_mwrite _ _ (tableWf_nil _)
  all_goals exact tableWf_built _ _ _ _

theorem holds_coreRestore (c : Nat) (rd : ReadEnd) (hs : s.Holds q) : (coreRestore c rd s).Holds q := by
  unfold coreRestore
  refine holds_ite (fun _ => ?_) (fun _ => ?_)
  · exact hs
  · extract_lets v1 s2 v3
    have h4 : State.Holds q s2 := by
      unfold s2
      apply holds_readsEnd
      exact hs
    clear_value s2
    refine holds_ite (fun _ => ?_) (fun _ => ?_)
    · refine holds_modCore _ (fun k5 h6 => ?_) ?_
      · apply wf_restored
        exact h6
      · exact h4
    · apply holds_raise
      refine holds_modCore _ (fun k7 h8 => ?_) ?_
      · refine wf_upd (k := k7) ?_ id id id id id id id id id id id id
        exact h8
      · exact h4

theorem holds_postStarts (v : Nat) (hs : s.Holds q) : (postStarts v s).Holds q := by
  unfold postStarts
  extract_lets v1
  refine holds_ite (fun _ => ?_) (fun _ => ?_)
  · apply holds_discardCmd
    exact hs
  · refine holds_ite (fun _ => ?_) (fun _ => ?_)
    · refine holds_modCore _ (fun k2 h3 => ?_) ?_
      · apply wf_postWord
        exact h3
      · apply holds_popCmd
        exact hs
    · exact hs

theorem ends_execPost (hs : s.Holds q) : Ends q (execPost s) := by
  unfold execPost
  apply ends_onHead
  · intro x1 s2 h3
    apply holds_postStarts
    exact h3
  · exact hs

theorem ends_execCoreRestore (c : Nat) (rd : ReadEnd) (hs : s.Holds q) : Ends q (execCoreRestore c rd s) := by
  unfold execCoreRestore
  refine ends_actOn ?_ (fun s1 h2 => ?_)
  · exact hs
  · apply holds_coreRestore
    exact h2

theorem holds_coreSave (c : Nat) (hs : s.Holds q) : (coreSave c s).Holds q := by
  unfold coreSave
  extract_lets k1 v2 v3 s4 v5
  have h6 : Core.wf k1 = true := by
    unfold k1
    refine getCore_wf (q := q) ?_ _
    exact hs
  clear_value k1
  have h7 : State.Holds q s4 := by
    unfold s4
    apply holds_postWriteBad
    exact hs
  clear_value s4
  refine holds_ite (fun _ => ?_) (fun _ => ?_)
  · exact hs
  · refine holds_modCore _ (fun k8 h9 => ?_) ?_
    · refine wf_upd (k := k8) ?_ id id id id id id id id id id id id
      exact h9
    · exact h7

theorem ends_execCoreSave (c : Nat) (hs : s.Holds q) : Ends q (execCoreSave c s) := by
  unfold execCoreSave
  refine ends_actOn ?_ (fun s1 h2 => ?_)
  · exact hs
  · apply holds_coreSave
    exact h2

theorem ends_execProgram (rd : ReadEnd) (hs : s.Holds q) : Ends q (execProgram rd s) := by
  unfold execProgram
  apply ends_onHead
  · intro x1 s2 h3
    apply holds_programStarts
    exact h3
  · exact hs

theorem ends_execGreenFlitReceive (unit : Nat) (parityOk : Bool) (hs : s.Holds q) : Ends q (execGreenFlitReceive unit parityOk s) := by
  unfold execGreenFlitReceive
  refine ends_ite (fun _ => ?_) (fun _ => ?_)
  · refine ends_act ?_ (fun s1 h2 => ?_)
    · exact hs
    · refine holds_ite (fun _ => ?_) (fun _ => ?_)
      · exact h2
      · apply holds_badGreenFlit
        exact h2
  · exact ends_fault _

/-! ### Cold -/

theorem holds_carryGleanings (t : TensorRec) (step : Nat) (v : Sliver) (hs : s.Holds q) : (carryGleanings t step s v).Holds q := by
  unfold carryGleanings
  apply holds_carryRange
  exact hs

theorem holds_coldTensor (step : Nat) (t : TensorRec) (hs : s.Holds q) : (coldTensor step s t).Holds q := by
  unfold coldTensor
  extract_lets s1 v2 v3
  have h4 : State.Holds q s1 := by
    unfold s1
    refine holds_foldl (fun s5 x7 h6 => ?_) _ ?_
    · apply holds_carryGleanings
      exact h6
    · exact hs
  clear_value s1
  split
  · exact h4
  · refine holds_foldl (fun s8 x10 h9 => ?_) _ ?_
    · apply holds_handOwn
      exact h9
    · apply holds_openReduction
      exact h4

theorem holds_layerStarts (v : Nat) (hs : s.Holds q) : (layerStarts v s).Holds q := by
  unfold layerStarts
  extract_lets v1 v2 v3 s4 v5 s6 s7
  have h8 : State.Holds q s4 := by
    unfold s4
    apply holds_popCmd
    exact hs
  clear_value s4
  have h9 : State.Holds q s6 := by
    unfold s6
    refine holds_same (s := s4) ?_ rfl rfl rfl rfl rfl rfl rfl rfl
    exact h8
  clear_value s6
  have h10 : State.Holds q s7 := by
    unfold s7
    refine holds_foldl (fun s11 x13 h12 => ?_) _ ?_
    · apply holds_coldTensor
      exact h12
    · exact h9
  clear_value s7
  refine holds_ite (fun _ => ?_) (fun _ => ?_)
  · refine holds_foldl (fun s14 x16 h15 => ?_) _ ?_
    · refine holds_modCore _ (fun k17 h18 => ?_) ?_
      · apply wf_postWord
        exact h18
      · exact h15
    · exact h10
  · exact hs

theorem ends_execLayerReady (hs : s.Holds q) : Ends q (execLayerReady s) := by
  unfold execLayerReady
  apply ends_onHead
  · intro x1 s2 h3
    apply holds_layerStarts
    exact h3
  · exact hs

/-! ### Receive -/

theorem holds_mktBoltMarks (g : Nat) (c : MktChunk) (hs : s.Holds q) : (mktBoltMarks g c s).Holds q := by
  unfold mktBoltMarks
  extract_lets v1 s2 s3
  have h4 : State.Holds q s2 := by
    unfold s2
    apply holds_modGate
    exact hs
  clear_value s2
  have h5 : State.Holds q s3 := by
    unfold s3
    apply holds_boltModes
    exact h4
  clear_value s3
  refine holds_ite (fun _ => ?_) (fun _ => ?_)
  · apply holds_sendNotice
    apply holds_tallyChunk
    exact h5
  · exact h5

theorem holds_mktBolt (g : Nat) (i : Nat) (hs : s.Holds q) : (mktBolt g i s).Holds q := by
  unfold mktBolt
  split
  · exact hs
  · extract_lets v1 v2
    refine holds_ite (fun _ => ?_) (fun _ => ?_)
    · exact hs
    · split
      · apply holds_boltSent
        apply holds_mktBoltMarks
        exact hs
      · refine holds_ite (fun _ => ?_) (fun _ => ?_)
        · apply holds_pushFrame
          apply holds_mktBoltMarks
          exact hs
        · split
          · apply holds_gateFault
            apply holds_modGate
            exact hs
          · refine holds_ite (fun _ => ?_) (fun _ => ?_)
            · exact hs
            · apply holds_tokenBolts
              apply holds_mktBoltMarks
              exact hs

theorem ends_execChunkBolt (r : BoltRef) (hs : s.Holds q) : Ends q (execChunkBolt r s) := by
  unfold execChunkBolt
  split
  · refine ends_act ?_ (fun s1 h2 => ?_)
    · exact hs
    · apply holds_boltCell
      exact h2
  · refine ends_act ?_ (fun s3 h4 => ?_)
    · exact hs
    · apply holds_boltBcast
      exact h4
  · refine ends_actOn ?_ (fun s5 h6 => ?_)
    · exact hs
    · apply holds_mktBolt
      exact h6

theorem holds_arriveErr (h : Hdr) (err : Option GateErr) (hs : s.Holds q) : (arriveErr h err s).Holds q := by
  unfold arriveErr
  split
  · extract_lets s1 v2
    have h3 : State.Holds q s1 := by
      unfold s1
      apply holds_raise
      exact hs
    clear_value s1
    refine holds_ite (fun _ => ?_) (fun _ => ?_)
    · exact h3
    · refine holds_same (s := s1) ?_ rfl rfl rfl rfl rfl rfl rfl rfl
      exact h3
  · exact hs

theorem holds_granaryErr (g : Nat) (h : Hdr) (err : Option GateErr) (hs : s.Holds q) : (granaryErr g h err s).Holds q := by
  unfold granaryErr
  split
  · extract_lets s1
    have h2 : State.Holds q s1 := by
      unfold s1
      apply holds_raise
      exact hs
    clear_value s1
    refine holds_foldl (fun s3 x5 h4 => ?_) _ ?_
    · apply holds_rebuildCell
      exact h4
    · exact h2
  · exact hs

theorem holds_mktArrives (g : Nat) (b : Bytes) (ok : Bool) (hs : s.Holds q) : (mktArrives g b ok s).Holds q := by
  unfold mktArrives
  extract_lets v1 v2 v3 v4 v5 v6
  refine holds_ite (fun _ => ?_) (fun _ => ?_)
  · apply holds_gateFault
    exact hs
  · refine holds_ite (fun _ => ?_) (fun _ => ?_)
    · apply holds_sendResend
      apply holds_gateFault
      apply holds_modGate
      exact hs
    · refine holds_ite (fun _ => ?_) (fun _ => ?_)
      · apply holds_gateFault
        apply holds_modGate
        exact hs
      · split
        · refine holds_ite (fun _ => ?_) (fun _ => ?_)
          · apply holds_gateFault
            exact hs
          · unfold v6
            apply holds_modGate
            exact hs
        · apply holds_enqueueItem
          unfold v6
          apply holds_modGate
          exact hs
        · apply holds_routeFault
          exact hs

theorem holds_chunkArrives (g : Nat) (vc : Nat) (b : Bytes) (mask : List MaskEnt) (excluded : Nat) (ok : Bool) (hs : s.Holds q) : (chunkArrives g vc b mask excluded ok s).Holds q := by
  unfold chunkArrives
  refine holds_ite (fun _ => ?_) (fun _ => ?_)
  · apply holds_mktArrives
    exact hs
  · refine holds_ite (fun _ => ?_) (fun _ => ?_)
    · apply holds_bcastArrives
      exact hs
    · apply holds_inputArrives
      exact hs

theorem holds_linkChunk (g : Nat) (vc : Nat) (err : Option GateErr) (hs : s.Holds q) : (linkChunk g vc err s).Holds q := by
  unfold linkChunk
  refine holds_ite (fun _ => ?_) (fun _ => ?_)
  · exact hs
  · split
    · exact hs
    · extract_lets v1 v2 s3
      have h4 : State.Holds q s3 := by
        unfold s3
        apply holds_arriveErr
        apply holds_popRx
        exact hs
      clear_value s3
      refine holds_ite (fun _ => ?_) (fun _ => ?_)
      · exact hs
      · refine holds_ite (fun _ => ?_) (fun _ => ?_)
        · apply holds_modGate
          exact h4
        · apply holds_granaryErr
          apply holds_chunkArrives
          exact h4

theorem holds_greenChunk (g : Nat) (err : Option GateErr) (hs : s.Holds q) : (greenChunk g err s).Holds q := by
  unfold greenChunk
  split
  · exact hs
  · extract_lets v1 s2
    have h3 : State.Holds q s2 := by
      unfold s2
      apply holds_arriveErr
      apply holds_modGate
      exact hs
    clear_value s2
    apply holds_granaryErr
    apply holds_inputArrives
    exact h3

theorem ends_execChunkReceive (g : Nat) (via : Via) (err : Option GateErr) (hs : s.Holds q) : Ends q (execChunkReceive g via err s) := by
  unfold execChunkReceive
  refine ends_actOn ?_ (fun s1 h2 => ?_)
  · exact hs
  · split
    · refine holds_ite (fun _ => ?_) (fun _ => ?_)
      · apply holds_linkChunk
        exact h2
      · exact h2
    · apply holds_greenChunk
      exact h2

theorem holds_reabsorbClosed (g : Nat) (b : Bytes) (hs : s.Holds q) : (reabsorbClosed g b s).Holds q := by
  unfold reabsorbClosed
  extract_lets v1 s2
  have h3 : State.Holds q s2 := by
    unfold s2
    refine holds_foldl (fun s4 x6 h5 => ?_) _ ?_
    · split
      · apply holds_reabsorbChunk
        exact h5
      · exact h5
    · exact hs
  clear_value s2
  refine holds_ite (fun _ => ?_) (fun _ => ?_)
  · exact h3
  · apply holds_releaseGate
    exact h3

theorem holds_sendFaults (g : Nat) (h : Hdr) (err : Option GateErr) (hs : s.Holds q) : (sendFaults g h err s).Holds q := by
  unfold sendFaults
  split
  · apply holds_raise
    exact hs
  · apply holds_raise
    apply holds_raise
    exact hs
  · exact hs

theorem holds_startItem (g : Nat) (err : Option GateErr) (i : SendItem) (rest : List SendItem) (hs : s.Holds q) : (startItem g err i rest s).Holds q := by
  unfold startItem
  extract_lets v1 v2 v3 v4 v5 s6 s7 s8 s9 s10
  have h11 : State.Holds q s6 := by
    unfold s6
    apply holds_modGate
    exact hs
  clear_value s6
  have h12 : State.Holds q s7 := by
    unfold s7
    refine holds_ite (fun _ => ?_) (fun _ => ?_)
    · apply holds_modGate
      exact h11
    · apply holds_pushFlits
      exact h11
  clear_value s7
  have h13 : State.Holds q s8 := by
    unfold s8
    split
    · apply holds_modCell
      exact h12
    · exact h12
  clear_value s8
  have h14 : State.Holds q s9 := by
    unfold s9
    refine holds_ite (fun _ => ?_) (fun _ => ?_)
    · apply holds_reabsorbClosed
      exact h13
    · exact h13
  clear_value s9
  have h15 : State.Holds q s10 := by
    unfold s10
    apply holds_sendFaults
    exact h14
  clear_value s10
  split
  · apply holds_rebuildCell
    exact h15
  · exact h15

theorem holds_maskDone (g : Nat) (vc : Nat) (n : Nat) (b : Bytes) (frame : Option Bytes) (hs : s.Holds q) : (maskDone g vc n b frame s).Holds q := by
  unfold maskDone
  extract_lets s1
  have h2 : State.Holds q s1 := by
    unfold s1
    apply holds_popRx
    apply holds_modGate
    exact hs
  clear_value s1
  split
  · apply holds_chunkArrives
    exact h2
  · apply holds_chunkArrives
    exact h2

theorem holds_maskReceive (g : Nat) (vc : Nat) (hs : s.Holds q) : (maskReceive g vc s).Holds q := by
  unfold maskReceive
  split
  · extract_lets v1 v2
    refine holds_ite (fun _ => ?_) (fun _ => ?_)
    · apply holds_maskDone
      exact hs
    · refine holds_ite (fun _ => ?_) (fun _ => ?_)
      · apply holds_maskDone
        exact hs
      · refine holds_ite (fun _ => ?_) (fun _ => ?_)
        · apply holds_maskDone
          exact hs
        · exact hs
  · exact hs

theorem ends_execMaskFrameReceive (g : Nat) (vc : Nat) (hs : s.Holds q) : Ends q (execMaskFrameReceive g vc s) := by
  unfold execMaskFrameReceive
  refine ends_actOn ?_ (fun s1 h2 => ?_)
  · exact hs
  · apply holds_maskReceive
    exact h2

theorem holds_chunkSend (g : Nat) (vc : Nat) (err : Option GateErr) (hs : s.Holds q) : (chunkSend g vc err s).Holds q := by
  unfold chunkSend
  split
  · apply holds_startItem
    exact hs
  · exact hs

theorem ends_execChunkSend (g : Nat) (vc : Nat) (err : Option GateErr) (hs : s.Holds q) : Ends q (execChunkSend g vc err s) := by
  unfold execChunkSend
  refine ends_actOn ?_ (fun s1 h2 => ?_)
  · exact hs
  · apply holds_chunkSend
    exact h2

/-! ### Steward -/

theorem holds_bookFormats (hs : s.Holds q) : (bookFormats s).Holds q := by
  unfold bookFormats
  split
  · refine holds_ite (fun _ => ?_) (fun _ => ?_)
    · apply holds_flashProgram
      exact hs
    · exact hs
  · exact hs

theorem ends_execBookFormat (hs : s.Holds q) : Ends q (execBookFormat s) := by
  unfold execBookFormat
  refine ends_act ?_ (fun s1 h2 => ?_)
  · exact hs
  · apply holds_bookFormats
    exact h2

theorem holds_testBegins (cls : Nat) (n : Nat) (hs : s.Holds q) : (testBegins cls n s).Holds q := by
  unfold testBegins
  refine holds_ite (fun _ => ?_) (fun _ => ?_)
  · refine holds_ite (fun _ => ?_) (fun _ => ?_)
    · exact hs
    · refine holds_modCore _ (fun k1 h2 => ?_) ?_
      · apply wf_askSave
        exact h2
      · exact hs
  · refine holds_ite (fun _ => ?_) (fun _ => ?_)
    · apply holds_modGate
      exact hs
    · exact hs

theorem holds_almNext (cls test left n : Nat) (hs : s.Holds q) : (almNext cls test left n s).Holds q := by
  induction left generalizing n with
  | zero => exact holds_same hs rfl rfl rfl rfl rfl rfl rfl rfl
  | succ left ih =>
    unfold almNext
    exact holds_ite (fun _ => ih _) (fun _ => holds_testBegins _ _ (holds_same hs rfl rfl rfl rfl rfl rfl rfl rfl))

theorem holds_testOver (cls : Nat) (n : Nat) (hs : s.Holds q) : (testOver cls n s).Holds q := by
  unfold testOver
  refine holds_ite (fun _ => ?_) (fun _ => ?_)
  · refine holds_ite (fun _ => ?_) (fun _ => ?_)
    · refine holds_modCore _ (fun k1 h2 => ?_) ?_
      · apply wf_askRestore
        exact h2
      · exact hs
    · exact hs
  · refine holds_ite (fun _ => ?_) (fun _ => ?_)
    · apply holds_modGate
      exact hs
    · exact hs

theorem holds_almResult (how : TestEnd) (got : U64) (hs : s.Holds q) : (almResult how got s).Holds q := by
  unfold almResult
  split
  · exact hs
  · split
    · refine holds_same (s := s) ?_ rfl rfl rfl rfl rfl rfl rfl rfl
      exact hs
    · refine holds_ite (fun _ => ?_) (fun _ => ?_)
      · exact hs
      · extract_lets v1 v2 s3 v4 s5 s6
        have h7 : State.Holds q s3 := by
          unfold s3
          apply holds_postWrite
          exact hs
        clear_value s3
        have h8 : State.Holds q s5 := by
          unfold s5
          refine holds_same (s := s3) ?_ rfl rfl rfl rfl rfl rfl rfl rfl
          exact h7
        clear_value s5
        have h9 : State.Holds q s6 := by
          unfold s6
          refine holds_ite (fun _ => ?_) (fun _ => ?_)
          · exact h8
          · apply holds_raise
            exact h8
        clear_value s6
        apply holds_almNext
        apply holds_testOver
        exact h9

theorem holds_bookDumps (hs : s.Holds q) : (bookDumps s).Holds q := by
  unfold bookDumps
  extract_lets v1 s2 v3
  have h4 : State.Holds q s2 := by
    unfold s2
    apply holds_postWrite
    exact hs
  clear_value s2
  refine holds_same (s := s2) ?_ rfl rfl rfl rfl rfl rfl rfl rfl
  exact h4

theorem holds_almPackageFault (cause : Nat) (hs : s.Holds q) : (almPackageFault cause s).Holds q := by
  unfold almPackageFault
  apply holds_raise
  exact hs

theorem holds_almLoads (rd : ReadEnd) (v : Nat) (hs : s.Holds q) : (almLoads rd v s).Holds q := by
  unfold almLoads
  extract_lets v1 s2 v3 v4 v5 s6
  have h7 : State.Holds q s2 := by
    unfold s2
    apply holds_readsEnd
    apply holds_popCmd
    exact hs
  clear_value s2
  have h8 : State.Holds q s6 := by
    unfold s6
    apply holds_nextSeq
    refine holds_same (s := s2) ?_ rfl rfl rfl rfl rfl rfl rfl rfl
    exact h7
  clear_value s6
  split
  · apply holds_almPackageFault
    exact h7
  · apply holds_bookWatch
    apply holds_bookWrite
    exact h8

theorem ends_execAlmLoad (rd : ReadEnd) (hs : s.Holds q) : Ends q (execAlmLoad rd s) := by
  unfold execAlmLoad
  apply ends_onHead
  · intro x1 s2 h3
    apply holds_almLoads
    exact h3
  · exact hs

theorem ends_execBookDump (hs : s.Holds q) : Ends q (execBookDump s) := by
  unfold execBookDump
  refine ends_act ?_ (fun s1 h2 => ?_)
  · exact hs
  · apply holds_bookDumps
    exact h2

theorem ends_actUnit (u : Nat) {f : State → State} (hf : ∀ (x : State), x.Holds q → (f x).Holds q) (hs : s.Holds q) : Ends q (actUnit u s f) := by
  unfold actUnit
  refine ends_ite (fun _ => ?_) (fun _ => ?_)
  · refine ends_act ?_ (fun s1 h2 => ?_)
    · exact hs
    · apply hf
      exact h2
  · exact ends_fault _

theorem holds_coalesce (u : Nat) (hs : s.Holds q) : (coalesce u s).Holds q := by
  unfold coalesce
  extract_lets v1 s2 v3 s4
  have h5 : State.Holds q s2 := by
    unfold s2
    apply holds_nextSeq
    exact hs
  clear_value s2
  have h6 : State.Holds q s4 := by
    unfold s4
    apply holds_modUnit
    exact h5
  clear_value s4
  refine holds_ite (fun _ => ?_) (fun _ => ?_)
  · exact hs
  · refine holds_ite (fun _ => ?_) (fun _ => ?_)
    · apply holds_modUnit
      exact hs
    · apply holds_bookWatch
      apply holds_bookWrite
      exact h6

theorem ends_execBookCoalesceTimer (unit : Nat) (memErr : Bool) (hs : s.Holds q) : Ends q (execBookCoalesceTimer unit memErr s) := by
  unfold execBookCoalesceTimer
  apply ends_actUnit
  · intro s1 h2
    refine holds_ite (fun _ => ?_) (fun _ => ?_)
    · apply holds_raise
      refine holds_same (s := s1) ?_ rfl rfl rfl rfl rfl rfl rfl rfl
      exact h2
    · apply holds_coalesce
      exact h2
  · exact hs

theorem holds_almRuns (v : Nat) (hs : s.Holds q) : (almRuns v s).Holds q := by
  unfold almRuns
  extract_lets v1 v2 v3 s4 v5
  have h6 : State.Holds q s4 := by
    unfold s4
    apply holds_popCmd
    exact hs
  clear_value s4
  split
  · apply holds_discardCmd
    exact hs
  · refine holds_ite (fun _ => ?_) (fun _ => ?_)
    · apply holds_discardCmd
      exact hs
    · refine holds_ite (fun _ => ?_) (fun _ => ?_)
      · exact hs
      · extract_lets v7
        refine holds_ite (fun _ => ?_) (fun _ => ?_)
        · apply holds_almPackageFault
          exact h6
        · apply holds_almNext
          refine holds_same (s := s4) ?_ rfl rfl rfl rfl rfl rfl rfl rfl
          exact h6

theorem holds_windowExpires (u : Nat) (hs : s.Holds q) : (windowExpires u s).Holds q := by
  unfold windowExpires
  extract_lets v1
  refine holds_ite (fun _ => ?_) (fun _ => ?_)
  · apply holds_setStatus
    apply holds_modUnit
    exact hs
  · exact hs

theorem ends_execStatusWindowExpire (unit : Nat) (hs : s.Holds q) : Ends q (execStatusWindowExpire unit s) := by
  unfold execStatusWindowExpire
  apply ends_actUnit
  · intro s1 h2
    apply holds_windowExpires
    exact h2
  · exact hs

theorem ends_execAlmRun (hs : s.Holds q) : Ends q (execAlmRun s) := by
  unfold execAlmRun
  apply ends_onHead
  · intro x1 s2 h3
    apply holds_almRuns
    exact h3
  · exact hs

theorem ends_execAlmTestResult (how : TestEnd) (got : U64) (hs : s.Holds q) : Ends q (execAlmTestResult how got s) := by
  unfold execAlmTestResult
  refine ends_act ?_ (fun s1 h2 => ?_)
  · exact hs
  · apply holds_almResult
    exact h2

theorem holds_exposureWrites (hs : s.Holds q) : (exposureWrites s).Holds q := by
  unfold exposureWrites
  split
  · exact hs
  · refine holds_ite (fun _ => ?_) (fun _ => ?_)
    · exact hs
    · split
      extract_lets s1 v2
      have h3 : State.Holds q s1 := by
        unfold s1
        apply holds_postWrite
        exact hs
      clear_value s1
      refine holds_same (s := s1) ?_ rfl rfl rfl rfl rfl rfl rfl rfl
      exact h3

theorem ends_execExposureListWrite (hs : s.Holds q) : Ends q (execExposureListWrite s) := by
  unfold execExposureListWrite
  refine ends_act ?_ (fun s1 h2 => ?_)
  · exact hs
  · apply holds_exposureWrites
    exact h2

/-! ### TallyCmd -/

theorem holds_tallyBegins (declare : Bool) (op : Nat) (rd : ReadEnd) (v : Nat) (hs : s.Holds q) : (tallyBegins declare op rd v s).Holds q := by
  unfold tallyBegins
  extract_lets v1 s2 s3 v4
  have h5 : State.Holds q s2 := by
    unfold s2
    apply holds_readsEnd
    exact hs
  clear_value s2
  have h6 : State.Holds q s3 := by
    unfold s3
    apply holds_popCmd
    exact h5
  clear_value s3
  refine holds_ite (fun _ => ?_) (fun _ => ?_)
  · refine holds_same (s := s3) ?_ rfl rfl rfl rfl rfl rfl rfl rfl
    exact h6
  · apply holds_discardCmd
    exact h5

theorem holds_tallyStarts (rd : ReadEnd) (v : Nat) (hs : s.Holds q) : (tallyStarts rd v s).Holds q := by
  unfold tallyStarts
  refine holds_ite (fun _ => ?_) (fun _ => ?_)
  · exact hs
  · apply holds_tallyBegins
    exact hs

theorem ends_execTally (rd : ReadEnd) (hs : s.Holds q) : Ends q (execTally rd s) := by
  unfold execTally
  apply ends_onHead
  · intro x1 s2 h3
    apply holds_tallyStarts
    exact h3
  · exact hs

theorem holds_declareEnds (j : TallyJob) (t : U64) (hs : s.Holds q) : (declareEnds j t s).Holds q := by
  unfold declareEnds
  refine holds_ite (fun _ => ?_) (fun _ => ?_)
  · refine holds_same (s := s) ?_ rfl rfl rfl rfl rfl rfl rfl rfl
    exact hs
  · refine holds_same (s := s) ?_ rfl rfl rfl rfl rfl rfl rfl rfl
    exact hs

theorem holds_tallyEnds (b : Bytes) (t : U64) (hs : s.Holds q) : (tallyEnds b t s).Holds q := by
  unfold tallyEnds
  extract_lets v1 v2 v3 s4 v5 s6 v7 s8
  have h9 : State.Holds q s4 := by
    unfold s4
    refine holds_same (s := s) ?_ rfl rfl rfl rfl rfl rfl rfl rfl
    exact hs
  clear_value s4
  have h10 : State.Holds q s6 := by
    unfold s6
    refine holds_ite (fun _ => ?_) (fun _ => ?_)
    · apply holds_raise
      refine holds_same (s := s4) ?_ rfl rfl rfl rfl rfl rfl rfl rfl
      exact h9
    · refine holds_ite (fun _ => ?_) (fun _ => ?_)
      · refine holds_same (s := s4) ?_ rfl rfl rfl rfl rfl rfl rfl rfl
        exact h9
      · exact h9
  clear_value s6
  have h11 : State.Holds q s8 := by
    unfold s8
    refine holds_ite (fun _ => ?_) (fun _ => ?_)
    · refine holds_same (s := s6) ?_ rfl rfl rfl rfl rfl rfl rfl rfl
      exact h10
    · exact h10
  clear_value s8
  apply holds_auditPush
  exact h11

theorem holds_tallyComplete (rd : ReadEnd) (hs : s.Holds q) : (tallyComplete rd s).Holds q := by
  unfold tallyComplete
  split
  · exact hs
  · extract_lets v1 s2 v3 v4 s5
    have h6 : State.Holds q s2 := by
      unfold s2
      apply holds_readsEnd
      exact hs
    clear_value s2
    have h7 : State.Holds q s5 := by
      unfold s5
      refine holds_same (s := s2) ?_ rfl rfl rfl rfl rfl rfl rfl rfl
      exact h6
    clear_value s5
    refine holds_ite (fun _ => ?_) (fun _ => ?_)
    · apply holds_declareEnds
      exact h7
    · apply holds_tallyEnds
      exact h7

theorem ends_execDeclare (rd : ReadEnd) (hs : s.Holds q) : Ends q (execDeclare rd s) := by
  unfold execDeclare
  apply ends_onHead
  · intro x1 s2 h3
    apply holds_tallyBegins
    exact h3
  · exact hs

theorem ends_execTallyComplete (rd : ReadEnd) (hs : s.Holds q) : Ends q (execTallyComplete rd s) := by
  unfold execTallyComplete
  refine ends_act ?_ (fun s1 h2 => ?_)
  · exact hs
  · apply holds_tallyComplete
    exact h2

/-! ### Registers -/

theorem holds_whenBit (v : Nat) (i : Nat) {f : State → State} (hf : ∀ (x : State), x.Holds q → (f x).Holds q) (hs : s.Holds q) : (whenBit v i f s).Holds q := by
  unfold whenBit
  refine holds_ite (fun _ => ?_) (fun _ => ?_)
  · apply hf
    exact hs
  · exact hs

theorem holds_fired {r : Res} (hr : Ends q r) (hs : s.Holds q) : (fired r s).Holds q := by
  unfold fired
  split
  · exact hr _ rfl
  · exact hs

theorem holds_writeCore (c : Nat) (o : Nat) (v : U32) (hs : s.Holds q) : (writeCore c o v s).Holds q := by
  unfold writeCore
  extract_lets v1 s2 s3 s4
  have h5 : State.Holds q s2 := by
    unfold s2
    refine holds_modCore _ (fun k6 h7 => ?_) ?_
    · refine wf_upd (k := k6) ?_ id id id id id id id id id id id id
      exact h7
    · exact hs
  clear_value s2
  have h8 : State.Holds q s3 := by
    unfold s3
    apply holds_whenBit
    · intro s9 h10
      refine holds_fired ?_ ?_
      · apply ends_execCoreHaltRequest
        exact h10
      · exact h10
    · exact h5
  clear_value s3
  have h11 : State.Holds q s4 := by
    unfold s4
    apply holds_whenBit
    · intro s12 h13
      refine holds_fired ?_ ?_
      · apply ends_execCoreResume
        exact h13
      · exact h13
    · exact h8
  clear_value s4
  split
  · apply holds_whenBit
    · intro s14 h15
      refine holds_fired ?_ ?_
      · apply ends_execCoreSingleStep
        exact h15
      · exact h15
    · exact h11
  · refine holds_ite (fun _ => ?_) (fun _ => ?_)
    · refine holds_modCore _ (fun k16 h17 => ?_) ?_
      · refine wf_upd (k := k16) ?_ id id id id id id id id id id id id
        exact h17
      · exact hs
    · exact hs
  · refine holds_modCore _ (fun k18 h19 => ?_) ?_
    · refine wf_upd (k := k18) ?_ id id id id id id id id id id id id
      exact h19
    · exact hs
  · refine holds_ite (fun _ => ?_) (fun _ => ?_)
    · refine holds_modCore _ (fun k20 h21 => ?_) ?_
      · refine wf_upd (k := k20) ?_ id id id id id id id id id id id id
        exact h21
      · exact hs
    · exact hs
  · exact hs

theorem holds_writeEndsHold (m : Nat) (key : Nat) (hs : s.Holds q) : (writeEndsHold m key s).Holds q := by
  unfold writeEndsHold
  refine holds_ite (fun _ => ?_) (fun _ => ?_)
  · refine holds_same (s := s) ?_ rfl rfl rfl rfl rfl rfl rfl rfl
    exact hs
  · exact hs

theorem holds_writeIsAccess (m : Nat) (p : Page) (o : Nat) (hs : s.Holds q) : (writeIsAccess m p o s).Holds q := by
  unfold writeIsAccess
  refine holds_ite (fun _ => ?_) (fun _ => ?_)
  · apply holds_writeEndsHold
    exact hs
  · refine holds_ite (fun _ => ?_) (fun _ => ?_)
    · apply holds_writeEndsHold
      exact hs
    · exact hs

theorem holds_holdLo (m : Nat) (p : Page) (o : Nat) (v : U32) (hs : s.Holds q) : (holdLo m p o v s).Holds q := by
  unfold holdLo
  apply holds_writeEndsHold
  refine holds_same (s := s) ?_ rfl rfl rfl rfl rfl rfl rfl rfl
  exact hs

theorem holds_commitPair (p : Page) (o : Nat) (v : U64) (hs : s.Holds q) : (commitPair p o v s).Holds q := by
  unfold commitPair
  extract_lets v1 v2 v3 v4 v5 v6 v7 v8 v9 v10
  split
  · refine holds_ite (fun _ => ?_) (fun _ => ?_)
    · refine holds_same (s := s) ?_ rfl rfl rfl rfl rfl rfl rfl rfl
      exact hs
    · refine holds_ite (fun _ => ?_) (fun _ => ?_)
      · refine holds_same (s := s) ?_ rfl rfl rfl rfl rfl rfl rfl rfl
        exact hs
      · refine holds_ite (fun _ => ?_) (fun _ => ?_)
        · refine holds_same (s := s) ?_ rfl rfl rfl rfl rfl rfl rfl rfl
          exact hs
        · refine holds_ite (fun _ => ?_) (fun _ => ?_)
          · refine holds_same (s := s) ?_ rfl rfl rfl rfl rfl rfl rfl rfl
            exact hs
          · refine holds_ite (fun _ => ?_) (fun _ => ?_)
            · refine holds_same (s := s) ?_ rfl rfl rfl rfl rfl rfl rfl rfl
              exact hs
            · refine holds_ite (fun _ => ?_) (fun _ => ?_)
              · refine holds_same (s := s) ?_ rfl rfl rfl rfl rfl rfl rfl rfl
                exact hs
              · exact hs
  · refine holds_ite (fun _ => ?_) (fun _ => ?_)
    · refine holds_same (s := s) ?_ rfl rfl rfl rfl rfl rfl rfl rfl
      exact hs
    · refine holds_ite (fun _ => ?_) (fun _ => ?_)
      · refine holds_same (s := s) ?_ rfl rfl rfl rfl rfl rfl rfl rfl
        exact hs
      · exact hs
  · refine holds_ite (fun _ => ?_) (fun _ => ?_)
    · refine holds_modCore _ (fun k11 h12 => ?_) ?_
      · refine wf_upd (k := k11) ?_ id id id id id id id id id id id id
        exact h12
      · exact hs
    · exact hs
  · refine holds_ite (fun _ => ?_) (fun _ => ?_)
    · refine holds_same (s := s) ?_ rfl rfl rfl rfl rfl rfl rfl rfl
      exact hs
    · exact hs
  · exact hs

theorem holds_commitHi (m : Nat) (p : Page) (o : Nat) (hi : U32) (hs : s.Holds q) : (commitHi m p o hi s).Holds q := by
  unfold commitHi
  extract_lets v1 v2 v3 v4 s5
  have h6 : State.Holds q s5 := by
    unfold s5
    refine holds_ite (fun _ => ?_) (fun _ => ?_)
    · refine holds_same (s := s) ?_ rfl rfl rfl rfl rfl rfl rfl rfl
      exact hs
    · exact hs
  clear_value s5
  apply holds_commitPair
  apply holds_writeEndsHold
  exact h6

theorem holds_keyTurns (hs : s.Holds q) : (keyTurns s).Holds q := by
  unfold keyTurns
  refine holds_same (s := s) ?_ rfl rfl rfl rfl rfl rfl rfl rfl
  exact hs

theorem holds_writeLoadCtl (v : Nat) (hs : s.Holds q) : (writeLoadCtl v s).Holds q := by
  unfold writeLoadCtl
  extract_lets v1 s2 v3
  have h4 : State.Holds q s2 := by
    unfold s2
    refine holds_same (s := s) ?_ rfl rfl rfl rfl rfl rfl rfl rfl
    exact hs
  clear_value s2
  refine holds_ite (fun _ => ?_) (fun _ => ?_)
  · exact holds_fired (ends_execLoadAbort h4) h4
  · refine holds_ite (fun _ => ?_) (fun _ => ?_)
    · refine holds_ite (fun _ => ?_) (fun _ => ?_)
      · exact holds_fired (ends_execCharterLoad _ _ h4) h4
      · exact holds_fired (ends_execFirmwareLoad _ _ h4) h4
    · exact h4

theorem holds_writeRingCtl (i : RingId) (bits : Nat) (v : Nat) (hs : s.Holds q) : (writeRingCtl i bits v s).Holds q := by
  unfold writeRingCtl
  extract_lets v1 v2
  apply holds_setRing
  exact hs

theorem holds_writeTail (i : RingId) (v : Nat) (hs : s.Holds q) : (writeTail i v s).Holds q := by
  unfold writeTail
  extract_lets v1
  apply holds_ringDrain
  apply holds_setRing
  exact hs

theorem holds_writeBlock (m : Nat) (o : Nat) (v : U32) (hs : s.Holds q) : (writeBlock m o v s).Holds q := by
  unfold writeBlock
  extract_lets v1 v2 v3 v4 v5 v6 v7 v8
  split
  · refine holds_same (s := s) ?_ rfl rfl rfl rfl rfl rfl rfl rfl
    exact hs
  · apply holds_whenBit
    · intro s9 h10
      apply holds_keyTurns
      exact h10
    · exact hs
  · apply holds_writeLoadCtl
    exact hs
  · refine holds_same (s := s) ?_ rfl rfl rfl rfl rfl rfl rfl rfl
    exact hs
  · refine holds_fired ?_ ?_
    · apply ends_execLoadData
      exact hs
    · exact hs
  · refine holds_same (s := s) ?_ rfl rfl rfl rfl rfl rfl rfl rfl
    exact hs
  · refine holds_fired ?_ ?_
    · apply ends_execCmdRegisterWord
      exact hs
    · exact hs
  · refine holds_ite (fun _ => ?_) (fun _ => ?_)
    · refine holds_same (s := s) ?_ rfl rfl rfl rfl rfl rfl rfl rfl
      exact hs
    · exact hs
  · refine holds_ite (fun _ => ?_) (fun _ => ?_)
    · refine holds_same (s := s) ?_ rfl rfl rfl rfl rfl rfl rfl rfl
      exact hs
    · exact hs
  · apply holds_writeRingCtl
    exact hs
  · apply holds_writeTail
    exact hs
  · refine holds_ite (fun _ => ?_) (fun _ => ?_)
    · apply holds_openWaiting
      refine holds_same (s := s) ?_ rfl rfl rfl rfl rfl rfl rfl rfl
      exact hs
    · exact hs
  · apply holds_writeRingCtl
    exact hs
  · apply holds_writeTail
    exact hs
  · apply holds_writeRingCtl
    exact hs
  · apply holds_writeTail
    exact hs
  · refine holds_same (s := s) ?_ rfl rfl rfl rfl rfl rfl rfl rfl
    exact hs
  · refine holds_same (s := s) ?_ rfl rfl rfl rfl rfl rfl rfl rfl
    exact hs
  · refine holds_same (s := s) ?_ rfl rfl rfl rfl rfl rfl rfl rfl
    exact hs
  · refine holds_same (s := s) ?_ rfl rfl rfl rfl rfl rfl rfl rfl
    exact hs
  · split
    · extract_lets v11
      refine holds_same (s := s) ?_ rfl rfl rfl rfl rfl rfl rfl rfl
      exact hs
    · refine holds_same (s := s) ?_ rfl rfl rfl rfl rfl rfl rfl rfl
      exact hs
    · exact hs

theorem holds_writeBook (o : Nat) (v : U32) (hs : s.Holds q) : (writeBook o v s).Holds q := by
  unfold writeBook
  extract_lets v1 v2
  split
  · refine holds_ite (fun _ => ?_) (fun _ => ?_)
    · refine holds_same (s := s) ?_ rfl rfl rfl rfl rfl rfl rfl rfl
      exact hs
    · exact hs
  · apply holds_whenBit
    · intro s3 h4
      apply holds_bookDumps
      exact h4
    · apply holds_whenBit
      · intro s5 h6
        apply holds_bookFormats
        exact h6
      · exact hs
  · refine holds_same (s := s) ?_ rfl rfl rfl rfl rfl rfl rfl rfl
    exact hs
  · refine holds_same (s := s) ?_ rfl rfl rfl rfl rfl rfl rfl rfl
    exact hs
  · exact hs

theorem holds_writeRoll (o : Nat) (v : U32) (hs : s.Holds q) : (writeRoll o v s).Holds q := by
  unfold writeRoll
  extract_lets v1 v2 s3
  have h4 : State.Holds q s3 := by
    unfold s3
    refine holds_ite (fun _ => ?_) (fun _ => ?_)
    · apply holds_forceArrival
      exact hs
    · refine holds_same (s := s) ?_ rfl rfl rfl rfl rfl rfl rfl rfl
      exact hs
  clear_value s3
  split
  · apply holds_whenBit
    · intro s5 h6
      apply holds_rollLoad
      exact h6
    · apply holds_whenBit
      · intro s7 h8
        apply holds_rollConfirm
        exact h8
      · exact h4
  · refine holds_same (s := s) ?_ rfl rfl rfl rfl rfl rfl rfl rfl
    exact hs
  · exact hs

theorem holds_writeGate (g : Nat) (o : Nat) (v : U32) (hs : s.Holds q) : (writeGate g o v s).Holds q := by
  unfold writeGate
  extract_lets v1 s2
  have h3 : State.Holds q s2 := by
    unfold s2
    refine holds_ite (fun _ => ?_) (fun _ => ?_)
    · refine holds_fired ?_ ?_
      · apply ends_execLinkEnableSet
        exact hs
      · exact hs
    · refine holds_fired ?_ ?_
      · apply ends_execLinkDisable
        exact hs
      · exact hs
  clear_value s2
  split
  · apply holds_whenBit
    · intro s4 h5
      refine holds_fired ?_ ?_
      · apply ends_execLinkRetrain
        exact h5
      · exact h5
    · exact h3
  · apply holds_modGate
    exact hs
  · apply holds_modGate
    exact hs
  · apply holds_modGate
    exact hs
  · exact hs

theorem holds_stageScale (v : U32) (hs : s.Holds q) : (stageScale v s).Holds q := by
  unfold stageScale
  refine holds_same (s := s) ?_ rfl rfl rfl rfl rfl rfl rfl rfl
  exact hs

theorem holds_stageStep (v : U32) (hs : s.Holds q) : (stageStep v s).Holds q := by
  unfold stageStep
  refine holds_same (s := s) ?_ rfl rfl rfl rfl rfl rfl rfl rfl
  exact hs

theorem holds_writeWide (o : Nat) (v : U32) (hs : s.Holds q) : (writeWide o v s).Holds q := by
  unfold writeWide
  extract_lets v1 v2
  split
  · apply holds_whenBit
    · intro s3 h4
      apply holds_tableLoad
      exact h4
    · refine holds_same (s := s) ?_ rfl rfl rfl rfl rfl rfl rfl rfl
      exact hs
  · refine holds_same (s := s) ?_ rfl rfl rfl rfl rfl rfl rfl rfl
    exact hs
  · refine holds_ite (fun _ => ?_) (fun _ => ?_)
    · apply holds_expUnpin
      exact hs
    · apply holds_expPin
      exact hs
  · apply holds_stageScale
    exact hs
  · apply holds_stageStep
    exact hs
  · refine holds_ite (fun _ => ?_) (fun _ => ?_)
    · apply holds_normAbandonDo
      exact hs
    · apply holds_whenBit
      · intro s5 h6
        apply holds_normReleaseDo
        exact h6
      · exact hs
  · exact hs

theorem holds_writeWell (w : Nat) (o : Nat) (v : U32) (hs : s.Holds q) : (writeWell w o v s).Holds q := by
  unfold writeWell
  extract_lets v1
  refine holds_ite (fun _ => ?_) (fun _ => ?_)
  · apply holds_writeWide
    exact hs
  · refine holds_ite (fun _ => ?_) (fun _ => ?_)
    · exact hs
    · split
      · apply holds_modWell
        exact hs
      · apply holds_modWell
        exact hs
      · apply holds_modWell
        exact hs
      · apply holds_modWell
        exact hs
      · exact hs

theorem holds_mgtWrite (m : Nat) (a : Nat) (v : U32) (hs : s.Holds q) : (mgtWrite m a v s).Holds q := by
  unfold mgtWrite
  split
  · refine holds_same (s := s) ?_ rfl rfl rfl rfl rfl rfl rfl rfl
    exact hs
  · refine holds_ite (fun _ => ?_) (fun _ => ?_)
    · exact hs
    · extract_lets v1 s2
      have h3 : State.Holds q s2 := by
        unfold s2
        apply holds_writeIsAccess
        refine holds_same (s := s) ?_ rfl rfl rfl rfl rfl rfl rfl rfl
        exact hs
      clear_value s2
      refine holds_ite (fun _ => ?_) (fun _ => ?_)
      · apply holds_holdLo
        exact h3
      · refine holds_ite (fun _ => ?_) (fun _ => ?_)
        · apply holds_commitHi
          exact h3
        · split
          · apply holds_writeBlock
            exact h3
          · apply holds_writeBook
            exact h3
          · apply holds_writeRoll
            exact h3
          · apply holds_writeGate
            exact h3
          · apply holds_writeCore
            exact h3
          · apply holds_writeWell
            exact h3

theorem holds_stagedWrite (a : Nat) (v : U32) (hs : s.Holds q) : (stagedWrite a v s).Holds q := by
  unfold stagedWrite
  split
  · refine holds_ite (fun _ => ?_) (fun _ => ?_)
    · apply holds_stageScale
      exact hs
    · refine holds_ite (fun _ => ?_) (fun _ => ?_)
      · apply holds_stageStep
        exact hs
      · exact hs
  · exact hs

theorem ends_execKeyTurn (hs : s.Holds q) : Ends q (execKeyTurn s) := by
  unfold execKeyTurn
  refine ends_act ?_ (fun s1 h2 => ?_)
  · exact hs
  · apply holds_keyTurns
    exact h2

theorem holds_readClears (p : Page) (o : Nat) (hs : s.Holds q) : (readClears p o s).Holds q := by
  unfold readClears
  split
  · refine holds_ite (fun _ => ?_) (fun _ => ?_)
    · refine holds_same (s := s) ?_ rfl rfl rfl rfl rfl rfl rfl rfl
      exact hs
    · refine holds_ite (fun _ => ?_) (fun _ => ?_)
      · refine holds_same (s := s) ?_ rfl rfl rfl rfl rfl rfl rfl rfl
        exact hs
      · refine holds_ite (fun _ => ?_) (fun _ => ?_)
        · refine holds_same (s := s) ?_ rfl rfl rfl rfl rfl rfl rfl rfl
          exact hs
        · refine holds_ite (fun _ => ?_) (fun _ => ?_)
          · refine holds_same (s := s) ?_ rfl rfl rfl rfl rfl rfl rfl rfl
            exact hs
          · split
            · refine holds_same (s := s) ?_ rfl rfl rfl rfl rfl rfl rfl rfl
              exact hs
            · exact hs
  · refine holds_ite (fun _ => ?_) (fun _ => ?_)
    · refine holds_same (s := s) ?_ rfl rfl rfl rfl rfl rfl rfl rfl
      exact hs
    · exact hs
  · exact hs
  · apply holds_modGate
    exact hs
  · refine holds_ite (fun _ => ?_) (fun _ => ?_)
    · refine holds_modCore _ (fun k1 h2 => ?_) ?_
      · refine wf_upd (k := k1) ?_ id id id id id id id id id id id id
        exact h2
      · exact hs
    · exact hs
  · refine holds_ite (fun _ => ?_) (fun _ => ?_)
    · exact hs
    · apply holds_modWell
      exact hs

theorem holds_mgtRead (m a : Nat) (hs : s.Holds q) : (mgtRead m a s).Holds q := by
  unfold mgtRead
  split
  · exact holds_same hs rfl rfl rfl rfl rfl rfl rfl rfl
  · refine holds_ite (fun _ => hs) (fun _ => ?_)
    extract_lets hi copy v m1 s1 p1
    have h1 : s1.Holds q := by
      unfold s1
      clear_value hi
      split
      · exact holds_same hs rfl rfl rfl rfl rfl rfl rfl rfl
      · exact holds_ite (fun _ => holds_same hs rfl rfl rfl rfl rfl rfl rfl rfl) (fun _ => hs)
    exact holds_readClears _ _ (holds_same h1 rfl rfl rfl rfl rfl rfl rfl rfl)

theorem ends_execReadLoCapture (m : Nat) (addr : Nat) (hs : s.Holds q) : Ends q (execReadLoCapture m addr s) := by
  unfold execReadLoCapture
  refine ends_act ?_ (fun s1 h2 => ?_)
  · exact hs
  · apply holds_mgtRead
    exact h2

theorem holds_pairWriteLo (m : Nat) (a : Nat) (v : U32) (hs : s.Holds q) : (pairWriteLo m a v s).Holds q := by
  unfold pairWriteLo
  split
  · refine holds_ite (fun _ => ?_) (fun _ => ?_)
    · apply holds_holdLo
      refine holds_same (s := s) ?_ rfl rfl rfl rfl rfl rfl rfl rfl
      exact hs
    · exact hs
  · exact hs

theorem ends_execPairWriteLo (m : Nat) (addr : Nat) (v : U32) (hs : s.Holds q) : Ends q (execPairWriteLo m addr v s) := by
  unfold execPairWriteLo
  refine ends_act ?_ (fun s1 h2 => ?_)
  · exact hs
  · apply holds_pairWriteLo
    exact h2

theorem ends_execReadClear (m : Nat) (addr : Nat) (hs : s.Holds q) : Ends q (execReadClear m addr s) := by
  unfold execReadClear
  refine ends_act ?_ (fun s1 h2 => ?_)
  · exact hs
  · apply holds_mgtRead
    exact h2

theorem ends_execRegisterWrite (m : Nat) (addr : Nat) (v : U32) (hs : s.Holds q) : Ends q (execRegisterWrite m addr v s) := by
  unfold execRegisterWrite
  refine ends_act ?_ (fun s1 h2 => ?_)
  · exact hs
  · apply holds_mgtWrite
    exact h2

theorem ends_execStagedWrite (addr : Nat) (v : U32) (hs : s.Holds q) : Ends q (execStagedWrite addr v s) := by
  unfold execStagedWrite
  refine ends_act ?_ (fun s1 h2 => ?_)
  · exact hs
  · apply holds_stagedWrite
    exact h2

end Sys2Proof.Machine
end

