-- ==== Sys2Proof/WellFormed.lean ====
section
/-! DEFINITION. Which commands are well formed: unit numbers inside the block (R1), register numbers, masters and
addresses inside the widths of their fields, beats and flits of the right size. -/

namespace Sys2Proof

/-- A core number (R1). -/
def wfCore (c : Nat) : Bool := decide (c < 2304)
/-- A gate number (R1). -/
def wfGate (g : Nat) : Bool := decide (g < 96)
/-- A well number (R1). -/
def wfWell (w : Nat) : Bool := decide (w < 32)
/-- A scalar register number (03 Table 03-3). -/
def wfReg (r : Nat) : Bool := decide (r < 32)
/-- A management master id (R563). -/
def wfMaster (m : Nat) : Bool := decide (m < 16)
/-- A management byte address: 22 bits, bits 1:0 zero (16 Table 16-5). -/
def wfAddr (a : Nat) : Bool := decide (a < 2 ^ 22 ∧ a % 4 = 0)
/-- A virtual channel (R233). -/
def wfVc (v : Nat) : Bool := decide (v < 8)
/-- A unit id of 15 Table 15-5. -/
def wfUnit (u : Nat) : Bool :=
  decide (u < 2304) || decide (0x1000 ≤ u ∧ u < 0x1000 + 96) || decide (0x2000 ≤ u ∧ u < 0x2000 + 32) ||
  decide (u = 0x3000) || decide (0x4000 ≤ u ∧ u < 0x4000 + 2304) || decide (u = 0x5000)

/-- An error in a core word: its bits are among the 80 that a word has (R102). -/
def wfErr (e : MemErr) : Bool := e.bits.all (fun b => decide (b < 80))

/-- Whether a command is well formed. -/
def Instr.wf : Instr → Bool
  | .powerGoodRise _ => true
  | .powerGoodFall _ => true
  | .powerOnReset _ => true
  | .softReset _ => true
  | .romSelfTest _ => true
  | .firmwareLoad _ _ => true
  | .charterLoad _ _ => true
  | .loadAbort => true
  | .loadData _ => true
  | .bookScan _ => true
  | .baselineTest _ => true
  | .wsBypass => true
  | .wsExtest => true
  | .wsIntestScan => true
  | .svIdcode => true
  | .svMbist => true
  | .cmdPortWord _ => true
  | .cmdRegisterWord _ => true
  | .step => true
  | .layerReady => true
  | .curfew => true
  | .barrier => true
  | .reset => true
  | .hinge => true
  | .hingeSwitch _ => true
  | .coreSave c => wfCore c
  | .coreRestore c _ => wfCore c
  | .program _ => true
  | .dispatchForward _ => true
  | .dispatchReplay _ => true
  | .ret _ => true
  | .expand _ => true
  | .declare _ => true
  | .tally _ => true
  | .tallyComplete _ => true
  | .almLoad _ => true
  | .almRun => true
  | .almTestResult _ _ => true
  | .post => true
  | .readLoCapture m addr => wfMaster m && wfAddr addr
  | .readClear m addr => wfMaster m && wfAddr addr
  | .pairWriteLo m addr _ => wfMaster m && wfAddr addr
  | .registerWrite m addr _ => wfMaster m && wfAddr addr
  | .stagedWrite addr _ => wfAddr addr
  | .keyTurn => true
  | .rollLoad _ => true
  | .rollConfirm => true
  | .forceArrival => true
  | .linkEnableSet g => wfGate g
  | .linkDisable g => wfGate g
  | .linkRetrain g => wfGate g
  | .normRelease => true
  | .normAbandon => true
  | .expTableLoad => true
  | .expTableLoadDone _ => true
  | .expPin slot => decide (slot < 8)
  | .expUnpin slot => decide (slot < 8)
  | .coreHaltRequest c => wfCore c
  | .coreResume c => wfCore c
  | .coreSingleStep c => wfCore c
  | .bookFormat => true
  | .bookDump => true
  | .laneFail g l => wfGate g && decide (l < 2)
  | .phyLost g => wfGate g
  | .linkBringupStart g => wfGate g
  | .trainFlit g flit => wfGate g && decide (flit.length = 64)
  | .trainTimeout g => wfGate g
  | .flitReceive g b0 b1 _ => wfGate g && b0.all (fun b => decide (b.length = 32)) && b1.all (fun b => decide (b.length = 32))
  | .ackReceive g ack _ => wfGate g && decide (ack < 2^16)
  | .ackSend g => wfGate g
  | .creditFlitSend g => wfGate g
  | .replayTimeout g => wfGate g
  | .greenFlitReceive unit _ => wfUnit unit
  | .chunkSend g vc _ => wfGate g && wfVc vc
  | .chunkReceive g _ _ => wfGate g
  | .maskFrameReceive g vc => wfGate g && wfVc vc
  | .chunkBolt _ => true
  | .shadowCopyReceive g => wfGate g
  | .shadowResult g _ => wfGate g
  | .boltNotice g _ => wfGate g
  | .revokeNotice g _ => wfGate g
  | .resendNotice g _ => wfGate g
  | .closeNotice g _ => wfGate g
  | .reabsorbDone => true
  | .cackNotice g _ => wfGate g
  | .askNotice g _ => wfGate g
  | .grantNotice g _ => wfGate g
  | .granaryGrant g pool => wfGate g && decide (pool < 4)
  | .stepNoticeUp g => g.all wfGate
  | .stepNoticeDown g => wfGate g
  | .localResetEnd => true
  | .deadlineExpire _ => true
  | .confirmationLimit _ => true
  | .orphanLimit _ => true
  | .curfewWaveTimeout _ => true
  | .crierFrameReceive g => wfGate g
  | .countsFrame => true
  | .stallAllocate ctx => decide (ctx < 32)
  | .grantFrame _ => true
  | .rowFrame => true
  | .returnRowFrame => true
  | .countsRequest => true
  | .capacityAdmit ctx => decide (ctx < 32)
  | .countsReply _ => true
  | .postingComplete ctx => decide (ctx < 32)
  | .postingTimeout ctx => decide (ctx < 32)
  | .combine ctx token _ => decide (ctx < 32) && decide (token < 2^16)
  | .combineTimeout ctx => decide (ctx < 32)
  | .normOpen => true
  | .forgeApply w _ _ => wfWell w
  | .forgeBlockApplied w => wfWell w
  | .wellRequestIssue w => wfWell w
  | .wellReadBeat w tag data _ => wfWell w && decide (tag < 1024) && decide (data.length = 256)
  | .wellCompletion w tag status => wfWell w && decide (tag < 1024) && decide (status < 4)
  | .wellTimeout w tag => wfWell w && decide (tag < 1024)
  | .wellRefresh w => wfWell w
  | .expanderFetch w => wfWell w
  | .expandBlock w => wfWell w
  | .longWordIssue c errs => wfCore c && errs.all wfErr
  | .add c rd rs1 rs2 => wfCore c && wfReg rd && wfReg rs1 && wfReg rs2
  | .sub c rd rs1 rs2 => wfCore c && wfReg rd && wfReg rs1 && wfReg rs2
  | .mul c rd rs1 rs2 => wfCore c && wfReg rd && wfReg rs1 && wfReg rs2
  | .and c rd rs1 rs2 => wfCore c && wfReg rd && wfReg rs1 && wfReg rs2
  | .or c rd rs1 rs2 => wfCore c && wfReg rd && wfReg rs1 && wfReg rs2
  | .xor c rd rs1 rs2 => wfCore c && wfReg rd && wfReg rs1 && wfReg rs2
  | .shl c rd rs1 rs2 => wfCore c && wfReg rd && wfReg rs1 && wfReg rs2
  | .shr c rd rs1 rs2 => wfCore c && wfReg rd && wfReg rs1 && wfReg rs2
  | .sra c rd rs1 rs2 => wfCore c && wfReg rd && wfReg rs1 && wfReg rs2
  | .slt c rd rs1 rs2 => wfCore c && wfReg rd && wfReg rs1 && wfReg rs2
  | .sltu c rd rs1 rs2 => wfCore c && wfReg rd && wfReg rs1 && wfReg rs2
  | .addi c rd rs1 _ => wfCore c && wfReg rd && wfReg rs1
  | .andi c rd rs1 _ => wfCore c && wfReg rd && wfReg rs1
  | .ori c rd rs1 _ => wfCore c && wfReg rd && wfReg rs1
  | .xori c rd rs1 _ => wfCore c && wfReg rd && wfReg rs1
  | .lui c rd _ => wfCore c && wfReg rd
  | .li c rd _ => wfCore c && wfReg rd
  | .ld c errs => wfCore c && errs.all wfErr
  | .st c errs => wfCore c && errs.all wfErr
  | .loop c level cnt e => wfCore c && decide (level < 4) && wfReg cnt && decide (e < 2^11)
  | .br c rs _ _ => wfCore c && wfReg rs
  | .dput c d q rs => wfCore c && decide (d < 16) && decide (q < 4) && wfReg rs
  | .setvl c rs1 => wfCore c && wfReg rs1
  | .setcnt c k source => wfCore c && decide (k < 8) && decide (source < 16)
  | .setcmp c k _ rs => wfCore c && decide (k < 8) && wfReg rs
  | .rdcnt c rd k => wfCore c && wfReg rd && decide (k < 8)
  | .rdlp c rd level => wfCore c && wfReg rd && decide (level < 4)
  | .layout c code => wfCore c && decide (code < 4)
  | .vectorRun c _ errs => wfCore c && errs.all wfErr
  | .eccWriteback c => wfCore c
  | .mac c errs => wfCore c && errs.all wfErr
  | .preload c errs => wfCore c && errs.all wfErr
  | .drain c errs => wfCore c && errs.all wfErr
  | .load c => wfCore c
  | .loadExpand c => wfCore c
  | .store c errs => wfCore c && errs.all wfErr
  | .handoff c errs _ => wfCore c && errs.all wfErr
  | .storeToCore c errs => wfCore c && errs.all wfErr
  | .opn c errs => wfCore c && errs.all wfErr
  | .loadComplete c => wfCore c
  | .storeComplete c => wfCore c
  | .vectorPassComplete c => wfCore c
  | .matrixOpComplete c => wfCore c
  | .wait c k => wfCore c && decide (k < 8)
  | .waitq c engine depth => wfCore c && decide (engine < 6) && decide (depth < 17)
  | .fence c => wfCore c
  | .signal c _ => wfCore c
  | .halt c => wfCore c
  | .take c => wfCore c
  | .syncRelease c => wfCore c
  | .statusWindowExpire unit => wfUnit unit
  | .bookCoalesceTimer unit _ => wfUnit unit
  | .exposureListWrite => true
  | .gateTxtake g _ _ => wfGate g
  | .grantDeadline ctx => decide (ctx < 32)
  | .confirmationIncomplete group => decide (group < 2 ^ 12)

end Sys2Proof
end

