-- ==== Sys2Proof/Tests/Slice0.lean ====
section
/-! SUPPORT. Tests of one step each, the smoke test of `Instr.wf`, and for every statement with hypotheses a witness: a
concrete state and operands that meet them, at the ends of the ranges where a statement has several clauses. Expected
values come from the tables and rules of spec/ that each test names. -/

namespace Sys2Proof.Tests

open Sys2Proof Sys2Proof.Machine

set_option Elab.async false

/-! ### Small states -/

/-- The state a command answers, if it answers one. -/
def after (c : Instr) (s : State) : Option State :=
  match exec c s with
  | .next t => some t
  | .fault _ => none
  | .refused _ => none

/-- Whether a command answers the state unchanged. -/
def same (c : Instr) (s : State) : Bool := after c s == some s

def fifoWith (w : U64) : State := { State.reset with cmd := { fifo := [w] } }
def coreWith (k : Core) : State := { State.reset with cores := [(0, k)] }
def gateWith (k : Gate) : State := { State.reset with gates := [(0, k)] }
def wellWith (k : Well) : State := { State.reset with wells := [(0, k)] }
def bootAt (n : Nat) : State := { State.reset with boot := { stage := n } }

/-- A charter of member 1 with core 5 and gate 7 fenced, well group 0, curfew group 0 and one map. -/
def aCharter : Charter :=
  { member := 1, nodeSize := 1, ctxBase := 0, curfewGroup := 0, wellGroups := 1, fencedCores := [5], fencedGates := [7]
    roles := [], slivers := [⟨1, 0, 0, 0, 64⟩], carve := [0, 0, 0, 0, 0, 4159], formats := 0, qclasses := [], rollDir := 0
    rollView := 0, mktRoute := 0, mktCtx := 0, deadline := 1000, quorum := 128, sampleLog2 := 16, sampleSeed := 1
    gran := [0x40404040], ranges := [], rangeMap := [], parkBase := [], parkSlots := [], almScratch := 0
    maps := [⟨0, 0, 0, 9, 0, 5, [], [], []⟩], jedec := 0xEF4018, density := 0x07FFFFFF, serial := 3, rated := 100000
    divider := 0, almKey := [], links := [], digest := zeros 32 }

def charterState : State := { State.reset with charter := some aCharter }

/-- A flat group 0 of members 2 and 1, whose only cell of a short vector has its root here, with member 2 on gate 0. -/
def flatGroup : Grp :=
  { id := 0, flat := true, tokenWeighted := false, arrivalOnly := false, cls := 0, members := [2, 1], deadline := 0
    fanout := 0, priority := 0, waitSlots := 1, rootDelivery := 0, psum := 1, bcastDelivery := 0
    view := { memberOf := true, root := true, flat := true, height := 1, position := 1, node := 1, p := 0, depth := 1
              adderGate := 0x7F, parentGate := 0x7F, parent := 0, sibling := 0, childCount := 1, firstChild := 0
              weight := 2, rootGates := [0] }
    children := [(2, 0)], subtree := [1], ordered := true, failed := false }

/-- A group 1 with a tree in which member 9 on gate 3 is this member's parent. -/
def leafGroup : Grp :=
  { flatGroup with id := 1, flat := false, fanout := 2, members := [9, 1], children := [], subtree := [], view := { flatGroup.view with
    root := false, flat := false, height := 0, position := 1, adderGate := 3, parentGate := 3, parent := 9, childCount := 0
    rootGates := [] } }

/-- The same members in the order that makes this member the head of the group's waves. -/
def headGroup : Grp := { flatGroup with members := [1, 2], view := { flatGroup.view with position := 0 } }

def opName0 : OpName := ⟨0, 3, 7⟩
def rollState0 : State := { charterState with roll := { groups := [flatGroup, leafGroup] } }
def openOp0 : Op := { name := opName0, n := 64, registered := true, cells := [{ idx := 0, requested := false }] }
def opState : State := { rollState0 with ops := [openOp0] }

/-! ### Well-formed commands: one ill-formed term for each check -/

theorem test_wf_core : Instr.wf (.halt 2303) = true ∧ Instr.wf (.halt 2304) = false := by decide
theorem test_wf_gate : Instr.wf (.ackSend 95) = true ∧ Instr.wf (.ackSend 96) = false := by decide
theorem test_wf_well : Instr.wf (.wellRefresh 31) = true ∧ Instr.wf (.wellRefresh 32) = false := by decide
theorem test_wf_reg : Instr.wf (.add 0 31 0 0) = true ∧ Instr.wf (.add 0 32 0 0) = false ∧ Instr.wf (.add 0 0 32 0) = false ∧
    Instr.wf (.add 0 0 0 32) = false ∧ Instr.wf (.lui 0 32 0) = false ∧ Instr.wf (.br 0 32 true 0) = false := by decide
theorem test_wf_master : Instr.wf (.readClear 15 0) = true ∧ Instr.wf (.readClear 16 0) = false := by decide
theorem test_wf_addr : Instr.wf (.stagedWrite 0x3FFFFC 0) = true ∧ Instr.wf (.stagedWrite 0x400000 0) = false ∧
    Instr.wf (.stagedWrite 2 0) = false := by decide
theorem test_wf_vc : Instr.wf (.chunkSend 0 7 none) = true ∧ Instr.wf (.chunkSend 0 8 none) = false ∧
    Instr.wf (.maskFrameReceive 0 8) = false := by decide
theorem test_wf_unit : Instr.wf (.statusWindowExpire 0x5000) = true ∧ Instr.wf (.statusWindowExpire 0x0900) = false ∧
    Instr.wf (.statusWindowExpire 0x1060) = false ∧ Instr.wf (.statusWindowExpire 0x2020) = false ∧
    Instr.wf (.statusWindowExpire 0x4900) = false ∧ Instr.wf (.statusWindowExpire 0x3001) = false := by decide
theorem test_wf_slot : Instr.wf (.expPin 7) = true ∧ Instr.wf (.expPin 8) = false ∧ Instr.wf (.expUnpin 8) = false := by decide
theorem test_wf_lane : Instr.wf (.laneFail 0 1) = true ∧ Instr.wf (.laneFail 0 2) = false := by decide
theorem test_wf_flit : Instr.wf (.trainFlit 0 (zeros 64)) = true ∧ Instr.wf (.trainFlit 0 (zeros 63)) = false := by decide
theorem test_wf_beats : Instr.wf (.flitReceive 0 (some (zeros 32)) none false) = true ∧
    Instr.wf (.flitReceive 0 (some (zeros 31)) none false) = false ∧
    Instr.wf (.flitReceive 0 none (some (zeros 33)) false) = false := by decide
theorem test_wf_ack : Instr.wf (.ackReceive 0 65535 false) = true ∧ Instr.wf (.ackReceive 0 65536 false) = false := by decide
theorem test_wf_pool : Instr.wf (.granaryGrant 0 3) = true ∧ Instr.wf (.granaryGrant 0 4) = false := by decide
theorem test_wf_notice_gate : Instr.wf (.stepNoticeUp none) = true ∧ Instr.wf (.stepNoticeUp (some 96)) = false := by decide
theorem test_wf_context : Instr.wf (.stallAllocate 31) = true ∧ Instr.wf (.stallAllocate 32) = false ∧
    Instr.wf (.combine 0 65535 .ok) = true ∧ Instr.wf (.combine 0 65536 .ok) = false := by decide
theorem test_wf_tag : Instr.wf (.wellTimeout 0 1023) = true ∧ Instr.wf (.wellTimeout 0 1024) = false ∧
    Instr.wf (.wellCompletion 0 0 4) = false ∧ Instr.wf (.wellReadBeat 0 0 (zeros 255) 0) = false := by decide +kernel
theorem test_wf_loop : Instr.wf (.loop 0 3 0 2047) = true ∧ Instr.wf (.loop 0 4 0 0) = false ∧
    Instr.wf (.loop 0 0 0 2048) = false := by decide
theorem test_wf_dput : Instr.wf (.dput 0 15 3 0) = true ∧ Instr.wf (.dput 0 16 0 0) = false ∧
    Instr.wf (.dput 0 0 4 0) = false := by decide
theorem test_wf_counter : Instr.wf (.setcnt 0 7 15) = true ∧ Instr.wf (.setcnt 0 8 0) = false ∧
    Instr.wf (.setcnt 0 0 16) = false ∧ Instr.wf (.setcmp 0 8 true 0) = false ∧ Instr.wf (.rdcnt 0 0 8) = false ∧
    Instr.wf (.rdlp 0 0 4) = false ∧ Instr.wf (.wait 0 8) = false := by decide
theorem test_wf_layout : Instr.wf (.layout 0 3) = true ∧ Instr.wf (.layout 0 4) = false := by decide
theorem test_wf_waitq : Instr.wf (.waitq 0 5 16) = true ∧ Instr.wf (.waitq 0 6 0) = false ∧
    Instr.wf (.waitq 0 0 17) = false := by decide
theorem test_wf_group : Instr.wf (.confirmationIncomplete 4095) = true ∧ Instr.wf (.confirmationIncomplete 4096) = false := by
  decide

/-! ### Witnesses: the queue, supplies, start-up, the FIFO -/

theorem witness_EmptyQueuePassesTime : State.reset.pending = [] ∧ State.reset.pins.pgAon = true ∧
    ({ State.reset with pins := { pgAon := false } } : State).pending = [] := by decide

theorem witness_NoCommandTouchesTheQueue :
    exec (.romSelfTest true) State.reset = .next { State.reset with boot := { stage := 1 } } := rfl

theorem witness_OnlyMissingUnitsStop : unitOk (.halt 2304) = false ∧ unitOk (.halt 2303) = true ∧
    unitOk (.ackSend 96) = false ∧ unitOk (.ackSend 95) = true ∧ unitOk (.wellRefresh 32) = false ∧
    unitOk (.wellRefresh 31) = true ∧ unitOk (.greenFlitReceive 0x5000 true) = false := by decide

theorem witness_DeadBlockIgnoresCommands : live { State.reset with pins := { rstSoftN := false } } = false ∧
    unitOk (.halt 2303) = true ∧ pinRow (.halt 2303) = false := by decide

theorem witness_Inv : State.reset.memsWf = true ∧ State.reset.unitsWf = true ∧ State.reset.cmd.fifo.length ≤ 256 := by
  decide

theorem witness_EveryStepKeepsCanonicalForm :
    step { State.reset with pending := [.halt 2303] } = exec (.halt 2303) State.reset ∧
    (after (.halt 2303) State.reset).isSome = true := ⟨rfl, by decide⟩

theorem witness_EveryRunIsCanonical : ∀ c ∈ [Instr.halt 2303, .ackSend 95], unitOk c = true := by decide

theorem witness_SupplyInputsActAsTheManualSays :
    State.reset.pins.pgAon = true ∧ State.reset.pins.rstPwrN = true ∧
    ({ State.reset with pins := { pgAon := false } } : State).pins.pgAon = false ∧
    ({ State.reset with pins := { rstPwrN := false } } : State).pins.rstPwrN = false := by decide

theorem witness_ResetsReachTheRomStage : State.reset.pins.rstPwrN = true ∧
    ({ State.reset with pins := { rstPwrN := false } } : State).pins.rstPwrN = false ∧
    State.reset.unitsWf = true ∧ resetsTo State.reset.pins State.reset State.reset := by
  refine ⟨rfl, rfl, rfl, rfl, ?_, fun _ _ => rfl⟩
  intro e h
  cases h

theorem witness_WrapperInstructions : powered State.reset = true ∧
    powered { State.reset with pins := { pgCore := false } } = false := by decide

theorem witness_SelfTestAndLoadsMoveTheStages :
    live State.reset = true ∧ State.reset.boot.stage = 0 ∧ live (bootAt 1) = true ∧ (bootAt 1).boot.stage = 1 ∧
    (bootAt 1).boot.len = 0 ∧ ({ State.reset with boot := { stage := 1, len := 64 } } : State).boot.len ≠ 0 ∧
    (bootAt 5).boot.stage ≠ 0 ∧ (bootAt 5).boot.stage ≠ 1 ∧ ReadEnd.error 0 ≠ .ok ∧ ReadEnd.poisoned [0] ≠ .ok ∧
    live { State.reset with boot := { stage := 1, len := 64, loadState := 2 } } = true ∧
    live { State.reset with boot := { stage := 1, len := 64, loadState := 1 } } = true := by decide

theorem witness_CharterIsAcceptedWholeOrNotAtAll :
    live (bootAt 1) = true ∧ (bootAt 1).boot.stage < 2 ∧ live (bootAt 2) = true ∧ 2 ≤ (bootAt 2).boot.stage ∧
    idleForCharter (bootAt 2) = true ∧ idleForCharter { bootAt 2 with cmd := { fifo := [0x01] } } = false ∧
    live { State.reset with boot := { stage := 2, len := 8, loadState := 1 } } = true ∧
    idleForCharter { State.reset with boot := { stage := 2, len := 8 } } = true ∧
    (let s : State := { State.reset with boot := { stage := 2, len := 8, loadState := 1 } }
     s.boot.loadState = 1 ∧ s.boot.buf.length + 4 < s.boot.len) ∧
    (let s : State := { State.reset with boot := { stage := 2, len := 8, loadState := 1, buf := zeros 4 } }
     s.boot.loadState = 1 ∧ s.boot.len ≤ s.boot.buf.length + 4) ∧ (bootAt 2).boot.loadState ≠ 1 := by decide +kernel

/-- An image of 96 bytes whose size field is wrong is refused with reason 3. -/
theorem witness_CharterIsAcceptedWholeOrNotAtAll_refused :
    charterReason { bootAt 2 with boot := { stage := 2, len := 96, target := true, source := true } }
      (natLe 4 0x4C585242 ++ natLe 2 1 ++ zeros 90) = some (3, 0) := by decide +kernel

/-- A flash whose sector 0 is blank and whose identity is the charter's. -/
def bookState (k : Nat) : State :=
  { charterState with boot := { stage := k }, book := { flashId := some ⟨0xEF4018, true, true, 0x07FFFFFF⟩ } }

theorem witness_ParishBookRows :
    live (bookState 3) = true ∧ (bookState 3).charter = some aCharter ∧ (bookState 3).boot.stage = 3 ∧
    (bookState 4).boot.stage = 4 ∧ aCharter.jedec ≠ 0 ∧ memWf 0xFF (bookState 3).book.flash = true ∧
    (bookState 3).book.unusable = false := by decide

theorem witness_ParishBookRows_format : formatOk (bookState 3) aCharter = true ∧
    formatOk { bookState 3 with book := { unusable := true } } aCharter = false ∧ State.reset.charter = none ∧
    ((0xEF4017 : Nat) ≠ aCharter.jedec ∨ (0x07FFFFFF : Nat) ≠ aCharter.density) := by decide +kernel

theorem witness_WordsEnterTheFifo :
    live State.reset = true ∧ cmdWordOk 0x01 = true ∧ cmdWordOk 0x07 = false ∧
    ({ State.reset with cmd := { fifo := List.replicate 255 0 } } : State).cmd.fifo.length < 256 ∧
    256 ≤ ({ State.reset with cmd := { fifo := List.replicate 256 0 } } : State).cmd.fifo.length ∧
    fifoOp .hinge = some 0x08 ∧ cmdOp 0x01 ≠ 0x08 ∧ State.reset.cmd.fifo = [] ∧ (fifoWith 0x01).cmd.fifo = [0x01] ∧
    ({ fifoWith 0x08 with step := { mismatch := true } } : State).step.mismatch = true ∧
    ({ fifoWith 0x08 with step := { resetDone := false } } : State).step.resetDone = false ∧
    ({ fifoWith 0x08 with forge := { hinging := true } } : State).forge.hinging = true ∧
    ({ fifoWith 0x08 with boot := { memErr := true } } : State).boot.memErr = true := by decide +kernel

/-! ### Witnesses: steps, waves, hinges, programs -/

theorem witness_StepCommandOpensTheStep : headIs (fifoWith 0x70001) 0x01 0x70001 [] ∧
    (fifoWith 0x70001).step.opened = none ∧
    headIs { fifoWith 0x70001 with step := { opened := some 0 } } 0x01 0x70001 [] := by decide

theorem witness_CurfewBarrierResetStartTheirWaves :
    headIs { fifoWith 0x70003 with step := { opened := some 7 } } 0x03 0x70003 [] ∧ field 0x70003 47 16 = 7 ∧
    headIs { rollState0 with cmd := { fifo := [0x04] } } 0x04 0x04 [] ∧
    grpOf { rollState0 with cmd := { fifo := [0x04] } } 0 = some flatGroup ∧ flatGroup.view.memberOf = true ∧
    headIs (fifoWith 0xFFFF00004) 0x04 0xFFFF00004 [] ∧ field 0xFFFF00004 35 20 = 0xFFFF ∧
    headIs (fifoWith 0x06) 0x06 0x06 [] := by decide

def upWave : Wave := { name := ⟨1, 0, 3, 0⟩, localCond := true }
def rootWave : Wave := { name := ⟨0, 0, 3, 0⟩, localCond := true, heard := [(2, 1)] }
def waveState (w : Wave) : State := { rollState0 with roll := { groups := [headGroup, leafGroup] }, waves := [w] }

theorem witness_StepUpGoesOnceBothConditionsHold :
    findWave (waveState upWave) ⟨1, 0, 3, 0⟩ = some upWave ∧ myGrp (waveState upWave) 1 = some leafGroup ∧
    upWave.sentUp = false ∧ localCond (waveState upWave) upWave = true ∧ upComplete leafGroup upWave = true ∧
    waveParent leafGroup = some (9, 3) ∧ findWave (waveState rootWave) ⟨0, 0, 3, 0⟩ = some rootWave ∧
    myGrp (waveState rootWave) 0 = some headGroup ∧ localCond (waveState rootWave) rootWave = true ∧
    upComplete headGroup rootWave = true ∧ waveParent headGroup = none ∧
    upComplete headGroup { rootWave with heard := [] } = false ∧
    findWave (waveState { upWave with sentUp := true }) ⟨1, 0, 3, 0⟩ = some { upWave with sentUp := true } ∧
    findWave (waveState { upWave with sentUp := true, down := true }) ⟨1, 0, 3, 0⟩ =
      some { upWave with sentUp := true, down := true } ∧
    (let w : Wave := { name := ⟨1, 1, 0, 7⟩, sentUp := true, down := true }
     findWave (waveState w) ⟨1, 1, 0, 7⟩ = some w ∧ w.down = true ∧ localCond (waveState w) w = false) := by decide

def stepUpNotice (phase : Nat) : Bytes := mkNotice nStep 0 3 0 0 0 2 0 (natLe 1 0 ++ natLe 1 phase ++ zeros 2 ++ natLe 4 1)
def noticeState (n : Bytes) : State := { opState with gates := [(0, { state := 2, rxBuf := [(1, [natLe 1 7 ++ n])] })] }

theorem witness_StepNotices :
    headNotice (noticeState (stepUpNotice 0)) 0 (.link 1) = some (stepUpNotice 0) ∧ noticeCode (stepUpNotice 0) = nStep ∧
    stepPhase (stepUpNotice 0) ≠ 1 ∧ headNotice (noticeState (stepUpNotice 1)) 0 (.link 1) = some (stepUpNotice 1) ∧
    stepPhase (stepUpNotice 1) = 1 ∧ headNotice State.reset 0 (.link 1) = none ∧
    myGrp State.reset (noticeHdr (stepUpNotice 0)).group = none ∧
    myGrp (noticeState (stepUpNotice 0)) (noticeHdr (stepUpNotice 0)).group = some flatGroup ∧
    numAt (stepUpNotice 0) 28 1 ≤ 3 ∧
    (∀ c ∈ waveChildren flatGroup, c.1 ≠ (noticeHdr (stepUpNotice 0)).member) ∧
    myGrp (waveState rootWave) (noticeHdr (stepUpNotice 0)).group = some headGroup ∧
    (∃ c ∈ waveChildren headGroup, c.1 = (noticeHdr (stepUpNotice 0)).member) ∧
    findWave State.reset ⟨0, 0, 3, 0⟩ = none := by decide

theorem witness_StepDownActsAsItsPurposeRequires : ¬ ((3 : Nat) = 0xFFFF ∧ State.reset.forge.hinging = true) ∧
    ¬ ((0xFFFF : Nat) = 0xFFFF ∧ State.reset.forge.hinging = true) ∧
    ({ State.reset with forge := { hinging := true } } : State).forge.hinging = true := by decide

theorem witness_ResetEndsAndTimeoutsOfWaves :
    live State.reset = true ∧ State.reset.roll.groups = [] ∧ rollState0.roll.groups ≠ [] ∧ rollState0.roll.confirming = [] ∧
    0 ∈ ({ rollState0 with roll := { rollState0.roll with confirming := [0] } } : State).roll.confirming ∧
    0 ∉ rollState0.roll.confirming ∧ findWave State.reset ⟨0, 0, 3, 0⟩ = none ∧ waveChildren headGroup = [(2, 0)] ∧
    findWave (waveState { rootWave with heard := [] }) ⟨0, 0, 3, 0⟩ = some { rootWave with heard := [] } ∧
    localCond (waveState { rootWave with heard := [] }) { rootWave with heard := [] } = true ∧
    findWave (waveState { rootWave with sentUp := true }) ⟨0, 0, 3, 0⟩ = some { rootWave with sentUp := true } ∧
    myGrp (waveState rootWave) 0 = some headGroup ∧ rootWave.down = false ∧ rootWave.name.purpose ≠ 2 := by decide

def hingeState (w : U64) : State := { charterState with cmd := { fifo := [w] } }
def switchState (f : ForgeB) : State := { charterState with forge := f }
def evalMap : PhaseMap := ⟨1, 4, 0, 9, 0, 5, [], [], []⟩
/-- A charter whose map 1 is an evaluation map, with core 3 in some state, and the hinge as given. -/
def evalState (f : ForgeB) (k : Core) : State :=
  { State.reset with
    charter := some { aCharter with maps := aCharter.maps ++ [evalMap] }, forge := f, cores := [(3, k)] }

theorem witness_HingeWaitsJoinsAndSwitches :
    headIs (hingeState 0x108) 0x08 0x108 [] ∧ mapNo (hingeState 0x108) (field 0x108 10 8) = none ∧
    headIs (hingeState 0x08) 0x08 0x08 [] ∧ mapNo (hingeState 0x08) 0 = some ⟨0, 0, 0, 9, 0, 5, [], [], []⟩ ∧
    hingeIdle ⟨0, 0, 0, 9, 0, 5, [], [], []⟩ (hingeState 0x08) = true ∧
    hingeIdle ⟨0, 0, 0, 9, 0, 5, [], [], []⟩ { hingeState 0x08 with wells := [(0, { fqueue := [⟨[], none, 0⟩] })] } = false ∧
    live (switchState { hinging := true, hingeReady := true }) = true ∧
    mapNo (switchState { hinging := true, hingeReady := true }) 0 = some ⟨0, 0, 0, 9, 0, 5, [], [], []⟩ ∧
    hingeIdle ⟨0, 0, 0, 9, 0, 5, [], [], []⟩ (switchState { hinging := true, hingeReady := true }) = true ∧
    mapEval ⟨0, 0, 0, 9, 0, 5, [], [], []⟩ = false ∧ State.reset.forge.hinging = false ∧
    movesOpen (switchState { hinging := true, hingeReady := true, switched := true }) = false ∧
    forgesIdle (switchState { hinging := true, hingeReady := true, switched := true }) = true := by decide

theorem witness_HingeWaitsJoinsAndSwitches_evaluation :
    (let s := evalState { hinging := true, hingeReady := true, target := 1 } { state := 2 }
     mapNo s s.forge.target = some evalMap ∧ s.forge.switched = false ∧ hingeIdle evalMap s = true ∧ mapEval evalMap = true ∧
       evalInForce s = false ∧ loadedCores s ≠ []) ∧
    (let s := { evalState { hinging := true, hingeReady := true, target := 1 } {} with ops := [{ openOp0 with name := ⟨0, 9, 7⟩ }] }
     mapNo s s.forge.target = some evalMap ∧ s.forge.switched = false ∧ hingeIdle evalMap s = false) ∧
    (let s := evalState { hinging := true, hingeReady := true, target := 1 } {}
     hingeIdle evalMap s = true ∧ loadedCores s = []) ∧
    (let s := { evalState { hinging := true, hingeReady := true, switched := true } {} with wells := [(0, { fqueue := [⟨[], none, 0⟩] })] }
     forgesIdle s = false ∧ mapNo s s.forge.target = some ⟨0, 0, 0, 9, 0, 5, [], [], []⟩) ∧
    (let s := evalState { hinging := true, hingeReady := true, switched := true, wasEval := true } { saved := true }
     movesOpen s = false ∧ forgesIdle s = true ∧ s.forge.wasEval = true ∧ mapEval ⟨0, 0, 0, 9, 0, 5, [], [], []⟩ = false ∧
       savedCores s ≠ []) ∧
    (let s := evalState { hinging := true, hingeReady := true, switched := true, wasEval := true } {}
     savedCores s = [] ∧ s.cores.all (fun e => !e.2.restoring) = true) := by decide +kernel

/-- A count-weighted dense tensor of instance 0 of 64 elements, and a charter whose map 0 names it. -/
def coldRec (owned : Bool) : TensorRec :=
  { tensor := if owned then 1 else 2, mode := 0, qclass := 0, param := 0, flags := 2, rows := 1, cols := 64, glean0 := 0x1000
    glean1 := 0x2000, statBase := 0, sketch := 0, group := 0, inst := 0, seed := 0 }
def coldState : State :=
  { rollState0 with
    charter := some { aCharter with maps := [⟨0, 0, 0, 9, 0, 5, [coldRec true, coldRec false], [], []⟩] }
    cmd := { fifo := [0x70002] }, step := { opened := some 7 } }

theorem witness_CommandWordsReachTheirCores_cold :
    headIs coldState 0x02 0x70002 [] ∧ field (0x70002#64).toNat 47 16 = 7 ∧ (7 : Nat) ≤ 7 ∧
    (∀ c ∈ millCores coldState, ringRoom (getCore coldState c) = true) ∧
    (countedTensors coldState 0).filter (fun x => coldCount coldState x == 0) = [] ∧
    myGrp coldState (coldRec false).group = some flatGroup ∧ sliversOf coldState (coldRec false).tensor = [] ∧
    sliversOf coldState (coldRec true).tensor = [⟨1, 0, 0, 0, 64⟩] ∧ memWf 0 coldState.host = true ∧
    0x2000 + 2 * 64 ≤ 2 ^ 52 ∧ (0 : Nat) < 4096 ∧ (7 : Nat) < 2 ^ 32 ∧ nilPieces flatGroup 64 = [(0, 64)] ∧
    (let s := { coldState with step := { lastCurfew := some 7 } }
     s.step.opened = none ∧ ∃ l, s.step.lastCurfew = some l ∧ 7 ≤ l) ∧
    ¬ (∃ o, ({ coldState with step := { opened := some 6 } } : State).step.opened = some o ∧ 7 ≤ o) := by
  iterate 13 refine ⟨by decide +kernel, ?_⟩
  refine ⟨⟨rfl, 7, rfl, by decide⟩, ?_⟩
  rintro ⟨o, h, l⟩
  cases h
  exact absurd l (by decide)

theorem witness_CommandWordsReachTheirCores :
    headIs (hingeState 0x90060) 0x60 0x90060 [] ∧ 2304 ≤ field 0x90060 19 8 ∧
    headIs (hingeState 0x560) 0x60 0x560 [] ∧ fencedCore (hingeState 0x560) (field 0x560 19 8) = true ∧
    headIs (hingeState 0x8FF60) 0x60 0x8FF60 [] ∧ field 0x8FF60 19 8 = 2303 ∧ fencedCore (hingeState 0x8FF60) 2303 = false ∧
    (getCore (hingeState 0x8FF60) 2303).posted ≤ (getCore (hingeState 0x8FF60) 2303).takes + 15 ∧
    headIs (hingeState 0x02) 0x02 0x02 [] ∧
    millCores { hingeState 0x02 with cores := [(0, { state := 1, posted := 16 })] } = [0] ∧
    ringRoom { state := 1, posted := 16 } = false ∧ ringRoom { state := 1, posted := 15 } = true := by decide

/-- An image at address 0 with one segment of 2 program bytes for core 0. -/
def imageBytes : Bytes :=
  natLe 4 0x4D4C5850 ++ natLe 2 1 ++ zeros 2 ++ natLe 4 0x00030001 ++ natLe 4 1 ++ zeros 68 ++
    natLe 8 17927500980171820362 ++ zeros 36 ++ natLe 2 0 ++ natLe 2 2 ++ zeros 4 ++ natLe 8 144 ++ zeros 2

def imageState (k : Core) : State :=
  { charterState with cmd := { fifo := [0x0C] }, host := mwrite 0 [] 0 imageBytes, cores := [(0, k)] }

theorem witness_ProgramIsAcceptedWholeOrRefused :
    headIs (imageState {}) 0x0C 0x0C [] ∧
    (let gs := segments (imageState {}) 0 1
     imageHeadOk (imageState {}) (hostRead (imageState {}) 0 128) 0 gs = true ∧
     gs.all (fun g => decide ((getCore (imageState {}) g.core).state ≠ 1 ∧ (getCore (imageState {}) g.core).state ≠ 3) &&
       !(getCore (imageState {}) g.core).saving) = true) ∧
    (segments (imageState { state := 1 }) 0 1).any (fun g =>
      decide ((getCore (imageState { state := 1 }) g.core).state = 1 ∨ (getCore (imageState { state := 1 }) g.core).state = 3) ||
        (getCore (imageState { state := 1 }) g.core).saving) = true ∧
    (tally ((hostRead (imageState {}) 0 146).drop 128) 0).toNat = numAt (hostRead (imageState {}) 0 128) 84 8 ∧
    hostPoisoned (imageState {}) 0 146 = false ∧ imageLen 1 (segments (imageState {}) 0 1) = 146 ∧
    headIs (fifoWith 0x0C) 0x0C 0x0C [] ∧
    imageHeadOk (fifoWith 0x0C) (hostRead (fifoWith 0x0C) 0 128) 0 [] = false := by decide +kernel

theorem witness_CoreSaveAndRestore :
    (getCore (coreWith { saving := true }) 0).saving = true ∧ engineIdle (getCore (coreWith { saving := true }) 0) = true ∧
    (coreWith { saving := true }).unitsWf = true ∧ (getCore (coreWith { restoring := true }) 0).restoring = true ∧
    engineIdle (getCore (coreWith { restoring := true }) 0) = true ∧ engineIdle { busyV := true } = false := by decide

/-- Core 0 asked to come back, with the head of a good image of zeros at its context. -/
def keptState : State :=
  { State.reset with
    host := mwrite 0 [] 0 (natLe 4 0x4C584353 ++ natLe 2 1 ++ zeros 6 ++ natLe 4 blkVersion.toNat), cores := [(0, { restoring := true })] }

theorem witness_CoreSaveAndRestore_image :
    (getCore keptState 0).restoring = true ∧ engineIdle (getCore keptState 0) = true ∧ keptState.unitsWf = true ∧
    memWf 0 keptState.host = true ∧ ctxAt keptState 2303 + 114688 ≤ 2 ^ 52 ∧
    imageOk 0 (hostRead keptState (ctxAt keptState 0) 114688) = true := by
  iterate 5 refine ⟨by decide +kernel, ?_⟩
  have host : keptState.host = [(0, 0x53), (1, 0x43), (2, 0x58), (3, 0x4C), (4, 1), (12, 1), (14, 3)] := by decide +kernel
  have beyond : ∀ x, 16 ≤ x → mget 0 keptState.host x = 0 := by
    intro x h
    have n : ∀ k, k < 16 → ¬ k = x ∧ ¬ x < k := by intro k hk; omega
    simp [host, mget, tget, n]
  have t : tally (slice (hostRead keptState 0 114688) 64 109760) 0 = 0 := by
    apply tally_zero
    rw [slice_hostRead _ (by decide) (by decide)]
    intro x hx
    obtain ⟨i, -, rfl⟩ := List.mem_map.mp hx
    exact beyond _ (by omega)
  have a : ∀ o m, o + m ≤ 114688 → numAt (hostRead keptState 0 114688) o m =
      leNat ((List.range m).map (fun i => mget 0 keptState.host (0 + (o + i)))) := by
    intro o m h
    rw [numAt, slice_hostRead _ h (by decide)]
  rw [show ctxAt keptState 0 = 0 by decide +kernel, imageOk, t, a 0 4 (by decide), a 4 2 (by decide), a 8 4 (by decide),
    a 12 4 (by decide), a 40 8 (by decide)]
  decide +kernel

/-! ### Witnesses: cores -/

theorem witness_ScalarArithmeticRows : live (coreWith { s := [(1, 5), (2, 7)] }) = true ∧
    (coreWith { s := [(1, 5), (2, 7)] }).unitsWf = true ∧ (getCore (coreWith { s := [(1, 5), (2, 7)] }) 0).wf = true ∧
    (getCore State.reset 2303).wf = true := by decide

theorem witness_ScalarRegisterReadsAndDescriptors : live (coreWith { cnt := [(7, 9)] }) = true ∧
    (coreWith { cnt := [(7, 9)] }).unitsWf = true ∧ (getCore (coreWith { cnt := [(7, 9)] }) 0).wf = true := by decide

theorem witness_LoopsAndBranches :
    (getCore (coreWith { s := [(1, 5)] }) 0).sp = 0 ∧ getS (getCore (coreWith { s := [(1, 5)] }) 0) 1 ≠ 0 ∧
    getS (getCore (coreWith { s := [(1, 5)] }) 0) 2 = 0 ∧ (1 : Nat) ≠ (getCore State.reset 0).sp ∧
    (let k := getCore (coreWith { pc := 6, progLen := 8 }) 0
     let dest : Int := k.pc + 2 * (0#13).toInt
     ¬ (dest < 0 ∨ k.progLen ≤ dest ∨ (0 < k.sp ∧ (dest < (tget {} k.loops (k.sp - 1)).start ∨ (tget {} k.loops (k.sp - 1)).stop < dest))))
    ∧ (let k := getCore (coreWith { pc := 6, progLen := 8 }) 0
       let dest : Int := k.pc + 2 * (1#13).toInt
       k.progLen ≤ dest) ∧ (2 : Int) * (0x1FFF#13).toInt + 0 < 0 := by decide

theorem witness_ScalarLoadsAndStores :
    (getCore (coreWith { q0 := [⟨.ld 1 0, 0⟩] }) 0).q0 = ⟨.ld 1 0, 0⟩ :: [] ∧
    (coreWith { q0 := [⟨.ld 1 0, 0⟩] }).unitsWf = true ∧
    (getCore (coreWith { q0 := [⟨.st 4092 7, 0⟩] }) 0).q0 = ⟨.st 4092 7, 0⟩ :: [] ∧
    (coreWith { q0 := [⟨.st 4092 7, 0⟩] }).unitsWf = true ∧
    (getCore (coreWith { q0 := [⟨.st 4092 7, 0⟩] }) 0).wf = true ∧ (getCore State.reset 0).q0 = [] ∧
    (getCore (coreWith { q0 := [⟨.st 4092 7, 0⟩], state := 1 }) 0).state = 1 ∧
    (∃ e ∈ [MemErr.mk .sdata 511 [0, 1, 2]], e.mem = CoreMem.sdata ∧ e.word = 4092 / 8 ∧ 2 < e.bits.length) := by decide

theorem witness_SyncRows :
    holdOver (getCore (coreWith { cnt := [(0, 1)], cmp := [(0, ⟨1, false⟩)] }) 0) (.cmp 0) = true ∧
    holdOver (getCore (coreWith { cmp := [(0, ⟨1, false⟩)] }) 0) (.cmp 0) = false ∧
    (4 : Nat) < 5 ∧ (16 : Nat) ≤ 16 ∧ depth (getCore State.reset 0) 4 ≤ 16 ∧
    (0 : Nat) < depth (getCore (coreWith { q1 := [⟨.ld 0 0, 0⟩] }) 0) 1 ∧ ¬ ((5 : Nat) < 5 ∧ (0 : Nat) ≤ 16) ∧
    ¬ ((0 : Nat) < 5 ∧ (17 : Nat) ≤ 16) ∧ engineIdle (getCore State.reset 0) = true ∧
    engineIdle (getCore (coreWith { busyM := true }) 0) = false ∧
    (getCore (coreWith { hold := some .fence }) 0).hold = some .fence ∧
    holdOver (getCore (coreWith { hold := some .fence }) 0) .fence = true ∧
    holdOver (getCore (coreWith { hold := some .fence, busyM := true }) 0) .fence = false ∧
    (getCore State.reset 0).hold = none := by decide

theorem witness_CoreControlRows :
    (getCore (coreWith { state := 1 }) 0).state = 1 ∧ (getCore State.reset 0).state ≠ 1 ∧
    (let k := getCore (coreWith { state := 2, haltCode := 0x14 }) 0
     k.state = 2 ∧ 0x10 ≤ k.haltCode ∧ k.haltCode ≤ 0x14 ∧ k.saving = false ∧ k.restoring = false) ∧
    ¬ (let k := getCore (coreWith { state := 2, haltCode := 0x0F }) 0
       k.state = 2 ∧ 0x10 ≤ k.haltCode ∧ k.haltCode ≤ 0x14 ∧ k.saving = false ∧ k.restoring = false) ∧
    (MemErr.mk .scratch 0 [3, 5]).bits.length ≤ 2 ∧ 2 < (MemErr.mk .scratch 8191 [0, 1, 2]).bits.length ∧
    (coreWith { state := 1 }).unitsWf = true ∧ bitOf (getCore (coreWith { memErr := 0x80000000 }) 0).memErr.toNat 31 = true ∧
    bitOf (getCore (coreWith { state := 3 }) 0).memErr.toNat 31 = false ∧ (getCore (coreWith { state := 3 }) 0).state = 3 ∧
    (∃ e ∈ [MemErr.mk .sdata 0 [0, 1, 2]], e.mem ≠ CoreMem.prog ∧ 2 < e.bits.length) ∧ ({} : Core).state = 0 := by decide

/-- A running core whose program is one word at 0 with one scalar slot: `w` is the slot. -/
def wordCore (w : Nat) : Core :=
  { state := 1, progLen := 6, prog := mwrite 0 [] 0 (natLe 2 1 ++ natLe 4 w) }

theorem witness_LongWordIssuesWholeOrHalts :
    (let k := getCore (coreWith (wordCore 0x41)) 0
     let w := readWord k k.pc
     k.state = 1 ∧ k.hold = none ∧ k.haltReq = false ∧ k.cntDue = false ∧ k.brkTagEn = false ∧ w.addr + w.len ≤ k.progLen ∧
       w.addr < k.progLen ∧ anyPoison k.poisonP w.addr w.len = false ∧
       issueFaults (coreWith (wordCore 0x41)) k { k with pc := w.addr + w.len } w = [] ∧
       (interlocked w && !k.q0.isEmpty) = false) ∧
    (let k := getCore (coreWith (wordCore 0x3F)) 0
     let w := readWord k k.pc
     lowest (issueFaults (coreWith (wordCore 0x3F)) k { k with pc := w.addr + w.len } w) = some (1, 0) ∧
       (interlocked w && !k.q0.isEmpty) = false) ∧
    (let k := getCore (coreWith { wordCore 0x41 with q0 := [⟨.ld 1 0, 0⟩] }) 0
     (interlocked (readWord k k.pc) && !k.q0.isEmpty) = true) ∧
    (getCore (coreWith { wordCore 0x41 with hold := some .fence }) 0).hold ≠ none ∧
    (getCore (coreWith { wordCore 0x41 with hold := some .fence, haltReq := true }) 0).haltReq = true ∧
    (getCore (coreWith { wordCore 0x41 with cntDue := true }) 0).cntDue = true ∧
    (let k := getCore (coreWith { wordCore 0x41 with progLen := 2 }) 0
     k.progLen < (readWord k k.pc).addr + (readWord k k.pc).len) ∧
    (let k := getCore (coreWith { wordCore 0x41 with poisonP := [0] }) 0
     anyPoison k.poisonP (readWord k k.pc).addr (readWord k k.pc).len = true) ∧
    (let k := getCore (coreWith { state := 1, progLen := 6, brkTagEn := true, brkTag := 5
                                  prog := mwrite 0 [] 0 (natLe 2 0x40 ++ natLe 2 5) }) 0
     k.brkTagEn = true ∧ k.skipTag = false ∧ (readWord k k.pc).tag = some k.brkTag) ∧
    (getCore State.reset 0).state ≠ 1 := by decide +kernel

def rowsDesc (n : Nat) : BitVec 128 := BitVec.ofNat 128 ((n - 1) * 2 ^ 64)

theorem witness_MatrixEngineRows :
    (let k := getCore (coreWith { q2 := [⟨.mac 7 (rowsDesc 4) (rowsDesc 8) false, 0⟩] }) 0
     k.busyM = false ∧ k.q2 = ⟨.mac 7 (rowsDesc 4) (rowsDesc 8) false, 0⟩ :: [] ∧
       (descOf (rowsDesc 4)).rows = tileRows k.layout ∧ (descOf (rowsDesc 8)).rows = tileCols k.layout ∧
       false = decide (k.layout = 3) ∧ 7 < tileCount k.layout ∧ tileCount k.layout ≤ 8 ∧
       (descOf (rowsDesc 5)).rows ≠ tileRows k.layout) ∧
    (let k := getCore (coreWith { layout := 3, q2 := [⟨.mac 79 (rowsDesc 8) (rowsDesc 8) true, 0⟩] }) 0
     (descOf (rowsDesc 8)).rows = tileRows k.layout ∧ (descOf (rowsDesc 8)).rows = tileCols k.layout ∧
       true = decide (k.layout = 3) ∧ 79 < tileCount k.layout ∧ tileCount k.layout ≤ 80) ∧
    (let k := getCore (coreWith { q2 := [⟨.preload 0 0, 0⟩] }) 0
     k.q2 = ⟨.preload 0 0, 0⟩ :: [] ∧ (k.layout = 3 → (descOf 0).fmt ∈ [7, 8, 9])) ∧
    (let k := getCore (coreWith { layout := 3, q2 := [⟨.preload 0 0, 0⟩] }) 0
     ¬ (k.layout = 3 → (descOf 0).fmt ∈ [7, 8, 9])) ∧
    (let k := getCore (coreWith { q2 := [⟨.drain 7 0 0 false true, 0⟩] }) 0
     k.q2 = ⟨.drain 7 0 0 false true, 0⟩ :: [] ∧
       (descOf 0).fmt ∈ (if k.layout = 3 then [0, 9] else [0, 1, 2, 0xA]) ∧ 7 < tileCount k.layout) ∧
    (descOf 0x30000).fmt ∉ [0, 1, 2, 0xA] ∧ (getCore (coreWith { busyM := true }) 0).busyM = true ∧
    tableWf 0 (getCore (coreWith { busyM := true }) 0).cnt = true := by decide

/-- A core whose vector queue holds a pass over no elements of a chain that copies. -/
def passCore : Core := { q1 := [⟨.run 0 [] [] true true 0, 0⟩] }

theorem witness_VectorEngineRows :
    (getCore (coreWith { busyV := true }) 0).busyV = true ∧ (getCore (coreWith passCore) 0).busyV = false ∧
    (getCore (coreWith passCore) 0).q1 = ⟨.run 0 [] [] true true 0, 0⟩ :: [] ∧
    passFaults (coreWith passCore) (passOf (getCore (coreWith passCore) 0) 0 [] [] 0) {} true true = 0x01 :: [] ∧
    (getCore State.reset 0).busyV = false ∧ tableWf 0 (getCore (coreWith { busyV := true }) 0).cnt = true := by decide +kernel

/-- A core with a pass over one element of a chain of one tap stage whose record goes to an address. -/
def tapCore (record : Nat) (row : RowSt) : Core :=
  { q1 := [⟨.run 0 [] [] false true 1, 0⟩], row := row
    sdata := mwrite 0 [] 0 ([1, 0] ++ natLe 2 record ++ [0, 0, 0x80, 0xFF, 0xFF, 0xFF, 0xFF, 0xFF, 0xFF, 0, 0, 0, 0x15, 0, 0xFF, 0xFF]) }
def tapPass (record : Nat) : Pass := passOf (tapCore record {}) 0 [] [] 1

theorem witness_VectorEngineRows_pass :
    passFaults (coreWith (tapCore 0x100 {})) (tapPass 0x100) {} false true = [] ∧ (tapPass 0x100).vl ≤ rowRoom (tapPass 0x100) 0 ∧
    (match passEffect (coreWith (tapCore 0x100 {})) 0 (tapPass 0x100) false true (tapCore 0x100 {}) with
     | .ok _ => true
     | .error _ => false) = true ∧
    passFaults (coreWith (tapCore 0xFFFF {})) (tapPass 0xFFFF) {} false true = [] ∧
    (match passEffect (coreWith (tapCore 0xFFFF {})) 0 (tapPass 0xFFFF) false true (tapCore 0xFFFF {}) with
     | .ok _ => 0
     | .error code => code) = 0x03 := by decide +kernel

/-- A row of 2^24 entries takes no more. -/
theorem witness_VectorEngineRows_full :
    (RowSt.mk (List.replicate (2 ^ 24) 0) true false false false).vals.length = 2 ^ 24 ∧
    rowRoom (tapPass 0x100) (2 ^ 24) < (tapPass 0x100).vl := ⟨List.length_replicate, by decide +kernel⟩

/-- Two records that may be merged: empty ones of source cores 0 and 1. -/
def mergeCore : Core := { state := 1, scratch := mwrite 0 [] (512 + 268) (natLe 2 1) }

theorem witness_VectorEngineRows_merge :
    (getCore (coreWith mergeCore) 0).busyV = false ∧ (getCore (coreWith mergeCore) 0).state ≠ 0 ∧
    ¬ ((0x10000 : Nat) + 320 + 8 * 1 ≤ 0x10000) ∧ mergeOk [] 1 [] = false ∧ (0x8000 : Nat) + 320 + 8 * 1 ≤ 0x10000 ∧
    (let k := getCore (coreWith mergeCore) 0
     let ins : List MergeIn := [⟨0, 1, false⟩, ⟨512, 1, false⟩]
     let spans := ins.map (fun i => (i.addr, 320 + 8 * leNat (scrRead k (i.addr + 244) 4)))
     spans = [(0, 320), (512, 320)] ∧ mergeOk ins 1 (spans.map (fun r => scrRead k r.1 r.2)) = true) := by decide +kernel

theorem witness_LoadEngineRows :
    (getCore (coreWith { q3 := [⟨.load 0 0 0, 0⟩] }) 0).q3 = ⟨.load 0 0 0, 0⟩ :: [] ∧
    (getCore (coreWith { q3 := [⟨.loadx 0 0 1, 0⟩] }) 0).q3 = ⟨.loadx 0 0 1, 0⟩ :: [] ∧
    (getCore State.reset 0).q3 = [] ∧
    (getCore (coreWith { loads := [⟨0, .well⟩] }) 0).loads.find? (loadOver (coreWith { loads := [⟨0, .well⟩] }) 0)
      = some ⟨0, .well⟩ ∧ (getCore State.reset 0).loads.find? (loadOver State.reset 0) = none ∧
    needsQ0 (coreWith { q3 := [⟨.load 0 0 0, 0⟩] }) 0x20040 = none := by decide

/-- A sketched tensor of rank 4 whose sketch region begins at 0x20000, with no Q there yet. -/
def sketchRec : TensorRec :=
  { tensor := 1, mode := 2, qclass := 0, param := 0, flags := 0, rows := 16, cols := 16, glean0 := 0x1000, glean1 := 0x2000
    statBase := 0, sketch := 0x20000, group := 0, inst := 0, seed := 0 }
def sketchState (k : Core) : State :=
  { rollState0 with
    charter := some { aCharter with maps := [⟨0, 0, 0, 9, 0, 5, [sketchRec], [], []⟩] }, step := { opened := some 7 }
    cores := [(0, k)] }
/-- A load of one row of 16 codes from the slot of step 6. -/
def sketchLoad : QOp := .load 0x1000010000 0x20040 0

theorem witness_LoadEngineRows_sketch :
    (getCore (sketchState { q3 := [⟨sketchLoad, 0⟩] }) 0).q3 = ⟨.load 0x1000010000 0x20040 0, 0⟩ :: [] ∧
    (descOf 0x1000010000).rows = 1 ∧ needsQ0 (sketchState { q3 := [⟨sketchLoad, 0⟩] }) 0x20040 = some (sketchRec, 0, 128) ∧
    0 < (descOf 0x1000010000).rowBytes ∧ (descOf 0x1000010000).rowBytes ≤ 128 := by decide +kernel

def storeState (op : QOp) : State := { opState with step := { opened := some 7 }, cores := [(0, { q4 := [⟨op, 0⟩] })] }
def openBytes (nm : OpName) (n : Nat) : Bytes := natLe 2 nm.group ++ natLe 2 nm.seq ++ natLe 4 nm.step ++ natLe 4 n
def openStore (nm : OpName) (n : Nat) : State :=
  { storeState (.opn 64) with cores := [(0, { q4 := [⟨.opn 64, 0⟩], scratch := mwrite 0 [] 64 (openBytes nm n) })] }
def handStore (h : Hdr) (os : List Op) : State :=
  { storeState (.handoff 0) with
    ops := os, cores := [(0, { q4 := [⟨.handoff 0, 0⟩], scratch := mwrite 0 [] 0 (hdrBytes h) })] }
def hdr0 : Hdr :=
  { kind := 0, fmt := 1, grp := 0, flags := 0, group := 0, seq := 3, index := 0, base := 0, count := 64, member := 1
    sparse := 0, weight := 1, step := 7 }

theorem witness_StoreEngineRows :
    (getCore (storeState (.store 0 0 0)) 0).q4 = ⟨.store 0 0 0, 0⟩ :: [] ∧
    (getCore (storeState (.stcore 0 2303 0 0)) 0).q4 = ⟨.stcore 0 2303 0 0, 0⟩ :: [] ∧ (2303 : Nat) < 2304 ∧
    (getCore (storeState (.stcore 0 2304 0 0)) 0).q4 = ⟨.stcore 0 2304 0 0, 0⟩ :: [] ∧
    (openRecord (scrRead (getCore (openStore ⟨0, 4, 7⟩ 64) 0) 64 16)).1 = ⟨0, 4, 7⟩ ∧
    myGrp (openStore ⟨0, 4, 7⟩ 64) 0 = some flatGroup ∧ mayOpen (openStore ⟨0, 4, 7⟩ 64) ⟨0, 4, 7⟩ = true ∧
    mayOpen (openStore ⟨0, 4, 8⟩ 64) ⟨0, 4, 8⟩ = false ∧ myGrp (openStore ⟨5, 4, 7⟩ 64) 5 = none ∧
    (getCore (coreWith { stores := [⟨0, .openWait ⟨0, 3, 7⟩ 4⟩] }) 0).stores.all
      (fun j => match j.kind with | .openWait _ _ => false | _ => true) = false ∧
    (getCore (storeState (.store 0 0 0)) 0).stores.all (fun j => match j.kind with | .openWait _ _ => false | _ => true) = true ∧
    memWf 0 (storeState (.store 0 0 0)).host = true ∧ (descOf 0).rows = 1 ∧ 0 + (descOf 0).rowBytes ≤ 2 ^ 52 ∧
    (getCore (storeState (.store 0 0 0)) 0).nilRanges = [] ∧ (storeState (.store 0 0 0)).unitsWf = true ∧
    (getCore (storeState (.stcore 0 2303 0 0)) 2303).torn = false ∧
    (let s := { storeState (.stcore 0 2303 0 0) with cores := [(0, { q4 := [⟨.stcore 0 2303 0 0, 0⟩] }), (2303, { torn := true })] }
     s.unitsWf = true ∧ (getCore s 2303).torn = true ∧ 0 < (descOf 0).rows) ∧
    (getCore (openWaiting (coreWith { stores := [⟨0, .done⟩] })) 0).stores.find?
      (storeOver (openWaiting (coreWith { stores := [⟨0, .done⟩] })) 0) = some ⟨0, .done⟩ ∧
    (getCore (openWaiting State.reset) 0).stores.find? (storeOver (openWaiting State.reset) 0) = none := by decide +kernel

def slotItem : SendItem := { mkItem [] [] 0 2 true true false none with slot := true }
def fullGate : Gate := { sendQ := List.replicate 64 slotItem }
/-- The header of the chunk that core 0 hands over. -/
def handHdr (s : State) : Hdr :=
  let b := handoffChunk (getCore s 0) 0
  hdrOf (if forForge s b then b else millChunk s 0 b)

theorem witness_StoreEngineRows_handoff :
    (let s := handStore hdr0 [openOp0]
     myGrp s (handHdr s).group = some flatGroup ∧ findOp s (hdrName (handHdr s)) = some openOp0 ∧ openOp0.registered = true ∧
       openOp0.failed = false ∧ sketchResult s flatGroup openOp0 (handHdr s) = false ∧ opEnded s openOp0 = false ∧
       gleanPending s 0 (handHdr s) = false) ∧
    (let s := handStore hdr0 []
     (findOp s (hdrName (handHdr s))).filter (·.registered) = none ∧ openWaits s (hdrName (handHdr s)) = false) ∧
    (let s := handStore hdr0 []
     let t := { s with cores := s.cores ++ [(1, { stores := [⟨0, .openWait opName0 64⟩] })] }
     (findOp t (hdrName (handHdr t))).filter (·.registered) = none ∧ openWaits t (hdrName (handHdr t)) = true) ∧
    (let s := handStore hdr0 [{ openOp0 with failed := true }]
     findOp s (hdrName (handHdr s)) = some { openOp0 with failed := true }) ∧
    (let s := handStore { hdr0 with group := 5 } []
     myGrp s (handHdr s).group = none) ∧
    (let o : Op := { openOp0 with handed := [(0, 64)], cells := [] }
     let s := handStore hdr0 [o]
     findOp s (hdrName (handHdr s)) = some o ∧ o.failed = false ∧ sketchResult s flatGroup o (handHdr s) = false ∧
       opEnded s o = true) ∧
    slotsUsed (getGate opState 0) < 64 ∧ closedHere openOp0 0 64 = false ∧
    64 ≤ slotsUsed fullGate := by decide +kernel

/-- Every chunk is sampled for the core check. -/
def checkState : State := { handStore hdr0 [openOp0] with charter := some { aCharter with sampleLog2 := 0 } }

theorem witness_StoreEngineRows_check :
    (let h := handHdr checkState
     myGrp checkState h.group = some flatGroup ∧ findOp checkState (hdrName h) = some openOp0 ∧
       sketchResult checkState flatGroup openOp0 h = false ∧ opEnded checkState openOp0 = false ∧
       gleanPending checkState 0 h = false ∧ slotsUsed (getGate checkState (handoffGate flatGroup openOp0.n 0).1) < 64 ∧
       coreSampled checkState h = true ∧ h.kind ≠ kNil) ∧
    coreSampled (handStore hdr0 [openOp0]) (handHdr (handStore hdr0 [openOp0])) = false ∧
    (let s := { handStore hdr0 [openOp0] with gates := [((handoffGate flatGroup openOp0.n 0).1, fullGate)] }
     findOp s (hdrName (handHdr s)) = some openOp0 ∧ 64 ≤ slotsUsed (getGate s (handoffGate flatGroup openOp0.n 0).1)) := by
  decide +kernel

/-- The gleanings of a dense tensor are being written by the core that hands a chunk of it over. -/
def gleanState : State :=
  { handStore hdr0 [openOp0] with
    charter := some { aCharter with maps := [⟨0, 0, 0, 9, 0, 5, [coldRec true], [], []⟩] }
    wells := [(0, { waiting := [{ op := 1, addr := 0x2000, len := 1, owner := .core 0 0, data := [], mask := [], poison := []
                                  dests := [], beats := 0 }] })] }

theorem witness_StoreEngineRows_gleanings :
    myGrp gleanState (handHdr gleanState).group = some flatGroup ∧ findOp gleanState (hdrName (handHdr gleanState)) = some openOp0 ∧
    sketchResult gleanState flatGroup openOp0 (handHdr gleanState) = false ∧ opEnded gleanState openOp0 = false ∧
    gleanPending gleanState 0 (handHdr gleanState) = true := by decide +kernel

/-- Q′ of a sketched tensor with a forge record whose result is wholly here. -/
def sketchOp : Op := { openOp0 with deliveredCells := [0] }
def qDoneState : State :=
  { handStore hdr0 [sketchOp] with
    charter := some { aCharter with maps := [⟨0, 0, 0, 9, 0, 5, [sketchRec],
      [{ tensor := 1, family := 3, flags := 0, group := 0, seq := 3, bgroup := 0xFFFF, bseq := 0, wbase := 0, lbase := 0
         mbase := 0, sbase := 0, first := 0, count := 64, eta := 0, lam := 0, beta1 := 0, beta2 := 0, eps := 0 }], []⟩] } }

theorem witness_StoreEngineRows_sketch :
    myGrp qDoneState (handHdr qDoneState).group = some flatGroup ∧ sketchOp.registered = true ∧ sketchOp.failed = false ∧
    findOp qDoneState (hdrName (handHdr qDoneState)) = some sketchOp ∧
    sketchResult qDoneState flatGroup sketchOp (handHdr qDoneState) = true := by decide +kernel

/-! ### Witnesses: wells, expanders, forges -/

def aReq : WReq := { op := 0, addr := 0, len := 1, owner := .core 0 0, data := [], mask := [], poison := [], dests := [], beats := 0 }

theorem witness_WellRequestsLeaveUnderTheLowestFreeTag :
    wellPresent (wellWith { waiting := [aReq] }) 0 = true ∧
    nextReq (wellWith { waiting := [aReq] }) (getWell (wellWith { waiting := [aReq] }) 0) = some (0, aReq) ∧
    freeTag (getWell (wellWith { waiting := [aReq] }) 0) = some 0 ∧ freeTag { busy := [(0, aReq)], quar := [1] } = some 2 ∧
    wellPresent charterState 31 = false ∧ nextReq State.reset (getWell State.reset 0) = none ∧
    (getWell (wellWith { busy := [(3, aReq)] }) 0).busy.find? (fun b => b.1 == 3) = some (3, aReq) ∧
    (wellWith { busy := [(3, aReq)] }).unitsWf = true ∧
    (getWell (wellWith { busy := [(3, aReq)] }) 0).busy.find? (fun b => b.1 == 2) = none := by decide +kernel

theorem witness_WellAnswersAreDelivered :
    (getWell (wellWith { busy := [(3, aReq)] }) 0).busy.find? (fun b => b.1 == 3) = some (3, aReq) ∧
    wellPresent (wellWith { busy := [(3, aReq)] }) 0 = true ∧ aReq.op = 0 ∧ aReq.owner = .core 0 0 ∧
    aReq.len = 4 * aReq.beats + 1 ∧ ({ aReq with beats := 1 } : WReq).len ≤ 4 * ({ aReq with beats := 1 } : WReq).beats ∧
    (5 : Nat) ∈ (getWell (wellWith { quar := [5] }) 0).quar ∧
    (getWell (wellWith { quar := [5] }) 0).busy.find? (fun b => b.1 == 5) = none ∧
    (6 : Nat) ∉ (getWell (wellWith { quar := [5] }) 0).quar ∧ (getCore State.reset 0).torn = false ∧ zeros 64 ≠ [] ∧
    ({ aReq with dests := [(0, 4096, 64)] } : WReq).dests = [(0, 4096, (zeros 64).length)] ∧ wellPresent charterState 31 = false := by
  decide +kernel

/-- A decode table image whose one symbol has a code of 1 bit. -/
def tableImage : Bytes := natLe 1 3 ++ zeros 15 ++ natLe 1 1 ++ zeros 255

def expState (e : ExpB) : State := { State.reset with exp := e, host := mwrite 0 [] 0 tableImage }

theorem witness_ExpanderRows_tables :
    slotCount (expState {}) 0 = 0 ∧ slotCount (expState { slots := [(0, { pins := 1 })] }) 0 ≠ 0 ∧
    (expState { loading := some (7, 1, 0) }).exp.loading = some (7, 1, 0) ∧
    tableOk (hostRead (expState { loading := some (7, 1, 0) }) 0 272) = true ∧
    tableOk (hostRead State.reset 0 272) = false ∧ (getSlot (expState {}) 7).pins = 0 ∧
    65535 ≤ (getSlot (expState { slots := [(7, { pins := 65535 })] }) 7).pins ∧
    (getSlot (expState { slots := [(7, { pins := 65534 })] }) 7).pins < 65535 := by decide +kernel

/-- An EXPAND descriptor at address 4096 for one block at well 0, and the word that names it. -/
def expandState (blocks : Nat) : State :=
  { State.reset with
    cmd := { fifo := [0x130] }
    host := mwrite 0 [] 4096 (natLe 8 0x1000 ++ natLe 8 0x4000 ++ natLe 4 blocks ++ natLe 1 0) }

theorem witness_ExpanderRows_expand :
    headIs (expandState 1) 0x30 0x130 [] ∧ field 0x130 47 8 * 4096 = 4096 ∧
    expandOk (expandState 1) (hostRead (expandState 1) 4096 64) = true ∧
    expandOk (expandState 0) (hostRead (expandState 0) 4096 64) = false := by decide +kernel

def aJob : ExpJob := { src := 0, dst := 0, left := 1, core := none, fetch := 0 }
/-- A block header for an identity block of 64 symbols of one byte. -/
def blockHead : Bytes :=
  natLe 2 0x5843 ++ natLe 1 3 ++ natLe 1 0 ++ natLe 1 0 ++ zeros 1 ++ natLe 2 0 ++ natLe 4 64 ++ natLe 4 512 ++ natLe 4 64 ++
    natLe 4 128 ++ zeros 8
def jobWell (bs : List (Nat × Bytes × Bool)) : Well := { jobs := [aJob], expBuf := bs }

theorem witness_ExpanderRows_blocks :
    (getWell (wellWith (jobWell [])) 0).jobs = aJob :: [] ∧ aJob.lostAt = false ∧
    aJob.fetch < blockEnd (jobWell []) aJob ∧ streamAt (jobWell []) aJob.src 32 = none ∧
    headerOk blockHead = true ∧
    streamAt (jobWell [(0, blockHead ++ zeros 32, false), (64, zeros 64, false)]) 0 32 = some (blockHead, false) ∧
    streamAt (jobWell [(0, blockHead ++ zeros 32, false), (64, zeros 64, false)]) 0 (numAt blockHead 20 4) =
      some (blockHead ++ zeros 32 ++ zeros 64, false) ∧
    streamAt (jobWell [(0, zeros 64, false)]) 0 32 = some (zeros 32, false) ∧ headerOk (zeros 32) = false ∧
    (getWell State.reset 0).jobs = [] ∧ ({ aJob with lostAt := true } : ExpJob).lostAt = true ∧
    (let k := jobWell []
     k.expBuf.length + fetching (wellWith k) 0 + 64 ≤ 1024) ∧
    (let k : Well := { jobs := [aJob], expBuf := List.replicate 1024 (4096, [], false) }
     ¬ (k.expBuf.length + fetching (wellWith k) 0 + 1 ≤ 1024) ∧ aJob.fetch < blockEnd k aJob) := by decide +kernel

def aRec : ForgeRec :=
  { tensor := 1, family := 3, flags := 0, group := 0, seq := 3, bgroup := 0xFFFF, bseq := 0, wbase := 0, lbase := 0, mbase := 0
    sbase := 0, first := 0, count := 64, eta := 0, lam := 0, beta1 := 0, beta2 := 0, eps := 0 }
def forgeCharter : Charter := { aCharter with maps := [⟨0, 1, 0, 9, 0, 5, [], [aRec], []⟩] }
/-- A chunk's header alone: what the rows before the result read. -/
def chunkOf (h : Hdr) : Bytes := hdrBytes h
def forgeState (b : Bytes) : State :=
  { State.reset with charter := some forgeCharter, wells := [(0, { fqueue := [⟨b, none, 7⟩] })] }

theorem witness_ForgeAndNormRows :
    (let s := forgeState (chunkOf hdr0)
     let h := hdrOf (entryChunk s 0 ⟨chunkOf hdr0, none, 7⟩)
     (getWell s 0).fbusy = none ∧ (getWell s 0).fqueue = ⟨chunkOf hdr0, none, 7⟩ :: [] ∧
       recordOf s h.group h.seq = some aRec ∧ mayApply s aRec 7 = true ∧ blockOf aRec h.base h.count = some 0 ∧
       mayApply s { aRec with family := 0 } 7 = false) ∧
    recordOf (forgeState (chunkOf { hdr0 with group := 9 })) 9 3 = none ∧
    anyPending (.forge 0) (wellWith { fbusy := some ([], none) }) = false ∧
    (getWell (wellWith { fbusy := some ([], none) }) 0).fbusy = some ([], none) ∧
    (switchState { hold := true }).forge.hold = true ∧ (switchState { hold := true }).unitsWf = true ∧
    State.reset.forge.hold = false ∧ normDue State.reset = false := by decide +kernel

/-- What a block of the record `aRec` comes to: 0 for writes, 1 for a skip, 2 for nothing. -/
def blockEnd0 (s : State) (b : Bytes) (bad : Bool) : Nat :=
  match computeBlock s aRec 0 b (latchedFor s 7) bad with
  | .writes _ => 0
  | .skip _ => 1
  | .nothing => 2

theorem witness_ForgeAndNormRows_blocks :
    (let b := chunkOf hdr0
     blockPoisoned .ok (forgeState b) aRec 0 b = false ∧ blockEnd0 (forgeState b) b false = 0 ∧
       forgeSampled (forgeState b) aRec 0 7 = false) ∧
    (let b := chunkOf { hdr0 with step := 6 }
     let s := { forgeState b with charter := some { forgeCharter with sampleLog2 := 4 } }
     forgeSampled s aRec 0 6 = true ∧ blockEnd0 s b false = 0) ∧
    (let b := chunkOf { hdr0 with flags := 4 }
     blockPoisoned .ok (forgeState b) aRec 0 b = true ∧ blockEnd0 (forgeState b) b true = 1) ∧
    (let b := chunkOf { hdr0 with kind := kNil, flags := 32 }
     blockPoisoned .ok (forgeState b) aRec 0 b = false ∧ blockEnd0 (forgeState b) b false = 2) ∧
    blockOf aRec 1 64 = none ∧ recordOf (forgeState []) (hdrOf (chunkOf hdr0)).group (hdrOf (chunkOf hdr0)).seq = some aRec ∧
    anyPending (.forge 0) (wellWith { waiting := [{ aReq with op := 1, owner := .forge 0 }] }) = true := by decide +kernel

/-- A state in which the norm chunk is due: a step is open and the map names group 0. -/
def normState : State :=
  { rollState0 with
    charter := some { aCharter with maps := [⟨0, 0, 0, 9, 0, 5, [], [], []⟩] }, step := { opened := some 7 } }

theorem witness_NormOpen : normState.step.opened = some 7 ∧ mapInForce normState = some ⟨0, 0, 0, 9, 0, 5, [], [], []⟩ ∧
    normDue normState = true ∧ mayOpen normState ⟨0, 9, 7⟩ = true ∧
    mayOpen { normState with step := { opened := some 7, mismatch := true } } ⟨0, 9, 7⟩ = false ∧
    normDue { normState with step := { opened := some 7, mismatch := true } } = true := by decide +kernel

/-! ### Witnesses: registers -/

theorem witness_RegisterReadsAnswer :
    live State.reset = true ∧ place State.reset 15 0x3FFFFC = none ∧ place State.reset 0 0x0FFFFC = none ∧
    place State.reset 15 0x200 = some (.block, 0x200) ∧ servesRead State.reset .block 0x200 = true ∧
    servesRead { State.reset with boot := { memErr := true } } .block 8 = false ∧
    servesRead { State.reset with boot := { memErr := true } } .block 0x7FC = true ∧
    place State.reset 15 0x7FC = some (.block, 0x7FC) ∧
    heldHi { State.reset with mgt := { holdHi := [(15, (0x200, 9))] } } 15 (regKey .block (0x204 - 4)) = some 9 ∧
    pairBelow State.reset .block 0x204 ≠ none ∧ pairAt State.reset .block 0x200 = some 0 ∧
    pairAt State.reset .block 0x204 = none ∧ heldHi State.reset 15 (regKey .block (0x204 - 4)) = none ∧
    tableWf (0 : U32) State.reset.faultCnt = true := by decide

def loHeld (m k : Nat) : State := { State.reset with mgt := { holdLo := [(m, (k, 0x12345678))] } }

theorem witness_PairsCommitBothHalves :
    live State.reset = true ∧ State.reset.boot.memErr = false ∧ place State.reset 15 0x200 = some (.block, 0x200) ∧
    rwPair .block 0x200 = true ∧ rwPair .block 0x208 = false ∧ place State.reset 15 0x208 = some (.block, 0x208) ∧
    place State.reset 15 0x030000 = none ∧
    (loHeld 15 0x200).mgt.holdLo.find? (fun e => e.1 == 15 && e.2.1 == 0x200) = some (15, (0x200, 0x12345678)) ∧
    State.reset.mgt.holdLo.find? (fun e => e.1 == 15 && e.2.1 == 0x200) = none ∧
    (loHeld 15 0x718).mgt.holdLo.find? (fun e => e.1 == 15 && e.2.1 == 0x718) = some (15, (0x718, 0x12345678)) := by decide

theorem witness_RegisterWritesTakeEffect : live State.reset = true ∧ State.reset.boot.memErr = false ∧
    place State.reset 15 0x3FFFFC = none ∧ place State.reset 15 (0x100000 + 0x1000 * 95) = some (.gate 95, 0) ∧
    (9 : Nat) ≤ (0x120#32).toNat / 32 % 32 ∧ ¬ ((0x2A0#32).toNat / 32 % 32 ≤ 20) := by decide

theorem witness_KeyTurnCopiesEveryShadow : live State.reset = true ∧ (0x2FFFFC : Nat) < 0x300000 ∧
    place State.reset 0 (0x300000 + 0x1000 * 31 + 0x844) = some (.well 31, 0x844) := by decide

/-! ### Witnesses: tallies, the almanac, the steward -/

/-- A descriptor of one region of 8 B at address 0, with its flags and the expected tally. -/
def tallyDesc (flags expected : Nat) : Bytes :=
  natLe 2 1 ++ natLe 1 flags ++ zeros 5 ++ natLe 8 expected ++ zeros 48 ++ natLe 8 0 ++ natLe 8 8

def tallyState (w : U64) (b : Bytes) : State :=
  { State.reset with cmd := { fifo := [w] }, host := mwrite 0 [] 4096 b, step := { opened := some 7 } }
def jobState (declare : Bool) (b : Bytes) : State :=
  { State.reset with host := mwrite 0 [] 4096 b, step := { opened := some 7, jobs := [⟨declare, 4096, 7⟩] } }

theorem witness_TallyDeclareAndAlmanacRows_tallies :
    headIs (tallyState 0x140 (tallyDesc 0 0)) 0x40 0x140 [] ∧ cmdAddr (0x140#64).toNat = 4096 ∧
    tallyDescOk true (hostRead (tallyState 0x140 (tallyDesc 0 0)) 4096 4096) = true ∧
    tallyDescOk true (hostRead (tallyState 0x140 (tallyDesc 1 0)) 4096 4096) = false ∧
    headIs (tallyState 0x141 (tallyDesc 3 0)) 0x41 0x141 [] ∧
    tallyDescOk false (hostRead (tallyState 0x141 (tallyDesc 3 0)) 4096 4096) = true ∧
    tallyDescOk false (hostRead (tallyState 0x141 (tallyDesc 4 0)) 4096 4096) = false ∧
    anyOpOpen (tallyState 0x141 []) = false ∧ forgesIdle (tallyState 0x141 []) = true ∧
    (tallyState 0x141 []).step.tallyBusy = false ∧
    anyOpOpen { opState with cmd := { fifo := [0x141] } } = true := by decide +kernel

theorem witness_TallyDeclareAndAlmanacRows_jobs :
    (jobState true (tallyDesc 0 0)).step.jobs = [⟨true, 4096, 7⟩] ∧ (jobState true []).step.opened = some 7 ∧
    (jobState false (tallyDesc 3 0)).step.jobs = [⟨false, 4096, 7⟩] ∧
    (let b := hostRead (jobState false (tallyDesc 3 0)) 4096 4096
     tallyCheck b = true ∧ tallyChain b = true ∧
       (tallyOfRegions (jobState false (tallyDesc 3 0)) b).toNat = numAt b 8 8) ∧
    (let b := hostRead (jobState false (tallyDesc 1 5)) 4096 4096
     tallyCheck b = true ∧ tallyChain b = false ∧
       (tallyOfRegions (jobState false (tallyDesc 1 5)) b).toNat ≠ numAt b 8 8) ∧ State.reset.step.jobs = [] := by decide +kernel

/-- A package with one test of the gates. Its key is the curve's neutral point, under which the signature of neutral R and
S 0 is good over every message. -/
def neutral : Bytes := natLe 1 1 ++ zeros 31
def almPackage (magic : Nat) : Bytes :=
  natLe 4 magic ++ natLe 2 1 ++ natLe 2 1 ++ natLe 4 9 ++ natLe 4 blkVersion.toNat ++ natLe 4 192 ++ zeros 44 ++
    natLe 1 1 ++ zeros 31 ++ zeros 32 ++ neutral ++ zeros 32
def almState (magic : Nat) : State :=
  { State.reset with
    charter := some { aCharter with almKey := neutral }
    cmd := { fifo := [0x150] }
    host := mwrite 0 [] 4096 (almPackage magic)
    book := { unusable := true } }

theorem witness_TallyDeclareAndAlmanacRows_package :
    headIs (almState 0x4E4D4C41) 0x50 0x150 [] ∧
    almRefused { almState 0x4E4D4C41 with cmd := { fifo := [] } } 4096 .ok = none ∧
    almRefused { almState 0 with cmd := { fifo := [] } } 4096 .ok = some 0 := by decide +kernel

def aTest (cls : Nat) : AlmTest := { unitClass := cls, offset := 64, len := 0, budget := 1, expected := 0, patTally := 0 }
def runState (w : U64) (run : Option AlmRunSt) : State :=
  { State.reset with cmd := { fifo := [w] }, alm := { tests := [aTest 1, aTest 0], installed := true, run := run } }

theorem witness_TallyDeclareAndAlmanacRows_runs :
    headIs (runState 0x600000051 none) 0x51 0x600000051 [] ∧
    (runState 0x600000051 none).alm.tests[field (0x600000051#64).toNat 15 8]? = some (aTest 1) ∧
    field (0x600000051#64).toNat 39 28 = 96 ∧ field (0x600000051#64).toNat 27 16 = 0 ∧ almUnits 1 = 96 ∧
    field (0x600010051#64).toNat 27 16 + field (0x600010051#64).toNat 39 28 = 97 ∧
    headIs (runState 0x600010051 none) 0x51 0x600010051 [] ∧ headIs (runState 0x51 none) 0x51 0x51 [] ∧
    field (0x51#64).toNat 39 28 = 0 ∧ headIs (runState 0x600000251 none) 0x51 0x600000251 [] ∧
    (runState 0x600000251 none).alm.tests[field (0x600000251#64).toNat 15 8]? = none ∧
    (mapInForce (runState 0x600000051 none)).all (fun m => hingeIdle m (runState 0x600000051 none)) = true ∧
    blockIdle (runState 0x600000051 none) = true ∧
    tally (hostRead (runState 0x600000051 none) (0 + 64) 0) ((0 + 64) / 8) = 0 ∧
    (runState 0x600000051 (some ⟨0, 95, 0⟩)).alm.run = some ⟨0, 95, 0⟩ ∧ (aTest 1).unitClass ≠ 0 ∧
    (runState 0x51 (some ⟨1, 2303, 0⟩)).alm.tests[1]? = some (aTest 0) ∧
    (getCore (runState 0x51 (some ⟨1, 2303, 0⟩)) 2303).saving = false ∧ almOutcome (aTest 1) .passTally 0 = 0 ∧
    almOutcome (aTest 1) .timeout 0 = 2 ∧
    (let s := { runState 0x51 (some ⟨1, 2303, 0⟩) with cores := [(2303, { saving := true })] }
     (aTest 0).unitClass = 0 ∧ s.alm.run = some ⟨1, 2303, 0⟩ ∧ (getCore s 2303).saving = true) ∧
    (runState 0x51 (some ⟨9, 0, 0⟩)).alm.tests[9]? = none ∧ ({ aTest 1 with patTally := 5 } : AlmTest).patTally ≠ 0 ∧
    (let s := { charterState with ops := [{ openOp0 with name := ⟨0, 9, 7⟩ }], roll := rollState0.roll }
     (mapInForce s).any (fun m => !hingeIdle m s) = true) := by decide +kernel

def unitState (u : UnitSt) : State := { State.reset with units := [(0x5000, u)] }

theorem witness_StewardTimersAndLists :
    unitExists 0x5000 = true ∧ unitExists uSteward = true ∧ (unitState { status := 3 }).unitsWf = true ∧
    (getUnit (unitState { status := 3 }) 0x5000).status = 3 ∧ (getUnit (unitState { status := 2 }) 0x5000).status = 2 ∧
    (getUnit (unitState { status := 2 }) 0x5000).lastRec = none ∧
    (getUnit (unitState { lastRec := some 0, heldN := 1 }) 0x5000).lastRec ≠ none ∧
    0 < (getUnit (unitState { lastRec := some 0, heldN := 1 }) 0x5000).heldN ∧
    (getUnit (unitState { lastRec := some 0 }) 0x5000).heldN = 0 ∧ (0x5000 : Nat) ≠ uSteward ∧
    State.reset.expose.waiting = [] ∧ State.reset.expose.ready = false ∧
    ({ State.reset with expose := { ready := true } } : State).expose.ready = true ∧
    ({ State.reset with expose := { waiting := [⟨0x5000, 1, 0, 0⟩] } } : State).expose.waiting = [⟨0x5000, 1, 0, 0⟩] := by decide

/-! ### Witnesses: links -/

def fullRx : Gate := { state := 2, rxBuf := [(2, List.replicate 512 [])] }

theorem witness_LinksComeUpAndGoDown :
    live (gateWith { state := 4 }) = true ∧ (getGate (gateWith { state := 4 }) 0).state = 4 ∧
    (getGate (gateWith { state := 3 }) 0).state = 3 ∧ linkInUse (gateWith { state := 3 }) 0 = false ∧
    linkInUse { opState with gates := [(0, { state := 3 })] } 0 = true ∧ (getGate State.reset 95).state = 0 ∧
    (gateWith { state := 2 }).unitsWf = true ∧ tableWf [] (getGate (gateWith fullRx) 0).rxBuf = true ∧ opState.ops ≠ [] ∧
    (∀ o ∈ opState.ops, o.limit = 0 ∧ o.stale = []) := by decide

def trainPayload (magic version state : Nat) : Bytes :=
  natLe 4 magic ++ natLe 4 version ++ zeros 5 ++ natLe 1 state ++ zeros 14 ++ natLe 1 0x5A ++ zeros 27

theorem witness_FlitsAreTakenInSequence_training :
    (gateWith { state := 1 }).unitsWf = true ∧ (getGate (gateWith { state := 1 }) 0).state = 1 ∧ flitGood (zeros 64) = false ∧
    (let f := flitBytes 2 (trainPayload 0x53564C58 0x00030001 2)
     flitGood f = true ∧ numAt f 0 4 % 16 = 2 ∧ numAt (flitPayload f) 28 1 = 0x5A ∧
       numAt (flitPayload f) 0 4 = 0x53564C58 ∧ numAt (flitPayload f) 4 4 = 0x00030001) ∧
    (let f := flitBytes 2 (trainPayload 0x53564C58 0x00030002 2)
     flitGood f = true ∧ numAt (flitPayload f) 28 1 = 0x5A ∧ numAt (flitPayload f) 4 4 ≠ 0x00030001) ∧
    (let f := flitBytes 2 (zeros 56)
     flitGood f = true ∧ numAt f 0 4 % 16 = 2 ∧ numAt (flitPayload f) 28 1 ≠ 0x5A) ∧
    (let f := flitBytes 0 (zeros 56)
     flitGood f = true ∧ numAt f 0 4 % 16 ≠ 2) := by decide +kernel

theorem witness_FlitsAreTakenInSequence_up :
    (getGate State.reset 95).state ≠ 1 ∧ (getGate State.reset 95).state ≠ 2 ∧ (getGate (gateWith { state := 2 }) 0).rx0 = [] ∧
    (getGate (gateWith { state := 2 }) 0).rxAges = [] ∧ numAt (flitBytes 1 (zeros 56)) 0 4 % 16 = 1 ∧
    (let h := numAt (flitBytes (flitHdr 7 1 0 0 0) (zeros 56)) 0 4
     h % 16 = 7 ∧ typeOnVc (h % 16) (field h 6 4) = true ∧ (tget [] (getGate (gateWith { state := 2 }) 0).rxBuf 1).length < vcSize 1) ∧
    (let h := numAt (flitBytes (flitHdr 3 0 0 0 0) (zeros 56)) 0 4
     h % 16 = 3 ∧ typeOnVc (h % 16) (field h 6 4) = true) ∧
    (getGate (gateWith { state := 2 }) 0).rx1 = [] ∧ (getGate (gateWith { state := 2 }) 0).state = 2 ∧
    (let f := flitBytes (flitHdr 5 2 0 0 0) (zeros 56)
     let h := numAt f 0 4
     flitGood f = true ∧ 2 < h % 16 ∧ bitOf h 7 = false ∧ field h 31 29 = 0 ∧ typeOnVc (h % 16) (field h 6 4) = true ∧
       field h 19 8 = (getGate (gateWith { state := 2 }) 0).expSeq ∧ h % 16 ≠ 3 ∧ h % 16 ≠ 7 ∧
       (tget [] (getGate (gateWith { state := 2 }) 0).rxBuf (field h 6 4)).length < vcSize (field h 6 4) ∧
       vcSize (field h 6 4) ≤ (tget [] (getGate (gateWith fullRx) 0).rxBuf (field h 6 4)).length) ∧
    (let f := flitBytes (flitHdr 5 2 1 0 0) (zeros 56)
     flitGood f = true ∧ 2 < numAt f 0 4 % 16 ∧ field (numAt f 0 4) 19 8 ≠ (getGate (gateWith { state := 2 }) 0).expSeq) := by
  decide +kernel

theorem witness_SentFlitsAreAcknowledgedOrReplayed :
    (gateWith { state := 2, replayBuf := [(4095, []), (0, [])] }).unitsWf = true ∧
    (getGate State.reset 95).state ≠ 2 ∧
    (let k := getGate (gateWith { state := 2, replayBuf := [(4095, []), (0, [])] }) 0
     k.state = 2 ∧ k.replayBuf = (4095, []) :: [(0, [])] ∧ (0 % 4096 + 4097 - 4095) % 4096 = 2 ∧
       2 ≤ [((0 : Nat), ([] : Bytes))].length + 1 ∧ 2 < (1 % 4096 + 4097 - 4095) % 4096 ∧
       (4094 % 4096 + 4097 - 4095) % 4096 = 0) ∧
    (getGate (gateWith { state := 2 }) 0).replayBuf = [] ∧
    (let m := takeBeats true true (getGate (gateWith { state := 2, txWin := [zeros 64, zeros 64] }) 0)
     m.txLead.1 < m.txWin.length ∧ m.txLead.2 < m.txWin.length) ∧
    (let m := takeBeats true true (getGate (gateWith { state := 2 }) 0)
     m.txWin.length ≤ max m.txLead.1 m.txLead.2) ∧ (getGate (gateWith { state := 1 }) 0).state = 1 ∧
    (gateWith { state := 2 }).unitsWf = true ∧ (getGate (gateWith { nakDue := true }) 0).nakDue = true ∧
    (getGate (gateWith { ackDue := true }) 0).ackDue = true ∧ (getGate (gateWith { replays := [[]] }) 0).replays = [[]] ∧
    greenUnit 0x5000 = false ∧ greenUnit 0x2000 = true := by decide +kernel

/-! ### Witnesses: rolls and chunks -/

theorem witness_RollLoadReplacesTheDirectory : live State.reset = true ∧ State.reset.charter = none ∧
    charterState.charter = some aCharter ∧ anyOpOpen charterState = false ∧ charterState.roll.confirming = [] ∧
    anyOpOpen opState = true ∧ opState.charter = some aCharter ∧ State.reset.roll.loadErr = false := by decide

/-- A directory of one group, number 0, whose record is not valid in its fields. -/
def badDir : State := { charterState with host := mwrite 0 [] 0 (zeros 2 ++ natLe 1 1 ++ zeros 61) }

theorem witness_RollLoadReplacesTheDirectory_errs :
    (loadGroup badDir aCharter ⟨[], 0, [], []⟩ 0).errs = [(0, 1)] ∧
    (loadGroup badDir aCharter ⟨[], 0, [], []⟩ 4095).errs = [] := by decide +kernel

def anItem (b : Bytes) (granted : Bool) : SendItem := mkItem b [] 0 2 false true granted none
def sendState (i : SendItem) : State := { opState with gates := [(0, { state := 2, sendQ := [i] })] }

theorem witness_ChunksLeaveInQueueOrder :
    (sendState (anItem (hdrBytes hdr0) true)).unitsWf = true ∧
    (∀ x ∈ (getGate (sendState (anItem (hdrBytes hdr0) false)) 0).sendQ, x.vc = 2 →
      maySend (sendState (anItem (hdrBytes hdr0) false)) 0 x = false) ∧
    (let i := anItem (hdrBytes hdr0) true
     (getGate (sendState i) 0).sendQ = [] ++ i :: [] ∧ i.vc = 2 ∧ maySend (sendState i) 0 i = true ∧ i.resend = false ∧
       i.firstHop = true ∧ ∀ o, findOp (sendState i) (hdrName (hdrOf (chunkSetFlag i.bytes cfLatched
         (unbolted (sendState i) i)))) = some o → o.closed = []) := by
  iterate 7 refine ⟨by decide +kernel, ?_⟩
  intro o h
  have e : (findOp (sendState (anItem (hdrBytes hdr0) true)) (hdrName (hdrOf (chunkSetFlag (anItem (hdrBytes hdr0) true).bytes
      cfLatched (unbolted (sendState (anItem (hdrBytes hdr0) true)) (anItem (hdrBytes hdr0) true)))))).map (·.closed) = some [] := by
    decide +kernel
  rw [h] at e
  exact Option.some.inj e

/-- A chunk that waits for its grant behind nothing, and one whose slot an earlier copy holds. -/
theorem witness_ChunksLeaveInQueueOrder_slots :
    (let i := { anItem (hdrBytes hdr0) true with firstHop := false, cell := some 0 }
     maySend (sendState i) 0 i = true ∧ i.firstHop = false ∧ i.resend = false ∧ holdsSlot i (getGate (sendState i) 0) = false) ∧
    (let i := { anItem (hdrBytes hdr0) true with vc := 7 }
     (getGate (sendState i) 0).sendQ = [] ++ i :: [] ∧ i.vc = 7 ∧ maySend (sendState i) 0 i = true) := by decide +kernel

def rxFlits (h : Hdr) : List Bytes := [natLe 1 4 ++ fit 0 56 (hdrBytes h), natLe 1 6 ++ zeros 56]
def rxState (vc : Nat) (fs : List Bytes) : State := { opState with gates := [(0, { state := 2, rxBuf := [(vc, fs)] })] }
def maskState (fs : List Bytes) : State :=
  { opState with gates := [(0, { state := 2, rxBuf := [(2, fs)], maskWait := [(2, hdrBytes hdr0)] })] }
def maskFlit (n : Nat) (b : Bytes) : Bytes := natLe 1 8 ++ fit 0 56 b ++ zeros (0 * n)

theorem witness_ChunksArriveWhole :
    (rxState 2 (rxFlits hdr0)).unitsWf = true ∧ nextFrame (tget [] (getGate State.reset 95).rxBuf 7) = none ∧
    (let k := getGate (rxState 2 (rxFlits hdr0)) 0
     (k.maskWait.any (fun w => w.1 == 2)) = false ∧ nextFrame (tget [] k.rxBuf 2) = some (0, rxFlits hdr0) ∧
       bitOf (hdrOf (fit 0 4144 ((rxFlits hdr0).flatMap (fun f => f.drop 1)))).flags cfMask = false) ∧
    (let fs := rxFlits { hdr0 with flags := 8 }
     nextFrame (tget [] (getGate (rxState 7 fs) 0).rxBuf 7) = some (0, fs) ∧
       bitOf (hdrOf (fit 0 4144 (fs.flatMap (fun f => f.drop 1)))).flags cfMask = true) ∧
    (getGate { opState with gates := [(0, { greenIn := [⟨hdrBytes hdr0, 0⟩] })] } 0).greenIn = ⟨hdrBytes hdr0, 0⟩ :: [] ∧
    (getGate State.reset 95).maskWait.find? (fun w => w.1 == 2) = none ∧
    (getGate (maskState []) 0).maskWait.find? (fun w => w.1 == 2) = some (2, hdrBytes hdr0) ∧
    (let f := natLe 1 8 ++ maskFrame [⟨5, false⟩] 1
     tget [] (getGate (maskState [f]) 0).rxBuf 2 = f :: [] ∧
       (f :: ([] : List Bytes)).takeWhile (fun x => decide (numAt x 0 1 = 8)) = [f] ∧ maskLen f = 1 ∧
       maskParse ((([f] : List Bytes).take 1).flatMap (fun x => x.drop 1)) = some ([⟨5, false⟩], 1)) ∧
    maskLen (natLe 1 8 ++ natLe 2 65 ++ zeros 54) = 65 ∧
    ((natLe 1 4 ++ zeros 56) :: ([] : List Bytes)).takeWhile (fun x => decide (numAt x 0 1 = 8)) = [] ∧
    bcastWaits { rxState 6 (rxFlits { hdr0 with step := 9 }) with step := { opened := some 7 } } 0
      (hdrOf (hdrBytes { hdr0 with step := 9 })) = true ∧
    bcastWaits (rxState 6 (rxFlits hdr0)) 0 (hdrOf (hdrBytes hdr0)) = false ∧
    (let f := natLe 1 8 ++ natLe 2 6 ++ zeros 54
     maskLen f = 6 ∧ ([f] : List Bytes).takeWhile (fun x => decide (numAt x 0 1 = 8)) = [f] ∧ ([f] : List Bytes).length < maskLen f ∧
       maskLen f ≤ 65) ∧
    (let f := natLe 1 8 ++ natLe 2 1 ++ zeros 54
     maskLen f ≤ 1 ∧ maskParse ((([f] : List Bytes).take 1).flatMap (fun x => x.drop 1)) = none) := by decide +kernel

def input2 : Hdr := { hdr0 with member := 2, kind := kDense16 }

theorem witness_ChunksArriveWhole_inputs :
    grpOf opState 4095 = none ∧ (hdrOf (hdrBytes { hdr0 with group := 4095 })).group = 4095 ∧
    (let h := hdrOf (hdrBytes input2)
     grpOf opState h.group = some flatGroup ∧ findOp opState (hdrName h) = some openOp0 ∧ openOp0.registered = true ∧
       opOpen opState openOp0 = true ∧ (cellsOf flatGroup h.base h.count).filter (fun j => (openOp0.cell j).isSome) = 0 :: [] ∧
       sibPos opState flatGroup openOp0.n 0 h.member = some 1 ∧
       ((h.member, h.base, h.count) ∉ openOp0.stale ∧
         (h.member, h.base, h.count) ∈ ({ openOp0 with stale := [(2, 0, 64)] } : Op).stale) ∧
       ∀ i ∈ [(0 : Nat)], ∀ c ∈ openOp0.cell i, 1 ∉ c.excl) := by decide +kernel

def builtCell : Cell := { idx := 0, out := hdrBytes { hdr0 with step := 7 }, phase := .queued }
def boltState (c : Cell) (g : Grp) : State :=
  { opState with roll := { groups := [g] }, ops := [{ openOp0 with cells := [c] }] }
def upGroup : Grp := { leafGroup with id := 0 }
def bcChunk : BcChunk :=
  { bytes := hdrBytes hdr0, mask := [], excluded := 0, fromGate := 0, confirmed := true, bolted := false, mine := false, delivered := false }
def mktCh (ok : Bool) (o : Option Nat) : MktChunk :=
  { bytes := hdrBytes { hdr0 with kind := kToken }, fromGate := 0, sealOk := ok, confirmed := true, forwardTo := o, dst := 1 }

theorem witness_ChunksBoltOnce :
    findOp State.reset opName0 = none ∧
    (let s := boltState { idx := 0 } flatGroup
     findOp s opName0 = some { openOp0 with cells := [{ idx := 0 }] } ∧ grpOf s 0 = some flatGroup ∧
       ({ openOp0 with cells := [{ idx := 0 }] } : Op).cell 0 = some { idx := 0 } ∧
       ({ openOp0 with cells := [{ idx := 0 }] } : Op).cell 1 = none ∧
       cellSettled { openOp0 with cells := [{ idx := 0 }] } { idx := 0 } = false) ∧
    (let c : Cell := { builtCell with outExcluded := 2 }
     let s := boltState c flatGroup
     cellSettled { openOp0 with cells := [c] } c = true ∧ isRoot flatGroup 64 0 = true ∧
       (flatGroup.members.length - c.outExcluded) * 256 ≤ flatGroup.members.length * (s.charter.map (fun c => c.quorum)).getD 0) ∧
    (let s := boltState builtCell upGroup
     cellSettled { openOp0 with cells := [builtCell] } builtCell = true ∧ isRoot upGroup 64 0 = false ∧
       shadowPassed s upGroup { openOp0 with cells := [builtCell] } builtCell = true ∧
       grpOf s 0 = some upGroup ∧ ({ openOp0 with cells := [builtCell] } : Op).cell 0 = some builtCell ∧
       (hdrOf builtCell.out).step < 2 ^ 31) ∧
    (let c : Cell := { builtCell with sampled := true }
     let s := boltState c flatGroup
     cellSettled { openOp0 with cells := [c] } c = true ∧ isRoot flatGroup 64 0 = true ∧
       flatGroup.members.length * (s.charter.map (fun c => c.quorum)).getD 0 < (flatGroup.members.length - c.outExcluded) * 256 ∧
       shadowPassed s flatGroup { openOp0 with cells := [c] } c = false ∧
       shadowPassed s flatGroup { openOp0 with cells := [{ c with shadowOk := true }] } { c with shadowOk := true } = true) ∧
    2 ^ 31 ≤ (hdrOf (hdrBytes { hdr0 with step := 2 ^ 31 })).step ∧
    openOp0.bc.find? (fun c => decide ((hdrOf c.bytes).index = 0) && c.confirmed && !c.bolted) = none ∧
    ({ openOp0 with bc := [bcChunk] } : Op).bc.find? (fun c => decide ((hdrOf c.bytes).index = 0) && c.confirmed && !c.bolted)
      = some bcChunk ∧
    (getGate State.reset 95).mkt[0]? = none ∧ (getGate (gateWith { mkt := [mktCh false none] }) 0).mkt[0]? = some (mktCh false none) ∧
    (getGate (gateWith { mkt := [mktCh true (some 95)] }) 0).mkt[0]? = some (mktCh true (some 95)) ∧
    (getGate (gateWith { mkt := [mktCh true none] }) 0).mkt[0]? = some (mktCh true none) ∧
    ({ mktCh true none with confirmed := false } : MktChunk).confirmed = false ∧
    (hdrOf (mktCh true none).bytes).kind ≠ kCounts ∧ (hdrOf (hdrBytes { hdr0 with kind := kCounts })).kind = kCounts ∧
    (getCtx (gateWith { mkt := [mktCh true none] }) (mopOf (hdrOf (mktCh true none).bytes).seq).ctx).record = none := by
  decide +kernel

/-! ### Witnesses: notices, limits, shadows -/

theorem witness_NoticesAreTakenInTurn :
    headNotice State.reset 95 .green = none ∧
    (let n := mkNotice 5 0 3 0 0 64 1 7 []
     headNotice (noticeState n) 0 (.link 1) = some n ∧ noticeCode n = 5 ∧ grpOf (noticeState n) (noticeHdr n).group ≠ none) ∧
    (let n := mkNotice 7 4095 3 0 0 64 1 7 []
     headNotice (noticeState n) 0 (.link 1) = some n ∧ noticeCode n = 7 ∧ grpOf (noticeState n) (noticeHdr n).group = none) ∧
    (let n := mkNotice 1 0 3 0 0 64 1 7 []
     noticeCode n = 1 ∧ namesMarket (popNotice 0 (.link 1) (noticeState n)) 0 n = false) ∧
    (let n := mkNotice 2 0 3 0 0 64 1 7 []
     let s : State := { noticeState n with
       gates := [(0, { state := 2, rxBuf := [(1, [natLe 1 7 ++ n])], mkt := [mktCh true none] })] }
     headNotice s 0 (.link 1) = some n ∧ noticeCode n = 2 ∧ namesMarket (popNotice 0 (.link 1) s) 0 n = true) ∧
    (∀ oc ∈ [1, 2, 4], (let n := mkNotice 4 0 3 0 0 64 1 7 (zeros 5 ++ natLe 1 oc)
     noticeCode n = 4 ∧ myGrp (noticeState n) (noticeHdr n).group ≠ none ∧ numAt n 33 1 = oc)) ∧
    (let n := mkNotice 4 0 3 0 0 64 1 7 []
     numAt n 33 1 = 0 ∧ (noticeHdr n).member = memberId (noticeState n) ∧ bitOf (numAt n 34 1) 0 = false) := by decide +kernel

def held2 : InChunk :=
  { pos := 1, member := 2, gate := 0, bytes := fit 0 4144 (hdrBytes input2), mask := [], excluded := 0, bolted := false
    added := [], waitCell := none }

def heldOp : Op := { openOp0 with arrived := [held2] }
def boltNotice2 : Bytes := mkNotice 1 0 3 0 0 64 2 7 (natLe 8 1)

theorem witness_NoticesAreTakenInTurn_bolt :
    (hdrName (noticeHdr boltNotice2) = opName0 ∧ heldOp.name = opName0 ∧ heldOp.failed = false ∧ heldOp.bc = [] ∧
       grpOf opState (noticeHdr boltNotice2).group = some flatGroup ∧ held2.bolted = false) ∧
    findOp { opState with ops := [heldOp] } (hdrName (noticeHdr boltNotice2)) = some heldOp ∧
    heldOp.arrived.find? (fun x => decide (x.gate = 0 ∧ x.pos ≠ 0) && sameChunk (hdrOf x.bytes) (noticeHdr boltNotice2))
      = some held2 :=
  ⟨by decide +kernel, List.find?_cons_of_pos (by decide +kernel), List.find?_cons_of_pos (by decide +kernel)⟩

theorem witness_NoticesAreTakenInTurn_seal : held2.held = true ∧ numAt boltNotice2 28 8 ≠ (sealOf held2.bytes).toNat := by
  have l : (hdrBytes input2).length = 32 := by decide +kernel
  have n1 : numAt boltNotice2 28 8 = 1 := by decide +kernel
  have e : held2.bytes.drop 4136 = List.replicate 8 0 := by
    simp [-List.reduceReplicate, held2, fit, List.drop_append, List.drop_eq_nil_of_le, l]
  have z : numAt held2.bytes 4136 8 = 0 := by rw [numAt, slice, e]; decide
  refine ⟨by simp [-List.reduceReplicate, InChunk.held, held2, fit, l, chunkBytes], ?_⟩
  rw [n1, sealOf, z]; decide

/-- The state after the notice left, with operation 0 as given. -/
def nState (n : Bytes) (o : Op) : State := { noticeState n with ops := [o] }
def castOp (c : BcChunk) : Op := { openOp0 with bc := [c] }

theorem witness_NoticesAreTakenInTurn_confirm :
    (let n := mkNotice 1 0 3 0 0 64 2 7 (natLe 8 0)
     let o : Op := { openOp0 with arrived := [{ held2 with bytes := hdrBytes input2 }] }
     let t := popNotice 0 (.link 1) (nState n o)
     namesMarket t 0 n = false ∧ findOp (nState n o) (hdrName (noticeHdr n)) = some o ∧
       o.arrived.find? (fun x => decide (x.gate = 0 ∧ x.pos ≠ 0) && sameChunk (hdrOf x.bytes) (noticeHdr n)) =
         some { held2 with bytes := hdrBytes input2 } ∧
       sealOf (hdrBytes input2) = BitVec.ofNat 64 (numAt n 28 8)) ∧
    (let n := mkNotice 1 0 3 0 0 64 1 7 (natLe 8 0)
     let c : BcChunk := { bcChunk with confirmed := false }
     noticeCode n = 1 ∧ (castOp c).bc.find? (fun c => decide (c.fromGate = 0) && sameChunk (hdrOf c.bytes) (noticeHdr n)) = some c ∧
       sealOf c.bytes = BitVec.ofNat 64 (numAt n 28 8) ∧ c.bolted = false ∧
       sealOf c.bytes ≠ BitVec.ofNat 64 (numAt (mkNotice 1 0 3 0 0 64 1 7 (natLe 8 1)) 28 8) ∧
       ({ c with bolted := true } : BcChunk).bolted = true) ∧
    (let n := mkNotice 2 0 3 0 0 64 2 7 []
     noticeCode n = 2 ∧ closedHere heldOp (noticeHdr n).base (noticeHdr n).count = false ∧ heldOp.bc = [] ∧
       ({ held2 with bolted := true } : InChunk).bolted = true) := by decide +kernel

/-- A copy of the chunk of `hdr0` that this gate retains, and the same queued again. -/
def keptCopy : Retained :=
  { bytes := hdrBytes hdr0, mask := [], excluded := 0, vc := 2, green := false, firstHop := true, unsent := false, acked := []
    reabsorbed := [], latched := true, gone := true, heldNotices := [], stomped := false, cell := none }
def keptGate (n : Bytes) (again : Bool) : Gate :=
  { state := 2, rxBuf := [(1, [natLe 1 7 ++ n])], retained := [keptCopy]
    sendQ := if again then [{ anItem (hdrBytes hdr0) true with resend := true }] else [] }

theorem witness_NoticesAreTakenInTurn_resend :
    (let n := mkNotice 3 0 3 0 0 64 1 7 []
     let found := fun (k : Gate) => k.retained.find? (fun r => sameChunk (hdrOf r.bytes) (noticeHdr n) && (r.green == false) && !r.unsent &&
       !(r.stomped && (r.cell.isSome || decide (r.vc = 6))))
     let again := fun (k : Gate) => k.sendQ.any (fun i => i.resend && (i.green == false) && sameChunk (hdrOf i.bytes) (noticeHdr n))
     noticeCode n = 3 ∧ found (keptGate n false) = some keptCopy ∧ again (keptGate n false) = false ∧ again (keptGate n true) = true ∧
       (findOp opState (hdrName (noticeHdr n))).any (fun o => o.failed || closedHere o 0 64) = false ∧
       ({ openOp0 with closed := [(0, 64)] } : Op).failed = false ∧ closedHere { openOp0 with closed := [(0, 64)] } 0 64 = true ∧
       found {} = none ∧ findOp rollState0 (hdrName (noticeHdr n)) = none) ∧
    (let n := mkNotice 7 0 3 0 0 64 1 7 []
     let u := noticeOpens opName0 (popNotice 0 (.link 1) (noticeState n))
     noticeCode n = 7 ∧ findOp u opName0 = some openOp0 ∧ cellChildren flatGroup 64 (0 / cellLen flatGroup) ≠ [] ∧
       cellChildren leafGroup 64 0 = []) := by decide +kernel

theorem witness_NoticesAreTakenInTurn_asks :
    (let n := mkNotice 6 0 3 0 0 64 2 7 []
     let u := noticeOpens opName0 (popNotice 0 (.link 1) (noticeState n))
     headNotice (noticeState n) 0 (.link 1) = some n ∧ noticeCode n = 6 ∧ myGrp (noticeState n) (noticeHdr n).group = some flatGroup ∧
       flatGroup.failed = false ∧ viaGreen (.link 1) = false ∧
       (flatGroup.children.zipIdx.find? (fun c => c.1.1 == (noticeHdr n).member)).map (fun c => c.2 + 1) = some 1 ∧
       findOp u opName0 = some openOp0 ∧ openOp0.registered = true ∧ opEnded u openOp0 = false ∧
       addsCell flatGroup 64 (0 / cellLen flatGroup) = true) ∧
    (let n := mkNotice 6 0 3 0 0 64 2 7 []
     let u := noticeOpens opName0 (popNotice 0 (.link 1) { noticeState n with ops := [] })
     findOp u opName0 = none ∧ nameEnded u opName0 = false) ∧
    (let n := mkNotice 4 0 3 0 0 64 1 7 []
     let t := popNotice 0 (.link 1) (noticeState n)
     findOp (noticeState n) (hdrName (noticeHdr n)) = some openOp0 ∧ opEnded t openOp0 = false) ∧
    ({ State.reset with gates := [(0, { retained := [keptCopy] })] } : State).unitsWf = true := by decide +kernel

def limitState (k : Nat) : State := { opState with ops := [{ openOp0 with limit := k }] }

theorem witness_LimitsExcludeAndFail :
    atLimit State.reset opName0 0 = none ∧ atLimit (limitState 0) opName0 1 = none ∧ atLimit (limitState 1) opName0 2 = none ∧
    atLimit (limitState 0) opName0 0 = some ({ openOp0 with limit := 0 }, flatGroup) ∧
    atLimit (limitState 1) opName0 1 = some ({ openOp0 with limit := 1 }, flatGroup) ∧
    atLimit (limitState 2) opName0 2 = some ({ openOp0 with limit := 2 }, flatGroup) ∧
    orphaned (limitState 4) flatGroup { openOp0 with limit := 2 } = false ∧
    orphaned (limitState 4) flatGroup { openOp0 with bc := [bcChunk] } = true ∧
    grpOf opState 0 = some flatGroup ∧ flatGroup.failed = false ∧
    grpOf { opState with roll := { groups := [{ flatGroup with failed := true }] } } 0 = some { flatGroup with failed := true } ∧
    anyPending .gate { State.reset with wells := [(0, { waiting := [{ aReq with owner := .gate, op := 1 }] })] } = true ∧
    (∀ o ∈ opState.ops, o.reabsorbing = []) ∧ anyPending .gate opState = false ∧
    covers 0 64 ({ openOp0 with reabsorbing := [(0, 64)], handed := [(0, 64)] } : Op).handed = true ∧
    (getGate (gateWith { testing := true }) 0).testing = true ∧ State.reset.ops = [] ∧
    opOpen (limitState 0) { openOp0 with limit := 0 } = true ∧
    sumSlots flatGroup + 2 * (cellHeight flatGroup 64 0 - 1) ≤ 64 := by decide +kernel

theorem witness_ShadowAddersCompare :
    (getGate State.reset 95).shadowIn = [] ∧
    (getGate (gateWith { shadowIn := [(opName0, 0, 1, [])] }) 0).shadowIn = (opName0, 0, 1, []) :: [] ∧
    findOp (gateWith { shadowIn := [(opName0, 0, 1, [])] }) opName0 = none ∧ findOp opState opName0 = some openOp0 ∧
    grpOf opState 0 = some flatGroup ∧ shadowReady State.reset 95 = none := by decide

/-- A cell of a sampled group whose output is the header alone. -/
def shadowCell : Cell := { builtCell with sampled := true, shadowWeight := 1 }
def shadowState : State := { boltState shadowCell upGroup with gates := [(3, { state := 2 })] }

theorem witness_ShadowAddersCompare_result :
    shadowReady shadowState 3 = some (opName0, 0) ∧ findOp shadowState opName0 = some { openOp0 with cells := [shadowCell] } ∧
    grpOf shadowState 0 = some upGroup ∧ ({ openOp0 with cells := [shadowCell] } : Op).cell 0 = some shadowCell := by decide +kernel

theorem witness_ShadowAddersCompare_again : shadowCell.disagreements = 0 ∧
    ({ shadowCell with disagreements := 1 } : Cell).disagreements ≠ 0 ∧ shadowState.unitsWf = true := by decide +kernel

/-! ### Witnesses: the market -/

def aRecord : CtxRec :=
  { counted := false, renorm := false, fallback := false, fp32Out := false, mode := 0, k := 1, fmtOut := 1, fmtRet := 1, group := 0
    stallGate := 95, units := 1, tokens := 1, hidden := 128, experts := 1, pool := 1, layers := 64, expertDir := 0, logits := 0
    source := 0, output := 0, book := 0, rows := 0, ledger := 0, expOut := 0, retArea := 0 }
def mktState (w : U64) (x : Ctx) : State :=
  { rollState0 with cmd := { fifo := [w] }, step := { opened := some 7 }, mkt := { ctx := [(31, x)] } }
def ctxWith (x : Ctx) : Ctx := { x with record := some aRecord }

theorem witness_MarketCommandsStartOnAFreeContext :
    (let w : U64 := 0x7FF20
     headIs (mktState w (ctxWith {})) 0x20 w [] ∧ field w.toNat 12 8 = 31 ∧ field w.toNat 18 13 = 63 ∧ field w.toNat 19 19 = 0 ∧
       (getCtx (mktState w {}) 31).record = none ∧ (getCtx (mktState w (ctxWith {})) 31).record = some aRecord ∧
       63 < aRecord.layers ∧ ¬ (0x20 = 0x20 ∧ (0 : Nat) = 0 ∧ ((0 : Nat) = 2 ∨ (0 : Nat) = 1)) ∧
       mktStep (mktState w (ctxWith {})) = some 7 ∧ ctxBusy (mktState w (ctxWith {})) 31 = false ∧
       mktStep { mktState w (ctxWith {}) with step := {} } = none ∧
       ctxBusy (mktState w (ctxWith { posting := true })) 31 = true ∧
       tableWf ({} : Ctx) (mktState w (ctxWith { posting := true })).mkt.ctx = true) ∧
    (let w : U64 := 0xFFF21
     headIs (mktState w (ctxWith { state := 1 })) 0x21 w [] ∧ field w.toNat 19 19 = 1) ∧
    (let x := getCtx (mktState 0x7FF20 (ctxWith { state := 1, lastLayer := some 63 })) 31
     x.state = 1 ∧ x.lastLayer = some 63) := by decide +kernel

def aFrame (type step : Nat) (counts : Bool) : MFrame :=
  ⟨2, 0, counts, natLe 1 type ++ zeros 1 ++ natLe 2 31 ++ natLe 4 step ++ zeros 8⟩
def frameState (x : Ctx) (f : MFrame) : State :=
  { mktState 0 x with cmd := {}, mkt := { ctx := [(31, x)], frames := [f] }, step := { opened := some 7, lastCurfew := some 6 } }
def crierBody (good : Bool) : Bytes :=
  let f := natLe 1 0x0B ++ zeros 1 ++ natLe 2 1 ++ zeros 8 ++ zeros 1
  f ++ natLe 4 ((crc32c f).toNat + (if good then 0 else 1))
def crierState (good : Bool) : State := gateWith { rxBuf := [(0, [natLe 1 0 ++ fit 0 56 (crierBody good)])] }

theorem witness_MarketFramesAreTakenOrReported :
    tget [] (getGate State.reset 95).rxBuf 0 = [] ∧
    (let f := natLe 1 0 ++ fit 0 56 (crierBody true)
     tget [] (getGate (crierState true) 0).rxBuf 0 = f :: [] ∧ numAt f 3 2 = 1 ∧ (numAt f 3 2 + 71) / 56 = 1 ∧
       crcGood (((([f] : List Bytes).take 1).flatMap (fun x => x.drop 1)).take 17) = true) ∧
    (let f := natLe 1 0 ++ fit 0 56 (crierBody false)
     tget [] (getGate (crierState false) 0).rxBuf 0 = f :: [] ∧
       crcGood (((([f] : List Bytes).take 1).flatMap (fun x => x.drop 1)).take 17) = false) ∧
    (512 + 71) / 56 = 10 ∧
    (let s := crierState false
     numAt (crierBody false) 0 1 ≠ 3 ∨ (getCtx s 31).mode ≠ 2) ∧
    (let hit := fun (s : State) (x : MFrame) => (x.counts == false) && decide (frameType x = 1) && decide (frameTurn s x ≠ .wait)
     let s := frameState (ctxWith { mode := 0, state := 1, step := 7 }) (aFrame 1 7 false)
     s.mkt.frames.find? (hit s) = some (aFrame 1 7 false) ∧ (getCtx s (frameOp (aFrame 1 7 false)).ctx).record = some aRecord ∧
       frameTurn s (aFrame 1 7 false) = .now ∧ (getCtx s 31).mode = 0 ∧ frameTurn s (aFrame 1 6 false) = .late ∧
       frameTurn s (aFrame 1 8 false) = .wait ∧
       frameTurn (frameState (ctxWith { mode := 0, state := 1, step := 7, layer := 5, missed := [(7, 0, 2)] }) (aFrame 1 7 false))
         (aFrame 1 7 false) = .late ∧
       State.reset.mkt.frames.find? (hit State.reset) = none ∧
       (getCtx (frameState {} (aFrame 1 6 false)) 31).record = none) := by decide +kernel

theorem witness_MarketFramesAreTakenOrReported_counts :
    (let x := getCtx (frameState (ctxWith { posting := true }) (aFrame 1 7 false)) 31
     x.posting = true ∧ x.allocated = false ∧ (∀ c ∈ x.counts, c.1 ≠ 2)) ∧
    (let x := getCtx (frameState (ctxWith { posting := true, counts := [(2, [])] }) (aFrame 1 7 false)) 31
     ∃ c ∈ x.counts, c.1 = 2) := by decide

theorem witness_StallsAreAllocatedInOrder :
    (getCtx State.reset 31).record = none ∧
    (let x := getCtx (frameState (ctxWith { posting := true, state := 1, mode := 0 }) (aFrame 1 7 false)) 31
     x.record = some aRecord ∧ x.posting = true ∧ x.allocated = false ∧ x.state ≠ 0 ∧ x.mode = 0) ∧
    (getCtx (frameState (ctxWith { posting := true, state := 1, mode := 1 }) (aFrame 1 7 false)) 31).mode = 1 ∧
    (allocate { counts := [(2, [(0, 1, 0), (1, 1, 1)])] } [1, 2] 1).map (fun a => (a.inst, a.first, a.rows, a.status))
      = [(0, 0, 1, 0), (1, 1, 0, 1)] := by decide +kernel

def aRange : MRange := { peer := 2, inst := 0, slot := 0, ordinal := 0, count := 1, done := [], complete := false }

theorem witness_PostingAndCombineComplete :
    (getCtx State.reset 31).record = none ∧
    (let s := mktState 0 (ctxWith { posting := true, allocated := true, state := 1 })
     let x := getCtx s 31
     x.record = some aRecord ∧ x.posting = true ∧ x.allocated = true ∧ (∀ g ∈ x.expect, g.complete = true) ∧
       anyPending .gate s = false) ∧
    (let x := getCtx (mktState 0 (ctxWith { posting := true, allocated := true, state := 1, expect := [aRange] })) 31
     ∃ g ∈ x.expect, g.complete = false) ∧
    (let s := mktState 0 (ctxWith { returning := true, state := 1, layer := 63 })
     let x := getCtx s 31
     x.returning = true ∧ 0 < aRecord.tokens ∧ 0 ∉ x.combinedTok ∧ x.timedOut = false ∧
       (∀ e ∈ liveCopies s aRecord x.layer 0, copyBack x aRecord e.ordinal = true ∨ e.ordinal ∈ x.leftOut) ∧
       x.combinedTok.length + 1 = aRecord.tokens) ∧
    (let s := mktState 0 (ctxWith { returning := true, state := 1, combinedTok := [0] })
     let x := getCtx s 31
     x.returning = true ∧ 0 ∈ x.combinedTok ∧ x.combinedTok.length = aRecord.tokens ∧ anyPending programOwner s = false) ∧
    (let s := { mktState 0 (ctxWith { returning := true, state := 1 }) with host := mwrite 0 [] 19 [1] }
     let x := getCtx s 31
     liveCopies s aRecord x.layer 0 ≠ [] ∧
       ∀ e ∈ liveCopies s aRecord x.layer 0, copyBack x aRecord e.ordinal = false ∧ e.ordinal ∉ x.leftOut) := by decide +kernel

/-- A chunk of rows for context 0 that has come, for a context whose counts are open and for one that waits for its stalls. -/
def rowState (x : Ctx) : State :=
  { rollState0 with
    mkt := { ctx := [(0, ctxWith x)] }, step := { opened := some 7 }
    gates := [(0, { mkt := [{ mktCh true none with bytes := hdrBytes { hdr0 with kind := kToken, seq := 0 } }] })] }

theorem witness_ChunksBoltOnce_rows :
    (let s := rowState { state := 1, step := 7, posting := true, allocated := true }
     (getCtx s (mopOf 0).ctx).record = some aRecord ∧ turnOf s (mopOf 0) 7 = .now ∧ (getCtx s (mopOf 0).ctx).allocated = true) ∧
    (let s := rowState { state := 1, step := 7, posting := true }
     (mopOf 0).dir = 0 ∧ (getCtx s (mopOf 0).ctx).posting = true ∧ (getCtx s (mopOf 0).ctx).allocated = false) ∧
    turnOf (rowState { state := 1, step := 6 }) (mopOf 0) 7 = .wait := by decide +kernel

/-! ### Witnesses: faults, bells, writes -/

theorem witness_FaultsAreCountedAndRecorded :
    (0x1F : Nat) ≠ 0x1A ∧ bitOf State.reset.flt.ctl 0 = false ∧ bitOf ({ ctl := 1 } : Ring).ctl 0 = true ∧
    State.reset.flt.queue = [] ∧ State.reset.flt.full = false ∧
    ({ ctl := 1, log2 := 6, head := 0, tail := 1, lap := false } : Ring).full = true ∧
    getUnit State.reset 0x5000 = {} ∧ (0x5000 : Nat) ≠ uSteward ∧ State.reset.book.bound = false ∧ State.reset.unitsWf = true ∧
    State.reset.bell.queue = [] ∧ ({ ctl := 1, head := 0, tail := 1, lap := false } : Ring).full = true := by decide

theorem witness_WritesReachTheirBytesAndTheirWells :
    (2 ^ 52 - 64) + (zeros 64).length ≤ 2 ^ 52 ∧ memWf 0 State.reset.host = true ∧ State.reset.unitsWf = true := by decide

/-! ### Arithmetic, against the spec's own vectors -/

/-- ASCII "123456789". -/
def digits : Bytes := (List.range 9).map (fun i => BitVec.ofNat 8 (0x31 + i))

/-- R232. -/
theorem test_crc32c : crc32c digits = 0xE3069283 := by decide +kernel
/-- R258. -/
theorem test_crc64 : crc64 digits = 0x995DC9BBDF1939FA := by decide +kernel
/-- Table 02-7. -/
theorem test_sr_bits : srBits 0 0 0 0 = 0 ∧ srBits 0 0 0 1 = 0x956A ∧ srBits 0 0 1 0 = 0x5EA9 := by decide +kernel
/-- R208's example: -0.99609375 and 0.16796875 of tensor 0, -0.26171875 of tensor 1. -/
theorem test_first_q : firstQ { sketchRec with tensor := 0 } 0 = 0xBF7F ∧ firstQ { sketchRec with tensor := 0 } 1 = 0x3E2C ∧
    firstQ sketchRec 0 = 0xBE86 := by decide +kernel
/-- R72's worked rounding, and R73 at the largest finite value. -/
theorem test_stochastic : srBf16 0 0 0 1 0x3F808000 = 0x3F81 ∧ srBf16 0 0 0 1 0xFF7FFFFF = 0xFF7F := by decide +kernel
/-- Table 12-9. -/
theorem test_adamw :
    let r : ForgeRec := { aRec with family := 1, flags := 8, eta := 0x39800000, lam := 0x3D800000, beta1 := 0x3F600000
                                    beta2 := 0x3F7FC000, eps := 0x32800000 }
    let u := updateElem r (recPar r ⟨0, 0x3F000000, f32One⟩) 0x41000000 0x42000000 0x3F800000 0 0 0x3A800000
    u = (0x3F7FEF00, 0x38800000, 0x37800000, true) := by decide +kernel
/-- Table 05-11: group 5 of a chunk of scale 2^-24. -/
theorem test_scale :
    groupMult .e4m3 0x33800000 0x3B449BA6 = 0x6F ∧ scaledCode .e4m3 0x33800000 0x6F 0x3B449BA6 = 0x7D ∧
    scaledCode .e4m3 0x33800000 0x6F 0xBADED289 = 0xF7 ∧ decodeScaled .e4m3 0x33800000 0x6F 0x7D = 0x3B430000 := by decide +kernel
/-- Table 11-7. -/
theorem test_canonical :
    let lens := [1, 3, 4, 5, 6, 7, 8, 9, 9, 9, 8, 7, 6, 5, 4, 3]
    (canonical lens).map (fun c => (c.1, c.2.1, c.2.2)) =
      [(1, 0, 0), (3, 4, 1), (3, 5, 15), (4, 12, 2), (4, 13, 14), (5, 28, 3), (5, 29, 13), (6, 60, 4), (6, 61, 12), (7, 124, 5),
       (7, 125, 11), (8, 252, 6), (8, 253, 10), (9, 508, 7), (9, 509, 8), (9, 510, 9)] ∧
    decodeSyms (canonical lens) 20 (bitsOf 19 [0x62, 0xFD, 0x07]) = ([0, 1, 0, 14, 0], 1) ∧
    packSyms 4 6 [0, 1, 0, 14, 0] = [0x10, 0xE0, 0x00] := by decide +kernel
/-- Table 04-8: the bucket numbers of its keys. -/
theorem test_buckets : ([0x3EDAD624, 0x3F800000, 0x3F1B459E, 0x3F05A4CF, 0x3EA21E3F, 0x3F34666F] : List F32).map (bucketOf (some 0)) = [3, 0, 2, 2, 4, 2] := by decide +kernel
/-- Table 10-14 and the market operation of its example. -/
theorem test_book_entry :
    let c : Copy := { token := 37, rank := 0, expert := 17, replica := 5, member := 2577, inst := 34, gate := 0, ordinal := 7703 }
    (⟨3, 0, 0, 17⟩ : MOp).code = 0x0883 ∧ entryWord c = 0x01A00A11 ∧
    (bookEntries { aRecord with k := 1 } [c] (fun _ => 2345) 37).take 12 =
      [0x11, 0x0A, 0xA0, 0x01, 0x29, 0x09, 0x10, 0x01, 0x17, 0x1E, 0x00, 0x00] := by decide +kernel
/-- The record of Table 15-12. -/
theorem test_second_path_record : chunkInfo 167 49 368 = 0x00000017000310A7 ∧ uGate 41 = 0x1029 ∧ uGate 89 = 0x1059 ∧
    shadowGate 41 = 89 := by decide

/-! ### One command at a time -/

/-- Commands have no words: the table gives no row any bits. -/
theorem test_decode : decodeTableWord 8 0 = none ∧ decodeTableWord 64 0xFFFFFFFFFFFFFFFF = none ∧
    State.reset.withFetchWord 32 7 = State.reset := ⟨rfl, rfl, rfl⟩

/-- Table 14-2. -/
theorem test_tally : tally (natLe 8 1) 0 = 1 ∧ tally (natLe 8 1) 1 = 0x9E3779B97F4A7C15 ∧
    tally (natLe 8 2) 1 = 0x3C6EF372FE94F831 := by decide +kernel

def coreAfter (c : Instr) (k : Core) : Option Core := (after c (coreWith k)).map (fun s => getCore s 0)
def sAfter (c : Instr) (r : Nat) (k : Core) : Option U32 := (coreAfter c k).map (fun k => getS k r)

/-- R82, 13 Table 13-4. -/
theorem test_add_wraps : sAfter (.add 0 3 1 2) 3 { s := [(1, 0xFFFFFFFF), (2, 2)] } = some 1 := by decide
theorem test_sub_wraps : sAfter (.sub 0 1 1 2) 1 { s := [(1, 1), (2, 2)] } = some 0xFFFFFFFF := by decide
theorem test_mul_low : sAfter (.mul 0 3 1 2) 3 { s := [(1, 0x10001), (2, 0x10001)] } = some 0x20001 := by decide
theorem test_shl_by_low_bits : sAfter (.shl 0 3 1 2) 3 { s := [(1, 1), (2, 33)] } = some 2 := by decide
theorem test_sra_signed : sAfter (.sra 0 3 1 2) 3 { s := [(1, 0x80000000), (2, 31)] } = some 0xFFFFFFFF := by decide
theorem test_shr_unsigned : sAfter (.shr 0 3 1 2) 3 { s := [(1, 0x80000000), (2, 31)] } = some 1 := by decide
theorem test_slt_signed : sAfter (.slt 0 3 1 2) 3 { s := [(1, 0xFFFFFFFF), (2, 1)] } = some 1 := by decide
theorem test_sltu_unsigned : sAfter (.sltu 0 3 1 2) 3 { s := [(1, 0xFFFFFFFF), (2, 1)] } = some 0 := by decide
theorem test_addi_sign : sAfter (.addi 0 3 1 0xFFFF) 3 { s := [(1, 5)] } = some 4 := by decide
theorem test_andi_zero_extends : sAfter (.andi 0 3 1 0xFFFF) 3 { s := [(1, 0xFFFF1234)] } = some 0x1234 := by decide
theorem test_lui : sAfter (.lui 0 31 0x8001) 31 {} = some 0x80010000 := by decide
theorem test_dput_quarter : (coreAfter (.dput 0 15 3 1) { s := [(1, 7)] }).map (fun k => getD k 15) = some (7#128 <<< 96) := by decide
/-- The core of 13's worked example with the bytes of one of its words. -/
def exampleCore (a : Nat) (w : Bytes) : Core :=
  { state := 1, pc := a, progLen := 0x118, prog := mwrite 0 [] a w, s := [(4, 32)], d := [(2, 0x10000000000), (3, 0x10000002000)]
    sdata := mwrite 0 [] 198 [0, 0xFF, 0xFF, 0, 0xFF] }

def exampleAfter (k : Core) : Option Core :=
  (after (.longWordIssue 0 []) { coreWith k with charter := some { aCharter with formats := 0x7FF } }).map (fun s => getCore s 0)

/-- The loop word of Table 13-15: bytes 01 00 20 C4 00 00 at 0x0100 with s4 = 32. -/
theorem test_loop_word :
    let k := (exampleAfter (exampleCore 0x100 [0x01, 0x00, 0x20, 0xC4, 0x00, 0x00]))
    k.map (fun k => (k.pc, k.sp, tget {} k.loops 0)) = some (0x106, 1, ⟨0x106, 0x112, 32, 0⟩) := by decide +kernel
/-- The vector word of Table 13-15 queues one pass: depth 1, pc after its 6 bytes. -/
theorem test_run_word :
    let k := (exampleAfter (exampleCore 0x106 [0x02, 0x00, 0x31, 0x04, 0x60, 0x00]))
    k.map (fun k => (k.pc, k.state, k.q1.length, k.haltCode)) = some (0x10C, 1, 1, 0) := by decide +kernel
/-- Table 13-16, cycle 61: a 17th waiting pass halts with code 0x08, engine 1. -/
theorem test_queue_overrun :
    let k := (exampleAfter
      { exampleCore 0x106 [0x02, 0x00, 0x31, 0x04, 0x60, 0x00] with q1 := List.replicate 16 ⟨.run 0 [] [] true true 0, 0⟩ })
    k.map (fun k => (k.state, k.haltAddr, k.haltCode, k.haltEngine)) = some (2, 0x106, 8, 1) := by decide +kernel
theorem test_halt : (coreAfter (.halt 0) { state := 1 }).map (fun k => (k.state, k.haltCode)) = some (2, 0x12) := by decide +kernel
/-- R583 and the bell's base register. -/
theorem test_pair_write : ((after (.registerWrite 3 0x204 5) (loHeld 3 0x200)).map (fun s => s.bell.base)) = some 0x0000000512345000 := by
  decide +kernel
/-- Table 17-12: the key turn makes both staged values live. -/
theorem test_key_turn : ((after .keyTurn (switchState { scaleShadow := 0x3F000000, stepShadow := 0x1401, pendScale := true
                                                        pendStep := true })).map (fun s =>
    (s.forge.scaleLive, s.forge.stepLive, s.forge.pendScale, s.forge.turns))) = some (0x3F000000, 0x1401, false, 1) := by
  decide +kernel
theorem test_read_id : (after (.readLoCapture 0 0x30000) State.reset).map (fun s => (s.pins.mgtErr, s.pins.mgtRdata)) =
    some (true, 0) := by decide +kernel
/-- R555: a word with an opcode outside Table 16-8 never waits in the FIFO. -/
theorem test_fifo_opcode : (after (.cmdPortWord 0x07) State.reset).map (fun s => (s.cmd.fifo.length, tget 0 s.faultCnt 0x0E)) =
    some (0, 1) := by decide +kernel
theorem test_fifo_full : (after (.cmdRegisterWord 0) { State.reset with cmd := { fifo := List.replicate 256 0 } }).map
    (fun s => (s.cmd.fifo.length, s.cmd.overflow)) = some (256, true) := by decide +kernel
/-- R31: the step counts up from the last, and STEP of another number is refused. -/
theorem test_step : ((after .step (fifoWith 0x70001)).map (fun s => (s.step.opened, s.cmd.fifo))) = some (some 7, []) := by decide +kernel
theorem test_well_tag : ((after (.wellRequestIssue 0) (wellWith { waiting := [aReq] })).map (fun s =>
    ((getWell s 0).busy.map (·.1), (getWell s 0).waiting.length))) = some ([0], 0) := by decide +kernel
theorem test_well_poison : ((after (.wellCompletion 0 3 2) (wellWith { busy := [(3, { aReq with owner := .steward })] })).map
    (fun s => ((getWell s 0).errCpl, tget 0 s.faultCnt 0x11))) = some (true, 1) := by decide +kernel
theorem test_pin_saturates : same (.expPin 7) (expState { slots := [(7, { pins := 65535 })] }) = false ∧
    ((after (.expPin 7) (expState { slots := [(7, { pins := 65535 })] })).map (fun s => (getSlot s 7).pins)) = some 65535 := by
  decide +kernel
theorem test_link_disable : ((after (.linkDisable 95) { State.reset with gates := [(95, { enable := true, state := 1 })] }).map
    (fun s => ((getGate s 95).state, (getGate s 95).enable))) = some (0, false) := by decide +kernel
theorem test_ack_releases : ((after (.ackReceive 0 0 false) (gateWith { state := 2, replayBuf := [(4095, []), (0, []), (1, [])] })).map
    (fun s => (getGate s 0).replayBuf)) = some [(1, [])] := by decide +kernel
theorem test_deadline_once : ((after (.deadlineExpire opName0) (limitState 0)).map (fun s => s.ops.map (·.limit))) = some [1] := by
  decide +kernel
theorem test_dead_block : same (.halt 0) { coreWith { state := 1 } with pins := { pgCore := false } } = true := by decide +kernel
end Sys2Proof.Tests
end

section
/-! What the resets of the block leave (16_ports_power_startup.md, R552 to R554). -/

namespace Sys2Proof.Machine

/-! ### Tables mapped entry by entry -/

/-- The table `t` with the entries of `l` written into it, each mapped by `f`: with `t` empty, the way in which the model
maps a table of the units. -/
def writeMapped {α β : Type} [DecidableEq β] (d : β) (f : α → β) (l : List (Nat × α)) (t : List (Nat × β)) :
    List (Nat × β) :=
  l.foldl (fun t e => tset d t e.1 (f e.2)) t

theorem mem_writeMapped {α β : Type} [DecidableEq β] {d : β} {f : α → β} {l : List (Nat × α)} {t : List (Nat × β)}
    {e : Nat × β} (h : e ∈ writeMapped d f l t) : (∃ x ∈ l, e = (x.1, f x.2)) ∨ e ∈ t := by
  induction l generalizing t with
  | nil => exact .inr h
  | cons c l ih =>
    rcases ih h with ⟨x, hx, rfl⟩ | he
    · exact .inl ⟨x, List.mem_cons_of_mem _ hx, rfl⟩
    · exact (mem_tset he).imp_left (fun he => ⟨c, List.mem_cons_self, he⟩)

theorem tget_writeMapped_unlisted {α β : Type} [DecidableEq β] {d : β} (f : α → β) {l : List (Nat × α)}
    {t : List (Nat × β)} {i : Nat} (ht : tableWf d t = true) (hi : ∀ e ∈ l, i ≠ e.1) :
    tget d (writeMapped d f l t) i = tget d t i := by
  induction l generalizing t with
  | nil => rfl
  | cons c l ih =>
    obtain ⟨hc, hl⟩ := List.forall_mem_cons.1 hi
    calc tget d (writeMapped d f (c :: l) t) i
        = tget d (tset d t c.1 (f c.2)) i := ih (tableWf_tset _ _ ht) hl
      _ = tget d t i := by rw [tget_tset _ _ _ ht, if_neg hc]

/-- A key other than the first is read in the rest of the table. -/
theorem tget_cons_of_ne {α : Type} (a : α) {c : Nat × α} {l : List (Nat × α)} {i : Nat} (hc : ∀ e ∈ l, c.1 < e.1)
    (hi : i ≠ c.1) : tget a (c :: l) i = tget a l i := by
  rw [tget, if_neg (Ne.symm hi)]
  split
  · next hlt => exact (tget_none a (fun e he => Nat.lt_trans hlt (hc e he))).symm
  · rfl

/-- Where `t` reads as the default, a key reads as the mapped entry of `l`, if the default of `l` is mapped to that of `t`. -/
theorem tget_writeMapped {α β : Type} [DecidableEq β] {a : α} {d : β} {f : α → β} (hf : f a = d) {l : List (Nat × α)}
    {t : List (Nat × β)} {i : Nat} (hl : l.Pairwise (fun x y => x.1 < y.1)) (ht : tableWf d t = true)
    (hi : tget d t i = d) : tget d (writeMapped d f l t) i = f (tget a l i) := by
  induction l generalizing t with
  | nil => exact hi.trans hf.symm
  | cons c l ih =>
    obtain ⟨hc, hl⟩ := List.pairwise_cons.1 hl
    have ht' : tableWf d (tset d t c.1 (f c.2)) = true := tableWf_tset _ _ ht
    by_cases hic : i = c.1
    · calc tget d (writeMapped d f (c :: l) t) i
          = tget d (tset d t c.1 (f c.2)) i :=
            tget_writeMapped_unlisted f ht' (fun e he => hic ▸ Nat.ne_of_lt (hc e he))
        _ = f c.2 := by rw [tget_tset _ _ _ ht, if_pos hic]
        _ = f (tget a (c :: l) i) := by rw [tget, if_pos hic.symm]
    · have hi' : tget d (tset d t c.1 (f c.2)) i = d := by rw [tget_tset _ _ _ ht, if_neg hic, hi]
      calc tget d (writeMapped d f (c :: l) t) i
          = f (tget a l i) := ih hl ht' hi'
        _ = f (tget a (c :: l) i) := by rw [tget_cons_of_ne a hc hic]

/-- A table in canonical form, mapped into an empty one. -/
theorem tget_writeMapped_nil {α β : Type} [DecidableEq α] [DecidableEq β] {a : α} {d : β} {f : α → β} (hf : f a = d)
    {l : List (Nat × α)} (hl : tableWf a l = true) (i : Nat) : tget d (writeMapped d f l []) i = f (tget a l i) :=
  tget_writeMapped hf ((tableWf_iff a l).1 hl).1 (tableWf_nil d) rfl

theorem unitsWf_iff {s : State} : s.unitsWf = true ↔
    tableWf {} s.cores = true ∧ tableWf {} s.gates = true ∧ tableWf {} s.wells = true ∧ tableWf {} s.units = true := by
  simp only [State.unitsWf, Bool.and_eq_true, and_assoc]

/-! ### The parts of the units that outlive a reset -/

/-- The levels at a gate's PHY, which a reset leaves (log 169). -/
def phyLevels (k : Gate) : Gate := { phyRdy := k.phyRdy, laneFail0 := k.laneFail0, laneFail1 := k.laneFail1 }

/-- The faults of a unit that are not yet written to the parish book, which a soft reset leaves (R553). -/
def unwrittenOf (u : UnitSt) : UnitSt :=
  { lastRec := u.lastRec, heldN := u.heldN, heldFirst := u.heldFirst, heldMixed := u.heldMixed }

theorem resetBase_gates (s : State) : (resetBase s).gates = writeMapped {} phyLevels s.gates [] := rfl

theorem unwrittenFaults_eq (s : State) : unwrittenFaults s = writeMapped {} unwrittenOf s.units [] := rfl

theorem resetBase_gate_is_phyLevels {s : State} {e : Nat × Gate} (he : e ∈ (resetBase s).gates) :
    ∃ k, e.2 = phyLevels k := by
  rw [resetBase_gates] at he
  rcases mem_writeMapped he with ⟨x, -, rfl⟩ | h
  · exact ⟨x.2, rfl⟩
  · cases h

theorem getGate_resetBase {s : State} (hs : s.unitsWf = true) (g : Nat) :
    getGate (resetBase s) g = phyLevels (getGate s g) := by
  obtain ⟨-, hgates, -, -⟩ := unitsWf_iff.1 hs
  exact tget_writeMapped_nil (f := phyLevels) rfl hgates g

theorem keepsUnwritten_softResetTo (cause : Nat) {s : State} (hs : s.unitsWf = true) :
    keepsUnwritten s (softResetTo cause s) := by
  intro u
  obtain ⟨-, -, -, hunits⟩ := unitsWf_iff.1 hs
  exact tget_writeMapped_nil (f := unwrittenOf) rfl hunits u

/-! ### What a reset leaves -/

/-- What `resetBase` leaves is a reset's result, whatever becomes of the always-on store and of the units' histories. -/
theorem resetsTo_resetBase (p : Pins) (s : State) (a : Aon) (us : List (Nat × UnitSt)) :
    resetsTo p s { resetBase { s with pins := p } with aon := a, units := us } := by
  refine ⟨rfl, fun e he => ?_, fun hs g => ?_⟩
  · obtain ⟨k, hk⟩ := resetBase_gate_is_phyLevels he
    exact ⟨k.phyRdy, k.laneFail0, k.laneFail1, hk⟩
  · exact getGate_resetBase (s := { s with pins := p }) hs g

theorem resetsTo_powerReset (p : Pins) (s : State) : resetsTo p s (powerReset { s with pins := p }) :=
  resetsTo_resetBase p s {} []

theorem resetsTo_softResetTo (cause : Nat) (p : Pins) (s : State) :
    resetsTo p s (softResetTo cause { s with pins := p }) :=
  resetsTo_resetBase p s { s.aon with resetCause := cause } (unwrittenFaults s)

/-- The ROM stage: nothing loaded, every link disabled and down, no tag in quarantine (R554, "Start-up in order"). -/
theorem romStage_of_resetsTo {p : Pins} {s t : State} (h : resetsTo p s t) :
    t.boot.stage = 0 ∧ t.boot.fwVersion = 0 ∧ t.charter = none ∧ t.roll.loaded = false ∧ t.roll.groups = [] ∧
      (∀ g, (getGate t g).enable = false ∧ (getGate t g).state = 0) ∧ (∀ w, (getWell t w).quar = []) := by
  obtain ⟨heq, hgates, -⟩ := h
  have hlink : ∀ g, (getGate t g).enable = false ∧ (getGate t g).state = 0 := fun g =>
    tget_of_all (p := fun k : Gate => k.enable = false ∧ k.state = 0) g ⟨rfl, rfl⟩ (fun e he => by
      obtain ⟨b0, b1, b2, hk⟩ := hgates e he
      rw [hk]
      exact ⟨rfl, rfl⟩)
  have hquar : ∀ w, (getWell t w).quar = [] := fun w => by rw [heq]; rfl
  refine ⟨?_, ?_, ?_, ?_, ?_, hlink, hquar⟩ <;> rw [heq] <;> rfl

/-! ### The reset inputs -/

theorem exec_powerOnReset_low (s : State) :
    exec (.powerOnReset true) s = .next (powerReset { s with pins := { s.pins with rstPwrN := false } }) := rfl

theorem exec_powerOnReset_high (s : State) :
    exec (.powerOnReset false) s = .next { s with pins := { s.pins with rstPwrN := true } } := rfl

/-- R553: with RST_PWR_N high the reset is a soft one with cause 1. -/
theorem exec_softReset_low {s : State} (h : s.pins.rstPwrN = true) :
    exec (.softReset true) s = .next (softResetTo 1 { s with pins := { s.pins with rstSoftN := false } }) := if_pos h

/-- R553: with RST_PWR_N also low the power-on reset applies. -/
theorem exec_softReset_low_of_powerOn {s : State} (h : s.pins.rstPwrN = false) :
    exec (.softReset true) s = .next (powerReset { s with pins := { s.pins with rstSoftN := false } }) :=
  if_neg (Bool.eq_false_iff.1 h)

theorem exec_softReset_high (s : State) :
    exec (.softReset false) s = .next { s with pins := { s.pins with rstSoftN := true } } := rfl

/-- Settles O10: each falling reset input runs one of the two resets, and what either leaves is the ROM stage. -/
theorem resetsReachTheRomStage : Obligations.ResetsReachTheRomStage := by
  unfold Obligations.ResetsReachTheRomStage
  intro s
  refine ⟨?powerOn, exec_powerOnReset_high s, fun hPwr => ?soft, fun hPwr => ?softUnderPowerOn, exec_softReset_high s,
    fun _ _ => romStage_of_resetsTo⟩
  case powerOn => exact ⟨_, exec_powerOnReset_low s, rfl, rfl, resetsTo_powerReset _ s⟩
  case soft => exact ⟨_, exec_softReset_low hPwr, rfl, keepsUnwritten_softResetTo 1, resetsTo_softResetTo 1 _ s⟩
  case softUnderPowerOn => exact ⟨_, exec_softReset_low_of_powerOn hPwr, rfl, rfl, resetsTo_powerReset _ s⟩

end Sys2Proof.Machine
end

section
/-! The staged register pair: where a staged write goes by its address, and what a key turn makes live (R589). -/

namespace Sys2Proof.Machine

theorem act_of_live {s : State} (hs : live s = true) (f : State → State) : act s f = .next (f s) := if_pos hs

theorem exec_stagedWrite {s : State} (hs : live s = true) (a : Nat) (v : U32) :
    exec (.stagedWrite a v) s = .next (stagedWrite (a % 2 ^ 22 / 4 * 4) v s) := act_of_live hs _

theorem exec_keyTurn {s : State} (hs : live s = true) : exec .keyTurn s = .next (keyTurns s) := act_of_live hs _

/-! ### The well pages of the window (Table 17-1) -/

theorem place_well (s : State) (m : Nat) {w o : Nat} (hw : w < 32) (ho : o < 0x1000) :
    place s m (0x300000 + 0x1000 * w + o) = some (.well w, o) := by
  have hpage : (0x300000 + 0x1000 * w + o - 0x300000) / 0x1000 = w := by omega
  have hoff : (0x300000 + 0x1000 * w + o) % 0x1000 = o := by omega
  rw [place, if_neg (by omega), if_neg (by omega), if_neg (by omega), if_neg (by simp only [numGates]; omega),
    if_neg (by omega), if_pos (by simp only [numWells]; omega), hpage, hoff]

/-- Below the well pages an address reaches a page of another kind, or none. -/
theorem place_ne_well_of_lt (s : State) (m : Nat) {a : Nat} (ha : a < 0x300000) (w o : Nat) :
    place s m a ≠ some (.well w, o) := by
  have hno : ¬ (0x300000 ≤ a ∧ a < 0x300000 + numWells * 0x1000) := fun h => by omega
  rw [place, if_neg hno]
  dsimp only
  repeat' split
  all_goals nofun

/-! ### Staged writes -/

theorem stagedWrite_scale {s : State} {w a : Nat} (ha : place s 0 a = some (.well w, 0x840)) (v : U32) :
    stagedWrite a v s = stageScale v s := by
  simp [stagedWrite, ha]

theorem stagedWrite_step {s : State} {w a : Nat} (ha : place s 0 a = some (.well w, 0x844)) (v : U32) :
    stagedWrite a v s = stageStep v s := by
  simp [stagedWrite, ha]

theorem stagedWrite_elsewhere {s : State} {a : Nat} (ha : ∀ w o, place s 0 a ≠ some (.well w, o)) (v : U32) :
    stagedWrite a v s = s := by
  unfold stagedWrite
  split
  · next w o hp => exact absurd hp (ha w o)
  · rfl

/-- The register addresses of the well pages are whole words of the window, so the rounding to a word keeps them. -/
theorem wordAddr_wellPage {w o : Nat} (hw : w < 32) (ho : o < 0x1000) (h4 : o % 4 = 0) :
    (0x300000 + 0x1000 * w + o) % 2 ^ 22 / 4 * 4 = 0x300000 + 0x1000 * w + o := by omega

/-! ### Key turns -/

theorem live_keyTurns (s : State) : live (keyTurns s) = live s := rfl

/-- R589: a shadow keeps its value over a key turn. -/
@[simp] theorem keyTurns_scaleShadow (s : State) : (keyTurns s).forge.scaleShadow = s.forge.scaleShadow := rfl
@[simp] theorem keyTurns_stepShadow (s : State) : (keyTurns s).forge.stepShadow = s.forge.stepShadow := rfl

@[simp] theorem keyTurns_scaleLive (s : State) : (keyTurns s).forge.scaleLive = s.forge.scaleShadow := rfl
@[simp] theorem keyTurns_stepLive (s : State) : (keyTurns s).forge.stepLive = s.forge.stepShadow := rfl

/-- R589: a second key turn without new writes leaves the live values. -/
theorem keyTurns_twice_live (s : State) :
    (keyTurns (keyTurns s)).forge.scaleLive = (keyTurns s).forge.scaleLive ∧
      (keyTurns (keyTurns s)).forge.stepLive = (keyTurns s).forge.stepLive := by
  simp only [keyTurns_scaleLive, keyTurns_stepLive, keyTurns_scaleShadow, keyTurns_stepShadow, and_self]

/-- Settles O42: a staged write acts by the place of its address, and a key turn copies shadows that it leaves as they
are. -/
theorem keyTurnCopiesEveryShadow : Obligations.KeyTurnCopiesEveryShadow := by
  unfold Obligations.KeyTurnCopiesEveryShadow
  intro s v w hs hw
  refine ⟨?scale, ?step, fun a _ ha => ?elsewhere, keyTurns s, exec_keyTurn hs, rfl, keyTurns (keyTurns s), ?again⟩
  case scale =>
    rw [exec_stagedWrite hs, wordAddr_wellPage hw (by decide) (by decide),
      stagedWrite_scale (place_well s 0 hw (by decide)), stageScale]
  case step =>
    rw [exec_stagedWrite hs, wordAddr_wellPage hw (by decide) (by decide),
      stagedWrite_step (place_well s 0 hw (by decide)), stageStep]
  case elsewhere =>
    have hword : a % 2 ^ 22 / 4 * 4 < 0x300000 := by omega
    rw [exec_stagedWrite hs, stagedWrite_elsewhere (place_ne_well_of_lt s 0 hword)]
  case again => exact ⟨exec_keyTurn ((live_keyTurns s).trans hs), keyTurns_twice_live s⟩

end Sys2Proof.Machine
end

section
/-! The block as a whole: what a step does with the queue, which commands stop, and the invariant of every run. -/

namespace Sys2Proof.Machine

variable {s : State}

/-! ### One step -/

/-- Settles O1: a step takes the front command by definition. -/
theorem stepRunsFrontCommand : Obligations.StepRunsFrontCommand := by
  unfold Obligations.StepRunsFrontCommand
  intro c rest s
  rfl

theorem step_of_pending_nil (h : s.pending = []) : step s = .next (idle s) := by
  rw [step, h]

theorem step_of_pending_cons {c : Instr} {rest : List Instr} (h : s.pending = c :: rest) :
    step s = exec c { s with pending := rest } := by
  rw [step, h]

theorem idle_of_pgAon (h : s.pins.pgAon = true) : idle s = { s with aon := { s.aon with timeUs := s.aon.timeUs + 1 } } :=
  if_pos h

theorem idle_of_not_pgAon (h : s.pins.pgAon = false) : idle s = s := if_neg (Bool.eq_false_iff.1 h)

/-- Settles O2: with no command waiting only the time counter moves (log 8). -/
theorem emptyQueuePassesTime : Obligations.EmptyQueuePassesTime := by
  unfold Obligations.EmptyQueuePassesTime
  intro s hq
  refine ⟨fun h => ?_, fun h => ?_⟩
  · rw [step_of_pending_nil hq, idle_of_pgAon h]
  · rw [step_of_pending_nil hq, idle_of_not_pgAon h]

/-! ### The invariant -/

/-- Settles O7: after reset every memory and table is empty. -/
theorem resetIsCanonical : Obligations.ResetIsCanonical := by
  unfold Obligations.ResetIsCanonical State.Inv
  decide

/-- Every command keeps the queue and the invariant, one law of the model's rows for each. -/
theorem ends_exec {q : List Instr} (c : Instr) (hs : s.Holds q) : Ends q (exec c s) := by
  cases c with
  | powerGoodRise p => exact ends_execPowerGoodRise p hs
  | powerGoodFall p => exact ends_execPowerGoodFall p hs
  | powerOnReset low => exact ends_execPowerOnReset low hs
  | softReset low => exact ends_execSoftReset low hs
  | romSelfTest pass => exact ends_execRomSelfTest pass hs
  | firmwareLoad src rd => exact ends_execFirmwareLoad src rd hs
  | charterLoad src rd => exact ends_execCharterLoad src rd hs
  | loadAbort => exact ends_execLoadAbort hs
  | loadData v => exact ends_execLoadData v hs
  | bookScan flash => exact ends_execBookScan flash hs
  | baselineTest fails => exact ends_execBaselineTest fails hs
  | wsBypass => exact ends_execWsBypass hs
  | wsExtest => exact ends_execWsExtest hs
  | wsIntestScan => exact ends_execWsIntestScan hs
  | svIdcode => exact ends_execSvIdcode hs
  | svMbist => exact ends_execSvMbist hs
  | cmdPortWord v => exact ends_execCmdPortWord v hs
  | cmdRegisterWord hi => exact ends_execCmdRegisterWord hi hs
  | step => exact ends_execStep hs
  | layerReady => exact ends_execLayerReady hs
  | curfew => exact ends_execCurfew hs
  | barrier => exact ends_execBarrier hs
  | reset => exact ends_execReset hs
  | hinge => exact ends_execHinge hs
  | hingeSwitch rd => exact ends_execHingeSwitch rd hs
  | coreSave c => exact ends_execCoreSave c hs
  | coreRestore c rd => exact ends_execCoreRestore c rd hs
  | program rd => exact ends_execProgram rd hs
  | dispatchForward rd => exact ends_execDispatchForward rd hs
  | dispatchReplay rd => exact ends_execDispatchReplay rd hs
  | ret rd => exact ends_execRet rd hs
  | expand rd => exact ends_execExpand rd hs
  | declare rd => exact ends_execDeclare rd hs
  | tally rd => exact ends_execTally rd hs
  | tallyComplete rd => exact ends_execTallyComplete rd hs
  | almLoad rd => exact ends_execAlmLoad rd hs
  | almRun => exact ends_execAlmRun hs
  | almTestResult how got => exact ends_execAlmTestResult how got hs
  | post => exact ends_execPost hs
  | readLoCapture m addr => exact ends_execReadLoCapture m addr hs
  | readClear m addr => exact ends_execReadClear m addr hs
  | pairWriteLo m addr v => exact ends_execPairWriteLo m addr v hs
  | registerWrite m addr v => exact ends_execRegisterWrite m addr v hs
  | stagedWrite addr v => exact ends_execStagedWrite addr v hs
  | keyTurn => exact ends_execKeyTurn hs
  | rollLoad rd => exact ends_execRollLoad rd hs
  | rollConfirm => exact ends_execRollConfirm hs
  | forceArrival => exact ends_execForceArrival hs
  | linkEnableSet g => exact ends_execLinkEnableSet g hs
  | linkDisable g => exact ends_execLinkDisable g hs
  | linkRetrain g => exact ends_execLinkRetrain g hs
  | normRelease => exact ends_execNormRelease hs
  | normAbandon => exact ends_execNormAbandon hs
  | expTableLoad => exact ends_execExpTableLoad hs
  | expTableLoadDone rd => exact ends_execExpTableLoadDone rd hs
  | expPin slot => exact ends_execExpPin slot hs
  | expUnpin slot => exact ends_execExpUnpin slot hs
  | coreHaltRequest c => exact ends_execCoreHaltRequest c hs
  | coreResume c => exact ends_execCoreResume c hs
  | coreSingleStep c => exact ends_execCoreSingleStep c hs
  | bookFormat => exact ends_execBookFormat hs
  | bookDump => exact ends_execBookDump hs
  | laneFail g l => exact ends_execLaneFail g l hs
  | phyLost g => exact ends_execPhyLost g hs
  | linkBringupStart g => exact ends_execLinkBringupStart g hs
  | trainFlit g flit => exact ends_execTrainFlit g flit hs
  | trainTimeout g => exact ends_execTrainTimeout g hs
  | flitReceive g b0 b1 bufErr => exact ends_execFlitReceive g b0 b1 bufErr hs
  | ackReceive g ack nak => exact ends_execAckReceive g ack nak hs
  | ackSend g => exact ends_execAckSend g hs
  | creditFlitSend g => exact ends_execCreditFlitSend g hs
  | replayTimeout g => exact ends_execReplayTimeout g hs
  | greenFlitReceive unit parityOk => exact ends_execGreenFlitReceive unit parityOk hs
  | chunkSend g vc err => exact ends_execChunkSend g vc err hs
  | chunkReceive g via err => exact ends_execChunkReceive g via err hs
  | maskFrameReceive g vc => exact ends_execMaskFrameReceive g vc hs
  | chunkBolt r => exact ends_execChunkBolt r hs
  | shadowCopyReceive g => exact ends_execShadowCopyReceive g hs
  | shadowResult g err => exact ends_execShadowResult g err hs
  | boltNotice g via => exact ends_execBoltNotice g via hs
  | revokeNotice g via => exact ends_execRevokeNotice g via hs
  | resendNotice g via => exact ends_execResendNotice g via hs
  | closeNotice g via => exact ends_execCloseNotice g via hs
  | reabsorbDone => exact ends_execReabsorbDone hs
  | cackNotice g via => exact ends_execCackNotice g via hs
  | askNotice g via => exact ends_execAskNotice g via hs
  | grantNotice g via => exact ends_execGrantNotice g via hs
  | granaryGrant g pool => exact ends_execGranaryGrant g pool hs
  | stepNoticeUp g => exact ends_execStepNoticeUp g hs
  | stepNoticeDown g => exact ends_execStepNoticeDown g hs
  | localResetEnd => exact ends_execLocalResetEnd hs
  | deadlineExpire op => exact ends_execDeadlineExpire op hs
  | confirmationLimit op => exact ends_execConfirmationLimit op hs
  | orphanLimit op => exact ends_execOrphanLimit op hs
  | curfewWaveTimeout wave => exact ends_execCurfewWaveTimeout wave hs
  | crierFrameReceive g => exact ends_execCrierFrameReceive g hs
  | countsFrame => exact ends_execCountsFrame hs
  | stallAllocate ctx => exact ends_execStallAllocate ctx hs
  | grantFrame rd => exact ends_execGrantFrame rd hs
  | rowFrame => exact ends_execRowFrame hs
  | returnRowFrame => exact ends_execReturnRowFrame hs
  | countsRequest => exact ends_execCountsRequest hs
  | capacityAdmit ctx => exact ends_execCapacityAdmit ctx hs
  | countsReply rd => exact ends_execCountsReply rd hs
  | postingComplete ctx => exact ends_execPostingComplete ctx hs
  | postingTimeout ctx => exact ends_execPostingTimeout ctx hs
  | combine ctx token rd => exact ends_execCombine ctx token rd hs
  | combineTimeout ctx => exact ends_execCombineTimeout ctx hs
  | normOpen => exact ends_execNormOpen hs
  | forgeApply w err rd => exact ends_execForgeApply w err rd hs
  | forgeBlockApplied w => exact ends_execForgeBlockApplied w hs
  | wellRequestIssue w => exact ends_execWellRequestIssue w hs
  | wellReadBeat w tag data poison => exact ends_execWellReadBeat w tag data poison hs
  | wellCompletion w tag status => exact ends_execWellCompletion w tag status hs
  | wellTimeout w tag => exact ends_execWellTimeout w tag hs
  | wellRefresh w => exact ends_execWellRefresh w hs
  | expanderFetch w => exact ends_execExpanderFetch w hs
  | expandBlock w => exact ends_execExpandBlock w hs
  | longWordIssue c errs => exact ends_execLongWordIssue c errs hs
  | add c rd rs1 rs2 => exact ends_execAdd c rd rs1 rs2 hs
  | sub c rd rs1 rs2 => exact ends_execSub c rd rs1 rs2 hs
  | mul c rd rs1 rs2 => exact ends_execMul c rd rs1 rs2 hs
  | and c rd rs1 rs2 => exact ends_execAnd c rd rs1 rs2 hs
  | or c rd rs1 rs2 => exact ends_execOr c rd rs1 rs2 hs
  | xor c rd rs1 rs2 => exact ends_execXor c rd rs1 rs2 hs
  | shl c rd rs1 rs2 => exact ends_execShl c rd rs1 rs2 hs
  | shr c rd rs1 rs2 => exact ends_execShr c rd rs1 rs2 hs
  | sra c rd rs1 rs2 => exact ends_execSra c rd rs1 rs2 hs
  | slt c rd rs1 rs2 => exact ends_execSlt c rd rs1 rs2 hs
  | sltu c rd rs1 rs2 => exact ends_execSltu c rd rs1 rs2 hs
  | addi c rd rs1 imm => exact ends_execAddi c rd rs1 imm hs
  | andi c rd rs1 imm => exact ends_execAndi c rd rs1 imm hs
  | ori c rd rs1 imm => exact ends_execOri c rd rs1 imm hs
  | xori c rd rs1 imm => exact ends_execXori c rd rs1 imm hs
  | lui c rd imm => exact ends_execLui c rd imm hs
  | li c rd imm => exact ends_execLi c rd imm hs
  | ld c errs => exact ends_execLd c errs hs
  | st c errs => exact ends_execSt c errs hs
  | loop c level cnt e => exact ends_execLoop c level cnt e hs
  | br c rs sense o => exact ends_execBr c rs sense o hs
  | dput c d q rs => exact ends_execDput c d q rs hs
  | setvl c rs1 => exact ends_execSetvl c rs1 hs
  | setcnt c k source => exact ends_execSetcnt c k source hs
  | setcmp c k eq rs => exact ends_execSetcmp c k eq rs hs
  | rdcnt c rd k => exact ends_execRdcnt c rd k hs
  | rdlp c rd level => exact ends_execRdlp c rd level hs
  | layout c code => exact ends_execLayout c code hs
  | vectorRun c job errs => exact ends_execVectorRun c job errs hs
  | eccWriteback c => exact ends_execEccWriteback c hs
  | mac c errs => exact ends_execMac c errs hs
  | preload c errs => exact ends_execPreload c errs hs
  | drain c errs => exact ends_execDrain c errs hs
  | load c => exact ends_execLoad c hs
  | loadExpand c => exact ends_execLoadExpand c hs
  | store c errs => exact ends_execStore c errs hs
  | handoff c errs check => exact ends_execHandoff c errs check hs
  | storeToCore c errs => exact ends_execStoreToCore c errs hs
  | opn c errs => exact ends_execOpn c errs hs
  | loadComplete c => exact ends_execLoadComplete c hs
  | storeComplete c => exact ends_execStoreComplete c hs
  | vectorPassComplete c => exact ends_execVectorPassComplete c hs
  | matrixOpComplete c => exact ends_execMatrixOpComplete c hs
  | wait c k => exact ends_execWait c k hs
  | waitq c engine depth => exact ends_execWaitq c engine depth hs
  | fence c => exact ends_execFence c hs
  | signal c v => exact ends_execSignal c v hs
  | halt c => exact ends_execHalt c hs
  | take c => exact ends_execTake c hs
  | syncRelease c => exact ends_execSyncRelease c hs
  | statusWindowExpire unit => exact ends_execStatusWindowExpire unit hs
  | bookCoalesceTimer unit memErr => exact ends_execBookCoalesceTimer unit memErr hs
  | exposureListWrite => exact ends_execExposureListWrite hs
  | gateTxtake g take0 take1 => exact ends_execGateTxtake g take0 take1 hs
  | grantDeadline ctx => exact ends_execGrantDeadline ctx hs
  | confirmationIncomplete group => exact ends_execConfirmationIncomplete group hs

/-- A step keeps the invariant and takes one command from the queue. -/
theorem holds_of_step {t : State} (hs : s.Inv) (h : step s = .next t) : t.Holds s.pending.tail := by
  cases hq : s.pending with
  | nil =>
    rw [step_of_pending_nil hq] at h
    cases h
    exact holds_idle ⟨hq, hs⟩
  | cons c rest =>
    rw [step_of_pending_cons hq] at h
    exact ends_exec (s := { s with pending := rest }) c ⟨rfl, hs⟩ t h

/-- Settles O6: a step runs one command, and every command keeps the invariant. -/
theorem everyStepKeepsCanonicalForm : Obligations.EveryStepKeepsCanonicalForm := by
  unfold Obligations.EveryStepKeepsCanonicalForm
  intro s t hs h
  exact (holds_of_step hs h).2

/-! ### Commands that stop -/

/-- What a row does that acts only while the block is live, and stops when its unit does not exist. -/
def rowOn (ok : Bool) (s : State) (f : State → State) : Res := if ok then act s f else .fault .noSuchUnit

theorem actOn_eq_rowOn (n i : Nat) (s : State) (f : State → State) : actOn n i s f = rowOn (decide (i < n)) s f := by
  simp [actOn, rowOn]

theorem onMarket_eq_rowOn (op : Nat) (s : State) (pass : Option Nat) (g : CtxRec → MOp → Nat → State → State) :
    ∃ f, onMarket op s pass g = rowOn true s f := ⟨_, rfl⟩

/-- Every row but those of the supply, reset and wrapper inputs is a row on its unit. -/
theorem exec_eq_rowOn (c : Instr) (s : State) (h : pinRow c = false) : ∃ f, exec c s = rowOn (unitOk c) s f := by
  cases c
  case chunkBolt r =>
    cases r with
    | market g i => exact ⟨_, actOn_eq_rowOn ..⟩
    | cell op j => exact ⟨_, rfl⟩
    | bcast op i => exact ⟨_, rfl⟩
  case stepNoticeUp g =>
    cases g with
    | none => exact ⟨_, rfl⟩
    | some g => exact ⟨_, actOn_eq_rowOn ..⟩
  case powerGoodRise | powerGoodFall | powerOnReset | softReset | wsBypass | wsExtest | wsIntestScan | svIdcode |
    svMbist => cases h
  case coreSave | coreRestore | linkEnableSet | linkDisable | linkRetrain | coreHaltRequest | coreResume |
    coreSingleStep | laneFail | phyLost | linkBringupStart | trainFlit | trainTimeout | flitReceive | ackReceive |
    ackSend | creditFlitSend | replayTimeout | chunkSend | chunkReceive | maskFrameReceive | shadowCopyReceive |
    shadowResult | boltNotice | revokeNotice | resendNotice | closeNotice | cackNotice | askNotice | grantNotice |
    granaryGrant | stepNoticeDown | crierFrameReceive | forgeApply | forgeBlockApplied | wellRequestIssue |
    wellReadBeat | wellCompletion | wellTimeout | wellRefresh | expanderFetch | expandBlock | longWordIssue | add |
    sub | mul | and | or | xor | shl | shr | sra | slt | sltu | addi | andi | ori | xori | lui | li | ld | st | loop
    | br | dput | setvl | setcnt | setcmp | rdcnt | rdlp | layout | vectorRun | eccWriteback | mac | preload | drain
    | load | loadExpand | store | handoff | storeToCore | opn | loadComplete | storeComplete | vectorPassComplete |
    matrixOpComplete | wait | waitq | fence | signal | halt | take | syncRelease | gateTxtake =>
    exact ⟨_, actOn_eq_rowOn ..⟩
  case dispatchForward | dispatchReplay | ret => exact onMarket_eq_rowOn ..
  all_goals exact ⟨_, rfl⟩

/-- The rows of the supply, reset and wrapper inputs always answer a next state. -/
theorem exec_next_of_pinRow (c : Instr) (s : State) (h : pinRow c = true) : ∃ t, exec c s = .next t := by
  cases c
  case powerGoodFall p =>
    cases p
    case aon => exact ⟨_, rfl⟩
    all_goals
      simp only [exec, execPowerGoodFall]
      split
      · exact ⟨_, rfl⟩
      · split <;> exact ⟨_, rfl⟩
  case powerOnReset low => cases low <;> exact ⟨_, rfl⟩
  case softReset low =>
    cases low
    case false => exact ⟨_, rfl⟩
    case true =>
      cases hp : s.pins.rstPwrN with
      | true => exact ⟨_, exec_softReset_low hp⟩
      | false => exact ⟨_, exec_softReset_low_of_powerOn hp⟩
  case powerGoodRise | wsBypass | wsExtest | wsIntestScan | svIdcode | svMbist => exact ⟨_, rfl⟩
  all_goals cases h

theorem unitOk_of_pinRow {c : Instr} (h : pinRow c = true) : unitOk c = true := by
  cases c
  case powerGoodRise | powerGoodFall | powerOnReset | softReset | wsBypass | wsExtest | wsIntestScan | svIdcode | svMbist =>
    rfl
  all_goals cases h

/-- Settles O4: a row stops exactly when its unit is missing, and the rows of the input pins never do. -/
theorem onlyMissingUnitsStop : Obligations.OnlyMissingUnitsStop := by
  unfold Obligations.OnlyMissingUnitsStop
  intro c s
  cases hpin : pinRow c with
  | true =>
    refine ⟨fun h => ?_, fun _ => exec_next_of_pinRow c s hpin⟩
    rw [unitOk_of_pinRow hpin] at h
    cases h
  | false =>
    obtain ⟨f, hf⟩ := exec_eq_rowOn c s hpin
    refine ⟨fun h => by rw [hf, h]; rfl, fun h => ?_⟩
    rw [hf, h]
    show ∃ t, act s f = .next t
    unfold act
    split <;> exact ⟨_, rfl⟩

/-- Settles O5: every row but those of the input pins asks first whether the block is live. -/
theorem deadBlockIgnoresCommands : Obligations.DeadBlockIgnoresCommands := by
  unfold Obligations.DeadBlockIgnoresCommands
  intro c s hdead hok hpin
  obtain ⟨f, hf⟩ := exec_eq_rowOn c s hpin
  rw [hf, hok]
  exact if_neg (Bool.eq_false_iff.1 hdead)

/-! ### Runs -/

/-- With commands of existing units a step answers a next state, whose queue is the rest. -/
theorem step_next_of_unitOk (hs : s.Inv) (hq : ∀ c ∈ s.pending, unitOk c = true) :
    ∃ t, step s = .next t ∧ t.Inv ∧ t.pending = s.pending.tail := by
  have hnext : ∃ t, step s = .next t := by
    cases hp : s.pending with
    | nil => exact ⟨_, step_of_pending_nil hp⟩
    | cons c rest =>
      rw [step_of_pending_cons hp]
      exact (onlyMissingUnitsStop c _).2 (hq c (by rw [hp]; exact List.mem_cons_self))
  obtain ⟨t, ht⟩ := hnext
  obtain ⟨hrest, hinv⟩ := holds_of_step hs ht
  exact ⟨t, ht, hinv, hrest⟩

/-- Settles O8, by induction on the number of steps. -/
theorem everyRunIsCanonical : Obligations.EveryRunIsCanonical := by
  unfold Obligations.EveryRunIsCanonical
  intro n
  induction n with
  | zero => exact fun s hs _ => ⟨trivial, s, rfl, hs⟩
  | succ n ih =>
    intro s hs hq
    obtain ⟨t, ht, hinv, hrest⟩ := step_next_of_unitOk hs hq
    have hqt : ∀ c ∈ t.pending, unitOk c = true := fun c hc => hq c (List.mem_of_mem_tail (hrest ▸ hc))
    simp only [safeRun, stateAfter, ht]
    exact ih t hinv hqt

end Sys2Proof.Machine
end

section
/-! The supply inputs and the test wrapper (16_ports_power_startup.md, R548 to R551, R567). -/

namespace Sys2Proof.Machine

/-! ### Supplies -/

/-- R551: while PG_AON and RST_PWR_N are high a fall of PG_CORE or PG_SRAM is a soft reset with cause 2. -/
theorem exec_powerGoodFall_resets {s : State} {p : Supply} (hp : p ≠ .aon) (haon : s.pins.pgAon = true)
    (hpwr : s.pins.rstPwrN = true) : exec (.powerGoodFall p) s = .next (softResetTo 2 (setSupply p false s)) := by
  cases p with
  | aon => exact absurd rfl hp
  | core => simp [exec, execPowerGoodFall, haon, hpwr]
  | sram => simp [exec, execPowerGoodFall, haon, hpwr]

theorem exec_powerGoodFall_lowers {s : State} {p : Supply} (hp : p ≠ .aon)
    (h : s.pins.pgAon = false ∨ s.pins.rstPwrN = false) : exec (.powerGoodFall p) s = .next (setSupply p false s) := by
  cases p with
  | aon => exact absurd rfl hp
  | core => rcases h with h | h <;> simp [exec, execPowerGoodFall, h]
  | sram => rcases h with h | h <;> simp [exec, execPowerGoodFall, h]

theorem powered_iff (s : State) :
    powered s = true ↔ s.pins.pgCore = true ∧ s.pins.pgSram = true ∧ s.pins.pgAon = true := by
  simp [powered, and_assoc]

/-- R548, R550: an isolated block holds its outputs low. -/
theorem outputs_low_of_not_powered {s : State} (h : powered s = false) :
    irqFault s = false ∧ irqBell s = false ∧ irqHalt s = false ∧ cmdReady s = false ∧ clocksOut s = false := by
  simp [irqFault, irqBell, irqHalt, cmdReady, clocksOut, h]

/-- Settles O9: what a fall leaves is what the reset that it stands for leaves. -/
theorem supplyInputsActAsTheManualSays : Obligations.SupplyInputsActAsTheManualSays := by
  unfold Obligations.SupplyInputsActAsTheManualSays
  refine ⟨fun s => ⟨rfl, rfl, rfl, ?aon, fun haon hpwr => ⟨?core, ?sram⟩, fun h => ?lowers⟩, fun s => ⟨fun h => ?low, fun h => ?clocks⟩⟩
  case aon => exact ⟨_, rfl, rfl, rfl, resetsTo_powerReset { s.pins with pgAon := false } s⟩
  case core =>
    exact ⟨_, exec_powerGoodFall_resets (by decide) haon hpwr, rfl, keepsUnwritten_softResetTo 2,
      resetsTo_softResetTo 2 { s.pins with pgCore := false } s⟩
  case sram =>
    exact ⟨_, exec_powerGoodFall_resets (by decide) haon hpwr, rfl, keepsUnwritten_softResetTo 2,
      resetsTo_softResetTo 2 { s.pins with pgSram := false } s⟩
  case lowers => exact ⟨exec_powerGoodFall_lowers (by decide) h, exec_powerGoodFall_lowers (by decide) h⟩
  case low => exact outputs_low_of_not_powered (Bool.eq_false_iff.2 (fun hp => h ((powered_iff s).1 hp)))
  case clocks => exact (powered_iff s).2 h

/-! ### The test wrapper -/

theorem setWrap_of_powered {s : State} (w : WrapIns) (h : powered s = true) :
    setWrap w s = { s with pins := { s.pins with wrap := w } } := if_pos h

theorem setWrap_of_not_powered {s : State} (w : WrapIns) (h : powered s = false) : setWrap w s = s :=
  if_neg (Bool.eq_false_iff.1 h)

theorem exec_svIdcode_of_powered {s : State} (h : powered s = true) :
    exec .svIdcode s = .next { s with pins := { s.pins with wrap := .idcode, wso := 0x0003000153564C58#64 } } := by
  simp [exec, execSvIdcode, h, setWrap, blkId, blkVersion]

/-- Settles O11: each wrapper instruction asks only whether the supplies are good. -/
theorem wrapperInstructions : Obligations.WrapperInstructions := by
  unfold Obligations.WrapperInstructions
  intro s
  refine ⟨fun h => ⟨?_, ?_, ?_, ?_, exec_svIdcode_of_powered h⟩, fun h c hc => ?_⟩
  case refine_5 =>
    simp only [List.mem_cons, List.not_mem_nil, or_false] at hc
    rcases hc with rfl | rfl | rfl | rfl | rfl
    case inr.inr.inr.inr => exact congrArg _ (if_neg (Bool.eq_false_iff.1 h))
    all_goals exact congrArg _ (setWrap_of_not_powered _ h)
  all_goals exact congrArg _ (setWrap_of_powered _ h)

end Sys2Proof.Machine
end

section
/-! Rows of a live block, and what a fault report leaves: the rules that the proofs of single rows share. -/

namespace Sys2Proof.Machine

/-! ### Rows that act -/

theorem actOn_of_live {s : State} {n i : Nat} (hs : live s = true) (hi : i < n) (f : State → State) :
    actOn n i s f = .next (f s) := by
  rw [actOn, if_pos hi, act_of_live hs]

theorem actUnit_of_live {s : State} {u : Nat} (hs : live s = true) (hu : unitExists u = true) (f : State → State) :
    actUnit u s f = .next (f s) := by
  rw [actUnit, if_pos hu, act_of_live hs]

/-- The command at the head of the FIFO runs on its word. -/
theorem onHead_of_headIs {s : State} {op : Nat} {w : U64} {rest : List U64} (h : headIs s op w rest)
    (f : Nat → State → State) : onHead op s f = .next (f w.toNat s) := by
  obtain ⟨hlive, hfifo, hop, hheld⟩ := h
  rw [onHead, act_of_live hlive]
  simp only [hfifo, hop, hheld, decide_true, Bool.not_false, Bool.and_self, if_true]

theorem popCmd_of_headIs {s : State} {op : Nat} {w : U64} {rest : List U64} (h : headIs s op w rest) :
    popCmd s = { s with cmd := { s.cmd with fifo := rest } } := by
  obtain ⟨-, hfifo, -, -⟩ := h
  rw [popCmd, hfifo, List.tail_cons]

theorem discardCmd_of_headIs {s : State} {op : Nat} {w : U64} {rest : List U64} (h : headIs s op w rest) (n : Nat) :
    discardCmd n s = raise 0x0E n uBlock 0 0 { s with cmd := { s.cmd with fifo := rest } } := by
  rw [discardCmd, popCmd_of_headIs h, configFault]

/-! ### What a report leaves -/

section
variable {s t : State}

theorem reported.pending (h : reported s t) : t.pending = s.pending := by rw [h]
theorem reported.pins (h : reported s t) : t.pins = s.pins := by rw [h]
theorem reported.mgt (h : reported s t) : t.mgt = s.mgt := by rw [h]
theorem reported.boot (h : reported s t) : t.boot = s.boot := by rw [h]
theorem reported.charter (h : reported s t) : t.charter = s.charter := by rw [h]
theorem reported.cmd (h : reported s t) : t.cmd = s.cmd := by rw [h]
theorem reported.step (h : reported s t) : t.step = s.step := by rw [h]
theorem reported.bell (h : reported s t) : t.bell = s.bell := by rw [h]
theorem reported.alm (h : reported s t) : t.alm = s.alm := by rw [h]
theorem reported.forge (h : reported s t) : t.forge = s.forge := by rw [h]
theorem reported.exp (h : reported s t) : t.exp = s.exp := by rw [h]
theorem reported.roll (h : reported s t) : t.roll = s.roll := by rw [h]
theorem reported.ops (h : reported s t) : t.ops = s.ops := by rw [h]
theorem reported.waves (h : reported s t) : t.waves = s.waves := by rw [h]
theorem reported.mkt (h : reported s t) : t.mkt = s.mkt := by rw [h]
theorem reported.cores (h : reported s t) : t.cores = s.cores := by rw [h]
theorem reported.gates (h : reported s t) : t.gates = s.gates := by rw [h]
theorem reported.signalMap (h : reported s t) : t.signalMap = s.signalMap := by rw [h]

end

theorem reported_readsEnd (rd : ReadEnd) (s : State) : reported s (readsEnd rd s) := by
  cases rd with
  | ok => exact reported_refl s
  | poisoned us => exact reported_foldl (f := fun s u => modWell (wellOf s (64 * u)) _ s) (fun _ _ => rfl) us s
  | error a => exact reported_trans (b := modWell (wellOf s a) _ s) rfl (reported_raise ..)

end Sys2Proof.Machine
end

section
/-! The ROM self-test and the loads of firmware (16_ports_power_startup.md, R569 to R574). -/

namespace Sys2Proof.Machine

variable {s : State}

/-! ### The self-test -/

theorem exec_romSelfTest_pass (hs : live s = true) (h : s.boot.stage = 0) :
    exec (.romSelfTest true) s = .next { s with boot := { s.boot with stage := 1, selfTestFailed := false } } := by
  simp [exec, execRomSelfTest, act_of_live hs, h]

theorem exec_romSelfTest_fail (hs : live s = true) (h : s.boot.stage = 0) :
    exec (.romSelfTest false) s = .next { s with boot := { s.boot with selfTestFailed := true } } := by
  simp [exec, execRomSelfTest, act_of_live hs, h]

theorem exec_romSelfTest_later (hs : live s = true) (h : s.boot.stage ≠ 0) (p : Bool) :
    exec (.romSelfTest p) s = .next s := by
  simp [exec, execRomSelfTest, act_of_live hs, h]

theorem powered_of_live (hs : live s = true) : powered s = true := by
  simp only [live, Bool.and_eq_true] at hs
  exact hs.1.1

/-! ### The start of a load -/

/-- The state in which a load that the stage allows begins: its registers say what it loads, and nothing has come. -/
def loadBegun (target : Bool) (src : LoadSource) (s : State) : State :=
  { s with boot := { s.boot with target := target, source := decide (src = .well0), buf := [] } }

/-- Whether the block takes no load of this kind now (R574, R575). -/
def loadBarred (target : Bool) (s : State) : Bool :=
  target && (decide (s.boot.stage < 2) || !idleForCharter s) || !target && decide (s.boot.stage ≠ 1)

theorem loadStarts_barred {target : Bool} (h : loadBarred target s = true) (src : LoadSource) (rd : ReadEnd) :
    loadStarts target src rd s = loadRejected 10 0 (loadBegun target src s) := if_pos h

theorem loadStarts_stream {target : Bool} (h : loadBarred target s = false) (hlen : s.boot.len ≠ 0) (rd : ReadEnd) :
    loadStarts target .stream rd s =
      { s with boot := { s.boot with target := target, source := false, buf := [], loadState := 1, reason := 0, record := 0 } } :=
  (if_neg (Bool.eq_false_iff.1 h)).trans (if_neg hlen)

theorem loadStarts_stream_empty {target : Bool} (h : loadBarred target s = false) (hlen : s.boot.len = 0) (rd : ReadEnd) :
    loadStarts target .stream rd s = loadCheck [] (loadBegun target .stream s) :=
  (if_neg (Bool.eq_false_iff.1 h)).trans (if_pos hlen)

theorem loadStarts_well0_ok {target : Bool} (h : loadBarred target s = false) :
    loadStarts target .well0 .ok s =
      loadCheck (hostRead s s.boot.base.toNat s.boot.len) (loadBegun target .well0 s) :=
  if_neg (Bool.eq_false_iff.1 h)

theorem loadStarts_well0_bad {target : Bool} (h : loadBarred target s = false) {rd : ReadEnd} (hrd : rd ≠ .ok) :
    loadStarts target .well0 rd s = loadRejected 12 0 (readsEnd rd (loadBegun target .well0 s)) :=
  (if_neg (Bool.eq_false_iff.1 h)).trans (if_neg hrd)

/-- What a load whose read fails leaves: the load state and its reason, the stage and the charter (R573). -/
theorem loadRejected_readsEnd (reason record : Nat) (rd : ReadEnd) (s : State) :
    let t := loadRejected reason record (readsEnd rd s)
    t.boot = { s.boot with loadState := 4, reason := reason, record := record, buf := [] } ∧ t.charter = s.charter := by
  have h := reported_readsEnd rd s
  refine ⟨?_, h.charter⟩
  rw [loadRejected, h.boot]

theorem firmware_loadBarred : loadBarred false s = decide (s.boot.stage ≠ 1) := by simp [loadBarred]

theorem exec_firmwareLoad (hs : live s = true) (src : LoadSource) (rd : ReadEnd) :
    exec (.firmwareLoad src rd) s = .next (loadStarts false src rd s) := act_of_live hs _

/-! ### The check of an image -/

theorem length_hostRead (s : State) (a n : Nat) : (hostRead s a n).length = n := by simp [hostRead]

/-- R574: firmware is taken in stage 1 when it is at most 1 MiB and its signature verifies. -/
theorem firmwareCheck_of_stage {b : Bytes} (h : s.boot.stage = 1) : firmwareCheck b s =
    if 2 ^ 20 < b.length then loadRejected 3 0 s
    else if ed25519Verify Config.romKey (b.take (b.length - 64)) (b.drop (b.length - 64)) then
      { s with boot := { s.boot with loadState := 3, reason := 0, record := 0, buf := [], fwVersion := 0x0203, stage := 2 } }
    else loadRejected 5 0 s := by
  rw [firmwareCheck, if_neg (Decidable.not_not.2 h)]
  cases ed25519Verify Config.romKey (b.take (b.length - 64)) (b.drop (b.length - 64)) <;> rfl

/-! ### The end of a load -/

theorem exec_loadAbort_of_loading (hs : live s = true) (h : s.boot.loadState = 1 ∨ s.boot.loadState = 2) :
    exec .loadAbort s = .next { s with boot := { s.boot with loadState := 4, reason := 11, record := 0, buf := [] } } :=
  (act_of_live hs _).trans (congrArg _ (if_pos h))

theorem exec_loadAbort_of_not_loading (hs : live s = true) (h : ¬ (s.boot.loadState = 1 ∨ s.boot.loadState = 2)) :
    exec .loadAbort s = .next s :=
  (act_of_live hs _).trans (congrArg _ (if_neg h))

/-- Settles O12: a firmware load asks for stage 1, and then the length and the signature of its image decide. -/
theorem selfTestAndLoadsMoveTheStages : Obligations.SelfTestAndLoadsMoveTheStages := by
  unfold Obligations.SelfTestAndLoadsMoveTheStages
  intro s hs
  have hfree : s.boot.stage = 1 → loadBarred false s = false := fun h => by rw [firmware_loadBarred, h]; rfl
  refine ⟨fun h => ⟨exec_romSelfTest_pass hs h, _, exec_romSelfTest_fail hs h, rfl, ?halt⟩,
    fun h p => exec_romSelfTest_later hs h p, fun h rd => ⟨fun hl => ?stream, fun hl => ?empty⟩, fun h => ?image,
    fun h rd hrd => ?failed, fun h src rd => ?barred, exec_loadAbort_of_loading hs,
    fun h1 h2 => exec_loadAbort_of_not_loading hs (not_or.2 ⟨h1, h2⟩)⟩
  case halt =>
    have hp := powered_of_live hs
    simp only [irqHalt, powered] at hp ⊢
    simp [hp]
  case stream => rw [exec_firmwareLoad hs, loadStarts_stream (hfree h) hl]
  case empty => rw [exec_firmwareLoad hs, loadStarts_stream_empty (hfree h) hl]; rfl
  case image =>
    rw [exec_firmwareLoad hs, loadStarts_well0_ok (hfree h)]
    show Host.Outcome.next (firmwareCheck _ (loadBegun false .well0 s)) = _
    rw [firmwareCheck_of_stage (s := loadBegun false .well0 s) h]
    simp only [length_hostRead]
    rfl
  case failed =>
    obtain ⟨hboot, -⟩ := loadRejected_readsEnd 12 0 rd (loadBegun false .well0 s)
    rw [exec_firmwareLoad hs, loadStarts_well0_bad (hfree h) hrd]
    exact ⟨_, rfl, by rw [hboot], by rw [hboot], by rw [hboot]; exact h⟩
  case barred =>
    rw [exec_firmwareLoad hs, loadStarts_barred (by rw [firmware_loadBarred]; exact decide_eq_true h)]
    rfl

end Sys2Proof.Machine
end

section
/-! The charter load (16_ports_power_startup.md, R573 to R579): a charter applies whole or not at all. -/

namespace Sys2Proof.Machine

variable {s t : State}

/-! ### The links of a new charter: with no group loaded a link that goes down touches no operation -/

/-- From `s` to `t` nothing but the gates changes. -/
def gatesOnly (s t : State) : Prop := t = { s with gates := t.gates }

theorem gatesOnly_refl (s : State) : gatesOnly s s := rfl

theorem gatesOnly_trans {a b c : State} (h1 : gatesOnly a b) (h2 : gatesOnly b c) : gatesOnly a c := by
  unfold gatesOnly at *
  rw [h1] at h2
  exact h2

theorem gatesOnly_modGate (g : Nat) (f : Gate → Gate) (s : State) : gatesOnly s (modGate g f s) := rfl

theorem gatesOnly_ite {a b : State} {p : Prop} [Decidable p] (ha : gatesOnly s a) (hb : gatesOnly s b) :
    gatesOnly s (if p then a else b) := by
  split <;> assumption

theorem gatesOnly.roll (h : gatesOnly s t) : t.roll = s.roll := by rw [h]

theorem grpOf_of_no_groups (h : s.roll.groups = []) (n : Nat) : grpOf s n = none := by rw [grpOf, h]; rfl

theorem stillComes_of_no_groups (h : s.roll.groups = []) (o : Op) (gate : Nat) (key : Nat × Nat × Nat) :
    stillComes s o gate key = true := by
  rw [stillComes, grpOf_of_no_groups h]
  rfl

theorem downExcludes_of_no_groups (h : s.roll.groups = []) (gate : Nat) : downExcludes gate s = s := by
  have hstale : s.ops.map (fun (o : Op) => { o with stale := o.stale.filter (stillComes s o gate) }) = s.ops := by
    refine (List.map_congr_left (fun o _ => ?_)).trans (List.map_id' s.ops)
    rw [List.filter_eq_self.2 (fun key _ => stillComes_of_no_groups h o gate key)]
  have hskip : ∀ l : List Op, l.foldl (fun s o =>
      match grpOf s o.name.group with
      | none => s
      | some g => excludeWhere o.name g o (fun c p => (linkInputs g o c gate).contains p && inputUnbolted g o c.idx p) s) s = s := by
    intro l
    induction l with
    | nil => rfl
    | cons o l ih => rw [List.foldl_cons, grpOf_of_no_groups h]; exact ih
  rw [downExcludes, hstale]
  exact hskip _

theorem gatesOnly_disableLink (h : s.roll.groups = []) (g : Nat) : gatesOnly s (disableLink g s) := by
  refine gatesOnly_ite ?_ (gatesOnly_refl s)
  rw [downExcludes_of_no_groups (by exact h)]
  exact gatesOnly_modGate ..

theorem gatesOnly_startTraining (g : Nat) (s : State) : gatesOnly s (startTraining g s) :=
  gatesOnly_ite (gatesOnly_modGate ..) (gatesOnly_refl s)

theorem gatesOnly_relink (h : s.roll.groups = []) (c : Charter) (g : Nat) : gatesOnly s (relink c s g) := by
  unfold relink
  extract_lets on k s1 s2
  refine gatesOnly_ite ?_ ?_
  · have h1 : gatesOnly s s1 := gatesOnly_ite (gatesOnly_disableLink h g) (gatesOnly_refl s)
    exact gatesOnly_trans h1 (gatesOnly_modGate ..)
  · have h2 : gatesOnly s s2 := gatesOnly_modGate ..
    exact gatesOnly_ite (gatesOnly_trans h2 (gatesOnly_startTraining g s2)) h2

theorem gatesOnly_holdLink (h : s.roll.groups = []) (c : Charter) (g : Nat) : gatesOnly s (holdLink c s g) :=
  gatesOnly_ite (gatesOnly_modGate ..) (gatesOnly_relink h c g)

/-- A run over the gates changes nothing else, when each step does so while no group is loaded. -/
theorem gatesOnly_foldl {f : State → Nat → State} (hf : ∀ s g, s.roll.groups = [] → gatesOnly s (f s g))
    (l : List Nat) (h : s.roll.groups = []) : gatesOnly s (l.foldl f s) := by
  induction l generalizing s with
  | nil => exact gatesOnly_refl s
  | cons g l ih =>
    have hg := hf s g h
    exact gatesOnly_trans hg (ih (by rw [hg.roll, h]))

/-! ### The contexts -/

/-- From `s` to `t` only the market and the records of faults change. -/
def mktReported (s t : State) : Prop := reported { s with mkt := t.mkt } t

theorem mktReported_refl (s : State) : mktReported s s := reported_refl s

theorem mktReported_trans {a b c : State} (h1 : mktReported a b) (h2 : mktReported b c) : mktReported a c := by
  unfold mktReported reported at *
  rw [h1] at h2
  exact h2

theorem mktReported_mkt (s : State) (m : Mkt) : mktReported s { s with mkt := m } := rfl

theorem mktReported_raise (a b c d e : Nat) (s : State) : mktReported s (raise a b c d e s) := by
  have h := reported_raise a b c d e s
  unfold mktReported
  rw [h.mkt]
  exact h

theorem mktReported_ite {a b : State} {p : Prop} [Decidable p] (ha : mktReported s a) (hb : mktReported s b) :
    mktReported s (if p then a else b) := by
  split <;> assumption

theorem mktReported_readContext (base : Nat) (hinge : Bool) (s : State) (c : Nat) :
    mktReported s (readContext base hinge s c) := by
  unfold readContext
  extract_lets b r old put none3 fault want m s1 may s2
  have hput : ∀ x u, mktReported u (put x u) := fun _ u => mktReported_mkt u _
  have hfault : ∀ u, mktReported u (fault u) := mktReported_raise _ _ _ _ _
  have h1 : mktReported s s1 := mktReported_ite (mktReported_mkt s _) (mktReported_refl s)
  have h2 : mktReported s s2 := mktReported_trans h1 (hput _ _)
  exact mktReported_ite (mktReported_trans h1 (hput _ _))
    (mktReported_ite (mktReported_trans (mktReported_trans h1 (hput _ _)) (hfault _))
      (mktReported_ite (mktReported_trans h2 (hfault _)) h2))

theorem mktReported_foldl {α : Type} {f : State → α → State} (hf : ∀ s x, mktReported s (f s x)) (l : List α) (s : State) :
    mktReported s (l.foldl f s) := by
  induction l generalizing s with
  | nil => exact mktReported_refl s
  | cons x l ih => exact mktReported_trans (hf s x) (ih _)

theorem mktReported_readContexts (hinge : Bool) (s : State) : mktReported s (readContexts hinge s) := by
  unfold readContexts
  split
  · exact mktReported_refl s
  · exact mktReported_ite (mktReported_mkt s _)
      (mktReported_trans (mktReported_mkt s _) (mktReported_foldl (mktReported_readContext _ _) _ _))

/-! ### Acceptance -/

/-- What a charter that applies leaves of the parts that the loads and the roll speak of (R579). -/
theorem applyCharter_leaves (c : Charter) (s : State) :
    let t := applyCharter c s
    t.charter = some c ∧ t.boot = { s.boot with
      loadState := 3, reason := 0, record := 0, stage := if s.boot.stage = 2 then 3 else s.boot.stage } ∧
    t.roll = { s.roll with loaded := false, groups := [], route := [], hmax := [], confirming := [] } ∧
    t.alm = { s.alm with tests := [], installed := false, pkg := 0, serial := 0, highest := 0 } ∧ t.forge.map = 0 ∧
    t.pins = s.pins ∧ t.cmd = s.cmd ∧ t.ops = s.ops := by
  unfold applyCharter
  extract_lets m first bt st al fo ro s1 s2 t
  have hstatus : reported s1 (clearPermanent s1) := reported_foldl (f := fun s u => setStatus u 0 0 s) (fun _ _ => reported_setStatus ..) _ s1
  have hctx : mktReported s1 s2 := by
    have hmkt : mktReported s1 (clearPermanent s1) := by
      unfold mktReported
      rw [hstatus.mkt]
      exact hstatus
    exact mktReported_trans hmkt (mktReported_readContexts false _)
  have hgroups : s2.roll.groups = [] := by rw [hctx.roll]
  have hgates : gatesOnly s2 t := by
    refine gatesOnly_foldl (fun u g hu => ?_) _ hgroups
    split
    · exact gatesOnly_holdLink hu c g
    · exact gatesOnly_relink hu c g
  have hpins : s2.pins = s.pins := hctx.pins
  have hops : s2.ops = s.ops := hctx.ops
  rw [hgates]
  refine ⟨hctx.charter, hctx.boot, hctx.roll, hctx.alm, ?_, hpins, hctx.cmd, hops⟩
  show s2.forge.map = 0
  rw [hctx.forge]

theorem charter_loadBarred : loadBarred true s = (decide (s.boot.stage < 2) || !idleForCharter s) := by
  simp [loadBarred]

theorem charter_loadBarred_of_idle (hstage : 2 ≤ s.boot.stage) (hidle : idleForCharter s = true) :
    loadBarred true s = false := by
  rw [charter_loadBarred, hidle, decide_eq_false (Nat.not_lt.2 hstage)]
  rfl

theorem exec_charterLoad (hs : live s = true) (src : LoadSource) (rd : ReadEnd) :
    exec (.charterLoad src rd) s = .next (loadStarts true src rd s) := act_of_live hs _

theorem charterCheck_of_idle (hstage : 2 ≤ s.boot.stage) (hidle : idleForCharter s = true) (b : Bytes) :
    charterCheck b s = match charterReason s b with
      | some (r, i) => loadRejected r i s
      | none => applyCharter (charterOf b) { s with boot := { s.boot with buf := [] } } := by
  have hbar := charter_loadBarred_of_idle hstage hidle
  rw [charter_loadBarred] at hbar
  rw [charterCheck, hbar]
  rfl

/-! ### The words of a stream load -/

/-- The four bytes of a word, the low byte first. -/
theorem natLe_four_toNat (v : U32) : natLe 4 v.toNat =
    [v.truncate 8, (v >>> 8).truncate 8, (v >>> 16).truncate 8, (v >>> 24).truncate 8] := by
  simp only [natLe, List.cons.injEq, and_true]
  refine ⟨?_, ?_, ?_, ?_⟩ <;> apply BitVec.eq_of_toNat_eq <;> simp [Nat.shiftRight_eq_div_pow, Nat.div_div_eq_div_mul]

theorem exec_loadData (hs : live s = true) (v : U32) : exec (.loadData v) s = .next (loadData v s) := act_of_live hs _

theorem length_natLe (n v : Nat) : (natLe n v).length = n := by
  induction n generalizing v with
  | zero => rfl
  | succ n ih => rw [natLe, List.length_cons, ih]

theorem loadData_more (h : s.boot.loadState = 1) {v : U32} (hlen : s.boot.buf.length + 4 < s.boot.len) :
    loadData v s = { s with boot := { s.boot with buf := s.boot.buf ++ natLe 4 v.toNat } } := by
  rw [loadData, if_neg (Classical.not_not.2 h)]
  exact if_pos (by rw [List.length_append, length_natLe]; exact hlen)

theorem loadData_last (h : s.boot.loadState = 1) {v : U32} (hlen : s.boot.len ≤ s.boot.buf.length + 4) :
    loadData v s = loadCheck ((s.boot.buf ++ natLe 4 v.toNat).take s.boot.len) s := by
  rw [loadData, if_neg (Classical.not_not.2 h)]
  exact if_neg (by rw [List.length_append, length_natLe]; omega)

theorem loadData_ignored (h : s.boot.loadState ≠ 1) (v : U32) : loadData v s = s := if_pos h

/-- Settles O13: the stage and the idle block let a load in, and the check of the image then decides for all of it. -/
theorem charterIsAcceptedWholeOrNotAtAll : Obligations.CharterIsAcceptedWholeOrNotAtAll := by
  unfold Obligations.CharterIsAcceptedWholeOrNotAtAll
  refine ⟨fun s hs => ⟨fun h src rd => ?barred, fun hstage hidle rd => ?begins, fun hstage hidle => ?image⟩,
    fun s v hs => ⟨fun h hlen => ?more, fun h hlen => ?last, fun h => ?ignored⟩⟩
  case barred =>
    have hbar : loadBarred true s = true := by
      rw [charter_loadBarred]
      rcases h with h | h <;> simp [h]
    rw [exec_charterLoad hs, loadStarts_barred hbar]
    rfl
  case begins =>
    have hfree := charter_loadBarred_of_idle hstage hidle
    refine ⟨fun hl => ?_, fun hl => ?_, fun hrd => ?_⟩
    · rw [exec_charterLoad hs, loadStarts_stream hfree hl]
    · rw [exec_charterLoad hs, loadStarts_stream_empty hfree hl]
      rfl
    · obtain ⟨hboot, hcharter⟩ := loadRejected_readsEnd 12 0 rd (loadBegun true .well0 s)
      rw [exec_charterLoad hs, loadStarts_well0_bad hfree hrd]
      exact ⟨_, rfl, by rw [hboot], by rw [hboot], hcharter, by rw [hboot]; rfl⟩
  case image =>
    have hfree := charter_loadBarred_of_idle hstage hidle
    have hexec : exec (.charterLoad .well0 .ok) s =
        .next (charterCheck (hostRead s s.boot.base.toNat s.boot.len) (loadBegun true .well0 s)) := by
      rw [exec_charterLoad hs, loadStarts_well0_ok hfree]
      rfl
    rw [charterCheck_of_idle (s := loadBegun true .well0 s) hstage hidle] at hexec
    intro b s'
    have hs' : loadBegun true .well0 s = s' := rfl
    rw [hs'] at hexec
    cases hreason : charterReason s' b with
    | some r =>
      rw [hreason] at hexec
      exact hexec
    | none =>
      rw [hreason] at hexec
      obtain ⟨hcharter, hboot, hroll, halm, hmap, hpins, hcmd, hops⟩ :=
        applyCharter_leaves (charterOf b) { s' with boot := { s'.boot with buf := [] } }
      exact ⟨_, hexec, hcharter, by rw [hboot], by rw [hboot], by rw [hboot], by rw [hroll], by rw [hroll],
        by rw [halm], hmap, hpins, hcmd, hops⟩
  case more => rw [exec_loadData hs, loadData_more h hlen, natLe_four_toNat]
  case last => rw [exec_loadData hs, loadData_last h hlen]
  case ignored => rw [exec_loadData hs, loadData_ignored h]

end Sys2Proof.Machine
end

section
/-! What the work on operations and links leaves alone: the queue of waiting commands and the stage of start-up. One lemma for each
function that a link going down may reach, in the order of the model. -/

namespace Sys2Proof.Machine

@[simp] theorem ite_pending {c : Prop} [Decidable c] (a b : State) :
    (if c then a else b).pending = if c then a.pending else b.pending := apply_ite State.pending c a b

theorem foldl_pending {α : Type} {f : State → α → State} (hf : ∀ s x, (f s x).pending = s.pending) (l : List α) (s : State) :
    (l.foldl f s).pending = s.pending :=
  List.foldlRecOn (motive := fun (u : State) => u.pending = s.pending) l f rfl (fun u hu x _ => (hf u x).trans hu)

@[simp] theorem ite_boot {c : Prop} [Decidable c] (a b : State) :
    (if c then a else b).boot = if c then a.boot else b.boot := apply_ite State.boot c a b

theorem foldl_boot {α : Type} {f : State → α → State} (hf : ∀ s x, (f s x).boot = s.boot) (l : List α) (s : State) :
    (l.foldl f s).boot = s.boot :=
  List.foldlRecOn (motive := fun (u : State) => u.boot = s.boot) l f rfl (fun u hu x _ => (hf u x).trans hu)

@[simp] theorem setMode_pending_boot (bit s) : (setMode bit s).pending = s.pending ∧ (setMode bit s).boot = s.boot := by
  unfold setMode
  split <;> simp

@[simp] theorem setModeAt_pending_boot (step bit s) :
    (setModeAt step bit s).pending = s.pending ∧ (setModeAt step bit s).boot = s.boot := by
  unfold setModeAt
  simp

@[simp] theorem postWriteAs_pending_boot (n o a bs bad s) :
    (postWriteAs n o a bs bad s).pending = s.pending ∧ (postWriteAs n o a bs bad s).boot = s.boot :=
  ⟨(reported_postWriteAs ..).pending, (reported_postWriteAs ..).boot⟩

@[simp] theorem postWriteBad_pending_boot (owner a bs bad s) :
    (postWriteBad owner a bs bad s).pending = s.pending ∧ (postWriteBad owner a bs bad s).boot = s.boot := by
  unfold postWriteBad
  simp

@[simp] theorem postAnnounce_pending_boot (owner a bs s) :
    (postAnnounce owner a bs s).pending = s.pending ∧ (postAnnounce owner a bs s).boot = s.boot := by
  unfold postAnnounce
  simp

@[simp] theorem postWrite_pending_boot (owner a bs poison s) :
    (postWrite owner a bs poison s).pending = s.pending ∧ (postWrite owner a bs poison s).boot = s.boot := by
  unfold postWrite
  simp

@[simp] theorem setRing_pending_boot (s i r) : (setRing s i r).pending = s.pending ∧ (setRing s i r).boot = s.boot := by
  unfold setRing
  split <;> simp

@[simp] theorem ringPut_pending_boot (i e s) : (ringPut i e s).pending = s.pending ∧ (ringPut i e s).boot = s.boot := by
  unfold ringPut
  simp

@[simp] theorem ringPush_pending_boot (i e s) :
    (ringPush i e s).pending = s.pending ∧ (ringPush i e s).boot = s.boot := by
  unfold ringPush
  simp

@[simp] theorem ringBell_pending_boot (group seq chunk status kind s) :
    (ringBell group seq chunk status kind s).pending = s.pending ∧ (ringBell group seq chunk status kind s).boot = s.boot := by
  unfold ringBell
  simp

@[simp] theorem holdRecord_pending_boot (r s) :
    (holdRecord r s).pending = s.pending ∧ (holdRecord r s).boot = s.boot := by
  unfold holdRecord
  simp

@[simp] theorem bookNextSector_pending_boot (s) :
    (bookNextSector s).pending = s.pending ∧ (bookNextSector s).boot = s.boot := by
  unfold bookNextSector
  simp [foldl_pending, foldl_boot]

@[simp] theorem bookWear_pending_boot (s) : (bookWear s).pending = s.pending ∧ (bookWear s).boot = s.boot := ⟨rfl, rfl⟩

@[simp] theorem bookWrite_pending_boot (r s) : (bookWrite r s).pending = s.pending ∧ (bookWrite r s).boot = s.boot := by
  unfold bookWrite
  simp

@[simp] theorem trigger_pending_boot (unit cls seq s) :
    (trigger unit cls seq s).pending = s.pending ∧ (trigger unit cls seq s).boot = s.boot := by
  unfold trigger
  simp

@[simp] theorem setStatus_pending_boot (unit cls new s) :
    (setStatus unit cls new s).pending = s.pending ∧ (setStatus unit cls new s).boot = s.boot := by
  unfold setStatus
  simp

@[simp] theorem bookFault_pending_boot (cls detail unit r s) :
    (bookFault cls detail unit r s).pending = s.pending ∧ (bookFault cls detail unit r s).boot = s.boot := by
  unfold bookFault
  simp only
  split <;> simp

@[simp] theorem chargeUnit_pending_boot (cls unit s) :
    (chargeUnit cls unit s).pending = s.pending ∧ (chargeUnit cls unit s).boot = s.boot := by
  unfold chargeUnit
  simp

@[simp] theorem raiseOnce_pending_boot (cls detail unit info0 info1 outcome partner s) :
    (raiseOnce cls detail unit info0 info1 outcome partner s).pending = s.pending ∧
        (raiseOnce cls detail unit info0 info1 outcome partner s).boot = s.boot := by
  unfold raiseOnce
  simp only
  repeat' split
  all_goals simp

@[simp] theorem bookWatch_pending_boot (old s) :
    (bookWatch old s).pending = s.pending ∧ (bookWatch old s).boot = s.boot := by
  unfold bookWatch
  simp

@[simp] theorem sendNotice_pending_boot (g n s) :
    (sendNotice g n s).pending = s.pending ∧ (sendNotice g n s).boot = s.boot := ⟨rfl, rfl⟩

@[simp] theorem greenNotice_pending_boot (g n s) :
    (greenNotice g n s).pending = s.pending ∧ (greenNotice g n s).boot = s.boot := ⟨rfl, rfl⟩

@[simp] theorem enqueueItem_pending_boot (g i s) :
    (enqueueItem g i s).pending = s.pending ∧ (enqueueItem g i s).boot = s.boot := ⟨rfl, rfl⟩

@[simp] theorem setOpMode_pending_boot (nm bit s) :
    (setOpMode nm bit s).pending = s.pending ∧ (setOpMode nm bit s).boot = s.boot := by
  unfold setOpMode
  simp

@[simp] theorem plausible_pending_boot (unit h vs s) :
    (plausible unit h vs s).pending = s.pending ∧ (plausible unit h vs s).boot = s.boot := by
  unfold plausible
  simp

@[simp] theorem normSeen_pending_boot (r failed s) :
    (normSeen r failed s).pending = s.pending ∧ (normSeen r failed s).boot = s.boot := by
  unfold normSeen
  simp

@[simp] theorem forgeOpFailed_pending_boot (nm s) :
    (forgeOpFailed nm s).pending = s.pending ∧ (forgeOpFailed nm s).boot = s.boot := by
  unfold forgeOpFailed
  split <;> simp [foldl_pending, foldl_boot]

@[simp] theorem auditPush_pending_boot (bit r s) :
    (auditPush bit r s).pending = s.pending ∧ (auditPush bit r s).boot = s.boot := by
  unfold auditPush
  simp

@[simp] theorem tensorDigest_pending_boot (nm s) :
    (tensorDigest nm s).pending = s.pending ∧ (tensorDigest nm s).boot = s.boot := by
  unfold tensorDigest
  split <;> simp

@[simp] theorem sendGrant_pending_boot (nm idx a wait s) :
    (sendGrant nm idx a wait s).pending = s.pending ∧ (sendGrant nm idx a wait s).boot = s.boot := by
  unfold sendGrant
  simp

@[simp] theorem answerAsk_pending_boot (nm s a) :
    (answerAsk nm s a).pending = s.pending ∧ (answerAsk nm s a).boot = s.boot := by
  unfold answerAsk
  repeat' split
  all_goals simp

@[simp] theorem answerAsks_pending_boot (nm s) :
    (answerAsks nm s).pending = s.pending ∧ (answerAsks nm s).boot = s.boot := by
  unfold answerAsks
  split <;> simp [foldl_pending, foldl_boot]

@[simp] theorem addChunk_pending_boot (nm g o j c s) :
    (addChunk nm g o j c s).pending = s.pending ∧ (addChunk nm g o j c s).boot = s.boot := by
  unfold addChunk
  split <;> simp

@[simp] theorem markComplete_pending_boot (nm g j s) :
    (markComplete nm g j s).pending = s.pending ∧ (markComplete nm g j s).boot = s.boot := by
  unfold markComplete
  repeat' split
  all_goals simp

@[simp] theorem addLoop_pending_boot (nm g j fuel s) :
    (addLoop nm g j fuel s).pending = s.pending ∧ (addLoop nm g j fuel s).boot = s.boot := by
  induction fuel generalizing s with
  | zero => exact ⟨rfl, rfl⟩
  | succ fuel ih =>
    unfold addLoop
    repeat' split
    all_goals simp [ih]

@[simp] theorem placeOutput_pending_boot (nm g o j s) :
    (placeOutput nm g o j s).pending = s.pending ∧ (placeOutput nm g o j s).boot = s.boot := by
  unfold placeOutput
  repeat' split
  all_goals simp

@[simp] theorem dropChunks_pending_boot (p s) :
    (dropChunks p s).pending = s.pending ∧ (dropChunks p s).boot = s.boot := ⟨rfl, rfl⟩

@[simp] theorem recordGfail_pending_boot (group reason s) :
    (recordGfail group reason s).pending = s.pending ∧ (recordGfail group reason s).boot = s.boot := by
  unfold recordGfail
  simp

@[simp] theorem failOp_pending_boot (g s o) : (failOp g s o).pending = s.pending ∧ (failOp g s o).boot = s.boot := by
  unfold failOp
  simp

@[simp] theorem modGrp_pending_boot (id f s) : (modGrp id f s).pending = s.pending ∧ (modGrp id f s).boot = s.boot := ⟨rfl, rfl⟩

@[simp] theorem spreadFail_pending_boot (g nm f fromGate s) :
    (spreadFail g nm f fromGate s).pending = s.pending ∧ (spreadFail g nm f fromGate s).boot = s.boot := by
  unfold spreadFail
  simp [foldl_pending, foldl_boot]

@[simp] theorem failGroup_pending_boot (nm reason msg fromGate s) :
    (failGroup nm reason msg fromGate s).pending = s.pending ∧ (failGroup nm reason msg fromGate s).boot = s.boot := by
  unfold failGroup
  repeat' split
  all_goals simp [foldl_pending, foldl_boot]

@[simp] theorem sendResend_pending_boot (gate pos reason h s) :
    (sendResend gate pos reason h s).pending = s.pending ∧ (sendResend gate pos reason h s).boot = s.boot := by
  unfold sendResend
  simp

@[simp] theorem stompLeaving_pending_boot (gate r s) :
    (stompLeaving gate r s).pending = s.pending ∧ (stompLeaving gate r s).boot = s.boot := by
  unfold stompLeaving
  simp

@[simp] theorem withdrawOutput_pending_boot (nm g o j reason s) :
    (withdrawOutput nm g o j reason s).pending = s.pending ∧ (withdrawOutput nm g o j reason s).boot = s.boot := by
  unfold withdrawOutput
  simp only
  repeat' split
  all_goals simp

@[simp] theorem resendArriving_pending_boot (nm g o c reason s) :
    (resendArriving nm g o c reason s).pending = s.pending ∧ (resendArriving nm g o c reason s).boot = s.boot := by
  unfold resendArriving
  constructor
  · refine foldl_pending (fun s x => ?_) _ _
    simp only
    split <;> simp
  · refine foldl_boot (fun s x => ?_) _ _
    simp only
    split <;> simp

@[simp] theorem rebuildCell_pending_boot (nm j reason s) :
    (rebuildCell nm j reason s).pending = s.pending ∧ (rebuildCell nm j reason s).boot = s.boot := by
  unfold rebuildCell
  repeat' split
  all_goals simp [foldl_pending, foldl_boot]

@[simp] theorem excludeInput_pending_boot (nm j pos s) :
    (excludeInput nm j pos s).pending = s.pending ∧ (excludeInput nm j pos s).boot = s.boot := by
  unfold excludeInput
  repeat' split
  all_goals simp

@[simp] theorem finishCell_pending_boot (nm j s) :
    (finishCell nm j s).pending = s.pending ∧ (finishCell nm j s).boot = s.boot := by
  unfold finishCell
  simp only
  repeat' split
  all_goals simp

@[simp] theorem advanceCell_pending_boot (nm s j) :
    (advanceCell nm s j).pending = s.pending ∧ (advanceCell nm s j).boot = s.boot := by
  unfold advanceCell
  split <;> simp

@[simp] theorem advanceCells_pending_boot (nm js s) :
    (advanceCells nm js s).pending = s.pending ∧ (advanceCells nm js s).boot = s.boot := by
  unfold advanceCells
  simp [foldl_pending, foldl_boot]

@[simp] theorem excludeWhere_pending_boot (nm g o bad s) :
    (excludeWhere nm g o bad s).pending = s.pending ∧ (excludeWhere nm g o bad s).boot = s.boot := by
  unfold excludeWhere
  simp [foldl_pending, foldl_boot]

@[simp] theorem downExcludes_pending_boot (gate s) :
    (downExcludes gate s).pending = s.pending ∧ (downExcludes gate s).boot = s.boot := by
  unfold downExcludes
  constructor
  · refine (foldl_pending (fun s o => ?_) _ _).trans rfl
    split <;> simp
  · refine (foldl_boot (fun s o => ?_) _ _).trans rfl
    split <;> simp

@[simp] theorem startTraining_pending_boot (g s) :
    (startTraining g s).pending = s.pending ∧ (startTraining g s).boot = s.boot := by
  unfold startTraining
  simp

@[simp] theorem disableLink_pending_boot (g s) :
    (disableLink g s).pending = s.pending ∧ (disableLink g s).boot = s.boot := by
  unfold disableLink
  simp

@[simp] theorem relink_pending_boot (c s g) : (relink c s g).pending = s.pending ∧ (relink c s g).boot = s.boot := by
  unfold relink
  simp

end Sys2Proof.Machine
end

section
/-! The parish book at start-up and on command (15_faults_book_almanac.md, R536 to R541; 16 R569, R572). -/

namespace Sys2Proof.Machine

variable {s t : State}

/-! ### What writing into the book leaves of it -/

/-- From `s` to `t` the book keeps its identity and its status: only its flash, its write position and its counters change. -/
def bookHeld (s t : State) : Prop :=
  t.book.flashId = s.book.flashId ∧ t.book.bound = s.book.bound ∧ t.book.readonly = s.book.readonly ∧
    t.book.unusable = s.book.unusable

theorem bookHeld_refl (s : State) : bookHeld s s := ⟨rfl, rfl, rfl, rfl⟩

theorem bookHeld_of_eq (h : t.book = s.book) : bookHeld s t := by
  rw [bookHeld, h]
  exact bookHeld_refl s

theorem bookHeld_trans {a b c : State} (h1 : bookHeld a b) (h2 : bookHeld b c) : bookHeld a c := by
  obtain ⟨f1, b1, r1, u1⟩ := h1
  obtain ⟨f2, b2, r2, u2⟩ := h2
  exact ⟨f2.trans f1, b2.trans b1, r2.trans r1, u2.trans u1⟩

theorem bookHeld_ite {a b : State} {p : Prop} [Decidable p] (ha : bookHeld s a) (hb : bookHeld s b) :
    bookHeld s (if p then a else b) := by
  split <;> assumption

theorem bookHeld_foldl {α : Type} {f : State → α → State} (hf : ∀ s x, bookHeld s (f s x)) (l : List α) (s : State) :
    bookHeld s (l.foldl f s) := by
  induction l generalizing s with
  | nil => exact bookHeld_refl s
  | cons x l ih => exact bookHeld_trans (hf s x) (ih _)

theorem bookHeld_bookNextSector (s : State) : bookHeld s (bookNextSector s) := by
  unfold bookNextSector
  refine bookHeld_trans ?_ (bookHeld_foldl ?_ _ _)
  · exact ⟨rfl, rfl, rfl, rfl⟩
  · intro u r
    exact ⟨rfl, rfl, rfl, rfl⟩

theorem bookHeld_bookWear (s : State) : bookHeld s (bookWear s) := ⟨rfl, rfl, rfl, rfl⟩

theorem bookHeld_holdRecord (r : Bytes) (s : State) : bookHeld s (holdRecord r s) := by
  unfold holdRecord
  split <;> exact ⟨rfl, rfl, rfl, rfl⟩

theorem bookHeld_bookWrite (r : Bytes) (s : State) : bookHeld s (bookWrite r s) := by
  unfold bookWrite
  refine bookHeld_ite ?_ (bookHeld_holdRecord r s)
  extract_lets s1 s2
  have h1 : bookHeld s s1 := bookHeld_ite
    (bookHeld_trans (bookHeld_bookNextSector s) (bookHeld_bookWear _)) (bookHeld_refl s)
  have h2 : bookHeld s1 s2 := ⟨rfl, rfl, rfl, rfl⟩
  clear_value s2
  exact bookHeld_trans h1 (bookHeld_trans h2 ⟨rfl, rfl, rfl, rfl⟩)

theorem bookHeld_trigger (u c n : Nat) (s : State) : bookHeld s (trigger u c n s) := by
  unfold trigger
  split <;> exact bookHeld_of_eq rfl

theorem bookHeld_setStatus (u c n : Nat) (s : State) : bookHeld s (setStatus u c n s) := by
  unfold setStatus
  refine bookHeld_ite (bookHeld_refl s) ?_
  extract_lets s1 s2
  have h : bookHeld s s2 := bookHeld_trans (b := s1) (bookHeld_refl s) (bookHeld_bookWrite _ _)
  exact bookHeld_ite (bookHeld_trans h (bookHeld_trigger ..)) h

theorem bookHeld_chargeUnit (c u : Nat) (s : State) : bookHeld s (chargeUnit c u s) :=
  bookHeld_trans (b := modUnit u _ s) (bookHeld_refl s) (bookHeld_setStatus ..)

theorem bookHeld_bookFault (c d u : Nat) (r : Bytes) (s : State) : bookHeld s (bookFault c d u r s) := by
  unfold bookFault
  simp only
  have hwrite : ∀ f, bookHeld s (bookWrite r (modUnit u f s)) := fun f => bookHeld_bookWrite r (modUnit u f s)
  split
  · exact bookHeld_ite (bookHeld_refl s) (hwrite _)
  · exact hwrite _

theorem postWriteAs_book (n : Bool) (o : Owner) (a : Nat) (bs : Bytes) (bad : List Nat) (s : State) :
    (postWriteAs n o a bs bad s).book = s.book := by
  unfold postWriteAs
  exact List.foldlRecOn (motive := fun (u : State) => u.book = s.book) _ _ rfl (fun _ hu _ _ => hu)

theorem postWrite_book (o : Owner) (a : Nat) (bs : Bytes) (b : Bool) (s : State) : (postWrite o a bs b s).book = s.book :=
  postWriteAs_book ..

/-- An entry of a ring goes to host memory, not into the book. -/
theorem ringPush_book (i : RingId) (e : Bytes) (s : State) : (ringPush i e s).book = s.book := by
  have hput : (ringPut i e s).book = s.book := by cases i <;> exact postWriteAs_book ..
  unfold ringPush
  simp only
  split
  · exact hput
  · split <;> cases i <;> rfl

theorem bookHeld_raiseOnce (a b c d e f : Nat) (p : Option Nat) (s : State) : bookHeld s (raiseOnce a b c d e f p s) := by
  unfold raiseOnce
  extract_lets s1 sq r s2 s3 s4
  have h2 : bookHeld s s2 := bookHeld_ite (bookHeld_trans (b := s1) (bookHeld_refl s) (bookHeld_of_eq (ringPush_book ..))) (bookHeld_refl s)
  have h3 : bookHeld s s3 := bookHeld_trans h2 (bookHeld_bookFault ..)
  have h4 : bookHeld s s4 := bookHeld_trans h3 (bookHeld_chargeUnit ..)
  split
  · exact h4
  · exact bookHeld_trans h4 (bookHeld_trans (bookHeld_chargeUnit ..)
      (bookHeld_trans (bookHeld_trigger ..) (bookHeld_trigger ..)))

theorem bookHeld_bookWatch (o s : State) : bookHeld s (bookWatch o s) := by
  unfold bookWatch
  extract_lets b s1
  have h1 : bookHeld s s1 := bookHeld_ite (bookHeld_trans (b := { s with book := b }) (bookHeld_refl s) (bookHeld_raiseOnce ..)) (bookHeld_refl s)
  exact bookHeld_ite (bookHeld_trans h1 (bookHeld_raiseOnce ..)) h1

theorem bookHeld_raise (a b c d e : Nat) (s : State) : bookHeld s (raise a b c d e s) :=
  bookHeld_trans (bookHeld_raiseOnce ..) (bookHeld_bookWatch ..)

/-! ### The scan -/

theorem reported_readHistory (s : State) : reported s (readHistory s) := by
  unfold readHistory
  extract_lets was rs s1 us big
  have h : reported s s1 := reported_foldl (fun u r => by
    simp only
    split
    · exact reported_ite rfl rfl
    · exact reported_ite rfl rfl) rs s
  exact reported_trans h rfl

theorem bookHeld_readHistory (s : State) : bookHeld s (readHistory s) := by
  unfold readHistory
  extract_lets was rs s1 us big
  have h : bookHeld s s1 := bookHeld_foldl (fun u r => by
    simp only
    split
    · exact bookHeld_ite (bookHeld_refl u) (bookHeld_refl u)
    · exact bookHeld_ite (bookHeld_refl u) (bookHeld_refl u)) rs s
  exact bookHeld_trans h (bookHeld_refl s1)

theorem reported_flushHeld (s : State) : reported s (flushHeld s) :=
  reported_trans (b := { s with aon := { s.aon with held := [] } }) rfl
    (reported_foldl (fun s r => reported_bookWrite r s) _ _)

theorem bookHeld_flushHeld (s : State) : bookHeld s (flushHeld s) :=
  bookHeld_trans (b := { s with aon := { s.aon with held := [] } }) (bookHeld_refl s)
    (bookHeld_foldl (fun s r => bookHeld_bookWrite r s) _ _)

/-- The state in which the scan begins: stage 4, with what the flash answered. -/
def scanBegun (f : FlashId) (s : State) : State :=
  { s with boot := { s.boot with stage := 4 }, book := { s.book with flashId := some f } }

/-- What the scan finds of the book's identity: whether it is the book that the charter names. -/
def sameBook (f : FlashId) (c : Charter) (s : State) : Bool :=
  decide (f.jedec = c.jedec ∧ f.density = c.density) && bookHeaderOk s c

theorem bookScan_eq {c : Charter} (hc : s.charter = some c) (h : s.boot.stage = 3) (f : FlashId) : bookScan f s =
    let s0 := scanBegun f s
    if !f.sfdp || !f.erase4k then raise 0x1A 1 uSteward 0 0 (readHistory { s0 with book := { s0.book with unusable := true } })
    else
      let same := sameBook f c s0
      let s1 := readHistory (scanRing { s0 with book := { s0.book with bound := same, readonly := !same } })
      let s2 := bookWatch s1 (bookWear s1)
      if same then bookWatch s2 (flushHeld s2) else raise 0x1A 0 uSteward 0 0 s2 := by
  unfold bookScan
  split
  case h_1 hn => exact nomatch hn.symm.trans hc
  case h_2 c' hc' =>
    obtain rfl : c' = c := Option.some.inj (hc'.symm.trans hc)
    exact if_neg (not_not_intro h)

/-- A flash that lacks the 4 KiB erase or the SFDP table leaves the book unusable (R536). -/
theorem bookScan_unusable {c : Charter} (hc : s.charter = some c) (h : s.boot.stage = 3) {f : FlashId}
    (hf : (!f.sfdp || !f.erase4k) = true) : let t := bookScan f s
    t.boot.stage = 4 ∧ t.book.flashId = some f ∧ t.book.unusable = true := by
  rw [bookScan_eq hc h]
  simp only [hf, if_true]
  generalize hs1 : ({ scanBegun f s with book := { (scanBegun f s).book with unusable := true } } : State) = s1
  have hrep : reported s1 (raise 0x1A 1 uSteward 0 0 (readHistory s1)) :=
    reported_trans (reported_readHistory s1) (reported_raise ..)
  obtain ⟨hid, -, -, hun⟩ : bookHeld s1 (raise 0x1A 1 uSteward 0 0 (readHistory s1)) :=
    bookHeld_trans (bookHeld_readHistory s1) (bookHeld_raise ..)
  subst hs1
  exact ⟨by rw [hrep.boot]; rfl, hid, hun⟩

/-- A flash that can be erased is scanned, and the book is bound exactly when it is the charter's (R536, R539). -/
theorem bookScan_scanned {c : Charter} (hc : s.charter = some c) (h : s.boot.stage = 3) {f : FlashId}
    (hf : (!f.sfdp || !f.erase4k) = false) : let t := bookScan f s
    t.boot.stage = 4 ∧ t.book.flashId = some f ∧ t.book.bound = sameBook f c (scanBegun f s) ∧
      t.book.readonly = !sameBook f c (scanBegun f s) := by
  rw [bookScan_eq hc h]
  simp only [hf, Bool.false_eq_true, if_false]
  generalize sameBook f c (scanBegun f s) = same
  generalize hs1 : scanRing { scanBegun f s with book := { (scanBegun f s).book with bound := same, readonly := !same } } = s1
  have hboot : s1.boot.stage = 4 := by subst hs1; rfl
  obtain ⟨hid1, hbound1, hro1⟩ : s1.book.flashId = some f ∧ s1.book.bound = same ∧ s1.book.readonly = !same := by subst hs1; exact ⟨rfl, rfl, rfl⟩
  generalize hs3 : bookWatch (readHistory s1) (bookWear (readHistory s1)) = s3
  have hrep3 : reported s1 s3 := hs3 ▸ reported_trans (reported_readHistory s1)
    (reported_trans (reported_bookWear _) (reported_bookWatch ..))
  have hbook3 : bookHeld s1 s3 := hs3 ▸ bookHeld_trans (bookHeld_readHistory s1)
    (bookHeld_trans (b := bookWear (readHistory s1)) (bookHeld_refl _) (bookHeld_bookWatch ..))
  have hlast : ∀ t, reported s3 t → bookHeld s3 t → t.boot.stage = 4 ∧ t.book.flashId = some f ∧ t.book.bound = same ∧
      t.book.readonly = !same := fun t hrep hbook => by
    obtain ⟨hid, hbound, hro, -⟩ := bookHeld_trans hbook3 hbook
    exact ⟨by rw [(reported_trans hrep3 hrep).boot]; exact hboot, hid.trans hid1, hbound.trans hbound1, hro.trans hro1⟩
  split
  · exact hlast _ (reported_trans (reported_flushHeld s3) (reported_bookWatch ..))
      (bookHeld_trans (bookHeld_flushHeld s3) (bookHeld_bookWatch ..))
  · exact hlast _ (reported_raise ..) (bookHeld_raise ..)

theorem bookScan_later {c : Charter} (hc : s.charter = some c) (h : s.boot.stage ≠ 3) (f : FlashId) : bookScan f s = s := by
  rw [bookScan, hc]
  exact if_pos h

theorem exec_bookScan (hs : live s = true) (f : FlashId) : exec (.bookScan f) s = .next (bookScan f s) := act_of_live hs _

/-! ### The baseline test: what a link that goes down changes leaves the stage -/

theorem exec_baselineTest (hs : live s = true) (fails : List Nat) :
    exec (.baselineTest fails) s = .next (baselineTest fails s) := act_of_live hs _

theorem baselineTest_later {c : Charter} (hc : s.charter = some c) (h : s.boot.stage ≠ 4) (fails : List Nat) :
    baselineTest fails s = s := by
  rw [baselineTest, hc]
  exact if_pos h

theorem baselineTest_boot {c : Charter} (hc : s.charter = some c) (h : s.boot.stage = 4) (fails : List Nat) :
    (baselineTest fails s).boot.stage = 5 := by
  unfold baselineTest
  split
  case h_1 hn => exact nomatch hn.symm.trans hc
  case h_2 c' _ =>
    rw [if_neg (not_not_intro h), foldl_boot fun s g => relink_pending_boot c' s g |>.2]

/-! ### Format and dump -/

theorem exec_bookFormat (hs : live s = true) : exec .bookFormat s = .next (bookFormats s) := act_of_live hs _

theorem exec_bookDump (hs : live s = true) : exec .bookDump s = .next (bookDumps s) := act_of_live hs _

theorem length_bookIdentity (c : Charter) (n : Nat) : (bookIdentity c n).length = 64 := by
  simp [bookIdentity, withCrc, length_natLe, zeros]

theorem bookFormats_of_no_charter (hc : s.charter = none) : bookFormats s = s := by
  rw [bookFormats, hc]

theorem bookFormats_of_charter {c : Charter} (hc : s.charter = some c) : bookFormats s =
    if formatOk s c then flashProgram 0 (bookIdentity c (bookSectors s)) s else s := by
  rw [bookFormats, hc]

theorem mget_bookIdentity (hwf : memWf 0xFF s.book.flash = true) (c : Charter) (n x : Nat) :
    mget 0xFF (mwrite 0xFF s.book.flash 0 (bookIdentity c n)) x =
      if x < 64 then (bookIdentity c n).getD x 0xFF else mget 0xFF s.book.flash x := by
  rw [mget_mwrite 0 _ x hwf, length_bookIdentity]
  simp

/-- A write of no bytes changes no memory and asks nothing of a well. -/
theorem postWrite_nil (o : Owner) (a : Nat) (s : State) :
    (postWrite o a [] false s).host = s.host ∧ (postWrite o a [] false s).wells = s.wells := by
  have hsplit : splitRange a 0 = [] := by simp [splitRange, pieces4k]
  simp [postWrite, postWriteBad, postWriteAs, hsplit]

/-! ### The obligation -/

/-- Settles O14: the scan and the test each end their stage, and a format or a dump acts on the book that the charter names. -/
theorem parishBookRows : Obligations.ParishBookRows := by
  unfold Obligations.ParishBookRows
  refine ⟨fun s c f fails hs hc => ⟨fun h => ?scan, fun h => ?scanLater, fun h => ?test, fun h => ?testLater⟩,
    fun s hs => ⟨fun hc => ?noCharter, fun c hc hf => ?notBlank, fun c hc hf hwf => ?format, fun bs hbs => ?dump,
      postWrite_nil ..⟩⟩
  case scan =>
    refine ⟨_, exec_bookScan hs f, ?_⟩
    by_cases hf : (!f.sfdp || !f.erase4k) = true
    · obtain ⟨hstage, hid, hun⟩ := bookScan_unusable hc h hf
      exact ⟨hstage, hid, fun _ => hun, fun h1 h2 => by simp [h1, h2] at hf⟩
    · obtain ⟨hstage, hid, hbound, hro⟩ := bookScan_scanned hc h (Bool.eq_false_iff.2 hf)
      refine ⟨hstage, hid, fun h1 => by rcases h1 with h1 | h1 <;> simp [h1] at hf, fun _ _ hother => ?_⟩
      have hsame : sameBook f c (scanBegun f s) = false := by
        have : ¬ (f.jedec = c.jedec ∧ f.density = c.density) :=
          fun h => hother.elim (· h.1) (· h.2)
        simp [sameBook, this]
      rw [hsame] at hbound hro
      exact ⟨hro, hbound⟩
  case scanLater => rw [exec_bookScan hs, bookScan_later hc h]
  case test => exact ⟨_, exec_baselineTest hs fails, baselineTest_boot hc h fails⟩
  case testLater => rw [exec_baselineTest hs, baselineTest_later hc h]
  case noCharter => rw [exec_bookFormat hs, bookFormats_of_no_charter hc]
  case notBlank => rw [exec_bookFormat hs, bookFormats_of_charter hc, hf]; rfl
  case format =>
    exact ⟨_, by rw [exec_bookFormat hs, bookFormats_of_charter hc, hf]; rfl, mget_bookIdentity hwf c _⟩
  case dump =>
    rw [exec_bookDump hs, hbs, bookDumps]
    simp only [postWrite_book]

end Sys2Proof.Machine
end

section
/-! No function of the model touches the queue of waiting commands: one lemma for each, in the order of the model (`Machine`).
Only `step` takes a command off the queue. -/

namespace Sys2Proof.Machine

@[simp] theorem ringDrain_pending (i fuel s) : (ringDrain i fuel s).pending = s.pending := by
  induction fuel generalizing s with
  | zero => rfl
  | succ fuel ih =>
    unfold ringDrain
    simp only
    repeat' split
    all_goals simp [ih]

@[simp] theorem barrierBell_pending (group seq s) : (barrierBell group seq s).pending = s.pending := by
  unfold barrierBell
  simp

@[simp] theorem configFault_pending (opcode s) : (configFault opcode s).pending = s.pending := by
  unfold configFault
  simp

@[simp] theorem readsEnd_pending (e s) : (readsEnd e s).pending = s.pending := (reported_readsEnd e s).pending

@[simp] theorem memError_pending (c e s) : (memError c e s).pending = s.pending := by
  unfold memError
  split <;> simp

@[simp] theorem memErrors_pending (c mems errs s) : (memErrors c mems errs s).1.pending = s.pending :=
  foldl_pending (fun s e => memError_pending c e s) _ _

@[simp] theorem engineErrs_pending (c addr engine errs s) : (engineErrs c addr engine errs s).1.pending = s.pending := by
  have h : (memErrors c [.scratch, .acc, .sdata] errs s).1.pending = s.pending := memErrors_pending ..
  unfold engineErrs
  split
  split <;> simp_all

@[simp] theorem putOp_pending (o s) : (putOp o s).pending = s.pending := by
  unfold putOp
  simp

@[simp] theorem gateFault_pending (cls detail g h src cnt s) :
    (gateFault cls detail g h src cnt s).pending = s.pending := by
  unfold gateFault
  simp

@[simp] theorem noticeAfterChunk_pending (g h n s) : (noticeAfterChunk g h n s).pending = s.pending := by
  unfold noticeAfterChunk
  simp

@[simp] theorem pushFlits_pending (g vc fs s) : (pushFlits g vc fs s).pending = s.pending := rfl

@[simp] theorem tallyChunk_pending (b mask excluded s) : (tallyChunk b mask excluded s).pending = s.pending := by
  unfold tallyChunk
  simp

@[simp] theorem boltModes_pending (b mask s) : (boltModes b mask s).pending = s.pending := by
  unfold boltModes
  simp

@[simp] theorem inboxWrite_pending (b tail s c) : (inboxWrite b tail s c).pending = s.pending := by
  unfold inboxWrite
  simp

@[simp] theorem inboxDeliver_pending (b mask excluded s) : (inboxDeliver b mask excluded s).pending = s.pending := by
  unfold inboxDeliver
  simp [foldl_pending]

@[simp] theorem queueForward_pending (g b mask excluded s) : (queueForward g b mask excluded s).pending = s.pending := by
  unfold queueForward
  exact foldl_pending (fun s c => (enqueueItem_pending_boot ..).1) _ _

@[simp] theorem openBcast_pending (nm s) : (openBcast nm s).pending = s.pending := by
  unfold openBcast
  split <;> simp

@[simp] theorem sketchWrite_pending (b s) : (sketchWrite b s).pending = s.pending := by
  unfold sketchWrite
  simp only
  split <;> simp

@[simp] theorem bcastDeliver_pending (g b mask excluded s) :
    (bcastDeliver g b mask excluded s).pending = s.pending := by
  unfold bcastDeliver
  simp only
  repeat' split
  all_goals simp

@[simp] theorem forgeFault_pending (cause w unit h s) : (forgeFault cause w unit h s).pending = s.pending := by
  unfold forgeFault
  simp

@[simp] theorem holdStep_pending (step kappa s) : (holdStep step kappa s).pending = s.pending := rfl

@[simp] theorem latchPair_pending (step kappa s) : (latchPair step kappa s).pending = s.pending := by
  unfold latchPair
  simp

@[simp] theorem rootBroadcast_pending (b mask excluded s) : (rootBroadcast b mask excluded s).pending = s.pending := by
  unfold rootBroadcast
  simp only
  split <;> simp

@[simp] theorem updateBroadcast_pending (r j step s) : (updateBroadcast r j step s).pending = s.pending := by
  unfold updateBroadcast
  simp

@[simp] theorem forgeWrite_pending (w step a bs s) : (forgeWrite w step a bs s).pending = s.pending := by
  unfold forgeWrite
  simp

@[simp] theorem forgeQueue_pending (w r b s) : (forgeQueue w r b s).pending = s.pending := by
  unfold forgeQueue
  simp

@[simp] theorem skipBlock_pending (cause w r j h s) : (skipBlock cause w r j h s).pending = s.pending := by
  unfold skipBlock
  simp

@[simp] theorem forgeAccept_pending (b s) : (forgeAccept b s).pending = s.pending := by
  unfold forgeAccept
  extract_lets h
  split
  · simp
  extract_lets w0 nm
  split
  · simp
  split
  · simp
  extract_lets w m again s1 s2 gs s3 s4 s5 s6
  split
  · simp
  split
  · simp
  have h2 : s2.pending = s.pending := by
    simp only [s2]
    split <;> simp [s1]
  split
  · simp [h2]
  have h5 : s5.pending = s.pending := by
    simp only [s5, s4, s3]
    repeat' split
    all_goals simp [h2]
  split
  · simp [h5]
  · simp only [s6]
    split <;> simp [h5]

@[simp] theorem unqueue_pending (w slot s) : (unqueue w slot s).pending = s.pending := rfl

@[simp] theorem forgeApplyNext_pending (w err rd s) : (forgeApplyNext w err rd s).pending = s.pending := by
  unfold forgeApplyNext
  simp only
  repeat' split
  all_goals simp [foldl_pending]

@[simp] theorem forgeBlockDone_pending (w s) : (forgeBlockDone w s).pending = s.pending := by
  unfold forgeBlockDone
  simp only
  repeat' split
  all_goals simp

@[simp] theorem normResult_pending (b s) : (normResult b s).pending = s.pending := by
  unfold normResult
  simp

@[simp] theorem normRoot_pending (b excluded s) : (normRoot b excluded s).pending = s.pending := by
  unfold normRoot
  simp

@[simp] theorem normReleaseDo_pending (s) : (normReleaseDo s).pending = s.pending := by
  unfold normReleaseDo
  simp

@[simp] theorem abandonEntry_pending (w s a) : (abandonEntry w s a).pending = s.pending := by
  unfold abandonEntry
  simp only
  repeat' split
  all_goals simp

@[simp] theorem normAbandonDo_pending (s) : (normAbandonDo s).pending = s.pending := by
  unfold normAbandonDo
  simp [foldl_pending]

@[simp] theorem keepNil_pending (c first n t q s) : (keepNil c first n t q s).pending = s.pending := by
  unfold keepNil
  simp

@[simp] theorem nonfiniteRange_pending (c first n s) : (nonfiniteRange c first n s).pending = s.pending := by
  unfold nonfiniteRange
  split <;> simp

@[simp] theorem carryRange_pending (t step first n s) : (carryRange t step first n s).pending = s.pending := by
  unfold carryRange
  simp

@[simp] theorem coreRefused_pending (c h s) : (coreRefused c h s).pending = s.pending := by
  unfold coreRefused
  split <;> simp

@[simp] theorem noteInitialRung_pending (c first n s) : (noteInitialRung c first n s).pending = s.pending := by
  unfold noteInitialRung
  split <;> simp

@[simp] theorem askParent_pending (g nm n s) : (askParent g nm n s).pending = s.pending := by
  unfold askParent
  refine foldl_pending (fun s j => ?_) _ _
  simp only
  repeat' split
  all_goals simp

@[simp] theorem reabsorbElem_pending (t step poison s e) : (reabsorbElem t step poison s e).pending = s.pending := by
  unfold reabsorbElem
  simp

@[simp] theorem reabsorbChunk_pending (gate base count s r) :
    (reabsorbChunk gate base count s r).pending = s.pending := by
  unfold reabsorbChunk
  simp only
  repeat' split
  all_goals simp [foldl_pending]

@[simp] theorem releaseGate_pending (gate s) : (releaseGate gate s).pending = s.pending := rfl

@[simp] theorem closeRange_pending (nm base count s) : (closeRange nm base count s).pending = s.pending := by
  unfold closeRange
  simp [foldl_pending]

@[simp] theorem applyHeldCloses_pending (nm s) : (applyHeldCloses nm s).pending = s.pending := by
  unfold applyHeldCloses
  simp [foldl_pending]

@[simp] theorem takeHeldAsks_pending (nm s) : (takeHeldAsks nm s).pending = s.pending := rfl

@[simp] theorem openReduction_pending (nm n s) : (openReduction nm n s).pending = s.pending := by
  unfold openReduction
  split <;> simp

@[simp] theorem tryReserve_pending (gate k s r) : (tryReserve gate k s r).pending = s.pending := by
  unfold tryReserve
  split <;> simp

@[simp] theorem granaryGrant_pending (gate k s) : (granaryGrant gate k s).pending = s.pending := by
  unfold granaryGrant
  simp [foldl_pending]

@[simp] theorem excludeAll_pending (nm js pos s) : (excludeAll nm js pos s).pending = s.pending := by
  unfold excludeAll
  simp [foldl_pending]

@[simp] theorem inputSealFailure_pending (nm gate pos js b s) :
    (inputSealFailure nm gate pos js b s).pending = s.pending := by
  unfold inputSealFailure
  simp only
  split <;> simp [foldl_pending]

@[simp] theorem inputMassFailure_pending (nm gate pos js b s) :
    (inputMassFailure nm gate pos js b s).pending = s.pending := by
  unfold inputMassFailure
  simp only
  split <;> simp [foldl_pending]

@[simp] theorem inputInconsistent_pending (nm gate pos js h detail s) :
    (inputInconsistent nm gate pos js h detail s).pending = s.pending := by
  unfold inputInconsistent
  simp

@[simp] theorem countLate_pending (gate h s) : (countLate gate h s).pending = s.pending := by
  unfold countLate
  simp

@[simp] theorem strayInput_pending (gate vc b maskOk s) : (strayInput gate vc b maskOk s).pending = s.pending := by
  unfold strayInput
  simp

@[simp] theorem noteInput_pending (nm pos b mask excluded s) :
    (noteInput nm pos b mask excluded s).pending = s.pending := by
  unfold noteInput
  split <;> simp

@[simp] theorem holdInput_pending (nm gate pos js b mask excluded s) :
    (holdInput nm gate pos js b mask excluded s).pending = s.pending := by
  unfold holdInput
  simp

@[simp] theorem inputArrives_pending (gate vc b mask excluded maskOk s) :
    (inputArrives gate vc b mask excluded maskOk s).pending = s.pending := by
  unfold inputArrives
  simp only
  repeat' split
  all_goals simp [foldl_pending]

@[simp] theorem shadowCopy_pending (gate s) : (shadowCopy gate s).pending = s.pending := by
  unfold shadowCopy
  simp only
  repeat' split
  all_goals simp

@[simp] theorem shadowResult_pending (gate err s) : (shadowResult gate err s).pending = s.pending := by
  unfold shadowResult
  repeat' split
  all_goals simp

@[simp] theorem readContext_pending (base hinge s c) : (readContext base hinge s c).pending = s.pending := by
  unfold readContext
  simp

@[simp] theorem readContexts_pending (hinge s) : (readContexts hinge s).pending = s.pending := by
  unfold readContexts
  split <;> simp [foldl_pending]

@[simp] theorem closeEntry_pending (nm g h excluded s e) : (closeEntry nm g h excluded s e).pending = s.pending := by
  unfold closeEntry
  repeat' split
  all_goals simp

@[simp] theorem cackInput_pending (g n j s x) : (cackInput g n j s x).pending = s.pending := by
  unfold cackInput
  simp

@[simp] theorem boltSent_pending (gate h s) : (boltSent gate h s).pending = s.pending := by
  unfold boltSent
  split <;> simp

@[simp] theorem allReduceHere_pending (g nm b mask excluded s) :
    (allReduceHere g nm b mask excluded s).pending = s.pending := by
  unfold allReduceHere
  simp

@[simp] theorem rootDeliver_pending (g nm c s) : (rootDeliver g nm c s).pending = s.pending := by
  unfold rootDeliver
  simp

@[simp] theorem boltCell_pending (nm j s) : (boltCell nm j s).pending = s.pending := by
  unfold boltCell
  repeat' split
  all_goals simp [foldl_pending]

@[simp] theorem takeBack_pending (reason gate s r) : (takeBack reason gate s r).pending = s.pending := by
  unfold takeBack
  simp

@[simp] theorem takeBackAll_pending (vc reason h s) : (takeBackAll vc reason h s).pending = s.pending := by
  unfold takeBackAll
  simp [foldl_pending]

@[simp] theorem bcastDiscard_pending (gate h reason s) : (bcastDiscard gate h reason s).pending = s.pending := by
  unfold bcastDiscard
  simp

@[simp] theorem bcastArrives_pending (gate b mask excluded maskOk s) :
    (bcastArrives gate b mask excluded maskOk s).pending = s.pending := by
  unfold bcastArrives
  simp only
  repeat' split
  all_goals simp

@[simp] theorem boltBcast_pending (nm index s) : (boltBcast nm index s).pending = s.pending := by
  unfold boltBcast
  repeat' split
  all_goals simp [foldl_pending]

@[simp] theorem dropCopy_pending (nm pos h s) : (dropCopy nm pos h s).pending = s.pending := rfl

@[simp] theorem boltArrives_pending (gate n s) : (boltArrives gate n s).pending = s.pending := by
  unfold boltArrives
  simp only
  repeat' split
  all_goals simp

@[simp] theorem revokeArrives_pending (gate n s) : (revokeArrives gate n s).pending = s.pending := by
  unfold revokeArrives
  simp only
  repeat' split
  all_goals simp [foldl_pending]

@[simp] theorem resendRetained_pending (gate r s) : (resendRetained gate r s).pending = s.pending := rfl

@[simp] theorem resendArrives_pending (gate green n s) : (resendArrives gate green n s).pending = s.pending := by
  unfold resendArrives
  simp only
  repeat' split
  all_goals simp

@[simp] theorem closeActs_pending (gate h s) : (closeActs gate h s).pending = s.pending := by
  unfold closeActs
  simp only
  split <;> simp

@[simp] theorem closeArrives_pending (gate n s) : (closeArrives gate n s).pending = s.pending := by
  unfold closeArrives
  simp only
  repeat' split
  all_goals simp [foldl_pending]

@[simp] theorem reabsorbDone_pending (s) : (reabsorbDone s).pending = s.pending := by
  unfold reabsorbDone
  repeat' split
  all_goals simp

@[simp] theorem noticeOpens_pending (nm s) : (noticeOpens nm s).pending = s.pending := by
  unfold noticeOpens
  simp

@[simp] theorem askArrives_pending (gate green n s) : (askArrives gate green n s).pending = s.pending := by
  unfold askArrives
  simp only
  repeat' split
  all_goals simp

@[simp] theorem grantArrives_pending (gate green n s) : (grantArrives gate green n s).pending = s.pending := by
  unfold grantArrives
  simp only
  split <;> simp

@[simp] theorem deadlineReports_pending (g o s) : (deadlineReports g o s).pending = s.pending := by
  unfold deadlineReports
  simp [foldl_pending]

@[simp] theorem deadlineExpire_pending (nm s) : (deadlineExpire nm s).pending = s.pending := by
  unfold deadlineExpire
  split <;> simp

@[simp] theorem confirmationLimit_pending (nm s) : (confirmationLimit nm s).pending = s.pending := by
  unfold confirmationLimit
  split <;> simp

@[simp] theorem orphanLimit_pending (nm s) : (orphanLimit nm s).pending = s.pending := by
  unfold orphanLimit
  split <;> simp

@[simp] theorem linkDown_pending (g bit newState s) : (linkDown g bit newState s).pending = s.pending := by
  unfold linkDown
  simp

@[simp] theorem trainRx_pending (g f s) : (trainRx g f s).pending = s.pending := by
  unfold trainRx
  simp

@[simp] theorem replayAll_pending (g s) : (replayAll g s).pending = s.pending := by
  unfold replayAll
  simp

@[simp] theorem ackRx_pending (g ack nak s) : (ackRx g ack nak s).pending = s.pending := by
  unfold ackRx
  simp

@[simp] theorem rxDiscard_pending (g s) : (rxDiscard g s).pending = s.pending := rfl

@[simp] theorem rxNotice_pending (g p s) : (rxNotice g p s).pending = s.pending := by
  unfold rxNotice
  simp

@[simp] theorem rxAccept_pending (g f s) : (rxAccept g f s).pending = s.pending := by
  unfold rxAccept
  simp

@[simp] theorem rxFlit_pending (g f bufErr s) : (rxFlit g f bufErr s).pending = s.pending := by
  unfold rxFlit
  simp

@[simp] theorem flitReceive_pending (g b0 b1 bufErr s) : (flitReceive g b0 b1 bufErr s).pending = s.pending := by
  unfold flitReceive
  simp only
  repeat' split
  all_goals simp

@[simp] theorem txTake_pending (g t0 t1 s) : (txTake g t0 t1 s).pending = s.pending := by
  unfold txTake
  simp only
  repeat' split
  all_goals simp

@[simp] theorem cmdEnter_pending (w s) : (cmdEnter w s).pending = s.pending := by
  unfold cmdEnter
  simp

@[simp] theorem pushRegisterWord_pending (hi s) : (pushRegisterWord hi s).pending = s.pending := by
  unfold pushRegisterWord
  simp

@[simp] theorem discardCmd_pending (op s) : (discardCmd op s).pending = s.pending := by
  unfold discardCmd
  simp

@[simp] theorem stepOpens_pending (v s) : (stepOpens v s).pending = s.pending := by
  unfold stepOpens
  simp

@[simp] theorem needWave_pending (nm s) : (needWave nm s).pending = s.pending := by
  unfold needWave
  simp

@[simp] theorem normCheck_pending (s) : (normCheck s).pending = s.pending := by
  unfold normCheck
  simp

@[simp] theorem clearUnits_pending (s) : (clearUnits s).pending = s.pending := rfl

@[simp] theorem freeContexts_pending (step s) : (freeContexts step s).pending = s.pending := rfl

@[simp] theorem dropHeldCloses_pending (step s) : (dropHeldCloses step s).pending = s.pending := by
  unfold dropHeldCloses
  simp [foldl_pending]

@[simp] theorem openJob_pending (c s j) : (openJob c s j).pending = s.pending := by
  unfold openJob
  split <;> simp

@[simp] theorem openWaiting_pending (s) : (openWaiting s).pending = s.pending := by
  unfold openWaiting
  simp [foldl_pending]

@[simp] theorem passCurfew_pending (step present s) : (passCurfew step present s).pending = s.pending := by
  unfold passCurfew
  simp

@[simp] theorem localReset_pending (s) : (localReset s).pending = s.pending := rfl

@[simp] theorem waveDone_pending (nm present s) : (waveDone nm present s).pending = s.pending := by
  unfold waveDone
  split <;> simp

@[simp] theorem waveActs_pending (w present s) : (waveActs w present s).pending = s.pending := by
  unfold waveActs
  simp

@[simp] theorem waveDown_pending (g w present s) : (waveDown g w present s).pending = s.pending := by
  unfold waveDown
  simp [foldl_pending]

@[simp] theorem advanceWave_pending (s nm) : (advanceWave s nm).pending = s.pending := by
  unfold advanceWave
  repeat' split
  all_goals simp

@[simp] theorem startWave_pending (nm s) : (startWave nm s).pending = s.pending := by
  unfold startWave
  simp

@[simp] theorem stepUpArrives_pending (gate n s) : (stepUpArrives gate n s).pending = s.pending := by
  unfold stepUpArrives
  simp only
  split <;> simp

@[simp] theorem stepDownArrives_pending (gate n s) : (stepDownArrives gate n s).pending = s.pending := by
  unfold stepDownArrives
  simp only
  split <;> simp

@[simp] theorem advanceAll_pending (s) : (advanceAll s).pending = s.pending := by
  unfold advanceAll
  simp [foldl_pending]

@[simp] theorem curfewStarts_pending (v s) : (curfewStarts v s).pending = s.pending := by
  unfold curfewStarts
  simp

@[simp] theorem barrierStarts_pending (v s) : (barrierStarts v s).pending = s.pending := by
  unfold barrierStarts
  simp

@[simp] theorem resetStarts_pending (_v s) : (resetStarts _v s).pending = s.pending := by
  unfold resetStarts
  simp

@[simp] theorem waveTimeout_pending (nm s) : (waveTimeout nm s).pending = s.pending := by
  unfold waveTimeout
  split <;> simp [foldl_pending]

@[simp] theorem confirmIncomplete_pending (group s) : (confirmIncomplete group s).pending = s.pending := by
  unfold confirmIncomplete
  simp

@[simp] theorem rollConfirm_pending (s) : (rollConfirm s).pending = s.pending := by
  unfold rollConfirm
  simp [foldl_pending]

@[simp] theorem forceArrival_pending (s) : (forceArrival s).pending = s.pending := rfl

@[simp] theorem rollFail_pending (s e) : (rollFail s e).pending = s.pending := by
  unfold rollFail
  simp

@[simp] theorem rollLoad_pending (rd s) : (rollLoad rd s).pending = s.pending := by
  unfold rollLoad
  split <;> simp [foldl_pending]

@[simp] theorem holdLink_pending (c s g) : (holdLink c s g).pending = s.pending := by
  unfold holdLink
  simp

@[simp] theorem clearPermanent_pending (s) : (clearPermanent s).pending = s.pending := by
  unfold clearPermanent
  simp [foldl_pending]

@[simp] theorem applyCharter_pending (c s) : (applyCharter c s).pending = s.pending := by
  unfold applyCharter
  simp only
  split <;> simp [foldl_pending]

@[simp] theorem loadRejected_pending (reason record s) : (loadRejected reason record s).pending = s.pending := rfl

@[simp] theorem firmwareCheck_pending (b s) : (firmwareCheck b s).pending = s.pending := by
  unfold firmwareCheck
  simp

@[simp] theorem charterCheck_pending (b s) : (charterCheck b s).pending = s.pending := by
  unfold charterCheck
  repeat' split
  all_goals simp

@[simp] theorem loadCheck_pending (b s) : (loadCheck b s).pending = s.pending := by
  unfold loadCheck
  simp

@[simp] theorem loadStarts_pending (target src rd s) : (loadStarts target src rd s).pending = s.pending := by
  unfold loadStarts
  split <;> simp

@[simp] theorem loadData_pending (v s) : (loadData v s).pending = s.pending := by
  unfold loadData
  simp

@[simp] theorem scanRing_pending (s) : (scanRing s).pending = s.pending := rfl

@[simp] theorem readHistory_pending (s) : (readHistory s).pending = s.pending := by
  unfold readHistory
  simp [foldl_pending]

@[simp] theorem flushHeld_pending (s) : (flushHeld s).pending = s.pending := by
  unfold flushHeld
  simp [foldl_pending]

@[simp] theorem bookScan_pending (f s) : (bookScan f s).pending = s.pending := by
  unfold bookScan
  split <;> simp

@[simp] theorem baselineTest_pending (fails s) : (baselineTest fails s).pending = s.pending := by
  unfold baselineTest
  split <;> simp [foldl_pending]

@[simp] theorem scalarLoad_pending (c errs s) : (scalarLoad c errs s).pending = s.pending := by
  unfold scalarLoad
  split
  case h_2 => rfl
  case h_1 =>
    simp only
    generalize hp : memErrors _ _ _ _ = p
    have h : p.1.pending = s.pending := by simp [← hp]
    obtain ⟨s', bad⟩ := p
    simp only at h ⊢
    repeat' split
    all_goals simp [h]

@[simp] theorem scalarStore_pending (c errs s) : (scalarStore c errs s).pending = s.pending := by
  unfold scalarStore
  split
  case h_2 => rfl
  case h_1 =>
    simp only
    generalize hp : memErrors _ _ _ _ = p
    have h : p.1.pending = s.pending := by simp [← hp]
    obtain ⟨s', bad⟩ := p
    simp only at h ⊢
    repeat' split
    all_goals simp [h]

@[simp] theorem signal_pending (c v s) : (signal c v s).pending = s.pending := rfl

@[simp] theorem syncApply_pending (c addr x s) : (syncApply c addr x s).pending = s.pending := by
  unfold syncApply
  split <;> simp

@[simp] theorem issueWord_pending (c w s) : (issueWord c w s).pending = s.pending := by
  unfold issueWord
  simp only
  split <;> simp

@[simp] theorem longWord_pending (c errs s) : (longWord c errs s).pending = s.pending := by
  unfold longWord
  simp only
  split
  · rfl
  split
  · split <;> simp
  generalize hp : memErrors _ _ _ _ = p
  have h : p.1.pending = s.pending := by simp [← hp]
  obtain ⟨s', bad⟩ := p
  simp only at h ⊢
  repeat' split
  all_goals simp [h]

theorem shaped_pending {t : State} (c addr f s) (h : t.pending = s.pending) : (shaped c addr f s t).pending = s.pending := by
  unfold shaped
  split
  · simp
  · exact h

@[simp] theorem macRun_pending (c errs s) : (macRun c errs s).pending = s.pending := by
  unfold macRun
  split
  case h_2 => rfl
  case h_1 =>
    simp only
    generalize hp : engineErrs _ _ _ _ _ = p
    have h : p.1.pending = s.pending := by simp [← hp]
    obtain ⟨s', bad⟩ := p
    exact shaped_pending _ _ _ _ (by split <;> simpa using h)

@[simp] theorem preloadRun_pending (c errs s) : (preloadRun c errs s).pending = s.pending := by
  unfold preloadRun
  split
  case h_2 => rfl
  case h_1 =>
    simp only
    generalize hp : engineErrs _ _ _ _ _ = p
    have h : p.1.pending = s.pending := by simp [← hp]
    obtain ⟨s', bad⟩ := p
    exact shaped_pending _ _ _ _ (by split <;> simpa using h)

@[simp] theorem drainRun_pending (c errs s) : (drainRun c errs s).pending = s.pending := by
  unfold drainRun
  split
  case h_2 => rfl
  case h_1 =>
    simp only
    generalize hp : engineErrs _ _ _ _ _ = p
    have h : p.1.pending = s.pending := by simp [← hp]
    obtain ⟨s', bad⟩ := p
    exact shaped_pending _ _ _ _ (by split <;> simpa using h)

@[simp] theorem loadRow_pending (c owner fuel a n dst s) : (loadRow c owner fuel a n dst s).pending = s.pending := by
  induction fuel generalizing a n dst s with
  | zero => rfl
  | succ fuel ih =>
    unfold loadRow
    repeat' split
    · rfl
    · simp [ih]
    · rw [ih, foldl_pending (fun s r => enqueueReq_pending ..)]

@[simp] theorem loadRun_pending (c s) : (loadRun c s).pending = s.pending := by
  unfold loadRun
  split
  · simp [foldl_pending]
  · rfl

@[simp] theorem loadxRun_pending (c s) : (loadxRun c s).pending = s.pending := by
  unfold loadxRun
  split <;> simp

@[simp] theorem loadDone_pending (c s) : (loadDone c s).pending = s.pending := by
  unfold loadDone
  split <;> simp

@[simp] theorem storeFences_pending (owner s) : (storeFences owner s).pending = s.pending := by
  unfold storeFences
  simp [foldl_pending]

@[simp] theorem storeRun_pending (c errs s) : (storeRun c errs s).pending = s.pending := by
  unfold storeRun
  split
  case h_2 => rfl
  case h_1 =>
    simp only
    generalize hp : engineErrs _ _ _ _ _ = p
    have h : p.1.pending = s.pending := by simp [← hp]
    obtain ⟨s', bad⟩ := p
    simp only at h ⊢
    repeat' split
    all_goals simp [h, foldl_pending]

@[simp] theorem stcoreRun_pending (c errs s) : (stcoreRun c errs s).pending = s.pending := by
  unfold stcoreRun
  split
  case h_2 => rfl
  case h_1 =>
    simp only
    generalize hp : engineErrs _ _ _ _ _ = p
    have h : p.1.pending = s.pending := by simp [← hp]
    obtain ⟨s', bad⟩ := p
    simp only at h ⊢
    repeat' split
    all_goals simp [h]

@[simp] theorem openRun_pending (c errs s) : (openRun c errs s).pending = s.pending := by
  unfold openRun
  split
  case h_2 => rfl
  case h_1 =>
    simp only
    generalize hp : engineErrs _ _ _ _ _ = p
    have h : p.1.pending = s.pending := by simp [← hp]
    obtain ⟨s', bad⟩ := p
    simp only at h ⊢
    repeat' split
    all_goals simp [h]

@[simp] theorem handTo_pending (c g o b s) : (handTo c g o b s).pending = s.pending := by
  unfold handTo
  simp [foldl_pending]

theorem coreCheck_pending (c check b s) : (coreCheck c check b s).2.pending = s.pending := by
  unfold coreCheck
  simp only
  repeat' split
  all_goals simp

@[simp] theorem handChecked_pending (c g o check b s) : (handChecked c g o check b s).pending = s.pending := by
  unfold handChecked
  simp [coreCheck_pending]

@[simp] theorem handoffRun_pending (c errs check s) : (handoffRun c errs check s).pending = s.pending := by
  unfold handoffRun
  split
  case h_2 => rfl
  case h_1 =>
    simp only
    generalize hp : engineErrs _ _ _ _ _ = p
    have h : p.1.pending = s.pending := by simp [← hp]
    obtain ⟨s', bad⟩ := p
    simp only at h ⊢
    repeat' split
    all_goals simp [h]

@[simp] theorem storeDone_pending (c s) : (storeDone c s).pending = s.pending := by
  unfold storeDone
  simp only
  split <;> simp

@[simp] theorem handOwn_pending (b s) : (handOwn b s).pending = s.pending := by
  unfold handOwn
  simp only
  split <;> simp

@[simp] theorem normOpens_pending (s) : (normOpens s).pending = s.pending := by
  unfold normOpens
  split <;> simp

@[simp] theorem hingeStarts_pending (v s) : (hingeStarts v s).pending = s.pending := by
  unfold hingeStarts
  simp only
  split <;> simp

@[simp] theorem broadcastMove_pending (v s) : (broadcastMove v s).pending = s.pending := by
  unfold broadcastMove
  simp only
  repeat' split
  · rfl
  · refine (foldl_pending (fun s p => ?_) _ _).trans (by simp)
    split <;> simp
  · rfl

@[simp] theorem gatherMove_pending (old v s) : (gatherMove old v s).pending = s.pending := by
  unfold gatherMove
  simp only
  split
  · rfl
  · refine (foldl_pending (fun s p => ?_) _ _).trans (by split <;> simp)
    rw [foldl_pending (fun s q => handOwn_pending ..)]
    refine foldl_pending (fun s q => ?_) _ _
    split <;> simp

@[simp] theorem doMove_pending (old s v) : (doMove old s v).pending = s.pending := by
  unfold doMove
  simp

@[simp] theorem hingeSwitches_pending (m s) : (hingeSwitches m s).pending = s.pending := by
  unfold hingeSwitches
  simp [foldl_pending]

@[simp] theorem hingeEnds_pending (s) : (hingeEnds s).pending = s.pending := rfl

@[simp] theorem hingeSwitch_pending (rd s) : (hingeSwitch rd s).pending = s.pending := by
  unfold hingeSwitch
  simp only
  repeat' split
  all_goals simp [foldl_pending fun s c => modCore_pending (s := s) ..]

@[simp] theorem setCtxBit_pending (c bit s) : (setCtxBit c bit s).pending = s.pending := rfl

@[simp] theorem routeFault_pending (why unit type info dst s) :
    (routeFault why unit type info dst s).pending = s.pending := by
  unfold routeFault
  split <;> simp

@[simp] theorem sendFrame_pending (r m dst body s) : (sendFrame r m dst body s).pending = s.pending := by
  unfold sendFrame
  split <;> simp

@[simp] theorem sendMktChunk_pending (r m dst b s) : (sendMktChunk r m dst b s).pending = s.pending := by
  unfold sendMktChunk
  split <;> simp

@[simp] theorem postStream_pending (r m step fmt dst start bs bad s) :
    (postStream r m step fmt dst start bs bad s).pending = s.pending := by
  unfold postStream
  simp [foldl_pending]

@[simp] theorem postRows_pending (rd r m step dst slot tokens s) :
    (postRows rd r m step dst slot tokens s).pending = s.pending := by
  unfold postRows
  simp

@[simp] theorem sendRowFrames_pending (r m step dst type place row s) :
    (sendRowFrames r m step dst type place row s).pending = s.pending := by
  unfold sendRowFrames
  simp [foldl_pending]

@[simp] theorem flaggedTokens_pending (m recs s) : (flaggedTokens m recs s).pending = s.pending := by
  unfold flaggedTokens
  simp [foldl_pending]

@[simp] theorem sendRouted_pending (r mode m step insts cs s) :
    (sendRouted r mode m step insts cs s).pending = s.pending := by
  unfold sendRouted
  simp [foldl_pending]

@[simp] theorem dispatchForward_pending (rd r m step s) : (dispatchForward rd r m step s).pending = s.pending := by
  unfold dispatchForward
  simp

@[simp] theorem writeEntry_pending (r layer e word slot s) :
    (writeEntry r layer e word slot s).pending = s.pending := by
  unfold writeEntry
  simp

@[simp] theorem headerFlag_pending (r layer t bit s) : (headerFlag r layer t bit s).pending = s.pending := by
  unfold headerFlag
  simp

@[simp] theorem cutCopy_pending (r layer bit s e) : (cutCopy r layer bit s e).pending = s.pending := by
  unfold cutCopy
  simp

@[simp] theorem refuseRange_pending (m r step g s) : (refuseRange m r step g s).pending = s.pending := by
  unfold refuseRange
  simp [foldl_pending]

@[simp] theorem postRange_pending (rd m r step dst slot es s) :
    (postRange rd m r step dst slot es s).pending = s.pending := by
  unfold postRange
  simp [foldl_pending]

@[simp] theorem dispatchReplay_pending (rd r m step s) : (dispatchReplay rd r m step s).pending = s.pending := by
  unfold dispatchReplay
  simp [foldl_pending]

@[simp] theorem idle_pending (s) : (idle s).pending = s.pending := by
  unfold idle
  simp

@[simp] theorem resetBase_pending (s) : (resetBase s).pending = s.pending := rfl

@[simp] theorem powerReset_pending (s) : (powerReset s).pending = s.pending := rfl

@[simp] theorem softResetTo_pending (cause s) : (softResetTo cause s).pending = s.pending := rfl

@[simp] theorem setSupply_pending (p v s) : (setSupply p v s).pending = s.pending := by
  unfold setSupply
  split <;> simp

@[simp] theorem setWrap_pending (w s) : (setWrap w s).pending = s.pending := by
  unfold setWrap
  simp

@[simp] theorem poisonMode_pending (s) : (poisonMode s).pending = s.pending := by
  unfold poisonMode
  simp

@[simp] theorem poisonWrite_pending (w r s) : (poisonWrite w r s).pending = s.pending := by
  unfold poisonWrite
  simp

@[simp] theorem wellIssue_pending (w s) : (wellIssue w s).pending = s.pending := by
  unfold wellIssue
  simp only
  repeat' split
  all_goals simp

@[simp] theorem deliverCore_pending (c job lo bs bad dests s) :
    (deliverCore c job lo bs bad dests s).pending = s.pending := by
  unfold deliverCore
  simp [foldl_pending]

@[simp] theorem deliverStream_pending (w a bs bad s) : (deliverStream w a bs bad s).pending = s.pending := rfl

@[simp] theorem deliverQuarter_pending (r off bs bad s) : (deliverQuarter r off bs bad s).pending = s.pending := by
  unfold deliverQuarter
  split <;> simp

@[simp] theorem readBeat_pending (w tag data poison s) : (readBeat w tag data poison s).pending = s.pending := by
  unfold readBeat
  split <;> simp [foldl_pending]

@[simp] theorem poisonRead_pending (r s) : (poisonRead r s).pending = s.pending := by
  unfold poisonRead
  simp only
  split
  · exact foldl_pending (fun s d => modCore_pending ..) _ _
  · exact foldl_pending (fun s i => deliverStream_pending ..) _ _
  · rfl

@[simp] theorem errorEnd_pending (w r s) : (errorEnd w r s).pending = s.pending := by
  unfold errorEnd
  simp

@[simp] theorem dropTag_pending (w tag s) : (dropTag w tag s).pending = s.pending := rfl

@[simp] theorem completion_pending (w tag status s) : (completion w tag status s).pending = s.pending := by
  unfold completion
  simp only
  repeat' split
  all_goals simp

@[simp] theorem wellTimeout_pending (w tag s) : (wellTimeout w tag s).pending = s.pending := by
  unfold wellTimeout
  split <;> simp

@[simp] theorem wellRefresh_pending (w s) : (wellRefresh w s).pending = s.pending := by
  unfold wellRefresh
  simp

@[simp] theorem loseRequest_pending (w s) : (loseRequest w s).pending = s.pending := by
  unfold loseRequest
  split <;> simp

@[simp] theorem postStarts_pending (v s) : (postStarts v s).pending = s.pending := by
  unfold postStarts
  simp

@[simp] theorem acceptImage_pending (a gs img s) : (acceptImage a gs img s).pending = s.pending := by
  unfold acceptImage
  simp [foldl_pending]

@[simp] theorem programStarts_pending (rd v s) : (programStarts rd v s).pending = s.pending := by
  unfold programStarts
  simp

theorem pending_ite {p : Prop} [Decidable p] {a b : State} {l : List Instr} (ha : a.pending = l) (hb : b.pending = l) :
    (if p then a else b).pending = l := by
  split
  · exact ha
  · exact hb

@[simp] theorem coreSave_pending (c s) : (coreSave c s).pending = s.pending :=
  pending_ite rfl ((modCore_pending ..).trans (postWriteBad_pending_boot ..).1)

@[simp] theorem coreRestore_pending (c rd s) : (coreRestore c rd s).pending = s.pending := by
  unfold coreRestore
  simp

@[simp] theorem tearGreen_pending (g s) : (tearGreen g s).pending = s.pending := by
  unfold tearGreen
  split <;> simp

@[simp] theorem badGreenFlit_pending (u s) : (badGreenFlit u s).pending = s.pending := by
  unfold badGreenFlit
  simp

@[simp] theorem carryGleanings_pending (t step s v) : (carryGleanings t step s v).pending = s.pending := by
  unfold carryGleanings
  simp

@[simp] theorem coldTensor_pending (step s t) : (coldTensor step s t).pending = s.pending := by
  unfold coldTensor
  simp only
  split <;> simp [foldl_pending]

@[simp] theorem layerStarts_pending (v s) : (layerStarts v s).pending = s.pending := by
  unfold layerStarts
  simp only
  split
  · rw [foldl_pending (fun s c => modCore_pending ..), foldl_pending (fun s t => coldTensor_pending ..)]
    rfl
  · rfl

@[simp] theorem tableLoad_pending (s) : (tableLoad s).pending = s.pending := by
  unfold tableLoad
  simp

@[simp] theorem tableLoadDone_pending (rd s) : (tableLoadDone rd s).pending = s.pending := by
  unfold tableLoadDone
  split <;> simp

@[simp] theorem expPin_pending (n s) : (expPin n s).pending = s.pending := by
  unfold expPin
  simp

@[simp] theorem expUnpin_pending (n s) : (expUnpin n s).pending = s.pending := by
  unfold expUnpin
  simp

@[simp] theorem expandStarts_pending (rd v s) : (expandStarts rd v s).pending = s.pending := by
  unfold expandStarts
  simp

@[simp] theorem expanderFetch_pending (w s) : (expanderFetch w s).pending = s.pending := by
  unfold expanderFetch
  simp only
  split <;> simp

@[simp] theorem expandWrite_pending (j slot bs bad s) : (expandWrite j slot bs bad s).pending = s.pending := by
  unfold expandWrite
  split <;> simp

@[simp] theorem damaged_pending (w cause src s) : (damaged w cause src s).pending = s.pending := by
  unfold damaged
  simp

@[simp] theorem expandNext_pending (w next s) : (expandNext w next s).pending = s.pending := rfl

@[simp] theorem expandBlock_pending (w s) : (expandBlock w s).pending = s.pending := by
  unfold expandBlock
  simp only
  repeat' split
  all_goals simp

@[simp] theorem popRx_pending (g vc n s) : (popRx g vc n s).pending = s.pending := rfl

@[simp] theorem popNotice_pending (g via s) : (popNotice g via s).pending = s.pending := by
  unfold popNotice
  split <;> simp

@[simp] theorem mktDiscard_pending (g n reason s) : (mktDiscard g n reason s).pending = s.pending := by
  unfold mktDiscard
  simp

@[simp] theorem mktBoltArrives_pending (g n s) : (mktBoltArrives g n s).pending = s.pending := by
  unfold mktBoltArrives
  split <;> simp

@[simp] theorem mktRevokeArrives_pending (g n s) : (mktRevokeArrives g n s).pending = s.pending := by
  unfold mktRevokeArrives
  simp

theorem loadedOr_pending {f : State → State} (code g n s) (h : (f s).pending = s.pending) :
    (loadedOr code g n s f).pending = s.pending := by
  unfold loadedOr
  simp only
  split
  · exact h
  · simp

@[simp] theorem cackArrives_pending (g green n s) : (cackArrives g green n s).pending = s.pending := rfl

@[simp] theorem pushFrame_pending (f s) : (pushFrame f s).pending = s.pending := rfl

@[simp] theorem routeFrame_pending (g src dst body flits s) :
    (routeFrame g src dst body flits s).pending = s.pending := by
  unfold routeFrame
  simp only
  repeat' split
  all_goals simp

@[simp] theorem badFrame_pending (g src dst body s) : (badFrame g src dst body s).pending = s.pending := by
  unfold badFrame
  simp

@[simp] theorem crierReceive_pending (g s) : (crierReceive g s).pending = s.pending := by
  unfold crierReceive
  split <;> simp

@[simp] theorem takeCounts_pending (r m f s) : (takeCounts r m f s).pending = s.pending := by
  unfold takeCounts
  simp

@[simp] theorem writeTags_pending (r layer s p) : (writeTags r layer s p).pending = s.pending := by
  unfold writeTags
  simp

@[simp] theorem addCount_pending (c s i) : (addCount c s i).pending = s.pending := by
  unfold addCount
  simp

@[simp] theorem allocated_pending (m r insts expect s) : (allocated m r insts expect s).pending = s.pending := by
  unfold allocated
  simp [foldl_pending]

@[simp] theorem sendGrants_pending (r m x as members mine s) :
    (sendGrants r m x as members mine s).pending = s.pending := by
  unfold sendGrants
  simp [foldl_pending]

@[simp] theorem stallAllocate_pending (c s) : (stallAllocate c s).pending = s.pending := by
  unfold stallAllocate
  simp only
  split <;> simp [foldl_pending]

@[simp] theorem dropAsked_pending (c g s) : (dropAsked c g s).pending = s.pending := rfl

@[simp] theorem takeGrant_pending (rd r m f s) : (takeGrant rd r m f s).pending = s.pending := by
  unfold takeGrant
  refine (foldl_pending (fun s e => ?_) _ _).trans (by simp)
  simp only
  repeat' split
  all_goals simp

@[simp] theorem grantDeadline_pending (c s) : (grantDeadline c s).pending = s.pending := by
  unfold grantDeadline
  simp only
  split <;> simp [foldl_pending]

@[simp] theorem padStall_pending (r layer c s a) : (padStall r layer c s a).pending = s.pending := by
  unfold padStall
  simp

@[simp] theorem replyTo_pending (r m x as s src) : (replyTo r m x as s src).pending = s.pending := by
  unfold replyTo
  simp

@[simp] theorem capacityAdmit_pending (c s) : (capacityAdmit c s).pending = s.pending := by
  unfold capacityAdmit
  simp only
  split <;> simp [foldl_pending]

@[simp] theorem takeReply_pending (rd r m f s) : (takeReply rd r m f s).pending = s.pending := by
  unfold takeReply
  refine (foldl_pending (fun s e => ?_) _ _).trans (by simp)
  simp only
  repeat' split
  all_goals simp [foldl_pending]

@[simp] theorem takeRow_pending (r m f s) : (takeRow r m f s).pending = s.pending := by
  unfold takeRow
  simp only
  split <;> simp

@[simp] theorem takeReturnRow_pending (r m f s) : (takeReturnRow r m f s).pending = s.pending := by
  unfold takeReturnRow
  simp

@[simp] theorem tokenBolts_pending (r m b s) : (tokenBolts r m b s).pending = s.pending := by
  unfold tokenBolts
  simp

@[simp] theorem finishPosting_pending (c r s) : (finishPosting c r s).pending = s.pending := by
  unfold finishPosting
  simp [foldl_pending]

@[simp] theorem postingComplete_pending (c s) : (postingComplete c s).pending = s.pending := by
  unfold postingComplete
  simp only
  split <;> simp

@[simp] theorem zeroMissing_pending (r layer s g) : (zeroMissing r layer s g).pending = s.pending := by
  unfold zeroMissing
  simp [foldl_pending]

@[simp] theorem postingTimeout_pending (c s) : (postingTimeout c s).pending = s.pending := by
  unfold postingTimeout
  simp only
  split <;> simp [foldl_pending]

@[simp] theorem returnRange_pending (rd r m step crier s g) :
    (returnRange rd r m step crier s g).pending = s.pending := by
  unfold returnRange
  simp [foldl_pending]

@[simp] theorem returnStarts_pending (rd r m step s) : (returnStarts rd r m step s).pending = s.pending := by
  unfold returnStarts
  simp [foldl_pending]

@[simp] theorem combineEnds_pending (c r s) : (combineEnds c r s).pending = s.pending := rfl

@[simp] theorem combineDone_pending (c r s) : (combineDone c r s).pending = s.pending := by
  unfold combineDone
  simp

@[simp] theorem combineToken_pending (rd c t s) : (combineToken rd c t s).pending = s.pending := by
  unfold combineToken
  simp only
  split <;> simp

@[simp] theorem combineTimeout_pending (c s) : (combineTimeout c s).pending = s.pending := by
  unfold combineTimeout
  simp only
  split <;> simp [foldl_pending]

@[simp] theorem reabsorbClosed_pending (g b s) : (reabsorbClosed g b s).pending = s.pending := by
  unfold reabsorbClosed
  simp only
  have h : ∀ rs : List (Nat × Nat), (rs.foldl (fun s r =>
      match (getGate s g).retained.find? (fun x => x.firstHop && sameChunk (hdrOf x.bytes) (hdrOf b)) with
      | some x => reabsorbChunk g r.1 r.2 s x
      | none => s) s).pending = s.pending := fun rs => foldl_pending (fun s r => by split <;> simp) _ _
  split
  · exact h _
  · rw [releaseGate_pending]
    exact h _

@[simp] theorem sendFaults_pending (g h err s) : (sendFaults g h err s).pending = s.pending := by
  unfold sendFaults
  split <;> simp

@[simp] theorem startItem_pending (g err i rest s) : (startItem g err i rest s).pending = s.pending := by
  unfold startItem
  repeat' split
  all_goals simp

@[simp] theorem chunkSend_pending (g vc err s) : (chunkSend g vc err s).pending = s.pending := by
  unfold chunkSend
  split <;> simp

@[simp] theorem mktArrives_pending (g b ok s) : (mktArrives g b ok s).pending = s.pending := by
  unfold mktArrives
  simp only
  repeat' split
  all_goals simp

@[simp] theorem chunkArrives_pending (g vc b mask excluded ok s) :
    (chunkArrives g vc b mask excluded ok s).pending = s.pending := by
  unfold chunkArrives
  simp

@[simp] theorem arriveErr_pending (h err s) : (arriveErr h err s).pending = s.pending := by
  unfold arriveErr
  split <;> simp

@[simp] theorem granaryErr_pending (g h err s) : (granaryErr g h err s).pending = s.pending := by
  unfold granaryErr
  split <;> simp [foldl_pending]

@[simp] theorem linkChunk_pending (g vc err s) : (linkChunk g vc err s).pending = s.pending := by
  unfold linkChunk
  repeat' split
  all_goals simp

@[simp] theorem greenChunk_pending (g err s) : (greenChunk g err s).pending = s.pending := by
  unfold greenChunk
  split <;> simp

@[simp] theorem maskDone_pending (g vc n b frame s) : (maskDone g vc n b frame s).pending = s.pending := by
  unfold maskDone
  split <;> simp

@[simp] theorem maskReceive_pending (g vc s) : (maskReceive g vc s).pending = s.pending := by
  unfold maskReceive
  split <;> simp

@[simp] theorem mktBoltMarks_pending (g c s) : (mktBoltMarks g c s).pending = s.pending := by
  unfold mktBoltMarks
  simp

@[simp] theorem mktBolt_pending (g i s) : (mktBolt g i s).pending = s.pending := by
  unfold mktBolt
  simp only
  repeat' split
  all_goals simp

@[simp] theorem windowExpires_pending (u s) : (windowExpires u s).pending = s.pending := by
  unfold windowExpires
  simp

@[simp] theorem coalesce_pending (u s) : (coalesce u s).pending = s.pending := by
  unfold coalesce
  simp

@[simp] theorem exposureWrites_pending (s) : (exposureWrites s).pending = s.pending := by
  unfold exposureWrites
  split <;> simp

@[simp] theorem bookFormats_pending (s) : (bookFormats s).pending = s.pending := by
  unfold bookFormats
  split <;> simp

@[simp] theorem bookDumps_pending (s) : (bookDumps s).pending = s.pending := by
  unfold bookDumps
  simp

@[simp] theorem almPackageFault_pending (cause s) : (almPackageFault cause s).pending = s.pending := by
  unfold almPackageFault
  simp

@[simp] theorem almLoads_pending (rd v s) : (almLoads rd v s).pending = s.pending := by
  unfold almLoads
  simp only
  split <;> simp

@[simp] theorem testBegins_pending (cls n s) : (testBegins cls n s).pending = s.pending := by
  unfold testBegins
  simp

@[simp] theorem testOver_pending (cls n s) : (testOver cls n s).pending = s.pending := by
  unfold testOver
  simp

@[simp] theorem almNext_pending (cls test left n s) : (almNext cls test left n s).pending = s.pending := by
  induction left generalizing n s with
  | zero => rfl
  | succ left ih =>
    unfold almNext
    split <;> simp [ih]

@[simp] theorem almRuns_pending (v s) : (almRuns v s).pending = s.pending := by
  unfold almRuns
  simp only
  repeat' split
  all_goals simp

@[simp] theorem almResult_pending (how got s) : (almResult how got s).pending = s.pending := by
  unfold almResult
  simp only
  repeat' split
  all_goals simp

@[simp] theorem tallyBegins_pending (declare op rd v s) : (tallyBegins declare op rd v s).pending = s.pending := by
  unfold tallyBegins
  simp

@[simp] theorem tallyStarts_pending (rd v s) : (tallyStarts rd v s).pending = s.pending := by
  unfold tallyStarts
  simp

@[simp] theorem declareEnds_pending (j t s) : (declareEnds j t s).pending = s.pending := by
  unfold declareEnds
  simp

@[simp] theorem tallyEnds_pending (b t s) : (tallyEnds b t s).pending = s.pending := by
  unfold tallyEnds
  simp

@[simp] theorem tallyComplete_pending (rd s) : (tallyComplete rd s).pending = s.pending := by
  unfold tallyComplete
  split <;> simp

@[simp] theorem commitPair_pending (p o v s) : (commitPair p o v s).pending = s.pending := by
  unfold commitPair
  split <;> simp

theorem act_pending {f : State → State} {s t : State} (hf : (f s).pending = s.pending) (h : act s f = .next t) :
    t.pending = s.pending := by
  unfold act at h
  split at h <;> obtain rfl := Host.Outcome.next.inj h
  · exact hf
  · rfl

theorem actOn_pending {f : State → State} {s t : State} {n i : Nat} (hf : (f s).pending = s.pending)
    (h : actOn n i s f = .next t) : t.pending = s.pending := by
  unfold actOn at h
  split at h
  · exact act_pending hf h
  · nomatch h

theorem onHead_pending {op : Nat} {f : Nat → State → State} {s t : State} (hf : ∀ n, (f n s).pending = s.pending)
    (h : onHead op s f = .next t) : t.pending = s.pending := by
  refine act_pending ?_ h
  split
  · split
    · exact hf _
    · rfl
  · rfl

theorem fired_pending {r : Res} {s : State} (h : ∀ t, r = .next t → t.pending = s.pending) :
    (fired r s).pending = s.pending := by
  unfold fired
  split
  · exact h _ rfl
  · rfl

@[simp] theorem fired_act_pending {f : State → State} {s : State} (hf : (f s).pending = s.pending) :
    (fired (act s f) s).pending = s.pending := fired_pending fun _ => act_pending hf

@[simp] theorem fired_actOn_pending {f : State → State} {s : State} {n i : Nat} (hf : (f s).pending = s.pending) :
    (fired (actOn n i s f) s).pending = s.pending := fired_pending fun _ => actOn_pending hf

theorem fired_onHead_pending {op : Nat} {f : Nat → State → State} {s : State} (hf : ∀ n, (f n s).pending = s.pending) :
    (fired (onHead op s f) s).pending = s.pending := fired_pending fun _ => onHead_pending hf

theorem fired_onMarket_pending {op : Nat} {pass : Option Nat} {f : CtxRec → MOp → Nat → State → State} {s : State}
    (hf : ∀ r m n u, (f r m n u).pending = u.pending) : (fired (onMarket op s pass f) s).pending = s.pending :=
  fired_onHead_pending fun n => by
    simp only
    repeat' split
    all_goals simp [hf]

theorem pending_of_ite {c : Prop} [Decidable c] {a b s : State} (ha : a.pending = s.pending) (hb : b.pending = s.pending) :
    (if c then a else b).pending = s.pending := by
  split
  · exact ha
  · exact hb

@[simp] theorem headStarts_pending (s) : (headStarts s).pending = s.pending := by
  unfold headStarts
  split
  · rfl
  split
  · exact fired_onHead_pending fun n => stepOpens_pending ..
  · exact fired_onHead_pending fun n => layerStarts_pending ..
  · exact fired_onHead_pending fun n => curfewStarts_pending ..
  · exact fired_onHead_pending fun n => barrierStarts_pending ..
  · exact fired_onHead_pending fun n => resetStarts_pending ..
  · exact fired_onHead_pending fun n => hingeStarts_pending ..
  · exact fired_onHead_pending fun n => programStarts_pending ..
  · exact pending_of_ite (fired_onMarket_pending fun r m n u => dispatchReplay_pending ..)
      (fired_onMarket_pending fun r m n u => dispatchForward_pending ..)
  · exact fired_onMarket_pending fun r m n u => returnStarts_pending ..
  · exact fired_onHead_pending fun n => expandStarts_pending ..
  · exact fired_onHead_pending fun n => tallyBegins_pending ..
  · exact fired_onHead_pending fun n => tallyStarts_pending ..
  · exact fired_onHead_pending fun n => almLoads_pending ..
  · exact fired_onHead_pending fun n => almRuns_pending ..
  · exact fired_onHead_pending fun n => postStarts_pending ..
  · rfl

@[simp] theorem readClears_pending (p o s) : (readClears p o s).pending = s.pending := by
  unfold readClears
  repeat' split
  all_goals simp

@[simp] theorem mgtRead_pending (m a s) : (mgtRead m a s).pending = s.pending := by
  unfold mgtRead
  simp only
  repeat' split
  all_goals simp

@[simp] theorem writeEndsHold_pending (m key s) : (writeEndsHold m key s).pending = s.pending := by
  unfold writeEndsHold
  simp

@[simp] theorem writeIsAccess_pending (m p o s) : (writeIsAccess m p o s).pending = s.pending := by
  unfold writeIsAccess
  simp

@[simp] theorem holdLo_pending (m p o v s) : (holdLo m p o v s).pending = s.pending := by
  unfold holdLo
  simp

@[simp] theorem commitHi_pending (m p o hi s) : (commitHi m p o hi s).pending = s.pending := by
  unfold commitHi
  simp

@[simp] theorem writeRingCtl_pending (i bits v s) : (writeRingCtl i bits v s).pending = s.pending := by
  unfold writeRingCtl
  simp

@[simp] theorem writeTail_pending (i v s) : (writeTail i v s).pending = s.pending := by
  unfold writeTail
  simp

theorem whenBit_pending {f : State → State} (v i s) (h : (f s).pending = s.pending) : (whenBit v i f s).pending = s.pending := by
  unfold whenBit
  split
  · exact h
  · rfl

@[simp] theorem stageScale_pending (v s) : (stageScale v s).pending = s.pending := rfl

@[simp] theorem stageStep_pending (v s) : (stageStep v s).pending = s.pending := rfl

@[simp] theorem keyTurns_pending (s) : (keyTurns s).pending = s.pending := rfl

@[simp] theorem writeLoadCtl_pending (v s) : (writeLoadCtl v s).pending = s.pending := by
  unfold writeLoadCtl execLoadAbort execCharterLoad execFirmwareLoad
  simp only
  repeat' split
  all_goals simp

@[simp] theorem writeBlock_pending (m o v s) : (writeBlock m o v s).pending = s.pending := by
  unfold writeBlock execLoadData execCmdRegisterWord
  split
  case h_2 => exact whenBit_pending _ _ _ (keyTurns_pending s)
  all_goals simp only
  all_goals repeat' split
  all_goals simp

@[simp] theorem writeBook_pending (o v s) : (writeBook o v s).pending = s.pending := by
  unfold writeBook
  simp only
  split
  · split <;> rfl
  · simp [whenBit_pending]
  all_goals rfl

@[simp] theorem writeRoll_pending (o v s) : (writeRoll o v s).pending = s.pending := by
  unfold writeRoll
  simp only
  split
  · rw [whenBit_pending _ _ _ (rollLoad_pending ..), whenBit_pending _ _ _ (rollConfirm_pending ..)]
    split <;> simp
  all_goals rfl

@[simp] theorem writeGate_pending (g o v s) : (writeGate g o v s).pending = s.pending := by
  unfold writeGate
  simp only
  split
  · split <;> simp [whenBit_pending, execLinkEnableSet, execLinkDisable, execLinkRetrain]
  all_goals simp

@[simp] theorem writeCore_pending (c o v s) : (writeCore c o v s).pending = s.pending := by
  unfold writeCore execCoreHaltRequest execCoreResume execCoreSingleStep
  have h : ∀ (i : Nat) (f : Core → Core) (u : State),
      (whenBit v.toNat i (fun u => fired (actOn numCores c u (modCore c f)) u) u).pending = u.pending :=
    fun i f u => whenBit_pending _ _ _ (fired_actOn_pending (modCore_pending ..))
  simp only
  split
  · rw [h, h, h, modCore_pending]
  all_goals simp

@[simp] theorem writeWide_pending (o v s) : (writeWide o v s).pending = s.pending := by
  unfold writeWide
  simp only
  split
  · simp [whenBit_pending]
  · rfl
  all_goals simp [whenBit_pending]

@[simp] theorem writeWell_pending (w o v s) : (writeWell w o v s).pending = s.pending := by
  unfold writeWell
  repeat' split
  all_goals simp

@[simp] theorem mgtWrite_pending (m a v s) : (mgtWrite m a v s).pending = s.pending := by
  unfold mgtWrite
  repeat' split
  all_goals simp

@[simp] theorem pairWriteLo_pending (m a v s) : (pairWriteLo m a v s).pending = s.pending := by
  unfold pairWriteLo
  split <;> simp

@[simp] theorem stagedWrite_pending (a v s) : (stagedWrite a v s).pending = s.pending := by
  unfold stagedWrite
  split <;> simp

@[simp] theorem conserveFault_pending (c base s) : (conserveFault c base s).pending = s.pending := by
  unfold conserveFault
  split <;> simp

@[simp] theorem notePass_pending (c n s) : (notePass c n s).pending = s.pending := by
  unfold notePass
  repeat' split
  all_goals simp

@[simp] theorem vectorPass_pending (c errs s) : (vectorPass c errs s).pending = s.pending := by
  unfold vectorPass
  simp only
  split
  · rfl
  split
  case h_2 => rfl
  case h_1 =>
    generalize hp : engineErrs _ _ _ _ _ = p
    have h : p.1.pending = s.pending := by simp [← hp]
    obtain ⟨s', bad⟩ := p
    simp only at h ⊢
    repeat' split
    all_goals simp [h]

@[simp] theorem vectorMerge_pending (c inputs out k errs s) : (vectorMerge c inputs out k errs s).pending = s.pending := by
  unfold vectorMerge
  simp only
  split
  · rfl
  generalize hp : engineErrs _ _ _ _ _ = p
  have h : p.1.pending = s.pending := by simp [← hp]
  obtain ⟨s', bad⟩ := p
  simp only at h ⊢
  repeat' split
  all_goals simp [h]

end Sys2Proof.Machine
end

section
/-! The queue of waiting commands: only `step` takes a command off it. -/

namespace Sys2Proof.Machine

variable {s t : State}

theorem actUnit_pending {f : State → State} {u : Nat} (hf : (f s).pending = s.pending) (h : actUnit u s f = .next t) :
    t.pending = s.pending := by
  unfold actUnit at h
  split at h
  · exact act_pending hf h
  · nomatch h

theorem onMarket_pending {op : Nat} {pass : Option Nat} {f : CtxRec → MOp → Nat → State → State}
    (hf : ∀ r m n, (f r m n (popCmd s)).pending = s.pending) (h : onMarket op s pass f = .next t) :
    t.pending = s.pending := by
  refine onHead_pending (fun n => ?_) h
  simp only
  repeat' split
  all_goals simp [hf]

theorem onNotice_pending {g code : Nat} {via : Via} {f : Bytes → State → State}
    (hf : ∀ n u, u.pending = s.pending → (f n u).pending = s.pending) (h : onNotice g via code s f = .next t) :
    t.pending = s.pending := by
  refine actOn_pending ?_ h
  repeat' split
  all_goals simp [hf]

theorem onFrame_pending {counts : Bool} {type mode : Nat} {f : CtxRec → MOp → MFrame → State → State}
    (hf : ∀ r m x u, (f r m x u).pending = u.pending) (h : onFrame counts type mode s f = .next t) :
    t.pending = s.pending := by
  refine act_pending ?_ h
  simp only
  repeat' split
  all_goals simp [hf]

/-- The supply, reset and wrapper inputs reset the block, but not the commands that wait. -/
theorem exec_pinRow_pending {c : Instr} (hpin : pinRow c = true) (h : exec c s = .next t) : t.pending = s.pending := by
  cases c <;> simp only [pinRow, Bool.false_eq_true] at hpin
  case wsBypass | wsExtest | wsIntestScan | svIdcode | svMbist =>
    obtain rfl := Host.Outcome.next.inj h
    simp
  case powerGoodRise p =>
    obtain rfl := Host.Outcome.next.inj h
    exact setSupply_pending ..
  case powerOnReset low =>
    cases low <;> obtain rfl := Host.Outcome.next.inj h <;> rfl
  case softReset low =>
    cases low
    · obtain rfl := Host.Outcome.next.inj h
      rfl
    · have h : (if s.pins.rstPwrN then Host.Outcome.next (softResetTo 1 _) else .next (powerReset _)) = .next t := h
      split at h <;> obtain rfl := Host.Outcome.next.inj h <;> rfl
  case powerGoodFall p =>
    cases p
    case aon =>
      obtain rfl := Host.Outcome.next.inj h
      rfl
    all_goals
      have h : (if !s.pins.pgAon then Host.Outcome.next _ else if !s.pins.rstPwrN then .next _
        else .next (softResetTo 2 _)) = .next t := h
      repeat' split at h
      all_goals
        obtain rfl := Host.Outcome.next.inj h
        rfl

/-- Settles O3: no function of the model writes the queue. -/
theorem noCommandTouchesTheQueue : Obligations.NoCommandTouchesTheQueue := by
  unfold Obligations.NoCommandTouchesTheQueue
  intro c s t h
  by_cases hpin : pinRow c = true
  · exact exec_pinRow_pending hpin h
  cases c
  case powerGoodRise | powerGoodFall | powerOnReset | softReset | wsBypass | wsExtest | wsIntestScan | svIdcode |
    svMbist => exact absurd rfl hpin
  case firmwareLoad | charterLoad | loadAbort | loadData | bookScan | baselineTest | cmdRegisterWord | hingeSwitch |
      tallyComplete | almTestResult | readLoCapture | readClear | pairWriteLo |
    registerWrite | stagedWrite | keyTurn | rollLoad | rollConfirm | forceArrival | normRelease | normAbandon |
    expTableLoad | expTableLoadDone | expPin | expUnpin | bookFormat | bookDump | reabsorbDone | deadlineExpire |
        confirmationLimit | orphanLimit | curfewWaveTimeout | stallAllocate | capacityAdmit |
    postingComplete | postingTimeout | combine | combineTimeout | normOpen | exposureListWrite | grantDeadline |
    confirmationIncomplete =>
    refine act_pending ?_ h
    simp
  case coreSave | coreRestore | linkEnableSet | linkDisable | linkRetrain | coreHaltRequest | coreResume |
    coreSingleStep | laneFail | phyLost | linkBringupStart | trainFlit | trainTimeout | flitReceive | ackReceive |
    ackSend | creditFlitSend | replayTimeout | chunkSend | maskFrameReceive | shadowCopyReceive |
    shadowResult | granaryGrant | crierFrameReceive | forgeApply | forgeBlockApplied | wellRequestIssue |
    wellReadBeat | wellCompletion | wellTimeout | wellRefresh | expanderFetch | expandBlock | longWordIssue | add |
    sub | mul | and | or | xor | shl | shr | sra | slt | sltu | addi | andi | ori | xori | lui | li | ld | st | loop
    | br | dput | setvl | setcnt | setcmp | rdcnt | rdlp | layout | eccWriteback | mac | preload | drain
    | load | loadExpand | store | handoff | storeToCore | opn | loadComplete | storeComplete | vectorPassComplete |
    matrixOpComplete | wait | waitq | fence | signal | halt | take | syncRelease | gateTxtake =>
    refine actOn_pending ?_ h
    simp
  case statusWindowExpire | bookCoalesceTimer =>
    refine actUnit_pending ?_ h
    simp
  case step | layerReady | curfew | barrier | reset | hinge | program | expand | declare | tally | almLoad | almRun
    | post =>
    refine onHead_pending (fun n => ?_) h
    simp
  case dispatchForward | dispatchReplay | ret =>
    refine onMarket_pending (fun r m n => ?_) h
    simp
  case closeNotice | askNotice =>
    refine onNotice_pending (fun n u hu => ?_) h
    simp [hu]
  case countsFrame | grantFrame | rowFrame | returnRowFrame | countsRequest | countsReply =>
    refine onFrame_pending (fun r m x u => ?_) h
    simp
  case chunkBolt r =>
    cases r with
    | cell op j => exact act_pending (boltCell_pending ..) h
    | bcast op index => exact act_pending (boltBcast_pending ..) h
    | market g i => exact actOn_pending (mktBolt_pending ..) h
  case stepNoticeUp g =>
    cases g with
    | none => exact act_pending (advanceAll_pending ..) h
    | some g =>
      simp only [exec, execStepNoticeUp] at h
      refine onNotice_pending (fun n u hu => ?_) h
      split <;> simp [hu]
  case greenFlitReceive unit parityOk =>
    have h : (if greenUnit unit then act s (fun s => if parityOk then s else badGreenFlit unit s) else .fault .noSuchUnit) =
      .next t := h
    split at h
    · refine act_pending ?_ h
      split <;> simp
    · nomatch h
  case chunkReceive | vectorRun =>
    refine actOn_pending ?_ h
    split <;> simp
  case romSelfTest =>
    simp only [exec, execRomSelfTest] at h
    refine act_pending ?_ h
    repeat' split
    all_goals rfl
  case cmdPortWord =>
    simp only [exec, execCmdPortWord] at h
    refine act_pending ?_ h
    split <;> simp
  case localResetEnd =>
    simp only [exec, execLocalResetEnd] at h
    exact act_pending rfl h
  case boltNotice =>
    simp only [exec, execBoltNotice] at h
    refine onNotice_pending (fun n u hu => ?_) h
    rw [loadedOr_pending _ _ _ _ (by split <;> simp), hu]
  case revokeNotice =>
    simp only [exec, execRevokeNotice] at h
    refine onNotice_pending (fun n u hu => ?_) h
    rw [loadedOr_pending _ _ _ _ (by split <;> simp), hu]
  case grantNotice =>
    simp only [exec, execGrantNotice] at h
    refine onNotice_pending (fun n u hu => ?_) h
    rw [loadedOr_pending _ _ _ _ (grantArrives_pending ..), hu]
  case stepNoticeDown =>
    simp only [exec, execStepNoticeDown] at h
    refine onNotice_pending (fun n u hu => ?_) h
    split <;> simp [hu]
  case cackNotice =>
    simp only [exec, execCackNotice] at h
    refine onNotice_pending (fun n u hu => ?_) h
    rw [loadedOr_pending _ _ _ _ (cackArrives_pending ..), hu]
  case resendNotice =>
    simp only [exec, execResendNotice] at h
    refine onNotice_pending (fun n u hu => ?_) h
    rw [loadedOr_pending _ _ _ _ (resendArrives_pending ..), hu]

end Sys2Proof.Machine
end

section
/-! Words into the command FIFO, and the commands that open a step or start a wave (16 R560 to R565; 08 R320). -/

namespace Sys2Proof.Machine

variable {s : State}

/-! ### Words at the two ports -/

theorem exec_cmdPortWord (hs : live s = true) (v : U64) :
    exec (.cmdPortWord v) s = .next (if fifoFull s then s else cmdEnter v s) := by
  simp only [exec, execCmdPortWord]
  exact act_of_live hs _

theorem exec_cmdRegisterWord (hs : live s = true) (hi : U32) :
    exec (.cmdRegisterWord hi) s = .next (pushRegisterWord hi s) := act_of_live hs _

theorem fifoFull_eq_false (h : s.cmd.fifo.length < 256) : fifoFull s = false := decide_eq_false (by omega)

theorem fifoFull_eq_true (h : 256 ≤ s.cmd.fifo.length) : fifoFull s = true := decide_eq_true h

theorem cmdOp_eq (w : U64) : cmdOp w = w.toNat % 256 := by simp [cmdOp, field]

/-- The word that the two command registers hold has the high register above the low one. -/
theorem registerWord_eq (hi lo : U32) : BitVec.ofNat 64 (lo.toNat + hi.toNat * 2 ^ 32) = hi ++ lo := by
  refine BitVec.eq_of_toNat_eq ?_
  rw [BitVec.toNat_append, BitVec.toNat_ofNat, ← Nat.shiftLeft_add_eq_or_of_lt lo.isLt, Nat.shiftLeft_eq]
  omega

/-! ### When a command waits behind the head -/

/-- Nothing at the head of the FIFO starts the command of this opcode. -/
theorem onHead_of_held {op : Nat} (f : Nat → State → State)
    (h : s.cmd.fifo = [] ∨ (∃ w rest, s.cmd.fifo = w :: rest ∧ cmdOp w ≠ op) ∨ fifoHeld s = true) :
    onHead op s f = .next s := by
  unfold onHead act
  split
  · simp only
    rcases h with h | ⟨w, rest, h, hop⟩ | h
    · rw [h]
    · rw [h]
      simp [hop]
    · simp only [h, Bool.not_true, Bool.and_false, Bool.false_eq_true, if_false]
      split <;> rfl
  · rfl

theorem fifoHeld_iff : fifoHeld s = true ↔
    s.step.mismatch = true ∨ s.step.resetDone = false ∨ s.forge.hinging = true ∨ s.boot.memErr = true := by
  simp [fifoHeld, or_assoc]

theorem onMarket_eq_onHead (op : Nat) (s : State) (pass : Option Nat) (f : CtxRec → MOp → Nat → State → State) :
    ∃ g, onMarket op s pass f = onHead op s g := ⟨_, rfl⟩

/-- Each row that starts a command of the FIFO starts the head, and no other. -/
theorem exec_fifoOp {c : Instr} {op : Nat} (h : fifoOp c = some op) (s : State) :
    ∃ f, exec c s = onHead op s f := by
  cases c <;> simp only [fifoOp, Option.some.injEq, reduceCtorEq] at h
  case dispatchForward | dispatchReplay | ret =>
    subst h
    exact onMarket_eq_onHead ..
  all_goals
    subst h
    exact ⟨_, rfl⟩

/-- Settles O15: words enter at the end of the FIFO, and only its head starts. -/
theorem wordsEnterTheFifo : Obligations.WordsEnterTheFifo := by
  unfold Obligations.WordsEnterTheFifo
  refine ⟨fun s v hi hs => ⟨fun h hok => ?enters, fun h hok => ?malformed, fun h => ?waits, fun h => ?register, fun h => ?drops⟩,
    fun c op s hc h => ?held⟩
  case enters => rw [exec_cmdPortWord hs, fifoFull_eq_false h, if_neg Bool.false_ne_true, cmdEnter, if_pos hok]
  case malformed =>
    rw [exec_cmdPortWord hs, fifoFull_eq_false h, if_neg Bool.false_ne_true, cmdEnter, hok, if_neg Bool.false_ne_true,
      configFault, cmdOp_eq]
  case waits => rw [exec_cmdPortWord hs, fifoFull_eq_true h, if_pos rfl]
  case register =>
    rw [exec_cmdRegisterWord hs, exec_cmdPortWord hs, pushRegisterWord, registerWord_eq, fifoFull_eq_false h,
      if_neg Bool.false_ne_true, if_neg Bool.false_ne_true]
  case drops => rw [exec_cmdRegisterWord hs, pushRegisterWord, fifoFull_eq_true h, if_pos rfl]
  case held =>
    obtain ⟨f, hf⟩ := exec_fifoOp hc s
    rw [hf, onHead_of_held f (by rwa [fifoHeld_iff])]

/-! ### Steps and waves -/

/-- Settles O16: `STEP` at the head opens the step unless one is open. -/
theorem stepCommandOpensTheStep : Obligations.StepCommandOpensTheStep := by
  unfold Obligations.StepCommandOpensTheStep
  intro s w rest h
  have hexec : exec .step s = .next (stepOpens w.toNat s) := onHead_of_headIs h _
  refine ⟨fun hopen => ?_, fun hopen => ?_⟩
  · rw [hexec, stepOpens, hopen, if_neg (by simp), popCmd_of_headIs h]
    rfl
  · rw [hexec, stepOpens, if_pos (Option.isSome_iff_ne_none.2 hopen)]

theorem isSome_myGrp_iff (s : State) (g : Nat) :
    (myGrp s g).isSome = true ↔ ∃ x, grpOf s g = some x ∧ x.view.memberOf = true := by
  simp [myGrp, Option.any_eq_true]

theorem curfewStarts_of_open {w : U64} {rest : List U64} (h : headIs s 0x03 w rest)
    (hopen : s.step.opened = some (field w.toNat 47 16)) : exec .curfew s =
      .next (startWave ⟨curfewGroup s, 1, 0, field w.toNat 47 16⟩
        { s with cmd := { s.cmd with fifo := rest }, step := { s.step with curfewStarted := true } }) := by
  have hexec : exec .curfew s = .next (curfewStarts w.toNat s) := onHead_of_headIs h _
  rw [hexec, curfewStarts, if_pos hopen, popCmd_of_headIs h]
  rfl

/-- Settles O17: each of the three commands starts its wave or is discarded. -/
theorem curfewBarrierResetStartTheirWaves : Obligations.CurfewBarrierResetStartTheirWaves := by
  unfold Obligations.CurfewBarrierResetStartTheirWaves
  refine fun s w rest => ⟨fun h => ⟨curfewStarts_of_open h, fun hopen => ?lateCurfew⟩, fun h => ?barrier, fun h => ?reset⟩
  case lateCurfew =>
    have hexec : exec .curfew s = .next (curfewStarts w.toNat s) := onHead_of_headIs h _
    rw [hexec, curfewStarts, if_neg hopen, discardCmd_of_headIs h]
  case barrier =>
    have hexec : exec .barrier s = .next (barrierStarts w.toNat s) := onHead_of_headIs h _
    refine ⟨fun hg hq => ?_, fun hno => ?_⟩
    · rw [hexec, barrierStarts, if_pos ⟨(isSome_myGrp_iff ..).2 hg, hq⟩, popCmd_of_headIs h]
    · rw [hexec, barrierStarts, if_neg, discardCmd_of_headIs h]
      rintro ⟨hsome, hq⟩
      obtain ⟨g, hg, hmem⟩ := (isSome_myGrp_iff ..).1 hsome
      exact hno.elim (fun hn => by simp [hn g hg] at hmem) hq
  case reset =>
    have hexec : exec .reset s = .next (resetStarts w.toNat s) := onHead_of_headIs h _
    rw [hexec, resetStarts, popCmd_of_headIs h]

end Sys2Proof.Machine
end

section
/-! The scalar rows of a core: arithmetic, descriptors, loops and branches (13 Table 13-4). -/

namespace Sys2Proof.Machine

variable {s : State} {c : Nat}

/-! ### Rows of one core -/

/-- A row of an existing core of a live block replaces that core. -/
theorem onCore_of_live (hs : live s = true) (hc : c < 2304) (f : Core → Core) :
    actOn numCores c s (modCore c f) = .next (setCore s c (f (getCore s c))) := actOn_of_live hs hc _

theorem slotOr_nil (e : Nat) (f : Core → Core) (k : Core) : slotOr e [] f k = f k := rfl

theorem slotOr_cons (e code : Nat) (l : List Nat) (f : Core → Core) (k : Core) :
    slotOr e (code :: l) f k = haltCore k.pc code e k := rfl

/-! ### Writes of a register -/

theorem getS_setS {k : Core} (hk : tableWf 0 k.s = true) (rd : Nat) (v : U32) {r : Nat} (hr : r < 32) :
    getS (setS rd v k) r = if r = rd % 32 ∧ r ≠ 0 then v else getS k r := by
  have hr' : r % 32 = r := Nat.mod_eq_of_lt hr
  unfold getS setS
  rw [hr']
  by_cases h0 : r = 0
  · rw [if_pos h0, if_pos h0, if_neg (fun h => h.2 h0)]
  by_cases hrd : rd % 32 = 0
  · rw [if_neg h0, if_pos hrd, if_neg (fun h => h0 (h.1.trans hrd)), if_neg h0]
  · rw [if_neg hrd, if_neg h0, if_neg h0]
    simp only [tget_tset _ _ _ hk, h0, ne_eq, not_false_eq_true, and_true]

theorem setS_other (rd : Nat) (v : U32) (k : Core) : setS rd v k = { k with s := (setS rd v k).s } := by
  unfold setS
  split <;> rfl

theorem writesReg_setS (hs : s.unitsWf = true) (hk : (getCore s c).wf = true) (rd : Nat) (v : U32) :
    writesReg s (setCore s c (setS rd v (getCore s c))) c rd v := by
  obtain ⟨hcores, -, -, -⟩ := unitsWf_iff.1 hs
  obtain ⟨-, -, -, -, -, hregs, -⟩ := (Core.wf_iff _).1 hk
  have hself : getCore (setCore s c (setS rd v (getCore s c))) c = setS rd v (getCore s c) := by
    rw [getCore_setCore _ _ _ _ hcores, if_pos rfl]
  refine ⟨rfl, fun x hx => by rw [getCore_setCore _ _ _ _ hcores, if_neg hx], ?_, fun r hr => ?_⟩
  · rw [hself]
    exact setS_other ..
  · rw [hself]
    exact getS_setS hregs rd v hr

/-- A row that sets a register of a core completes and writes that register. -/
theorem writesReg_of_onCore (hs : live s = true) (hc : c < 2304) (hu : s.unitsWf = true) (hk : (getCore s c).wf = true)
    {rd : Nat} {v : U32} {f : Core → Core} (hf : f (getCore s c) = setS rd v (getCore s c)) :
    ∃ t, actOn numCores c s (modCore c f) = .next t ∧ writesReg s t c rd v :=
  ⟨_, onCore_of_live hs hc f, hf ▸ writesReg_setS hu hk rd v⟩

/-- Settles O24: each arithmetic row sets its destination from its sources. -/
theorem scalarArithmeticRows : Obligations.ScalarArithmeticRows := by
  unfold Obligations.ScalarArithmeticRows
  intro s c rd a b imm hs hc hu hk
  have row : ∀ {v : U32} {f : Core → Core}, f (getCore s c) = setS rd v (getCore s c) →
      ∃ t, actOn numCores c s (modCore c f) = .next t ∧ writesReg s t c rd v := writesReg_of_onCore hs hc hu hk
  exact ⟨row rfl, row rfl, row rfl, row rfl, row rfl, row rfl, row rfl, row rfl, row rfl, row rfl, row rfl, row rfl, row rfl,
    row rfl, row rfl, row rfl, row rfl⟩

/-! ### Descriptors and counters -/

/-- The number whose quarter `q` of 32 bits is `v` and whose other three quarters are those of `old`. -/
def withQuarter (old v q : Nat) : Nat :=
  old / 2 ^ (32 * q + 32) * 2 ^ (32 * q + 32) + v * 2 ^ (32 * q) + old % 2 ^ (32 * q)

/-- A quarter is one of four. -/
theorem lt_four_cases {q : Nat} (h : q < 4) : q = 0 ∨ q = 1 ∨ q = 2 ∨ q = 3 := by omega

theorem withQuarter_lt {old v q : Nat} (ho : old < 2 ^ 128) (hv : v < 2 ^ 32) (hq : q < 4) : withQuarter old v q < 2 ^ 128 := by
  unfold withQuarter
  rcases lt_four_cases hq with rfl | rfl | rfl | rfl <;> omega

theorem quarter_withQuarter {old v q j : Nat} (ho : old < 2 ^ 128) (hv : v < 2 ^ 32) (hq : q < 4) (hj : j < 4) :
    withQuarter old v q / 2 ^ (32 * j) % 2 ^ 32 = if j = q then v else old / 2 ^ (32 * j) % 2 ^ 32 := by
  unfold withQuarter
  by_cases hjq : j = q
  · subst hjq
    rw [if_pos rfl]
    rcases lt_four_cases hj with rfl | rfl | rfl | rfl <;> omega
  · rw [if_neg hjq]
    rcases lt_four_cases hq with rfl | rfl | rfl | rfl <;> rcases lt_four_cases hj with rfl | rfl | rfl | rfl <;> omega

/-- Settles O25: each row writes its register, quarter, length, counter or comparator, and nothing else of the core. -/
theorem scalarRegisterReadsAndDescriptors : Obligations.ScalarRegisterReadsAndDescriptors := by
  unfold Obligations.ScalarRegisterReadsAndDescriptors
  intro s c rd i q r src eq hs hc hu hk
  refine ⟨writesReg_of_onCore hs hc hu hk rfl, writesReg_of_onCore hs hc hu hk rfl, ⟨_, onCore_of_live hs hc _, fun j hj => ?quarter⟩,
    onCore_of_live hs hc _, fun hsrc => ?source, fun hsrc => ?noSource, onCore_of_live hs hc _⟩
  case quarter =>
    have hq : q % 4 < 4 := Nat.mod_lt _ (by decide)
    change (BitVec.ofNat 128 (withQuarter (getD (getCore s c) i).toNat (getS (getCore s c) r).toNat (q % 4))).toNat / _ % _ = _
    rw [BitVec.toNat_ofNat, Nat.mod_eq_of_lt (withQuarter_lt (getD _ i).isLt (getS _ r).isLt hq),
      quarter_withQuarter (getD _ i).isLt (getS _ r).isLt hq hj]
  case source =>
    refine (onCore_of_live hs hc _).trans ?_
    rw [if_pos hsrc]
    rfl
  case noSource =>
    refine (onCore_of_live hs hc _).trans ?_
    rw [if_neg (by omega)]
    rfl

/-! ### Loops, branches and layouts -/

theorem loopFaults_of_level {k : Core} : loopFaults k k.sp = [] := if_pos rfl

theorem loopFaults_of_other_level {k : Core} {level : Nat} (h : level ≠ k.sp) :
    loopFaults k level = [if k.sp = 4 then 0x06 else 0x07] := by
  rw [loopFaults, if_neg h]
  split <;> rfl

theorem openLoop_of_count {level cnt e : Nat} {k : Core} (h : getS k cnt ≠ 0) : openLoop level cnt e k = { k with
    sp := level + 1, loops := tset {} k.loops level ⟨k.pc, k.pc + 2 * e, (getS k cnt).toNat, 0⟩ } :=
  if_neg fun h0 => h (BitVec.eq_of_toNat_eq h0)

theorem openLoop_of_zero {level cnt e : Nat} {k : Core} (h : getS k cnt = 0) :
    openLoop level cnt e k = { k with pc := k.pc + 2 * e + wordLen k (k.pc + 2 * e) } :=
  if_pos (by rw [h]; rfl)

theorem brTaken_iff (r : Nat) (sense : Bool) (k : Core) : brTaken r sense k = true ↔ (getS k r = 0 ↔ sense = false) := by
  cases sense <;> simp [brTaken]

/-- A table that lists the numbers from `a` on, each with the same value. -/
theorem tget_range' {α : Type} (d v : α) (a n i : Nat) :
    tget d ((List.range' a n).map (fun t => (t, v))) i = if a ≤ i ∧ i < a + n then v else d := by
  induction n generalizing a with
  | zero => rw [if_neg (by omega)]; rfl
  | succ n ih =>
    rw [List.range'_succ, List.map_cons, tget, ih]
    grind

/-- The status of every tile after a layout is selected: that of an integer tile, or zero. -/
theorem tget_setLayout_tile (code : Nat) (k : Core) (i : Nat) :
    tget 0 (setLayout code k).tile i = if code = 3 ∧ i < 80 then 0x20#64 else 0 := by
  unfold setLayout
  by_cases hcode : code = 3
  · simp only [hcode, if_true, List.range_eq_range', tget_range']
    simp
  · simp only [hcode, if_false, false_and]
    rfl

/-- Settles O26: loops, branches and layouts take effect where they may, and else halt the core with their code. -/
theorem loopsAndBranches : Obligations.LoopsAndBranches := by
  unfold Obligations.LoopsAndBranches
  intro s c level cnt e r code sense o hs hc
  refine ⟨fun hl hn => ?opens, fun hl hn => ?skips, fun hl => ?otherLevel,
    ⟨fun hbad => ?badTarget, fun hbad ht => ?taken, fun hbad ht => ?notTaken⟩, fun hcode => ?layout, fun hcode => ?noLayout⟩
  case opens =>
    subst hl
    refine (onCore_of_live hs hc _).trans ?_
    rw [loopFaults_of_level, slotOr_nil, openLoop_of_count hn]
  case skips =>
    subst hl
    refine (onCore_of_live hs hc _).trans ?_
    rw [loopFaults_of_level, slotOr_nil, openLoop_of_zero hn]
  case otherLevel =>
    refine (onCore_of_live hs hc _).trans ?_
    rw [loopFaults_of_other_level hl, slotOr_cons]
    rfl
  case badTarget =>
    refine (onCore_of_live hs hc _).trans ?_
    rw [show brFaults (getCore s c) o = [0x0D] from if_pos hbad, slotOr_cons]
    rfl
  case taken =>
    refine (onCore_of_live hs hc _).trans ?_
    rw [show brFaults (getCore s c) o = [] from if_neg hbad, slotOr_nil, branch, if_pos ((brTaken_iff ..).2 ht)]
    rfl
  case notTaken =>
    refine (onCore_of_live hs hc _).trans ?_
    rw [show brFaults (getCore s c) o = [] from if_neg hbad, slotOr_nil, branch, if_neg (fun h => ht ((brTaken_iff ..).1 h))]
  case layout =>
    refine ⟨_, (onCore_of_live hs hc _).trans ?_, tget_setLayout_tile code (getCore s c)⟩
    rw [if_pos hcode]
    rfl
  case noLayout =>
    refine (onCore_of_live hs hc _).trans ?_
    rw [if_neg (by omega)]
    rfl

end Sys2Proof.Machine
end

section
/-! Writing a table or a unit twice, and membership in the sorted lists of the model. -/

namespace Sys2Proof.Machine

/-! ### Tables -/

section
variable {α : Type}

theorem tinsert_tinsert (t : List (Nat × α)) (i : Nat) (a b : α) : tinsert (tinsert t i a) i b = tinsert t i b := by
  induction t with
  | nil => simp [tinsert]
  | cons e t ih =>
    obtain ⟨k, v⟩ := e
    by_cases hki : k = i
    · simp [tinsert, hki]
    by_cases hik : i < k
    · simp [tinsert, hki, hik]
    · simp [tinsert, hki, hik, ih]

theorem terase_tinsert (t : List (Nat × α)) (i : Nat) (a : α) : terase (tinsert t i a) i = terase t i := by
  induction t with
  | nil => simp [tinsert, terase]
  | cons e t ih =>
    obtain ⟨k, v⟩ := e
    by_cases hki : k = i
    · simp [tinsert, terase, hki]
    by_cases hik : i < k
    · simp [tinsert, terase, hki, hik]
    · simp [tinsert, terase, hki, hik, ih]

theorem terase_of_head_gt {t : List (Nat × α)} {i : Nat} (h : ∀ e ∈ t, i < e.1) : terase t i = t := by
  cases t with
  | nil => rfl
  | cons e t =>
    have := h e List.mem_cons_self
    simp [terase, this, (Nat.ne_of_lt this).symm]

theorem tinsert_of_head_gt {t : List (Nat × α)} {i : Nat} (a : α) (h : ∀ e ∈ t, i < e.1) : tinsert t i a = (i, a) :: t := by
  cases t with
  | nil => rfl
  | cons e t =>
    have := h e List.mem_cons_self
    simp [tinsert, this, (Nat.ne_of_lt this).symm]

theorem terase_terase {t : List (Nat × α)} (i : Nat) (h : t.Pairwise (fun a b => a.1 < b.1)) :
    terase (terase t i) i = terase t i := by
  induction t with
  | nil => rfl
  | cons e t ih =>
    obtain ⟨k, v⟩ := e
    obtain ⟨hgt, htail⟩ := List.pairwise_cons.1 h
    by_cases hki : k = i
    · subst hki
      simp [terase, terase_of_head_gt hgt]
    by_cases hik : i < k
    · simp [terase, hki, hik]
    · simp [terase, hki, hik, ih htail]

theorem tinsert_terase {t : List (Nat × α)} (i : Nat) (a : α) (h : t.Pairwise (fun a b => a.1 < b.1)) :
    tinsert (terase t i) i a = tinsert t i a := by
  induction t with
  | nil => rfl
  | cons e t ih =>
    obtain ⟨k, v⟩ := e
    obtain ⟨hgt, htail⟩ := List.pairwise_cons.1 h
    by_cases hki : k = i
    · subst hki
      simp [terase, tinsert, tinsert_of_head_gt a hgt]
    by_cases hik : i < k
    · simp [terase, tinsert, hki, hik]
    · simp [terase, tinsert, hki, hik, ih htail]

/-- Of two writes to one place of a table the second stays. -/
theorem tset_tset [DecidableEq α] {d : α} {t : List (Nat × α)} (i : Nat) (a b : α) (h : tableWf d t = true) :
    tset d (tset d t i a) i b = tset d t i b := by
  obtain ⟨hsorted, -⟩ := (tableWf_iff ..).1 h
  unfold tset
  split <;> split
  · exact terase_terase i hsorted
  · exact terase_tinsert t i a
  · exact tinsert_terase i b hsorted
  · exact tinsert_tinsert t i a b

end

/-! ### Units -/

section
variable {s : State}

theorem setCore_setCore (c : Nat) (k k' : Core) (h : tableWf {} s.cores = true) :
    setCore (setCore s c k) c k' = setCore s c k' := by
  simp only [setCore, tset_tset _ _ _ h]

theorem setGate_setGate (g : Nat) (k k' : Gate) (h : tableWf {} s.gates = true) :
    setGate (setGate s g k) g k' = setGate s g k' := by
  simp only [setGate, tset_tset _ _ _ h]

theorem setWell_setWell (w : Nat) (k k' : Well) (h : tableWf {} s.wells = true) :
    setWell (setWell s w k) w k' = setWell s w k' := by
  simp only [setWell, tset_tset _ _ _ h]

theorem getCore_modCore_self (c : Nat) (f : Core → Core) (h : tableWf {} s.cores = true) :
    getCore (modCore c f s) c = f (getCore s c) := by rw [getCore_modCore _ _ _ _ h, if_pos rfl]

theorem getGate_modGate_self (g : Nat) (f : Gate → Gate) (h : tableWf {} s.gates = true) :
    getGate (modGate g f s) g = f (getGate s g) := by rw [getGate_modGate _ _ _ _ h, if_pos rfl]

theorem getWell_modWell_self (w : Nat) (f : Well → Well) (h : tableWf {} s.wells = true) :
    getWell (modWell w f s) w = f (getWell s w) := by rw [getWell_modWell _ _ _ _ h, if_pos rfl]

theorem modCore_setCore (c : Nat) (f : Core → Core) (k : Core) (h : tableWf {} s.cores = true) :
    modCore c f (setCore s c k) = setCore s c (f k) := by
  rw [modCore, getCore_setCore _ _ _ _ h, if_pos rfl, setCore_setCore _ _ _ h]

theorem modGate_setGate (g : Nat) (f : Gate → Gate) (k : Gate) (h : tableWf {} s.gates = true) :
    modGate g f (setGate s g k) = setGate s g (f k) := by
  rw [modGate, getGate_setGate _ _ _ _ h, if_pos rfl, setGate_setGate _ _ _ h]

theorem modWell_setWell (w : Nat) (f : Well → Well) (k : Well) (h : tableWf {} s.wells = true) :
    modWell w f (setWell s w k) = setWell s w (f k) := by
  rw [modWell, getWell_setWell _ _ _ _ h, if_pos rfl, setWell_setWell _ _ _ h]

theorem modCore_modCore (c : Nat) (f g : Core → Core) (h : tableWf {} s.cores = true) :
    modCore c f (modCore c g s) = modCore c (fun k => f (g k)) s := modCore_setCore _ _ _ h

end

/-! ### Sorted lists without repeats -/

theorem mem_insertBy {α : Type} (key : α → Nat) (a x : α) (l : List α) : x ∈ insertBy key a l ↔ x = a ∨ x ∈ l := by
  induction l with
  | nil => simp [insertBy]
  | cons b l ih =>
    unfold insertBy
    split
    · simp
    · rw [List.mem_cons, ih, List.mem_cons]
      exact or_left_comm

theorem mem_sortBy {α : Type} (key : α → Nat) (l : List α) (x : α) : x ∈ sortBy key l ↔ x ∈ l := by
  have h : ∀ (l acc : List α), x ∈ l.foldl (fun acc a => insertBy key a acc) acc ↔ x ∈ l ∨ x ∈ acc := by
    intro l
    induction l with
    | nil => simp
    | cons a l ih =>
      intro acc
      rw [List.foldl_cons, ih, mem_insertBy, List.mem_cons]
      exact or_left_comm.trans or_assoc.symm
  exact (h l []).trans (by simp)

theorem mem_dedup {α : Type} [BEq α] [LawfulBEq α] (l : List α) (x : α) : x ∈ dedup l ↔ x ∈ l := by
  have h : ∀ (l acc : List α), x ∈ l.foldl (fun acc a => if acc.contains a then acc else acc ++ [a]) acc ↔ x ∈ l ∨ x ∈ acc := by
    intro l
    induction l with
    | nil => simp
    | cons a l ih =>
      intro acc
      rw [List.foldl_cons, ih, List.mem_cons]
      split
      case isTrue ha =>
        rw [List.contains_iff_mem] at ha
        constructor
        · exact Or.imp_left .inr
        · rintro ((rfl | hx) | hx)
          · exact .inr ha
          · exact .inl hx
          · exact .inr hx
      case isFalse =>
        rw [List.mem_append, List.mem_singleton, or_comm (a := x ∈ acc)]
        exact or_left_comm.trans or_assoc.symm
  exact (h l []).trans (by simp)

end Sys2Proof.Machine
end

section
/-! Scalar loads and stores, sync rows, halts and bit errors of a core (13 R464 to R494; 03 R102 to R104). -/

namespace Sys2Proof.Machine

variable {s : State} {c : Nat}

/-! ### Bit errors -/

/-- What a bit error that an operation meets does to its core. -/
def memErrorCore (e : MemErr) (k : Core) : Core :=
  if hardError e then recordMemErr e.mem e.word (setPoisonBit e.mem e.word (damageWord e k))
  else { k with eccCe := satInc k.eccCe 1, writeback := k.writeback ++ [(e.mem, e.word)] }

theorem memError_cores (c : Nat) (e : MemErr) (s : State) :
    (memError c e s).cores = (modCore c (memErrorCore e) s).cores := by
  unfold memError
  by_cases h : hardError e = true
  · rw [if_pos h, raise_cores, modCore, modCore, memErrorCore, if_pos h]
  · rw [if_neg h, modCore, modCore, memErrorCore, if_neg h]

/-- From `k` to `j` a core meets bit errors: its memories and their poison change, and what is counted and recorded of them. -/
def erred (k j : Core) : Prop :=
  j = { k with
    eccCe := j.eccCe, memErr := j.memErr, prog := j.prog, scratch := j.scratch, acc := j.acc, sdata := j.sdata
    poisonP := j.poisonP, poisonS := j.poisonS, poisonA := j.poisonA, poisonD := j.poisonD, writeback := j.writeback }

theorem erred_refl (k : Core) : erred k k := rfl

theorem erred_trans {a b d : Core} (h1 : erred a b) (h2 : erred b d) : erred a d := by
  unfold erred at *
  rw [h2, h1]

theorem erred_memErrorCore (e : MemErr) (k : Core) : erred k (memErrorCore e k) := by
  unfold memErrorCore
  split
  · have hdamage : erred k (damageWord e k) := by
      unfold damageWord
      cases e.mem <;> rfl
    have hpoison : ∀ j, erred j (setPoisonBit e.mem e.word j) := fun j => by cases e.mem <;> rfl
    have hrecord : ∀ j, erred j (recordMemErr e.mem e.word j) := fun j => by
      unfold recordMemErr
      split <;> rfl
    exact erred_trans hdamage (erred_trans (hpoison _) (hrecord _))
  · rfl

theorem getCore_of_cores {s t : State} (h : t.cores = s.cores) (c : Nat) : getCore t c = getCore s c := by
  rw [getCore, h, getCore]

theorem getCore_memError (hw : tableWf {} s.cores = true) (e : MemErr) :
    getCore (memError c e s) c = memErrorCore e (getCore s c) := by
  rw [getCore_of_cores (memError_cores c e s), getCore_modCore_self _ _ hw]

theorem tableWf_memError (hw : tableWf {} s.cores = true) (e : MemErr) : tableWf {} (memError c e s).cores = true := by
  rw [memError_cores]
  exact tableWf_tset _ _ hw

/-- The bit errors that an operation meets change its core only as `erred` says. -/
theorem erred_memErrors (hw : tableWf {} s.cores = true) (mems : List CoreMem) (errs : List MemErr) :
    tableWf {} (memErrors c mems errs s).1.cores = true ∧ erred (getCore s c) (getCore (memErrors c mems errs s).1 c) := by
  unfold memErrors
  simp only
  generalize errs.filter (fun e => mems.contains e.mem) = es
  induction es generalizing s with
  | nil => exact ⟨hw, rfl⟩
  | cons e es ih =>
    obtain ⟨hwf, herr⟩ := ih (tableWf_memError (c := c) hw e)
    refine ⟨hwf, erred_trans ?_ herr⟩
    rw [getCore_memError hw]
    exact erred_memErrorCore e _

theorem memErrors_hard {mems : List CoreMem} {errs : List MemErr} (h : ∃ e ∈ errs, e.mem ∈ mems ∧ 2 < e.bits.length) :
    (memErrors c mems errs s).2 = true := by
  obtain ⟨e, he, hmem, hbits⟩ := h
  refine List.any_eq_true.2 ⟨e, List.mem_filter.2 ⟨he, ?_⟩, decide_eq_true hbits⟩
  simpa using hmem

theorem memErrors_nil (c : Nat) (mems : List CoreMem) (s : State) : memErrors c mems [] s = (s, false) := rfl

/-! ### Halts -/

theorem haltCore_of_running {k : Core} (a code e : Nat) (h : k.state = 1 ∨ k.state = 3) : haltCore a code e k = { k with
    state := 2, haltAddr := a, haltCode := code, haltEngine := e, haltReq := false, stepping := false, cntDue := false
    saving := false } := if_pos h

theorem haltCore_of_halted {k : Core} (a code e : Nat) (h : k.state = 2) : haltCore a code e k = { k with more := true } := by
  rw [haltCore, if_neg (by omega), if_pos h]

theorem haltCore_of_reset {k : Core} (a code e : Nat) (h : k.state = 0) : haltCore a code e k = k := by
  rw [haltCore, if_neg (by omega), if_neg (by omega)]

/-- An engine's halt of a running core latches its address, code and engine. -/
theorem getCore_engineHalt (hw : tableWf {} s.cores = true) (a code e : Nat) (h : (getCore s c).state = 1 ∨ (getCore s c).state = 3) :
    let k := getCore (modCore c (engineHalt a code e) s) c
    k.state = 2 ∧ k.haltCode = code ∧ k.haltAddr = a ∧ k.haltEngine = e ∧ k.s = (getCore s c).s := by
  have hk : getCore (modCore c (engineHalt a code e) s) c = dropQueue e (haltCore a code e (getCore s c)) := by
    rw [getCore_modCore_self _ _ hw, engineHalt]
  simp only [hk, haltCore_of_running _ _ _ h]
  unfold dropQueue
  split <;> exact ⟨rfl, rfl, rfl, rfl, rfl⟩

/-! ### Scalar loads and stores -/

theorem exec_ld (hs : live s = true) (hc : c < 2304) (errs : List MemErr) : exec (.ld c errs) s = .next (scalarLoad c errs s) :=
  actOn_of_live hs hc _

theorem exec_st (hs : live s = true) (hc : c < 2304) (errs : List MemErr) : exec (.st c errs) s = .next (scalarStore c errs s) :=
  actOn_of_live hs hc _

theorem scalarLoad_of_head {rd a addr : Nat} {q : List QEntry} (h : (getCore s c).q0 = ⟨.ld rd a, addr⟩ :: q) (errs : List MemErr) :
    scalarLoad c errs s =
      let p := memErrors c [.sdata] (errs.filter (fun e => e.word = a / 8)) (modCore c (fun k => { k with q0 := q }) s)
      if p.2 then modCore c (engineHalt addr 0x21 eScalar) p.1
      else modCore c (fun k => setS rd (BitVec.ofNat 32 (leNat (sdataRead k a 4))) k) p.1 := by
  rw [scalarLoad, h]

theorem scalarStore_of_head {a addr : Nat} {v : U32} {q : List QEntry} (h : (getCore s c).q0 = ⟨.st a v, addr⟩ :: q)
    (errs : List MemErr) : scalarStore c errs s =
      let p := memErrors c [.sdata] (errs.filter (fun e => e.word = a / 8)) (modCore c (fun k => { k with q0 := q }) s)
      if p.2 then modCore c (engineHalt addr 0x21 eScalar) p.1
      else modCore c (sdataWrite a (natLe 4 v.toNat) false) p.1 := by
  rw [scalarStore, h]

theorem scalarLoad_of_other (h : ∀ rd a addr q, (getCore s c).q0 ≠ ⟨.ld rd a, addr⟩ :: q) (errs : List MemErr) :
    scalarLoad c errs s = s := by
  unfold scalarLoad
  split
  · next hq => exact (h _ _ _ _ hq).elim
  · rfl

theorem scalarStore_of_other (h : ∀ a v addr q, (getCore s c).q0 ≠ ⟨.st a v, addr⟩ :: q) (errs : List MemErr) :
    scalarStore c errs s = s := by
  unfold scalarStore
  split
  · next hq => exact (h _ _ _ _ hq).elim
  · rfl

/-- The hard error on the word of the head of the scalar queue stops the core (R104, R490). -/
theorem stopsScalar_of_hardError (hw : tableWf {} s.cores = true) (hrun : (getCore s c).state = 1 ∨ (getCore s c).state = 3)
    (a addr : Nat) (q : List QEntry) {errs : List MemErr}
    (herr : ∃ e ∈ errs, e.mem = CoreMem.sdata ∧ e.word = a / 8 ∧ 2 < e.bits.length) :
    let p := memErrors c [.sdata] (errs.filter (fun e => e.word = a / 8)) (modCore c (fun k => { k with q0 := q }) s)
    p.2 = true ∧ stopsScalar (modCore c (engineHalt addr 0x21 eScalar) p.1) c addr ∧
      (getCore (modCore c (engineHalt addr 0x21 eScalar) p.1) c).s = (getCore s c).s := by
  intro p
  obtain ⟨e, he, hmem, hword, hbits⟩ := herr
  have hpop : getCore (modCore c (fun k => { k with q0 := q }) s) c = { getCore s c with q0 := q } := by
    rw [getCore_modCore_self _ _ hw]
  obtain ⟨hwf, hcore⟩ := erred_memErrors (c := c) (s := modCore c (fun k => { k with q0 := q }) s) (tableWf_tset _ _ hw)
    [.sdata] (errs.filter (fun e => e.word = a / 8))
  rw [hpop] at hcore
  have hstate : (getCore p.1 c).state = (getCore s c).state := by rw [hcore]
  have hregs : (getCore p.1 c).s = (getCore s c).s := by rw [hcore]
  obtain ⟨h1, h2, h3, h4, h5⟩ := getCore_engineHalt (c := c) hwf addr 0x21 eScalar (by rwa [hstate])
  refine ⟨memErrors_hard ⟨e, List.mem_filter.2 ⟨he, decide_eq_true hword⟩, by simp [hmem], hbits⟩, ⟨h1, h2, h3, h4, ?_⟩,
    h5.trans hregs⟩
  rw [getCore_modCore_self _ _ hwf]
  rfl

theorem bytesStored_mwrite {m : Mem} (h : memWf 0 m = true) (a : Nat) (bs : Bytes) : bytesStored m (mwrite 0 m a bs) a bs :=
  fun x => mget_mwrite a bs x h

/-- Settles O27: the head of the scalar queue reads or writes its word, and a hard error on that word stops the core. -/
theorem scalarLoadsAndStores : Obligations.ScalarLoadsAndStores := by
  unfold Obligations.ScalarLoadsAndStores
  intro s c hs hc
  simp only [exec_ld hs hc, exec_st hs hc]
  refine ⟨fun rd a at_ q hq hu => ⟨?load, ?loadOther⟩, fun a v at_ q hq hu hk => ⟨?store, ?storeOther⟩,
    fun a op at_ q errs hq hrun hu herr => ⟨fun rd hop => ?loadStops, fun v hop => ?storeStops⟩, fun hq errs => ⟨?loadEmpty, ?storeEmpty⟩⟩
  case load =>
    obtain ⟨hw, -⟩ := unitsWf_iff.1 hu
    rw [scalarLoad_of_head hq]
    simp only [List.filter_nil, memErrors_nil, Bool.false_eq_true, if_false]
    rw [modCore_modCore _ _ _ hw]
    rfl
  case loadOther => rw [scalarStore_of_other (by simp [hq])]
  case store =>
    obtain ⟨hw, -⟩ := unitsWf_iff.1 hu
    obtain ⟨-, -, -, hsdata, -⟩ := (Core.wf_iff _).1 hk
    refine ⟨_, poisonAfter (getCore s c).poisonD a (natLe 4 v.toNat).length false, ?_, bytesStored_mwrite hsdata a _⟩
    rw [scalarStore_of_head hq]
    simp only [List.filter_nil, memErrors_nil, Bool.false_eq_true, if_false]
    rw [modCore_modCore _ _ _ hw]
    rfl
  case storeOther => rw [scalarLoad_of_other (by simp [hq])]
  case loadStops =>
    subst hop
    obtain ⟨hbad, hstops, hregs⟩ := stopsScalar_of_hardError (unitsWf_iff.1 hu).1 hrun a at_ q herr
    refine ⟨_, rfl, ?_⟩
    rw [scalarLoad_of_head hq]
    simp only [hbad, if_true]
    exact ⟨hstops, hregs⟩
  case storeStops =>
    subst hop
    obtain ⟨hbad, hstops, hregs⟩ := stopsScalar_of_hardError (unitsWf_iff.1 hu).1 hrun a at_ q herr
    refine ⟨_, rfl, ?_⟩
    rw [scalarStore_of_head hq]
    simp only [hbad, if_true]
    exact ⟨hstops, hregs⟩
  case loadEmpty => rw [scalarLoad_of_other (by simp [hq])]
  case storeEmpty => rw [scalarStore_of_other (by simp [hq])]

/-! ### Holds and signals -/

theorem setHold_of_over {k : Core} {h : Hold} (ho : holdOver k h = true) : setHold h k = k := if_pos ho

theorem setHold_of_not_over {k : Core} {h : Hold} (ho : holdOver k h = false) : setHold h k = { k with hold := some h } :=
  if_neg (by rw [ho]; exact Bool.false_ne_true)

/-- Settles O28: the sync rows hold, release, signal, halt and take as their conditions say. -/
theorem syncRows : Obligations.SyncRows := by
  unfold Obligations.SyncRows
  intro s c i e n v hs hc
  have row : ∀ {f : Core → Core} {k : Core}, f (getCore s c) = k → actOn numCores c s (modCore c f) = .next (setCore s c k) :=
    fun hf => hf ▸ onCore_of_live hs hc _
  have waitq : e < 5 → n ≤ 16 → ∀ {k : Core}, setHold (.queue e n) (getCore s c) = k →
      exec (.waitq c e n) s = .next (setCore s c k) := fun he hn k hk => row (by rw [if_pos ⟨he, hn⟩, slotOr_nil, hk])
  refine ⟨fun h => row (setHold_of_over h), fun h => row (setHold_of_not_over h),
    fun he hn hd => waitq he hn (setHold_of_over (decide_eq_true hd)),
    fun he hn hd => waitq he hn (setHold_of_not_over (decide_eq_false (by omega))),
    fun hbad => row (by rw [if_neg hbad, slotOr_cons]; rfl), fun h => row (setHold_of_over h), fun h => row (setHold_of_not_over h),
    fun h hh ho => row ?released, fun h hh ho => row ?stillHeld, fun hh => row ?notHeld, actOn_of_live hs hc _, row rfl, row rfl⟩
  case released => simp only [syncRelease, hh, ho, if_true]
  case stillHeld => simp only [syncRelease, hh, ho, Bool.false_eq_true, if_false]
  case notHeld => simp only [syncRelease, hh]

/-! ### Halt requests, and the record of an error -/

theorem resume_of_halted {k : Core} (step : Bool) (h2 : k.state = 2) (hlo : 0x10 ≤ k.haltCode) (hhi : k.haltCode ≤ 0x14)
    (hs : k.saving = false) (hr : k.restoring = false) :
    resume step k = { k with state := 1, stepping := step, skipTag := true, cntDue := false, haltReq := false } :=
  if_pos (by simp [h2, hlo, hhi, hs, hr, resumable])

theorem resume_of_other {k : Core} (step : Bool)
    (h : ¬ (k.state = 2 ∧ 0x10 ≤ k.haltCode ∧ k.haltCode ≤ 0x14 ∧ k.saving = false ∧ k.restoring = false)) :
    resume step k = k :=
  if_neg (fun hp => h (by simpa [resumable, and_assoc] using hp))

theorem wordPoison_setPoisonBit (m : CoreMem) (w : Nat) (k : Core) : wordPoison m (setPoisonBit m w k) w = true := by
  have h : ∀ l : List Nat, (sortBy id (dedup (l ++ [w]))).contains w = true := fun l => by
    rw [List.contains_iff_mem, mem_sortBy, mem_dedup]
    simp
  cases m <;> exact h _

theorem recordMemErr_poison (m n : CoreMem) (w x : Nat) (k : Core) :
    wordPoison n (recordMemErr m w k) x = wordPoison n k x := by
  unfold recordMemErr
  split
  · rfl
  · cases n <;> simp only [wordPoison]

theorem recordMemErr_memErr (m : CoreMem) (w : Nat) (k : Core) : (recordMemErr m w k).memErr =
    if bitOf k.memErr.toNat 31 then k.memErr else BitVec.ofNat 32 (w + coreMemCode m * 2 ^ 16 + 2 ^ 31) :=
  apply_ite Core.memErr _ _ _

theorem setPoisonBit_damageWord_memErr (e : MemErr) (k : Core) :
    (setPoisonBit e.mem e.word (damageWord e k)).memErr = k.memErr := by
  unfold setPoisonBit damageWord
  cases e.mem <;> rfl

theorem memErrorCore_of_hard {e : MemErr} (h : 2 < e.bits.length) (k : Core) :
    memErrorCore e k = recordMemErr e.mem e.word (setPoisonBit e.mem e.word (damageWord e k)) := if_pos (decide_eq_true h)

/-- An error of more than two bits poisons its word, counts as a fault, and is recorded unless a record stands. -/
theorem memError_of_hard (hw : tableWf {} s.cores = true) {e : MemErr} (h : 2 < e.bits.length) :
    let t := memError c e s
    wordPoison e.mem (getCore t c) e.word = true ∧ tget 0 t.faultCnt 0x01 = satInc (tget 0 s.faultCnt 0x01) 1 ∧
      (getCore t c).memErr = if bitOf (getCore s c).memErr.toNat 31 then (getCore s c).memErr
        else BitVec.ofNat 32 (e.word + coreMemCode e.mem * 2 ^ 16 + 2 ^ 31) := by
  refine ⟨?_, ?_, ?_⟩
  · rw [getCore_memError hw, memErrorCore_of_hard h, recordMemErr_poison, wordPoison_setPoisonBit]
  · have hhard : hardError e = true := decide_eq_true h
    rw [memError, if_pos hhard, raise_count _ _ _ _ _ _ (by decide)]
    rfl
  · rw [getCore_memError hw, memErrorCore_of_hard h, recordMemErr_memErr, setPoisonBit_damageWord_memErr]

/-- An engine that meets a hard error halts its core (R104, R490). -/
theorem engineErrs_of_hard (hw : tableWf {} s.cores = true) (addr engine : Nat) {errs : List MemErr}
    (hrun : (getCore s c).state = 1 ∨ (getCore s c).state = 3) (herr : ∃ e ∈ errs, e.mem ≠ CoreMem.prog ∧ 2 < e.bits.length) :
    let t := (engineErrs c addr engine errs s).1
    (engineErrs c addr engine errs s).2 = true ∧ (getCore t c).state = 2 ∧ (getCore t c).haltCode = 0x21 ∧
      (getCore t c).haltAddr = addr ∧ (getCore t c).haltEngine = engine := by
  obtain ⟨e, he, hmem, hbits⟩ := herr
  have hbad : (memErrors c [.scratch, .acc, .sdata] errs s).2 = true :=
    memErrors_hard ⟨e, he, by cases hm : e.mem <;> simp [hm] at hmem ⊢, hbits⟩
  obtain ⟨hwf, hcore⟩ := erred_memErrors (c := c) hw [.scratch, .acc, .sdata] errs
  have hstate : (getCore (memErrors c [.scratch, .acc, .sdata] errs s).1 c).state = (getCore s c).state := by rw [hcore]
  have heq : engineErrs c addr engine errs s =
      (modCore c (engineHalt addr 0x21 engine) (memErrors c [.scratch, .acc, .sdata] errs s).1, true) := by
    simp only [engineErrs, hbad, if_true]
  obtain ⟨h1, h2, h3, h4, -⟩ := getCore_engineHalt (c := c) hwf addr 0x21 engine (by rwa [hstate])
  rw [heq]
  exact ⟨rfl, h1, h2, h3, h4⟩

/-- Settles O29: halt requests, resumes, bit errors and the first halt that a core latches. -/
theorem coreControlRows : Obligations.CoreControlRows := by
  unfold Obligations.CoreControlRows
  refine ⟨fun s c hs hc => ?_, fun k a code e => ⟨haltCore_of_running a code e, haltCore_of_halted a code e,
    haltCore_of_reset a code e⟩⟩
  have row : ∀ {f : Core → Core} {k : Core}, f (getCore s c) = k → actOn numCores c s (modCore c f) = .next (setCore s c k) :=
    fun hf => hf ▸ onCore_of_live hs hc _
  refine ⟨fun h => row (if_pos h), fun h => row (if_neg h),
    fun h2 hlo hhi hsv hr => ⟨row (resume_of_halted _ h2 hlo hhi hsv hr), row (resume_of_halted _ h2 hlo hhi hsv hr)⟩,
    fun h => ⟨row (resume_of_other _ h), row (resume_of_other _ h)⟩, row rfl, fun e h => ?soft, fun e h hu => ?hard,
    fun addr engine errs hrun hu herr => engineErrs_of_hard (unitsWf_iff.1 hu).1 addr engine hrun herr⟩
  case soft => exact if_neg (by simp [hardError]; omega)
  case hard =>
    obtain ⟨hpoison, hcount, hrecord⟩ := memError_of_hard (c := c) (unitsWf_iff.1 hu).1 h
    exact ⟨hpoison, hcount, fun hb => by rw [hrecord, hb]; rfl, fun hb => by rw [hrecord, if_pos hb]⟩

end Sys2Proof.Machine
end

section
/-! Issue of a long word (13 R464 to R494). -/

namespace Sys2Proof.Machine

variable {s : State} {c : Nat}

/-! ### Halts at issue -/

/-- The first of the conditions found at a word halts the core at its address; with none the state stays. -/
def haltFirst (c : Nat) (fs : List (Nat × Nat)) (s : State) : State :=
  match fs with
  | [] => s
  | f :: rest => modCore c (fun k => haltCore k.pc f.1 f.2 { k with more := k.more || !rest.isEmpty }) s

theorem haltsHere_haltFirst (hw : tableWf {} s.cores = true) (hrun : (getCore s c).state = 1) (code e : Nat)
    (rest : List (Nat × Nat)) : haltsHere s (haltFirst c ((code, e) :: rest) s) c code e := by
  have hself := getCore_modCore_self c (fun k => haltCore k.pc code e { k with more := k.more || !rest.isEmpty }) hw
  refine ⟨rfl, fun x hx => by rw [haltFirst, getCore_modCore _ _ _ _ hw, if_neg hx], ?_⟩
  have hhalt := haltCore_of_running (k := { getCore s c with more := (getCore s c).more || !rest.isEmpty }) (getCore s c).pc
    code e (.inl hrun)
  rw [haltFirst, hself, hhalt]

/-- The halt request and the count breakpoint that stand on a core. -/
def stopsDue (k : Core) : List (Nat × Nat) :=
  (if k.haltReq then [(0x13, eNone)] else []) ++ (if k.cntDue then [(0x10, eNone)] else [])

theorem stopsDue_eq_nil {k : Core} (hr : k.haltReq = false) (hd : k.cntDue = false) : stopsDue k = [] := by
  simp [stopsDue, hr, hd]

theorem stopsDue_eq_cons {k : Core} {code : Nat}
    (h : (k.haltReq = true ∧ code = 0x13) ∨ (k.haltReq = false ∧ k.cntDue = true ∧ code = 0x10)) :
    ∃ rest, stopsDue k = (code, 0xF) :: rest := by
  rcases h with ⟨hr, rfl⟩ | ⟨hr, hd, rfl⟩
  · exact ⟨_, by rw [stopsDue, if_pos hr]; rfl⟩
  · exact ⟨[], by simp [stopsDue, hr, hd, eNone]⟩

/-! ### What issue finds -/

theorem longWord_of_not_running (h : (getCore s c).state ≠ 1) (errs : List MemErr) : longWord c errs s = s := if_pos h

theorem longWord_of_held (h : (getCore s c).state = 1) (hh : (getCore s c).hold ≠ none) (errs : List MemErr) :
    longWord c errs s = haltFirst c (stopsDue (getCore s c)) s := by
  unfold longWord
  simp only
  rw [if_neg (not_not_intro h), if_pos (Option.isSome_iff_ne_none.2 hh)]
  rfl

/-- The tag breakpoint that stands on a word. -/
def tagDue (k : Core) (w : LWord) : List (Nat × Nat) :=
  if k.brkTagEn && !k.skipTag && decide (w.tag = some k.brkTag) then [(0x11, eNone)] else []

/-- What is found of a word before its slots: fetch conditions, then the stops, then the tag breakpoint. -/
def foundFirst (k : Core) (w : LWord) : List (Nat × Nat) :=
  let fetch := (fetchFaults k w false).map (fun f => (f, eNone))
  fetch ++ stopsDue k ++ (if fetch.isEmpty then tagDue k w else [])

/-- What is found of a word's slots, once it has been fetched. -/
def foundSlots (s : State) (k : Core) (w : LWord) : List (Nat × Nat) :=
  if ((fetchFaults k w false).map (fun f => (f, eNone))).isEmpty then issueFaults s k { k with pc := w.addr + w.len } w else []

theorem longWord_of_free (h : (getCore s c).state = 1) (hh : (getCore s c).hold = none) : longWord c [] s =
    let k := getCore s c
    let w := readWord k k.pc
    let first := foundFirst k w
    let issue := foundSlots s k w
    if !first.isEmpty then haltFirst c (first ++ (lowest issue).toList) s
    else if interlocked w && !k.q0.isEmpty then s
    else match lowest issue with
      | some f => haltFirst c (f :: issue.tail) s
      | none => issueWord c w s := by
  unfold longWord
  simp only
  rw [if_neg (not_not_intro h), hh, if_neg (by simp)]
  rfl

/-- A word of which something is found before its slots halts the core with the first of it. -/
theorem longWord_of_first (hw : tableWf {} s.cores = true) (h : (getCore s c).state = 1) (hh : (getCore s c).hold = none)
    {code : Nat} {rest : List (Nat × Nat)} (hf : foundFirst (getCore s c) (readWord (getCore s c) (getCore s c).pc) =
      (code, 0xF) :: rest) : haltsHere s (longWord c [] s) c code 0xF := by
  rw [longWord_of_free h hh]
  simp only [hf, List.isEmpty_cons, Bool.not_false, if_true, List.cons_append]
  exact haltsHere_haltFirst hw h ..

theorem fetchFaults_past {k : Core} {w : LWord} (h : k.progLen ≤ w.addr ∨ k.progLen < w.addr + w.len) :
    ∃ rest, fetchFaults k w false = 0x0E :: rest := ⟨_, by rw [fetchFaults, if_pos h]; rfl⟩

theorem fetchFaults_inside {k : Core} {w : LWord} (h1 : w.addr + w.len ≤ k.progLen) (h2 : w.addr < k.progLen) :
    fetchFaults k w false = if anyPoison k.poisonP w.addr w.len then [0x23] else [] := by
  rw [fetchFaults, if_neg (by omega)]
  rfl

theorem foundFirst_of_fetch {k : Core} {w : LWord} {code : Nat} {rest : List Nat} (h : fetchFaults k w false = code :: rest) :
    ∃ rest', foundFirst k w = (code, 0xF) :: rest' := ⟨_, by rw [foundFirst, h]; rfl⟩

theorem foundFirst_of_fetched {k : Core} {w : LWord} (h : fetchFaults k w false = []) :
    foundFirst k w = stopsDue k ++ tagDue k w := by
  rw [foundFirst, h]
  rfl

theorem foundSlots_of_fetched {k : Core} {w : LWord} (h : fetchFaults k w false = []) :
    foundSlots s k w = issueFaults s k { k with pc := w.addr + w.len } w := by
  rw [foundSlots, h]
  rfl

theorem lowest_nil : lowest [] = none := rfl

/-! ### A word that issues -/

/-- The slots of a word that is read are of different engines. -/
theorem slots_nodup (k : Core) (a : Nat) : ((readWord k a).slots.map (·.1)).Nodup := by
  have h : ((readWord k a).slots.map (·.1)) =
      ((List.range 6).filter (fun i => bitOf (numAt (progRead k a 2) 0 2) i)) := by
    simp only [readWord, List.map_map]
    exact List.zipIdx_map_fst ..
  rw [h]
  exact List.nodup_range.filter _

theorem countP_eq_slot {w : LWord} (h : (w.slots.map (·.1)).Nodup) (e : Nat) :
    w.slots.countP (fun p => p.1 == e) = b2n (w.slot e).isSome := by
  unfold LWord.slot
  generalize w.slots = l at h
  induction l with
  | nil => rfl
  | cons p l ih =>
    obtain ⟨hp, hl⟩ := List.nodup_cons.1 h
    rw [List.countP_cons, List.find?_cons]
    by_cases hpe : p.1 = e
    · have hnone : l.countP (fun p => p.1 == e) = 0 :=
        List.countP_eq_zero.2 fun q hq => by
          rw [beq_iff_eq]
          exact fun hqe => hp (List.mem_map.2 ⟨q, hq, hqe.trans hpe.symm⟩)
      simp [hpe, hnone, b2n]
    · have hpe' : (p.1 == e) = false := beq_eq_false_iff_ne.2 hpe
      simp [hpe', ih hl]

/-- What issue of scalar and sync slots leaves of a core: its engines' queues, its program and scratchpad and its issue count. -/
def keepsEngines (k j : Core) : Prop :=
  (j.q1 = k.q1 ∧ j.q2 = k.q2 ∧ j.q3 = k.q3 ∧ j.q4 = k.q4) ∧ j.scratch = k.scratch ∧ j.prog = k.prog ∧ j.issueCnt = k.issueCnt

theorem keepsEngines_refl (k : Core) : keepsEngines k k := ⟨⟨rfl, rfl, rfl, rfl⟩, rfl, rfl, rfl⟩

theorem keepsEngines_trans {a b d : Core} (h1 : keepsEngines a b) (h2 : keepsEngines b d) : keepsEngines a d := by
  obtain ⟨⟨a1, a2, a3, a4⟩, a5, a6, a7⟩ := h1
  obtain ⟨⟨b1, b2, b3, b4⟩, b5, b6, b7⟩ := h2
  exact ⟨⟨b1.trans a1, b2.trans a2, b3.trans a3, b4.trans a4⟩, b5.trans a5, b6.trans a6, b7.trans a7⟩

theorem keepsEngines_setS (rd : Nat) (v : U32) (k : Core) : keepsEngines k (setS rd v k) := by
  unfold setS
  split <;> exact keepsEngines_refl _

theorem keepsEngines_haltCore (a code e : Nat) (k : Core) : keepsEngines k (haltCore a code e k) := by
  unfold haltCore
  repeat' split
  all_goals exact keepsEngines_refl _

theorem keepsEngines_setHold (h : Hold) (k : Core) : keepsEngines k (setHold h k) := by
  unfold setHold
  split <;> exact keepsEngines_refl _

theorem keepsEngines_openLoop (l n e : Nat) (k : Core) : keepsEngines k (openLoop l n e k) := by
  unfold openLoop
  simp only
  split <;> exact keepsEngines_refl _

theorem keepsEngines_branch (r : Nat) (b : Bool) (o : BitVec 13) (k : Core) : keepsEngines k (branch r b o k) := by
  unfold branch
  split <;> exact keepsEngines_refl _

theorem keepsEngines_loopEnds (k : Core) : keepsEngines k (loopEnds k) := by
  unfold loopEnds
  simp only
  split <;> exact keepsEngines_refl _

theorem keepsEngines_scApply (addr w : Nat) (k : Core) : keepsEngines k (scApply addr w k) := by
  unfold scApply
  simp only
  split
  case h_20 => exact keepsEngines_openLoop ..
  case h_21 => exact keepsEngines_branch ..
  case h_18 | h_19 | h_22 | h_23 | h_24 | h_25 | h_28 | h_29 => exact keepsEngines_refl _
  all_goals exact keepsEngines_setS ..

theorem isSome_entryOf (k : Core) (x : Nat) : (entryOf k 1 x).isSome ∧ (entryOf k 2 x).isSome ∧ (entryOf k 3 x).isSome ∧
    (entryOf k 4 x).isSome := by
  unfold entryOf
  refine ⟨rfl, ?_, ?_, ?_⟩ <;> simp only <;> split <;> rfl

/-- An engine slot adds one entry to its engine's queue, and changes nothing else. -/
theorem enqueue_cases (addr : Nat) (old k : Core) (e x : Nat) : ∃ o : QEntry, enqueue addr old k (e, x) =
    if e = 1 then { k with q1 := k.q1 ++ [o] } else if e = 2 then { k with q2 := k.q2 ++ [o] }
    else if e = 3 then { k with q3 := k.q3 ++ [o] } else if e = 4 then { k with q4 := k.q4 ++ [o] } else k := by
  obtain ⟨h1, h2, h3, h4⟩ := isSome_entryOf old x
  by_cases e1 : e = 1
  · subst e1
    exact ⟨_, by rw [enqueue, (Option.some_get h1).symm]; rfl⟩
  by_cases e2 : e = 2
  · subst e2
    exact ⟨_, by rw [enqueue, (Option.some_get h2).symm]; rfl⟩
  by_cases e3 : e = 3
  · subst e3
    exact ⟨_, by rw [enqueue, (Option.some_get h3).symm]; rfl⟩
  by_cases e4 : e = 4
  · subst e4
    exact ⟨_, by rw [enqueue, (Option.some_get h4).symm]; rfl⟩
  · refine ⟨⟨.ld 0 0, 0⟩, ?_⟩
    rw [if_neg e1, if_neg e2, if_neg e3, if_neg e4]
    unfold enqueue
    split <;> simp_all

/-- Each engine slot adds one entry to its engine's queue. -/
theorem foldl_enqueue_lengths (addr : Nat) (old k : Core) (l : List (Nat × Nat)) :
    let j := l.foldl (enqueue addr old) k
    (j.q1.length = k.q1.length + l.countP (fun p => p.1 == 1) ∧ j.q2.length = k.q2.length + l.countP (fun p => p.1 == 2) ∧
      j.q3.length = k.q3.length + l.countP (fun p => p.1 == 3) ∧ j.q4.length = k.q4.length + l.countP (fun p => p.1 == 4)) ∧
    j.scratch = k.scratch ∧ j.prog = k.prog ∧ j.issueCnt = k.issueCnt := by
  induction l generalizing k with
  | nil => exact ⟨⟨rfl, rfl, rfl, rfl⟩, rfl, rfl, rfl⟩
  | cons p l ih =>
    obtain ⟨e, x⟩ := p
    obtain ⟨o, ho⟩ := enqueue_cases addr old k e x
    obtain ⟨⟨h1, h2, h3, h4⟩, h5, h6, h7⟩ := ih (enqueue addr old k (e, x))
    simp only [List.foldl_cons, List.countP_cons]
    rw [h1, h2, h3, h4, h5, h6, h7, ho]
    by_cases e1 : e = 1
    · subst e1
      simp
      omega
    by_cases e2 : e = 2
    · subst e2
      simp
      omega
    by_cases e3 : e = 3
    · subst e3
      simp
      omega
    by_cases e4 : e = 4
    · subst e4
      simp
      omega
    · simp [e1, e2, e3, e4]

/-- From `s` to `t` core `c` keeps its engines, and every other core and host memory stay. -/
def keepsCores (c : Nat) (s t : State) : Prop :=
  tableWf {} t.cores = true ∧ keepsEngines (getCore s c) (getCore t c) ∧ (∀ x, x ≠ c → getCore t x = getCore s x) ∧ t.host = s.host

theorem keepsCores_modCore (hw : tableWf {} s.cores = true) {f : Core → Core} (hf : ∀ k, keepsEngines k (f k)) :
    keepsCores c s (modCore c f s) :=
  ⟨tableWf_tset _ _ hw, by rw [getCore_modCore_self _ _ hw]; exact hf _,
    fun x hx => by rw [getCore_modCore _ _ _ _ hw, if_neg hx], rfl⟩

theorem keepsCores_signal (hw : tableWf {} s.cores = true) (v : U16) : keepsCores c s (signal c v s) :=
  keepsCores_modCore (f := fun k => { k with sigVal := v.toNat, sigCnt := (k.sigCnt + 1) % 2 ^ 16 }) hw
    fun k => keepsEngines_refl k

theorem keepsCores_syncApply (hw : tableWf {} s.cores = true) (addr x : Nat) : keepsCores c s (syncApply c addr x s) := by
  unfold syncApply
  split
  · exact keepsCores_modCore hw (keepsEngines_setHold _)
  · exact keepsCores_modCore hw (keepsEngines_setHold _)
  · exact keepsCores_modCore hw (keepsEngines_setHold _)
  · exact keepsCores_signal hw _
  · exact keepsCores_modCore hw (keepsEngines_haltCore _ _ _)
  · exact keepsCores_modCore hw fun k => keepsEngines_refl k
  · exact ⟨hw, keepsEngines_refl _, fun _ _ => rfl, rfl⟩

/-- The core after the engine and scalar slots and the loop end of a word have issued. -/
def issuedCore (k : Core) (w : LWord) : Core :=
  let k2 := w.slots.foldl (enqueue w.addr k) (countEvent evIssue { k with pc := w.addr + w.len })
  let k3 := match w.slot eScalar with
    | some x => if scOp x = 0x28 then setS (scRd x) (tget 0 k.cnt (field x 13 11)) k2 else scApply w.addr x k2
    | none => k2
  if w.loopEnd then loopEnds k3 else k3

/-- The state after the sync slot of a word, if it has one. -/
def syncIssued (c : Nat) (w : LWord) (s : State) : State :=
  match w.slot eSync with
  | some x => syncApply c w.addr x s
  | none => s

theorem issueWord_eq (c : Nat) (w : LWord) (s : State) :
    issueWord c w s = modCore c afterIssue (syncIssued c w (setCore s c (issuedCore (getCore s c) w))) := rfl

theorem keepsEngines_issuedCore (k : Core) (w : LWord) :
    keepsEngines (w.slots.foldl (enqueue w.addr k) (countEvent evIssue { k with pc := w.addr + w.len })) (issuedCore k w) := by
  unfold issuedCore
  extract_lets k2 k3
  have h3 : keepsEngines k2 k3 := by
    simp only [k3]
    split
    · split
      · exact keepsEngines_setS ..
      · exact keepsEngines_scApply ..
    · exact keepsEngines_refl _
  split
  · exact keepsEngines_trans h3 (keepsEngines_loopEnds _)
  · exact h3

theorem keepsCores_syncIssued (hw : tableWf {} s.cores = true) (w : LWord) : keepsCores c s (syncIssued c w s) := by
  unfold syncIssued
  split
  · exact keepsCores_syncApply hw ..
  · exact ⟨hw, keepsEngines_refl _, fun _ _ => rfl, rfl⟩

/-- The end of issue counts the word and leaves the queues and the memories. -/
theorem afterIssue_counts (k : Core) : (afterIssue k).issueCnt = (k.issueCnt + 1) % 2 ^ 48 ∧
    ((afterIssue k).q1 = k.q1 ∧ (afterIssue k).q2 = k.q2 ∧ (afterIssue k).q3 = k.q3 ∧ (afterIssue k).q4 = k.q4) ∧
    (afterIssue k).scratch = k.scratch ∧ (afterIssue k).prog = k.prog := by
  unfold afterIssue
  extract_lets n due k1 more
  have h1 : k1.issueCnt = (k.issueCnt + 1) % 2 ^ 48 ∧ (k1.q1 = k.q1 ∧ k1.q2 = k.q2 ∧ k1.q3 = k.q3 ∧ k1.q4 = k.q4) ∧
      k1.scratch = k.scratch ∧ k1.prog = k.prog := ⟨rfl, ⟨rfl, rfl, rfl, rfl⟩, rfl, rfl⟩
  split
  · obtain ⟨⟨a1, a2, a3, a4⟩, a5, a6, a7⟩ := keepsEngines_haltCore k1.pc
      (if k1.haltReq then 0x13 else if due then 0x10 else 0x14) eNone { k1 with more := k1.more || more }
    exact ⟨a7, ⟨a1, a2, a3, a4⟩, a5, a6⟩
  · exact h1

/-- What issue of a word whose slots are of different engines leaves. -/
theorem issueWord_leaves (hw : tableWf {} s.cores = true) {w : LWord} (hslots : (w.slots.map (·.1)).Nodup) :
    let k := getCore s c
    let t := issueWord c w s
    (getCore t c).issueCnt = (k.issueCnt + 1) % 2 ^ 48 ∧
    (getCore t c).q1.length = k.q1.length + b2n (w.slot 1).isSome ∧
    (getCore t c).q2.length = k.q2.length + b2n (w.slot 2).isSome ∧
    (getCore t c).q3.length = k.q3.length + b2n (w.slot 3).isSome ∧
    (getCore t c).q4.length = k.q4.length + b2n (w.slot 4).isSome ∧
    (getCore t c).scratch = k.scratch ∧ (getCore t c).prog = k.prog ∧
    (∀ x, x ≠ c → getCore t x = getCore s x) ∧ t.host = s.host := by
  intro k t
  have hw1 : tableWf {} (setCore s c (issuedCore k w)).cores = true := tableWf_tset _ _ hw
  obtain ⟨hw2, hsync, hothers, hhost⟩ := keepsCores_syncIssued (c := c) hw1 w
  rw [getCore_setCore _ _ _ _ hw, if_pos rfl] at hsync
  obtain ⟨⟨q1, q2, q3, q4⟩, hscr, hprog, hcnt⟩ := keepsEngines_trans (keepsEngines_issuedCore k w) hsync
  obtain ⟨⟨n1, n2, n3, n4⟩, mscr, mprog, mcnt⟩ :=
    foldl_enqueue_lengths w.addr k (countEvent evIssue { k with pc := w.addr + w.len }) w.slots
  simp only [countP_eq_slot hslots] at n1 n2 n3 n4
  have hself : getCore t c = afterIssue (getCore (syncIssued c w (setCore s c (issuedCore k w))) c) := by
    rw [← getCore_modCore_self c afterIssue hw2]
    rfl
  obtain ⟨hissue, ⟨a1, a2, a3, a4⟩, ascr, aprog⟩ := afterIssue_counts (getCore (syncIssued c w (setCore s c (issuedCore k w))) c)
  rw [← hself] at hissue a1 a2 a3 a4 ascr aprog
  refine ⟨by rw [hissue, hcnt, mcnt]; rfl, by rw [a1, q1, n1]; rfl, by rw [a2, q2, n2]; rfl, by rw [a3, q3, n3]; rfl,
    by rw [a4, q4, n4]; rfl, by rw [ascr, hscr, mscr]; rfl, by rw [aprog, hprog, mprog]; rfl, fun x hx => ?_, hhost⟩
  calc getCore t x = getCore (syncIssued c w (setCore s c (issuedCore k w))) x :=
        (getCore_modCore _ _ _ _ hw2).trans (if_neg hx)
    _ = getCore (setCore s c (issuedCore k w)) x := hothers x hx
    _ = getCore s x := by rw [getCore_setCore _ _ _ _ hw, if_neg hx]

theorem exec_longWordIssue (hs : live s = true) (hc : c < 2304) (errs : List MemErr) :
    exec (.longWordIssue c errs) s = .next (longWord c errs s) := actOn_of_live hs hc _

/-- Settles O30: a word issues whole, or the core halts with the lowest code, or it waits. -/
theorem longWordIssuesWholeOrHalts : Obligations.LongWordIssuesWholeOrHalts := by
  unfold Obligations.LongWordIssuesWholeOrHalts
  intro s c hs hc hu
  obtain ⟨hw, -⟩ := unitsWf_iff.1 hu
  simp only [exec_longWordIssue hs hc]
  refine ⟨fun h errs => by rw [longWord_of_not_running h], fun h hh errs => ⟨fun hr hd => ?held, fun code hdue => ?heldHalts⟩,
    fun h hh => ⟨fun hpast => ?past, fun hend hstart => ⟨fun hp => ?poison, fun hp => ?fetched⟩⟩⟩
  case held => rw [longWord_of_held h hh, stopsDue_eq_nil hr hd]; rfl
  case heldHalts =>
    obtain ⟨rest, hstops⟩ := stopsDue_eq_cons hdue
    exact ⟨_, rfl, by rw [longWord_of_held h hh, hstops]; exact haltsHere_haltFirst hw h ..⟩
  case past =>
    obtain ⟨rest, hf⟩ := fetchFaults_past hpast
    obtain ⟨rest', hf'⟩ := foundFirst_of_fetch hf
    exact ⟨_, rfl, longWord_of_first hw h hh hf'⟩
  case poison =>
    obtain ⟨rest', hf'⟩ := foundFirst_of_fetch ((fetchFaults_inside hend hstart).trans (if_pos hp))
    exact ⟨_, rfl, longWord_of_first hw h hh hf'⟩
  case fetched =>
    have hfetch := (fetchFaults_inside hend hstart).trans (if_neg (by rw [hp]; exact Bool.false_ne_true))
    refine ⟨fun code hdue => ?stops, fun hr hd => ⟨fun htag hskip hbrk => ?tag, fun hno => ?noTag⟩⟩
    case stops =>
      obtain ⟨rest, hstops⟩ := stopsDue_eq_cons hdue
      exact ⟨_, rfl, longWord_of_first hw h hh (by rw [foundFirst_of_fetched hfetch, hstops]; rfl)⟩
    case tag =>
      refine ⟨_, rfl, longWord_of_first (rest := []) hw h hh ?_⟩
      rw [foundFirst_of_fetched hfetch, stopsDue_eq_nil hr hd, tagDue, if_pos (by simp [htag, hskip, hbrk])]
      rfl
    case noTag =>
      have hfirst : foundFirst (getCore s c) (readWord (getCore s c) (getCore s c).pc) = [] := by
        rw [foundFirst_of_fetched hfetch, stopsDue_eq_nil hr hd, tagDue, if_neg]
        · rfl
        · rcases hno with hno | hno | hno <;> simp [hno]
      have heq := longWord_of_free h hh
      simp only [hfirst, List.isEmpty_nil, Bool.not_true, Bool.false_eq_true, if_false, foundSlots_of_fetched hfetch] at heq
      refine ⟨fun hlock => by rw [heq, if_pos hlock], fun hlock => ?_⟩
      rw [hlock, if_neg Bool.false_ne_true] at heq
      rw [heq]
      refine ⟨fun code e hlow => ⟨_, rfl, ?_⟩, fun hnone => ⟨_, rfl, ?_⟩⟩
      · rw [hlow]
        exact haltsHere_haltFirst hw h ..
      · rw [hnone]
        exact issueWord_leaves hw (slots_nodup ..)

end Sys2Proof.Machine
end

section
/-! The rows of the matrix engine (03_cores_and_engines.md; 02; 13 R470). -/

namespace Sys2Proof.Machine

variable {s : State} {c : Nat}

/-! ### Counters -/

/-- The counters `t` with one added below `n` at each that counts `src`. -/
def bumped (srcs : List (Nat × Nat)) (src n : Nat) (t : List (Nat × U32)) : List (Nat × U32) :=
  (List.range n).foldl (fun t i => if tget 0 srcs i = src then tset 0 t i (tget 0 t i + 1) else t) t

theorem countEvent_cnt (src : Nat) (k : Core) : (countEvent src k).cnt = bumped k.cntSrc src 8 k.cnt := rfl

theorem bumped_succ (srcs : List (Nat × Nat)) (src n : Nat) (t : List (Nat × U32)) : bumped srcs src (n + 1) t =
    if tget 0 srcs n = src then tset 0 (bumped srcs src n t) n (tget 0 (bumped srcs src n t) n + 1) else bumped srcs src n t := by
  rw [bumped, List.range_succ, List.foldl_append]
  rfl

theorem tget_bumped {t : List (Nat × U32)} (ht : tableWf 0 t = true) (srcs : List (Nat × Nat)) (src n : Nat) :
    tableWf 0 (bumped srcs src n t) = true ∧
      ∀ i, tget 0 (bumped srcs src n t) i = tget 0 t i + (if i < n ∧ tget 0 srcs i = src then 1 else 0) := by
  induction n with
  | zero => exact ⟨ht, fun i => by simp [bumped]⟩
  | succ n ih =>
    obtain ⟨hwf, hget⟩ := ih
    rw [bumped_succ]
    by_cases hn : tget 0 srcs n = src
    · rw [if_pos hn]
      refine ⟨tableWf_tset _ _ hwf, fun i => ?_⟩
      rw [tget_tset _ _ _ hwf]
      by_cases hin : i = n
      · subst hin
        rw [if_pos rfl, hget, if_neg (by omega), if_pos ⟨by omega, hn⟩,
          show tget 0 t i + 0 = tget 0 t i from BitVec.add_zero _]
      · rw [if_neg hin, hget]
        simp only [show i < n + 1 ↔ i < n by omega]
    · rw [if_neg hn]
      refine ⟨hwf, fun i => ?_⟩
      rw [hget]
      by_cases hin : i = n
      · subst hin
        rw [if_neg (by omega), if_neg fun h => hn h.2]
      · simp only [show i < n + 1 ↔ i < n by omega]

theorem tget_countEvent {k : Core} (hk : tableWf 0 k.cnt = true) (src : Nat) {i : Nat} (hi : i < 8) :
    tget 0 (countEvent src k).cnt i = tget 0 k.cnt i + (if tget 0 k.cntSrc i = src then 1 else 0) := by
  rw [countEvent_cnt, (tget_bumped hk ..).2]
  simp only [hi, true_and]

/-! ### What the operations leave of a core -/

/-- From `k` to `j` only the accumulators, their poison and the tiles' status change. -/
def tiled (k j : Core) : Prop := j = { k with acc := j.acc, poisonA := j.poisonA, tile := j.tile }

theorem tiled_trans {a b d : Core} (h1 : tiled a b) (h2 : tiled b d) : tiled a d := by
  unfold tiled at *
  rw [h2, h1]

theorem tiled_foldl {α : Type} {f : Core → α → Core} (hf : ∀ k x, tiled k (f k x)) (l : List α) (k : Core) :
    tiled k (l.foldl f k) := by
  induction l generalizing k with
  | nil => rfl
  | cons x l ih => exact tiled_trans (hf k x) (ih _)

theorem tiled_setTile (t : Nat) (v : U64) (k : Core) : tiled k (setTile t v k) := rfl

theorem tiled_accWrite (a : Nat) (bs : Bytes) (bad : Bool) (k : Core) : tiled k (accWrite a bs bad k) := rfl

theorem tiled_macInt (t : Nat) (a b : Desc) (k : Core) : tiled k (macInt t a b k) :=
  tiled_trans (tiled_foldl (fun _ _ => tiled_accWrite ..) _ k) (tiled_setTile ..)

theorem tiled_macFloat (t : Nat) (a b : Desc) (k : Core) : tiled k (macFloat t a b k) :=
  tiled_trans (tiled_foldl (fun _ _ => tiled_accWrite ..) _ k) (tiled_setTile ..)

theorem tiled_preloadTile (t : Nat) (d : Desc) (k : Core) : tiled k (preloadTile t d k) :=
  tiled_trans (tiled_foldl (fun _ _ => tiled_accWrite ..) _ k) (tiled_setTile ..)

/-- From `k` to `j` only the scratchpad and its poison change. -/
def scratched (k j : Core) : Prop := j = { k with scratch := j.scratch, poisonS := j.poisonS }

theorem scratched_trans {a b d : Core} (h1 : scratched a b) (h2 : scratched b d) : scratched a d := by
  unfold scratched at *
  rw [h2, h1]

theorem scratched_foldl {α : Type} {f : Core → α → Core} (hf : ∀ k x, scratched k (f k x)) (l : List α) (k : Core) :
    scratched k (l.foldl f k) := by
  induction l generalizing k with
  | nil => rfl
  | cons x l ih => exact scratched_trans (hf k x) (ih _)

theorem scratched_put (d : Desc) (r i v : Nat) (bad : Bool) (k : Core) : scratched k (d.put r i v bad k) := by
  unfold Desc.put
  split
  rfl

theorem scratched_statsRow (t : Nat) (a : Desc) (old k : Core) (i : Nat) : scratched k (statsRow t a old k i) :=
  scratched_trans (scratched_put ..) (scratched_put ..)

/-- What a drain does before it clears: it writes the scratchpad only. -/
def drainedCore (t : Nat) (a d : Desc) (stats : Bool) (k : Core) : Core :=
  let k1 := (tilePlaces k.layout).foldl (fun x p =>
    let e := entryAt k.layout t p.1 p.2
    if d.holds p.1 p.2 then d.put p.1 p.2 (drained1 k.layout d.format k e) (accBad k e (entryBytes k.layout)) x else x) k
  let k2 := scrWrite (drainStatusAt d) (natLe 8 (getTile k t).toNat) false k1
  if stats then (List.range (min (tileRows k.layout) a.rows)).foldl (statsRow t a k) k2 else k2

theorem drainTile_eq (t : Nat) (a d : Desc) (clear stats : Bool) (k : Core) : drainTile t a d clear stats k =
    if clear then clearTile t (drainedCore t a d stats k) else drainedCore t a d stats k := rfl

theorem scratched_drainedCore (t : Nat) (a d : Desc) (stats : Bool) (k : Core) : scratched k (drainedCore t a d stats k) := by
  unfold drainedCore
  extract_lets k1 k2
  have h1 : scratched k k1 := scratched_foldl (fun x p => by
    simp only
    split
    · exact scratched_put ..
    · rfl) _ k
  have h2 : scratched k k2 := scratched_trans h1 rfl
  split
  · exact scratched_trans h2 (scratched_foldl (fun x i => scratched_statsRow ..) _ _)
  · exact h2

theorem tiled_clearTile (t : Nat) (k : Core) : tiled k (clearTile t k) := rfl

theorem drainTile_leaves (t : Nat) (a d : Desc) (clear stats : Bool) (k : Core) :
    let m := drainTile t a d clear stats k
    m = { k with scratch := m.scratch, poisonS := m.poisonS, acc := m.acc, poisonA := m.poisonA, tile := m.tile } ∧
      (clear = false → m.acc = k.acc ∧ m.tile = k.tile) := by
  intro m
  have hdrained : scratched k (drainedCore t a d stats k) := scratched_drainedCore ..
  have hm : m = if clear then clearTile t (drainedCore t a d stats k) else drainedCore t a d stats k := drainTile_eq ..
  clear_value m
  subst hm
  unfold scratched at hdrained
  cases clear
  · refine ⟨?_, fun _ => ⟨?_, ?_⟩⟩
    · rw [if_neg Bool.false_ne_true, hdrained]
    · rw [if_neg Bool.false_ne_true, hdrained]
    · rw [if_neg Bool.false_ne_true, hdrained]
  · refine ⟨?_, fun h => nomatch h⟩
    rw [if_pos rfl, tiled_clearTile t (drainedCore t a d stats k), hdrained]

/-! ### The rows -/

theorem matHead_of_busy {k : Core} (h : k.busyM = true) : matHead k = none := if_pos h

theorem matHead_of_free {k : Core} {e : QEntry} {q : List QEntry} (h : k.busyM = false) (hq : k.q2 = e :: q) :
    matHead k = some e := by rw [matHead, if_neg (by rw [h]; exact Bool.false_ne_true), hq, List.head?_cons]

theorem errsOn_nil (m : CoreMem) (rs : List (Nat × Nat)) : errsOn m rs [] = [] := rfl

theorem engineErrs_nil (c addr e : Nat) (s : State) : engineErrs c addr e [] s = (s, false) := rfl

/-- The state after a matrix operation whose shape is checked: a halt with the code found, or the operation's effect. -/
theorem shaped_none (c addr : Nat) (s t : State) : shaped c addr none s t = t := rfl

theorem shaped_some (c addr code : Nat) (s t : State) : shaped c addr (some code) s t = modCore c (engineHalt addr code 2) s := rfl

theorem shapeFault_of_bad {k : Core} {t : Nat} {shapes : List (Nat × Nat)} {intOk : Bool}
    (h : (∃ p ∈ shapes, p.1 ≠ p.2) ∨ intOk = false) : shapeFault k t shapes intOk = some 0x04 := by
  refine if_pos ?_
  rw [Bool.or_eq_true, List.any_eq_true]
  rcases h with ⟨p, hp, hne⟩ | h
  · exact .inl ⟨p, hp, by simpa using hne⟩
  · exact .inr (by rw [h]; rfl)

theorem shapeFault_of_ok {k : Core} {t : Nat} {shapes : List (Nat × Nat)} {intOk : Bool} (hs : ∀ p ∈ shapes, p.1 = p.2)
    (hi : intOk = true) : shapeFault k t shapes intOk = if tileCount k.layout ≤ t then some 0x0A else none := by
  refine if_neg ?_
  rw [hi, Bool.not_true, Bool.or_false, List.any_eq_true]
  rintro ⟨p, hp, hne⟩
  exact absurd (hs p hp) (by simpa using hne)

theorem macRun_of_head {t addr : Nat} {a b : BitVec 128} {int : Bool} {q : List QEntry} (hf : (getCore s c).busyM = false)
    (hq : (getCore s c).q2 = ⟨.mac t a b int, addr⟩ :: q) : macRun c [] s =
      shaped c addr (shapeFault (getCore s c) t [((descOf a).rows, tileRows (getCore s c).layout),
        ((descOf b).rows, tileCols (getCore s c).layout)] (int == decide ((getCore s c).layout = 3))) s
        (modCore c (fun k => matStart ((if int then macInt else macFloat) t (descOf a) (descOf b) k)) s) := by
  rw [macRun, matHead_of_free hf hq]
  rfl

theorem preloadRun_of_head {t addr : Nat} {d : BitVec 128} {q : List QEntry} (hf : (getCore s c).busyM = false)
    (hq : (getCore s c).q2 = ⟨.preload t d, addr⟩ :: q) : preloadRun c [] s =
      shaped c addr (shapeFault (getCore s c) t [] (decide ((getCore s c).layout ≠ 3) || [7, 8, 9].contains (descOf d).fmt)) s
        (modCore c (fun k => matStart (preloadTile t (descOf d) k)) s) := by
  rw [preloadRun, matHead_of_free hf hq]
  rfl

theorem drainRun_of_head {t addr : Nat} {a d : BitVec 128} {clear stats : Bool} {q : List QEntry}
    (hf : (getCore s c).busyM = false) (hq : (getCore s c).q2 = ⟨.drain t a d clear stats, addr⟩ :: q) : drainRun c [] s =
      shaped c addr (shapeFault (getCore s c) t []
        ((if (getCore s c).layout = 3 then [0, 9] else [0, 1, 2, 0xA]).contains (descOf d).fmt)) s
        (modCore c (fun k => matStart (drainTile t (descOf a) (descOf d) clear stats k)) s) := by
  rw [drainRun, matHead_of_free hf hq]
  cases stats <;> rfl

/-- A matrix operation that leaves the queue of its engine starts by taking its entry off it. -/
theorem matStart_of_head {k m : Core} {e : QEntry} {q : List QEntry} (hq : k.q2 = e :: q) (hm : m.q2 = k.q2) :
    matStart m = { m with q2 := q, busyM := true } := by
  rw [matStart, hm, hq, List.tail_cons]

theorem matrixDone_of_busy {k : Core} (h : k.busyM = true) :
    matrixDone k = { k with busyM := false, cnt := (countEvent evMat k).cnt } := if_pos h

theorem matrixDone_of_free {k : Core} (h : k.busyM = false) : matrixDone k = k := if_neg (by rw [h]; exact Bool.false_ne_true)

theorem exec_mac (hs : live s = true) (hc : c < 2304) (errs : List MemErr) : exec (.mac c errs) s = .next (macRun c errs s) :=
  actOn_of_live hs hc _

theorem exec_preload (hs : live s = true) (hc : c < 2304) (errs : List MemErr) :
    exec (.preload c errs) s = .next (preloadRun c errs s) := actOn_of_live hs hc _

theorem exec_drain (hs : live s = true) (hc : c < 2304) (errs : List MemErr) :
    exec (.drain c errs) s = .next (drainRun c errs s) := actOn_of_live hs hc _

/-- Settles O31: the rows of the matrix engine start their operation, halt with their code, or wait. -/
theorem matrixEngineRows : Obligations.MatrixEngineRows := by
  unfold Obligations.MatrixEngineRows
  intro s c hs hc
  simp only [exec_mac hs hc, exec_preload hs hc, exec_drain hs hc]
  refine ⟨fun hb errs => ⟨?macBusy, ?preloadBusy, ?drainBusy⟩, fun t a b int at_ q hf hq h1 h2 h3 => ⟨fun ht => ?mac, fun ht => ?macTile⟩,
    fun t a b int at_ q hf hq hbad => ?macShape, fun t d at_ q hf hq => ⟨fun hok ht => ?preload, fun hok => ?preloadShape,
      fun hok ht => ?preloadTile⟩, fun t a d clear stats at_ q hf hq => ⟨fun hok ht => ?drain, fun hok => ?drainShape,
      fun hok ht => ?drainTile⟩, fun hb => ⟨_, (onCore_of_live hs hc _).trans (by rw [matrixDone_of_busy hb]),
        fun hk i hi => tget_countEvent hk _ hi⟩, fun hb => (onCore_of_live hs hc _).trans (by rw [matrixDone_of_free hb])⟩
  case macBusy => rw [macRun, matHead_of_busy hb]
  case preloadBusy => rw [preloadRun, matHead_of_busy hb]
  case drainBusy => rw [drainRun, matHead_of_busy hb]
  case mac =>
    have hmac : ∀ int : Bool,
        tiled (getCore s c) ((if int then macInt else macFloat) t (descOf a) (descOf b) (getCore s c)) := fun int => by
      cases int
      · exact tiled_macFloat ..
      · exact tiled_macInt ..
    have hm := hmac int
    rw [macRun_of_head hf hq, shapeFault_of_ok (by simp [h1, h2]) (by simp [h3]), if_neg (by omega), shaped_none, modCore,
      matStart_of_head hq (by rw [hm])]
    cases int <;> exact ⟨rfl, hm⟩
  case macTile =>
    rw [macRun_of_head hf hq, shapeFault_of_ok (by simp [h1, h2]) (by simp [h3]), if_pos ht, shaped_some]
    rfl
  case macShape =>
    rw [macRun_of_head hf hq, shapeFault_of_bad, shaped_some]
    · rfl
    · simpa [or_assoc] using hbad
  case preload =>
    have hm : tiled (getCore s c) (preloadTile t (descOf d) (getCore s c)) := tiled_preloadTile ..
    rw [preloadRun_of_head hf hq, shapeFault_of_ok (by simp) (by simpa [Decidable.imp_iff_not_or] using hok), if_neg (by omega), shaped_none,
      modCore, matStart_of_head hq (by rw [hm])]
    exact ⟨rfl, hm⟩
  case preloadShape =>
    rw [preloadRun_of_head hf hq, shapeFault_of_bad (.inr (by simpa using hok)), shaped_some]
    rfl
  case preloadTile =>
    rw [preloadRun_of_head hf hq, shapeFault_of_ok (by simp) (by simpa [Decidable.imp_iff_not_or] using hok), if_pos ht, shaped_some]
    rfl
  case drain =>
    obtain ⟨hm, hkeep⟩ := drainTile_leaves t (descOf a) (descOf d) clear stats (getCore s c)
    rw [drainRun_of_head hf hq, shapeFault_of_ok (by simp) (List.contains_iff_mem.2 hok), if_neg (by omega), shaped_none, modCore,
      matStart_of_head hq (by rw [hm])]
    exact ⟨rfl, hm, hkeep⟩
  case drainShape =>
    rw [drainRun_of_head hf hq, shapeFault_of_bad (.inr (Bool.eq_false_iff.2 fun h => hok (List.contains_iff_mem.1 h))), shaped_some]
    rfl
  case drainTile =>
    rw [drainRun_of_head hf hq, shapeFault_of_ok (by simp) (List.contains_iff_mem.2 hok), if_pos ht, shaped_some]
    rfl

end Sys2Proof.Machine
end

section
/-! The rows of the vector engine (03 R120 to R147; 13 R466 to R469). -/

namespace Sys2Proof.Machine

variable {s : State} {c : Nat}

/-- From `k` to `j` only the scratchpad, the vector registers and the counters change. -/
def passed (k j : Core) : Prop := j = { k with scratch := j.scratch, poisonS := j.poisonS, v := j.v, cnt := j.cnt }

theorem passed_refl (k : Core) : passed k k := rfl

theorem passed_trans {a b d : Core} (h1 : passed a b) (h2 : passed b d) : passed a d := by
  unfold passed at *
  rw [h2, h1]

theorem passed_foldl {α : Type} {f : Core → α → Core} (hf : ∀ k x, passed k (f k x)) (l : List α) (k : Core) :
    passed k (l.foldl f k) := by
  induction l generalizing k with
  | nil => rfl
  | cons x l ih => exact passed_trans (hf k x) (ih _)

theorem passed_of_scratched {k j : Core} (h : scratched k j) : passed k j := by
  unfold scratched at h
  unfold passed
  rw [h]

theorem passed_scrWrite (a : Nat) (bs : Bytes) (bad : Bool) (k : Core) : passed k (scrWrite a bs bad k) := rfl

theorem passed_countEvent (src : Nat) (k : Core) : passed k (countEvent src k) := rfl

theorem passed_writeOut (p : Pass) (pl : Plan) (rs : List (List StageRes)) (o : Nat) (k : Core) :
    passed k (writeOut p pl rs o k) := by
  unfold writeOut
  extract_lets b st
  split
  · rfl
  · refine passed_foldl (fun k x => ?_) _ k
    simp only
    split
    · rfl
    · exact passed_of_scratched (scratched_put ..)

/-- A pass that completes leaves all of its core but the scratchpad, the vector registers, the counters, the open row and the
counts of the pass; the row ends with the pass that stops it. -/
theorem passEffect_leaves {p : Pass} {start stop : Bool} {k k' : Core} {note : PassNote}
    (h : passEffect s c p start stop k = .ok (k', note)) :
    k' = { k with scratch := k'.scratch, poisonS := k'.poisonS, v := k'.v, cnt := k'.cnt, row := k'.row
                  passNonfinite := k'.passNonfinite, passSat := k'.passSat } ∧ (stop = true → k'.row = {}) := by
  unfold passEffect at h
  extract_lets quant old at h
  split at h
  extract_lets rs enc vs poison row groups after fin ws k1 k2 k3 k4 sum at h
  split at h
  · nomatch h
  · have hk' := (Prod.mk.inj (Except.ok.inj h)).1
    have h1 : passed k k1 := passed_foldl (fun k w => passed_scrWrite ..) _ k
    have h2 : passed k k2 := by
      simp only [k2]
      split
      · exact passed_trans h1 (passed_trans (passed_writeOut ..) (passed_writeOut ..))
      · exact h1
    have h3 : passed k k3 := passed_trans h2 (passed_foldl (fun k w => passed_scrWrite ..) _ k2)
    have h4 : passed k k4 := passed_trans h3 (passed_foldl (fun k _ => passed_countEvent ..) _ k3)
    clear_value k4
    subst hk'
    refine ⟨?_, fun hstop => if_pos hstop⟩
    unfold passed at h4
    rw [h4]

theorem vectorPass_of_busy (h : (getCore s c).busyV = true) (errs : List MemErr) : vectorPass c errs s = s := if_pos h

theorem vectorMerge_of_busy (h : (getCore s c).busyV = true) (ins : List MergeIn) (out n : Nat) (errs : List MemErr) :
    vectorMerge c ins out n errs s = s := if_pos (by rw [h]; rfl)

theorem vectorPass_of_head {chain : Nat} {ins outs : List (BitVec 128)} {start stop : Bool} {vl addr : Nat} {q : List QEntry}
    (hf : (getCore s c).busyV = false) (hq : (getCore s c).q1 = ⟨.run chain ins outs start stop vl, addr⟩ :: q) :
    vectorPass c [] s =
      let k := getCore s c
      let p := passOf k chain ins outs vl
      let had := if start then 0 else k.row.vals.length
      match passFaults s p k.row start stop with
      | code :: _ => modCore c (engineHalt addr code eVector) s
      | [] => if rowRoom p had < p.vl then modCore c (fun k => engineHalt addr 0x04 eVector (rowTooLong p (rowRoom p had) k)) s
        else match passEffect s c p start stop k with
        | .error code => modCore c (engineHalt addr code eVector) s
        | .ok (k', note) => notePass c note (setCore s c { k' with q1 := q, busyV := true }) := by
  unfold vectorPass
  simp only [hf, Bool.false_eq_true, if_false, hq, errsOn_nil, List.append_nil, engineErrs_nil] <;> rfl

theorem vectorMerge_of_free {ins : List MergeIn} {out n : Nat} (hf : (getCore s c).busyV = false) (h0 : (getCore s c).state ≠ 0) :
    vectorMerge c ins out n [] s =
      let x := getCore s c
      let spans := ins.map (fun i => (i.addr, 320 + 8 * leNat (scrRead x (i.addr + 244) 4)))
      if (spans ++ [(out, 320 + 8 * n)]).any (fun r => decide (0x10000 < r.1 + r.2)) then
        modCore c (engineHalt x.pc 0x03 eVector) s
      else
        let recs := spans.map (fun r => scrRead x r.1 r.2)
        if !mergeOk ins n recs then modCore c (engineHalt x.pc 0x04 eVector) s
        else
          let m := mergeRecs ((ins.map (·.measure)).headD 1) n recs
          let poison := spans.any (fun r => scrBad x r.1 r.2)
          conserveFault c (if m.2 then some (numAt m.1 264 4) else none)
            (modCore c (fun k => countEvent evRed { scrWrite out m.1 poison k with busyV := true }) s) := by
  unfold vectorMerge
  simp only [hf, h0, decide_false, Bool.or_false, Bool.false_eq_true, if_false, errsOn_nil, engineErrs_nil]

/-- The records and the output of a merge stay inside the scratchpad. -/
theorem spansFit_iff (spans : List (Nat × Nat)) (out n : Nat) :
    (spans ++ [(out, 320 + 8 * n)]).any (fun r => decide (0x10000 < r.1 + r.2)) = false ↔
      out + 320 + 8 * n ≤ 0x10000 ∧ ∀ r ∈ spans, r.1 + r.2 ≤ 0x10000 := by
  rw [List.any_append, Bool.or_eq_false_iff, List.any_eq_false, List.any_eq_false]
  simp only [List.mem_singleton, forall_eq, decide_eq_true_eq, Nat.not_lt, Nat.add_assoc]
  exact and_comm

theorem vectorDone_of_busy {k : Core} (h : k.busyV = true) :
    vectorDone k = { k with busyV := false, cnt := (countEvent evVec k).cnt } := if_pos h

theorem vectorDone_of_free {k : Core} (h : k.busyV = false) : vectorDone k = k := if_neg (by rw [h]; exact Bool.false_ne_true)

theorem exec_vectorPass (hs : live s = true) (hc : c < 2304) (errs : List MemErr) :
    exec (.vectorRun c .pass errs) s = .next (vectorPass c errs s) := actOn_of_live hs hc _

theorem exec_vectorMerge (hs : live s = true) (hc : c < 2304) (ins : List MergeIn) (out n : Nat) (errs : List MemErr) :
    exec (.vectorRun c (.merge ins out n) errs) s = .next (vectorMerge c ins out n errs s) := actOn_of_live hs hc _

/-- Settles O32: passes and merges start, complete, halt or wait. -/
theorem vectorEngineRows : Obligations.VectorEngineRows := by
  unfold Obligations.VectorEngineRows
  intro s c hs hc
  refine ⟨fun hb job errs => ?busy, fun chain ins outs start stop vl at_ q hf hq => ?pass, fun ins out n hf h0 => ?merge,
    fun hb => ⟨_, (onCore_of_live hs hc _).trans (by rw [vectorDone_of_busy hb]), fun hk i hi => tget_countEvent hk _ hi⟩,
    fun hb => (onCore_of_live hs hc _).trans (by rw [vectorDone_of_free hb])⟩
  case busy =>
    cases job with
    | pass => rw [exec_vectorPass hs hc, vectorPass_of_busy hb]
    | merge ins out n => rw [exec_vectorMerge hs hc, vectorMerge_of_busy hb]
  case pass =>
    rw [exec_vectorPass hs hc, vectorPass_of_head hf hq]
    refine ⟨fun code rest hfault => ?_, fun hfault => ⟨fun hroom => ?_, fun hroom => ⟨fun code he => ?_, fun k' note he => ?_⟩⟩⟩
    · simp only [hfault]
      rfl
    · simp only [hfault, hroom, if_true]
      rfl
    · simp only [hfault, Nat.not_lt.2 hroom, if_false, he]
      rfl
    · simp only [hfault, Nat.not_lt.2 hroom, if_false, he]
      obtain ⟨hk', hrow⟩ := passEffect_leaves he
      exact ⟨trivial, hk', hrow⟩
  case merge =>
    rw [exec_vectorMerge hs hc, vectorMerge_of_free hf h0]
    refine ⟨fun hfit => ?_, fun hfit hok => ?_, fun hfit hok => ?_⟩
    · rw [← spansFit_iff, Bool.not_eq_false] at hfit
      simp only [hfit, if_true]
      rfl
    · rw [← spansFit_iff] at hfit
      simp only [hfit, hok, Bool.false_eq_true, if_false, Bool.not_false, if_true]
      rfl
    · rw [← spansFit_iff] at hfit
      simp only [hfit, hok, Bool.false_eq_true, if_false, Bool.not_true]
      rfl

end Sys2Proof.Machine
end

section
/-! The rows of the load engine (13 R471 to R474; 11 R430). -/

namespace Sys2Proof.Machine

variable {s : State} {c : Nat}

/-! ### Requests of a row -/

/-- The requests `rs` wait at their wells, one after another. -/
def enqueueAll (rs : List WReq) (s : State) : State := rs.foldl (fun t r => enqueueReq r t) s

theorem enqueueAll_append (l r : List WReq) (s : State) : enqueueAll (l ++ r) s = enqueueAll r (enqueueAll l s) :=
  List.foldl_append

theorem needsQ0_enqueueReq (r : WReq) (s : State) (x : Nat) : needsQ0 (enqueueReq r s) x = needsQ0 s x := rfl

theorem needsQ0_enqueueAll (rs : List WReq) (s : State) (x : Nat) : needsQ0 (enqueueAll rs s) x = needsQ0 s x := by
  induction rs generalizing s with
  | nil => rfl
  | cons r rs ih => exact (ih _).trans (needsQ0_enqueueReq r s x)

theorem rowReads_zero (o : Owner) (a dst : Nat) : rowReads o a 0 dst = [] := by
  simp [rowReads, splitRange, pieces4k]

theorem loadRow_zero (c : Nat) (o : Owner) (fuel a dst : Nat) (s : State) : loadRow c o fuel a 0 dst s = s := by
  cases fuel with
  | zero => rfl
  | succ fuel => rw [loadRow, if_pos rfl]

/-- A row that meets no sketch's first Q asks for all its bytes. -/
theorem loadRow_of_noQ0 (h : ∀ x, needsQ0 s x = none) (o : Owner) {fuel n : Nat} (hf : n < fuel) (a dst : Nat) :
    loadRow c o fuel a n dst s = enqueueAll (rowReads o a n dst) s := by
  obtain ⟨fuel, rfl⟩ : ∃ m, fuel = m + 1 := ⟨fuel - 1, by omega⟩
  by_cases hn : n = 0
  · subst hn
    rw [loadRow_zero, rowReads_zero]
    rfl
  · have hfind : (List.range n).find? (fun i => (needsQ0 s (a + i)).isSome) = none :=
      List.find?_eq_none.2 fun i _ => by rw [h]; exact Bool.false_ne_true
    rw [loadRow, if_neg hn, h a]
    simp only [hfind, Option.getD_none, Nat.sub_self, loadRow_zero]
    rfl

theorem foldl_loadRow_of_noQ0 (h : ∀ x, needsQ0 s x = none) (o : Owner) (n : Nat) (a dst : Nat → Nat) (rs : List Nat) :
    rs.foldl (fun s r => loadRow c o (n + 1) (a r) n (dst r) s) s =
      enqueueAll (rs.flatMap (fun r => rowReads o (a r) n (dst r))) s := by
  induction rs generalizing s with
  | nil => rfl
  | cons r rs ih =>
    rw [List.foldl_cons, loadRow_of_noQ0 h o (Nat.lt_succ_self n), List.flatMap_cons, enqueueAll_append]
    exact ih fun x => (needsQ0_enqueueAll _ s x).trans (h x)

/-! ### What the rows leave of the core -/

/-- From `s` to `t` core `c` keeps all but its scratchpad. -/
def loadsKept (c : Nat) (s t : State) : Prop := tableWf {} t.cores = true ∧ scratched (getCore s c) (getCore t c)

theorem loadsKept_trans {a b d : State} (h1 : loadsKept c a b) (h2 : loadsKept c b d) : loadsKept c a d :=
  ⟨h2.1, scratched_trans h1.2 h2.2⟩

theorem enqueueAll_cores (rs : List WReq) (s : State) : (enqueueAll rs s).cores = s.cores :=
  List.foldlRecOn (motive := fun (u : State) => u.cores = s.cores) rs _ rfl (fun _ hu _ _ => hu)

theorem loadsKept_of_cores {t : State} (hw : tableWf {} s.cores = true) (h : t.cores = s.cores) : loadsKept c s t :=
  ⟨h ▸ hw, by rw [getCore_of_cores h]; rfl⟩

theorem setModeAt_cores (step bit : Nat) (s : State) : (setModeAt step bit s).cores = s.cores := by
  unfold setModeAt setMode
  repeat' split
  all_goals rfl

theorem loadsKept_loadRow (hw : tableWf {} s.cores = true) (o : Owner) (fuel a n dst : Nat) :
    loadsKept c s (loadRow c o fuel a n dst s) := by
  induction fuel generalizing a n dst s with
  | zero => exact loadsKept_of_cores hw rfl
  | succ fuel ih =>
    unfold loadRow
    split
    · exact loadsKept_of_cores hw rfl
    · split
      · next t off room _ =>
        simp only
        have hu : loadsKept c s (modCore c (scrWrite dst (firstQBytes t off (min n room)) false) s) :=
          ⟨tableWf_tset _ _ hw, by rw [getCore_modCore_self _ _ hw]; rfl⟩
        generalize modCore c (scrWrite dst (firstQBytes t off (min n room)) false) s = u at hu ⊢
        have hm : loadsKept c s (setModeAt (millStep s) mfQ0 u) :=
          loadsKept_trans hu (loadsKept_of_cores hu.1 (setModeAt_cores ..))
        exact loadsKept_trans hm (ih hm.1 ..)
      · simp only
        have hq := loadsKept_of_cores (c := c) hw (enqueueAll_cores (rowReads o a (((List.range n).find? (fun i =>
          (needsQ0 s (a + i)).isSome)).getD n) dst) s)
        exact loadsKept_trans hq (ih hq.1 ..)

theorem loadsKept_foldl_loadRow (hw : tableWf {} s.cores = true) (o : Owner) (n : Nat) (a dst : Nat → Nat) (rs : List Nat) :
    loadsKept c s (rs.foldl (fun s r => loadRow c o (n + 1) (a r) n (dst r) s) s) := by
  induction rs generalizing s with
  | nil => exact loadsKept_of_cores hw rfl
  | cons r rs ih =>
    have h := loadsKept_loadRow (c := c) hw o (n + 1) (a r) n (dst r)
    exact loadsKept_trans h (ih h.1)

/-! ### The rows -/

theorem exec_load (hs : live s = true) (hc : c < 2304) : exec (.load c) s = .next (loadRun c s) := actOn_of_live hs hc _

theorem exec_loadExpand (hs : live s = true) (hc : c < 2304) : exec (.loadExpand c) s = .next (loadxRun c s) :=
  actOn_of_live hs hc _

theorem exec_loadComplete (hs : live s = true) (hc : c < 2304) : exec (.loadComplete c) s = .next (loadDone c s) :=
  actOn_of_live hs hc _

/-- The state in which the entry at the head of the load queue has become a started load. -/
def loadStarted (c : Nat) (kind : JobKind) (q : List QEntry) (s : State) : State :=
  setCore s c { getCore s c with q3 := q, loads := (getCore s c).loads ++ [⟨(getCore s c).nextJob, kind⟩]
                                 nextJob := (getCore s c).nextJob + 1 }

theorem modCore_startLoad {e : QEntry} {q : List QEntry} (hq : (getCore s c).q3 = e :: q) (kind : JobKind) :
    modCore c (startLoad kind) s = loadStarted c kind q s := by
  rw [modCore, startLoad, hq, List.tail_cons, loadStarted]

theorem loadRun_of_load {d : BitVec 128} {a stride addr : Nat} {q : List QEntry}
    (hq : (getCore s c).q3 = ⟨.load d a stride, addr⟩ :: q) : loadRun c s =
      (List.range (descOf d).rows).foldl (fun s' r => loadRow c (.core c (getCore s c).nextJob) ((descOf d).rowBytes + 1)
        (a + r * stride) (descOf d).rowBytes ((descOf d).base + r * (descOf d).rowStride) s') (loadStarted c .well q s) := by
  rw [loadRun, loadHead, hq, List.head?_cons, ← modCore_startLoad hq]

theorem loadRun_of_other (h : ∀ d a stride addr, loadHead (getCore s c) ≠ some ⟨.load d a stride, addr⟩) : loadRun c s = s := by
  unfold loadRun
  split
  · next hq => exact (h _ _ _ _ hq).elim
  · rfl

theorem loadxRun_of_other (h : ∀ b a n addr, loadHead (getCore s c) ≠ some ⟨.loadx b a n, addr⟩) : loadxRun c s = s := by
  unfold loadxRun
  split
  · next hq => exact (h _ _ _ _ hq).elim
  · rfl

theorem loadxRun_of_loadx {base a n addr : Nat} {q : List QEntry} (hq : (getCore s c).q3 = ⟨.loadx base a n, addr⟩ :: q) :
    loadxRun c s = modWell (wellOf s a) (fun w => { w with jobs := w.jobs ++
      [{ src := a, dst := base, left := n, core := some (c, (getCore s c).nextJob), fetch := a / 64 * 64 }] })
      (loadStarted c .expand q s) := by
  rw [loadxRun, loadHead, hq, List.head?_cons, ← modCore_startLoad hq]

/-- Settles O33: a load asks for its rows or takes the bytes of Q0, and one with expand puts its blocks at the end of the jobs. -/
theorem loadEngineRows : Obligations.LoadEngineRows := by
  unfold Obligations.LoadEngineRows
  intro s c hs hc
  simp only [exec_load hs hc, exec_loadExpand hs hc, exec_loadComplete hs hc]
  refine ⟨fun d a stride at_ q hq => ⟨fun h => ?noQ0, fun x off room hrows hx hpos hroom => ?q0, ⟨_, rfl, fun hu => ?starts⟩, ?notExpand⟩,
    fun base a n at_ q hq => ⟨?expand, ?notLoad⟩, fun hq => ⟨?loadEmpty, ?expandEmpty⟩, fun j hj => ?complete, fun hj => ?pending⟩
  case noQ0 =>
    rw [loadRun_of_load hq, foldl_loadRow_of_noQ0 (s := loadStarted c .well q s) h]
    rfl
  case q0 =>
    rw [loadRun_of_load hq, hrows]
    have hmin : min (descOf d).rowBytes room = (descOf d).rowBytes := Nat.min_eq_left hroom
    have hrow : loadRow c (.core c (getCore s c).nextJob) ((descOf d).rowBytes + 1) a (descOf d).rowBytes (descOf d).base
        (loadStarted c .well q s) = setModeAt (millStep s) mfQ0
          (modCore c (scrWrite (descOf d).base (firstQBytes x off (descOf d).rowBytes) false) (loadStarted c .well q s)) := by
      rw [loadRow, if_neg (by omega), show needsQ0 (loadStarted c .well q s) a = some (x, off, room) from hx]
      simp only [hmin, Nat.sub_self, loadRow_zero]
      rfl
    simp only [List.range_one, List.foldl_cons, List.foldl_nil, Nat.zero_mul, Nat.add_zero, hrow]
    rfl
  case starts =>
    obtain ⟨hw, -⟩ := unitsWf_iff.1 hu
    have hself : getCore (loadStarted c .well q s) c = _ := (getCore_setCore _ _ _ _ hw).trans (if_pos rfl)
    obtain ⟨-, hkept⟩ := loadsKept_foldl_loadRow (c := c) (s := loadStarted c .well q s) (tableWf_tset _ _ hw)
      (.core c (getCore s c).nextJob) (descOf d).rowBytes (fun r => a + r * stride)
      (fun r => (descOf d).base + r * (descOf d).rowStride) (List.range (descOf d).rows)
    rw [loadRun_of_load hq]
    unfold scratched at hkept
    rw [hkept, hself]
    exact ⟨rfl, rfl, rfl⟩
  case notExpand => rw [loadxRun_of_other (by simp [loadHead, hq])]
  case expand => rw [loadxRun_of_loadx hq]; rfl
  case notLoad => rw [loadRun_of_other (by simp [loadHead, hq])]
  case loadEmpty => rw [loadRun_of_other (by simp [loadHead, hq])]
  case expandEmpty => rw [loadxRun_of_other (by simp [loadHead, hq])]
  case complete =>
    refine ⟨_, by rw [loadDone, hj]; rfl, fun hk i hi => tget_countEvent hk _ hi⟩
  case pending => rw [loadDone, hj]

end Sys2Proof.Machine
end

section
/-! The rows of the wells: requests, answers, and how each ends (11 R405 to R418). -/

namespace Sys2Proof.Machine

variable {s t : State}

/-! ### What the report of a fault does to the wells -/

/-- From `s` to `t` each well changes at most in the requests that wait at it. -/
structure asksOnly (s t : State) : Prop where
  wellsWf : tableWf {} s.wells = true → tableWf {} t.wells = true
  same : ∀ w, getWell t w = { getWell s w with waiting := (getWell t w).waiting }

theorem asksOnly.leaves (h : asksOnly s t) (hw : tableWf {} s.wells = true) :
    tableWf {} t.wells = true ∧ ∀ w, getWell t w = { getWell s w with waiting := (getWell t w).waiting } :=
  ⟨h.wellsWf hw, h.same⟩

theorem asksOnly_of_wells (h : t.wells = s.wells) : asksOnly s t :=
  ⟨fun hw => h ▸ hw, fun w => by rw [getWell, getWell, h]⟩

theorem asksOnly_refl (s : State) : asksOnly s s := asksOnly_of_wells rfl

theorem asksOnly_trans {a b d : State} (h1 : asksOnly a b) (h2 : asksOnly b d) : asksOnly a d :=
  ⟨fun hw => h2.wellsWf (h1.wellsWf hw), fun w => by rw [h2.same w, h1.same w]⟩

theorem asksOnly_ite {a b : State} {p : Prop} [Decidable p] (ha : asksOnly s a) (hb : asksOnly s b) :
    asksOnly s (if p then a else b) := by
  split <;> assumption

theorem asksOnly_foldl {α : Type} {f : State → α → State} (hf : ∀ s x, asksOnly s (f s x)) (l : List α) (s : State) :
    asksOnly s (l.foldl f s) := by
  induction l generalizing s with
  | nil => exact asksOnly_refl s
  | cons x l ih => exact asksOnly_trans (hf s x) (ih _)

/-- A well that an operation leaves with anything in it reads back, whatever the form of the table. -/
theorem getWell_modWell_of_ne {w : Nat} {f : Well → Well} (hf : f (getWell s w) ≠ {}) (x : Nat) :
    getWell (modWell w f s) x = if x = w then f (getWell s w) else getWell s x := by
  have hset : (modWell w f s).wells = tinsert s.wells w (f (getWell s w)) := if_neg hf
  rw [getWell, hset]
  split
  · next hx => rw [hx, tget_tinsert_same]
  · next hx => exact tget_tinsert_other _ _ _ hx

theorem asksOnly_enqueueReq (r : WReq) (s : State) : asksOnly s (enqueueReq r s) := by
  refine ⟨fun hw => tableWf_tset _ _ hw, fun w => ?_⟩
  rw [enqueueReq, getWell_modWell_of_ne (s := { s with wellStamp := s.wellStamp + 1 })]
  · split
    · next h =>
      subst h
      rfl
    · rfl
  · intro h
    simpa using congrArg Well.waiting h

theorem asksOnly_postWriteAs (n : Bool) (o : Owner) (a : Nat) (bs : Bytes) (bad : List Nat) (s : State) :
    asksOnly s (postWriteAs n o a bs bad s) := by
  unfold postWriteAs
  refine asksOnly_trans ?_ (asksOnly_foldl (fun s r => asksOnly_enqueueReq r s) _ _)
  exact asksOnly_of_wells rfl

theorem setRing_wells (s : State) (i : RingId) (r : Ring) : (setRing s i r).wells = s.wells := by
  cases i <;> rfl

theorem asksOnly_setRing {i : RingId} {r : Ring} (h : asksOnly s t) : asksOnly s (setRing t i r) :=
  asksOnly_trans h (asksOnly_of_wells (setRing_wells ..))

theorem asksOnly_ringPush (i : RingId) (e : Bytes) (s : State) : asksOnly s (ringPush i e s) := by
  unfold ringPush
  refine asksOnly_ite ?_ (asksOnly_ite (asksOnly_setRing (asksOnly_refl s)) (asksOnly_setRing (asksOnly_refl s)))
  unfold ringPut
  exact asksOnly_setRing (asksOnly_ite (asksOnly_postWriteAs ..) (asksOnly_postWriteAs ..))

theorem holdRecord_wells (r : Bytes) (s : State) : (holdRecord r s).wells = s.wells := by
  unfold holdRecord
  split <;> rfl

theorem bookNextSector_wells (s : State) : (bookNextSector s).wells = s.wells := by
  unfold bookNextSector
  exact List.foldlRecOn (motive := fun (u : State) => u.wells = s.wells) _ _ rfl (fun _ hu _ _ => hu)

theorem bookWear_wells (s : State) : (bookWear s).wells = s.wells := rfl

theorem bookWrite_wells (r : Bytes) (s : State) : (bookWrite r s).wells = s.wells := by
  unfold bookWrite
  split
  · extract_lets s1 s2
    have h1 : s1.wells = s.wells := by
      simp only [s1]
      split
      · exact (bookWear_wells _).trans (bookNextSector_wells s)
      · rfl
    have h2 : s2.wells = s1.wells := flashProgram_wells ..
    clear_value s2
    exact h2.trans h1
  · exact holdRecord_wells r s

theorem trigger_wells (u c n : Nat) (s : State) : (trigger u c n s).wells = s.wells := by
  unfold trigger
  split <;> rfl

theorem setStatus_wells (u c n : Nat) (s : State) : (setStatus u c n s).wells = s.wells := by
  unfold setStatus
  split
  · rfl
  · simp only
    split
    · rw [trigger_wells, bookWrite_wells]
      rfl
    · rw [bookWrite_wells]
      rfl

theorem chargeUnit_wells (c u : Nat) (s : State) : (chargeUnit c u s).wells = s.wells := setStatus_wells ..

theorem bookFault_wells (c d u : Nat) (r : Bytes) (s : State) : (bookFault c d u r s).wells = s.wells := by
  unfold bookFault
  simp only
  split
  · split
    · rfl
    · exact bookWrite_wells ..
  · exact bookWrite_wells ..

theorem asksOnly_raiseOnce (a b c d e f : Nat) (p : Option Nat) (s : State) : asksOnly s (raiseOnce a b c d e f p s) := by
  unfold raiseOnce
  extract_lets s1 sq r s2 s3 s4
  have h2 : asksOnly s s2 := asksOnly_trans (asksOnly_of_wells (t := s1) rfl)
    (asksOnly_ite (asksOnly_ringPush ..) (asksOnly_refl _))
  have h4 : asksOnly s s4 :=
    asksOnly_trans h2 (asksOnly_of_wells ((chargeUnit_wells ..).trans (bookFault_wells ..)))
  split
  · exact h4
  · exact asksOnly_trans h4 (asksOnly_of_wells (by rw [trigger_wells, trigger_wells, chargeUnit_wells]))

theorem asksOnly_bookWatch (o s : State) : asksOnly s (bookWatch o s) := by
  unfold bookWatch
  extract_lets b s1
  have h1 : asksOnly s s1 :=
    asksOnly_ite (asksOnly_trans (b := { s with book := { s.book with warn := true } }) (asksOnly_of_wells rfl)
      (asksOnly_raiseOnce ..)) (asksOnly_refl s)
  exact asksOnly_ite (asksOnly_trans h1 (asksOnly_raiseOnce ..)) h1

theorem asksOnly_raise (a b c d e : Nat) (s : State) : asksOnly s (raise a b c d e s) :=
  asksOnly_trans (asksOnly_raiseOnce ..) (asksOnly_bookWatch ..)

/-! ### Reads that end with an error -/

/-- From `s` to `t` each well keeps its tags and its error bits, and no fault is counted. -/
structure tagsKept (s t : State) : Prop where
  counts : t.faultCnt = s.faultCnt
  leaves : tableWf {} s.wells = true → tableWf {} t.wells = true ∧ ∀ w,
    getWell t w = { getWell s w with expBuf := (getWell t w).expBuf, queueHigh := (getWell t w).queueHigh }

theorem tagsKept_of_wells (hf : t.faultCnt = s.faultCnt) (h : t.wells = s.wells) : tagsKept s t :=
  ⟨hf, fun hw => ⟨h ▸ hw, fun w => by rw [getWell, getWell, h]⟩⟩

theorem tagsKept_trans {a b d : State} (h1 : tagsKept a b) (h2 : tagsKept b d) : tagsKept a d :=
  ⟨h2.counts.trans h1.counts, fun hw => by
    obtain ⟨hwb, hb⟩ := h1.leaves hw
    obtain ⟨hwd, hd⟩ := h2.leaves hwb
    exact ⟨hwd, fun w => by rw [hd w, hb w]⟩⟩

theorem tagsKept_foldl {α : Type} {f : State → α → State} (hf : ∀ s x, tagsKept s (f s x)) (l : List α) (s : State) :
    tagsKept s (l.foldl f s) := by
  induction l generalizing s with
  | nil => exact tagsKept_of_wells rfl rfl
  | cons x l ih => exact tagsKept_trans (hf s x) (ih _)

theorem tagsKept_deliverStream (u a : Nat) (bs : Bytes) (bad : Bool) (s : State) : tagsKept s (deliverStream u a bs bad s) :=
  ⟨rfl, fun hw => ⟨tableWf_tset _ _ hw, fun w => by
    rw [deliverStream, getWell_modWell _ _ _ _ hw]
    split
    · next h =>
      subst h
      simp only
      split <;> rfl
    · rfl⟩⟩

theorem tagsKept_modCore (c : Nat) (f : Core → Core) (s : State) : tagsKept s (modCore c f s) :=
  tagsKept_of_wells (modCore_faultCnt ..) (modCore_wells ..)

theorem tagsKept_poisonRead (r : WReq) (s : State) : tagsKept s (poisonRead r s) := by
  unfold poisonRead
  split
  · exact tagsKept_foldl (fun s d => tagsKept_modCore ..) _ s
  · exact tagsKept_foldl (fun s i => tagsKept_deliverStream ..) _ s
  · exact tagsKept_of_wells rfl rfl

/-- The end of a request with an error sets the error bit of its well, keeps its tags, and counts a memory fault. -/
theorem errorEnd_leaves (hw : tableWf {} s.wells = true) (w : Nat) (r : WReq) :
    let t := errorEnd w r s
    (getWell t w).errCpl = true ∧ (getWell t w).busy = (getWell s w).busy ∧ (getWell t w).quar = (getWell s w).quar ∧
      (getWell t w).timeoutF = (getWell s w).timeoutF ∧ tget 0 t.faultCnt 0x11 = satInc (tget 0 s.faultCnt 0x11) 1 := by
  have hread : tagsKept s (if r.op = 0 then poisonRead r s else s) := by
    split
    · exact tagsKept_poisonRead r s
    · exact tagsKept_of_wells rfl rfl
  obtain ⟨hcnt, hkept⟩ := hread
  obtain ⟨hw1, h1⟩ := hkept hw
  unfold errorEnd
  simp only
  generalize (if r.op = 0 then poisonRead r s else s) = s1 at hcnt hw1 h1
  obtain ⟨-, h2⟩ := asksOnly_raise 0x11 2 (uWell w) r.addr 0 (modWell w (fun k => { k with errCpl := true }) s1)
    |>.leaves (tableWf_tset _ _ hw1)
  refine ⟨?_, ?_, ?_, ?_, ?_⟩
  · rw [h2 w, getWell_modWell_self _ _ hw1]
  · rw [h2 w, getWell_modWell_self _ _ hw1, h1 w]
  · rw [h2 w, getWell_modWell_self _ _ hw1, h1 w]
  · rw [h2 w, getWell_modWell_self _ _ hw1, h1 w]
  · rw [raise_count _ _ _ _ _ _ (by decide), modWell_faultCnt, hcnt]

theorem getWell_dropTag (hw : tableWf {} s.wells = true) (w tag : Nat) : getWell (dropTag w tag s) w =
    { getWell s w with busy := (getWell s w).busy.filter (fun b => b.1 != tag), limits := terase (getWell s w).limits tag } :=
  getWell_modWell_self _ _ hw

theorem tag_of_find {busy : List (Nat × WReq)} {tag x : Nat} {r : WReq} (h : busy.find? (fun b => b.1 == tag) = some (x, r)) :
    x = tag := by simpa using List.find?_some h

/-! ### Tags -/

theorem mem_filter_tag {busy : List (Nat × WReq)} {tag : Nat} (b : Nat × WReq) (h : b ∈ busy.filter (fun b => b.1 != tag)) :
    b.1 ≠ tag := by simpa using (List.mem_filter.1 h).2

/-- A free tag is the lowest below 1,024 that is neither in use nor quarantined. -/
theorem freeTag_lowest {k : Well} {t : Nat} (h : freeTag k = some t) : t < 1024 ∧ (∀ b ∈ k.busy, b.1 ≠ t) ∧ t ∉ k.quar ∧
    ∀ u, u < t → (∃ b ∈ k.busy, b.1 = u) ∨ u ∈ k.quar := by
  unfold freeTag at h
  rw [List.find?_range_eq_some] at h
  obtain ⟨hfree, hlt, hlow⟩ := h
  rw [List.mem_range] at hlt
  refine ⟨hlt, ?_, ?_, fun u hu => ?_⟩
  · intro b hb hbt
    have : k.busy.any (fun b => b.1 == t) = true := List.any_eq_true.2 ⟨b, hb, by simp [hbt]⟩
    simp [this] at hfree
  · intro hq
    simp [hq] at hfree
  · have := hlow u hu
    simp only [Bool.not_and, Bool.not_not, Bool.or_eq_true, List.any_eq_true, beq_iff_eq, List.contains_iff_mem] at this
    exact this

theorem poisonMode_wells (s : State) : (poisonMode s).wells = s.wells := by
  unfold poisonMode setMode
  split
  · rfl
  · split <;> rfl

/-- What a poisoned write does to its well, in the terms of its requests and its bits. -/
theorem poisonWrite_eq (w : Nat) (r : WReq) (s : State) : poisonWrite w r s =
    if r.op = 1 ∧ r.poison ≠ [] then raise 0x12 r.owner.code (uWell w) r.addr 0
      (setWell (poisonMode s) w { getWell s w with poisonWr := satInc (getWell s w).poisonWr r.poison.length }) else s := by
  have hwell : getWell (poisonMode s) w = getWell s w := by rw [getWell, getWell, poisonMode_wells]
  unfold poisonWrite modWell
  rw [hwell]
  simp only [Bool.and_eq_true, decide_eq_true_eq, Bool.not_eq_true', List.isEmpty_eq_false_iff, ne_eq]

/-- A row on an existing unit of a live block completes with what it makes of the state. -/
theorem actOn_of_eq {n i : Nat} {f : State → State} (hs : live s = true) (hi : i < n) (h : f s = t) :
    actOn n i s f = .next t := (actOn_of_live hs hi f).trans (h ▸ rfl)

theorem exec_wellRequestIssue_of_free {w i t : Nat} {r : WReq} (hs : live s = true) (hw : w < numWells)
    (hp : wellPresent s w = true) (hr : nextReq s (getWell s w) = some (i, r)) (hf : freeTag (getWell s w) = some t) :
    exec (.wellRequestIssue w) s = .next (poisonWrite w r (setWell s w { getWell s w with
      waiting := (getWell s w).waiting.eraseIdx i, busy := tinsert (getWell s w).busy t r,
      limits := tset 0 (getWell s w).limits t (getWell s w).timeout })) := by
  refine (actOn_of_live hs hw _).trans ?_
  simp only [wellIssue, hp, hr, hf, Bool.not_true, Bool.false_eq_true, if_false]
  rfl

theorem exec_wellRequestIssue_of_none {w : Nat} (hs : live s = true) (hw : w < numWells)
    (h : wellPresent s w = false ∨ nextReq s (getWell s w) = none ∨ freeTag (getWell s w) = none) :
    exec (.wellRequestIssue w) s = .next s := by
  refine (actOn_of_live hs hw _).trans ?_
  unfold wellIssue
  obtain h | h | h := h <;> simp only [h]
  · rfl
  · simp
  · cases nextReq s (getWell s w) <;> simp

theorem modWell_wellsWf {w : Nat} {f : Well → Well} (hw : tableWf {} s.wells = true) : tableWf {} (modWell w f s).wells = true :=
  tableWf_tset _ _ hw

theorem dropTag_wellsWf {w tag : Nat} (hw : tableWf {} s.wells = true) : tableWf {} (dropTag w tag s).wells = true :=
  tableWf_tset _ _ hw

theorem wellTimeout_leaves {w tag : Nat} {r : WReq} (hw : tableWf {} s.wells = true)
    (h : (getWell s w).busy.find? (fun b => b.1 == tag) = some (tag, r)) :
    let t := wellTimeout w tag s
    tag ∈ (getWell t w).quar ∧ (getWell t w).timeoutF = true ∧ (getWell t w).errCpl = true ∧
      (∀ b ∈ (getWell t w).busy, b.1 ≠ tag) ∧ tget 0 t.faultCnt 0x11 = satInc (tget 0 s.faultCnt 0x11) 1 := by
  simp only [wellTimeout, h]
  generalize hd : modWell w (fun k => { k with timeoutF := true, quar := k.quar ++ [tag] }) (dropTag w tag s) = s1
  have hw1 : tableWf {} s1.wells = true := by
    rw [← hd]
    exact modWell_wellsWf (dropTag_wellsWf hw)
  have hwell : getWell s1 w = { getWell (dropTag w tag s) w with
      timeoutF := true, quar := (getWell (dropTag w tag s) w).quar ++ [tag] } :=
    hd ▸ getWell_modWell_self _ _ (dropTag_wellsWf hw)
  have hcnt : s1.faultCnt = s.faultCnt := by rw [← hd]; rfl
  obtain ⟨herr, hbusy, hquar, htime, hfault⟩ := errorEnd_leaves hw1 w r
  rw [getWell_dropTag hw] at hwell
  refine ⟨?_, ?_, herr, ?_, hcnt ▸ hfault⟩
  · rw [hquar, hwell]
    exact List.mem_append_right _ (List.mem_singleton_self tag)
  · rw [htime, hwell]
  · rw [hbusy, hwell]
    exact mem_filter_tag

/-- Settles O35: of the model's choices, the lowest free tag and the count of refresh pulses are taken as the model has them. -/
theorem wellRequestsLeaveUnderTheLowestFreeTag : Obligations.WellRequestsLeaveUnderTheLowestFreeTag := by
  intro s w hs hw k
  refine ⟨fun hp i r t hr hf => ⟨exec_wellRequestIssue_of_free hs hw hp hr hf, freeTag_lowest hf⟩,
    exec_wellRequestIssue_of_none hs hw, fun hp => ?refresh, fun hp => ?absent, fun tag r h hu => ?timeout,
    fun r => poisonWrite_eq w r s, fun tag h => ?unused⟩
  case refresh => exact actOn_of_eq hs hw (if_pos hp)
  case absent => exact actOn_of_eq hs hw (if_neg (by simp [hp]))
  case timeout =>
    obtain ⟨-, -, hwells, -⟩ := unitsWf_iff.1 hu
    exact ⟨_, actOn_of_live hs hw _, wellTimeout_leaves hwells h⟩
  case unused =>
    refine actOn_of_eq hs hw ?_
    simp only [wellTimeout, k, h]

/-! ### Answers -/

/-- A quarter that is all that one place of a core's read gets goes there whole. -/
theorem deliverQuarter_of_single {r : WReq} {c j lo dst : Nat} {bs : Bytes} (hr : r.owner = .core c j)
    (ht : (getCore s c).torn = false) (hbs : bs ≠ []) (hd : r.dests = [(lo, dst, bs.length)]) (bad : Bool) :
    deliverQuarter r lo bs bad s = modCore c (scrWrite dst bs bad) s := by
  have hlen : lo < lo + bs.length := Nat.lt_add_of_pos_right (List.length_pos_iff.2 hbs)
  simp [deliverQuarter, deliverCore, hr, ht, hd, hbs]

theorem completion_of_error {w tag st : Nat} {r : WReq} (hw : tableWf {} s.wells = true) (hp : wellPresent s w = true)
    (h : (getWell s w).busy.find? (fun b => b.1 == tag) = some (tag, r)) (hst : 2 ≤ st) :
    let t := completion w tag st s
    (getWell t w).errCpl = true ∧ (∀ b ∈ (getWell t w).busy, b.1 ≠ tag) ∧
      tget 0 t.faultCnt 0x11 = satInc (tget 0 s.faultCnt 0x11) 1 := by
  simp only [completion, hp, h, hst, if_true, Bool.not_true, Bool.false_eq_true, if_false]
  obtain ⟨herr, hbusy, -, -, hfault⟩ := errorEnd_leaves (dropTag_wellsWf (tag := tag) hw) w r
  refine ⟨herr, ?_, hfault⟩
  rw [hbusy, getWell_dropTag hw]
  exact mem_filter_tag

/-- Settles O36. -/
theorem wellAnswersAreDelivered : Obligations.WellAnswersAreDelivered := by
  intro s w tag hs hw k
  refine ⟨fun h data poison => ?noBeat, fun r h hpast data poison => ?past, fun r h hp hop hlen data poison => ?beat,
    fun r c j lo bs bad dst hr ht hbs hd => deliverQuarter_of_single hr ht hbs hd bad,
    fun hp r h => ⟨fun st hst => ?good, fun st hst hu => ?bad⟩, fun hp h st => ⟨fun hq => ?late, fun hq => ?unused⟩,
    fun hp st => ?absent⟩
  case noBeat =>
    refine actOn_of_eq hs hw ?_
    simp only [readBeat, k, h]
  case past =>
    refine actOn_of_eq hs hw ?_
    rw [readBeat, h]
    exact if_pos (hpast.imp_right Or.inr)
  case beat =>
    refine actOn_of_eq hs hw ?_
    rw [readBeat, h]
    exact if_neg (by simp [hop, hp, hlen])
  case good =>
    refine actOn_of_eq hs hw ?_
    simp only [completion, k, hp, h, Nat.not_le.2 hst, if_false, Bool.not_true, Bool.false_eq_true]
    rfl
  case bad =>
    obtain ⟨-, -, hwells, -⟩ := unitsWf_iff.1 hu
    exact ⟨_, actOn_of_live hs hw _, completion_of_error hwells hp h hst⟩
  case late =>
    refine actOn_of_eq hs hw ?_
    simp only [completion, k, hp, h, Bool.not_true, Bool.false_eq_true, if_false]
    exact if_pos (List.contains_iff_mem.2 hq)
  case unused =>
    refine actOn_of_eq hs hw ?_
    simp only [completion, k, hp, h, Bool.not_true, Bool.false_eq_true, if_false]
    exact if_neg (by simpa using hq)
  case absent =>
    refine actOn_of_eq hs hw ?_
    exact if_pos (by simp [hp])

end Sys2Proof.Machine
end

section
/-! What a write of the block does to host memory and to the wells (11 R406, R408). -/

namespace Sys2Proof.Machine

variable {s t : State}

/-! ### Writing in pieces -/

theorem mwrite_append (d : Byte) (m : Mem) (a : Nat) (xs ys : Bytes) :
    mwrite d m a (xs ++ ys) = mwrite d (mwrite d m a xs) (a + xs.length) ys := by
  induction xs generalizing m a with
  | nil => rfl
  | cons x xs ih =>
    rw [List.cons_append, mwrite, mwrite, ih, List.length_cons, Nat.add_right_comm, Nat.add_assoc]

/-- No piece crosses a 4 KiB unit, and each lies in the range that was cut. -/
theorem pieces4k_within {f a n : Nat} {p : Nat × Nat} (h : p ∈ pieces4k f a n) :
    a ≤ p.1 ∧ p.1 + p.2 ≤ a + n ∧ 0 < p.2 ∧ p.1 % 4096 + p.2 ≤ 4096 := by
  induction f generalizing a n with
  | zero => simp [pieces4k] at h
  | succ f ih =>
    unfold pieces4k at h
    split at h
    · simp at h
    · next hn =>
      have hmod : a % 4096 < 4096 := Nat.mod_lt _ (by decide)
      rcases List.mem_cons.1 h with rfl | h
      · simp only
        omega
      · obtain ⟨h1, h2, h3, h4⟩ := ih h
        omega

/-- The bytes of the piece `p` of a write of `bs` at `a`. -/
def pieceOf (a : Nat) (bs : Bytes) (p : Nat × Nat) : Bytes := (bs.drop (p.1 - a)).take p.2

/-- The pieces written one after another are the whole range written at once. -/
theorem foldl_mwrite_pieces {f b n a : Nat} {bs : Bytes} (hf : n = 0 ∨ b % 4096 + n ≤ 4096 * f) (hab : a ≤ b)
    (hn : b + n ≤ a + bs.length) (hmax : b + n ≤ 2 ^ 52) (m : Mem) :
    (pieces4k f b n).foldl (fun m p => mwrite 0 m (p.1 % 2 ^ 52) (pieceOf a bs p)) m =
      mwrite 0 m b ((bs.drop (b - a)).take n) := by
  induction f generalizing b n m with
  | zero =>
    have : n = 0 := by omega
    subst this
    rfl
  | succ f ih =>
    unfold pieces4k
    split
    · next h =>
      subst h
      rfl
    · next h =>
      extract_lets k
      have hk : k ≤ n ∧ 0 < k ∧ (k = n ∨ (b + k) % 4096 = 0 ∧ b % 4096 + k = 4096) := by
        have : b % 4096 < 4096 := Nat.mod_lt _ (by decide)
        omega
      clear_value k
      obtain ⟨hkn, hk0, hend⟩ := hk
      have hb : b % 2 ^ 52 = b := Nat.mod_eq_of_lt (by omega)
      have hlen : ((bs.drop (b - a)).take k).length = k := by simp only [List.length_take, List.length_drop]; omega
      have hrest : (bs.drop (b - a)).take n =
          (bs.drop (b - a)).take k ++ (bs.drop (b + k - a)).take (n - k) := by
        rw [show b + k - a = b - a + k by omega, ← List.drop_drop, ← List.take_add, Nat.add_sub_cancel' hkn]
      rw [List.foldl_cons, ih (by omega) (by omega) (by omega) (by omega), hrest, mwrite_append, hlen, hb]
      rfl

theorem foldl_mwrite_splitRange {a : Nat} {bs : Bytes} (hmax : a + bs.length ≤ 2 ^ 52) (m : Mem) :
    (splitRange a bs.length).foldl (fun m p => mwrite 0 m (p.1 % 2 ^ 52) (pieceOf a bs p)) m = mwrite 0 m a bs := by
  have hfuel : a % 4096 + bs.length ≤ 4096 * (bs.length / 4096 + 2) := by
    have : a % 4096 < 4096 := Nat.mod_lt _ (by decide)
    omega
  rw [splitRange, foldl_mwrite_pieces (.inr hfuel) (Nat.le_refl _) (Nat.le_refl _) hmax, Nat.sub_self, List.drop_zero, List.take_length]

/-! ### The requests -/

/-- A request of a write that its well can serve: aligned to 64 B, within a 4 KiB unit, with a byte and a mask for each place. -/
structure wholeRequest (o : Owner) (r : WReq) : Prop where
  named : r.owner = o
  writes : r.op = 1
  aligned : r.addr % 64 = 0
  inUnit : r.addr % 4096 + 64 * r.len ≤ 4096
  data : r.data.length = 64 * r.len
  mask : r.mask.length = 64 * r.len

theorem wholeRequest_writeReq {a : Nat} {bs : Bytes} (h : a % 4096 + bs.length ≤ 4096) (o : Owner) (bad : List Nat) :
    wholeRequest o (writeReq o a bs bad) := by
  refine ⟨rfl, rfl, ?_, ?_, ?_, ?_⟩ <;>
    simp only [writeReq, List.length_append, List.length_replicate, List.length_map, zeros] <;> omega

/-- A request of the owner's write, with poison only where the write is poisoned. -/
def posted (o : Owner) (poison : Bool) (r : WReq) : Prop := wholeRequest o r ∧ (poison = false → r.poison = [])

theorem posted_piece {a : Nat} {bs : Bytes} {p : Nat × Nat} {o : Owner} {poison announce : Bool} (hmax : a + bs.length ≤ 2 ^ 52)
    (hp : p ∈ splitRange a bs.length) (n : Nat) :
    posted o poison { withOld s (writeReq o (p.1 % 2 ^ 52) (pieceOf a bs p) (if poison then unitsOf a bs.length else [])) with
      announce := announce, stamp := n } := by
  obtain ⟨-, hend, hpos, hunit⟩ := pieces4k_within hp
  have hlen : (pieceOf a bs p).length ≤ p.2 := List.length_take_le ..
  have haddr : p.1 % 2 ^ 52 = p.1 := Nat.mod_eq_of_lt (by omega)
  have hw : wholeRequest o (writeReq o (p.1 % 2 ^ 52) (pieceOf a bs p) (if poison then unitsOf a bs.length else [])) :=
    wholeRequest_writeReq (by omega) _ _
  refine ⟨⟨hw.named, hw.writes, hw.aligned, hw.inUnit, hw.data, hw.mask⟩, fun hclean => ?_⟩
  simp [withOld, writeReq, hclean]

/-- Requests handed to the wells: each well has them, in order, at the end of those that wait there. -/
def handed (P : WReq → Prop) (s t : State) : Prop :=
  tableWf {} t.wells = true ∧ (∀ a, wellOf t a = wellOf s a) ∧ ∀ w, ∃ rs,
    getWell t w = { getWell s w with waiting := (getWell s w).waiting ++ rs } ∧ ∀ r ∈ rs, P r ∧ wellOf s r.addr = w

theorem handed_refl {P : WReq → Prop} (hw : tableWf {} s.wells = true) : handed P s s :=
  ⟨hw, fun _ => rfl, fun w => ⟨[], by rw [List.append_nil], nofun⟩⟩

theorem handed_trans {P : WReq → Prop} {a b d : State} (h1 : handed P a b) (h2 : handed P b d) : handed P a d := by
  obtain ⟨-, ho1, h1⟩ := h1
  obtain ⟨hw2, ho2, h2⟩ := h2
  refine ⟨hw2, fun x => (ho2 x).trans (ho1 x), fun w => ?_⟩
  obtain ⟨rs1, e1, p1⟩ := h1 w
  obtain ⟨rs2, e2, p2⟩ := h2 w
  refine ⟨rs1 ++ rs2, by rw [e2, e1, List.append_assoc], fun r hr => ?_⟩
  rcases List.mem_append.1 hr with hr | hr
  · exact p1 r hr
  · exact ⟨(p2 r hr).1, (ho1 _).symm.trans (p2 r hr).2⟩

theorem handed_enqueueReq {P : WReq → Prop} {r : WReq} (hP : P { r with stamp := s.wellStamp }) (hw : tableWf {} s.wells = true) :
    handed P s (enqueueReq r s) := by
  refine ⟨modWell_wellsWf hw, fun _ => rfl, fun w => ?_⟩
  rw [enqueueReq, getWell_modWell { s with wellStamp := s.wellStamp + 1 } _ _ _ hw]
  split
  · next h =>
    refine ⟨[{ r with stamp := s.wellStamp }], ?_, fun r' hr => ?_⟩
    · rw [h]
      rfl
    · rw [List.mem_singleton.1 hr]
      exact ⟨hP, h.symm⟩
  · exact ⟨[], by rw [List.append_nil]; rfl, nofun⟩

theorem handed_foldl {P : WReq → Prop} {rs : List WReq} (hP : ∀ r ∈ rs, ∀ n, P { r with stamp := n })
    (hw : tableWf {} s.wells = true) : handed P s (rs.foldl (fun s r => enqueueReq r s) s) := by
  induction rs generalizing s with
  | nil => exact handed_refl hw
  | cons r rs ih =>
    have h1 : handed P s (enqueueReq r s) := handed_enqueueReq (hP r List.mem_cons_self _) hw
    exact handed_trans h1 (ih (fun r hr => hP r (List.mem_cons_of_mem _ hr)) h1.1)

theorem enqueueReqs_leaves (rs : List WReq) (s : State) :
    let t := rs.foldl (fun s r => enqueueReq r s) s
    t = { s with wells := t.wells, wellStamp := t.wellStamp } :=
  List.foldlRecOn (motive := fun (u : State) => u = { s with wells := u.wells, wellStamp := u.wellStamp }) _ _ rfl
    (fun u hu r _ => by
      generalize he : enqueueReq r u = v
      have : v = { u with wells := v.wells, wellStamp := v.wellStamp } := by
        rw [← he]
        rfl
      rw [this, hu])

/-- Settles O60: the pieces of a write, written one after another, are the write, and each is a request of its well. -/
theorem writesReachTheirBytesAndTheirWells : Obligations.WritesReachTheirBytesAndTheirWells := by
  intro s owner a bs poison hmax hhost hu
  obtain ⟨-, -, hw, -⟩ := unitsWf_iff.1 hu
  unfold postWrite postWriteBad postWriteAs
  extract_lets ps part rs s1 t
  have h1 : s1 = { s with host := s1.host, hostPoison := s1.hostPoison } := rfl
  have hhost1 : s1.host = mwrite 0 s.host a bs := foldl_mwrite_splitRange hmax s.host
  have hstored := bytesStored_mwrite hhost a bs
  have hleaves : t = { s1 with wells := t.wells, wellStamp := t.wellStamp } := enqueueReqs_leaves rs s1
  have ht : t.host = mwrite 0 s.host a bs := by rw [hleaves]; exact hhost1
  have hrs : ∀ r ∈ rs, ∀ n, posted owner poison { r with stamp := n } := by
    intro r hr n
    obtain ⟨p, hp, rfl⟩ := List.mem_map.1 hr
    exact posted_piece hmax hp n
  obtain ⟨-, -, hgiven⟩ := handed_foldl hrs (s := s1) hw
  refine ⟨by rwa [ht], by rw [ht]; exact memWf_mwrite a bs hhost, ?frame, fun w => ?wells⟩
  case frame =>
    clear_value t s1
    rw [hleaves, h1]
  case wells =>
    obtain ⟨qs, hq, hall⟩ := hgiven w
    refine ⟨qs, hq, fun r hr => ?_⟩
    obtain ⟨⟨hr, hclean⟩, hwell⟩ := hall r hr
    exact ⟨hr.named, hr.writes, hr.aligned, hwell, hr.inUnit, hr.data, hr.mask, hclean⟩

end Sys2Proof.Machine
end

section
/-! What a fault and a bell do (15 R525 to R531; 08 R315 to R317). -/

namespace Sys2Proof.Machine

variable {s t : State}

/-! ### Without the fault ring, a fault writes nothing to host memory -/

/-- From `s` to `t` the fault ring, host memory and the wells stay. -/
structure unposted (s t : State) : Prop where
  flt : t.flt = s.flt
  host : t.host = s.host
  wells : t.wells = s.wells

theorem unposted_refl (s : State) : unposted s s := ⟨rfl, rfl, rfl⟩

theorem unposted_trans {a b d : State} (h1 : unposted a b) (h2 : unposted b d) : unposted a d :=
  ⟨h2.flt.trans h1.flt, h2.host.trans h1.host, h2.wells.trans h1.wells⟩

theorem unposted_ite {a b : State} {p : Prop} [Decidable p] (ha : unposted s a) (hb : unposted s b) :
    unposted s (if p then a else b) := by
  split <;> assumption

theorem unposted_bookNextSector (s : State) : unposted s (bookNextSector s) := by
  unfold bookNextSector
  exact List.foldlRecOn (motive := unposted s) _ _ ⟨rfl, rfl, rfl⟩ (fun _ hu _ _ => unposted_trans hu ⟨rfl, rfl, rfl⟩)

theorem unposted_bookWear (s : State) : unposted s (bookWear s) := ⟨rfl, rfl, rfl⟩

theorem unposted_holdRecord (r : Bytes) (s : State) : unposted s (holdRecord r s) := by
  unfold holdRecord
  split <;> exact ⟨rfl, rfl, rfl⟩

theorem unposted_bookWrite (r : Bytes) (s : State) : unposted s (bookWrite r s) := by
  unfold bookWrite
  refine unposted_ite ?_ (unposted_holdRecord r s)
  extract_lets s1 s2
  have h1 : unposted s s1 := unposted_ite
    (unposted_trans (unposted_bookNextSector s) (unposted_bookWear _)) (unposted_refl s)
  have h2 : unposted s1 s2 := ⟨rfl, rfl, rfl⟩
  clear_value s2
  exact unposted_trans h1 (unposted_trans h2 ⟨rfl, rfl, rfl⟩)

theorem unposted_trigger (u c n : Nat) (s : State) : unposted s (trigger u c n s) := by
  unfold trigger
  split <;> exact ⟨rfl, rfl, rfl⟩

theorem unposted_setStatus (u c n : Nat) (s : State) : unposted s (setStatus u c n s) := by
  unfold setStatus
  refine unposted_ite (unposted_refl s) ?_
  extract_lets s1 s2
  have h1 : unposted s s1 := ⟨rfl, rfl, rfl⟩
  have h2 : unposted s s2 := unposted_trans h1 (unposted_bookWrite _ _)
  exact unposted_ite (unposted_trans h2 (unposted_trigger ..)) h2

theorem unposted_modUnit (u : Nat) (f : UnitSt → UnitSt) (s : State) : unposted s (modUnit u f s) := ⟨rfl, rfl, rfl⟩

theorem unposted_chargeUnit (c u : Nat) (s : State) : unposted s (chargeUnit c u s) :=
  unposted_trans (unposted_modUnit ..) (unposted_setStatus ..)

theorem unposted_bookFault (c d u : Nat) (r : Bytes) (s : State) : unposted s (bookFault c d u r s) := by
  unfold bookFault
  simp only
  have hwrite : ∀ f, unposted s (bookWrite r (modUnit u f s)) :=
    fun f => unposted_trans (unposted_modUnit ..) (unposted_bookWrite ..)
  split
  · exact unposted_ite (unposted_modUnit ..) (hwrite _)
  · exact hwrite _

theorem unposted_raiseOnce (hc : bitOf s.flt.ctl 0 = false) (a b c d e f : Nat) (p : Option Nat) :
    unposted s (raiseOnce a b c d e f p s) := by
  unfold raiseOnce
  extract_lets s1 sq r s2 s3 s4
  have h2 : unposted s s2 := by
    simp only [s2]
    rw [if_neg (by simp [s1, hc])]
    exact ⟨rfl, rfl, rfl⟩
  have h4 : unposted s s4 := unposted_trans h2 (unposted_trans (unposted_bookFault ..) (unposted_chargeUnit ..))
  split
  · exact h4
  · exact unposted_trans h4 (unposted_trans (unposted_chargeUnit ..)
      (unposted_trans (unposted_trigger ..) (unposted_trigger ..)))

theorem unposted_bookWatch (hc : bitOf s.flt.ctl 0 = false) (o : State) : unposted s (bookWatch o s) := by
  unfold bookWatch
  extract_lets b s1
  have h1 : unposted s s1 := by
    refine unposted_ite (unposted_trans (b := { s with book := { s.book with warn := true } }) ⟨rfl, rfl, rfl⟩ ?_) (unposted_refl s)
    exact unposted_raiseOnce (s := { s with book := { s.book with warn := true } }) hc ..
  exact unposted_ite (unposted_trans h1 (unposted_raiseOnce (by rwa [h1.flt]) ..)) h1

theorem unposted_raise (hc : bitOf s.flt.ctl 0 = false) (a b c d e : Nat) : unposted s (raise a b c d e s) := by
  have h1 : unposted s (raiseOnce a b c d e 0 none s) := unposted_raiseOnce hc ..
  exact unposted_trans h1 (unposted_bookWatch (by rwa [h1.flt]) _)

/-! ### The histories of the units -/

/-- From `s` to `t` the tables of the units stay in canonical form and only unit `u` changes its history. -/
structure unitOnly (u : Nat) (s t : State) : Prop where
  leaves : tableWf {} s.units = true → tableWf {} t.units = true ∧ ∀ x, x ≠ u → getUnit t x = getUnit s x

theorem unitOnly_of_units {u : Nat} (h : t.units = s.units) : unitOnly u s t :=
  ⟨fun hw => ⟨h ▸ hw, fun x _ => by rw [getUnit, getUnit, h]⟩⟩

theorem unitOnly_trans {u : Nat} {a b d : State} (h1 : unitOnly u a b) (h2 : unitOnly u b d) : unitOnly u a d := ⟨fun hw => by
  obtain ⟨hwb, hb⟩ := h1.leaves hw
  obtain ⟨hwd, hd⟩ := h2.leaves hwb
  exact ⟨hwd, fun x hx => (hd x hx).trans (hb x hx)⟩⟩

theorem unitOnly_ite {u : Nat} {a b : State} {p : Prop} [Decidable p] (ha : unitOnly u s a) (hb : unitOnly u s b) :
    unitOnly u s (if p then a else b) := by
  split <;> assumption

theorem unitOnly_modUnit (u : Nat) (f : UnitSt → UnitSt) (s : State) : unitOnly u s (modUnit u f s) :=
  ⟨fun hw => ⟨tableWf_tset _ _ hw, fun x hx => by rw [getUnit_modUnit _ _ _ _ hw, if_neg hx]⟩⟩

theorem bookNextSector_units (s : State) : (bookNextSector s).units = s.units := by
  unfold bookNextSector
  exact List.foldlRecOn (motive := fun (u : State) => u.units = s.units) _ _ rfl (fun _ hu _ _ => hu)

theorem bookWear_units (s : State) : (bookWear s).units = s.units := rfl

theorem holdRecord_units (r : Bytes) (s : State) : (holdRecord r s).units = s.units := by
  unfold holdRecord
  split <;> rfl

theorem bookWrite_units (r : Bytes) (s : State) : (bookWrite r s).units = s.units := by
  unfold bookWrite
  split
  · extract_lets s1 s2
    have h1 : s1.units = s.units := by
      simp only [s1]
      split
      · exact (bookWear_units _).trans (bookNextSector_units s)
      · rfl
    have h2 : s2.units = s1.units := flashProgram_units ..
    clear_value s2
    exact h2.trans h1
  · exact holdRecord_units r s

theorem trigger_units (u c n : Nat) (s : State) : (trigger u c n s).units = s.units := by
  unfold trigger
  split <;> rfl

theorem postWriteAs_units (n : Bool) (o : Owner) (a : Nat) (bs : Bytes) (bad : List Nat) (s : State) :
    (postWriteAs n o a bs bad s).units = s.units := by
  unfold postWriteAs
  exact List.foldlRecOn (motive := fun (u : State) => u.units = s.units) _ _ rfl (fun _ hu _ _ => hu)

theorem setRing_units (s : State) (i : RingId) (r : Ring) : (setRing s i r).units = s.units := by
  cases i <;> rfl

theorem ringPush_units (i : RingId) (e : Bytes) (s : State) : (ringPush i e s).units = s.units := by
  have hput : (ringPut i e s).units = s.units := by
    unfold ringPut
    refine (setRing_units ..).trans ?_
    split <;> exact postWriteAs_units ..
  unfold ringPush
  simp only
  split
  · exact hput
  · split <;> exact setRing_units ..

theorem unitOnly_setStatus (u c n : Nat) (s : State) : unitOnly u s (setStatus u c n s) := by
  unfold setStatus
  refine unitOnly_ite (unitOnly_of_units rfl) ?_
  extract_lets s1 s2
  have h2 : unitOnly u s s2 := unitOnly_trans (b := s1) (unitOnly_trans (unitOnly_modUnit u (fun k => { k with status := n }) s)
    (unitOnly_of_units rfl)) (unitOnly_of_units (bookWrite_units ..))
  exact unitOnly_ite (unitOnly_trans h2 (unitOnly_of_units (trigger_units ..))) h2

theorem unitOnly_chargeUnit (c u : Nat) (s : State) : unitOnly u s (chargeUnit c u s) :=
  unitOnly_trans (unitOnly_modUnit u _ s) (unitOnly_setStatus ..)

theorem unitOnly_bookFault (c d u : Nat) (r : Bytes) (s : State) : unitOnly u s (bookFault c d u r s) := by
  unfold bookFault
  simp only
  have hwrite : ∀ f, unitOnly u s (bookWrite r (modUnit u f s)) :=
    fun f => unitOnly_trans (unitOnly_modUnit u f s) (unitOnly_of_units (bookWrite_units ..))
  split
  · exact unitOnly_ite (unitOnly_modUnit ..) (hwrite _)
  · exact hwrite _

theorem unitOnly_raiseOnce (a b u d e f : Nat) (s : State) : unitOnly u s (raiseOnce a b u d e f none s) := by
  unfold raiseOnce
  extract_lets s1 sq r s2 s3 s4
  have h2 : unitOnly u s s2 := unitOnly_trans (b := s1) (unitOnly_of_units rfl)
    (unitOnly_ite (unitOnly_of_units (ringPush_units ..)) (unitOnly_of_units rfl))
  exact unitOnly_trans h2 (unitOnly_trans (unitOnly_bookFault ..) (unitOnly_chargeUnit ..))

/-- The book's own faults are faults of the steward. -/
theorem unitOnly_bookWatch (o s : State) : unitOnly uSteward s (bookWatch o s) := by
  unfold bookWatch
  extract_lets b s1
  have h1 : unitOnly uSteward s s1 :=
    unitOnly_ite (unitOnly_trans (b := { s with book := { s.book with warn := true } }) (unitOnly_of_units rfl)
      (unitOnly_raiseOnce ..)) (unitOnly_of_units rfl)
  exact unitOnly_ite (unitOnly_trans h1 (unitOnly_raiseOnce ..)) h1

/-- A deadline fault is charged to a clean unit's history and leaves the unit clean. -/
theorem chargeUnit_of_clean {u : Nat} (hw : tableWf {} s.units = true) (h0 : (getUnit s u).status = 0)
    (hf : (getUnit s u).faults = []) :
    chargeUnit 7 u s = modUnit u (fun k => { k with faults := [(recordTime s, 7)] }) s := by
  have hjudged : judged s u 7 = 0 := by simp [judged, h0, classCounts]
  have hmod : modUnit u (fun k => { k with faults := k.faults.filter (fun f => inWindow s f.1) ++ [(recordTime s, 7)] }) s =
      modUnit u (fun k => { k with faults := [(recordTime s, 7)] }) s := by simp [modUnit, hf]
  unfold chargeUnit
  simp only [hjudged, hmod]
  unfold setStatus
  rw [if_pos]
  rw [getUnit_modUnit _ _ _ _ hw, if_pos rfl]
  exact h0

theorem recordTime_of_reported (h : reported s t) : recordTime t = recordTime s := by
  rw [h]
  rfl

/-- The history of a clean unit after one deadline fault. -/
theorem raiseOnce_of_clean {u : Nat} (hw : tableWf {} s.units = true) (hu : getUnit s u = {}) (b d e f : Nat) :
    (getUnit (raiseOnce 7 b u d e f none s) u).status = 0 ∧
      (getUnit (raiseOnce 7 b u d e f none s) u).faults = [(recordTime s, 7)] := by
  unfold raiseOnce
  extract_lets s1 sq r s2 s3 s4
  have hu2 : s2.units = s.units := by
    simp only [s2]
    split
    · exact ringPush_units ..
    · rfl
  have hs3 : s3 = bookWrite r (modUnit u (fun k => { k with lastRec := some (recordTime s2) }) s2) := by
    have : (getUnit s2 u).lastRec = none := by rw [getUnit, hu2, ← getUnit, hu]
    simp only [s3, bookFault, this]
  have ht : recordTime s3 = recordTime s := by
    have h2 : reported s s2 := reported_trans (b := s1) rfl (reported_ite (reported_ringPush ..) rfl)
    exact recordTime_of_reported (reported_trans h2 (reported_bookFault ..))
  have hw3 : tableWf {} s3.units = true := by
    rw [hs3, bookWrite_units]
    exact tableWf_tset _ _ (hu2 ▸ hw)
  have hu3 : getUnit s3 u = { lastRec := some (recordTime s2) } := by
    rw [getUnit, hs3, bookWrite_units, ← getUnit, getUnit_modUnit _ _ _ _ (hu2 ▸ hw), if_pos rfl, getUnit, hu2, ← getUnit, hu]
  have hs4 : s4 = modUnit u (fun k => { k with faults := [(recordTime s3, 7)] }) s3 :=
    chargeUnit_of_clean hw3 (by rw [hu3]) (by rw [hu3])
  simp only [hs4, getUnit_modUnit _ _ _ _ hw3, if_true, hu3, ht, and_self]

theorem raise_of_clean {u : Nat} (hw : tableWf {} s.units = true) (hu : getUnit s u = {}) (hne : u ≠ uSteward) (b d e : Nat) :
    (getUnit (raise 7 b u d e s) u).status = 0 ∧ (getUnit (raise 7 b u d e s) u).faults = [(recordTime s, 7)] := by
  have hw1 := ((unitOnly_raiseOnce 7 b u d e 0 s).leaves hw).1
  have h : getUnit (raise 7 b u d e s) u = getUnit (raiseOnce 7 b u d e 0 none s) u := ((unitOnly_bookWatch s _).leaves hw1).2 u hne
  rw [h]
  exact raiseOnce_of_clean hw hu b d e 0

/-! ### The rings -/

/-- The next place of a ring that takes an entry. -/
def ringNext (r : Ring) : Ring :=
  let h := (r.head % r.size + 1) % r.size
  { r with head := h, lap := if h = 0 then !r.lap else r.lap }

theorem getRing_setRing (s : State) (i : RingId) (r : Ring) : getRing (setRing s i r) i = r := by
  cases i <;> rfl

theorem ringPut_ring (i : RingId) (e : Bytes) (s : State) : getRing (ringPut i e s) i = ringNext (getRing s i) := by
  unfold ringPut
  exact getRing_setRing ..

theorem ringPush_of_empty {i : RingId} {e : Bytes} (hq : (getRing s i).queue = []) (hf : (getRing s i).full = false) :
    ringPush i e s = ringPut i e s := by simp [ringPush, hq, hf]

theorem ringPush_of_full {i : RingId} {e : Bytes} (hf : (getRing s i).full = true) (hroom : (getRing s i).queue.length < i.cap) :
    ringPush i e s = setRing s i { getRing s i with queue := (getRing s i).queue ++ [e] } := by
  simp [ringPush, hf, hroom]

theorem ringNext_lap (r : Ring) : (ringNext r).lap = r.lap ↔ (ringNext r).head ≠ 0 := by
  unfold ringNext
  extract_lets h
  by_cases h0 : h = 0 <;> simp [h0]

/-! ### A deadline fault with an unbound book -/

/-- With an unbound book a record waits in the always-on store, or is lost. -/
theorem bookWrite_of_unbound (hb : s.book.bound = false) (r : Bytes) : bookWrite r s = holdRecord r s := by
  simp [bookWrite, hb]

theorem holdRecord_flt (r : Bytes) (s : State) : (holdRecord r s).flt = s.flt := by
  unfold holdRecord
  split <;> rfl

/-- A record that waits leaves the count of the book, and its wear. -/
theorem holdRecord_book (r : Bytes) (s : State) :
    (holdRecord r s).book.seq = s.book.seq ∧ (holdRecord r s).book.wear = s.book.wear ∧
      (holdRecord r s).book.stopped = s.book.stopped := by
  unfold holdRecord
  split <;> exact ⟨rfl, rfl, rfl⟩

/-- The state in which one deadline fault of a clean unit has gone to the ring. -/
def faultPosted (u d e f : Nat) (s : State) : State :=
  let s1 := nextSeq { s with faultCnt := tset 0 s.faultCnt 7 (satInc (tget 0 s.faultCnt 7) 1) }
  if bitOf s.flt.ctl 0 then ringPush .flt (recordBytes (nextSeq s) 1 7 d u 1 e f 0 0) s1 else s1

theorem faultPosted_book (u d e f : Nat) (s : State) : (faultPosted u d e f s).book = (nextSeq s).book := by
  unfold faultPosted
  extract_lets s1
  split
  · exact ringPush_book ..
  · rfl

theorem faultPosted_units (u d e f : Nat) (s : State) : (faultPosted u d e f s).units = s.units := by
  unfold faultPosted
  extract_lets s1
  split
  · exact ringPush_units ..
  · rfl

/-- The book has nothing of its own to report while its wear and its use stay. -/
theorem bookWatch_of_same (hw : t.book.wear = s.book.wear) (hst : t.book.stopped = s.book.stopped) : bookWatch s t = t := by
  have hno : ¬ (s.book.wear < 900 ∧ 900 ≤ t.book.wear) := by omega
  simp [bookWatch, hno, hst]

/-- One deadline fault of a clean unit, with an unbound book, is one record, and the book takes no more. -/
theorem raise_of_unbound {u : Nat} (hw : tableWf {} s.units = true) (hu : getUnit s u = {}) (hb : s.book.bound = false)
    (d e f : Nat) : (raise 7 d u e f s).book.seq = s.book.seq + 1 ∧ (raise 7 d u e f s).flt = (faultPosted u d e f s).flt := by
  have hbook := faultPosted_book u d e f s
  have hunits := faultPosted_units u d e f s
  generalize hp : faultPosted u d e f s = s2 at hbook hunits
  have hw2 : tableWf {} s2.units = true := hunits ▸ hw
  have hu2 : getUnit s2 u = {} := by rw [getUnit, hunits, ← getUnit, hu]
  let r := recordBytes (nextSeq s) 1 7 d u 1 e f 0 0
  let s3 := holdRecord r (modUnit u (fun k => { k with lastRec := some (recordTime s2) }) s2)
  have hs3 : bookFault 7 d u r s2 = s3 := by
    simp only [bookFault, hu2]
    exact bookWrite_of_unbound (s := modUnit u _ s2) (by rw [modUnit_book, hbook]; exact hb) r
  have hu3 : getUnit s3 u = { lastRec := some (recordTime s2) } := by
    rw [getUnit, holdRecord_units, ← getUnit, getUnit_modUnit _ _ _ _ hw2, if_pos rfl, hu2]
  have hs4 : chargeUnit 7 u s3 = modUnit u (fun k => { k with faults := [(recordTime s3, 7)] }) s3 :=
    chargeUnit_of_clean (by rw [holdRecord_units]; exact tableWf_tset _ _ hw2) (by rw [hu3]) (by rw [hu3])
  have honce : raiseOnce 7 d u e f 0 none s = modUnit u (fun k => { k with faults := [(recordTime s3, 7)] }) s3 := by
    rw [← hs4, ← hs3, ← hp]
    rfl
  obtain ⟨hseq, hwear, hstop⟩ := holdRecord_book r (modUnit u (fun k => { k with lastRec := some (recordTime s2) }) s2)
  have hwatch : raise 7 d u e f s = raiseOnce 7 d u e f 0 none s := by
    have hwear3 : (raiseOnce 7 d u e f 0 none s).book.wear = s.book.wear := by
      rw [honce]
      exact hwear.trans (by rw [modUnit_book, hbook]; rfl)
    have hstop3 : (raiseOnce 7 d u e f 0 none s).book.stopped = s.book.stopped := by
      rw [honce]
      exact hstop.trans (by rw [modUnit_book, hbook]; rfl)
    exact bookWatch_of_same hwear3 hstop3
  rw [hwatch, honce]
  exact ⟨hseq.trans (by rw [modUnit_book, hbook]; rfl), holdRecord_flt ..⟩

theorem faultPosted_of_empty {u d e f : Nat} (hc : bitOf s.flt.ctl 0 = true) (hq : s.flt.queue = []) (hf : s.flt.full = false) :
    (faultPosted u d e f s).flt = ringNext s.flt := by
  unfold faultPosted
  extract_lets s1
  rw [if_pos hc, ringPush_of_empty (s := s1) (i := .flt) hq hf]
  exact ringPut_ring .flt _ s1

theorem faultPosted_of_full {u d e f : Nat} (hc : bitOf s.flt.ctl 0 = true) (hf : s.flt.full = true)
    (hroom : s.flt.queue.length < 256) : (faultPosted u d e f s).flt =
      { s.flt with queue := s.flt.queue ++ [recordBytes (nextSeq s) 1 7 d u 1 e f 0 0] } := by
  unfold faultPosted
  extract_lets s1
  rw [if_pos hc, ringPush_of_full (s := s1) (i := .flt) hf hroom]
  rfl

/-! ### Bells -/

/-- A write to host memory changes host memory and what waits at the wells. -/
theorem postWriteAs_leaves (n : Bool) (o : Owner) (a : Nat) (bs : Bytes) (bad : List Nat) (s : State) :
    let t := postWriteAs n o a bs bad s
    t = { s with host := t.host, hostPoison := t.hostPoison, wells := t.wells, wellStamp := t.wellStamp } := by
  unfold postWriteAs
  extract_lets ps part rs s1 t
  have h1 : s1 = { s with host := s1.host, hostPoison := s1.hostPoison } := rfl
  have ht : t = { s1 with wells := t.wells, wellStamp := t.wellStamp } := enqueueReqs_leaves rs s1
  clear_value t s1
  rw [ht, h1]

/-- From `s` to `t` only the bell ring and the writes that carry its entries change. -/
def belled (s t : State) : Prop :=
  t = { s with bell := t.bell, host := t.host, hostPoison := t.hostPoison, wells := t.wells, wellStamp := t.wellStamp }

theorem belled_ringPush (e : Bytes) (s : State) : belled s (ringPush .bell e s) := by
  have hput : belled s (ringPut .bell e s) := by
    unfold ringPut
    extract_lets r h a s1 h'
    have h1 : s1 = { s with host := s1.host, hostPoison := s1.hostPoison, wells := s1.wells, wellStamp := s1.wellStamp } :=
      postWriteAs_leaves ..
    clear_value s1
    rw [h1]
    rfl
  unfold ringPush
  extract_lets r
  split
  · exact hput
  · split <;> rfl

/-- The bell ring takes the entry of a bell when bells are enabled. -/
def bellPosted (g q c st k : Nat) (s : State) : State :=
  if bitOf s.bell.ctl 0 then ringPush .bell (bellBytes g q c st k) s else s

theorem belled_bellPosted (g q c st k : Nat) (s : State) : belled s (bellPosted g q c st k s) := by
  unfold bellPosted
  split
  · exact belled_ringPush ..
  · rfl

/-- The count of the events that have ended well, by class. -/
def doneCounted (q st : Nat) (t : List (Nat × U32)) : List (Nat × U32) :=
  if st ≤ 2 then tset 0 t (q / 1024 % 64) (tget 0 t (q / 1024 % 64) + 1) else t

theorem ringBell_eq (g q c st k : Nat) (s : State) :
    ringBell g q c st k s = { bellPosted g q c st k s with doneCnt := doneCounted q st s.doneCnt } := by
  have hdone : (bellPosted g q c st k s).doneCnt = s.doneCnt := by rw [belled_bellPosted]
  by_cases hst : st ≤ 2
  · rw [doneCounted, if_pos hst, ← hdone]
    exact if_pos hst
  · rw [doneCounted, if_neg hst, ← hdone]
    exact if_neg hst

/-- Settles O59. -/
theorem faultsAreCountedAndRecorded : Obligations.FaultsAreCountedAndRecorded := by
  refine ⟨fun s cls detail unit info0 info1 => ⟨reported_raise .., fun h => raise_count _ _ _ _ _ _ h,
    fun c h1 h2 => raise_count_other _ _ _ _ _ _ h1 h2, fun hc => ?silent, fun hu hclean hne hcls => ?history⟩, ?bell⟩
  case silent => 
    have := unposted_raise hc cls detail unit info0 info1
    exact ⟨this.flt, this.host, this.wells⟩
  case history =>
    subst hcls
    obtain ⟨-, -, -, hw⟩ := unitsWf_iff.1 hu
    obtain ⟨hstatus, hfaults⟩ := raise_of_clean hw hclean hne detail info0 info1
    refine ⟨hstatus, hfaults, fun hb => ?_⟩
    obtain ⟨hseq, hflt⟩ := raise_of_unbound hw hclean hb detail info0 info1
    simp only [hflt]
    refine ⟨hseq, fun hc hq hf => ?_, fun hc hf hroom => faultPosted_of_full hc hf hroom⟩
    rw [faultPosted_of_empty hc hq hf]
    exact ⟨rfl, rfl⟩
  case bell =>
    intro s g q c st k t
    have hbell := belled_bellPosted g q c st k s
    have ht : t = { bellPosted g q c st k s with doneCnt := doneCounted q st s.doneCnt } := ringBell_eq g q c st k s
    rw [ht]
    refine ⟨?leaves, fun hc => ?disabled, fun hst => if_neg (by omega), fun hst => if_pos hst, fun hc hq hf => ?empty,
      fun hc hf hroom => ?full⟩
    case leaves =>
      rw [hbell]
    case disabled =>
      have : bellPosted g q c st k s = s := if_neg (by simp [hc])
      rw [this]
      exact ⟨rfl, rfl⟩
    case empty =>
      have hring : (bellPosted g q c st k s).bell = ringNext s.bell := by
        rw [bellPosted, if_pos hc, ringPush_of_empty (i := .bell) hq hf]
        exact ringPut_ring .bell _ s
      simp only [hring, ringNext_lap, iff_self, and_true]
      exact ⟨rfl, rfl⟩
    case full =>
      rw [bellPosted, if_pos hc, ringPush_of_full (i := .bell) hf hroom]
      exact ⟨rfl, rfl⟩

end Sys2Proof.Machine
end

section
/-! The management port: what a write does and what a read answers, captures and clears (00 R14 to R16; 16 R563, R583, R587;
17 R581, R594). -/

namespace Sys2Proof.Machine

variable {s t : State}

/-! ### The holding copies -/

theorem find?_insertBy_of_only {α : Type} {key : α → Nat} {a : α} {p : α → Bool} (hp : p a = true) {l : List α}
    (hl : ∀ x ∈ l, p x = false) : (insertBy key a l).find? p = some a := by
  induction l with
  | nil => simp [insertBy, hp]
  | cons x l ih =>
    unfold insertBy
    split
    · simp [hp]
    · rw [List.find?_cons_of_neg (by simp [hl x List.mem_cons_self])]
      exact ih (fun y hy => hl y (List.mem_cons_of_mem _ hy))

/-- A master holds the one word that it wrote last to a _LO half. -/
theorem find?_putHold (m key : Nat) (v : U32) (l : List (Nat × (Nat × U32))) :
    (putHold m key v l).find? (fun e => e.1 == m) = some (m, (key, v)) :=
  find?_insertBy_of_only (by simp) (fun x hx => by simpa using (List.mem_filter.1 hx).2)

theorem find?_dropHold (m : Nat) (l : List (Nat × (Nat × U32))) : (dropHold m l).find? (fun e => e.1 == m) = none :=
  List.find?_eq_none.2 (fun x hx => by simpa using (List.mem_filter.1 hx).2)

theorem dropHi_dropHi (m key : Nat) (l : List (Nat × (Nat × U32))) : dropHi m key (dropHi m key l) = dropHi m key l := by
  simp [dropHi, List.filter_filter]

/-- A master holds what it captured of a pair. -/
theorem find?_putHi (m key : Nat) (v : U32) (l : List (Nat × (Nat × U32))) :
    (putHi m key v l).find? (fun e => e.1 == m && e.2.1 == key) = some (m, (key, v)) :=
  find?_insertBy_of_only (by simp) (fun x hx => by simpa [Decidable.imp_iff_not_or] using (List.mem_filter.1 hx).2)

theorem find?_dropHi (m key : Nat) (l : List (Nat × (Nat × U32))) :
    (dropHi m key l).find? (fun e => e.1 == m && e.2.1 == key) = none :=
  List.find?_eq_none.2 (fun x hx => by simpa [Decidable.imp_iff_not_or] using (List.mem_filter.1 hx).2)

/-! ### The addresses -/

theorem exec_registerWrite {m a : Nat} (hs : live s = true) (hm : m < 16) (v : U32) :
    exec (.registerWrite m a v) s = .next (mgtWrite m (a % 2 ^ 22 / 4 * 4) v s) :=
  (act_of_live hs _).trans (by rw [Nat.mod_eq_of_lt hm])

theorem exec_pairWriteLo {m a : Nat} (hs : live s = true) (hm : m < 16) (v : U32) :
    exec (.pairWriteLo m a v) s = .next (pairWriteLo m (a % 2 ^ 22 / 4 * 4) v s) :=
  (act_of_live hs _).trans (by rw [Nat.mod_eq_of_lt hm])

theorem exec_readLoCapture {m a : Nat} (hs : live s = true) (hm : m < 16) (ha : a < 2 ^ 22) (h4 : a % 4 = 0) :
    exec (.readLoCapture m a) s = .next (mgtRead m a s) := by
  have haddr : a % 2 ^ 22 / 4 * 4 = a := by omega
  exact (act_of_live hs _).trans (by rw [Nat.mod_eq_of_lt hm, haddr])

theorem place_block (s : State) (m : Nat) {a : Nat} (h : a < 0x10000) : place s m a = some (.block, a) := if_pos h

theorem place_gate (s : State) (m : Nat) {g : Nat} (h : g < 96) : place s m (0x100000 + 0x1000 * g) = some (.gate g, 0) := by
  have hpage : (0x100000 + 0x1000 * g - 0x100000) / 0x1000 = g := by omega
  have hoff : (0x100000 + 0x1000 * g) % 0x1000 = 0 := by omega
  rw [place, if_neg (by omega), if_neg (by omega), if_neg (by omega), if_pos (by simp only [numGates]; omega), hpage, hoff]

/-! ### Pairs -/

theorem isSome_pairAt_of_rwPair {p : Page} {o : Nat} (s : State) (h : rwPair p o = true) : (pairAt s p o).isSome = true := by
  cases p with
  | block =>
    simp only [rwPair, List.contains_iff_mem, List.mem_cons, List.not_mem_nil, or_false] at h
    rcases h with rfl | rfl | rfl | rfl | rfl | rfl <;> rfl
  | book =>
    simp only [rwPair, List.contains_iff_mem, List.mem_cons, List.not_mem_nil, or_false] at h
    rcases h with rfl | rfl <;> rfl
  | roll => cases h
  | gate g => cases h
  | core c =>
    rw [eq_of_beq h]
    rfl
  | well w =>
    rw [eq_of_beq h]
    rfl

/-- Behind the _LO half of a pair that may be written no other pair begins. -/
theorem pairAt_hi_of_rwPair {p : Page} {o : Nat} (s : State) (h : rwPair p o = true) : pairAt s p (o + 4) = none := by
  cases p with
  | block =>
    simp only [rwPair, List.contains_iff_mem, List.mem_cons, List.not_mem_nil, or_false] at h
    rcases h with rfl | rfl | rfl | rfl | rfl | rfl <;> rfl
  | book =>
    simp only [rwPair, List.contains_iff_mem, List.mem_cons, List.not_mem_nil, or_false] at h
    rcases h with rfl | rfl <;> rfl
  | roll => cases h
  | gate g => cases h
  | core c =>
    rw [eq_of_beq h]
    rfl
  | well w =>
    rw [eq_of_beq h]
    simp [pairAt]

/-- The pairs do not depend on the holding copies and the pins. -/
theorem pairAt_of_mgt (s : State) (x : Mgt) (y : Pins) (p : Page) (o : Nat) :
    pairAt { s with mgt := x, pins := y } p o = pairAt s p o := by
  cases p <;> rfl

theorem joinHalves_eq (lo hi : U32) : joinHalves lo hi = hi ++ lo := by
  apply BitVec.eq_of_toNat_eq
  rw [joinHalves, BitVec.toNat_append, BitVec.toNat_ofNat, ← Nat.shiftLeft_add_eq_or_of_lt lo.isLt, Nat.shiftLeft_eq]
  omega

theorem loHalf_eq (w : U64) : loHalf w = w.truncate 32 := rfl

/-- The end of a holding copy of reads. -/
theorem writeEndsHold_leaves (m key : Nat) (s : State) :
    ∃ h, writeEndsHold m key s = { s with mgt := { s.mgt with holdHi := h } } := by
  unfold writeEndsHold
  split
  · exact ⟨_, rfl⟩
  · exact ⟨s.mgt.holdHi, rfl⟩

theorem heldHi_writeEndsHold (m key : Nat) (s : State) : heldHi (writeEndsHold m key s) m key = none := by
  unfold writeEndsHold
  split
  · simp [heldHi, find?_dropHi]
  · next h => simpa using h

theorem writeEndsHold_of_none {m key : Nat} (h : heldHi s m key = none) : writeEndsHold m key s = s := if_neg (by simp [h])

/-- A write to the _LO half of a pair is one access to the pair. -/
theorem holdLo_writeEndsHold (m : Nat) (p : Page) (o : Nat) (v : U32) (s : State) :
    holdLo m p o v (writeEndsHold m (regKey p o) s) = holdLo m p o v s := by
  obtain h | ⟨x, h⟩ := Option.eq_none_or_eq_some (heldHi s m (regKey p o))
  · rw [writeEndsHold_of_none h]
  · have hdrop : writeEndsHold m (regKey p o) s = { s with mgt := { s.mgt with holdHi := dropHi m (regKey p o) s.mgt.holdHi } } :=
      if_pos (by simp [h])
    have hnone : heldHi (writeEndsHold m (regKey p o) s) m (regKey p o) = none := heldHi_writeEndsHold ..
    have h1 : holdLo m p o v (writeEndsHold m (regKey p o) s) =
        { writeEndsHold m (regKey p o) s with mgt := { (writeEndsHold m (regKey p o) s).mgt with
          holdLo := putHold m (regKey p o) v (writeEndsHold m (regKey p o) s).mgt.holdLo } } := writeEndsHold_of_none hnone
    rw [h1, hdrop]
    exact (if_pos (by simpa [heldHi] using congrArg Option.isSome h)).symm

theorem writeIsAccess_of_lo {m : Nat} {p : Page} {o : Nat} (h : (pairAt s p o).isSome = true) :
    writeIsAccess m p o s = writeEndsHold m (regKey p o) s := if_pos h

theorem mgtWrite_lo {m a : Nat} {p : Page} {o : Nat} (hp : place s m a = some (p, o)) (hr : rwPair p o = true)
    (he : s.boot.memErr = false) (v : U32) :
    mgtWrite m a v s = holdLo m p o v { s with pins := { s.pins with mgtErr := false } } := by
  have hpair : (pairAt { s with pins := { s.pins with mgtErr := false } } p o).isSome = true := isSome_pairAt_of_rwPair _ hr
  simp only [mgtWrite, hp, he, Bool.false_eq_true, if_false, hr, if_true]
  rw [writeIsAccess_of_lo hpair, holdLo_writeEndsHold]

theorem pairWriteLo_lo {m a : Nat} {p : Page} {o : Nat} (hp : place s m a = some (p, o)) (hr : rwPair p o = true)
    (he : s.boot.memErr = false) (v : U32) :
    pairWriteLo m a v s = holdLo m p o v { s with pins := { s.pins with mgtErr := false } } := by
  simp [pairWriteLo, hp, hr, he]

theorem pairWriteLo_of_not {m a : Nat} (h : s.boot.memErr = true ∨ ∀ p o, place s m a = some (p, o) → rwPair p o = false)
    (v : U32) : pairWriteLo m a v s = s := by
  unfold pairWriteLo
  split
  · next p o hp =>
    refine if_neg ?_
    rcases h with h | h
    · simp [h]
    · simp [h p o hp]
  · rfl

/-- The write of a _HI half: what the other half is, and what is left of the holding copies. -/
theorem mgtWrite_hi {m a : Nat} {p : Page} {o : Nat} (hp : place s m a = some (p, o + 4)) (hr : rwPair p o = true)
    (hr4 : rwPair p (o + 4) = false) (he : s.boot.memErr = false) (hi : U32) :
    mgtWrite m a hi s = commitHi m p o hi (writeEndsHold m (regKey p o) { s with pins := { s.pins with mgtErr := false } }) := by
  have hnone : pairAt { s with pins := { s.pins with mgtErr := false } } p (o + 4) = none := pairAt_hi_of_rwPair _ hr
  have hpair : (pairAt { s with pins := { s.pins with mgtErr := false } } p o).isSome = true := isSome_pairAt_of_rwPair _ hr
  have haccess : writeIsAccess m p (o + 4) { s with pins := { s.pins with mgtErr := false } } =
      writeEndsHold m (regKey p o) { s with pins := { s.pins with mgtErr := false } } := by
    simp [writeIsAccess, pairBelow, hnone, hpair]
  simp [mgtWrite, hp, he, hr4, hr, haccess]

/-- The commit of a pair, in the terms of the halves. -/
theorem commitHi_eq (m : Nat) (p : Page) (o : Nat) (hi : U32) (s : State) : ∃ u old,
    commitHi m p o hi s = commitPair p o (hi ++ old) u ∧ u = { s with mgt := u.mgt } ∧
      (∀ lo, s.mgt.holdLo.find? (fun e => e.1 == m && e.2.1 == regKey p o) = some (m, (regKey p o, lo)) →
        old = lo ∧ u.mgt.holdLo.find? (fun e => e.1 == m) = none) ∧
      (s.mgt.holdLo.find? (fun e => e.1 == m && e.2.1 == regKey p o) = none →
        (∀ w, pairAt s p o = some w → old = w.truncate 32) ∧ u.mgt.holdLo = s.mgt.holdLo) := by
  unfold commitHi
  extract_lets key held lo x s1
  obtain ⟨hs, hu⟩ := writeEndsHold_leaves m key s1
  refine ⟨writeEndsHold m key s1, lo, by rw [joinHalves_eq], ?_, fun w hw => ?_, fun hw => ⟨fun w hpair => ?_, ?_⟩⟩
  · rw [hu]
    simp only [s1]
    split <;> rfl
  · have hheld : held = some w := by simp [held, key, hw]
    refine ⟨by simp [lo, hheld], ?_⟩
    rw [hu]
    simp only [s1, hheld, Option.isSome_some, if_true]
    exact find?_dropHold ..
  · have hheld : held = none := by simp [held, key, hw]
    simp only [lo, hheld, Option.getD_none, hpair, Option.getD_some, loHalf_eq]
  · have hheld : held = none := by simp [held, key, hw]
    rw [hu]
    simp [s1, hheld]

/-- Settles O40. -/
theorem pairsCommitBothHalves : Obligations.PairsCommitBothHalves := by
  intro s m a v hi hs hm r
  refine ⟨fun h => ?refused, fun he => ⟨fun p o hp hr => ⟨?held, ?same⟩, fun p o hp hr hr4 => ?commit⟩,
    fun w => ⟨rfl, rfl, rfl, rfl, rfl, rfl⟩⟩
  case refused => rw [exec_pairWriteLo hs hm, pairWriteLo_of_not h]
  case held =>
    refine ⟨_, exec_pairWriteLo hs hm v, ?_⟩
    rw [pairWriteLo_lo hp hr he, holdLo]
    obtain ⟨h, hh⟩ := writeEndsHold_leaves m (regKey p o) { s with
      pins := { s.pins with mgtErr := false }, mgt := { s.mgt with holdLo := putHold m (regKey p o) v s.mgt.holdLo } }
    rw [hh]
    exact ⟨pairAt_of_mgt .., find?_putHold ..⟩
  case same => rw [exec_registerWrite hs hm, exec_pairWriteLo hs hm, pairWriteLo_lo hp hr he, mgtWrite_lo hp hr he]
  case commit =>
    obtain ⟨h, hh⟩ := writeEndsHold_leaves m (regKey p o) { s with pins := { s.pins with mgtErr := false } }
    obtain ⟨u, old, hcommit, hu, hheld, hnone⟩ :=
      commitHi_eq m p o hi (writeEndsHold m (regKey p o) { s with pins := { s.pins with mgtErr := false } })
    rw [hh] at hu hheld hnone
    refine ⟨_, u, old, exec_registerWrite hs hm hi, ?_, ?_, hheld, fun hw => ?_⟩
    · rw [mgtWrite_hi hp hr hr4 he, hcommit]
    · rw [hu]
    · obtain ⟨hlive, hlo⟩ := hnone hw
      exact ⟨fun w hpair => hlive w (by rw [← hpair]; exact pairAt_of_mgt ..), hlo⟩

/-! ### Writes of control registers -/

theorem mgtWrite_unmapped {m a : Nat} (h : place s m a = none) (v : U32) :
    mgtWrite m a v s = { s with pins := { s.pins with mgtErr := true } } := by simp [mgtWrite, h]

theorem mgtWrite_of_memErr {m a : Nat} (h : place s m a ≠ none) (he : s.boot.memErr = true) (v : U32) :
    mgtWrite m a v s = s := by
  obtain ⟨⟨p, o⟩, hp⟩ := Option.ne_none_iff_exists'.1 h
  simp [mgtWrite, hp, he]

/-- The write of a register that is no half of a pair, by its page. -/
def writePage (m : Nat) (p : Page) (o : Nat) (v : U32) (s : State) : State :=
  match p with
  | .block => writeBlock m o v s
  | .book => writeBook o v s
  | .roll => writeRoll o v s
  | .gate g => writeGate g o v s
  | .core c => writeCore c o v s
  | .well w => writeWell w o v s

/-- A write to a register that is no half of a pair does what its page says. -/
theorem mgtWrite_plain {m a : Nat} {p : Page} {o : Nat} (hp : place s m a = some (p, o)) (he : s.boot.memErr = false)
    (h : pairAt { s with pins := { s.pins with mgtErr := false } } p o = none)
    (hb : pairBelow { s with pins := { s.pins with mgtErr := false } } p o = none)
    (hr : rwPair p o = false) (hr4 : (decide (4 ≤ o) && rwPair p (o - 4)) = false) (v : U32) :
    mgtWrite m a v s = writePage m p o v { s with pins := { s.pins with mgtErr := false } } := by
  have haccess : writeIsAccess m p o { s with pins := { s.pins with mgtErr := false } } =
      { s with pins := { s.pins with mgtErr := false } } := by simp [writeIsAccess, h, hb]
  simp only [mgtWrite, hp, he, Bool.false_eq_true, if_false, haccess, hr, hr4]
  cases p <;> rfl

theorem exec_registerWrite_block {m r : Nat} (hs : live s = true) (hm : m < 16) (he : s.boot.memErr = false)
    (hr : r ∈ [0x0000, 0x0014, 0x0020, 0x0080, 0x0084, 0x0114, 0x0208, 0x0300, 0x0708]) (v : U32) :
    exec (.registerWrite m r v) s = .next (writeBlock m r v { s with pins := { s.pins with mgtErr := false } }) := by
  rw [exec_registerWrite hs hm]
  simp only [List.mem_cons, List.not_mem_nil, or_false] at hr
  rcases hr with rfl | rfl | rfl | rfl | rfl | rfl | rfl | rfl | rfl <;>
    exact congrArg _ (mgtWrite_plain (place_block s m (by decide)) he rfl rfl rfl rfl v)

theorem exec_registerWrite_gate {m g : Nat} (hs : live s = true) (hm : m < 16) (he : s.boot.memErr = false) (hg : g < 96)
    (v : U32) : exec (.registerWrite m (0x100000 + 0x1000 * g) v) s =
      .next (writeGate g 0 v { s with pins := { s.pins with mgtErr := false } }) := by
  have haddr : (0x100000 + 0x1000 * g) % 2 ^ 22 / 4 * 4 = 0x100000 + 0x1000 * g := by omega
  rw [exec_registerWrite hs hm, haddr]
  exact congrArg _ (mgtWrite_plain (place_gate s m hg) he rfl rfl rfl rfl v)

theorem fired_of_next {r : Res} (h : r = .next t) : fired r s = t := by
  rw [h]
  rfl

/-- A write to the enable bit of a gate does the row of the link that it names. -/
theorem writeGate_enable (g : Nat) (s : State) : writeGate g 0 1 s = fired (execLinkEnableSet g s) s := rfl

theorem writeGate_disable (g : Nat) (s : State) : writeGate g 0 0 s = fired (execLinkDisable g s) s := rfl

/-- Settles O41. -/
theorem registerWritesTakeEffect : Obligations.RegisterWritesTakeEffect := by
  intro s m a v hs hm
  have haddr : a < 2 ^ 22 → a % 4 = 0 → a % 2 ^ 22 / 4 * 4 = a := by omega
  refine ⟨⟨_, exec_registerWrite hs hm v⟩, fun ha h4 hp he => ?memErr, fun ha h4 hp => ?unmapped, fun he => ?control⟩
  case memErr => rw [exec_registerWrite hs hm, haddr ha h4, mgtWrite_of_memErr hp he]
  case unmapped => rw [exec_registerWrite hs hm, haddr ha h4, mgtWrite_unmapped hp]
  case control =>
    intro ok
    have hok : live ok = true := hs
    refine ⟨fun r hr => ?readOnly, ?gfail, ?gfailKept, ⟨_, exec_registerWrite_block hs hm he (by decide) v, rfl, rfl⟩,
      ⟨_, exec_registerWrite_block hs hm he (by decide) v, rfl, rfl⟩, exec_registerWrite_block hs hm he (by decide) v, ?cmd, ?key,
      fun g hg => ⟨?enable, ?disable⟩⟩
    case readOnly =>
      rcases hr with rfl | rfl | rfl <;> exact exec_registerWrite_block hs hm he (by decide) v
    case gfail => exact exec_registerWrite_block hs hm he (by decide) _
    case gfailKept => exact exec_registerWrite_block hs hm he (by decide) _
    case cmd =>
      rw [exec_registerWrite_block hs hm he (by decide) v, exec_cmdRegisterWord hok]
      exact congrArg _ (fired_of_next (act_of_live hok _))
    case key =>
      rw [exec_registerWrite_block hs hm he (by decide) _, exec_keyTurn hok]
      rfl
    case enable =>
      have hrow : execLinkEnableSet g ok = .next _ := actOn_of_live hok hg _
      rw [exec_registerWrite_gate hs hm he hg, writeGate_enable]
      exact (congrArg _ (fired_of_next hrow)).trans hrow.symm
    case disable =>
      have hrow : execLinkDisable g ok = .next _ := actOn_of_live hok hg _
      rw [exec_registerWrite_gate hs hm he hg, writeGate_disable]
      exact (congrArg _ (fired_of_next hrow)).trans hrow.symm

/-! ### Reads -/

theorem tinsert_tget {d : α} {t : List (Nat × α)} {i : Nat} (h : tget d t i ≠ d) : tinsert t i (tget d t i) = t := by
  induction t with
  | nil => exact absurd rfl h
  | cons e t ih =>
    obtain ⟨k, v⟩ := e
    simp only [tget, tinsert] at h ⊢
    split
    · next hk => subst hk; rfl
    · next hk =>
      rw [if_neg hk] at h
      split
      · next hlt => exact absurd (if_pos hlt) h
      · next hlt =>
        rw [if_neg hlt] at h
        rw [ih h]

theorem terase_of_tget {d : α} {t : List (Nat × α)} {i : Nat} (hd : ∀ e ∈ t, e.2 ≠ d) (h : tget d t i = d) : terase t i = t := by
  induction t with
  | nil => rfl
  | cons e t ih =>
    obtain ⟨k, v⟩ := e
    simp only [tget, terase] at h ⊢
    split
    · next hk => exact absurd (by simpa [hk] using h) (hd _ List.mem_cons_self)
    · next hk =>
      rw [if_neg hk] at h
      split
      · rfl
      · next hlt =>
        rw [if_neg hlt] at h
        rw [ih (fun e he => hd e (List.mem_cons_of_mem _ he)) h]

/-- Writing back what a table holds leaves it as it is. -/
theorem tset_tget [DecidableEq α] {d : α} {t : List (Nat × α)} (i : Nat) (h : tableWf d t = true) : tset d t i (tget d t i) = t := by
  obtain ⟨-, hd⟩ := (tableWf_iff ..).1 h
  unfold tset
  split
  · next h0 => exact terase_of_tget hd h0
  · next h0 => exact tinsert_tget h0

theorem modGate_of_eq {g : Nat} {f : Gate → Gate} (hw : tableWf {} s.gates = true) (h : f (getGate s g) = getGate s g) :
    modGate g f s = s := by
  rw [modGate, h, setGate, getGate, tset_tget _ hw]

theorem modWell_of_eq {w : Nat} {f : Well → Well} (hw : tableWf {} s.wells = true) (h : f (getWell s w) = getWell s w) :
    modWell w f s = s := by
  rw [modWell, h, setWell, getWell, tset_tget _ hw]

/-- What a read leaves before it clears: the holding copies and the answer. -/
def readHeld (m : Nat) (p : Page) (o : Nat) (s : State) : State :=
  let copy := if (pairBelow s p o).isSome then heldHi s m (regKey p (o - 4)) else none
  let held := match pairAt s p o with
    | some v => putHi m (regKey p o) (hiHalf v) s.mgt.holdHi
    | none => if copy.isSome then dropHi m (regKey p (o - 4)) s.mgt.holdHi else s.mgt.holdHi
  { s with mgt := { s.mgt with holdHi := held }, pins := { s.pins with mgtRdata := copy.getD (liveReg s m p o), mgtErr := false } }

theorem mgtRead_of_served {m a : Nat} {p : Page} {o : Nat} (hp : place s m a = some (p, o)) (hr : servesRead s p o = true) :
    mgtRead m a s = readClears p o (readHeld m p o s) := by
  simp only [mgtRead, hp, hr, Bool.not_true, Bool.false_eq_true, if_false, readHeld]
  cases pairAt s p o with
  | none =>
    simp only [Option.map_none]
    generalize (if (pairBelow s p o).isSome then heldHi s m (regKey p (o - 4)) else none) = copy
    cases copy <;> rfl
  | some v => rfl

theorem readClears_port (p : Page) (o : Nat) (s : State) : (readClears p o s).mgt = s.mgt ∧ (readClears p o s).pins = s.pins := by
  unfold readClears
  split
  · repeat' split
    all_goals exact ⟨rfl, rfl⟩
  · split <;> exact ⟨rfl, rfl⟩
  · exact ⟨rfl, rfl⟩
  · exact ⟨rfl, rfl⟩
  · split <;> exact ⟨rfl, rfl⟩
  · split <;> exact ⟨rfl, rfl⟩

/-! ### What a read clears -/

theorem liveReg_of_plain {m : Nat} {p : Page} {o : Nat} (h : pairAt s p o = none) (hb : pairBelow s p o = none) :
    liveReg s m p o = plainReg s m p o := by simp [liveReg, h, hb]

theorem liveReg_faultCnt (s : State) (m : Nat) {n : Nat} (hn : n < 32) :
    liveReg s m .block (0x780 + 4 * n) = BitVec.ofNat 32 (tget 0 s.faultCnt n).toNat := by
  iterate 32
    rcases n with _ | n
    · rfl
  omega

theorem idx_of_lt {o base n : Nat} (h : n < 32) (ho : o = base + 4 * n) (hb : base % 4 = 0) : idx o base 32 = some n := by
  have hdiv : (o - base) / 4 = n := by omega
  rw [idx, if_pos (by omega), hdiv]

/-- The registers of the block page that a read clears. -/
theorem liveReg_block_cleared {o : Nat} (m : Nat) (h4 : o % 4 = 0) (hw : tableWf 0 s.faultCnt = true)
    (h : o ∈ [0x214, 0x694, 0x714, 0x818] ∨ 0x780 ≤ o ∧ o < 0x800) : liveReg (readClears .block o s) m .block o = 0 := by
  rcases h with h | h
  · simp only [List.mem_cons, List.not_mem_nil, or_false] at h
    rcases h with rfl | rfl | rfl | rfl <;> rfl
  · obtain ⟨n, hn, rfl⟩ : ∃ n, n < 32 ∧ o = 0x780 + 4 * n := ⟨(o - 0x780) / 4, by omega, by omega⟩
    have hclear : readClears .block (0x780 + 4 * n) s = { s with faultCnt := tset 0 s.faultCnt n 0 } := by
      simp only [readClears, idx_of_lt (base := 0x780) hn rfl (by decide)]
      rw [if_neg (by omega), if_neg (by omega), if_neg (by omega), if_neg (by omega)]
    rw [hclear, liveReg_faultCnt _ _ hn, tget_tset _ _ _ hw, if_pos rfl]
    rfl

theorem readClears_block_of_not {o : Nat} (h : o ∉ [0x214, 0x694, 0x714, 0x818]) (h2 : ¬ (0x780 ≤ o ∧ o < 0x800)) :
    readClears .block o s = s := by
  simp only [List.mem_cons, List.not_mem_nil, or_false, not_or] at h
  obtain ⟨h214, h694, h714, h818⟩ := h
  have hidx : idx o 0x780 32 = none := if_neg (by omega)
  simp only [readClears, h214, h694, h714, h818, hidx, if_false]

theorem clearGate_of_not {o : Nat} (h : o ∉ [0x14, 0x80, 0x84, 0x88, 0x8C, 0x90, 0x94, 0x9C, 0xA0]) (k : Gate) :
    clearGate o k = k := by
  unfold clearGate
  split <;> simp_all

theorem clearWell_of_not {o : Nat} (h : o ∉ [0x08, 0x0C, 0x30, 0x58]) (k : Well) : clearWell o k = k := by
  unfold clearWell
  split <;> simp_all

theorem liveReg_gate_cleared {g o : Nat} (m : Nat) (hw : tableWf {} s.gates = true)
    (h : o ∈ [0x14, 0x80, 0x84, 0x88, 0x8C, 0x90, 0x94, 0x9C, 0xA0]) :
    liveReg (readClears (.gate g) o s) m (.gate g) o = 0 := by
  have hk : getGate (readClears (.gate g) o s) g = clearGate o (getGate s g) := getGate_modGate_self _ _ hw
  have hp : liveReg (readClears (.gate g) o s) m (.gate g) o = BitVec.ofNat 32 (gateReg (readClears (.gate g) o s) g o) :=
    liveReg_of_plain rfl (by simp [pairBelow, pairAt])
  rw [hp]
  simp only [List.mem_cons, List.not_mem_nil, or_false] at h
  rcases h with rfl | rfl | rfl | rfl | rfl | rfl | rfl | rfl | rfl <;> simp only [gateReg, hk] <;> rfl

theorem liveReg_core_cleared {c : Nat} (m : Nat) (hw : tableWf {} s.cores = true) :
    liveReg (readClears (.core c) 0x34 s) m (.core c) 0x34 = 0 := by
  have hk : getCore (readClears (.core c) 0x34 s) c = { getCore s c with eccCe := 0 } :=
    getCore_modCore_self c (fun k => { k with eccCe := 0 }) hw
  have hp : liveReg (readClears (.core c) 0x34 s) m (.core c) 0x34 = BitVec.ofNat 32 (coreReg (readClears (.core c) 0x34 s) c 0x34) :=
    rfl
  rw [hp]
  simp only [coreReg, hk]
  rfl

theorem liveReg_well_cleared {w o : Nat} (m : Nat) (hw : tableWf {} s.wells = true) (ht : tiedOff s w = false)
    (h : o ∈ [0x08, 0x0C, 0x30, 0x58]) : liveReg (readClears (.well w) o s) m (.well w) o = 0 := by
  have hclear : readClears (.well w) o s = modWell w (clearWell o) s := by simp [readClears, ht]
  have hk : getWell (modWell w (clearWell o) s) w = clearWell o (getWell s w) := getWell_modWell_self _ _ hw
  have ht' : tiedOff (modWell w (clearWell o) s) w = false := ht
  rw [hclear]
  simp only [List.mem_cons, List.not_mem_nil, or_false] at h
  rcases h with rfl | rfl | rfl | rfl <;>
    (rw [liveReg_of_plain (by simp [pairAt, ht']) (by simp [pairBelow, pairAt, ht'])]
     simp only [plainReg, wellReg, ht', hk]
     rfl)

/-- The registers that a read clears, by their page. -/
def readClearing (s : State) (p : Page) (o : Nat) : Bool := match p with
  | .block => [0x214, 0x694, 0x714, 0x818].contains o || decide (0x780 ≤ o ∧ o < 0x800)
  | .book => o == 0x24
  | .roll => false
  | .gate _ => [0x14, 0x80, 0x84, 0x88, 0x8C, 0x90, 0x94, 0x9C, 0xA0].contains o
  | .core _ => o == 0x34
  | .well w => !tiedOff s w && [0x08, 0x0C, 0x30, 0x58].contains o

theorem liveReg_cleared {p : Page} {o : Nat} (m : Nat) (h4 : p = .block → o % 4 = 0) (h : readClearing s p o = true)
    (hu : s.unitsWf = true) (hf : tableWf 0 s.faultCnt = true) : liveReg (readClears p o s) m p o = 0 := by
  obtain ⟨hcores, hgates, hwells, -⟩ := unitsWf_iff.1 hu
  cases p with
  | block => exact liveReg_block_cleared m (h4 rfl) hf (by simpa [readClearing] using h)
  | book =>
    rw [eq_of_beq h]
    rfl
  | roll => cases h
  | gate g => exact liveReg_gate_cleared m hgates (List.contains_iff_mem.1 h)
  | core c =>
    rw [eq_of_beq h]
    exact liveReg_core_cleared m hcores
  | well w =>
    obtain ⟨ht, ho⟩ := Bool.and_eq_true_iff.1 h
    exact liveReg_well_cleared m hwells (by simpa using ht) (List.contains_iff_mem.1 ho)

theorem readClears_of_not {p : Page} {o : Nat} (h : readClearing s p o = false) (hu : s.unitsWf = true) :
    readClears p o s = s := by
  obtain ⟨-, hgates, hwells, -⟩ := unitsWf_iff.1 hu
  cases p with
  | block =>
    obtain ⟨h1, h2⟩ := Bool.or_eq_false_iff.1 h
    exact readClears_block_of_not (fun hm => Bool.false_ne_true (h1.symm.trans (List.contains_iff_mem.2 hm))) (of_decide_eq_false h2)
  | book => exact if_neg (ne_of_beq_false h)
  | roll => rfl
  | gate g => exact modGate_of_eq hgates (clearGate_of_not (fun hm => Bool.false_ne_true (h.symm.trans (List.contains_iff_mem.2 hm))) _)
  | core c => exact if_neg (ne_of_beq_false h)
  | well w =>
    cases ht : tiedOff s w with
    | true => exact if_pos ht
    | false =>
      have hm : o ∉ [0x08, 0x0C, 0x30, 0x58] := fun hm => by
        rw [readClearing, ht, List.contains_iff_mem.2 hm] at h
        cases h
      refine (if_neg (by simp [ht])).trans (modWell_of_eq hwells (clearWell_of_not hm _))

theorem place_aligned {m a : Nat} {p : Page} {o : Nat} (h : place s m a = some (p, o)) (h4 : a % 4 = 0) :
    p = .block → o % 4 = 0 := by
  rintro rfl
  unfold place at h
  repeat' split at h
  all_goals simp_all

/-- A copy that a read returns is used up. -/
theorem heldHi_readHeld {m : Nat} {p : Page} {o : Nat} (h : pairAt s p o = none) (hb : pairBelow s p o ≠ none) :
    heldHi (readHeld m p o s) m (regKey p (o - 4)) = none := by
  have hcopy : (if (pairBelow s p o).isSome then heldHi s m (regKey p (o - 4)) else none) = heldHi s m (regKey p (o - 4)) :=
    if_pos (Option.isSome_iff_ne_none.2 hb)
  simp only [readHeld, h, hcopy]
  split
  · simp [heldHi, find?_dropHi]
  · next hnone =>
    have hs : heldHi s m (regKey p (o - 4)) = none := by simpa using hnone
    exact hs

/-- Settles O39. -/
theorem registerReadsAnswer : Obligations.RegisterReadsAnswer := by
  intro s m a hs hm ha h4
  have hread := exec_readLoCapture hs hm ha h4
  refine ⟨rfl, fun hp => ?unmapped, fun p o hp hr => ?unserved, fun p o hp hr => ?answer, ?clears, fun p o => rfl⟩
  case unmapped =>
    rw [hread]
    simp [mgtRead, hp]
  case unserved =>
    rw [hread]
    simp [mgtRead, hp, hr]
  case answer =>
    obtain ⟨hmgt, hpins⟩ := readClears_port p o (readHeld m p o s)
    refine ⟨_, hread, ?_⟩
    rw [mgtRead_of_served hp hr, hpins]
    have hheld : ∀ key, heldHi (readClears p o (readHeld m p o s)) m key = heldHi (readHeld m p o s) m key :=
      fun key => by rw [heldHi, hmgt, heldHi]
    refine ⟨rfl, fun v hv hb => ?copy, fun h => ?live, fun v hv => ?captured, fun hv hb => ?used⟩
    case copy => simp [readHeld, hv, Option.isSome_iff_ne_none.2 hb]
    case live =>
      rcases h with h | h <;> simp [readHeld, h]
    case captured =>
      rw [hheld, heldHi]
      simp [readHeld, hv, find?_putHi]
    case used =>
      rw [hheld]
      exact heldHi_readHeld hv hb
  case clears =>
    intro clears p o t hp hr ht
    obtain rfl : readClears p o (readHeld m p o s) = t := by
      rw [hread, mgtRead_of_served hp hr] at ht
      injection ht
    refine ⟨fun hc hu hf => liveReg_cleared m (place_aligned hp h4) hc hu hf, fun hc hu => ?_⟩
    have hc' : readClearing (readHeld m p o s) p o = false := by cases p <;> exact hc
    rw [readClears_of_not hc' hu]
    rfl

end Sys2Proof.Machine
end

section
/-! The steward's timers and lists (15 R528, R532, R540, Table 15-1). -/

namespace Sys2Proof.Machine

variable {s t : State}

theorem getUnit_modUnit_self (u : Nat) (f : UnitSt → UnitSt) (hw : tableWf {} s.units = true) :
    getUnit (modUnit u f s) u = f (getUnit s u) := by rw [getUnit_modUnit _ _ _ _ hw, if_pos rfl]

/-- A unit that becomes clean. -/
theorem setStatus_clean {u : Nat} (hw : tableWf {} s.units = true) (h : (getUnit s u).status ≠ 0) (cls : Nat) :
    getUnit (setStatus u cls 0 s) u = { getUnit s u with status := 0 } := by
  unfold setStatus
  rw [if_neg h]
  extract_lets t1 t2
  rw [if_neg (by decide), getUnit]
  simp only [t2, bookWrite_units]
  exact getUnit_modUnit_self u (fun k => { k with status := 0 }) hw

theorem windowExpires_of_settled {u : Nat} (h : (getUnit s u).status = 0 ∨ (getUnit s u).status = 3) : windowExpires u s = s :=
  if_neg (by omega)

theorem windowExpires_of_watched {u : Nat} (hw : tableWf {} s.units = true)
    (h : (getUnit s u).status = 1 ∨ (getUnit s u).status = 2) :
    (getUnit (windowExpires u s) u).status = 0 ∧ (getUnit (windowExpires u s) u).faults = [] := by
  have hk := getUnit_modUnit_self u (fun k => { k with faults := [] }) hw
  have hw1 : tableWf {} (modUnit u (fun k => { k with faults := [] }) s).units = true := tableWf_tset _ _ hw
  unfold windowExpires
  simp only [h, if_true]
  rw [setStatus_clean hw1 (by rw [hk]; simp only; omega), hk]
  exact ⟨rfl, rfl⟩

theorem coalesce_of_none {u : Nat} (h : (getUnit s u).lastRec = none) : coalesce u s = s := by simp [coalesce, h]

theorem coalesce_of_empty {u : Nat} (h : (getUnit s u).lastRec ≠ none) (h0 : (getUnit s u).heldN = 0) :
    coalesce u s = setUnit s u { getUnit s u with lastRec := none } := by
  simp [coalesce, h, h0, modUnit]

/-- The state in which the held faults of a unit have become one record. -/
def coalesced (u : Nat) (s : State) : State :=
  setUnit (nextSeq s) u { getUnit s u with lastRec := some (recordTime s), heldN := 0, heldFirst := (0, 0), heldMixed := false }

theorem coalesce_of_held {u : Nat} (h : (getUnit s u).lastRec ≠ none) (h0 : 0 < (getUnit s u).heldN) :
    coalesce u s = bookWatch (coalesced u s) (bookWrite (coalescedRecord (nextSeq s) u (getUnit s u)) (coalesced u s)) := by
  unfold coalesce
  simp only [Option.isNone_iff_eq_none, h, Nat.ne_of_gt h0, if_false]
  rfl

theorem getUnit_coalesce {u : Nat} (hw : tableWf {} s.units = true) (hu : u ≠ uSteward) (h : (getUnit s u).lastRec ≠ none)
    (h0 : 0 < (getUnit s u).heldN) : (getUnit (coalesce u s) u).heldN = 0 ∧
      (getUnit (coalesce u s) u).lastRec = some (recordTime s) := by
  have hw1 : tableWf {} (coalesced u s).units = true := tableWf_tset _ _ hw
  have hunits := bookWrite_units (coalescedRecord (nextSeq s) u (getUnit s u)) (coalesced u s)
  rw [coalesce_of_held h h0, ((unitOnly_bookWatch _ _).leaves (hunits ▸ hw1)).2 u hu, getUnit, hunits, ← getUnit, coalesced,
    getUnit_setUnit (nextSeq s) _ _ _ hw, if_pos rfl]
  exact ⟨rfl, rfl⟩

theorem postWrite_expose (o : Owner) (a : Nat) (bs : Bytes) (p : Bool) (s : State) : (postWrite o a bs p s).expose = s.expose := by
  rw [postWrite, postWriteBad, postWriteAs_leaves]

theorem exposureWrites_of_wait (h : s.expose.waiting = [] ∨ s.expose.ready = true) : exposureWrites s = s := by
  unfold exposureWrites
  split
  · rfl
  · next hw => exact if_pos (h.resolve_left (by simp [hw]))

theorem exposureWrites_of_ready {x : Trigger} {rest : List Trigger} (h : s.expose.waiting = x :: rest)
    (hr : s.expose.ready = false) : exposureWrites s = { postWrite .steward s.expose.base.toNat (exposureList s x).1 false s with
      expose := { s.expose with ready := true, truncated := (exposureList s x).2, waiting := rest } } := by
  simp only [exposureWrites, h, hr, Bool.false_eq_true, if_false, postWrite_expose]

/-- A memory error of the steward stands, and halts. -/
theorem irqHalt_of_memErr (hs : live s = true) :
    let t := raise 0x01 8 uSteward 0 0 { s with boot := { s.boot with memErr := true } }
    t.boot.memErr = true ∧ irqHalt t = true := by
  have hpow : powered s = true := by
    simp only [live, Bool.and_eq_true] at hs
    exact hs.1.1
  intro t
  have hboot : t.boot.memErr = true := by rw [raise_boot]
  have hpins : t.pins = s.pins := by rw [raise_pins]
  have hpow' : powered t = true := by rwa [powered, hpins]
  exact ⟨hboot, by simp [irqHalt, hboot, hpow']⟩

/-- Settles O44. -/
theorem stewardTimersAndLists : Obligations.StewardTimersAndLists := by
  intro s u hs hu hwf
  obtain ⟨-, -, -, hw⟩ := unitsWf_iff.1 hwf
  have hunit : ∀ f : State → State, actUnit u s f = .next (f s) := actUnit_of_live hs hu
  refine ⟨fun h => ?settled, fun h => ⟨_, hunit _, windowExpires_of_watched hw h⟩, fun h => ?none, fun h h0 => ?empty,
    fun h h0 => ⟨_, hunit _, ?held, fun hne => ?heldUnit⟩, ⟨_, hunit _, ?memErr⟩, fun h => ?noList, fun h => ?notReady,
    fun x rest h hr => ?list⟩
  case settled => exact (hunit _).trans (congrArg _ (windowExpires_of_settled h))
  case none => exact (hunit _).trans (congrArg _ (coalesce_of_none h))
  case empty => exact (hunit _).trans (congrArg _ (coalesce_of_empty h h0))
  case held => exact coalesce_of_held h h0
  case heldUnit => exact getUnit_coalesce hw hne h h0
  case memErr => exact irqHalt_of_memErr hs
  case noList => exact (act_of_live hs _).trans (congrArg _ (exposureWrites_of_wait (.inl h)))
  case notReady => exact (act_of_live hs _).trans (congrArg _ (exposureWrites_of_wait (.inr h)))
  case list => exact (act_of_live hs _).trans (congrArg _ (exposureWrites_of_ready h hr))

end Sys2Proof.Machine
end

section
/-! Declarations, tallies and the almanac (14 R499 to R512; 15 R542 to R549). -/

namespace Sys2Proof.Machine

variable {s t : State}

/-! ### Entries of a ring -/

/-- From `s` to `t` only the rings and the writes that carry their entries change. -/
def ringed (s t : State) : Prop :=
  t = { s with bell := t.bell, audit := t.audit, flt := t.flt, host := t.host, hostPoison := t.hostPoison, wells := t.wells
               wellStamp := t.wellStamp }

theorem ringed_setRing (i : RingId) (r : Ring) (s : State) : ringed s (setRing s i r) := by
  cases i <;> rfl

theorem ringed_trans {a b d : State} (h1 : ringed a b) (h2 : ringed b d) : ringed a d := by
  unfold ringed at *
  rw [h2, h1]

theorem ringed_postWriteAs (n : Bool) (o : Owner) (a : Nat) (bs : Bytes) (bad : List Nat) (s : State) :
    ringed s (postWriteAs n o a bs bad s) := by
  have h := postWriteAs_leaves n o a bs bad s
  simp only at h
  generalize postWriteAs n o a bs bad s = t at h
  rw [h]
  rfl

theorem ringed_ringPush (i : RingId) (e : Bytes) (s : State) : ringed s (ringPush i e s) := by
  have hput : ringed s (ringPut i e s) := by
    unfold ringPut
    refine ringed_trans ?_ (ringed_setRing ..)
    split <;> exact ringed_postWriteAs ..
  unfold ringPush
  simp only
  split
  · exact hput
  · split <;> exact ringed_setRing ..

theorem ringed_auditPush (b : Nat) (r : Bytes) (s : State) : ringed s (auditPush b r s) := by
  unfold auditPush
  split
  · exact ringed_ringPush ..
  · rfl

theorem auditPush_step (b : Nat) (r : Bytes) (s : State) : (auditPush b r s).step = s.step := by rw [ringed_auditPush]

theorem auditPush_faultCnt (b : Nat) (r : Bytes) (s : State) : (auditPush b r s).faultCnt = s.faultCnt := by
  rw [ringed_auditPush]

/-! ### Reads that end badly -/

/-- A failed read counts as a memory fault and as nothing else. -/
theorem readsEnd_count (rd : ReadEnd) (s : State) {c : Nat} (h : c ≠ 0x11) (h2 : c ≠ 0x1A) :
    tget 0 (readsEnd rd s).faultCnt c = tget 0 s.faultCnt c := by
  cases rd with
  | ok => rfl
  | poisoned us =>
    exact List.foldlRecOn (motive := fun (u : State) => tget 0 u.faultCnt c = tget 0 s.faultCnt c) _ _ rfl (fun _ hu _ _ => hu)
  | error a => exact raise_count_other _ _ _ _ _ _ h h2

/-! ### DECLARE and TALLY -/

theorem tallyBegins_ok {declare : Bool} {op : Nat} {w : U64} {rest : List U64} (hh : headIs s op w rest)
    (hd : tallyDescOk declare (hostRead s (cmdAddr w.toNat) 4096) = true) :
    tallyBegins declare op .ok w.toNat s = { s with
      cmd := { s.cmd with fifo := rest }
      step := { s.step with
        jobs := s.step.jobs ++ [⟨declare, cmdAddr w.toNat, s.step.opened.getD (2 ^ 32)⟩]
        tallyBusy := s.step.tallyBusy || !declare } } := by
  simp only [tallyBegins, readsEnd, hd, decide_true, Bool.and_self, if_true, popCmd_of_headIs hh]

theorem tallyBegins_bad {declare : Bool} {op : Nat} {w : U64} {rest : List U64} (hh : headIs s op w rest)
    (hd : tallyDescOk declare (hostRead s (cmdAddr w.toNat) 4096) = false) :
    tallyBegins declare op .ok w.toNat s = raise 0x0E op uBlock 0 0 { s with cmd := { s.cmd with fifo := rest } } := by
  simp only [tallyBegins, readsEnd, hd, Bool.and_false, Bool.false_eq_true, if_false, discardCmd_of_headIs hh]

/-- A command is dropped: it leaves the FIFO and is one configuration fault. -/
structure dropped (rest : List U64) (s t : State) : Prop where
  fifo : t.cmd.fifo = rest
  step : t.step = s.step
  counts : tget 0 t.faultCnt 0x0E = satInc (tget 0 s.faultCnt 0x0E) 1

theorem tallyBegins_unread {declare : Bool} {op : Nat} {w : U64} {rest : List U64} {rd : ReadEnd} (hh : headIs s op w rest)
    (hrd : rd ≠ .ok) : dropped rest s (tallyBegins declare op rd w.toNat s) := by
  have hreads := reported_readsEnd rd s
  obtain ⟨-, hfifo, -, -⟩ := hh
  have hdrop : tallyBegins declare op rd w.toNat s = raise 0x0E op uBlock 0 0 (popCmd (readsEnd rd s)) := by
    simp [tallyBegins, hrd, discardCmd, configFault]
  rw [hdrop]
  refine ⟨?_, ?_, ?_⟩
  · rw [raise_cmd]
    simp [popCmd, hreads.cmd, hfifo]
  · rw [raise_step]
    exact hreads.step
  · rw [raise_count _ _ _ _ _ _ (by decide)]
    exact congrArg (satInc · 1) (readsEnd_count rd s (by decide) (by decide))

theorem tallyStarts_of_waits (h : anyOpOpen s = true ∨ forgesIdle s = false ∨ s.step.tallyBusy = true) (rd : ReadEnd) (v : Nat) :
    tallyStarts rd v s = s := if_pos (by rcases h with h | h | h <;> simp [h])

theorem tallyStarts_of_free (h1 : anyOpOpen s = false) (h2 : forgesIdle s = true) (h3 : s.step.tallyBusy = false) (rd : ReadEnd)
    (v : Nat) : tallyStarts rd v s = tallyBegins false 0x41 rd v s := if_neg (by simp [h1, h2, h3])

/-! ### TALLY_COMPLETE -/

/-- The state in which the oldest job has ended and counted. -/
def jobEnded (rest : List TallyJob) (s : State) : State :=
  { s with step := { s.step with jobs := rest, tallyDone := s.step.tallyDone + 1 } }

theorem tallyComplete_of_job {j : TallyJob} {rest : List TallyJob} (h : s.step.jobs = j :: rest) (rd : ReadEnd) :
    tallyComplete rd s =
      let u := readsEnd rd s
      let v := tallyOfRegions u (hostRead s j.addr 4096)
      if j.declare then declareEnds j v (jobEnded rest u) else tallyEnds (hostRead s j.addr 4096) v (jobEnded rest u) := by
  simp only [tallyComplete, h]
  rfl

theorem declareEnds_eq (j : TallyJob) (v : U64) (s : State) : declareEnds j v s = { s with step := { s.step with
    tallyVal := v, tI := if s.step.opened = some j.step then s.step.tI ^^^ v else s.step.tI } } := by
  unfold declareEnds
  simp only
  split <;> rfl

/-- What the end of a tally sets, before its record. -/
structure tallied (b : Bytes) (v : U64) (s t : State) : Prop where
  value : t.step.tallyVal = v
  busy : t.step.tallyBusy = false
  jobs : t.step.jobs = s.step.jobs
  done : t.step.tallyDone = s.step.tallyDone
  differs : tallyCheck b = true → v.toNat ≠ numAt b 8 8 → t.step.mismatch = true ∧ t.step.modeNext = s.step.modeNext ∧
    tget 0 t.faultCnt 0x15 = satInc (tget 0 s.faultCnt 0x15) 1
  agrees : tallyCheck b = true → v.toNat = numAt b 8 8 → t.step.modeNext = setBit s.step.modeNext 7 ∧
    t.step.mismatch = s.step.mismatch
  unchecked : tallyCheck b = false → t.step.modeNext = s.step.modeNext ∧ t.step.mismatch = s.step.mismatch
  chained : tallyChain b = true → t.step.digest = slice b 16 32
  unchained : tallyChain b = false → t.step.digest = s.step.digest

/-- The result of a tally, before the chain and the record. -/
def tallyJudged (b : Bytes) (v : U64) (s : State) : State :=
  let s := { s with step := { s.step with tallyVal := v, tallyBusy := false } }
  if tallyCheck b then
    if v.toNat = numAt b 8 8 then { s with step := { s.step with modeNext := setBit s.step.modeNext mfRestored } }
    else raise 0x15 1 uBlock 0 0 { s with step := { s.step with mismatch := true } }
  else s

/-- The digest that a tally leaves for the curfew, and its record. -/
def tallyChained (b : Bytes) (t : State) : State :=
  { t with step := { t.step with digest := if tallyChain b then slice b 16 32 else t.step.digest } }

theorem tallyEnds_eq (b : Bytes) (v : U64) (s : State) :
    ∃ r, tallyEnds b v s = auditPush 2 r (tallyChained b (tallyJudged b v s)) := by
  unfold tallyEnds tallyJudged tallyChained
  simp only
  cases hc : tallyCheck b with
  | false => cases tallyChain b <;> exact ⟨_, rfl⟩
  | true =>
    by_cases hv : v.toNat = numAt b 8 8
    · cases tallyChain b <;> simp only [hv, decide_true] <;> exact ⟨_, rfl⟩
    · cases tallyChain b <;> simp only [hv, decide_false] <;> exact ⟨_, rfl⟩

theorem tallyJudged_unchecked {b : Bytes} (h : tallyCheck b = false) (v : U64) (s : State) :
    tallyJudged b v s = { s with step := { s.step with tallyVal := v, tallyBusy := false } } := by
  simp [tallyJudged, h]

theorem tallyJudged_agrees {b : Bytes} {v : U64} (h : tallyCheck b = true) (hv : v.toNat = numAt b 8 8) (s : State) :
    tallyJudged b v s = { s with step := { s.step with
      tallyVal := v, tallyBusy := false, modeNext := setBit s.step.modeNext mfRestored } } := by
  simp [tallyJudged, h, hv]

theorem tallyJudged_differs {b : Bytes} {v : U64} (h : tallyCheck b = true) (hv : v.toNat ≠ numAt b 8 8) (s : State) :
    (tallyJudged b v s).step = { s.step with tallyVal := v, tallyBusy := false, mismatch := true } ∧
      tget 0 (tallyJudged b v s).faultCnt 0x15 = satInc (tget 0 s.faultCnt 0x15) 1 := by
  simp only [tallyJudged, h, hv, if_true, if_false, raise_step, raise_count _ _ _ _ _ _ (show 0x15 ≠ 0x1A by decide), and_self]

theorem tallied_tallyEnds (b : Bytes) (v : U64) (s : State) : tallied b v s (tallyEnds b v s) := by
  obtain ⟨r, hr⟩ := tallyEnds_eq b v s
  rw [hr]
  have hsame : ∀ t : State, t.step.tallyVal = v → t.step.tallyBusy = false → t.step.jobs = s.step.jobs →
      t.step.tallyDone = s.step.tallyDone → t.step.digest = s.step.digest →
      (tallyCheck b = true → v.toNat ≠ numAt b 8 8 → t.step.mismatch = true ∧ t.step.modeNext = s.step.modeNext ∧
        tget 0 t.faultCnt 0x15 = satInc (tget 0 s.faultCnt 0x15) 1) →
      (tallyCheck b = true → v.toNat = numAt b 8 8 → t.step.modeNext = setBit s.step.modeNext 7 ∧
        t.step.mismatch = s.step.mismatch) →
      (tallyCheck b = false → t.step.modeNext = s.step.modeNext ∧ t.step.mismatch = s.step.mismatch) →
      tallied b v s (auditPush 2 r (tallyChained b t)) := by
    intro t hval hbusy hjobs hdone hdigest hdiff hagree hun
    constructor <;> simp only [auditPush_step, auditPush_faultCnt, tallyChained] <;> simp_all
  cases hc : tallyCheck b with
  | false =>
    rw [tallyJudged_unchecked hc]
    exact hsame _ rfl rfl rfl rfl rfl (by simp [hc]) (by simp [hc]) (fun _ => ⟨rfl, rfl⟩)
  | true =>
    by_cases hv : v.toNat = numAt b 8 8
    · rw [tallyJudged_agrees hc hv]
      exact hsame _ rfl rfl rfl rfl rfl (fun _ h => absurd hv h) (fun _ _ => ⟨rfl, rfl⟩) (by simp [hc])
    · obtain ⟨hstep, hcnt⟩ := tallyJudged_differs hc hv s
      refine hsame _ ?_ ?_ ?_ ?_ ?_ (fun _ _ => ⟨?_, ?_, hcnt⟩) (fun _ h => absurd h hv) (by simp [hc]) <;> rw [hstep]

/-! ### The almanac's package -/

theorem bookWatch_alm (o s : State) : (bookWatch o s).alm = s.alm := (reported_bookWatch o s).alm

theorem almLoads_refused {w : Nat} {rd : ReadEnd} {cause : Nat}
    (h : almRefused (readsEnd rd (popCmd s)) (cmdAddr w) rd = some cause) :
    almLoads rd w s = almPackageFault cause (readsEnd rd (popCmd s)) := by
  simp only [almLoads, h]

/-- A package that is installed: its place, its serial and its tests. -/
structure installed (a : Nat) (s t : State) : Prop where
  present : t.alm.installed = true
  pkg : t.alm.pkg = a
  serial : t.alm.serial = BitVec.ofNat 32 (numAt (hostRead s a 64) 8 4)
  tests : t.alm.tests = (List.range (numAt (hostRead s a 64) 6 2)).map (almTestAt s a)
  run : t.alm.run = s.alm.run
  cmd : t.cmd = s.cmd

theorem installed_almLoads {w : Nat} {rd : ReadEnd} (h : almRefused (readsEnd rd (popCmd s)) (cmdAddr w) rd = none) :
    installed (cmdAddr w) (popCmd s) (almLoads rd w s) := by
  obtain rfl : rd = .ok := by
    refine Classical.byContradiction fun hrd => ?_
    simp [almRefused, hrd] at h
  simp only [almLoads, h]
  generalize hu : nextSeq _ = u
  have hrep : ∀ r, reported u (bookWatch u (bookWrite r u)) :=
    fun r => reported_trans (reported_bookWrite r u) (reported_bookWatch _ _)
  have halm : u.alm = { (popCmd s).alm with
      tests := (List.range (numAt (hostRead (popCmd s) (cmdAddr w) 64) 6 2)).map (almTestAt (popCmd s) (cmdAddr w))
      installed := true, pkg := cmdAddr w
      serial := BitVec.ofNat 32 (numAt (hostRead (popCmd s) (cmdAddr w) 64) 8 4)
      highest := max s.alm.highest (numAt (hostRead (popCmd s) (cmdAddr w) 64) 8 4) } := by
    rw [← hu]
    rfl
  have hcmd : u.cmd = (popCmd s).cmd := by
    rw [← hu]
    rfl
  constructor
  · rw [(hrep _).alm, halm]
  · rw [(hrep _).alm, halm]
  · rw [(hrep _).alm, halm]
  · rw [(hrep _).alm, halm]
  · rw [(hrep _).alm, halm]
  · rw [(hrep _).cmd, hcmd]

/-! ### A run of the almanac -/

theorem almRuns_no_test {v : Nat} (h : s.alm.tests[field v 15 8]? = none) : almRuns v s = discardCmd 0x51 s := by
  simp only [almRuns, h]

section
variable {v : Nat} {x : AlmTest} (hx : s.alm.tests[field v 15 8]? = some x)
include hx

theorem almRuns_no_units (h : field v 39 28 = 0 ∨ almUnits x.unitClass < field v 27 16 + field v 39 28) :
    almRuns v s = discardCmd 0x51 s := by
  simp only [almRuns, hx, h, if_true]

variable (h0 : field v 39 28 ≠ 0) (hn : field v 27 16 + field v 39 28 ≤ almUnits x.unitClass)
include h0 hn

theorem almRuns_of_waits (h : s.alm.run.isSome = true ∨ (mapInForce s).all (fun m => hingeIdle m s) = false ∨ blockIdle s = false) :
    almRuns v s = s := by
  have hok : ¬ (field v 39 28 = 0 ∨ almUnits x.unitClass < field v 27 16 + field v 39 28) := by omega
  simp only [almRuns, hx, hok, if_false]
  exact if_pos (by rcases h with h | h | h <;> simp [h])

theorem almRuns_of_idle (hr : s.alm.run = none) (hi : (mapInForce s).all (fun m => hingeIdle m s) = true) (hb : blockIdle s = true) :
    almRuns v s = if tally (hostRead s (s.alm.pkg + x.offset) x.len) ((s.alm.pkg + x.offset) / 8) ≠ x.patTally then
        almPackageFault 5 (popCmd s)
      else almNext x.unitClass (field v 15 8) (field v 39 28) (field v 27 16)
        { popCmd s with alm := { s.alm with results := 0 } } := by
  have hok : ¬ (field v 39 28 = 0 ∨ almUnits x.unitClass < field v 27 16 + field v 39 28) := by omega
  have hgo : (s.alm.run.isSome || !(mapInForce s).all (fun m => hingeIdle m s) || !blockIdle s) = false := by simp [hr, hi, hb]
  simp only [almRuns, hx, hok, if_false, hgo, Bool.false_eq_true]
  exact ite_congr rfl (fun _ => rfl) (fun _ => rfl)
end

/-! ### The result of a test -/

theorem testBegins_alm (cls n : Nat) (s : State) :
    (testBegins cls n s).alm = s.alm ∧ (testBegins cls n s).faultCnt = s.faultCnt := by
  unfold testBegins
  repeat' split
  all_goals exact ⟨rfl, rfl⟩

theorem testOver_alm (cls n : Nat) (s : State) : (testOver cls n s).alm = s.alm ∧ (testOver cls n s).faultCnt = s.faultCnt := by
  unfold testOver
  repeat' split
  all_goals exact ⟨rfl, rfl⟩

/-- The choice of the next unit changes the run and counts nothing. -/
theorem almNext_leaves (cls test left n : Nat) (s : State) :
    (almNext cls test left n s).faultCnt = s.faultCnt ∧
      (almNext cls test left n s).alm = { s.alm with run := (almNext cls test left n s).alm.run } := by
  induction left generalizing n s with
  | zero => exact ⟨rfl, rfl⟩
  | succ left ih =>
    unfold almNext
    split
    · exact ih (n + 1) s
    · obtain ⟨halm, hcnt⟩ := testBegins_alm cls n { s with alm := { s.alm with run := some ⟨test, n, left⟩ } }
      exact ⟨hcnt, by rw [halm]⟩

theorem almResult_saving {how : TestEnd} {got : U64} {r : AlmRunSt} {x : AlmTest} (hr : s.alm.run = some r)
    (hx : s.alm.tests[r.test]? = some x) (hc : x.unitClass = 0) (hk : (getCore s r.next).saving = true) :
    almResult how got s = s := by
  simp only [almResult, hr, hx, hc, hk]
  rfl

/-- The result of a test, written and counted, before its unit is free again. -/
def almCounted (x : AlmTest) (r : AlmRunSt) (o : Nat) (got : U64) (s : State) : State :=
  let u := almUnit x.unitClass r.next
  let s := postWrite .steward (s.alm.resultBase.toNat + 16 * s.alm.results)
    (natLe 2 u ++ natLe 1 r.test ++ natLe 1 o ++ zeros 4 ++ natLe 8 got.toNat) false s
  let s := { s with alm := { s.alm with
    results := s.alm.results + 1, pass := if o = 0 then s.alm.pass + 1 else s.alm.pass,
    fail := if o = 0 then s.alm.fail else s.alm.fail + 1 } }
  if o = 0 then s else raise 0x18 (o - 1) u 0 0 s

theorem almResult_of_done {how : TestEnd} {got : U64} {r : AlmRunSt} {x : AlmTest} (hr : s.alm.run = some r)
    (hx : s.alm.tests[r.test]? = some x) (hk : x.unitClass ≠ 0 ∨ (getCore s r.next).saving = false) :
    almResult how got s = almNext x.unitClass r.test r.left (r.next + 1)
      (testOver x.unitClass r.next (almCounted x r (almOutcome x how got) got s)) := by
  have hno : (decide (x.unitClass = 0) && (getCore s r.next).saving) = false := by
    rcases hk with hk | hk <;> simp [hk]
  simp only [almResult, hr, hx, hno, Bool.false_eq_true, if_false]
  rfl

theorem almCounted_leaves (x : AlmTest) (r : AlmRunSt) (o : Nat) (got : U64) (s : State) :
    (almCounted x r o got s).alm = { s.alm with
      results := s.alm.results + 1, pass := if o = 0 then s.alm.pass + 1 else s.alm.pass,
      fail := if o = 0 then s.alm.fail else s.alm.fail + 1 } ∧
    tget 0 (almCounted x r o got s).faultCnt 0x18 =
      if o = 0 then tget 0 s.faultCnt 0x18 else satInc (tget 0 s.faultCnt 0x18) 1 := by
  unfold almCounted
  extract_lets u s1 k s2
  have h1 : s1 = { s with host := s1.host, hostPoison := s1.hostPoison, wells := s1.wells, wellStamp := s1.wellStamp } :=
    postWriteAs_leaves ..
  have halm : s1.alm = s.alm := by rw [h1]
  have hcnt : s1.faultCnt = s.faultCnt := by rw [h1]
  by_cases ho : o = 0
  · simp only [if_pos ho, s2, k, halm, hcnt]
    exact ⟨rfl, trivial⟩
  · simp only [if_neg ho, raise_alm, raise_count _ _ _ _ _ _ (show 0x18 ≠ 0x1A by decide), s2, k, halm, hcnt]
    exact ⟨rfl, trivial⟩

/-! ### The obligation, in its parts -/

/-- The rows of declarations and tallies, at the head of the FIFO. -/
theorem declare_tally_of_head (s : State) (w : U64) (rest : List U64) :
    (headIs s 0x40 w rest → ∀ rd, exec (.declare rd) s = .next (tallyBegins true 0x40 rd w.toNat s)) ∧
      (headIs s 0x41 w rest → ∀ rd, exec (.tally rd) s = .next (tallyStarts rd w.toNat s)) :=
  ⟨fun h _ => onHead_of_headIs h _, fun h _ => onHead_of_headIs h _⟩

/-- The end of a tally job that is no declaration, as it stands in the state before. -/
theorem tallied_of_job {b : Bytes} {v : U64} {u : State} (hu : reported s u)
    (hcnt : tget 0 u.faultCnt 0x15 = tget 0 s.faultCnt 0x15) (rest : List TallyJob) (ht : tallied b v (jobEnded rest u) t) :
    t.step.tallyVal = v ∧ t.step.tallyBusy = false ∧ t.step.jobs = rest ∧ t.step.tallyDone = s.step.tallyDone + 1 ∧
      (tallyCheck b = true → v.toNat ≠ numAt b 8 8 → t.step.mismatch = true ∧ t.step.modeNext = s.step.modeNext ∧
        tget 0 t.faultCnt 0x15 = satInc (tget 0 s.faultCnt 0x15) 1) ∧
      (tallyCheck b = true → v.toNat = numAt b 8 8 → t.step.modeNext = setBit s.step.modeNext 7 ∧
        t.step.mismatch = s.step.mismatch) ∧
      (tallyCheck b = false → t.step.modeNext = s.step.modeNext ∧ t.step.mismatch = s.step.mismatch) ∧
      (tallyChain b = true → t.step.digest = slice b 16 32) ∧ (tallyChain b = false → t.step.digest = s.step.digest) := by
  have hj : (jobEnded rest u).step = { s.step with jobs := rest, tallyDone := s.step.tallyDone + 1 } := by
    simp only [jobEnded, hu.step]
  have hc : (jobEnded rest u).faultCnt = u.faultCnt := rfl
  obtain ⟨hval, hbusy, hjobs, hdone, hdiff, hagree, hun, hchain, hunchain⟩ := ht
  rw [hj] at hjobs hdone hdiff hagree hun hunchain
  rw [hc, hcnt] at hdiff
  exact ⟨hval, hbusy, hjobs, hdone, hdiff, hagree, hun, hchain, hunchain⟩

/-- Settles O43. -/
theorem tallyDeclareAndAlmanacRows : Obligations.TallyDeclareAndAlmanacRows := by
  refine ⟨fun s => ⟨fun w rest hh => ?declare, fun w rest hh => ?tally, fun w rest rd hrd => ?unread, fun hs rd => ?complete⟩,
    fun s => ⟨fun w rest hh => ?load, fun w rest hh => ?run, fun hs how got => ?result⟩⟩
  case declare =>
    have hrow := (declare_tally_of_head s w rest).1 hh .ok
    refine ⟨fun hd => hrow.trans ?_, fun hd => hrow.trans (congrArg _ (tallyBegins_bad hh hd))⟩
    rw [tallyBegins_ok hh hd, Bool.not_true, Bool.or_false]
  case tally =>
    have hrow := (declare_tally_of_head s w rest).2 hh
    refine ⟨fun hwait rd => (hrow rd).trans (congrArg _ (tallyStarts_of_waits hwait ..)), fun h1 h2 h3 => ?_⟩
    rw [hrow, tallyStarts_of_free h1 h2 h3]
    refine ⟨fun hd => ?_, fun hd => congrArg _ (tallyBegins_bad hh hd)⟩
    rw [tallyBegins_ok hh hd, Bool.not_false, Bool.or_true]
  case unread =>
    intro drop
    have hdrop : ∀ t, dropped rest s t → drop (.next t) := fun t h => ⟨t, rfl, h.fifo, h.step, h.counts⟩
    refine ⟨fun hh => ?_, fun hh h1 h2 h3 => ?_⟩
    · rw [(declare_tally_of_head s w rest).1 hh]
      exact hdrop _ (tallyBegins_unread hh hrd)
    · rw [(declare_tally_of_head s w rest).2 hh, tallyStarts_of_free h1 h2 h3]
      exact hdrop _ (tallyBegins_unread hh hrd)
  case complete =>
    have hrow : exec (.tallyComplete rd) s = .next (tallyComplete rd s) := act_of_live hs _
    rw [hrow]
    refine ⟨fun hj => ?noJob, fun j rest hj => ⟨fun hdec => ?declared, fun hdec => ⟨_, rfl, ?tallied⟩⟩⟩
    case noJob => simp only [tallyComplete, hj]
    case declared =>
      simp only [tallyComplete_of_job hj, hdec, if_true, declareEnds_eq, jobEnded, (reported_readsEnd rd s).step]
    case tallied =>
      rw [tallyComplete_of_job hj]
      simp only [hdec, Bool.false_eq_true, if_false]
      exact tallied_of_job (reported_readsEnd rd s) (readsEnd_count rd s (by decide) (by decide)) rest (tallied_tallyEnds ..)
  case load =>
    intro t0 a rd
    have hrow : exec (.almLoad rd) s = .next (almLoads rd w.toNat s) := onHead_of_headIs hh _
    have hpop : popCmd s = t0 := popCmd_of_headIs hh
    refine ⟨fun cause hc => ⟨_, hrow, ?_⟩, fun hc => ⟨_, hrow, ?_⟩⟩
    · have hrep : reported t0 (almLoads rd w.toNat s) := by
        rw [almLoads_refused (hpop.symm ▸ hc), hpop]
        exact reported_trans (reported_readsEnd rd t0) (reported_raise ..)
      refine ⟨hrep.alm, hrep.cmd, ?_⟩
      rw [almLoads_refused (hpop.symm ▸ hc), hpop, almPackageFault, raise_count _ _ _ _ _ _ (by decide)]
      exact congrArg (satInc · 1) (readsEnd_count rd t0 (by decide) (by decide))
    · obtain ⟨hpresent, hpkg, hserial, htests, hrun, hcmd⟩ := installed_almLoads (s := s) (w := w.toNat) (hpop.symm ▸ hc)
      rw [hpop] at hserial htests hrun hcmd
      exact ⟨hpresent, hpkg, hserial, hcmd, htests, hrun⟩
  case run =>
    intro t0
    have hrow : exec .almRun s = .next (almRuns w.toNat s) := onHead_of_headIs hh _
    rw [hrow]
    refine ⟨fun hx => ?noTest, fun x hx => ⟨fun h => ?noUnits, fun h0 hn => ⟨fun h => ?waits, fun h => ?hinging, fun hr hi hb => ?starts⟩⟩⟩
    case noTest => rw [almRuns_no_test hx, discardCmd_of_headIs hh]
    case noUnits => rw [almRuns_no_units hx h, discardCmd_of_headIs hh]
    case waits =>
      rw [almRuns_of_waits hx h0 hn (h.elim (fun h => .inl (Option.isSome_iff_ne_none.2 h)) (fun h => .inr (.inr h)))]
    case hinging =>
      refine congrArg _ (almRuns_of_waits hx h0 hn (.inr (.inl ?_)))
      cases hm : mapInForce s with
      | none => simp [hm] at h
      | some m => simpa [hm] using h
    case starts =>
      rw [almRuns_of_idle hx h0 hn hr hi hb, popCmd_of_headIs hh]
      exact ⟨fun htally => congrArg _ (if_neg (not_not_intro htally)), fun htally => congrArg _ (if_pos htally)⟩
  case result =>
    have hrow : exec (.almTestResult how got) s = .next (almResult how got s) := act_of_live hs _
    rw [hrow]
    refine ⟨fun hr => ?idle, fun r x hr hx => ⟨fun hc hk => ?saving, fun hk => ⟨_, _, rfl, almResult_of_done hr hx hk, ?_⟩⟩,
        fun r hr hx => ?lost⟩
    case idle => simp only [almResult, hr]
    case saving => rw [almResult_saving hr hx hc hk]
    case lost => simp only [almResult, hr, hx]
    obtain ⟨hcnt, halm⟩ := almNext_leaves x.unitClass r.test r.left (r.next + 1)
      (testOver x.unitClass r.next (almCounted x r (almOutcome x how got) got s))
    obtain ⟨hover, hcnt2⟩ := testOver_alm x.unitClass r.next (almCounted x r (almOutcome x how got) got s)
    obtain ⟨halm3, hcnt3⟩ := almCounted_leaves x r (almOutcome x how got) got s
    rw [almResult_of_done hr hx hk, hcnt, hcnt2, hcnt3, halm, hover, halm3]
    exact ⟨rfl, fun h => ⟨if_pos h, if_pos h, if_pos h⟩, fun h => ⟨if_neg h, if_neg h, if_neg h⟩⟩

end Sys2Proof.Machine
end

section
/-! The waves of a group: how they are sent, how they end, and how they are given up (08 R320 to R322; 16 R555). -/

namespace Sys2Proof.Machine

variable {s t : State}

/-! ### Ends and timeouts -/

theorem rollConfirm_of_refused (h : s.roll.groups = [] ∨ s.roll.confirming ≠ []) :
    rollConfirm s = { s with roll := { s.roll with refused := true } } := by
  refine if_pos ?_
  rcases h with h | h <;> simp [h]

theorem rollConfirm_of_free (h1 : s.roll.groups ≠ []) (h2 : s.roll.confirming = []) :
    rollConfirm s = ((s.roll.groups.filter (fun g => g.view.memberOf)).map (·.id)).foldl (fun t i => startWave ⟨i, 2, 0, 0⟩ t)
      { s with roll := { s.roll with confirming := (s.roll.groups.filter (fun g => g.view.memberOf)).map (·.id) } } :=
  if_neg (by simp [h1, h2])

/-- The state in which no confirmation runs and no group is in ordered mode. -/
def confirmationsEnded (s : State) : State :=
  { s with
    waves := s.waves.filter (fun w => w.name.purpose != 2)
    roll := { s.roll with confirming := [], groups := s.roll.groups.map (fun g => { g with ordered := false }) } }

theorem confirmIncomplete_of_confirming {g : Nat} (h : g ∈ s.roll.confirming) :
    confirmIncomplete g s = raise 0x0F 0 uBlock g 0 (confirmationsEnded s) := if_pos (List.contains_iff_mem.2 h)

theorem confirmIncomplete_of_other {g : Nat} (h : g ∉ s.roll.confirming) : confirmIncomplete g s = s :=
  if_neg (fun hc => h (List.contains_iff_mem.1 hc))

theorem waveTimeout_of_settled {nm : WaveName} {wv : Wave} {g : Grp} (hw : findWave s nm = some wv)
    (hg : myGrp s nm.group = some g) (h : nm.purpose = 2 ∨ wv.sentUp = true ∨ wv.down = true ∨ localCond s wv = false) :
    waveTimeout nm s = s := by
  simp only [waveTimeout, hw, hg]
  exact if_pos (by rcases h with h | h | h | h <;> simp [h])

theorem waveTimeout_of_unknown {nm : WaveName} (hw : findWave s nm = none) : waveTimeout nm s = s := by
  simp only [waveTimeout, hw]

/-- The children that a wave of `g` waits for. -/
def missingChildren (g : Grp) (wv : Wave) : List (Nat × Nat) :=
  (waveChildren g).filter (fun c => !(wv.heard.any (fun h => h.1 == c.1) || wv.gaveUp.contains c.1))

theorem waveTimeout_of_waiting {nm : WaveName} {wv : Wave} {g : Grp} (hw : findWave s nm = some wv)
    (hg : myGrp s nm.group = some g) (h2 : nm.purpose ≠ 2) (hu : wv.sentUp = false) (hd : wv.down = false)
    (hl : localCond s wv = true) :
    waveTimeout nm s = advanceWave (modWave nm (fun x =>
      { x with gaveUp := x.gaveUp ++ (missingChildren g wv).map (fun c => c.1) })
      ((missingChildren g wv).foldl (fun t c =>
        let u := raise 0x16 0 uBlock (chunkInfo nm.group nm.seq 0) c.1 t
        sendNotice c.2 (mkNotice nClose nm.group nm.seq 0 0 0 c.1 nm.step (closeTail u g c.1 3 g.members.length true)) u) s)) nm := by
  simp only [waveTimeout, hw, hg]
  exact if_neg (by simp [h2, hu, hd, hl])

/-- Settles O20. -/
theorem resetEndsAndTimeoutsOfWaves : Obligations.ResetEndsAndTimeoutsOfWaves := by
  intro s hs
  refine ⟨act_of_live hs (fun s => { s with step := { s.step with resetDone := true } }), act_of_live hs forceArrival,
    fun h => ?refused, fun h1 h2 => ?confirms, fun g hg => ⟨_, act_of_live hs _, ?incomplete⟩, fun g hg => ?otherGroup,
    fun nm wv g hw hg h => ?settled, fun nm hw => ?unknown, fun nm wv g hw hg h2 hu hd hl => ?waiting⟩
  case refused => exact (act_of_live hs _).trans (congrArg _ (rollConfirm_of_refused h))
  case confirms => exact (act_of_live hs _).trans (congrArg _ (rollConfirm_of_free h1 h2))
  case incomplete =>
    rw [confirmIncomplete_of_confirming hg, raise_roll, raise_waves, raise_count _ _ _ _ _ _ (by decide)]
    refine ⟨rfl, fun x hx => ?_, rfl, rfl⟩
    obtain ⟨y, -, rfl⟩ := List.mem_map.1 hx
    rfl
  case otherGroup => exact (act_of_live hs _).trans (congrArg _ (confirmIncomplete_of_other hg))
  case settled => exact (act_of_live hs _).trans (congrArg _ (waveTimeout_of_settled hw hg h))
  case unknown => exact (act_of_live hs _).trans (congrArg _ (waveTimeout_of_unknown hw))
  case waiting => exact (act_of_live hs _).trans (congrArg _ (waveTimeout_of_waiting hw hg h2 hu hd hl))

end Sys2Proof.Machine
end

section
/-! STEP up and STEP down (08 R320 to R322). -/

namespace Sys2Proof.Machine

variable {s t : State}

/-! ### The wave of this member -/

theorem name_of_findWave {nm : WaveName} {wv : Wave} (h : findWave s nm = some wv) : wv.name = nm := by
  have := List.find?_some h
  simpa using this

section
variable {nm : WaveName} {wv : Wave} {g : Grp} (hw : findWave s nm = some wv) (hg : myGrp s nm.group = some g)
include hw hg

theorem advanceWave_of_down (hd : wv.down = true) : advanceWave s nm =
    if nm.purpose = 1 ∧ localCond s wv = false then modWave nm (fun x => { x with down := true, present := wv.present }) s
    else waveDone nm wv.present (dropWave nm s) := by
  simp only [advanceWave, hw, hg, hd, if_true, waveActs, name_of_findWave hw, Bool.not_eq_true']

theorem advanceWave_of_sent (hd : wv.down = false) (hu : wv.sentUp = true) : advanceWave s nm = s := by
  simp [advanceWave, hw, hg, hd, hu]

theorem advanceWave_of_waiting (hd : wv.down = false) (h : localCond s wv = false ∨ upComplete g wv = false) :
    advanceWave s nm = s := by
  simp only [advanceWave, hw, hg, hd, Bool.false_eq_true, if_false]
  exact if_pos (by rcases h with h | h <;> simp [h])

variable (hd : wv.down = false) (hu : wv.sentUp = false) (hl : localCond s wv = true) (hc : upComplete g wv = true)
include hd hu hl hc

theorem advanceWave_to_parent {p gate : Nat} (hp : waveParent g = some (p, gate)) :
    advanceWave s nm = modWave nm (fun x => { x with sentUp := true })
      (sendNotice gate (stepNotice s nm 0 (wv.heard.foldl (fun n h => n + h.2) 1)) s) := by
  simp only [advanceWave, hw, hg, hd, hu, hl, hc, hp]
  rfl

theorem advanceWave_at_root (hp : waveParent g = none) :
    advanceWave s nm = waveDown g wv (wv.heard.foldl (fun n h => n + h.2) 1) s := by
  simp only [advanceWave, hw, hg, hd, hu, hl, hc, hp]
  rfl
end

/-! ### Notices at a gate -/

theorem onNotice_of_head {g code : Nat} {via : Via} {n : Bytes} {f : Bytes → State → State} (hs : live s = true)
    (hg : g < numGates) (h : headNotice s g via = some n) (hc : noticeCode n = code) :
    onNotice g via code s f = .next (f n (popNotice g via s)) := by
  rw [onNotice, actOn_of_live hs hg]
  simp only [h, hc, if_true]

theorem onNotice_of_other {g code : Nat} {via : Via} (f : Bytes → State → State) (hs : live s = true)
    (hg : g < numGates) (h : ∀ n, headNotice s g via = some n → noticeCode n ≠ code) :
    onNotice g via code s f = .next s := by
  rw [onNotice, actOn_of_live hs hg]
  split
  · next n hn => rw [if_neg (h n hn)]
  · rfl

/-- The name of the wave that a STEP notice speaks of. -/
def waveOf (n : Bytes) : WaveName := ⟨(noticeHdr n).group, numAt n 28 1, (noticeHdr n).seq, (noticeHdr n).step⟩

theorem stepUpArrives_of_no_group {gate : Nat} {n : Bytes} (h : myGrp s (noticeHdr n).group = none) :
    stepUpArrives gate n s = gateFault 0x0C nStep gate (noticeHdr n) (noticeHdr n).member 0 s := by
  simp only [stepUpArrives, h]

theorem stepDownArrives_of_no_group {gate : Nat} {n : Bytes} (h : myGrp s (noticeHdr n).group = none) :
    stepDownArrives gate n s = gateFault 0x0C nStep gate (noticeHdr n) (noticeHdr n).member 0 s := by
  simp only [stepDownArrives, h]

section
variable {gate : Nat} {n : Bytes} {x : Grp} (h : myGrp s (noticeHdr n).group = some x)
include h

theorem stepUpArrives_of_stranger (hb : 3 < numAt n 28 1 ∨ ∀ c ∈ waveChildren x, c.1 ≠ (noticeHdr n).member) :
    stepUpArrives gate n s = gateFault 0x0C nStep gate (noticeHdr n) (noticeHdr n).member 0 s := by
  simp only [stepUpArrives, h]
  refine if_pos (hb.imp_right fun hb => ?_)
  simpa using hb

theorem stepUpArrives_of_child (hp : numAt n 28 1 ≤ 3) (hb : ∃ c ∈ waveChildren x, c.1 = (noticeHdr n).member) :
    stepUpArrives gate n s = advanceWave (modWave (waveOf n) (fun wv =>
      if wv.heard.any (fun y => y.1 == (noticeHdr n).member) then wv
      else { wv with heard := wv.heard ++ [((noticeHdr n).member, numAt n 32 4)] }) (needWave (waveOf n) s)) (waveOf n) := by
  simp only [stepUpArrives, h]
  refine if_neg ?_
  rintro (hb' | hb')
  · omega
  · obtain ⟨c, hc, hm⟩ := hb
    simp only [Bool.not_eq_true', List.any_eq_false, beq_iff_eq] at hb'
    exact hb' c hc hm

theorem stepDownArrives_of_wave {wv : Wave} (hw : findWave s (waveOf n) = some wv) : stepDownArrives gate n s =
    if wv.sentUp = true ∧ wv.down = false then waveDown x wv (numAt n 32 4) s else s := by
  have hw' : findWave s ⟨(noticeHdr n).group, numAt n 28 1, (noticeHdr n).seq, (noticeHdr n).step⟩ = some wv := hw
  simp only [stepDownArrives, h, hw', Bool.and_eq_true, Bool.not_eq_true']

theorem stepDownArrives_of_unknown (hw : findWave s (waveOf n) = none) : stepDownArrives gate n s = s := by
  have hw' : findWave s ⟨(noticeHdr n).group, numAt n 28 1, (noticeHdr n).seq, (noticeHdr n).step⟩ = none := hw
  simp only [stepDownArrives, h, hw']
end

theorem exec_stepNoticeUp (g : Nat) (s : State) : exec (.stepNoticeUp (some g)) s =
    onNotice g (.link 1) nStep s (fun n s' => if stepPhase n = 1 then s else stepUpArrives g n s') := rfl

theorem exec_stepNoticeDown (g : Nat) (s : State) : exec (.stepNoticeDown g) s =
    onNotice g (.link 1) nStep s (fun n s' => if stepPhase n = 1 then stepDownArrives g n s' else s) := rfl

/-- Settles O18. -/
theorem stepUpGoesOnceBothConditionsHold : Obligations.StepUpGoesOnceBothConditionsHold := by
  refine ⟨fun s nm wv g hw hg => ⟨advanceWave_of_down hw hg, advanceWave_of_sent hw hg, fun hd hu =>
    ⟨advanceWave_of_waiting hw hg hd, fun hl hc p gate => advanceWave_to_parent hw hg hd hu hl hc,
      advanceWave_at_root hw hg hd hu⟩⟩,
    fun s g hs hg => ⟨?all, fun n hn hc => ⟨fun hp => ⟨?up, ?upStays⟩, fun hp => ⟨?down, ?downStays⟩⟩, fun n =>
      ⟨fun h => ⟨stepUpArrives_of_no_group h, stepDownArrives_of_no_group h⟩, fun x h =>
        ⟨stepUpArrives_of_stranger h, stepUpArrives_of_child h, fun wv => stepDownArrives_of_wave h, stepDownArrives_of_unknown h⟩⟩,
      fun h => ?other⟩⟩
  case all => exact act_of_live hs advanceAll
  case up => rw [exec_stepNoticeUp, onNotice_of_head hs hg hn hc, if_neg hp, popNotice]
  case upStays => rw [exec_stepNoticeDown, onNotice_of_head hs hg hn hc, if_neg hp]
  case down => rw [exec_stepNoticeDown, onNotice_of_head hs hg hn hc, if_pos hp, popNotice]
  case downStays => rw [exec_stepNoticeUp, onNotice_of_head hs hg hn hc, if_pos hp]
  case other =>
    rw [exec_stepNoticeUp, exec_stepNoticeDown, onNotice_of_other _ hs hg h, onNotice_of_other _ hs hg h]
    exact ⟨rfl, rfl⟩

end Sys2Proof.Machine
end

section
/-! What STEP down does: the bell of a barrier, the pass of a curfew, ordered mode, and the local reset (08 R320 to R322;
16 R555, R562). -/

namespace Sys2Proof.Machine

variable {s t : State}

/-! ### The step while operations open and close -/

/-- From `s` to `t` the step changes at most in the flags of its mode and in the tallies of its operations. -/
def stepHeld (s t : State) : Prop :=
  t.step = { s.step with mode := t.step.mode, modeNext := t.step.modeNext, opTallies := t.step.opTallies }

theorem stepHeld_of_eq (h : t.step = s.step) : stepHeld s t := by
  rw [stepHeld, h]

theorem stepHeld_trans {a b d : State} (h1 : stepHeld a b) (h2 : stepHeld b d) : stepHeld a d := by
  unfold stepHeld at *
  rw [h2, h1]

theorem stepHeld_ite {a b : State} {p : Prop} [Decidable p] (ha : stepHeld s a) (hb : stepHeld s b) :
    stepHeld s (if p then a else b) := by
  split <;> assumption

theorem stepHeld_foldl {α : Type} {f : State → α → State} (hf : ∀ s x, stepHeld s (f s x)) (l : List α) (s : State) :
    stepHeld s (l.foldl f s) := by
  induction l generalizing s with
  | nil => exact stepHeld_of_eq rfl
  | cons x l ih => exact stepHeld_trans (hf s x) (ih _)

theorem stepHeld_setModeAt (step bit : Nat) (s : State) : stepHeld s (setModeAt step bit s) := by
  unfold setModeAt setMode
  split
  · exact stepHeld_of_eq rfl
  · split <;> rfl

theorem stepHeld_setOpMode (nm : OpName) (bit : Nat) (s : State) : stepHeld s (setOpMode nm bit s) :=
  stepHeld_trans (stepHeld_setModeAt nm.step bit s) rfl

theorem stepHeld_raise (a b c d e : Nat) (s : State) : stepHeld s (raise a b c d e s) := stepHeld_of_eq (raise_step ..)

theorem stepHeld_postWrite (o : Owner) (a : Nat) (bs : Bytes) (p : Bool) (s : State) : stepHeld s (postWrite o a bs p s) := by
  refine stepHeld_of_eq ?_
  rw [postWrite, postWriteBad, postWriteAs_leaves]

theorem stepHeld_ringBell (g q c st k : Nat) (s : State) : stepHeld s (ringBell g q c st k s) := by
  refine stepHeld_of_eq ?_
  rw [ringBell_eq, belled_bellPosted]

theorem stepHeld_reabsorbElem (t : TensorRec) (step : Nat) (p : Bool) (s : State) (e : Nat × F32) :
    stepHeld s (reabsorbElem t step p s e) := stepHeld_postWrite ..

theorem stepHeld_modGate (g : Nat) (f : Gate → Gate) (s : State) : stepHeld s (modGate g f s) := stepHeld_of_eq rfl

theorem stepHeld_modOp (nm : OpName) (f : Op → Op) (s : State) : stepHeld s (modOp nm f s) := stepHeld_of_eq rfl

theorem stepHeld_putOp (o : Op) (s : State) : stepHeld s (putOp o s) := by
  unfold putOp
  exact stepHeld_ite (stepHeld_of_eq rfl) (stepHeld_of_eq rfl)

theorem stepHeld_reabsorbChunk (gate base count : Nat) (s : State) (r : Retained) :
    stepHeld s (reabsorbChunk gate base count s r) := by
  unfold reabsorbChunk
  extract_lets h hit same add mark
  have hmark : ∀ u, stepHeld s u → stepHeld s (mark u) := fun u hu => stepHeld_trans hu (stepHeld_modGate ..)
  refine stepHeld_ite (stepHeld_of_eq rfl) (stepHeld_ite (hmark _ (stepHeld_of_eq rfl)) (stepHeld_ite (hmark _ ?_) ?_))
  · exact stepHeld_trans (stepHeld_raise ..) (stepHeld_setModeAt ..)
  · split
    · exact hmark _ (stepHeld_of_eq rfl)
    · refine stepHeld_ite (hmark _ (stepHeld_of_eq rfl)) (hmark _ ?_)
      exact stepHeld_trans (stepHeld_foldl (fun s e => stepHeld_reabsorbElem ..) _ _) (stepHeld_modGate ..)

theorem stepHeld_closeRange (nm : OpName) (base count : Nat) (s : State) : stepHeld s (closeRange nm base count s) := by
  unfold closeRange
  extract_lets s1 inside shut touched s2
  have h2 : stepHeld s s2 := stepHeld_trans (stepHeld_setOpMode ..) (stepHeld_foldl (fun s gate => by
    extract_lets t gone keep s3 own
    have h3 : stepHeld s s3 := stepHeld_modGate ..
    exact stepHeld_trans (stepHeld_trans h3 (stepHeld_foldl (fun s r => stepHeld_reabsorbChunk ..) _ _)) (stepHeld_modGate ..)) _ _)
  exact stepHeld_trans h2 (stepHeld_modOp ..)

theorem stepHeld_applyHeldCloses (nm : OpName) (s : State) : stepHeld s (applyHeldCloses nm s) := by
  unfold applyHeldCloses
  exact stepHeld_trans (b := { s with heldCloses := _ }) (stepHeld_of_eq rfl)
    (stepHeld_foldl (fun s h => stepHeld_closeRange ..) _ _)

theorem stepHeld_sendGrant (nm : OpName) (idx : Nat) (a : AskSt) (w : Bool) (s : State) : stepHeld s (sendGrant nm idx a w s) := by
  unfold sendGrant
  exact stepHeld_ite (stepHeld_modGate ..) (stepHeld_modGate ..)

theorem stepHeld_answerAsk (nm : OpName) (s : State) (a : AskSt) : stepHeld s (answerAsk nm s a) := by
  unfold answerAsk
  split
  · split
    · exact stepHeld_of_eq rfl
    · exact stepHeld_trans (stepHeld_modOp ..) (stepHeld_sendGrant ..)
  · exact stepHeld_of_eq rfl

theorem stepHeld_answerAsks (nm : OpName) (s : State) : stepHeld s (answerAsks nm s) := by
  unfold answerAsks
  split
  · exact stepHeld_foldl (fun s a => stepHeld_answerAsk ..) _ _
  · exact stepHeld_of_eq rfl

theorem stepHeld_askParent (g : Grp) (nm : OpName) (n : Nat) (s : State) : stepHeld s (askParent g nm n s) := by
  unfold askParent
  refine stepHeld_foldl (fun s j => ?_) _ _
  split
  · exact stepHeld_of_eq rfl
  · exact stepHeld_ite (stepHeld_of_eq rfl) (stepHeld_modGate ..)

theorem stepHeld_openReduction (nm : OpName) (n : Nat) (s : State) : stepHeld s (openReduction nm n s) := by
  unfold openReduction
  split
  · exact stepHeld_of_eq rfl
  · extract_lets old s1 s2 s3 s4
    refine stepHeld_ite (stepHeld_of_eq rfl) (stepHeld_ite ?_ ?_)
    · exact stepHeld_trans (stepHeld_putOp ..) (stepHeld_ringBell ..)
    · have h2 : stepHeld s s2 := stepHeld_putOp ..
      have h3 : stepHeld s2 s3 := stepHeld_ite (stepHeld_askParent ..) (stepHeld_of_eq rfl)
      have h4 : stepHeld s3 s4 := stepHeld_of_eq rfl
      exact stepHeld_trans (stepHeld_trans (stepHeld_trans h2 h3) h4)
        (stepHeld_trans (stepHeld_applyHeldCloses ..) (stepHeld_answerAsks ..))

theorem stepHeld_openWaiting (s : State) : stepHeld s (openWaiting s) := by
  unfold openWaiting
  refine stepHeld_foldl (fun s e => stepHeld_foldl (fun s j => ?_) _ _) _ _
  unfold openJob
  split
  · exact stepHeld_ite (stepHeld_trans (b := modCore _ _ s) (stepHeld_of_eq rfl) (stepHeld_openReduction ..)) (stepHeld_of_eq rfl)
  · exact stepHeld_of_eq rfl

/-! ### The curfew -/

theorem reported_normCheck (s : State) : reported s (normCheck s) := by
  unfold normCheck
  exact reported_ite (reported_refl s) (reported_raise ..)

theorem dropHeldCloses_step (step : Nat) (s : State) : (dropHeldCloses step s).step = s.step := by
  unfold dropHeldCloses
  exact List.foldlRecOn (motive := fun (u : State) => u.step = s.step) _ _ rfl (fun u hu h _ => (raise_step ..).trans hu)

/-- What a passed curfew leaves of the step. -/
theorem passCurfew_step (step present : Nat) (s : State) :
    let t := passCurfew step present s
    t.step.opened = none ∧ t.step.lastCurfew = some step ∧ t.step.tF = 0 ∧ t.step.lastF = s.step.tF ∧ t.step.modeLast = s.step.mode := by
  unfold passCurfew
  extract_lets s1 digest retry refresh rec2 s2 s3 s4 past
  have h1 : s1.step = s.step := (reported_normCheck s).step
  have h4 : s4.step = s.step := by
    have h2 : s2.step = s1.step := auditPush_step ..
    have h3 : s3.step = s2.step := rfl
    have h4 : s4.step = (dropHeldCloses step s3).step := rfl
    rw [h4, dropHeldCloses_step, h3, h2, h1]
  rw [stepHeld_openWaiting]
  simp only [h4]
  exact ⟨trivial, trivial, trivial, trivial, trivial⟩

/-! ### The local reset -/

/-- Each entry of a table that is built anew is what its operation made. -/
theorem of_mem_tabled {α : Type} [DecidableEq α] {d : α} {f : α → α} {P : α → Prop} (hf : ∀ x, P (f x)) {l : List (Nat × α)} :
    ∀ e ∈ l.foldl (fun t e => tset d t e.1 (f e.2)) [], P e.2 := by
  refine List.foldlRecOn (motive := fun (t : List (Nat × α)) => ∀ e ∈ t, P e.2) _ _ nofun (fun t ht x _ e he => ?_)
  rcases mem_tset he with rfl | he
  · exact hf _
  · exact ht e he

/-! ### The barrier and the group in ordered mode -/

theorem barrierBell_forge (g q : Nat) (s : State) : (barrierBell g q s).forge = s.forge := by
  unfold barrierBell
  split
  · rw [belled_ringPush]
  · rfl

theorem waveDone_barrier {g q : Nat} (h : ¬ (q = 0xFFFF ∧ s.forge.hinging = true)) (st present : Nat) :
    waveDone ⟨g, 0, q, st⟩ present s = barrierBell g q s := by
  simp only [waveDone, barrierBell_forge]
  exact if_neg h

theorem waveDone_hinge (g st present : Nat) {q : Nat} (hq : q = 0xFFFF) (hh : s.forge.hinging = true) :
    (waveDone ⟨g, 0, q, st⟩ present s).forge = { s.forge with hingeReady := true } := by
  simp only [waveDone, barrierBell_forge, hq, hh, and_self, if_true]

theorem waveDone_confirmed (g q st present : Nat) : waveDone ⟨g, 2, q, st⟩ present s = { s with roll := { s.roll with
    groups := s.roll.groups.map (fun x => if x.id = g then { x with ordered := !s.roll.forceArrival && !x.arrivalOnly } else x)
    confirming := s.roll.confirming.filter (· != g) } } := by
  simp only [waveDone, mapWhere, beq_iff_eq]

/-- Settles O19. -/
theorem stepDownActsAsItsPurposeRequires : Obligations.StepDownActsAsItsPurposeRequires := by
  intro s g q st present
  refine ⟨fun h => waveDone_barrier h st present, fun hq hh => ⟨_, rfl, waveDone_hinge g st present hq hh⟩,
    passCurfew_step st present s, waveDone_confirmed g q st present, rfl, rfl, rfl, ?cores, ?gates, ?wells,
    rfl, rfl, rfl, rfl, rfl, rfl, rfl, rfl, rfl⟩
  case cores =>
    exact of_mem_tabled (d := {}) (f := fun k => { stopCore k with inboxNext := 0 })
      (P := fun k => k.state = 0 ∧ k.q0 = [] ∧ k.loads = []) (fun _ => ⟨rfl, rfl, rfl⟩)
  case gates =>
    exact of_mem_tabled (d := {}) (f := drainGate) (P := fun k => k.sendQ = [] ∧ k.retained = [] ∧ k.rxBuf = [])
      (fun _ => ⟨rfl, rfl, rfl⟩)
  case wells => exact of_mem_tabled (d := {}) (f := drainWell) (P := fun k => k.fqueue = []) (fun _ => rfl)

end Sys2Proof.Machine
end

section
/-! The hinge: how it waits, joins its barrier, saves cores, switches the map and ends (12 R460 to R466). -/

namespace Sys2Proof.Machine

variable {s : State}

/-! ### HINGE -/

theorem hingeStarts_of_no_map {v : Nat} (h : mapNo s (field v 10 8) = none) : hingeStarts v s = discardCmd 0x08 s := by
  simp only [hingeStarts, h]

theorem hingeStarts_of_busy {v : Nat} {m : PhaseMap} (h : mapNo s (field v 10 8) = some m) (hi : hingeIdle m s = false) :
    hingeStarts v s = s := by
  simp [hingeStarts, h, hi]

theorem hingeStarts_of_idle {v : Nat} {m : PhaseMap} (h : mapNo s (field v 10 8) = some m) (hi : hingeIdle m s = true) :
    hingeStarts v s = startWave ⟨curfewGroup s, 0, 0xFFFF, s.forge.hinges % 2 ^ 16⟩ { popCmd s with forge := { s.forge with
      hinging := true, hingeReady := false, switched := false, target := field v 10 8
      hingeGroups := concernedGroups m (popCmd s) } } := by
  simp only [hingeStarts, h, hi]
  rfl

/-! ### HINGE_SWITCH -/

theorem hingeSwitch_of_waiting (h : s.forge.hinging = false ∨ s.forge.hingeReady = false) (rd : ReadEnd) :
    hingeSwitch rd s = s := if_pos (by rcases h with h | h <;> simp [h])

section
variable {m : PhaseMap} (h1 : s.forge.hinging = true) (h2 : s.forge.hingeReady = true) (hm : mapNo s s.forge.target = some m)
include h1 h2 hm

theorem hingeSwitch_before (hsw : s.forge.switched = false) (rd : ReadEnd) : hingeSwitch rd s =
    if !hingeIdle m s then s
    else if (if mapEval m && !evalInForce s then loadedCores s else []).isEmpty then hingeSwitches m (readsEnd rd s)
    else (if mapEval m && !evalInForce s then loadedCores s else []).foldl (fun s c => modCore c askSave s) s := by
  simp only [hingeSwitch, h1, h2, hm, hsw]
  rfl

theorem hingeSwitch_after (hsw : s.forge.switched = true) (rd : ReadEnd) : hingeSwitch rd s =
    if movesOpen s || !forgesIdle s then s
    else if !(if s.forge.wasEval && !mapEval m then savedCores s else []).isEmpty then
      (if s.forge.wasEval && !mapEval m then savedCores s else []).foldl (fun s c => modCore c askRestore s) s
    else if s.cores.any (fun e => e.2.restoring) then s
    else hingeEnds s := by
  simp only [hingeSwitch, h1, h2, hm, hsw]
  rfl

theorem hingeSwitch_of_busy (hsw : s.forge.switched = false) (hi : hingeIdle m s = false) (rd : ReadEnd) :
    hingeSwitch rd s = s := by
  rw [hingeSwitch_before h1 h2 hm hsw, if_pos (by simp [hi])]

theorem hingeSwitch_saves (hsw : s.forge.switched = false) (hi : hingeIdle m s = true) (he : mapEval m = true)
    (hf : evalInForce s = false) (hc : loadedCores s ≠ []) (rd : ReadEnd) :
    hingeSwitch rd s = (loadedCores s).foldl (fun s c => modCore c askSave s) s := by
  simp [hingeSwitch_before h1 h2 hm hsw, hi, he, hf, hc]

theorem hingeSwitch_switches (hsw : s.forge.switched = false) (hi : hingeIdle m s = true)
    (h : mapEval m = false ∨ evalInForce s = true ∨ loadedCores s = []) : hingeSwitch .ok s = hingeSwitches m s := by
  have hcs : (if mapEval m && !evalInForce s then loadedCores s else []) = [] := by rcases h with h | h | h <;> simp [h]
  rw [hingeSwitch_before h1 h2 hm hsw, hcs, if_neg (by simp [hi])]
  rfl

theorem hingeSwitch_of_moving (hsw : s.forge.switched = true) (h : movesOpen s = true ∨ forgesIdle s = false) (rd : ReadEnd) :
    hingeSwitch rd s = s := by
  rw [hingeSwitch_after h1 h2 hm hsw, if_pos (by rcases h with h | h <;> simp [h])]

theorem hingeSwitch_restores (hsw : s.forge.switched = true) (hmv : movesOpen s = false) (hf : forgesIdle s = true)
    (hw : s.forge.wasEval = true) (he : mapEval m = false) (hc : savedCores s ≠ []) (rd : ReadEnd) :
    hingeSwitch rd s = (savedCores s).foldl (fun s c => modCore c askRestore s) s := by
  simp [hingeSwitch_after h1 h2 hm hsw, hmv, hf, hw, he, hc]

theorem hingeSwitch_ends (hsw : s.forge.switched = true) (hmv : movesOpen s = false) (hf : forgesIdle s = true)
    (h : s.forge.wasEval = false ∨ mapEval m = true ∨ savedCores s = []) (hr : s.cores.all (fun e => !e.2.restoring) = true)
    (rd : ReadEnd) : hingeSwitch rd s = hingeEnds s := by
  have hcs : (if s.forge.wasEval && !mapEval m then savedCores s else []) = [] := by rcases h with h | h | h <;> simp [h]
  have hnone : s.cores.any (fun e => e.2.restoring) = false := by simpa using hr
  rw [hingeSwitch_after h1 h2 hm hsw, hcs, if_neg (by simp [hmv, hf]), if_neg (by simp), if_neg (by simp [hnone])]
end

/-- Settles O21. -/
theorem hingeWaitsJoinsAndSwitches : Obligations.HingeWaitsJoinsAndSwitches := by
  refine fun s => ⟨fun w rest hh => ?hinge, fun hs => ?switch⟩
  case hinge =>
    have hrow : exec .hinge s = .next (hingeStarts w.toNat s) := onHead_of_headIs hh _
    rw [hrow]
    refine ⟨fun h => ?_, fun m h => ⟨fun hi => ?_, fun hi => ?_⟩⟩
    · rw [hingeStarts_of_no_map h, discardCmd_of_headIs hh]
    · rw [hingeStarts_of_busy h hi]
    · rw [hingeStarts_of_idle h hi, popCmd_of_headIs hh]
  case switch =>
    have hrow : ∀ rd, exec (.hingeSwitch rd) s = .next (hingeSwitch rd s) := fun rd => act_of_live hs _
    simp only [hrow]
    exact ⟨fun rd h => congrArg _ (hingeSwitch_of_waiting h rd), fun m h1 h2 hm =>
      ⟨fun hsw hi rd => congrArg _ (hingeSwitch_of_busy h1 h2 hm hsw hi rd),
        fun hsw hi he hf hc rd => congrArg _ (hingeSwitch_saves h1 h2 hm hsw hi he hf hc rd),
        fun hsw hi h => congrArg _ (hingeSwitch_switches h1 h2 hm hsw hi h),
        fun hsw h rd => congrArg _ (hingeSwitch_of_moving h1 h2 hm hsw h rd),
        fun hsw hmv hf hw he hc rd => congrArg _ (hingeSwitch_restores h1 h2 hm hsw hmv hf hw he hc rd),
        fun hsw hmv hf h hr rd => congrArg _ (hingeSwitch_ends h1 h2 hm hsw hmv hf h hr rd)⟩⟩

end Sys2Proof.Machine
end

section
/-! Command words at the cores: POST and LAYER_READY (13 R481; 16 R562; 06 R269 to R276). -/

namespace Sys2Proof.Machine

variable {s t : State}

/-! ### Numbers in bytes -/

theorem leNat_natLe (n v : Nat) : leNat (natLe n v) = v % 256 ^ n := by
  induction n generalizing v with
  | zero => simp [natLe, leNat, Nat.mod_one]
  | succ n ih =>
    have hmod : v % (256 * 256 ^ n) = v % 256 + 256 * (v / 256 % 256 ^ n) := Nat.mod_mul
    have hpow : (256 : Nat) ^ (n + 1) = 256 * 256 ^ n := Nat.pow_succ'
    rw [natLe, leNat, ih, BitVec.toNat_ofNat, hpow, hmod]

theorem slice_append_here {n : Nat} {a b : Bytes} (h : a.length = n) : slice (a ++ b) 0 n = a := by
  subst h
  simp [slice, fit]

theorem slice_append_skip (a b : Bytes) (off n : Nat) : slice (a ++ b) (a.length + off) n = slice b off n := by
  rw [slice, slice, List.drop_length_add_append]

theorem numAt_natLe_here (n v : Nat) (b : Bytes) : numAt (natLe n v ++ b) 0 n = v % 256 ^ n := by
  rw [numAt, slice_append_here (length_natLe n v), leNat_natLe]

theorem numAt_natLe_skip (w v off n : Nat) (b : Bytes) : numAt (natLe w v ++ b) (w + off) n = numAt b off n := by
  have hskip := slice_append_skip (natLe w v) b off n
  rw [length_natLe] at hskip
  rw [numAt, numAt, hskip]

/-! ### The header of a chunk -/

section
variable (h : Hdr) (b : Bytes)

theorem hdrOf_kind : (hdrOf (hdrBytes h ++ b)).kind = h.kind % 256 := by
  simp only [hdrOf, hdrBytes, List.append_assoc, numAt_natLe_here, Nat.pow_one]

theorem hdrOf_group : (hdrOf (hdrBytes h ++ b)).group = h.group % 256 ^ 2 % 2 ^ 12 := by
  have hat : numAt (hdrBytes h ++ b) (1 + (1 + (2 + 0))) 2 = h.group % 256 ^ 2 := by
    simp only [hdrBytes, List.append_assoc, numAt_natLe_skip, numAt_natLe_here]
  simp only [hdrOf, field]
  rw [hat]
  simp

theorem hdrOf_seq : (hdrOf (hdrBytes h ++ b)).seq = h.seq % 256 ^ 2 := by
  have hat : numAt (hdrBytes h ++ b) (1 + (1 + (2 + (2 + 0)))) 2 = h.seq % 256 ^ 2 := by
    simp only [hdrBytes, List.append_assoc, numAt_natLe_skip, numAt_natLe_here]
  exact hat

theorem hdrOf_base : (hdrOf (hdrBytes h ++ b)).base = (h.index + h.base * 2 ^ 24) % 256 ^ 8 / 2 ^ 24 % 2 ^ 40 := by
  have hat : numAt (hdrBytes h ++ b) (1 + (1 + (2 + (2 + (2 + 0))))) 8 = (h.index + h.base * 2 ^ 24) % 256 ^ 8 := by
    simp only [hdrBytes, List.append_assoc, numAt_natLe_skip, numAt_natLe_here]
  simp only [hdrOf, field]
  rw [hat]

theorem hdrOf_count : (hdrOf (hdrBytes h ++ b)).count = h.count % 256 ^ 4 := by
  have hat : numAt (hdrBytes h ++ b) (1 + (1 + (2 + (2 + (2 + (8 + 0)))))) 4 = h.count % 256 ^ 4 := by
    simp only [hdrBytes, List.append_assoc, numAt_natLe_skip, numAt_natLe_here]
  exact hat

theorem hdrOf_weight : (hdrOf (hdrBytes h ++ b)).weight = h.weight % 256 ^ 4 := by
  have hat : numAt (hdrBytes h ++ b) (1 + (1 + (2 + (2 + (2 + (8 + (4 + (4 + 0)))))))) 4 = h.weight % 256 ^ 4 := by
    simp only [hdrBytes, List.append_assoc, numAt_natLe_skip, numAt_natLe_here]
  exact hat

theorem hdrOf_step : (hdrOf (hdrBytes h ++ b)).step = h.step % 256 ^ 4 := by
  have hat : numAt (hdrBytes h ++ b) (1 + (1 + (2 + (2 + (2 + (8 + (4 + (4 + (4 + 0))))))))) 4 = h.step % 256 ^ 4 := by
    simp only [hdrBytes, List.append_assoc, numAt_natLe_skip, numAt_natLe_here]
  exact hat
end

theorem mkChunk_eq (h : Hdr) (p : Bytes) (m : U64) : ∃ b, mkChunk h p m = hdrBytes h ++ b := by
  simp only [mkChunk, List.append_assoc]
  exact ⟨_, rfl⟩

/-- The header of a NIL chunk that this member makes. -/
def nilHdr (s : State) (nm : OpName) (e n : Nat) : Hdr :=
  { kind := kNil, fmt := 1, grp := 0, flags := 0, group := nm.group, seq := nm.seq, index := e / 128, base := e,
    count := n, member := memberId s, sparse := 0, weight := 0, step := nm.step }

theorem nilChunk_eq (s : State) (nm : OpName) (e n : Nat) : ∃ b, nilChunk s nm e n = hdrBytes (nilHdr s nm e n) ++ b :=
  mkChunk_eq ..

/-- The header of a NIL chunk is read back as it was written. -/
theorem hdrOf_nilChunk (s : State) (nm : OpName) (e n : Nat) :
    (hdrOf (nilChunk s nm e n)).kind = kNil ∧ (hdrOf (nilChunk s nm e n)).weight = 0 ∧
      (nm.group < 4096 → nm.seq < 65536 → nm.step < 2 ^ 32 → e < 2 ^ 31 → n < 2 ^ 32 →
        hdrName (hdrOf (nilChunk s nm e n)) = nm ∧ (hdrOf (nilChunk s nm e n)).base = e ∧
          (hdrOf (nilChunk s nm e n)).count = n) := by
  obtain ⟨b, hb⟩ := nilChunk_eq s nm e n
  rw [hb]
  refine ⟨hdrOf_kind .., hdrOf_weight .., fun hg hq hst he hn => ?_⟩
  simp only [hdrName, hdrOf_group, hdrOf_seq, hdrOf_base, hdrOf_count, hdrOf_step, nilHdr]
  have h1 : nm.group % 256 ^ 2 % 2 ^ 12 = nm.group := by omega
  have h2 : nm.seq % 256 ^ 2 = nm.seq := by omega
  have h3 : nm.step % 256 ^ 4 = nm.step := by omega
  have hlt : e / 128 + e * 2 ^ 24 < 256 ^ 8 := by omega
  have h4 : (e / 128 + e * 2 ^ 24) / 2 ^ 24 = e := by
    rw [Nat.add_mul_div_right _ _ (by decide), Nat.div_eq_of_lt (by omega), Nat.zero_add]
  rw [h1, h2, h3, Nat.mod_eq_of_lt hlt, h4]
  exact ⟨rfl, by omega, by omega⟩

/-! ### What a write stores -/

theorem postWriteAs_host (ann : Bool) (o : Owner) {a : Nat} {bs : Bytes} (bad : List Nat) (hmax : a + bs.length ≤ 2 ^ 52)
    (s : State) : (postWriteAs ann o a bs bad s).host = mwrite 0 s.host a bs := by
  unfold postWriteAs
  extract_lets ps part rs s1
  rw [enqueueReqs_leaves]
  exact foldl_mwrite_splitRange hmax s.host

/-- Gleanings of a sliver go over from the buffer of the other parity. -/
theorem bytesStored_carryGleanings (x : TensorRec) (step : Nat) (v : Sliver) (hw : memWf 0 s.host = true)
    (hmax : gleanBase x step + gleanWidth x * v.first + gleanWidth x * v.count ≤ 2 ^ 52) :
    bytesStored s.host (carryGleanings x step s v).host (gleanBase x step + gleanWidth x * v.first)
      (hostRead s (gleanBase x (step + 1) + gleanWidth x * v.first) (gleanWidth x * v.count)) := by
  unfold carryGleanings carryRange postWriteBad
  simp only
  rw [postWriteAs_host _ _ _ (by rw [length_hostRead]; exact hmax)]
  exact bytesStored_mwrite hw _ _

/-! ### POST -/

theorem postStarts_of_none {v : Nat} (h : 2304 ≤ field v 19 8 ∨ fencedCore s (field v 19 8) = true) :
    postStarts v s = discardCmd 0x60 s := if_pos (by rcases h with h | h <;> simp [numCores, h])

theorem postStarts_of_core {v : Nat} (h1 : field v 19 8 < 2304) (h2 : fencedCore s (field v 19 8) = false) :
    postStarts v s = if ringRoom (getCore s (field v 19 8)) then modCore (field v 19 8) (postWord v) (popCmd s) else s :=
  if_neg (by simp [numCores, Nat.not_le.2 h1, h2])

/-! ### LAYER_READY -/

/-- The condition under which a LAYER_READY of a step may start (16 R562). -/
theorem layerMayStart_iff (s : State) (step : Nat) : layerMayStart s step = true ↔
    (∃ o, s.step.opened = some o ∧ step ≤ o) ∨ (s.step.opened = none ∧
      ((∃ l, s.step.lastCurfew = some l ∧ step ≤ l) ∨ (evalInForce s = true ∧ 2 ^ 31 ≤ step))) := by
  unfold layerMayStart
  cases ho : s.step.opened with
  | some o => simp
  | none => cases hl : s.step.lastCurfew <;> simp

/-- The state in which a LAYER_READY has left the FIFO and its weights are fixed. -/
def layerFixed (step layer : Nat) (s : State) : State :=
  { s with step := { s.step with ready := s.step.ready ++ [⟨step, layer, countWeights s layer⟩] } }

theorem layerStarts_of_waits {v : Nat} (h : layerMayStart s (field v 47 16) = false ∨ ∃ c ∈ millCores s, ringRoom (getCore s c) = false) :
    layerStarts v s = s := by
  refine if_neg ?_
  rcases h with h | ⟨c, hc, hr⟩
  · simp [h]
  · intro hgo
    obtain ⟨-, hall⟩ := Bool.and_eq_true_iff.1 hgo
    have := List.all_eq_true.1 hall c hc
    simp [hr] at this

theorem layerStarts_of_ready {v : Nat} (h : layerMayStart s (field v 47 16) = true)
    (hr : ∀ c ∈ millCores s, ringRoom (getCore s c) = true) :
    layerStarts v s = (millCores s).foldl (fun t c => modCore c (postWord v) t)
      (((countedTensors s (field v 13 8)).filter (fun x => coldCount s x == 0)).foldl (coldTensor (field v 47 16))
        (layerFixed (field v 47 16) (field v 13 8) (popCmd s))) := by
  unfold layerStarts
  extract_lets cs step layer s1 s2 s3
  exact if_pos (by simp only [step, h, Bool.true_and]; exact List.all_eq_true.2 hr)

theorem coldTensor_of_no_sliver {step : Nat} {x : TensorRec} {g : Grp} (hg : myGrp s x.group = some g)
    (hs : sliversOf s x.tensor = []) : coldTensor step s x =
      (nilPieces g (x.rows * x.cols)).foldl (fun t p => handOwn (nilChunk t (millOp s x step) p.1 p.2) t)
        (openReduction (millOp s x step) (x.rows * x.cols) s) := by
  simp only [coldTensor, hs, List.foldl_nil, hg]

/-- Settles O22. -/
theorem commandWordsReachTheirCores : Obligations.CommandWordsReachTheirCores := by
  refine fun s w rest => ⟨fun hh => ⟨fun h => ?noCore, fun h1 h2 => ⟨fun hr => ?full, fun hr => ?room⟩⟩, fun hh => ?layer,
    fun step x g hg hs => coldTensor_of_no_sliver hg hs, fun nm e n => hdrOf_nilChunk s nm e n, fun step x v => ?carried⟩
  case noCore =>
    have hrow : exec .post s = .next (postStarts w.toNat s) := onHead_of_headIs hh _
    rw [hrow, postStarts_of_none h, discardCmd_of_headIs hh]
  case full =>
    have hrow : exec .post s = .next (postStarts w.toNat s) := onHead_of_headIs hh _
    rw [hrow, postStarts_of_core h1 h2, if_neg (by simpa [ringRoom] using hr)]
  case room =>
    have hrow : exec .post s = .next (postStarts w.toNat s) := onHead_of_headIs hh _
    refine ⟨postWord w.toNat (getCore s (field w.toNat 19 8)), ?_, rfl, fun hk i hi => tget_countEvent hk evCmd hi⟩
    rw [hrow, postStarts_of_core h1 h2, if_pos (by simpa [ringRoom] using hr), popCmd_of_headIs hh]
    rfl
  case layer =>
    intro step layer may cold t0
    have hrow : exec .layerReady s = .next (layerStarts w.toNat s) := onHead_of_headIs hh _
    have hmay : layerMayStart s step = true ↔ may := layerMayStart_iff s step
    have ht0 : layerFixed step layer (popCmd s) = t0 := by
      rw [popCmd_of_headIs hh]
      rfl
    refine ⟨fun h => ?_, fun h hr => ?_⟩
    · rw [hrow, layerStarts_of_waits (h.imp_left fun h => by simpa using mt hmay.1 h)]
    · rw [hrow, layerStarts_of_ready (hmay.2 h) hr, ht0]
      exact ⟨rfl, fun hc => by simp only [cold] at hc; rw [hc]; rfl⟩
  case carried =>
    intro w' at_ hw hmax
    have hodd : decide (step % 2 = 0) = decide ((step + 1) % 2 = 1) := by
      congr 1
      exact propext (by omega)
    have hdst : at_ (decide (step % 2 = 1)) = gleanBase x step + gleanWidth x * v.first := by
      simp [at_, w', gleanBase, gleanWidth]
    have hsrc : at_ (decide (step % 2 = 0)) = gleanBase x (step + 1) + gleanWidth x * v.first := by
      simp [at_, w', gleanBase, gleanWidth, hodd]
    rw [hdst] at hmax ⊢
    rw [hsrc]
    exact bytesStored_carryGleanings x step v hw hmax

end Sys2Proof.Machine
end

section
/-! Programs and saved cores (13 R496 to R500; 12 R463; 16 R562). -/

namespace Sys2Proof.Machine

variable {s t : State}

/-! ### PROGRAM -/

/-- Whether a core of the image runs or saves. -/
def coresBusy (s : State) (gs : List Segment) : Bool :=
  gs.any (fun g => decide ((getCore s g.core).state = 1 ∨ (getCore s g.core).state = 3) || (getCore s g.core).saving)

theorem coresBusy_eq_false {gs : List Segment} : coresBusy s gs = false ↔
    ∀ g ∈ gs, (getCore s g.core).state ≠ 1 ∧ (getCore s g.core).state ≠ 3 ∧ (getCore s g.core).saving = false := by
  simp [coresBusy, and_assoc]

/-- The image at an address: the segments that its header names, and its bytes. -/
def imageSegments (s : State) (a : Nat) : List Segment := segments s a (min (numAt (hostRead s a 128) 12 4) 2304)

def imageBytes (s : State) (a : Nat) : Bytes := hostRead s a (imageLen (numAt (hostRead s a 128) 12 4) (imageSegments s a))

section
variable {v : Nat}

theorem programStarts_of_busy (hok : imageHeadOk s (hostRead s (cmdAddr v) 128) (cmdAddr v) (imageSegments s (cmdAddr v)) = true)
    (hb : coresBusy s (imageSegments s (cmdAddr v)) = true) (rd : ReadEnd) : programStarts rd v s = s :=
  if_pos (Bool.and_eq_true_iff.2 ⟨hok, hb⟩)

theorem programStarts_of_free (h : imageHeadOk s (hostRead s (cmdAddr v) 128) (cmdAddr v) (imageSegments s (cmdAddr v)) = false ∨
    coresBusy s (imageSegments s (cmdAddr v)) = false) (rd : ReadEnd) : programStarts rd v s =
      (let u := readsEnd rd s
       let img := hostRead u (cmdAddr v) (imageLen (numAt (hostRead s (cmdAddr v) 128) 12 4) (imageSegments s (cmdAddr v)))
       if decide (rd = .ok) && imageHeadOk u (hostRead s (cmdAddr v) 128) (cmdAddr v) (imageSegments s (cmdAddr v)) &&
           !hostPoisoned u (cmdAddr v) img.length && decide ((tally (img.drop 128) 0).toNat = numAt (hostRead s (cmdAddr v) 128) 84 8) then
         acceptImage (cmdAddr v) (imageSegments s (cmdAddr v)) img (popCmd u)
       else discardCmd 0x0C u) := by
  refine if_neg ?_
  intro hgo
  obtain ⟨hok, hb⟩ := Bool.and_eq_true_iff.1 hgo
  rcases h with h | h
  · exact Bool.false_ne_true (h.symm.trans hok)
  · exact Bool.false_ne_true (h.symm.trans hb)

theorem programStarts_accepts (hok : imageHeadOk s (hostRead s (cmdAddr v) 128) (cmdAddr v) (imageSegments s (cmdAddr v)) = true)
    (hb : coresBusy s (imageSegments s (cmdAddr v)) = false)
    (hp : hostPoisoned s (cmdAddr v) (imageBytes s (cmdAddr v)).length = false)
    (ht : (tally ((imageBytes s (cmdAddr v)).drop 128) 0).toNat = numAt (hostRead s (cmdAddr v) 128) 84 8) :
    programStarts .ok v s = acceptImage (cmdAddr v) (imageSegments s (cmdAddr v)) (imageBytes s (cmdAddr v)) (popCmd s) := by
  rw [programStarts_of_free (.inr hb)]
  refine if_pos ?_
  simp only [decide_true, Bool.true_and, Bool.and_eq_true, Bool.not_eq_true', decide_eq_true_eq]
  exact ⟨⟨hok, hp⟩, ht⟩

theorem programStarts_discards (hb : imageHeadOk s (hostRead s (cmdAddr v) 128) (cmdAddr v) (imageSegments s (cmdAddr v)) = false ∨
      coresBusy s (imageSegments s (cmdAddr v)) = false)
    (h : imageHeadOk s (hostRead s (cmdAddr v) 128) (cmdAddr v) (imageSegments s (cmdAddr v)) = false ∨
      hostPoisoned s (cmdAddr v) (imageBytes s (cmdAddr v)).length = true ∨
      (tally ((imageBytes s (cmdAddr v)).drop 128) 0).toNat ≠ numAt (hostRead s (cmdAddr v) 128) 84 8) :
    programStarts .ok v s = discardCmd 0x0C s := by
  rw [programStarts_of_free hb]
  refine if_neg ?_
  simp only [decide_true, Bool.true_and, Bool.and_eq_true, Bool.not_eq_true', decide_eq_true_eq]
  rintro ⟨⟨hok, hp⟩, ht⟩
  rcases h with h | h | h
  · exact Bool.false_ne_true (h.symm.trans hok)
  · exact Bool.false_ne_true (hp.symm.trans h)
  · exact h ht

theorem programStarts_unread {rd : ReadEnd} (hrd : rd ≠ .ok) (hb : coresBusy s (imageSegments s (cmdAddr v)) = false) :
    programStarts rd v s = discardCmd 0x0C (readsEnd rd s) := by
  rw [programStarts_of_free (.inr hb)]
  exact if_neg (by simp [hrd])
end

/-! ### A loaded image -/

theorem modCore_coresWf (hw : tableWf {} s.cores = true) (c : Nat) (f : Core → Core) :
    tableWf {} (modCore c f s).cores = true := tableWf_tset c (f (getCore s c)) hw

/-- One segment of an image, loaded. -/
def segLoaded (s : State) (a : Nat) (t : State) (g : Segment) : State :=
  let t := modCore g.core (loadCore s a g) t
  let w := tget 0 t.signalMap (g.core / 32) &&& ~~~ (1#32 <<< (g.core % 32))
  { t with signalMap := tset 0 t.signalMap (g.core / 32) w }

theorem acceptImage_eq (a : Nat) (gs : List Segment) (img : Bytes) (s : State) : acceptImage a gs img s =
    { gs.foldl (segLoaded s a) s with step := { (gs.foldl (segLoaded s a) s).step with
      progDigest := sha256 (s.step.progDigest ++ sha256 img) } } := rfl

theorem getCore_segLoaded {a : Nat} (hw : tableWf {} t.cores = true) (g : Segment) (c : Nat) :
    getCore (segLoaded s a t g) c = if c = g.core then loadCore s a g (getCore t c) else getCore t c := by
  have h := getCore_modCore t g.core c (loadCore s a g) hw
  have hsame : getCore (segLoaded s a t g) c = getCore (modCore g.core (loadCore s a g) t) c := rfl
  rw [hsame, h]
  split
  · next hc => rw [hc]
  · rfl

/-- What loading segments leaves: the cores, and the bits of the signal map. -/
theorem segsLoaded_leaves (a : Nat) (gs : List Segment) (t : State) :
    gs.foldl (segLoaded s a) t = { t with
      cores := (gs.foldl (segLoaded s a) t).cores, signalMap := (gs.foldl (segLoaded s a) t).signalMap } :=
  List.foldlRecOn (motive := fun (u : State) => u = { t with cores := u.cores, signalMap := u.signalMap }) _ _ rfl
    (fun u hu g _ => by
      generalize hv : segLoaded s a u g = v
      have : v = { u with cores := v.cores, signalMap := v.signalMap } := by
        rw [← hv]
        rfl
      rw [this, hu])

theorem getCore_segsLoaded {a : Nat} (gs : List Segment) (hw : tableWf {} t.cores = true) (hd : (gs.map (·.core)).Nodup) :
    (∀ g ∈ gs, getCore (gs.foldl (segLoaded s a) t) g.core = loadCore s a g (getCore t g.core)) ∧
      ∀ c, (∀ g ∈ gs, g.core ≠ c) → getCore (gs.foldl (segLoaded s a) t) c = getCore t c := by
  induction gs generalizing t with
  | nil => exact ⟨nofun, fun _ _ => rfl⟩
  | cons g gs ih =>
    obtain ⟨hnew, hd⟩ := List.nodup_cons.1 hd
    have hw1 : tableWf {} (modCore g.core (loadCore s a g) t).cores = true :=
      modCore_coresWf hw g.core _
    have hw1 : tableWf {} (segLoaded s a t g).cores = true := hw1
    obtain ⟨hin, hout⟩ := ih hw1 hd
    have hne : ∀ x ∈ gs, x.core ≠ g.core := fun x hx h => hnew (List.mem_map.2 ⟨x, hx, h⟩)
    refine ⟨fun x hx => ?_, fun c hc => ?_⟩
    · rcases List.mem_cons.1 hx with rfl | hx
      · rw [List.foldl_cons, hout _ hne, getCore_segLoaded hw, if_pos rfl]
      · rw [List.foldl_cons, hin x hx, getCore_segLoaded hw, if_neg (hne x hx)]
    · rw [List.foldl_cons, hout c (fun x hx => hc x (List.mem_cons_of_mem _ hx)), getCore_segLoaded hw,
        if_neg (hc g List.mem_cons_self).symm]

/-! ### CORE_SAVE -/

theorem length_flatMap_const {α β : Type} {l : List α} {f : α → List β} {k : Nat} (h : ∀ x, (f x).length = k) :
    (l.flatMap f).length = l.length * k := by
  induction l with
  | nil => simp
  | cons x l ih => rw [List.flatMap_cons, List.length_append, h, ih, List.length_cons, Nat.succ_mul, Nat.add_comm]

theorem length_zeros (n : Nat) : (zeros n).length = n := List.length_replicate

theorem length_u32s (n : Nat) (f : Nat → U32) : (u32s n f).length = n * 4 := by
  rw [u32s, length_flatMap_const (fun i => length_natLe _ _), List.length_range]

theorem length_mread (d : Byte) (m : Mem) (a n : Nat) : (mread d m a n).length = n := by simp [mread]

theorem length_imageBody (k : Core) : (imageBody k).length = 109760 := by
  have hcmp : ((List.range 8).flatMap (fun i =>
      natLe 4 (tget {} k.cmp i).value.toNat ++ [if (tget {} k.cmp i).eq then 1 else 0] ++ natLe 1 (tget 0 k.cntSrc i) ++ zeros 2)).length = 8 * 8 := by
    rw [length_flatMap_const (k := 8) (fun i => by simp [length_natLe, length_zeros]), List.length_range]
  have hloops : ((List.range 4).flatMap (fun i =>
      natLe 4 (getLoop k i).start ++ natLe 4 (getLoop k i).stop ++ natLe 4 (getLoop k i).count ++ natLe 4 (getLoop k i).index)).length = 4 * 16 := by
    rw [length_flatMap_const (k := 16) (fun i => by simp [length_natLe]), List.length_range]
  simp only [imageBody, List.length_append, length_u32s, hcmp, hloops, length_flatMap_const (fun i => length_natLe _ _),
    List.length_range, length_natLe, length_zeros, length_mread]

theorem length_coreImage (s : State) (c : Nat) (k : Core) : (coreImage s c k).length = 114688 := by
  simp only [coreImage, List.length_append, length_natLe, length_zeros, length_imageBody]

theorem coreSave_of_waits {c : Nat} (h : (getCore s c).saving = false ∨ engineIdle (getCore s c) = false) : coreSave c s = s :=
  if_pos (by rcases h with h | h <;> simp [h])

/-- The image of a core on its way to its context. -/
def imagePosted (c : Nat) (s : State) : State :=
  let k := getCore s c
  postWriteBad (.core c k.nextJob) (ctxAt s c) (coreImage s c k)
    (dedup ((imageMems k).flatMap (fun m => m.2.map (fun w => (ctxAt s c + m.1 + 8 * w) / 64 % 2 ^ 46)))) s

/-- A core that is saved: what is kept beside its image. -/
def savedCore (k x : Core) : Core :=
  { x with
    state := 0, saving := false, saved := true, hold := none
    kept := some {
      halt := if k.state = 2 then some (k.haltAddr, k.haltCode, k.haltEngine) else none, progLen := k.progLen,
      posted := k.posted, takes := k.takes, hold := k.hold, row := k.row } }

theorem coreSave_of_idle {c : Nat} (h1 : (getCore s c).saving = true) (h2 : engineIdle (getCore s c) = true) :
    coreSave c s = modCore c (savedCore (getCore s c)) (imagePosted c s) := if_neg (by simp [h1, h2])

theorem imagePosted_leaves (c : Nat) (s : State) : imagePosted c s = { s with
    host := (imagePosted c s).host, hostPoison := (imagePosted c s).hostPoison, wells := (imagePosted c s).wells
    wellStamp := (imagePosted c s).wellStamp } := postWriteAs_leaves ..

/-- A state that differs from s by a write to host memory alone. -/
def wroteHost (s u : State) : Prop :=
  u = { s with host := u.host, hostPoison := u.hostPoison, wells := u.wells, wellStamp := u.wellStamp }

theorem wroteHost_imagePosted (c : Nat) (s : State) : wroteHost s (imagePosted c s) := imagePosted_leaves c s

theorem getCore_of_wroteHost {u : State} (h : wroteHost s u) (c : Nat) : getCore u c = getCore s c := by
  rw [h]
  rfl

theorem cores_of_wroteHost {u : State} (h : wroteHost s u) : u.cores = s.cores := by rw [h]

theorem modCore_of_wroteHost {u : State} (h : wroteHost s u) (c : Nat) (f : Core → Core) : modCore c f u =
    { s with
      cores := (modCore c f u).cores, host := (modCore c f u).host, hostPoison := (modCore c f u).hostPoison
      wells := (modCore c f u).wells, wellStamp := (modCore c f u).wellStamp } := by
  rw [h]
  rfl

theorem imagePosted_host {c : Nat} (h : ctxAt s c + 114688 ≤ 2 ^ 52) :
    (imagePosted c s).host = mwrite 0 s.host (ctxAt s c) (coreImage s c (getCore s c)) :=
  postWriteAs_host _ _ _ (by rw [length_coreImage]; exact h) s

theorem coreSave_leaves {c : Nat} (hu : s.unitsWf = true) (h1 : (getCore s c).saving = true)
    (h2 : engineIdle (getCore s c) = true) :
    let t := coreSave c s
    getCore t c = { getCore s c with
      state := 0, saving := false, saved := true, kept := (getCore t c).kept, hold := none } ∧
    t = { s with cores := t.cores, host := t.host, hostPoison := t.hostPoison, wells := t.wells, wellStamp := t.wellStamp } ∧
    (memWf 0 s.host = true → ctxAt s c + 114688 ≤ 2 ^ 52 →
      bytesStored s.host t.host (ctxAt s c) (coreImage s c (getCore s c))) := by
  obtain ⟨hw, -, -, -⟩ := unitsWf_iff.1 hu
  have hp := wroteHost_imagePosted c s
  rw [coreSave_of_idle h1 h2]
  refine ⟨?_, modCore_of_wroteHost hp c _, fun hm hmax => ?_⟩
  · rw [getCore_modCore_self _ _ ((cores_of_wroteHost hp).symm ▸ hw), getCore_of_wroteHost hp]
    rfl
  · rw [modCore_host, imagePosted_host hmax]
    exact bytesStored_mwrite hm _ _

/-! ### CORE_RESTORE -/

theorem coreRestore_of_waits {c : Nat} (h : (getCore s c).restoring = false ∨ engineIdle (getCore s c) = false) (rd : ReadEnd) :
    coreRestore c rd s = s := if_pos (by rcases h with h | h <;> simp [h])

section
variable {c : Nat} (h1 : (getCore s c).restoring = true) (h2 : engineIdle (getCore s c) = true)
include h1 h2

theorem coreRestore_of_good (hi : imageOk c (hostRead s (ctxAt s c) 114688) = true) : coreRestore c .ok s =
    setCore s c (restored s (ctxAt s c) (hostRead s (ctxAt s c) 114688) .ok (getCore s c)) := by
  unfold coreRestore
  rw [if_neg (by simp [h1, h2])]
  exact if_pos hi

/-- A core whose image fails its checks. -/
def failedCore (k : Core) : Core :=
  { k with restoring := false, saved := false, kept := none, state := 2, haltAddr := k.pc, haltCode := 0x30, haltEngine := eNone }

theorem coreRestore_of_bad (hi : imageOk c (hostRead s (ctxAt s c) 114688) = false) :
    coreRestore c .ok s = raise 0x15 0 (uCore c) (ctxAt s c) 0 (modCore c failedCore s) := by
  unfold coreRestore
  rw [if_neg (by simp [h1, h2])]
  exact if_neg (by rw [readsEnd, hi]; simp)
end

/-- Settles O23. -/
theorem programIsAcceptedWholeOrRefused : Obligations.ProgramIsAcceptedWholeOrRefused := by
  refine fun s => ⟨fun w rest hh => ?program, fun a gs img hd hu => ?accepted, fun a g k => ?loaded, fun hs c hc rd => ?saved⟩
  case program =>
    have hrow : ∀ rd, exec (.program rd) s = .next (programStarts rd w.toNat s) := fun rd => onHead_of_headIs hh _
    intro a gs img
    simp only [hrow]
    have hbusy : ∀ {l : List Segment}, l.all (fun g => decide ((getCore s g.core).state ≠ 1 ∧ (getCore s g.core).state ≠ 3) &&
        !(getCore s g.core).saving) = true → coresBusy s l = false := fun h => coresBusy_eq_false.2 (by simpa [and_assoc] using h)
    refine ⟨fun hok => ⟨fun hb rd => congrArg _ (programStarts_of_busy hok hb rd), fun hb hp ht => ?_, fun hb hbad => ?_⟩, fun hbad => ?_,
      fun rd hrd hb => ⟨_, rfl, ?_⟩⟩
    · rw [programStarts_accepts hok (hbusy hb) hp ht, popCmd_of_headIs hh]
      rfl
    · rw [programStarts_discards (.inr (hbusy hb)) (.inr hbad), discardCmd_of_headIs hh]
    · rw [programStarts_discards (.inl hbad) (.inl hbad), discardCmd_of_headIs hh]
    · have hrep := reported_readsEnd rd s
      obtain ⟨-, hfifo, -, -⟩ := hh
      rw [programStarts_unread hrd (coresBusy_eq_false.2 hb), discardCmd, configFault, raise_cmd, raise_cores, raise_step]
      exact ⟨by simp [popCmd, hrep.cmd, hfifo], hrep.cores, hrep.step⟩
  case accepted =>
    obtain ⟨hw, -, -, -⟩ := unitsWf_iff.1 hu
    obtain ⟨hin, hout⟩ := getCore_segsLoaded (s := s) (a := a) gs hw hd
    refine ⟨hin, hout, ?_⟩
    rw [acceptImage_eq, segsLoaded_leaves]
  case loaded => exact ⟨rfl, rfl, rfl, rfl, rfl, rfl, rfl, rfl, rfl, rfl, rfl, rfl, rfl, rfl, rfl, rfl⟩
  case saved =>
    have hsave : exec (.coreSave c) s = .next (coreSave c s) := actOn_of_live hs hc _
    have hrest : ∀ rd, exec (.coreRestore c rd) s = .next (coreRestore c rd s) := fun rd => actOn_of_live hs hc _
    rw [hsave, hrest, hrest]
    refine ⟨fun h => congrArg _ (coreSave_of_waits h), fun h1 h2 hu => ⟨_, rfl, ?_⟩, fun h => congrArg _ (coreRestore_of_waits h rd),
      fun h1 h2 hu hi => ⟨_, rfl, ?_⟩, fun h1 h2 hi => congrArg _ (coreRestore_of_good h1 h2 hi)⟩
    · exact coreSave_leaves hu h1 h2
    · obtain ⟨hw, -, -, -⟩ := unitsWf_iff.1 hu
      rw [coreRestore_of_bad h1 h2 hi, getCore, raise_cores, ← getCore, getCore_modCore_self _ _ hw,
        raise_count _ _ _ _ _ _ (by decide)]
      exact ⟨rfl, rfl⟩

end Sys2Proof.Machine
end

section
/-! The expanders: tables, pins, jobs, fetches and blocks (11 R421 to R437). -/

namespace Sys2Proof.Machine

variable {s t : State}

/-! ### Tables and pins -/

theorem tableLoad_of_free (h : s.exp.loading = none) (h0 : slotCount s s.exp.slot = 0) : tableLoad s =
    { s with exp := { s.exp with loading := some (s.exp.slot % 8, s.exp.gen, s.exp.src.toNat) } } := by
  simp [tableLoad, h, h0]

theorem tableLoad_of_used (h : s.exp.loading = none) (h0 : slotCount s s.exp.slot ≠ 0) :
    tableLoad s = { s with exp := { s.exp with busy := true } } := by
  simp [tableLoad, h, h0]

theorem tableLoad_of_loading (h : s.exp.loading ≠ none) : tableLoad s = s := if_pos (Option.isSome_iff_ne_none.2 h)

theorem tableLoadDone_of_none (h : s.exp.loading = none) (rd : ReadEnd) : tableLoadDone rd s = s := by
  simp only [tableLoadDone, h]

theorem tableLoadDone_of_ok {m g a : Nat} (h : s.exp.loading = some (m, g, a)) (hok : tableOk (hostRead s a 272) = true) :
    tableLoadDone .ok s = { s with exp := { s.exp with loading := none, slots := tset {} s.exp.slots (m % 8) { getSlot s m with
      gen := g, valid := true, fmt := numAt (hostRead s a 272) 0 1, lens := slice (hostRead s a 272) 16 256 } } } := by
  simp only [tableLoadDone, h]
  exact if_pos (Bool.and_eq_true_iff.2 ⟨decide_eq_true (rfl : ReadEnd.ok = .ok), hok⟩)

theorem tableLoadDone_of_bad {m g a : Nat} (h : s.exp.loading = some (m, g, a)) (hbad : tableOk (hostRead s a 272) = false) :
    tableLoadDone .ok s = { s with exp := { s.exp with loading := none, badTable := true } } := by
  simp only [tableLoadDone, h]
  refine (if_neg ?_).trans rfl
  intro hok
  exact Bool.false_ne_true (hbad.symm.trans (Bool.and_eq_true_iff.1 hok).2)

theorem tableLoadDone_unread {m g a : Nat} {rd : ReadEnd} (h : s.exp.loading = some (m, g, a)) (hrd : rd ≠ .ok) :
    (tableLoadDone rd s).exp = { s.exp with loading := none, badTable := true } := by
  have hexp : (readsEnd rd { s with exp := { s.exp with loading := none } }).exp = { s.exp with loading := none } :=
    (reported_readsEnd rd { s with exp := { s.exp with loading := none } }).exp
  simp only [tableLoadDone, h, hrd, decide_false, Bool.false_and, Bool.false_eq_true, if_false, hexp]

theorem expPin_of_room {n : Nat} (hn : n < 8) (h : (getSlot s n).pins < 65535) : expPin n s = { s with exp := { s.exp with
    slots := tset {} s.exp.slots n { getSlot s n with pins := (getSlot s n).pins + 1 } } } := by
  rw [expPin, if_neg (by omega), modSlot, Nat.mod_eq_of_lt hn, tmod, getSlot, Nat.mod_eq_of_lt hn]

theorem expPin_of_full {n : Nat} (h : 65535 ≤ (getSlot s n).pins) : expPin n s = { s with exp := { s.exp with pinErr := true } } :=
  if_pos h

theorem expUnpin_of_pinned {n : Nat} (hn : n < 8) (h : 0 < (getSlot s n).pins) : expUnpin n s = { s with exp := { s.exp with
    slots := tset {} s.exp.slots n { getSlot s n with pins := (getSlot s n).pins - 1 } } } := by
  rw [expUnpin, if_neg (by omega), modSlot, Nat.mod_eq_of_lt hn, tmod, getSlot, Nat.mod_eq_of_lt hn]

theorem expUnpin_of_none {n : Nat} (h : (getSlot s n).pins = 0) : expUnpin n s = { s with exp := { s.exp with pinErr := true } } :=
  if_pos h

/-! ### EXPAND -/

section
variable {v a : Nat} (ha : cmdAddr v = a)
include ha

theorem expandStarts_of_ok (h : expandOk s (hostRead s a 64) = true) : expandStarts .ok v s =
    modWell (numAt (hostRead s a 64) 20 1) (fun k => { k with jobs := k.jobs ++ [{
      src := numAt (hostRead s a 64) 0 8, dst := numAt (hostRead s a 64) 8 8, left := numAt (hostRead s a 64) 16 4
      core := none, fetch := numAt (hostRead s a 64) 0 8 }] }) (popCmd s) := by
  simp only [expandStarts, readsEnd, ha, h, decide_true, Bool.and_self, if_true]

theorem expandStarts_of_bad {rd : ReadEnd} (h : rd ≠ .ok ∨ expandOk (readsEnd rd s) (hostRead (readsEnd rd s) a 64) = false) :
    expandStarts rd v s = discardCmd 0x30 (readsEnd rd s) := by
  subst ha
  refine if_neg fun hgo => ?_
  obtain ⟨hrd, hok⟩ := Bool.and_eq_true_iff.1 hgo
  rcases h with h | h
  · exact h (of_decide_eq_true hrd)
  · exact Bool.false_ne_true (h.symm.trans hok)

theorem expandStarts_refused (h : expandOk s (hostRead s a 64) = false) : expandStarts .ok v s = discardCmd 0x30 s :=
  expandStarts_of_bad (s := s) (rd := .ok) ha (.inr h)
end

/-- From `s` to `t` no expander gains or loses a job. -/
def jobsKept (s t : State) : Prop := ∀ v, (getWell t v).jobs = (getWell s v).jobs

theorem jobsKept_of_asksOnly (h : asksOnly s t) : jobsKept s t := fun v => by rw [h.same v]

theorem jobsKept_trans {a b d : State} (h1 : jobsKept a b) (h2 : jobsKept b d) : jobsKept a d :=
  fun v => (h2 v).trans (h1 v)

theorem jobsKept_modWell {w : Nat} {f : Well → Well} (hf : f (getWell s w) ≠ {}) (hj : (f (getWell s w)).jobs = (getWell s w).jobs) :
    jobsKept s (modWell w f s) := fun v => by
  rw [getWell_modWell_of_ne hf]
  split
  · next h => rw [hj, h]
  · rfl

theorem jobsKept_readsEnd (rd : ReadEnd) (s : State) : jobsKept s (readsEnd rd s) := by
  cases rd with
  | ok => exact fun _ => rfl
  | poisoned us =>
    refine List.foldlRecOn (motive := jobsKept s) _ _ (fun _ => rfl) (fun u hu x _ => jobsKept_trans hu ?_)
    refine jobsKept_modWell (fun h => ?_) rfl
    exact satInc_one_ne _ (congrArg Well.poisonRd h)
  | error a =>
    refine jobsKept_trans (b := modWell (wellOf s a) (fun k => { k with errCpl := true }) s) ?_ (jobsKept_of_asksOnly (asksOnly_raise ..))
    refine jobsKept_modWell (fun h => ?_) rfl
    exact Bool.true_eq_false.mp (congrArg Well.errCpl h)

theorem expandStarts_unread {v : Nat} {w : U64} {rest : List U64} {rd : ReadEnd} (hh : headIs s 0x30 w rest) (hrd : rd ≠ .ok) :
    (expandStarts rd v s).cmd.fifo = rest ∧ jobsKept s (expandStarts rd v s) ∧
      tget 0 (expandStarts rd v s).faultCnt 0x0E = satInc (tget 0 s.faultCnt 0x0E) 1 := by
  have hrep := reported_readsEnd rd s
  obtain ⟨-, hfifo, -, -⟩ := hh
  rw [expandStarts_of_bad rfl (.inl hrd), discardCmd, configFault]
  refine ⟨?_, ?_, ?_⟩
  · rw [raise_cmd]
    simp [popCmd, hrep.cmd, hfifo]
  · have hpop : jobsKept (readsEnd rd s) (popCmd (readsEnd rd s)) := fun _ => rfl
    exact jobsKept_trans (jobsKept_readsEnd rd s) (jobsKept_trans hpop (jobsKept_of_asksOnly (asksOnly_raise ..)))
  · rw [raise_count _ _ _ _ _ _ (by decide)]
    exact congrArg (satInc · 1) (readsEnd_count rd s (by decide) (by decide))

/-! ### EXPANDER_FETCH and EXPAND_BLOCK -/

/-- The units that the next fetch of a job asks for: as many as the settings say, and none past the 4 KiB unit. -/
def fetchLen (j : ExpJob) : Nat := min (max 1 (min 64 (Config.fetchUnits (j.fetch % 2 ^ 52)))) (64 - j.fetch % 2 ^ 52 % 4096 / 64)

section
variable {w : Nat} {j : ExpJob} {js : List ExpJob} (hj : (getWell s w).jobs = j :: js)
include hj

theorem expanderFetch_eq : expanderFetch w s =
    if j.lostAt = true ∨ ¬ ((getWell s w).expBuf.length + fetching s w + fetchLen j ≤ 1024 ∨
        j.fetch < blockEnd (getWell s w) j) then s
    else enqueueReq {
        op := 0, addr := j.fetch % 2 ^ 52, len := fetchLen j, owner := .stream w, data := [], mask := [], poison := [],
        dests := [], beats := 0 }
      (setWell s w { getWell s w with jobs := { j with fetch := j.fetch + 64 * fetchLen j } :: js }) := by
  simp only [expanderFetch, hj]
  refine ite_congr (propext ?_) (fun _ => rfl) (fun _ => rfl)
  simp only [Bool.or_eq_true, Bool.not_eq_true', Bool.or_eq_false_iff, decide_eq_false_iff_not, not_or]
  rfl

theorem expandBlock_of_lost (hl : j.lostAt = true) :
    expandBlock w s = expandNext w none (expandWrite j none (zeros 4096) true s) := by
  simp only [expandBlock, hj, hl, if_true]

variable (hl : j.lostAt = false)
include hl

theorem expandBlock_of_no_header (hh : streamAt (getWell s w) j.src 32 = none) : expandBlock w s = s := by
  simp only [expandBlock, hj, hl, hh, Bool.false_eq_true, if_false]

variable {h : Bytes} {b0 : Bool} (hh : streamAt (getWell s w) j.src 32 = some (h, b0))
include hh

theorem expandBlock_of_bad_header (hok : headerOk h = false) : expandBlock w s = expandNext w
    (if 64 ≤ numAt h 20 4 ∧ numAt h 20 4 ≤ 8192 then some (j.src + roundUp (numAt h 20 4) 64) else none)
    (damaged w 4 j.src (expandWrite j none (zeros 4096) true s)) := by
  simp only [expandBlock, hj, hl, hh, hok, Bool.false_eq_true, if_false, Bool.not_false, if_true]

theorem expandBlock_of_no_body (hok : headerOk h = true) (hb : streamAt (getWell s w) j.src (numAt h 20 4) = none) :
    expandBlock w s = s := by
  simp only [expandBlock, hj, hl, hh, hok, hb, Bool.false_eq_true, if_false, Bool.not_true]

theorem expandBlock_of_body {blk : Bytes} {bad : Bool} (hok : headerOk h = true)
    (hb : streamAt (getWell s w) j.src (numAt h 20 4) = some (blk, bad)) :
    expandBlock w s = expandNext w (some (j.src + numAt h 20 4)) (damaged w (expandBytes s blk).2 j.src
      (expandWrite j (some (numAt h 3 1)) (expandBytes s blk).1 (bad || decide ((expandBytes s blk).2 ≠ 0)) s)) := by
  simp only [expandBlock, hj, hl, hh, hok, hb, Bool.false_eq_true, if_false, Bool.not_true]
end

/-- Settles O37. -/
theorem expanderRows : Obligations.ExpanderRows := by
  refine ⟨fun s n hs hn => ⟨fun h h0 => ?load, fun h h0 => ?busy, fun h => ?loading, fun h rd => ?noLoad,
    fun m g a h => ⟨fun hok => ⟨_, ?loaded, rfl⟩, fun hbad => ?badTable, fun rd hrd => ⟨_, act_of_live hs _, ?unread⟩⟩,
    fun h => ?pin, fun h => ?pinFull, fun h => ?unpin, fun h => ?unpinNone, fun w rest hh => ?expand⟩, fun s w hs hw => ?rows⟩
  case load => exact (act_of_live hs _).trans (congrArg _ (tableLoad_of_free h h0))
  case busy => exact (act_of_live hs _).trans (congrArg _ (tableLoad_of_used h h0))
  case loading => exact (act_of_live hs _).trans (congrArg _ (tableLoad_of_loading h))
  case noLoad => exact (act_of_live hs _).trans (congrArg _ (tableLoadDone_of_none h rd))
  case loaded => exact (act_of_live hs _).trans (congrArg _ (tableLoadDone_of_ok h hok))
  case badTable => exact (act_of_live hs _).trans (congrArg _ (tableLoadDone_of_bad h hbad))
  case unread => exact tableLoadDone_unread h hrd
  case pin => exact (act_of_live hs _).trans (congrArg _ (expPin_of_room hn h))
  case pinFull => exact (act_of_live hs _).trans (congrArg _ (expPin_of_full h))
  case unpin => exact (act_of_live hs _).trans (congrArg _ (expUnpin_of_pinned hn h))
  case unpinNone => exact (act_of_live hs _).trans (congrArg _ (expUnpin_of_none h))
  case expand =>
    have hrow : ∀ rd, exec (.expand rd) s = .next (expandStarts rd w.toNat s) := fun rd => onHead_of_headIs hh _
    have ha : cmdAddr w.toNat = field w.toNat 47 8 * 4096 := rfl
    refine ⟨fun hok => ?_, fun hbad => ?_, fun rd hrd => ⟨_, hrow rd, expandStarts_unread hh hrd⟩⟩
    · rw [hrow, expandStarts_of_ok ha hok, popCmd_of_headIs hh]
    · rw [hrow, expandStarts_refused ha hbad, discardCmd_of_headIs hh]
  case rows =>
    have hfetch : exec (.expanderFetch w) s = .next (expanderFetch w s) := actOn_of_live hs hw _
    have hblock : exec (.expandBlock w) s = .next (expandBlock w s) := actOn_of_live hs hw _
    intro k
    rw [hfetch, hblock]
    refine ⟨fun hj => ⟨?noFetch, ?noBlock⟩, fun j js hj => ⟨fun hl hroom => ?fetch, fun hno => ?fetchWaits,
      fun hl hh => ?_, fun h b0 blk bad hl hh hok hb => ?_, fun h b0 hl hh hok hb => ?_, fun hl => ?_, fun h b0 hl hh hok => ?_⟩⟩
    case noFetch => simp only [expanderFetch, k, hj]
    case noBlock => simp only [expandBlock, k, hj]
    case fetch =>
      rw [expanderFetch_eq hj]
      exact congrArg _ (if_neg (by rw [hl]; exact not_or_intro Bool.false_ne_true (not_not_intro hroom)))
    case fetchWaits =>
      rw [expanderFetch_eq hj]
      exact congrArg _ (if_pos hno)
    · exact congrArg _ (expandBlock_of_no_header hj hl hh)
    · exact congrArg _ (expandBlock_of_body hj hl hh hok hb)
    · exact congrArg _ (expandBlock_of_no_body hj hl hh hok hb)
    · exact congrArg _ (expandBlock_of_lost hj hl)
    · exact congrArg _ (expandBlock_of_bad_header hj hl hh hok)

end Sys2Proof.Machine
end

section
/-! The forges and the norm (12 R439 to R455; 15 R522, R523). -/

namespace Sys2Proof.Machine

variable {s t : State}

/-! ### FORGE_APPLY -/

section
variable {w : Nat} {err : U64 × U64} {rd : ReadEnd}

theorem forgeApplyNext_of_idle (h : (getWell s w).fbusy ≠ none ∨ (getWell s w).fqueue = []) : forgeApplyNext w err rd s = s := by
  unfold forgeApplyNext
  simp only
  split
  · next hb hq =>
    rcases h with h | h
    · exact absurd hb h
    · rw [hq] at h
      nomatch h
  · rfl

variable {a : Accepted} {rest : List Accepted} (hb : (getWell s w).fbusy = none) (hq : (getWell s w).fqueue = a :: rest)
include hb hq

theorem forgeApplyNext_of_no_record
    (hr : recordOf s (hdrOf (entryChunk s w a)).group (hdrOf (entryChunk s w a)).seq = none) :
    forgeApplyNext w err rd s = unqueue w a.slot s := by
  simp only [forgeApplyNext, hb, hq, hr]

variable {r : ForgeRec} (hr : recordOf s (hdrOf (entryChunk s w a)).group (hdrOf (entryChunk s w a)).seq = some r)
include hr

theorem forgeApplyNext_of_held (hm : mayApply s r a.step = false) : forgeApplyNext w err rd s = s := by
  simp only [forgeApplyNext, hb, hq, hr, hm, Bool.not_false, if_true]

variable (hm : mayApply s r a.step = true)
include hm

theorem forgeApplyNext_of_no_block
    (hj : blockOf r (hdrOf (entryChunk s w a)).base (hdrOf (entryChunk s w a)).count = none) :
    forgeApplyNext w err rd s = unqueue w a.slot s := by
  simp only [forgeApplyNext, hb, hq, hr, hm, hj, Bool.not_true, Bool.false_eq_true, if_false]
end

/-! ### The outcomes of a block -/

/-- What the reads of a block met. -/
def blockBad (s : State) (w : Nat) (a : Accepted) (rd : ReadEnd) (r : ForgeRec) (j : Nat) : Bool :=
  blockPoisoned rd s r j (entryChunk s w a) || a.slot.any (fun n => readBad s rd (parkAt s w n) 4144)

/-- The block computed from what its reads brought. -/
def blockResult (s : State) (w : Nat) (a : Accepted) (rd : ReadEnd) (r : ForgeRec) (j : Nat) : Applied :=
  computeBlock (readsEnd rd s) r j (entryChunk s w a) (latchedFor (readsEnd rd s) a.step) (blockBad s w a rd r j)

/-- A block that is written occupies its forge. -/
def blockWritten (w : Nat) (a : Accepted) (b : Bytes) (ws : List (Nat × Bytes)) (t : State) : State :=
  modWell w (fun k => { k with fqueue := k.fqueue.tail, fbusy := some (b, a.slot) })
    (ws.foldl (fun t x => forgeWrite w (hdrOf b).step x.1 x.2 t) t)

/-- The disagreement of a sampled block with its partner, the first or the second. -/
def blockDiffers (n w : Nat) (p : Nat) (b : Bytes) (u : State) : State :=
  raiseFull 0x0A n (uWell w) (chunkInfo (hdrOf b).group (hdrOf b).seq (hdrOf b).index) (uWell p) n (some (uWell p)) u

/-- The agreement of a sampled block, recorded at both wells. -/
def blockAgrees (w p : Nat) (u : State) : State :=
  modUnit (uWell p) (fun x => { x with lastAgree := some (recordStep u) })
    (modUnit (uWell w) (fun x => { x with lastAgree := some (recordStep u) }) u)

section
variable {w : Nat} {err : U64 × U64} {rd : ReadEnd} {a : Accepted} {rest : List Accepted} (hb : (getWell s w).fbusy = none)
  (hq : (getWell s w).fqueue = a :: rest) {r : ForgeRec}
  (hr : recordOf s (hdrOf (entryChunk s w a)).group (hdrOf (entryChunk s w a)).seq = some r) (hm : mayApply s r a.step = true)
  {j : Nat} (hj : blockOf r (hdrOf (entryChunk s w a)).base (hdrOf (entryChunk s w a)).count = some j)
include hb hq hr hm hj

theorem forgeApplyNext_of_skip {cause : Nat} (hc : blockResult s w a rd r j = .skip cause) :
    forgeApplyNext w err rd s = skipBlock cause w r j (hdrOf (entryChunk s w a)) (unqueue w a.slot (readsEnd rd s)) := by
  unfold blockResult blockBad at hc
  simp only [forgeApplyNext, hb, hq, hr, hm, hj, Bool.not_true, Bool.false_eq_true, if_false, chunkBytes, hc]

theorem forgeApplyNext_of_nothing (hc : blockResult s w a rd r j = .nothing) :
    forgeApplyNext w err rd s = updateBroadcast r j (hdrOf (entryChunk s w a)).step (unqueue w a.slot (readsEnd rd s)) := by
  unfold blockResult blockBad at hc
  simp only [forgeApplyNext, hb, hq, hr, hm, hj, Bool.not_true, Bool.false_eq_true, if_false, chunkBytes, hc]

section
variable {ws : List (Nat × Bytes)} (hc : blockResult s w a rd r j = .writes ws)
include hc

theorem forgeApplyNext_of_writes : forgeApplyNext w err rd s =
    let b := entryChunk s w a
    let u := readsEnd rd s
    let p := partnerWell s w
    if forgeSampled s r j (hdrOf b).step then
      if err.1 = 0 then blockWritten w a b ws (blockAgrees w p u)
      else if err.2 = 0 then blockWritten w a b ws (blockDiffers 1 w p b u)
      else skipBlock 0 w r j (hdrOf b) (unqueue w a.slot (blockDiffers 2 w p b u))
    else blockWritten w a b ws u := by
  unfold blockResult blockBad at hc
  simp only [forgeApplyNext, hb, hq, hr, hm, hj, Bool.not_true, Bool.false_eq_true, if_false, chunkBytes, hc]
  cases forgeSampled s r j (hdrOf (entryChunk s w a)).step
  · rfl
  · by_cases h1 : err.1 = 0
    · simp only [h1, ne_eq, not_true_eq_false, decide_false, Bool.and_false, Bool.false_and, Bool.false_eq_true, if_false, if_true]
      rfl
    · by_cases h2 : err.2 = 0
      · simp only [h1, h2, ne_eq, not_true_eq_false, not_false_eq_true, decide_true, decide_false, Bool.and_true, Bool.and_false,
          Bool.false_eq_true, if_false, if_true]
        rfl
      · simp only [h1, h2, ne_eq, not_false_eq_true, decide_true, Bool.and_true, if_false, if_true]
        rfl
end
end

/-! ### FORGE_BLOCK_APPLIED -/

/-- A forge that has ended its block: it is free, and the block is counted. -/
def blockEnded (w : Nat) (slot : Option Nat) (s : State) : State :=
  setWell s w { getWell s w with
    fbusy := none, applied := (getWell s w).applied + 1, parked := (getWell s w).parked - b2n slot.isSome }

theorem forgeBlockDone_of_waits {w : Nat} (h : (getWell s w).fbusy = none ∨ anyPending (.forge w) s = true) :
    forgeBlockDone w s = s := by
  unfold forgeBlockDone
  split
  · rfl
  · next b slot hb => exact if_pos (h.resolve_left (by simp [hb]))

section
variable {w : Nat} {b : Bytes} {slot : Option Nat} (hb : (getWell s w).fbusy = some (b, slot)) (hp : anyPending (.forge w) s = false)
include hb hp

theorem forgeBlockDone_of_no_record (hr : recordOf s (hdrOf b).group (hdrOf b).seq = none) :
    forgeBlockDone w s = blockEnded w slot s := by
  have hr' : recordOf (blockEnded w slot s) (hdrOf b).group (hdrOf b).seq = none := hr
  unfold blockEnded at hr' ⊢
  simp only [forgeBlockDone, hb, hp, Bool.false_eq_true, if_false, modWell, hr']

variable {r : ForgeRec} (hr : recordOf s (hdrOf b).group (hdrOf b).seq = some r)
include hr

theorem forgeBlockDone_of_no_block (hj : blockOf r (hdrOf b).base (hdrOf b).count = none) :
    forgeBlockDone w s = blockEnded w slot s := by
  have hr' : recordOf (blockEnded w slot s) (hdrOf b).group (hdrOf b).seq = some r := hr
  unfold blockEnded at hr' ⊢
  simp only [forgeBlockDone, hb, hp, Bool.false_eq_true, if_false, modWell, hr', hj]

theorem forgeBlockDone_of_block {j : Nat} (hj : blockOf r (hdrOf b).base (hdrOf b).count = some j) :
    forgeBlockDone w s = updateBroadcast r j (hdrOf b).step (blockEnded w slot s) := by
  have hr' : recordOf (blockEnded w slot s) (hdrOf b).group (hdrOf b).seq = some r := hr
  unfold blockEnded at hr' ⊢
  simp only [forgeBlockDone, hb, hp, Bool.false_eq_true, if_false, modWell, hr', hj]
end

/-! ### The norm -/

theorem normReleaseDo_of_free (h : s.forge.hold = false) : normReleaseDo s = s := if_pos (by simp [h])

theorem normAbandonDo_of_free (h : s.forge.hold = false) : normAbandonDo s = s := if_pos (by simp [h])

theorem normReleaseDo_of_held (h : s.forge.hold = true) : normReleaseDo s =
    latchPair s.forge.heldStep s.forge.heldKappa
      (setModeAt s.forge.heldStep mfNormRelease { s with forge := { s.forge with hold := false } }) :=
  if_neg (by simp [h])

theorem normOpens_of_none (h : s.step.opened = none ∨ mapInForce s = none ∨ normDue s = false) : normOpens s = s := by
  unfold normOpens
  split
  · next st m ho hm =>
    refine if_pos ?_
    rcases h with h | h | h
    · exact absurd (ho.symm.trans h) (by simp)
    · exact absurd (hm.symm.trans h) (by simp)
    · simp [h]
  · rfl

section
variable {st : Nat} {m : PhaseMap} (ho : s.step.opened = some st) (hm : mapInForce s = some m) (hd : normDue s = true)
include ho hm hd

theorem normOpens_of_shut (h : mayOpen s ⟨m.normGroup, m.normSeq, st⟩ = false) : normOpens s = s := by
  simp only [normOpens, ho, hm, hd, h, Bool.not_true, Bool.not_false, Bool.or_true, if_true]

theorem normOpens_of_open (h : mayOpen s ⟨m.normGroup, m.normSeq, st⟩ = true) : normOpens s =
    handOwn (mkXf { kind := 7, fmt := 0xA, grp := 0, flags := 0, group := m.normGroup, seq := m.normSeq, index := 0, base := 0,
                    count := 2, member := memberId s, sparse := 0, weight := 1, step := st } [normSum s, xfNat s.forge.failed])
      (openReduction ⟨m.normGroup, m.normSeq, st⟩ 2 { s with forge := { s.forge with sent := true, ownSq := normSum s } }) := by
  simp only [normOpens, ho, hm, hd, h, Bool.not_true, Bool.or_false, Bool.false_eq_true, if_false]
  rfl
end

/-- Settles O38. -/
theorem forgeAndNormRows : Obligations.ForgeAndNormRows := by
  refine ⟨fun s w err rd hs hw => ?forge, fun s hs => ?norm⟩
  case forge =>
    have happly : exec (.forgeApply w err rd) s = .next (forgeApplyNext w err rd s) := actOn_of_live hs hw _
    have hdone : exec (.forgeBlockApplied w) s = .next (forgeBlockDone w s) := actOn_of_live hs hw _
    rw [happly, hdone]
    refine ⟨fun h => congrArg _ (forgeApplyNext_of_idle h),
        fun a rest hb hq => ⟨fun hr => congrArg _ (forgeApplyNext_of_no_record hb hq hr),
      fun r hr hm => congrArg _ (forgeApplyNext_of_held hb hq hr hm),
          fun r hr hm hj => congrArg _ (forgeApplyNext_of_no_block hb hq hr hm hj),
      fun r j hr hm hj => ⟨fun ws hc => ?writes, fun cause hc => congrArg _ (forgeApplyNext_of_skip hb hq hr hm hj hc),
        fun hc => congrArg _ (forgeApplyNext_of_nothing hb hq hr hm hj hc)⟩⟩,
      fun h => congrArg _ (forgeBlockDone_of_waits h), fun b slot hb hp hr => congrArg _ (forgeBlockDone_of_no_record hb hp hr),
      fun b slot r hb hp hr => ⟨fun hj => congrArg _ (forgeBlockDone_of_no_block hb hp hr hj),
        fun j hj => congrArg _ (forgeBlockDone_of_block hb hp hr hj)⟩⟩
    rw [forgeApplyNext_of_writes hb hq hr hm hj hc]
    refine ⟨fun h => ?_, fun h h1 => ?_, fun h h1 h2 => ?_, fun h h1 h2 => ?_⟩
    · exact congrArg _ (if_neg (by rw [h]; decide))
    · exact congrArg _ ((if_pos h).trans (if_pos h1))
    · exact congrArg _ ((if_pos h).trans ((if_neg h1).trans (if_pos h2)))
    · exact congrArg _ ((if_pos h).trans ((if_neg h1).trans (if_neg h2)))
  case norm =>
    have hrelease : exec .normRelease s = .next (normReleaseDo s) := act_of_live hs _
    have habandon : exec .normAbandon s = .next (normAbandonDo s) := act_of_live hs _
    have hopen : exec .normOpen s = .next (normOpens s) := act_of_live hs _
    rw [hrelease, habandon, hopen]
    exact ⟨fun h => ⟨congrArg _ (normReleaseDo_of_free h), congrArg _ (normAbandonDo_of_free h)⟩,
      fun h => congrArg _ (normReleaseDo_of_held h), fun h => congrArg _ (if_neg (by simp [h])), fun w a => rfl,
      fun h => congrArg _ (normOpens_of_none h), fun st m ho hm hd =>
        ⟨fun h => congrArg _ (normOpens_of_shut ho hm hd h), fun h => congrArg _ (normOpens_of_open ho hm hd h)⟩⟩

end Sys2Proof.Machine
end


/-! ### Links -/

section
namespace Sys2Proof.Machine
open Sys2Proof
variable {s : State}

/-- A table built again entry by entry holds the image of each entry. -/
theorem tget_foldl_tset [DecidableEq α] {d : α} {f : Nat → α → α} (i : Nat) (t : List (Nat × α))
    (hp : t.Pairwise (fun a b => a.1 < b.1)) {u : List (Nat × α)} (hu : tableWf d u = true) :
    tget d (t.foldl (fun u e => tset d u e.1 (f e.1 e.2)) u) i =
      if i ∈ t.map Prod.fst then f i (tget d t i) else tget d u i := by
  induction t generalizing u with
  | nil => rfl
  | cons e t ih =>
    obtain ⟨k, v⟩ := e
    obtain ⟨hk, ht⟩ := List.pairwise_cons.1 hp
    rw [List.foldl_cons, ih ht (tableWf_tset _ _ hu), tget_tset _ _ _ hu]
    by_cases hi : i ∈ t.map Prod.fst
    · obtain ⟨e, he, rfl⟩ := List.mem_map.1 hi
      have hlt : k < e.1 := hk e he
      have hget : tget d ((k, v) :: t) e.1 = tget d t e.1 := by
        simp only [tget, if_neg (show ¬ k = e.1 by omega), if_neg (show ¬ e.1 < k by omega)]
      rw [if_pos hi, if_pos (by simp [hi]), hget]
    · by_cases h : i = k
      · subst h
        simp [tget, hi]
      · simp [hi, h]

theorem tget_of_no_key {d : α} {t : List (Nat × α)} {i : Nat} (h : i ∉ t.map Prod.fst) : tget d t i = d := by
  induction t with
  | nil => rfl
  | cons e t ih =>
    obtain ⟨hne, ht⟩ := not_or.1 (mt List.mem_cons.2 h)
    simp only [tget, if_neg (show ¬ e.1 = i from fun he => hne he.symm), ih ht, ite_self]

theorem keepWhole_nil (v : Nat) : keepWhole v [] = [] := by simp [keepWhole, wholeCriers, wholeFrames]

theorem clearLink_rxBuf {k : Gate} (hw : tableWf [] k.rxBuf = true) (v : Nat) :
    tget [] (clearLink k).rxBuf v = keepWhole v (tget [] k.rxBuf v) := by
  obtain ⟨hp, -⟩ := (tableWf_iff ..).1 hw
  refine (tget_foldl_tset (f := keepWhole) v k.rxBuf hp (tableWf_nil _)).trans ?_
  split
  · rfl
  · next h => rw [tget_of_no_key h, keepWhole_nil]; rfl

theorem startTraining_eq (g : Nat) (s : State) : startTraining g s =
    if (getGate s g).enable = true ∧ (getGate s g).phyRdy = true ∧ (getGate s g).laneFail0 = false ∧
      (getGate s g).laneFail1 = false ∧ (getGate s g).state = 0 ∧ fencedGate s g = false
    then setGate s g { clearLink (getGate s g) with state := 1 } else s := by
  simp only [startTraining, mayTrain, Bool.and_eq_true, Bool.not_eq_true', decide_eq_true_iff, and_assoc]
  rfl

/-- With no operation past its deadline and none whose stale inputs a rebuild passed over, a lost link excludes nothing. -/
theorem downExcludes_of_quiet (g : Nat) (h : ∀ o ∈ s.ops, o.limit = 0 ∧ o.stale = []) : downExcludes g s = s := by
  have hmap : s.ops.map (fun o => { o with stale := o.stale.filter (stillComes s o g) }) = s.ops := by
    refine (List.map_congr_left fun o ho => ?_).trans (List.map_id _)
    obtain ⟨-, hst⟩ := h o ho
    cases o
    simp_all
  have hnone (p : Op → Bool) : s.ops.filter (fun o => decide (1 ≤ o.limit) && p o) = [] :=
    List.filter_eq_nil_iff.2 fun o ho => by simp [(h o ho).1]
  rw [downExcludes]
  simp only [hmap]
  rw [hnone]
  rfl

theorem linkDown_of_quiet (g bit st : Nat) (h : ∀ o ∈ s.ops, o.limit = 0 ∧ o.stale = []) :
    linkDown g bit st s = raise 0x03 bit (uGate g) 0
      (getGate (modGate g (fun k => { clearLink k with state := st, bits := setBit k.bits bit }) s) g).peerMember
      (modGate g (fun k => { clearLink k with state := st, bits := setBit k.bits bit }) s) :=
  downExcludes_of_quiet _ fun o ho => h o (by simpa using ho)

theorem getGate_raise (c d u i0 i1 : Nat) (g : Nat) : getGate (raise c d u i0 i1 s) g = getGate s g := by simp [getGate]

/-- Settles O45: each row by the gate's state at it, and the fields that a cleared link keeps and loses. -/
theorem linksComeUpAndGoDown : Obligations.LinksComeUpAndGoDown := by
  unfold Obligations.LinksComeUpAndGoDown
  refine ⟨?rows, ?down⟩
  case rows =>
    intro s g hs hg
    refine ⟨actOn_of_live hs hg _, actOn_of_live hs hg _, startTraining_eq g s, fun hu => ?disable, fun h => ?refused,
      fun h hf => ?retrain, fun h3 h4 => ?other, fun l hu => ?lane, fun hu => ?phy, actOn_of_live hs hg _⟩
    case disable =>
      obtain ⟨-, hw, -⟩ := unitsWf_iff.1 hu
      refine actOn_of_eq hs hg ?_
      simp only [disableLink, getGate_modGate_self g _ hw]
    case refused => exact actOn_of_eq hs hg (if_pos h)
    case retrain => exact actOn_of_eq hs hg (by simp only [h, hf]; rfl)
    case other => exact actOn_of_eq hs hg (by simp [h3, h4])
    case lane =>
      obtain ⟨-, hw, -⟩ := unitsWf_iff.1 hu
      refine actOn_of_eq hs hg ?_
      simp only [getGate_modGate_self g _ hw]
    case phy =>
      obtain ⟨-, hw, -⟩ := unitsWf_iff.1 hu
      refine actOn_of_eq hs hg ?_
      simp only [getGate_modGate_self g _ hw]
  case down =>
    intro s g bit st hg hu hq k t
    obtain ⟨-, hw, -⟩ := unitsWf_iff.1 hu
    have ht : t = _ := linkDown_of_quiet g bit st hq
    have hk : getGate t g = { clearLink k with state := st, bits := setBit k.bits bit } := by
      rw [ht, getGate_raise, getGate_modGate_self g _ hw]
    rw [hk]
    refine ⟨rfl, rfl, rfl, rfl, rfl, rfl, rfl, rfl, rfl, rfl, rfl, rfl, rfl, ?bytes, fun h => clearLink_rxBuf h, rfl, rfl,
      ?others, ?ops, ?cores, ?roll, ?step, ?count⟩
    case bytes => simp [clearLink]
    case others =>
      intro x hx
      rw [ht, getGate_raise, getGate_modGate _ _ _ _ hw, if_neg hx]
    case ops => simp [ht]
    case cores => simp [ht]
    case roll => simp [ht]
    case step => simp [ht]
    case count => rw [ht, raise_count _ _ _ _ _ _ (by decide)]; rfl

end Sys2Proof.Machine
end


section
namespace Sys2Proof.Machine
open Sys2Proof
variable {s : State} {g : Nat} {f : Bytes}

/-! #### One received flit -/

theorem linkIsUp_of_up {k : Gate} (h : k.state = 2) : linkIsUp k = k := if_neg fun hn => by omega

theorem trainRx_of_bad_crc (h : flitGood f = false) : trainRx g f s =
    setGate s g { getGate s g with crcErr := satInc (getGate s g).crcErr 1, trainGood := 0 } := by
  rw [trainRx]
  simp only [h, Bool.not_false, if_true]
  rfl

theorem trainRx_of_other (h : flitGood f = true) (ht : numAt f 0 4 % 16 ≠ 2) : trainRx g f s = s := by
  rw [trainRx]
  simp only [h, Bool.not_true, Bool.false_eq_true, if_false, if_pos ht]

theorem trainRx_of_unmarked (h : flitGood f = true) (ht : numAt f 0 4 % 16 = 2) (hm : numAt (flitPayload f) 28 1 ≠ 0x5A) :
    trainRx g f s = setGate s g { getGate s g with trainGood := 0 } := by
  rw [trainRx]
  simp only [h, Bool.not_true, Bool.false_eq_true, if_false, if_neg (Classical.not_not.2 ht), if_pos hm]
  rfl

theorem trainRx_of_version (h : flitGood f = true) (ht : numAt f 0 4 % 16 = 2) (hm : numAt (flitPayload f) 28 1 = 0x5A)
    (hv : numAt (flitPayload f) 0 4 ≠ 0x53564C58 ∨ numAt (flitPayload f) 4 4 ≠ 0x00030001) :
    trainRx g f s = linkDown g lbVersion 4 s := by
  rw [trainRx]
  simp only [h, Bool.not_true, Bool.false_eq_true, if_false, if_neg (Classical.not_not.2 ht), if_neg (Classical.not_not.2 hm), if_pos hv]

/-- What a gate in training keeps of a good TRAIN flit. -/
def trained (p : Bytes) (k : Gate) : Gate :=
  linkIsUp { k with
    trainGood := k.trainGood + 1
    aligned := k.aligned || decide (64 ≤ k.trainGood + 1)
    peerState := numAt p 13 1
    trainState := if !(k.aligned || decide (64 ≤ k.trainGood + 1)) then 0
      else if 1 ≤ numAt p 13 1 ∨ k.trainState = 2 then 2 else 1
    peerSeen := (numAt p 8 4 % 2 ^ 18, numAt p 12 1 % 2 ^ 7)
    peerCredits := (List.range 8).map (fun i => numAt p (32 + 2 * i) 2) }

theorem trainRx_of_good (h : flitGood f = true) (ht : numAt f 0 4 % 16 = 2) (hm : numAt (flitPayload f) 28 1 = 0x5A)
    (h0 : numAt (flitPayload f) 0 4 = 0x53564C58) (h1 : numAt (flitPayload f) 4 4 = 0x00030001) :
    trainRx g f s = modGate g (trained (flitPayload f)) s := by
  rw [trainRx]
  simp only [h, Bool.not_true, Bool.false_eq_true, if_false, if_neg (Classical.not_not.2 ht), if_neg (Classical.not_not.2 hm), h0, h1, ne_eq,
    not_true_eq_false, or_self]
  rfl

theorem linkIsUp_trainGood (k : Gate) : (linkIsUp k).trainGood = k.trainGood := by rw [linkIsUp]; split <;> rfl

theorem linkIsUp_aligned (k : Gate) : (linkIsUp k).aligned = k.aligned := by rw [linkIsUp]; split <;> rfl

theorem linkIsUp_peerCredits (k : Gate) : (linkIsUp k).peerCredits = k.peerCredits := by rw [linkIsUp]; split <;> rfl

theorem linkIsUp_state_of_training {k : Gate} (h : k.state = 1) : (linkIsUp k).state =
    if k.aligned = true ∧ k.sent2 = true ∧ k.peerState = 2 then 2 else 1 := by
  simp only [linkIsUp, h, true_and]
  split
  · rfl
  · exact h

theorem trained_state {k : Gate} (p : Bytes) (h : k.state = 1) : (trained p k).state =
    if (k.aligned || decide (64 ≤ k.trainGood + 1)) = true ∧ k.sent2 = true ∧ numAt p 13 1 = 2 then 2 else 1 :=
  linkIsUp_state_of_training h

/-- A discarded flit asks for one nak. -/
theorem rxDiscard_eq : rxDiscard g s =
    setGate s g { getGate s g with nak := true, nakDue := (getGate s g).nakDue || !(getGate s g).nak } := by
  rw [rxDiscard, modGate]
  congr 1
  cases hn : (getGate s g).nak
  · simp
  · generalize hk : getGate s g = k at hn ⊢
    cases k
    simp_all

theorem rxFlit_of_bad_crc (hw : tableWf {} s.gates = true) (h : flitGood f = false) (e : Bool) : rxFlit g f e s =
    setGate s g { getGate s g with
      crcErr := satInc (getGate s g).crcErr 1, nak := true, nakDue := (getGate s g).nakDue || !(getGate s g).nak } := by
  rw [rxFlit]
  simp only [h, Bool.not_false, if_true]
  rw [rxDiscard_eq, getGate_modGate_self _ _ hw, modGate,
    setGate_setGate _ _ _ hw]

theorem rxFlit_of_idle (h : flitGood f = true) (ht : numAt f 0 4 % 16 = 0 ∨ numAt f 0 4 % 16 = 2) (e : Bool) :
    rxFlit g f e s = s := by
  rw [rxFlit]
  simp only [h, Bool.not_true, Bool.false_eq_true, if_false, if_pos ht]

theorem rxFlit_of_ack (h : flitGood f = true) (ht : numAt f 0 4 % 16 = 1) (e : Bool) : rxFlit g f e s =
    ackRx g (numAt (flitPayload f) 0 2 % 4096) (bitOf (numAt (flitPayload f) 0 2) 15) s := by
  have h02 : ¬ (numAt f 0 4 % 16 = 0 ∨ numAt f 0 4 % 16 = 2) := by omega
  rw [rxFlit]
  simp only [h, Bool.not_true, Bool.false_eq_true, if_false, if_neg h02, if_pos ht]

theorem rxFlit_of_bufErr (h : flitGood f = true) (ht : 2 < numAt f 0 4 % 16) : rxFlit g f true s = rxDiscard g
    (raise 0x01 6 (uGate g) 0 0 (setGate s g { getGate s g with crcErr := satInc (getGate s g).crcErr 1 })) := by
  have h02 : ¬ (numAt f 0 4 % 16 = 0 ∨ numAt f 0 4 % 16 = 2) := by omega
  have h1 : ¬ numAt f 0 4 % 16 = 1 := by omega
  rw [rxFlit]
  simp only [h, Bool.not_true, Bool.false_eq_true, if_false, if_true, if_neg h02, if_neg h1]
  rfl

/-- A sequenced flit is accepted with the next number, on a channel of its type and with zero reserved bits. -/
def inSequence (k : Gate) (h : Nat) : Prop :=
  bitOf h 7 = false ∧ field h 31 29 = 0 ∧ typeOnVc (h % 16) (field h 6 4) = true ∧ field h 19 8 = k.expSeq

theorem rxFlit_of_sequenced (h : flitGood f = true) (ht : 2 < numAt f 0 4 % 16) :
    (inSequence (getGate s g) (numAt f 0 4) → rxFlit g f false s = rxAccept g f s) ∧
    (¬ inSequence (getGate s g) (numAt f 0 4) → rxFlit g f false s = rxDiscard g s) := by
  have hcond : (bitOf (numAt f 0 4) 7 || decide (field (numAt f 0 4) 31 29 ≠ 0) ||
      !typeOnVc (numAt f 0 4 % 16) (field (numAt f 0 4) 6 4) ||
      decide (field (numAt f 0 4) 19 8 ≠ (getGate s g).expSeq)) = true ↔ ¬ inSequence (getGate s g) (numAt f 0 4) := by
    simp only [inSequence, Bool.or_eq_true, Bool.not_eq_true', decide_eq_true_iff, Decidable.not_and_iff_not_or_not, Bool.not_eq_false,
      Bool.not_eq_true, or_assoc, ne_eq]
  have h02 : ¬ (numAt f 0 4 % 16 = 0 ∨ numAt f 0 4 % 16 = 2) := by omega
  have h1 : ¬ numAt f 0 4 % 16 = 1 := by omega
  rw [rxFlit]
  simp only [h, Bool.not_true, Bool.false_eq_true, if_false, if_neg h02, if_neg h1]
  exact ⟨fun ho => if_neg (mt hcond.1 (Classical.not_not.2 ho)), fun ho => if_pos (hcond.2 ho)⟩

/-! #### An accepted flit -/

/-- The gate once it has advanced past an accepted flit of header h. -/
def advanced (h : Nat) (k : Gate) : Gate := { k with
  nak := false, expSeq := (k.expSeq + 1) % 4096, accepted := true, ackSince := true,
  sendCred := tmod 0 k.sendCred (field h 22 20) (· + field h 28 23) }

theorem rxAccept_of_credit (ht : numAt f 0 4 % 16 = 3) :
    rxAccept g f s = setGate s g (advanced (numAt f 0 4) (getGate s g)) := by
  rw [rxAccept]
  simp only [ht, if_true]
  rfl

theorem rxAccept_of_full (hw : tableWf {} s.gates = true) (ht : numAt f 0 4 % 16 ≠ 3)
    (hn : vcSize (field (numAt f 0 4) 6 4) ≤ (tget [] (getGate s g).rxBuf (field (numAt f 0 4) 6 4)).length) :
    rxAccept g f s = linkDown g lbCredit 3 (setGate s g (advanced (numAt f 0 4) (getGate s g))) := by
  rw [rxAccept]
  simp only [if_neg ht, getGate_modGate_self g _ hw, if_pos hn]
  rfl

theorem rxAccept_of_notice (hw : tableWf {} s.gates = true) (ht : numAt f 0 4 % 16 = 7)
    (hn : (tget [] (getGate s g).rxBuf (field (numAt f 0 4) 6 4)).length < vcSize (field (numAt f 0 4) 6 4)) :
    rxAccept g f s = rxNotice g (flitPayload f) (setGate s g (advanced (numAt f 0 4) (getGate s g))) := by
  rw [rxAccept]
  simp only [ht, getGate_modGate_self g _ hw, if_neg (Nat.not_le.2 hn), if_true, Nat.reduceEqDiff, if_false]
  rfl

theorem rxAccept_of_room (hw : tableWf {} s.gates = true) (h3 : numAt f 0 4 % 16 ≠ 3) (h7 : numAt f 0 4 % 16 ≠ 7)
    (hn : (tget [] (getGate s g).rxBuf (field (numAt f 0 4) 6 4)).length < vcSize (field (numAt f 0 4) 6 4)) :
    rxAccept g f s = setGate s g { advanced (numAt f 0 4) (getGate s g) with
      rxBuf := tmod [] (getGate s g).rxBuf (field (numAt f 0 4) 6 4) (· ++ [natLe 1 (numAt f 0 4 % 16) ++ flitPayload f]) } := by
  rw [rxAccept]
  simp only [if_neg h3, getGate_modGate_self g _ hw, if_neg (Nat.not_le.2 hn), if_neg h7]
  rw [modGate, modGate, setGate_setGate _ _ _ hw, getGate_setGate _ _ _ _ hw, if_pos rfl]
  rfl

/-- A notice can only come on the notices' channel. -/
theorem vc_of_notice {vc : Nat} (h : typeOnVc 7 vc = true) : vc = 1 := by simpa [typeOnVc] using h

/-! #### The two lanes -/

theorem flitReceive_of_down (h1 : (getGate s g).state ≠ 1) (h2 : (getGate s g).state ≠ 2) (a b : Option Bytes) (e : Bool) :
    flitReceive g a b e s = s := by
  rw [flitReceive]
  exact if_pos ⟨h1, h2⟩

/-- What a lane's queues and their ages come to when a beat is taken. -/
theorem flitReceive_of_link (hw : tableWf {} s.gates = true) (hl : (getGate s g).state = 1 ∨ (getGate s g).state = 2)
    (a b : Option Bytes) (e : Bool) : flitReceive g a b e s =
    let k := getGate s g
    let q0 := k.rx0 ++ a.toList
    let q1 := k.rx1 ++ b.toList
    let ages := k.rxAges.map (fun n => n + 1) ++ List.replicate (max q0.length q1.length - k.rxAges.length) 0
    if ages.any (fun n => decide (16 < n)) then linkDown g lbDeskew 3 (setGate s g { k with rx0 := q0, rx1 := q1 })
    else match q0, q1 with
      | x :: xs, y :: ys =>
        let t := setGate s g { k with rx0 := xs, rx1 := ys, rxAges := ages.drop 1 }
        if k.state = 1 then trainRx g (x ++ y) t else rxFlit g (x ++ y) e t
      | xs, ys => setGate s g { k with rx0 := xs, rx1 := ys, rxAges := ages } := by
  have hno : ¬ ((getGate s g).state ≠ 1 ∧ (getGate s g).state ≠ 2) := by omega
  rw [flitReceive]
  simp only [if_neg hno, getGate_modGate_self g _ hw, agesAfter]
  split
  · rfl
  · generalize e0 : (getGate s g).rx0 ++ a.toList = q0
    generalize e1 : (getGate s g).rx1 ++ b.toList = q1
    cases q0 <;> cases q1 <;> simp only [modGate, setGate_setGate _ _ _ hw, getGate_setGate _ _ _ _ hw, if_true, e0, e1]

/-- Two beats that meet on empty lanes are one flit at once. -/
theorem flitReceive_of_both (hw : tableWf {} s.gates = true) (hl : (getGate s g).state = 1 ∨ (getGate s g).state = 2)
    (h0 : (getGate s g).rx0 = []) (h1 : (getGate s g).rx1 = []) (ha : (getGate s g).rxAges = []) (x y : Bytes) (e : Bool) :
    flitReceive g (some x) (some y) e s = if (getGate s g).state = 1 then trainRx g (x ++ y) s else rxFlit g (x ++ y) e s := by
  have hsame : setGate s g { getGate s g with rx0 := [], rx1 := [], rxAges := [] } = s :=
    modGate_of_eq (f := fun k => { k with rx0 := [], rx1 := [], rxAges := [] }) hw (by
      generalize getGate s g = k at h0 h1 ha ⊢
      cases k
      simp_all)
  rw [flitReceive_of_link hw hl]
  simp [h0, h1, ha, hsame]

/-- Settles O46: the row of each flit by the lemma on its kind. -/
theorem flitsAreTakenInSequence : Obligations.FlitsAreTakenInSequence := by
  unfold Obligations.FlitsAreTakenInSequence
  intro s g hs hg hu k
  obtain ⟨-, hw, -⟩ := unitsWf_iff.1 hu
  have htrain (h : k.state = 1) (f : Bytes) : exec (.trainFlit g f) s = .next (trainRx g f s) :=
    actOn_of_eq hs hg (if_pos h)
  have hreceive (a b : Option Bytes) (e : Bool) : exec (.flitReceive g a b e) s = .next (flitReceive g a b e s) :=
    actOn_of_live hs hg _
  refine ⟨fun h f => actOn_of_eq hs hg (if_neg h), fun h f hf => ?badTrain, fun h f hf ht => ?goodTrain, fun h f hf ht => ?notTrain,
    fun h1 h2 a b e => ?down, fun h0 h1 ha x y e => ?both, fun hl a b e => ?lanes, fun f e hf => rxFlit_of_bad_crc hw hf e,
    fun f hf => ?flit⟩
  case badTrain => rw [htrain h, trainRx_of_bad_crc hf]
  case notTrain => rw [htrain h, trainRx_of_other hf ht]
  case down => rw [hreceive, flitReceive_of_down h1 h2]
  case lanes =>
    rw [hreceive]
    exact congrArg _ ((flitReceive_of_link hw hl a b e).trans rfl)
  case both =>
    refine ⟨fun h => ?_, fun h => ?_⟩
    · rw [hreceive, flitReceive_of_both hw (.inl h) h0 h1 ha, if_pos h, htrain h]
    · rw [hreceive, flitReceive_of_both hw (.inr h) h0 h1 ha, if_neg (show ¬ (getGate s g).state = 1 from fun hn => by rw [h] at hn; omega)]
  case goodTrain =>
    refine ⟨fun hm => ?_, fun hm hv => ?_, fun hm h0 h1 => ⟨modGate g (trained (flitPayload f)) s, ?_, ?_⟩⟩
    · rw [htrain h, trainRx_of_unmarked hf ht hm]
    · rw [htrain h, trainRx_of_version hf ht hm hv]
    · exact (htrain h f).trans (congrArg _ (trainRx_of_good hf ht hm h0 h1))
    · rw [getGate_modGate_self g _ hw]
      exact ⟨linkIsUp_trainGood _, linkIsUp_aligned _, linkIsUp_peerCredits _, trained_state _ h⟩
  case flit =>
    refine ⟨fun ht e => rxFlit_of_idle hf ht e, fun ht h2 e => ?ack, fun ht => rxFlit_of_bufErr hf ht, fun ht => ?sequenced⟩
    case ack =>
      rw [rxFlit_of_ack hf ht]
      refine actOn_of_eq hs hg ((if_pos h2).trans ?_)
      rfl
    case sequenced =>
      intro p u
      obtain ⟨hin, hout⟩ := rxFlit_of_sequenced hf ht (s := s) (g := g)
      refine ⟨fun h => (hout h).trans rxDiscard_eq, fun h h3 h7 hn => (hin h).trans (rxAccept_of_room hw h3 h7 hn),
        fun h h3 => (hin h).trans (rxAccept_of_credit h3), fun h h7 hn => (hin h).trans ?notice,
        fun h h3 hn => (hin h).trans (rxAccept_of_full hw h3 hn)⟩
      case notice =>
        obtain ⟨-, -, hvc, -⟩ := h
        rw [h7] at hvc
        rw [rxAccept_of_notice hw h7 (by rwa [vc_of_notice hvc])]
        rfl

end Sys2Proof.Machine
end


section
namespace Sys2Proof.Machine
open Sys2Proof
variable {s : State} {g : Nat}

/-! #### Acknowledgements, replays and the flits sent -/

theorem ackRx_nak (g a : Nat) (s : State) : ackRx g a true s = replayAll g (ackRx g a false s) := by simp [ackRx]

theorem ackRx_of_empty (hw : tableWf {} s.gates = true) (h : (getGate s g).replayBuf = []) (a : Nat) : ackRx g a false s = s := by
  simp only [ackRx, Bool.false_eq_true, if_false]
  exact modGate_of_eq hw (by simp only [h])

/-- An acknowledgement that names the rel-th flit of the replay buffer releases it and those before it. -/
theorem ackRx_of_first (hw : tableWf {} s.gates = true) {q : Nat} {f : Bytes} {rest : List (Nat × Bytes)}
    (h : (getGate s g).replayBuf = (q, f) :: rest) (a : Nat) :
    let k := getGate s g
    let rel := (a % 4096 + 4097 - q) % 4096
    (0 < rel → rel ≤ rest.length + 1 → ackRx g a false s = setGate s g { k with
      replayBuf := k.replayBuf.drop rel, consec := 0,
      replays := k.replays.drop (k.replays.length - (rest.length + 1 - rel)) }) ∧
    (rel = 0 ∨ rest.length + 1 < rel → ackRx g a false s = s) := by
  intro k rel
  have hcond : (0 < rel ∧ rel ≤ k.replayBuf.length) ↔ (0 < rel ∧ rel ≤ rest.length + 1) := by
    simp [k, h]
  simp only [ackRx, Bool.false_eq_true, if_false]
  refine ⟨fun h0 h1 => ?named, fun hn => ?unnamed⟩
  case named =>
    simp only [modGate, h]
    rw [if_pos ⟨h0, by simpa using h1⟩]
    simp [k, h, rel]
  case unnamed =>
    refine modGate_of_eq hw ?_
    simp only [h]
    exact if_neg fun hp => by
      have := hp.2
      simp only [List.length_cons] at this
      have := hp.1
      omega

theorem replayAll_eq : replayAll g s =
    let k := getGate s g
    if k.replayBuf = [] then s
    else
      let t := setGate s g { k with
        replays := k.replayBuf.map (fun x => x.2), retryCount := k.retryCount + 1, consec := k.consec + 1 }
      if k.limit ≤ k.consec + 1 then linkDown g lbRetry 3 t else t := by
  simp only [replayAll, List.isEmpty_iff]
  rfl

theorem pickFlit_of_ack {k : Gate} (h : k.ackDue = true ∨ k.nakDue = true) :
    pickFlit k = (flitBytes 1 (natLe 2 ((k.expSeq + 4095) % 4096 + (if k.nakDue then 2 ^ 15 else 0))),
      { k with ackDue := false, nakDue := false, ackSince := false }) := by
  rw [pickFlit, if_pos (by simpa using h)]

theorem pickFlit_of_replay {k : Gate} {f : Bytes} {fs : List Bytes} (ha : k.ackDue = false) (hn : k.nakDue = false)
    (h : k.replays = f :: fs) : pickFlit k = (f, { k with replays := fs }) := by
  rw [pickFlit, if_neg (by simp [ha, hn]), h]

/-- What the lanes offer when the next slot is not yet wanted, or the link is neither training nor up. -/
theorem txTake_of_no_slot (hw : tableWf {} s.gates = true) (a b : Bool)
    (h : let m := takeBeats a b (getGate s g)
      (m.txLead.1 < m.txWin.length ∧ m.txLead.2 < m.txWin.length) ∨ (m.state ≠ 1 ∧ m.state ≠ 2)) :
    txTake g a b s = setGate s g (offerBeats (takeBeats a b (getGate s g))) := by
  have hoffer : modGate g offerBeats (modGate g (takeBeats a b) s) = setGate s g (offerBeats (takeBeats a b (getGate s g))) :=
    modGate_setGate _ _ _ hw
  simp only [txTake, getGate_modGate_self g _ hw, slotFlit, hoffer]
  rcases h with ⟨h0, h1⟩ | ⟨h1, h2⟩
  · exact if_neg (by omega)
  · simp only [if_neg h1, if_neg h2, ite_self]

/-- What the lanes offer when a new slot is wanted: the flit of the link's state follows those not yet sent. -/
theorem txTake_of_slot (hw : tableWf {} s.gates = true) (a b : Bool) {f : Bytes} {k' : Gate}
    (hn : (takeBeats a b (getGate s g)).txWin.length ≤
      max (takeBeats a b (getGate s g)).txLead.1 (takeBeats a b (getGate s g)).txLead.2)
    (hf : slotFlit (modGate g (takeBeats a b) s) g = some (f, k')) :
    txTake g a b s = setGate s g (offerBeats { k' with txWin := k'.txWin ++ [f] }) := by
  simp only [txTake, getGate_modGate_self g _ hw, if_pos hn, hf]
  rw [modGate, setGate_setGate _ _ _ hw]

theorem takeBeats_state (a b : Bool) (k : Gate) : (takeBeats a b k).state = k.state := rfl

theorem trainPayload_takeBeats (hw : tableWf {} s.gates = true) (a b : Bool) :
    trainPayload (modGate g (takeBeats a b) s) g = trainPayload s g := by
  simp only [trainPayload, getGate_modGate_self g _ hw]
  rfl

theorem linkIsUp_txWin (k : Gate) : (linkIsUp k).txWin = k.txWin := by rw [linkIsUp]; split <;> rfl

theorem greenUnit_known {u : Nat} (h : greenUnit u = true) (f : Bool) :
    exec (.greenFlitReceive u f) s = act s (fun s => if f then s else badGreenFlit u s) := if_pos h

/-- Settles O47: each row by the lemma on its part of the gate. -/
theorem sentFlitsAreAcknowledgedOrReplayed : Obligations.SentFlitsAreAcknowledgedOrReplayed := by
  unfold Obligations.SentFlitsAreAcknowledgedOrReplayed
  intro s g hs hg hu k
  obtain ⟨-, hw, -⟩ := unitsWf_iff.1 hu
  have hack (h : k.state = 2) (a : Nat) (n : Bool) : exec (.ackReceive g a n) s = .next (ackRx g a n s) :=
    actOn_of_eq hs hg (if_pos h)
  have htake (a b : Bool) : exec (.gateTxtake g a b) s = .next (txTake g a b s) := actOn_of_live hs hg _
  refine ⟨fun h => ?notUp, fun h a => ?acks, fun h => actOn_of_eq hs hg (if_pos h), replayAll_eq, fun h => ?ackSend,
    fun h => ?credit, fun a b => ?slots, fun a b => ?trainSlot, pickFlit_of_ack, fun ha hn f fs h => pickFlit_of_replay ha hn h,
    fun ty vc p => ⟨rfl, rfl⟩, fun u hgu => ?green, fun u p hgu => if_neg (by simp [hgu])⟩
  case notUp =>
    refine ⟨actOn_of_eq hs hg (modGate_of_eq hw (if_neg fun hp => h hp.1)),
      actOn_of_eq hs hg (modGate_of_eq hw (if_neg fun hp => h hp.1)), actOn_of_eq hs hg (if_neg h),
      fun a n => actOn_of_eq hs hg (if_neg h)⟩
  case acks =>
    refine ⟨fun he => ?_, fun q f rest hr => ?_, fun t ht => ?_⟩
    · rw [hack h, ackRx_of_empty hw he]
    · obtain ⟨hnamed, hunnamed⟩ := ackRx_of_first hw hr a
      exact ⟨fun h0 h1 => (hack h a false).trans (congrArg _ (hnamed h0 h1)),
        fun hn => (hack h a false).trans (congrArg _ (hunnamed hn))⟩
    · rw [hack h] at ht
      rw [hack h, ackRx_nak, Host.Outcome.next.inj ht]
  case ackSend => exact actOn_of_eq hs hg (by simp only [modGate, k] at h ⊢; simp only [h, true_and])
  case credit => exact actOn_of_eq hs hg (by simp only [modGate, k] at h ⊢; simp only [h, true_and])
  case slots =>
    refine ⟨fun h0 h1 => ?_, fun h1 h2 => ?_, fun h hn => ?_⟩
    · rw [htake, txTake_of_no_slot hw a b (.inl ⟨h0, h1⟩)]
    · rw [htake, txTake_of_no_slot hw a b (.inr ⟨h1, h2⟩)]
    · refine (htake a b).trans (congrArg _ (txTake_of_slot hw a b hn ?_))
      simp only [slotFlit, getGate_modGate_self g _ hw]
      exact if_pos h
  case trainSlot =>
    intro m h hn
    refine (htake a b).trans (congrArg _ ((txTake_of_slot hw a b (f := flitBytes 2 (trainPayload s g))
      (k' := linkIsUp { m with sent2 := m.sent2 || decide (m.trainState = 2) }) hn ?_).trans ?_))
    · have h2 : ¬ m.state = 2 := by have : m.state = 1 := h; omega
      simp only [slotFlit, getGate_modGate_self g _ hw, trainPayload_takeBeats hw]
      exact (if_neg h2).trans (if_pos h)
    · rw [linkIsUp_txWin]
  case green =>
    refine ⟨(greenUnit_known hgu true).trans (act_of_live hs _), ?_⟩
    exact (greenUnit_known hgu false).trans (act_of_live hs _)

end Sys2Proof.Machine
end


/-! ### ROLL_LOAD -/

section
namespace Sys2Proof.Machine
open Sys2Proof
variable {s t : State}

/-! #### The groups that load -/

/-- The groups found among the first m records: each with a valid record under its number, no number twice. -/
structure loadedTo (u : State) (c : Charter) (m : Nat) (l : Loading) : Prop where
  valid : ∀ g ∈ l.groups, g.id < m ∧ dirOk g.id (hostRead u (c.rollDir + 64 * g.id) 64)
    (dirRec (hostRead u (c.rollDir + 64 * g.id) 64)) = true
  nodup : (l.groups.map (fun g => g.id)).Nodup
  entries : l.entries ≤ 32768

theorem loadedTo_skip {u : State} {c : Charter} {n : Nat} {l l' : Loading} (h : loadedTo u c n l) (hg : l'.groups = l.groups)
    (he : l'.entries = l.entries) : loadedTo u c (n + 1) l' where
  valid g hm := by
    obtain ⟨hlt, hd⟩ := h.valid g (hg ▸ hm)
    exact ⟨by omega, hd⟩
  nodup := hg ▸ h.nodup
  entries := he ▸ h.entries

theorem loadedTo_append {u : State} {c : Charter} {n : Nat} {l l' : Loading} {g : Grp} (h : loadedTo u c n l)
    (hg : l'.groups = l.groups ++ [g]) (hid : g.id = n) (he : l'.entries ≤ 32768)
    (hd : dirOk n (hostRead u (c.rollDir + 64 * n) 64) (dirRec (hostRead u (c.rollDir + 64 * n) 64)) = true) :
    loadedTo u c (n + 1) l' where
  valid x hm := by
    rw [hg, List.mem_append, List.mem_singleton] at hm
    rcases hm with hm | rfl
    · obtain ⟨hlt, hx⟩ := h.valid x hm
      exact ⟨by omega, hx⟩
    · exact ⟨by omega, hid ▸ hd⟩
  nodup := by
    rw [hg, List.map_append, List.map_singleton, List.nodup_append]
    refine ⟨h.nodup, List.pairwise_singleton .., fun a ha b hb => ?_⟩
    obtain ⟨x, hx, rfl⟩ := List.mem_map.1 ha
    obtain ⟨hlt, -⟩ := h.valid x hx
    rw [List.mem_singleton.1 hb, hid]
    omega
  entries := he

theorem loadedTo_ite {u : State} {c : Charter} {n : Nat} {a b : Loading} {p : Prop} [Decidable p] (ha : p → loadedTo u c n a)
    (hb : ¬ p → loadedTo u c n b) : loadedTo u c n (if p then a else b) := by
  split
  · next h => exact ha h
  · next h => exact hb h

theorem loadedTo_loadGroup {u : State} {c : Charter} {n : Nat} {l : Loading} (h : loadedTo u c n l) :
    loadedTo u c (n + 1) (loadGroup u c l n) := by
  unfold loadGroup
  extract_lets b d fail ms vb v me mk x es parentOk g hm
  have hfail : ∀ r, loadedTo u c (n + 1) (fail r) := fun r => loadedTo_skip h rfl rfl
  refine loadedTo_ite (fun _ => loadedTo_skip h rfl rfl) fun _ => loadedTo_ite (fun _ => hfail 1) fun hd => ?_
  have hdir : dirOk n b d = true := by simpa using hd
  refine loadedTo_ite (fun _ => hfail 2) fun _ => loadedTo_ite (fun _ => ?outside) fun _ => ?member
  case outside =>
    refine loadedTo_ite (fun _ => hfail 3) fun _ => loadedTo_ite (fun _ => hfail 5) fun _ => loadedTo_ite (fun _ => hfail 7)
      fun _ => ?_
    exact loadedTo_append h rfl rfl h.entries hdir
  case member =>
    refine loadedTo_ite (fun _ => hfail 3) fun _ => loadedTo_ite (fun _ => hfail 4) fun _ => loadedTo_ite (fun _ => hfail 5)
      fun _ => loadedTo_ite (fun _ => hfail 6) fun hroom => loadedTo_ite (fun _ => hfail 7) fun _ => ?_
    exact loadedTo_append h rfl rfl (by show l.entries + v.childCount ≤ 32768; omega) hdir

theorem loadedTo_foldl (u : State) (c : Charter) (m : Nat) :
    loadedTo u c m ((List.range m).foldl (loadGroup u c) ⟨[], 0, [], []⟩) := by
  induction m with
  | zero => exact ⟨by simp, by simp, by simp⟩
  | succ m ih =>
    rw [List.range_succ, List.foldl_append]
    exact loadedTo_loadGroup ih

/-! #### What else a load leaves -/

/-- Beyond the roll registers only what reports faults has changed. -/
def rollReported (s t : State) : Prop := reported { s with roll := t.roll } t

theorem rollReported_trans {a b c : State} (h1 : rollReported a b) (h2 : rollReported b c) : rollReported a c := by
  unfold rollReported reported at *
  rw [h1] at h2
  exact h2

theorem rollReported_of_reported (h : reported s t) : rollReported s t := by
  unfold rollReported
  rw [h.roll]
  exact h

theorem rollReported_foldl {α : Type} {f : State → α → State} (hf : ∀ s x, rollReported s (f s x)) (l : List α) (s : State) :
    rollReported s (l.foldl f s) := by
  induction l generalizing s with
  | nil => exact reported_refl s
  | cons x l ih => exact rollReported_trans (hf s x) (ih _)

/-- What a failing group writes into the roll registers. -/
def rollFailed (r : Roll) (e : Nat × Nat) : Roll :=
  let r := if r.loadErr then r else { r with errGroup := e.1, errReason := e.2 }
  { r with loadErr := true, peerErr := r.peerErr || decide (e.2 = 4) }

theorem rollFail_roll (s : State) (e : Nat × Nat) : (rollFail s e).roll = rollFailed s.roll e := raise_roll ..

theorem rollReported_rollFail (s : State) (e : Nat × Nat) : rollReported s (rollFail s e) :=
  rollReported_trans (b := { s with roll := rollFailed s.roll e }) rfl (rollReported_of_reported (reported_raise ..))

theorem foldl_rollFail_roll (es : List (Nat × Nat)) (s : State) :
    (es.foldl rollFail s).roll = es.foldl rollFailed s.roll := by
  induction es generalizing s with
  | nil => rfl
  | cons e es ih => rw [List.foldl_cons, ih, rollFail_roll, List.foldl_cons]

theorem rollFailed_leaves (r : Roll) (e : Nat × Nat) :
    rollFailed r e = { r with
      errGroup := (rollFailed r e).errGroup, errReason := (rollFailed r e).errReason, loadErr := true
      peerErr := (rollFailed r e).peerErr } := by
  unfold rollFailed
  split <;> rfl

theorem rollFailed_of_err {r : Roll} (h : r.loadErr = true) (e : Nat × Nat) :
    (rollFailed r e).errGroup = r.errGroup ∧ (rollFailed r e).errReason = r.errReason := by
  simp only [rollFailed, h, if_true, and_self]

theorem rollFailed_of_first {r : Roll} (h : r.loadErr = false) (e : Nat × Nat) :
    (rollFailed r e).errGroup = e.1 ∧ (rollFailed r e).errReason = e.2 := by
  simp only [rollFailed, h, Bool.false_eq_true, if_false, and_self]

theorem rollFailed_loadErr (r : Roll) (e : Nat × Nat) : (rollFailed r e).loadErr = true := rfl

theorem foldl_rollFailed_loaded (es : List (Nat × Nat)) (r : Roll) :
    (es.foldl rollFailed r).loaded = r.loaded ∧ (es.foldl rollFailed r).groups = r.groups ∧
      (es.foldl rollFailed r).hmax = r.hmax ∧ (es.foldl rollFailed r).route = r.route := by
  induction es generalizing r with
  | nil => exact ⟨rfl, rfl, rfl, rfl⟩
  | cons e es ih =>
    obtain ⟨h1, h2, h3, h4⟩ := ih (rollFailed r e)
    rw [rollFailed_leaves] at h1 h2 h3 h4
    rw [List.foldl_cons, rollFailed_leaves]
    exact ⟨h1, h2, h3, h4⟩

theorem foldl_rollFailed_of_err (es : List (Nat × Nat)) {r : Roll} (h : r.loadErr = true) :
    (es.foldl rollFailed r).loadErr = true ∧ (es.foldl rollFailed r).errGroup = r.errGroup ∧
      (es.foldl rollFailed r).errReason = r.errReason := by
  induction es generalizing r with
  | nil => exact ⟨h, rfl, rfl⟩
  | cons e es ih =>
    obtain ⟨h1, h2, h3⟩ := ih (rollFailed_loadErr r e)
    obtain ⟨hg, hr⟩ := rollFailed_of_err h e
    exact ⟨h1, h2.trans hg, h3.trans hr⟩

theorem foldl_rollFailed_loadErr (es : List (Nat × Nat)) (r : Roll) :
    (es.foldl rollFailed r).loadErr = (r.loadErr || !es.isEmpty) := by
  cases es with
  | nil => simp
  | cons e es =>
    obtain ⟨h, -, -⟩ := foldl_rollFailed_of_err es (rollFailed_loadErr r e)
    simpa using h

/-! #### The row -/

/-- The groups that the 4,096 records in host memory give. -/
def rollGroups (c : Charter) (u : State) : Loading := (List.range 4096).foldl (loadGroup u c) ⟨[], 0, [], []⟩

/-- The state once the groups and the routes have been read, before their failures are reported. -/
def rollRead (l : Loading) (route : List Byte) (u : State) : State :=
  { u with roll := { u.roll with loaded := true, groups := l.groups, hmax := l.hmax, route := route } }

/-- The routes that host memory gives; none for an entry that names a gate without a link. -/
def rollRoutes (c : Charter) (u : State) : List (Option Byte) := (hostRead u c.mktRoute 32768).map (routeEntry u)

def routesOf (es : List (Option Byte)) : List Byte := es.map (fun e => e.getD 0x7F)

theorem rollLoad_eq {c : Charter} (hc : s.charter = some c) (ho : anyOpOpen s = false) (hn : s.roll.confirming = []) (rd : ReadEnd) :
    rollLoad rd s =
      ((rollRoutes c (readsEnd rd s)).filter (·.isNone)).foldl
        (fun s _ => raise 0x0F 0 uBlock 0 0 s)
        ((rollGroups c (readsEnd rd s)).errs.foldl rollFail
          (rollRead (rollGroups c (readsEnd rd s)) (routesOf (rollRoutes c (readsEnd rd s))) (readsEnd rd s))) := by
  simp only [rollLoad, hc, ho, hn, List.isEmpty_nil, Bool.not_true, Bool.or_self, Bool.false_eq_true, if_false]
  rfl

theorem rollLoad_roll {c : Charter} (hc : s.charter = some c) (ho : anyOpOpen s = false) (hn : s.roll.confirming = [])
    (rd : ReadEnd) : (rollLoad rd s).roll =
      (rollGroups c (readsEnd rd s)).errs.foldl rollFailed
        (rollRead (rollGroups c (readsEnd rd s)) (routesOf (rollRoutes c (readsEnd rd s))) (readsEnd rd s)).roll := by
  rw [rollLoad_eq hc ho hn, ← foldl_rollFail_roll]
  exact (reported_foldl (fun s _ => reported_raise ..) _ _).roll

theorem rollReported_rollLoad {c : Charter} (hc : s.charter = some c) (ho : anyOpOpen s = false) (hn : s.roll.confirming = [])
    (rd : ReadEnd) : rollReported s (rollLoad rd s) := by
  rw [rollLoad_eq hc ho hn]
  refine rollReported_trans (rollReported_of_reported (reported_readsEnd rd s)) ?_
  refine rollReported_trans (b := rollRead (rollGroups c (readsEnd rd s)) (routesOf (rollRoutes c (readsEnd rd s))) (readsEnd rd s)) rfl ?_
  exact rollReported_trans (rollReported_foldl rollReported_rollFail _ _)
    (rollReported_of_reported (reported_foldl (fun s _ => reported_raise ..) _ _))

theorem routeEntry_of_gates {u : State} (h : u.gates = s.gates) (b : Byte) : routeEntry u b = routeEntry s b := by
  have hup : linkUp u b.toNat = linkUp s b.toNat := by rw [linkUp, linkUp, getGate, getGate, h]
  rw [routeEntry, routeEntry, hup]

/-- The roll registers once the failures of the groups es have been reported. -/
theorem foldl_rollFailed_rollRead (l : Loading) (route : List Byte) {u : State} (hu : u.roll = s.roll) {r : Roll}
    (hr : r = l.errs.foldl rollFailed (rollRead l route u).roll) :
    r.loaded = true ∧ r.groups = l.groups ∧ r.hmax = l.hmax ∧
    r.route = route ∧ r.loadErr = (s.roll.loadErr || !l.errs.isEmpty) ∧
    (∀ e rest, s.roll.loadErr = false → l.errs = e :: rest → r.errGroup = e.1 ∧ r.errReason = e.2) ∧
    (s.roll.loadErr = true ∨ l.errs = [] → r.errGroup = s.roll.errGroup ∧ r.errReason = s.roll.errReason) := by
  obtain ⟨hloaded, hgroups, hhmax, hroute⟩ := foldl_rollFailed_loaded l.errs (rollRead l route u).roll
  have herr : (rollRead l route u).roll.loadErr = s.roll.loadErr :=
    (congrArg Roll.loadErr hu : u.roll.loadErr = _)
  have hgrp : (rollRead l route u).roll.errGroup = s.roll.errGroup :=
    (congrArg Roll.errGroup hu : u.roll.errGroup = _)
  have hreason : (rollRead l route u).roll.errReason = s.roll.errReason :=
    (congrArg Roll.errReason hu : u.roll.errReason = _)
  subst hr
  refine ⟨hloaded, hgroups, hhmax, hroute, ?loadErr, fun e rest h0 he => ?first, fun h => ?kept⟩
  case loadErr => rw [foldl_rollFailed_loadErr, herr]
  case first =>
    obtain ⟨-, hg, hr⟩ := foldl_rollFailed_of_err rest (rollFailed_loadErr (rollRead l route u).roll e)
    obtain ⟨hg', hr'⟩ := rollFailed_of_first (herr.trans h0) e
    rw [he]
    exact ⟨hg.trans hg', hr.trans hr'⟩
  case kept =>
    rcases h with h | h
    · obtain ⟨-, hg, hr⟩ := foldl_rollFailed_of_err l.errs (herr.trans h)
      exact ⟨hg.trans hgrp, hr.trans hreason⟩
    · rw [h]
      exact ⟨hgrp, hreason⟩

/-- Settles O48: the fold over the 4,096 records keeps `loadedTo`, and reports touch nothing of what was read. -/
theorem rollLoadReplacesTheDirectory : Obligations.RollLoadReplacesTheDirectory := by
  unfold Obligations.RollLoadReplacesTheDirectory
  intro s hs
  have hrow (rd : ReadEnd) : exec (.rollLoad rd) s = .next (rollLoad rd s) := act_of_live hs _
  refine ⟨fun hc rd => ?none, fun c hc hw rd => ?refused, fun c hc ho hn rd => ?loads⟩
  case none => rw [hrow, rollLoad, hc]
  case refused =>
    have hcond : (anyOpOpen s || !s.roll.confirming.isEmpty) = true := by simpa using hw
    rw [hrow, rollLoad]
    simp only [hc, hcond, if_true]
  case loads =>
    intro u l es
    obtain ⟨hvalid, hnodup, hentries⟩ := loadedTo_foldl u c 4096
    have hu : reported s u := reported_readsEnd rd s
    have hes : rollRoutes c u = es := List.map_congr_left fun b _ => routeEntry_of_gates hu.gates b
    clear_value es
    refine ⟨hvalid, hnodup, hentries, _, hrow rd, rollReported_rollLoad hc ho hn rd, ?_⟩
    obtain ⟨h1, h2, h3, h4, h5, h6, h7⟩ := foldl_rollFailed_rollRead (rollGroups c u) (routesOf (rollRoutes c u)) hu.roll
      (rollLoad_roll hc ho hn rd)
    exact ⟨h1, h2, h3, h4.trans (congrArg routesOf hes), h5, h6, h7⟩

end Sys2Proof.Machine
end


/-! ### Operations and cells -/

section
namespace Sys2Proof.Machine
open Sys2Proof
variable {s : State} {nm : OpName}

section
variable {α : Type} {p : α → Bool} {f : α → α}

/-- What replacing the first hit does to the first hit, for a replacement that still hits. -/
theorem find?_replaceFirst_same (hf : ∀ x, p x = true → p (f x) = true) (l : List α) :
    (replaceFirst p f l).find? p = (l.find? p).map f := by
  induction l with
  | nil => rfl
  | cons x l ih =>
    by_cases h : p x = true
    · simp only [replaceFirst, h, if_true, List.find?_cons_of_pos (hf x h), List.find?_cons_of_pos h, Option.map_some]
    · simp only [replaceFirst, h, Bool.false_eq_true, if_false, List.find?_cons_of_neg h, ih]

/-- A search whose hits no replacement gains or loses. -/
theorem find?_replaceFirst_other {q : α → Bool} (hf : ∀ x, p x = true → q x = false ∧ q (f x) = false) (l : List α) :
    (replaceFirst p f l).find? q = l.find? q := by
  induction l with
  | nil => rfl
  | cons x l ih =>
    by_cases h : p x = true
    · obtain ⟨h1, h2⟩ := hf x h
      simp only [replaceFirst, h, if_true, List.find?_cons, h1, h2]
    · simp only [replaceFirst, h, Bool.false_eq_true, if_false, List.find?_cons, ih]

theorem replaceFirst_congr {g : α → α} (h : ∀ x, f x = g x) (l : List α) : replaceFirst p f l = replaceFirst p g l := by
  rw [funext h]

end

theorem findOp_modOp {f : Op → Op} (hf : ∀ o, (f o).name = o.name) (nm : OpName) (s : State) :
    findOp (modOp nm f s) nm = (findOp s nm).map f :=
  find?_replaceFirst_same (p := fun (o : Op) => o.name == nm) (fun o h => by simpa only [hf o] using h) s.ops

theorem findOp_modOp_of_ne {f : Op → Op} (hf : ∀ o, (f o).name = o.name) {nm' : OpName} (h : nm' ≠ nm) (s : State) :
    findOp (modOp nm f s) nm' = findOp s nm' := by
  refine find?_replaceFirst_other (p := fun (o : Op) => o.name == nm) (q := fun o => o.name == nm') (fun o ho => ?_) s.ops
  have hne : ¬ o.name = nm' := fun he => h (he.symm.trans (by simpa using ho))
  exact ⟨by simpa using hne, by simpa [hf o] using hne⟩

theorem findOp_of_ops {t : State} (h : t.ops = s.ops) (nm : OpName) : findOp t nm = findOp s nm := by rw [findOp, h]; rfl

theorem findOp_modCell (nm : OpName) (j : Nat) (f : Cell → Cell) (s : State) : findOp (modCell nm j f s) nm =
    (findOp s nm).map (fun o => { o with cells := replaceFirst (fun c => c.idx == j) f o.cells }) :=
  findOp_modOp (f := fun o => { o with cells := replaceFirst (fun c => c.idx == j) f o.cells }) (fun _ => rfl) nm s

/-- What the first with a property is, when none before it has it. -/
theorem takeFirst_append {α : Type} {p : α → Bool} {a b : List α} {i : α} (ha : ∀ x ∈ a, p x = false) (hi : p i = true) :
    takeFirst p (a ++ i :: b) = some (i, a ++ b) := by
  induction a with
  | nil => simp [takeFirst, hi]
  | cons x a ih =>
    simp [takeFirst, ha x (by simp), ih fun y hy => ha y (by simp [hy])]

theorem takeFirst_of_none {α : Type} {p : α → Bool} {a : List α} (ha : ∀ x ∈ a, p x = false) : takeFirst p a = none := by
  induction a with
  | nil => rfl
  | cons x a ih => simp [takeFirst, ha x (by simp), ih fun y hy => ha y (by simp [hy])]

end Sys2Proof.Machine
end

section
namespace Sys2Proof.Machine
open Sys2Proof
variable {s : State} {g vc : Nat}

/-! ### CHUNK_SEND -/

theorem chunkSend_of_none (h : ∀ x ∈ (getGate s g).sendQ, x.vc = vc → maySend s g x = false) (err : Option GateErr) :
    chunkSend g vc err s = s := by
  rw [chunkSend, takeFirst_of_none fun x hx => ?_]
  by_cases hv : x.vc = vc
  · simp [hv, h x hx hv]
  · simp [hv]

theorem chunkSend_of_first {a b : List SendItem} {i : SendItem} (hq : (getGate s g).sendQ = a ++ i :: b)
    (ha : ∀ x ∈ a, x.vc = vc → maySend s g x = false) (hv : i.vc = vc) (hi : maySend s g i = true) (err : Option GateErr) :
    chunkSend g vc err s = startItem g err i (a ++ b) s := by
  rw [chunkSend, hq, takeFirst_append (fun x hx => ?_) (by simp [hv, hi])]
  by_cases hx' : x.vc = vc
  · simp [hx', ha x hx hx']
  · simp [hx']

/-- What a gate retains of a chunk that it sends for the first time. -/
def firstCopy (i : SendItem) (b : Bytes) (latched stomped : Bool) : Retained :=
  { bytes := b, mask := i.mask, excluded := i.excluded, vc := i.vc, green := i.green, cell := i.cell, firstHop := i.firstHop
    unsent := false, acked := [], reabsorbed := [], heldNotices := [], latched := latched, gone := i.green, stomped := stomped }

theorem retainSent_of_first {i : SendItem} (hi : i.resend = false) (b : Bytes) (latched stomped : Bool) (k : Gate) :
    retainSent i b latched stomped k = { k with
      retained := if holdsSlot i k then replaceFirst (sameCopy i) (fun _ => firstCopy i b latched stomped) k.retained
        else k.retained ++ [firstCopy i b latched stomped] } := by
  simp only [retainSent, hi, Bool.false_eq_true, if_false]
  split <;> rfl

theorem reabsorbClosed_of_open {b : Bytes} (h : ∀ o, findOp s (hdrName (hdrOf b)) = some o → o.closed = []) :
    reabsorbClosed g b s = s := by
  have hnil : ((findOp s (hdrName (hdrOf b))).map (·.closed)).getD [] = [] := by
    cases ho : findOp s (hdrName (hdrOf b)) with
    | none => rfl
    | some o => exact h o ho
  rw [reabsorbClosed, hnil]
  rfl

/-- The gate that a chunk leaves for the first time. -/
def leftGate (i : SendItem) (rest : List SendItem) (w wire : Bytes) (latched bad : Bool) (k : Gate) : Gate :=
  let slots := if holdsSlot i k then replaceFirst (sameCopy i) (fun _ => firstCopy i w latched bad) k.retained
    else k.retained ++ [firstCopy i w latched bad]
  if i.green then { k with sendQ := rest, retained := slots, greenIn := k.greenIn ++ [⟨wire, 0⟩] }
  else { k with sendQ := rest, retained := slots, chunkQ := tmod [] k.chunkQ i.vc (· ++ chunkFlits wire i.mask i.excluded) }

/-- The cell whose output it is has been sent. -/
def cellSent (i : SendItem) (nm : OpName) (s : State) : State :=
  match i.cell with
  | some j => modCell nm j (fun c => { c with phase := .sent }) s
  | none => s

theorem closed_of_cellSent {i : SendItem} {nm : OpName} (h : ∀ o, findOp s nm = some o → o.closed = []) :
    ∀ o, findOp (cellSent i nm s) nm = some o → o.closed = [] := by
  intro o ho
  unfold cellSent at ho
  split at ho
  · rw [findOp_modCell] at ho
    obtain ⟨o', ho', rfl⟩ := Option.map_eq_some_iff.1 ho
    exact h o' ho'
  · exact h o ho

theorem gate_of_item (hw : tableWf {} s.gates = true) {i : SendItem} (hi : i.resend = false) (rest : List SendItem)
    (w wire : Bytes) (latched bad : Bool) :
    (if i.green then modGate g (fun k => { k with greenIn := k.greenIn ++ [⟨wire, 0⟩] })
        (modGate g (fun k => retainSent i w latched bad { k with sendQ := rest }) s)
      else pushFlits g i.vc (chunkFlits wire i.mask i.excluded)
        (modGate g (fun k => retainSent i w latched bad { k with sendQ := rest }) s)) =
      setGate s g (leftGate i rest w wire latched bad (getGate s g)) := by
  have htwo (f h : Gate → Gate) : modGate g f (modGate g h s) = setGate s g (f (h (getGate s g))) := modGate_setGate g f _ hw
  rw [pushFlits, htwo, htwo, leftGate]
  cases hg : i.green <;> simp only [retainSent_of_first hi, if_true, Bool.false_eq_true, if_false] <;> rfl

/-- What an uncorrectable word of the granary does to the cell once its chunk has left. -/
def startEnds (err : Option GateErr) (i : SendItem) (nm : OpName) (u : State) : State :=
  match err, i.cell with
  | some .granary, some j => rebuildCell nm j Config.granaryReason u
  | _, _ => u

/-- A chunk that starts: what its gate, its cell and its closed ranges come to. -/
theorem startItem_eq (g : Nat) (err : Option GateErr) (i : SendItem) (rest : List SendItem) (s : State) : startItem g err i rest s =
    let w := chunkSetFlag i.bytes cfLatched (unbolted s i)
    let bad := decide (err = some .retention ∨ err = some .granary) || (i.resend && sentStomped (getGate s g) i.green w)
    let wire := if bad then chunkStomp w else w
    let t := cellSent i (hdrName (hdrOf w)) (if i.green then modGate g (fun k => { k with greenIn := k.greenIn ++ [⟨wire, 0⟩] })
        (modGate g (fun k => retainSent i w (unbolted s i) bad { k with sendQ := rest }) s)
      else pushFlits g i.vc (chunkFlits wire i.mask i.excluded)
        (modGate g (fun k => retainSent i w (unbolted s i) bad { k with sendQ := rest }) s))
    startEnds err i (hdrName (hdrOf w)) (sendFaults g (hdrOf w) err
      (if i.firstHop && !i.resend && decide (i.vc ≠ 7) then reabsorbClosed g w t else t)) := rfl

theorem startItem_of_first (hw : tableWf {} s.gates = true) {i : SendItem} (hi : i.resend = false) (rest : List SendItem)
    (err : Option GateErr) {w : Bytes} (hb : chunkSetFlag i.bytes cfLatched (unbolted s i) = w)
    (ho : i.firstHop = true → i.vc ≠ 7 → ∀ o, findOp s (hdrName (hdrOf w)) = some o → o.closed = []) {bad : Bool}
    (hbad : decide (err = some .retention ∨ err = some .granary) = bad) :
    startItem g err i rest s = startEnds err i (hdrName (hdrOf w)) (sendFaults g (hdrOf w) err (cellSent i (hdrName (hdrOf w))
      (setGate s g (leftGate i rest w (if bad then chunkStomp w else w) (unbolted s i) bad (getGate s g))))) := by
  have hopen {t : State} (ht : t.ops = s.ops) : (if i.firstHop && true && decide (i.vc ≠ 7)
      then reabsorbClosed g w (cellSent i (hdrName (hdrOf w)) t) else cellSent i (hdrName (hdrOf w)) t) =
        cellSent i (hdrName (hdrOf w)) t := by
    split
    · next h =>
      simp only [Bool.and_true, Bool.and_eq_true, decide_eq_true_iff] at h
      obtain ⟨hf, hv⟩ := h
      exact reabsorbClosed_of_open (closed_of_cellSent fun o h => ho hf hv o ((findOp_of_ops ht _).symm.trans h))
    · rfl
  have ht : (setGate s g (leftGate i rest w (if bad then chunkStomp w else w) (unbolted s i) bad (getGate s g))).ops = s.ops := rfl
  rw [startItem_eq]
  simp only [hb, hbad, hi, Bool.false_and, Bool.or_false, Bool.not_false]
  rw [gate_of_item hw hi, hopen ht]

/-- Settles O49: the first item that may leave, and what its start leaves of the gate and its cell. -/
theorem chunksLeaveInQueueOrder : Obligations.ChunksLeaveInQueueOrder := by
  unfold Obligations.ChunksLeaveInQueueOrder
  intro s g vc hs hg hu k
  obtain ⟨-, hw, -⟩ := unitsWf_iff.1 hu
  have hrow (err : Option GateErr) : exec (.chunkSend g vc err) s = .next (chunkSend g vc err s) := actOn_of_live hs hg _
  refine ⟨fun h err => (hrow err).trans (congrArg _ (chunkSend_of_none h err)), fun a i b hq ha hv hi => ?first,
    fun h x => ⟨rfl, rfl, rfl⟩⟩
  case first =>
    have hstart (err : Option GateErr) : exec (.chunkSend g vc err) s = .next (startItem g err i (a ++ b) s) :=
      (hrow err).trans (congrArg _ (chunkSend_of_first hq ha hv hi err))
    refine ⟨hstart, fun hr ho err => ?_⟩
    subst hv
    rw [hstart, startItem_of_first hw hr (a ++ b) err rfl ho rfl]
    rfl

end Sys2Proof.Machine
end


section
namespace Sys2Proof.Machine
open Sys2Proof
variable {s : State} {g vc : Nat}

/-! ### CHUNK_RECEIVE and MASK_FRAME_RECEIVE -/

theorem linkChunk_of_waits (h : (getGate s g).maskWait.any (fun w => w.1 == vc) = true ∨
    nextFrame (tget [] (getGate s g).rxBuf vc) = none) (err : Option GateErr) : linkChunk g vc err s = s := by
  rw [linkChunk]
  rcases h with h | h
  · exact if_pos h
  · simp only [h, ite_self]

theorem linkChunk_of_frame (hm : (getGate s g).maskWait.any (fun w => w.1 == vc) = false) {n : Nat} {fs : List Bytes}
    (hf : nextFrame (tget [] (getGate s g).rxBuf vc) = some (n, fs)) (err : Option GateErr) : linkChunk g vc err s =
      let b := fit 0 4144 (fs.flatMap (fun f => f.drop 1))
      if vc = 6 && bcastWaits s g (hdrOf b) then s
      else if bitOf (hdrOf b).flags cfMask then modGate g (fun k => { k with maskWait := k.maskWait ++ [(vc, b)] })
        (arriveErr (hdrOf b) err (popRx g vc (n + fs.length) s))
      else granaryErr g (hdrOf b) err
        (chunkArrives g vc b [] 0 true (arriveErr (hdrOf b) err (popRx g vc (n + fs.length) s))) := by
  rw [linkChunk]
  simp only [hm, hf, Bool.false_eq_true, if_false]
  rfl

theorem greenChunk_of_none (h : (getGate s g).greenIn = []) (err : Option GateErr) : greenChunk g err s = s := by
  rw [greenChunk, h]

theorem greenChunk_of_first {c : GreenChunk} {rest : List GreenChunk} (h : (getGate s g).greenIn = c :: rest)
    (err : Option GateErr) : greenChunk g err s =
      granaryErr g (hdrOf c.bytes) err (inputArrives g (redVc (hdrOf c.bytes).group) c.bytes [] 0 true
        (arriveErr (hdrOf c.bytes) err (setGate s g { getGate s g with greenIn := rest }))) := by
  rw [greenChunk, h]
  rfl

theorem granaryErr_of_cells {h : Hdr} {gr : Grp} {o : Op} (hg : grpOf s h.group = some gr) (ho : findOp s (hdrName h) = some o) :
    granaryErr g h (some .granary) s = ((cellsOf gr h.base h.count).filter (fun j => (o.cell j).isSome)).foldl
      (fun y j => rebuildCell (hdrName h) j Config.granaryReason y)
      (raise 0x01 4 (uGate g) (chunkInfo h.group h.seq h.index) 0 s) := by
  simp only [granaryErr, hg, ho]

theorem granaryErr_none (g : Nat) (h : Hdr) (s : State) : granaryErr g h none s = s := by simp only [granaryErr]

theorem maskReceive_of_none (h : (getGate s g).maskWait.find? (fun w => w.1 == vc) = none ∨
    tget [] (getGate s g).rxBuf vc = []) : maskReceive g vc s = s := by
  rw [maskReceive]
  rcases h with h | h
  · simp only [h]
  · cases (getGate s g).maskWait.find? (fun w => w.1 == vc) <;> simp only [h]

/-- The frames of a channel on which a chunk waits for its mask. -/
theorem maskReceive_of_frames {v : Nat} {b f : Bytes} {fs : List Bytes}
    (hw : (getGate s g).maskWait.find? (fun w => w.1 == vc) = some (v, b)) (hf : tget [] (getGate s g).rxBuf vc = f :: fs) :
    maskReceive g vc s =
      let ms := (f :: fs).takeWhile (fun x => decide (numAt x 0 1 = 8))
      if ms = [] then maskDone g vc 0 b none s
      else if maskLen f ≤ ms.length then maskDone g vc (maskLen f) b (some ((ms.take (maskLen f)).flatMap (·.drop 1))) s
      else if ms.length < (f :: fs).length ∨ 65 < maskLen f then maskDone g vc ms.length b none s
      else s := by
  rw [maskReceive]
  simp only [hw, hf, List.isEmpty_iff]

theorem maskDone_of_frame {n : Nat} {b frame : Bytes} {es : List MaskEnt} {x : Nat} (h : maskParse frame = some (es, x)) :
    maskDone g vc n b (some frame) s = chunkArrives g vc b es x true (popRx g vc n
      (setGate s g { getGate s g with maskWait := (getGate s g).maskWait.filter (fun w => w.1 != vc) })) := by
  simp only [maskDone, Option.bind_some, h]
  rfl

theorem maskDone_of_bad_frame {n : Nat} {b frame : Bytes} (h : maskParse frame = none) :
    maskDone g vc n b (some frame) s = chunkArrives g vc b [] 0 false (popRx g vc n
      (setGate s g { getGate s g with maskWait := (getGate s g).maskWait.filter (fun w => w.1 != vc) })) := by
  simp only [maskDone, Option.bind_some, h]
  rfl

/-! #### An input of a reduction -/

theorem inputArrives_of_no_group {b : Bytes} (h : grpOf s (hdrOf b).group = none) (v : Nat) (m : List MaskEnt) (x : Nat)
    (ok : Bool) : inputArrives g v b m x ok s = gateFault 0x0C 4 g (hdrOf b) (hdrOf b).member 0 s := by
  simp only [inputArrives, h]

/-- A chunk of an open operation from a sender that no cell of it excludes. -/
theorem inputArrives_of_sender {b : Bytes} {gr : Grp} {o : Op} {j pos : Nat} {js : List Nat}
    (hg : grpOf s (hdrOf b).group = some gr) (ho : findOp s (hdrName (hdrOf b)) = some o) (hr : o.registered = true)
    (hop : opOpen s o = true) (hjs : (cellsOf gr (hdrOf b).base (hdrOf b).count).filter (fun j => (o.cell j).isSome) = j :: js)
    (hp : sibPos s gr o.n j (hdrOf b).member = some pos) (hx : ∀ i ∈ j :: js, ∀ c, o.cell i = some c → pos ∉ c.excl)
    (v : Nat) (m : List MaskEnt) (x : Nat) (ok : Bool) : inputArrives g v b m x ok s =
      let h := hdrOf b
      let nm := hdrName h
      if (h.member, h.base, h.count) ∈ o.stale then
        modOp nm (fun o => { o with stale := o.stale.erase (h.member, h.base, h.count) }) s
      else if sealGood b = false ∨ ok = false then inputSealFailure nm g pos (j :: js) b s
      else if malformed v b = true then inputInconsistent nm g pos (j :: js) h 6 s
      else if kindAccepted gr o.n j pos h.kind = false ∨ consistent b = false then inputInconsistent nm g pos (j :: js) h 5 s
      else if massGood b = false then inputMassFailure nm g pos (j :: js) b s
      else holdInput nm g pos (j :: js) b m x (if gr.cls = 2 then s else
        plausible (uGate (adderGate gr o.n j)) h ((decodeVals b).map (fun y => y.2)) s) := by
  have hlate : (j :: js).filter (fun i => (o.cell i).any (fun c => c.excl.contains pos)) = [] := by
    refine List.filter_eq_nil_iff.2 fun i hi => ?_
    cases hc : o.cell i with
    | none => simp
    | some c => simpa using hx i hi c hc
  have hfind : (findOp s (hdrName (hdrOf b))).filter (fun o => o.registered && opOpen s o) = some o := by
    simp [ho, hr, hop]
  have hlen : ¬ ([] : List Nat).length = (j :: js).length := by simp
  simp only [inputArrives, hg, hfind, hjs, hp, hlate, List.foldl_nil, if_neg hlen, List.contains_iff_mem, Bool.or_eq_true,
    Bool.not_eq_true']

/-- Settles O50: each row by the frame at its head, each fault of an input in its order. -/
theorem chunksArriveWhole : Obligations.ChunksArriveWhole := by
  unfold Obligations.ChunksArriveWhole
  intro s g vc hs hg hu k
  have hlink (h : 2 ≤ vc) (err : Option GateErr) : exec (.chunkReceive g (.link vc) err) s = .next (linkChunk g vc err s) :=
    actOn_of_eq hs hg (if_pos h)
  have hgreen (err : Option GateErr) : exec (.chunkReceive g .green err) s = .next (greenChunk g err s) := actOn_of_live hs hg _
  have hmask : exec (.maskFrameReceive g vc) s = .next (maskReceive g vc s) := actOn_of_live hs hg _
  have hlow (h : ¬ 2 ≤ vc) (err : Option GateErr) : exec (.chunkReceive g (.link vc) err) s = .next s :=
    actOn_of_eq hs hg (if_neg h)
  refine ⟨fun h => hlow (by omega), fun h err => ?waits, fun h2 hm n fs hf => ?frame, fun h err => ?noGreen, fun c rest err h => ?green,
    fun h x => ⟨granaryErr_none g h x, rfl, rfl, rfl, fun gr o => granaryErr_of_cells⟩,
    fun h => hmask.trans (congrArg _ (maskReceive_of_none h)), fun v b f fs hw hf => ?masks,
    fun v b m x ok h => inputArrives_of_no_group h v m x ok,
    fun v b m x ok gr o j js pos hgr ho hr hop hjs hp hx => ?input⟩
  case waits =>
    by_cases h2 : 2 ≤ vc
    · rw [hlink h2, linkChunk_of_waits h]
    · exact hlow h2 err
  case noGreen => rw [hgreen, greenChunk_of_none h]
  case green => rw [hgreen, greenChunk_of_first h]
  case frame =>
    intro b k' h err
    have hrow := (hlink h2 err).trans (congrArg _ (linkChunk_of_frame hm hf err))
    refine ⟨fun hv hb => hrow.trans (congrArg _ (if_pos (Bool.and_eq_true_iff.2 ⟨decide_eq_true hv, hb⟩))), fun hn => ?_⟩
    have hgo : ¬ (decide (vc = 6) && bcastWaits s g h) = true := by
      rcases hn with hn | hn <;> simp [hn]
    refine ⟨fun hfl => hrow.trans (congrArg _ ((if_neg hgo).trans (if_neg (Bool.eq_false_iff.1 hfl)))),
      fun hfl => hrow.trans (congrArg _ ((if_neg hgo).trans (if_pos hfl)))⟩
  case masks =>
    intro ms frame
    have hrow := hmask.trans (congrArg _ (maskReceive_of_frames hw hf))
    refine ⟨fun h0 => hrow.trans (congrArg _ (if_pos h0)), fun h0 hl es x hp => ?_, fun h0 hl hp => ?_, fun h0 hl hn => ?_,
      fun h0 hl hn h65 => ?_⟩
    · exact hrow.trans (congrArg _ ((if_neg h0).trans ((if_pos hl).trans (maskDone_of_frame hp))))
    · exact hrow.trans (congrArg _ ((if_neg h0).trans ((if_pos hl).trans (maskDone_of_bad_frame hp))))
    · exact hrow.trans (congrArg _ ((if_neg h0).trans ((if_neg (Nat.not_le.2 hl)).trans (if_pos hn))))
    · refine hrow.trans (congrArg _ ((if_neg h0).trans ((if_neg (Nat.not_le.2 hl)).trans (if_neg ?_))))
      exact not_or.2 ⟨fun hlt => Nat.ne_of_lt hlt hn, by omega⟩
  case input =>
    have harr := inputArrives_of_sender (g := g) hgr ho hr hop hjs hp hx v m x ok
    exact ⟨fun hst => harr.trans (if_pos hst), fun hst => harr.trans (if_neg hst)⟩

end Sys2Proof.Machine
end


section
namespace Sys2Proof.Machine
open Sys2Proof
variable {s t : State}

/-! ### What a bolt leaves alone -/

/-- From `s` to `t` no fault is counted, no core, operation or bell changes, and the step only in its mode and in the
tallies of its operations. -/
structure boltQuiet (s t : State) : Prop where
  faultCnt : t.faultCnt = s.faultCnt
  cores : t.cores = s.cores
  bell : t.bell = s.bell
  ops : t.ops = s.ops
  step : stepHeld s t

theorem boltQuiet_refl (s : State) : boltQuiet s s := ⟨rfl, rfl, rfl, rfl, rfl⟩

theorem boltQuiet_trans {a b d : State} (h1 : boltQuiet a b) (h2 : boltQuiet b d) : boltQuiet a d :=
  ⟨h2.faultCnt.trans h1.faultCnt, h2.cores.trans h1.cores, h2.bell.trans h1.bell, h2.ops.trans h1.ops,
    stepHeld_trans h1.step h2.step⟩

theorem boltQuiet_foldl {α : Type} {f : State → α → State} (hf : ∀ s x, boltQuiet s (f s x)) (l : List α) (s : State) :
    boltQuiet s (l.foldl f s) := by
  induction l generalizing s with
  | nil => exact boltQuiet_refl s
  | cons x l ih => exact boltQuiet_trans (hf s x) (ih _)

theorem boltQuiet_modGate (g : Nat) (f : Gate → Gate) (s : State) : boltQuiet s (modGate g f s) :=
  ⟨rfl, rfl, rfl, rfl, stepHeld_modGate ..⟩

theorem boltQuiet_setModeAt (step bit : Nat) (s : State) : boltQuiet s (setModeAt step bit s) := by
  have hmode : (setMode bit s).faultCnt = s.faultCnt ∧ (setMode bit s).cores = s.cores ∧ (setMode bit s).bell = s.bell ∧
      (setMode bit s).ops = s.ops := by
    unfold setMode
    split <;> exact ⟨rfl, rfl, rfl, rfl⟩
  obtain ⟨h1, h2, h3, h4⟩ := hmode
  by_cases h : 2 ^ 31 ≤ step
  · rw [setModeAt, if_pos h]
    exact boltQuiet_refl s
  · have hs := stepHeld_setModeAt step bit s
    rw [setModeAt, if_neg h] at *
    exact ⟨h1, h2, h3, h4, hs⟩

theorem boltQuiet_setOpMode (nm : OpName) (bit : Nat) (s : State) : boltQuiet s (setOpMode nm bit s) :=
  boltQuiet_trans (boltQuiet_setModeAt nm.step bit s) ⟨rfl, rfl, rfl, rfl, rfl⟩

theorem boltQuiet_ite {a b : State} {p : Prop} [Decidable p] (ha : boltQuiet s a) (hb : boltQuiet s b) :
    boltQuiet s (if p then a else b) := by
  split <;> assumption

theorem boltQuiet_boltModes (b : Bytes) (mask : List MaskEnt) (s : State) : boltQuiet s (boltModes b mask s) := by
  unfold boltModes
  extract_lets nm s1 s2
  have h1 : boltQuiet s s1 := boltQuiet_ite (boltQuiet_setOpMode ..) (boltQuiet_refl s)
  have h2 : boltQuiet s s2 := boltQuiet_ite h1 (boltQuiet_trans h1 (boltQuiet_setOpMode ..))
  exact boltQuiet_ite (boltQuiet_trans h2 (boltQuiet_setOpMode ..)) h2

theorem boltQuiet_noticeAfterChunk (g : Nat) (h : Hdr) (n : Bytes) (s : State) : boltQuiet s (noticeAfterChunk g h n s) := by
  unfold noticeAfterChunk
  exact boltQuiet_ite (boltQuiet_modGate ..) (boltQuiet_modGate ..)

theorem boltQuiet_boltSent (g : Nat) (h : Hdr) (s : State) : boltQuiet s (boltSent g h s) := by
  unfold boltSent
  split
  · exact boltQuiet_refl s
  · exact boltQuiet_ite (boltQuiet_modGate ..) (boltQuiet_noticeAfterChunk ..)

theorem boltQuiet_cackInput (g : Grp) (n j : Nat) (s : State) (x : InChunk) : boltQuiet s (cackInput g n j s x) := by
  unfold cackInput
  exact boltQuiet_ite (boltQuiet_modGate ..) (boltQuiet_modGate ..)

theorem auditPush_bell (b : Nat) (r : Bytes) (s : State) : (auditPush b r s).bell = s.bell := by
  have hput (e : Bytes) : (ringPut .audit e s).bell = s.bell := by
    simp only [ringPut, reduceCtorEq, if_false, setRing, postAnnounce]
    rw [postWriteAs_leaves]
  have hpush : (ringPush .audit r s).bell = s.bell := by
    unfold ringPush
    simp only
    split
    · exact hput r
    · split <;> rfl
  unfold auditPush
  split
  · exact hpush
  · rfl

theorem boltQuiet_auditPush (b : Nat) (r : Bytes) (s : State) : boltQuiet s (auditPush b r s) := by
  have h := ringed_auditPush b r s
  refine ⟨?_, ?_, auditPush_bell b r s, ?_, stepHeld_of_eq ?_⟩ <;> rw [h]

theorem boltQuiet_tensorDigest (nm : OpName) (s : State) : boltQuiet s (tensorDigest nm s) := by
  unfold tensorDigest
  split
  · extract_lets rooted t0 excluded opw pre rec1 ts ts'
    refine boltQuiet_ite (boltQuiet_refl s) ?_
    exact boltQuiet_trans (b := { s with step := { s.step with opTallies := ts' } }) ⟨rfl, rfl, rfl, rfl, rfl⟩
      (boltQuiet_auditPush ..)
  · exact boltQuiet_refl s

/-! ### The tallies of the step -/

theorem tC_of_stepHeld (h : stepHeld s t) : t.step.tC = s.step.tC ∧ t.step.tK = s.step.tK := by
  rw [h]
  exact ⟨rfl, rfl⟩

/-- Only the step changes when a chunk enters its tallies. -/
theorem tallyChunk_leaves (b : Bytes) (mask : List MaskEnt) (excluded : Nat) (s : State) :
    tallyChunk b mask excluded s = { s with step := (tallyChunk b mask excluded s).step } := by
  simp only [tallyChunk]
  split <;> rfl

theorem tallyChunk_of_eval {b : Bytes} (h : 2 ^ 31 ≤ (hdrOf b).step) (mask : List MaskEnt) (excluded : Nat) (s : State) :
    tallyChunk b mask excluded s = s := if_pos h

theorem tallyChunk_tallies {b : Bytes} (h : (hdrOf b).step < 2 ^ 31) (mask : List MaskEnt) (excluded : Nat) (s : State) :
    (tallyChunk b mask excluded s).step.tC = s.step.tC ^^^ tallyC b ∧
    (tallyChunk b mask excluded s).step.tK = s.step.tK ^^^ tallyK b mask excluded := by
  simp only [tallyChunk, if_neg (Nat.not_le.2 h), and_self]

/-! ### The broadcast copies of a bolt -/

theorem stepHeld_postAnnounce (o : Owner) (a : Nat) (bs : Bytes) (s : State) : stepHeld s (postAnnounce o a bs s) := by
  refine stepHeld_of_eq ?_
  rw [postAnnounce, postWriteAs_leaves]

theorem stepHeld_sketchWrite (b : Bytes) (s : State) : stepHeld s (sketchWrite b s) := by
  simp only [sketchWrite]
  split
  · next t _ =>
    refine stepHeld_ite ?_ (stepHeld_of_eq rfl)
    have h := stepHeld_postWrite .gate (sketchSlot t (decide ((hdrOf b).step % 2 = 1)) + 64 + 2 * (hdrOf b).base)
      ((payloadOf b).take (2 * (hdrOf b).count)) (chunkFlag b cfPoisoned) s
    exact stepHeld_ite (stepHeld_trans h (stepHeld_postAnnounce ..)) h
  · exact stepHeld_of_eq rfl

theorem stepHeld_inboxDeliver (b : Bytes) (mask : List MaskEnt) (excluded : Nat) (s : State) :
    stepHeld s (inboxDeliver b mask excluded s) := by
  refine stepHeld_foldl (fun u c => ?_) _ s
  unfold inboxWrite
  exact stepHeld_ite (stepHeld_of_eq rfl) (stepHeld_of_eq rfl)

theorem stepHeld_bcastDeliver (g : Grp) (b : Bytes) (mask : List MaskEnt) (excluded : Nat) (s : State) :
    stepHeld s (bcastDeliver g b mask excluded s) := by
  unfold bcastDeliver
  have h := stepHeld_sketchWrite b s
  refine stepHeld_ite ?_ (stepHeld_trans h (stepHeld_inboxDeliver ..))
  split
  · exact stepHeld_ite h (stepHeld_trans h (stepHeld_postWrite ..))
  · exact stepHeld_trans h (stepHeld_raise ..)

theorem stepHeld_allReduceHere (g : Grp) (nm : OpName) (b : Bytes) (mask : List MaskEnt) (excluded : Nat) (s : State) :
    stepHeld s (allReduceHere g nm b mask excluded s) :=
  stepHeld_trans (stepHeld_ringBell ..) (stepHeld_trans (stepHeld_modOp ..) (stepHeld_bcastDeliver ..))

theorem stepHeld_forge (f : ForgeB) (s : State) : stepHeld s { s with forge := f } := rfl

theorem stepHeld_holdStep (step : Nat) (kappa : F32) (s : State) : stepHeld s (holdStep step kappa s) := rfl

theorem stepHeld_forgeFault (c w u : Nat) (h : Hdr) (s : State) : stepHeld s (forgeFault c w u h s) := by
  have hwell (f : Well → Well) : stepHeld s (modWell w f s) := rfl
  unfold forgeFault
  exact stepHeld_trans (hwell _) (stepHeld_raise ..)

theorem stepHeld_latchPair (step : Nat) (kappa : F32) (s : State) : stepHeld s (latchPair step kappa s) := by
  have h : stepHeld s (raise 0x0E 0 uBlock 0 0 (holdStep step kappa s)) :=
    stepHeld_trans (stepHeld_holdStep step kappa s) (stepHeld_raise _ _ _ _ _ (holdStep step kappa s))
  rw [latchPair]
  split
  · rfl
  · exact h

theorem stepHeld_normResult (b : Bytes) (s : State) : stepHeld s (normResult b s) := by
  unfold normResult
  extract_lets h vs kappa clean below s1 forge s2
  clear_value kappa clean below
  have h1 : stepHeld s s1 := stepHeld_ite (stepHeld_raise ..) (stepHeld_of_eq rfl)
  have h2 : stepHeld s s2 := stepHeld_trans h1 (stepHeld_forge ..)
  exact stepHeld_ite h2 (stepHeld_ite (stepHeld_trans h2 (stepHeld_latchPair ..))
    (stepHeld_trans h2 (stepHeld_trans (stepHeld_holdStep ..) (stepHeld_forgeFault ..))))

end Sys2Proof.Machine
end

section
namespace Sys2Proof.Machine
open Sys2Proof
variable {s : State} {nm : OpName} {o : Op} {g : Grp} {c : Cell} {j : Nat}

/-! ### CHUNK_BOLT -/

/-- What the bolt of a cell does once nothing holds it back. -/
def cellBolts (g : Grp) (nm : OpName) (o : Op) (j : Nat) (c : Cell) (s : State) : State :=
  let h := hdrOf c.out
  let a := boltModes c.out c.outMask (tallyChunk c.out c.outMask c.outExcluded
    (modCell nm j (fun c => { c with bolted := true }) s))
  let d := match cellParent g o.n j with
    | some p => boltSent p.1 h a
    | none => a
  let e := (o.arrived.filter (fun x => x.added.contains j)).foldl (cackInput g o.n j) d
  let f := if isRoot g o.n j = true then rootDeliver g nm c (c.outMask.foldl (closeEntry nm g h c.outExcluded) e) else e
  tensorDigest nm (modOp nm (pruneInputs g) f)

section
variable (ho : findOp s nm = some o) (hg : grpOf s nm.group = some g) (hc : o.cell j = some c)
include ho hg hc

theorem boltCell_of_unsettled (h : cellSettled o c = false) : boltCell nm j s = s := by
  simp only [boltCell, ho, hg, hc, h, Bool.not_false, if_true]

theorem boltCell_of_no_quorum (h : cellSettled o c = true) (hr : isRoot g o.n j = true)
    (hq : quorumHolds g.members.length c.outExcluded ((s.charter.map (fun c => c.quorum)).getD 0) = false) :
    boltCell nm j s = failGroup nm 1 (some (cellFail g o.n j c.outExcluded 1)) none s := by
  simp only [boltCell, ho, hg, hc, h, hr, hq, Bool.not_true, Bool.not_false, Bool.and_self, Bool.false_eq_true, if_true, if_false]

theorem boltCell_of_quorum (h : cellSettled o c = true) (hr : isRoot g o.n j = false ∨
    quorumHolds g.members.length c.outExcluded ((s.charter.map (fun c => c.quorum)).getD 0) = true) :
    boltCell nm j s = if shadowPassed s g o c = true then cellBolts g nm o j c s else s := by
  have hno : ¬ (isRoot g o.n j &&
      !quorumHolds g.members.length c.outExcluded ((s.charter.map (fun c => c.quorum)).getD 0)) = true := by
    rcases hr with hr | hr <;> simp [hr]
  simp only [boltCell, ho, hg, hc, h, Bool.not_true, Bool.false_eq_true, if_false, if_neg hno]
  cases hp : shadowPassed s g o c
  · rfl
  · simp only [Bool.not_true, Bool.false_eq_true, if_false, if_true, cellBolts]
    cases cellParent g o.n j <;> rfl

end

theorem boltCell_of_no_op (h : findOp s nm = none) (j : Nat) : boltCell nm j s = s := by
  simp only [boltCell, h]

theorem boltCell_of_no_cell (ho : findOp s nm = some o) (hc : o.cell j = none) : boltCell nm j s = s := by
  rw [boltCell, ho]
  cases grpOf s nm.group <;> simp only [hc]

/-- The parts of the bolt of a cell below the root after its tallies. -/
theorem boltQuiet_cellBolts (hr : isRoot g o.n j = false) : ∃ d, boltQuiet (tallyChunk c.out c.outMask c.outExcluded
    (modCell nm j (fun c => { c with bolted := true }) s)) d ∧ boltQuiet (modOp nm (pruneInputs g) d) (cellBolts g nm o j c s) := by
  simp only [cellBolts, hr, Bool.false_eq_true, if_false]
  refine ⟨_, ?_, boltQuiet_tensorDigest ..⟩
  refine boltQuiet_trans ?_ (boltQuiet_foldl (boltQuiet_cackInput g o.n j) _ _)
  split
  · exact boltQuiet_trans (boltQuiet_boltModes ..) (boltQuiet_boltSent ..)
  · exact boltQuiet_boltModes ..

theorem cell_replaceFirst (o : Op) (j : Nat) {f : Cell → Cell} (hf : ∀ c, (f c).idx = c.idx) :
    ({ o with cells := replaceFirst (fun c => c.idx == j) f o.cells } : Op).cell j = (o.cell j).map f :=
  find?_replaceFirst_same (p := fun (c : Cell) => c.idx == j) (fun c h => by simpa only [hf c] using h) o.cells

/-- What the bolt of a cell below the root leaves. -/
theorem cellBolts_below_root (ho : findOp s nm = some o) (hc : o.cell j = some c) (hr : isRoot g o.n j = false) :
    let t := cellBolts g nm o j c s
    (∃ o', findOp t nm = some o' ∧ (o'.cell j).map (fun c => c.bolted) = some true ∧ o'.failed = o.failed) ∧
    (2 ^ 31 ≤ (hdrOf c.out).step → t.step.tC = s.step.tC ∧ t.step.tK = s.step.tK) ∧
    ((hdrOf c.out).step < 2 ^ 31 → t.step.tC = s.step.tC ^^^ tallyC c.out ∧
      t.step.tK = s.step.tK ^^^ tallyK c.out c.outMask c.outExcluded) ∧
    t.faultCnt = s.faultCnt ∧ t.cores = s.cores ∧ t.bell = s.bell := by
  intro t
  obtain ⟨d, hd, ht⟩ := boltQuiet_cellBolts (s := s) (nm := nm) (c := c) hr
  have htally := tallyChunk_leaves c.out c.outMask c.outExcluded (modCell nm j (fun c => { c with bolted := true }) s)
  have hsame : t.step.tC = d.step.tC ∧ t.step.tK = d.step.tK := tC_of_stepHeld ht.step
  obtain ⟨hC, hK⟩ := tC_of_stepHeld hd.step
  refine ⟨?op, fun h => ?eval, fun h => ?tallied, ?faults, ?cores, ?bell⟩
  case op =>
    have hop : findOp d nm = (findOp s nm).map
        (fun o => { o with cells := replaceFirst (fun c => c.idx == j) (fun c => { c with bolted := true }) o.cells }) := by
      rw [findOp_of_ops hd.ops, htally]
      exact findOp_modCell nm j _ s
    rw [ho] at hop
    refine ⟨_, (findOp_of_ops ht.ops nm).trans ((findOp_modOp (f := pruneInputs g) (fun _ => rfl) nm d).trans
      (congrArg (Option.map (pruneInputs g)) hop)), ?_, rfl⟩
    have hcell := cell_replaceFirst o j (f := fun c => { c with bolted := true }) fun _ => rfl
    rw [hc] at hcell
    exact congrArg (Option.map fun c => c.bolted) hcell
  case eval =>
    rw [hsame.1, hsame.2, hC, hK, tallyChunk_of_eval h]
    exact ⟨rfl, rfl⟩
  case tallied =>
    obtain ⟨h1, h2⟩ := tallyChunk_tallies h c.outMask c.outExcluded (modCell nm j (fun c => { c with bolted := true }) s)
    exact ⟨hsame.1.trans (hC.trans h1), hsame.2.trans (hK.trans h2)⟩
  case faults => exact ht.faultCnt.trans (hd.faultCnt.trans (by rw [htally]; rfl))
  case cores => exact ht.cores.trans (hd.cores.trans (by rw [htally]; rfl))
  case bell => exact ht.bell.trans (hd.bell.trans (by rw [htally]; rfl))

theorem boltBcast_of_none {i : Nat} (ho : findOp s nm = some o)
    (h : o.bc.find? (fun c => decide ((hdrOf c.bytes).index = i) && c.confirmed && !c.bolted) = none) : boltBcast nm i s = s := by
  rw [boltBcast, ho]
  cases grpOf s nm.group <;> simp only [h]

/-- A broadcast copy that bolts: its tallies enter the step, and nothing after that changes them. -/
theorem boltBcast_stepHeld {i : Nat} {b : BcChunk} (ho : findOp s nm = some o) (hg : grpOf s nm.group = some g)
    (h : o.bc.find? (fun c => decide ((hdrOf c.bytes).index = i) && c.confirmed && !c.bolted) = some b) :
    stepHeld (tallyChunk b.bytes b.mask b.excluded (modOp nm (fun o => { o with
      bc := mapWhere (fun x => sameChunk (hdrOf x.bytes) (hdrOf b.bytes)) (fun x => { x with bolted := true, delivered := true }) o.bc })
        s)) (boltBcast nm i s) := by
  simp only [boltBcast, ho, hg, h]
  generalize tallyChunk b.bytes b.mask b.excluded _ = u
  have h1 : stepHeld u (boltModes b.bytes b.mask u) := (boltQuiet_boltModes b.bytes b.mask u).step
  have h2 (l : List (Nat × Nat)) (gate : Nat) (n : Bytes) :
      stepHeld u (sendNotice gate n (l.foldl (fun s k => boltSent k.2 (hdrOf b.bytes) s) (boltModes b.bytes b.mask u))) :=
    stepHeld_trans (stepHeld_trans h1 (stepHeld_foldl (fun s k => (boltQuiet_boltSent k.2 (hdrOf b.bytes) s).step) l _))
      (stepHeld_modGate ..)
  split
  · exact stepHeld_trans (h2 _ _ _) (stepHeld_trans (stepHeld_ringBell ..) (stepHeld_normResult ..))
  · split
    · exact stepHeld_trans (h2 _ _ _) (stepHeld_allReduceHere ..)
    · exact stepHeld_trans (h2 _ _ _) (stepHeld_trans (stepHeld_ringBell ..) (stepHeld_bcastDeliver ..))

theorem boltBcast_tallies {i : Nat} {b : BcChunk} (ho : findOp s nm = some o) (hg : grpOf s nm.group = some g)
    (h : o.bc.find? (fun c => decide ((hdrOf c.bytes).index = i) && c.confirmed && !c.bolted) = some b)
    (hs : (hdrOf b.bytes).step < 2 ^ 31) : (boltBcast nm i s).step.tC = s.step.tC ^^^ tallyC b.bytes ∧
      (boltBcast nm i s).step.tK = s.step.tK ^^^ tallyK b.bytes b.mask b.excluded := by
  obtain ⟨hC, hK⟩ := tC_of_stepHeld (boltBcast_stepHeld ho hg h)
  obtain ⟨h1, h2⟩ := tallyChunk_tallies hs b.mask b.excluded (modOp nm (fun o => { o with
    bc := mapWhere (fun x => sameChunk (hdrOf x.bytes) (hdrOf b.bytes)) (fun x => { x with bolted := true, delivered := true }) o.bc }) s)
  exact ⟨hC.trans h1, hK.trans h2⟩

/-! #### A market chunk -/

section
variable {gate i : Nat} {x : MktChunk} (hx : (getGate s gate).mkt[i]? = some x)
include hx

theorem mktBolt_of_unconfirmed (h : x.confirmed = false ∨ x.sealOk = false) : mktBolt gate i s = s := by
  have hcond : (!x.confirmed || !x.sealOk) = true := by rcases h with h | h <;> simp [h]
  simp only [mktBolt, hx, hcond, if_true]

variable (h1 : x.confirmed = true) (h2 : x.sealOk = true)
include h1 h2

theorem mktBolt_of_forward {out : Nat} (hf : x.forwardTo = some out) :
    mktBolt gate i s = boltSent out (hdrOf x.bytes) (mktBoltMarks gate x s) := by
  simp only [mktBolt, hx, h1, h2, hf, Bool.not_true, Bool.or_self, Bool.false_eq_true, if_false]

variable (hf : x.forwardTo = none)
include hf

theorem mktBolt_of_counts (hk : (hdrOf x.bytes).kind = kCounts) : mktBolt gate i s =
    pushFrame ⟨(hdrOf x.bytes).member, x.fromGate, true, (payloadOf x.bytes).take (8 + 8 * (hdrOf x.bytes).count)⟩
      (mktBoltMarks gate x s) := by
  simp only [mktBolt, hx, h1, h2, hf, hk, Bool.not_true, Bool.or_self, Bool.false_eq_true, if_false, if_true]

theorem mktBolt_of_no_record (hk : (hdrOf x.bytes).kind ≠ kCounts)
    (hr : (getCtx s (mopOf (hdrOf x.bytes).seq).ctx).record = none) : mktBolt gate i s =
      gateFault 0x0C 4 gate (hdrOf x.bytes) (hdrOf x.bytes).member 0 (modGate gate (fun k => { k with mkt := k.mkt.erase x }) s) := by
  simp only [mktBolt, hx, h1, h2, hf, hk, hr, Bool.not_true, Bool.or_self, Bool.false_eq_true, if_false]

theorem mktBolt_of_record (hk : (hdrOf x.bytes).kind ≠ kCounts) {r : CtxRec}
    (hr : (getCtx s (mopOf (hdrOf x.bytes).seq).ctx).record = some r) : mktBolt gate i s =
      if turnOf s (mopOf (hdrOf x.bytes).seq) (hdrOf x.bytes).step = .wait ∨ ((mopOf (hdrOf x.bytes).seq).dir = 0 ∧
          (getCtx s (mopOf (hdrOf x.bytes).seq).ctx).posting = true ∧
          (getCtx s (mopOf (hdrOf x.bytes).seq).ctx).allocated = false) then s
      else tokenBolts r (mopOf (hdrOf x.bytes).seq) x.bytes (mktBoltMarks gate x s) := by
  simp only [mktBolt, hx, h1, h2, hf, hk, hr, Bool.not_true, Bool.or_self, Bool.false_eq_true, if_false, Bool.or_eq_true,
    Bool.and_eq_true, decide_eq_true_iff, Bool.not_eq_true', and_assoc]

end

/-- Settles O51: the bolt of a cell, of a broadcast copy and of a market chunk, each by its conditions. -/
theorem chunksBoltOnce : Obligations.ChunksBoltOnce := by
  unfold Obligations.ChunksBoltOnce
  intro s hs
  have hcell (nm : OpName) (j : Nat) : exec (.chunkBolt (.cell nm j)) s = .next (boltCell nm j s) := act_of_live hs _
  have hbcast (nm : OpName) (i : Nat) : exec (.chunkBolt (.bcast nm i)) s = .next (boltBcast nm i s) := act_of_live hs _
  have hmkt (g i : Nat) (hg : g < 96) : exec (.chunkBolt (.market g i)) s = .next (mktBolt g i s) := actOn_of_live hs hg _
  refine ⟨fun nm j h => (hcell nm j).trans (congrArg _ (boltCell_of_no_op h j)), fun nm j o g c ho hg hc => ?cell,
    fun nm j o ho hc => (hcell nm j).trans (congrArg _ (boltCell_of_no_cell ho hc)),
    fun nm i o ho h => (hbcast nm i).trans (congrArg _ (boltBcast_of_none ho h)),
    fun nm i o g c ho hg h => ⟨_, hbcast nm i, boltBcast_tallies ho hg h⟩,
    fun g i hg h => (hmkt g i hg).trans (congrArg _ ?noMarket), fun g i c hg hx => ?market⟩
  case noMarket => rw [mktBolt, h]
  case cell =>
    intro root quorum
    have hq : quorumHolds g.members.length c.outExcluded ((s.charter.map (fun c => c.quorum)).getD 0) = true ↔ quorum :=
      decide_eq_true_iff
    have hpassed (h : cellSettled o c = true) (hr : root = false ∨ quorum) (hp : shadowPassed s g o c = true) :
        exec (.chunkBolt (.cell nm j)) s = .next (cellBolts g nm o j c s) := by
      rw [hcell, boltCell_of_quorum ho hg hc h (hr.imp id hq.2), if_pos hp]
    refine ⟨fun h => ?unsettled, fun h hr hn => ?noQuorum, fun h hr hp => ?unshadowed, hpassed,
      fun h hp hr => ⟨_, hpassed h (.inl hr) hp, cellBolts_below_root ho hc hr⟩⟩
    case unsettled => rw [hcell, boltCell_of_unsettled ho hg hc h]
    case noQuorum => rw [hcell, boltCell_of_no_quorum ho hg hc h hr (Bool.eq_false_iff.2 (mt hq.1 hn))]
    case unshadowed => rw [hcell, boltCell_of_quorum ho hg hc h (hr.imp id hq.2), if_neg (by simp [hp])]
  case market =>
    have hrow := hmkt g i hg
    refine ⟨fun h => ?unconfirmed, fun h1 h2 o hf => ?forward, fun h1 h2 hf => ⟨fun hk => ?counts, fun hk hr => ?noRecord,
      fun r hk hr => ⟨fun hw => ?waits, fun hw => ?token⟩⟩⟩
    case unconfirmed => rw [hrow, mktBolt_of_unconfirmed hx h]
    case forward => rw [hrow, mktBolt_of_forward hx h1 h2 hf]
    case counts => rw [hrow, mktBolt_of_counts hx h1 h2 hf hk]
    case noRecord => rw [hrow, mktBolt_of_no_record hx h1 h2 hf hk hr]
    case waits => rw [hrow, mktBolt_of_record hx h1 h2 hf hk hr, if_pos hw]
    case token => rw [hrow, mktBolt_of_record hx h1 h2 hf hk hr, if_neg hw]

end Sys2Proof.Machine
end


section
namespace Sys2Proof.Machine
open Sys2Proof
variable {s t : State}

/-! ### Notices -/

theorem grpOf_of_roll (h : t.roll = s.roll) (n : Nat) : grpOf t n = grpOf s n := by rw [grpOf, h, ← grpOf]

theorem myGrp_of_roll (h : t.roll = s.roll) (n : Nat) : myGrp t n = myGrp s n := by rw [myGrp, grpOf_of_roll h, ← myGrp]

theorem grpOf_of_myGrp {n : Nat} {g : Grp} (h : myGrp s n = some g) : grpOf s n = some g := (Option.filter_eq_some_iff.1 h).1

theorem popNotice_roll (g : Nat) (via : Via) (s : State) : (popNotice g via s).roll = s.roll := by cases via <;> rfl

theorem popNotice_ops (g : Nat) (via : Via) (s : State) : (popNotice g via s).ops = s.ops := by cases via <;> rfl

theorem loadedOr_of_group {n : Bytes} {gr : Grp} (h : grpOf s (noticeHdr n).group = some gr) (code g : Nat) (f : State → State) :
    loadedOr code g n s f = f s := by
  rw [loadedOr, h]
  rfl

theorem loadedOr_of_none {n : Bytes} (h : grpOf s (noticeHdr n).group = none) (code g : Nat) (f : State → State) :
    loadedOr code g n s f = gateFault 0x0C code g (noticeHdr n) (noticeHdr n).member 0 s := by
  rw [loadedOr, h]
  rfl

/-- The code and the row of each notice of an operation. -/
def noticeRows (g : Nat) (via : Via) : List (Nat × Instr) :=
  [(1, .boltNotice g via), (2, .revokeNotice g via), (3, .resendNotice g via), (4, .closeNotice g via), (5, .cackNotice g via),
    (6, .askNotice g via), (7, .grantNotice g via)]

/-- Each row takes the notice of its code, and discards one of a group that is not loaded. -/
theorem exec_noticeRow {g : Nat} {via : Via} {r : Nat × Instr} (hr : r ∈ noticeRows g via) (s : State) : ∃ f : Bytes → State → State,
    exec r.2 s = onNotice g via r.1 s f ∧ ∀ n t, grpOf t (noticeHdr n).group = none →
      f n t = gateFault 0x0C r.1 g (noticeHdr n) (noticeHdr n).member 0 t := by
  have hmine {n : Bytes} {t : State} (h : grpOf t (noticeHdr n).group = none) : myGrp t (hdrName (noticeHdr n)).group = none := by
    rw [myGrp]
    exact congrArg (Option.filter _) h
  simp only [noticeRows, List.mem_cons, List.not_mem_nil, or_false] at hr
  obtain rfl | rfl | rfl | rfl | rfl | rfl | rfl := hr
  case inr.inr.inr.inl => exact ⟨closeArrives g, rfl, fun n t h => by simp only [closeArrives, hmine h]; rfl⟩
  case inr.inr.inr.inr.inr.inl =>
    exact ⟨askArrives g (viaGreen via), rfl, fun n t h => by simp only [askArrives, hmine h]; rfl⟩
  all_goals exact ⟨_, rfl, fun n t h => loadedOr_of_none h _ _ _⟩

theorem headIsOther {g : Nat} {via : Via} {c : Nat} (h : headNotice s g via = none) :
    ∀ n, headNotice s g via = some n → noticeCode n ≠ c := fun n hn => by rw [h] at hn; cases hn

/-! #### A notice opens a broadcast operation -/

theorem putOp_roll (o : Op) (s : State) : (putOp o s).roll = s.roll := by
  unfold putOp
  split <;> rfl

theorem findOp_putOp_of_none {o : Op} (h : findOp s o.name = none) : findOp (putOp o s) o.name = some o := by
  have hany : s.ops.any (fun x => x.name == o.name) = false := by
    rw [← Bool.not_eq_true, List.any_eq_true]
    rintro ⟨x, hx, hn⟩
    exact absurd hn (List.find?_eq_none.1 h x hx)
  have hfind : s.ops.find? (fun x => x.name == o.name) = none := h
  rw [putOp, hany, findOp]
  simp [hfind]

theorem openBcast_of_none {nm : OpName} (h : findOp s nm = none) : openBcast nm s = putOp { name := nm, n := 0, bcast := true } s := by
  rw [openBcast, h]

/-- A notice opens an operation only where none is known. -/
theorem noticeOpens_cases (nm : OpName) (s : State) : noticeOpens nm s = s ∨
    (findOp s nm = none ∧ noticeOpens nm s = putOp { name := nm, n := 0, bcast := true } s) := by
  rw [noticeOpens]
  split
  · next h =>
    have hnone : findOp s nm = none := by
      simp only [Bool.and_eq_true] at h
      obtain ⟨⟨⟨-, h⟩, -⟩, -⟩ := h
      simpa using h
    exact .inr ⟨hnone, openBcast_of_none hnone⟩
  · exact .inl rfl

theorem noticeOpens_roll (nm : OpName) (s : State) : (noticeOpens nm s).roll = s.roll := by
  rcases noticeOpens_cases nm s with h | ⟨-, h⟩ <;> rw [h]
  exact putOp_roll ..

/-- What a notice opens is not registered: a registered operation was there before. -/
theorem findOp_of_noticeOpens {nm : OpName} {o : Op} (h : findOp (noticeOpens nm s) nm = some o) (hr : o.registered = true) :
    findOp s nm = some o := by
  rcases noticeOpens_cases nm s with he | ⟨hn, he⟩
  · rwa [he] at h
  · rw [he] at h
    have hput := findOp_putOp_of_none (o := { name := nm, n := 0, bcast := true }) hn
    rw [Option.some.inj (h.symm.trans hput)] at hr
    cases hr

/-! #### CACK and GRANT -/

theorem cackArrives_eq (g : Nat) (green : Bool) (n : Bytes) (s : State) : cackArrives g green n s =
    let h := noticeHdr n
    let mine := fun (r : Retained) => (r.green == green) && decide (hdrName (hdrOf r.bytes) = hdrName h ∧
      (hdrOf r.bytes).member = h.member ∧ (hdrOf r.bytes).base ≤ h.base ∧
      h.base + h.count ≤ (hdrOf r.bytes).base + (hdrOf r.bytes).count)
    releaseGate g (modGate g (fun k => { k with
      retained := replaceFirst mine (fun r => { r with acked := r.acked ++ [(h.base, h.count)] }) k.retained }) s) := by
  rw [cackArrives]
  simp only [Bool.and_comm]

/-- The queued chunks that a grant lets go. -/
def grantedQ (g : Nat) (green : Bool) (n : Bytes) (s : State) : State :=
  let h := noticeHdr n
  let mine := fun (i : SendItem) => (i.green == green) && decide (hdrName (hdrOf i.bytes) = hdrName h ∧
    (hdrOf i.bytes).base = h.base ∧ (hdrOf i.bytes).count = h.count)
  modGate g (fun k => { k with sendQ := mapWhere mine (fun i => { i with granted := true }) k.sendQ })
    (noticeOpens (hdrName h) s)

theorem grantArrives_eq (g : Nat) (green : Bool) (n : Bytes) (s : State) : grantArrives g green n s =
    let h := noticeHdr n
    let u := grantedQ g green n s
    match findOp u (hdrName h), grpOf u (hdrName h).group with
    | some o, some gr =>
      if green || (cellChildren gr o.n (h.base / cellLen gr)).isEmpty then u
      else modCell (hdrName h) (h.base / cellLen gr) (fun c => { c with requested := true })
        (modOp (hdrName h) (fun o => { o with parentGranted := dedup (o.parentGranted ++ [h.base / cellLen gr]) }) u)
    | _, _ => u := by
  rw [grantArrives, grantedQ]
  simp only [Bool.and_comm] <;> rfl

theorem grantedQ_roll (g : Nat) (green : Bool) (n : Bytes) (s : State) : (grantedQ g green n s).roll = s.roll :=
  noticeOpens_roll ..

section
variable {g : Nat} {n : Bytes} {green : Bool} {gr : Grp} (hg : grpOf s (noticeHdr n).group = some gr)

theorem grantArrives_of_unknown (ho : findOp (grantedQ g green n s) (hdrName (noticeHdr n)) = none) :
    grantArrives g green n s = grantedQ g green n s := by
  rw [grantArrives_eq]
  simp only [ho]

include hg in
theorem grantArrives_of_op {o : Op} (ho : findOp (grantedQ g green n s) (hdrName (noticeHdr n)) = some o) :
    grantArrives g green n s = let h := noticeHdr n
      if green || (cellChildren gr o.n (h.base / cellLen gr)).isEmpty then grantedQ g green n s
      else modCell (hdrName h) (h.base / cellLen gr) (fun c => { c with requested := true })
        (modOp (hdrName h) (fun o => { o with parentGranted := dedup (o.parentGranted ++ [h.base / cellLen gr]) })
          (grantedQ g green n s)) := by
  have hgr : grpOf (grantedQ g green n s) (hdrName (noticeHdr n)).group = some gr := (grpOf_of_roll (grantedQ_roll ..) _).trans hg
  rw [grantArrives_eq]
  simp only [ho, hgr]

end

/-! #### RESEND -/

/-- The copy that a RESEND asks for, where it may be sent again. -/
def keptCopy (g : Nat) (green : Bool) (n : Bytes) (s : State) : Option Retained :=
  (getGate s g).retained.find? (fun r => sameChunk (hdrOf r.bytes) (noticeHdr n) && (r.green == green) && !r.unsent &&
    !(r.stomped && (r.cell.isSome || decide (r.vc = 6))))

/-- Whether the copy waits to be sent again already. -/
def queuedAgain (g : Nat) (green : Bool) (n : Bytes) (s : State) : Bool :=
  (getGate s g).sendQ.any (fun i => i.resend && (i.green == green) && sameChunk (hdrOf i.bytes) (noticeHdr n))

/-- Whether nothing of a range is sent again: its operation has failed, or the range is closed. -/
def rangeShut (n : Bytes) (s : State) : Bool :=
  (findOp s (hdrName (noticeHdr n))).any (fun o => o.failed || closedHere o (noticeHdr n).base (noticeHdr n).count)

theorem resendArrives_of_nothing {g : Nat} {green : Bool} {n : Bytes} (h : rangeShut n s = true ∨
    (keptCopy g green n s ≠ none ∧ queuedAgain g green n s = true) ∨
    (keptCopy g green n s = none ∧ findOp s (hdrName (noticeHdr n)) = none)) : resendArrives g green n s = s := by
  simp only [resendArrives]
  rw [← rangeShut, ← keptCopy, ← queuedAgain]
  rcases h with h | ⟨h, hq⟩ | ⟨h, ho⟩
  · exact if_pos h
  · obtain ⟨r, hr⟩ := Option.ne_none_iff_exists'.1 h
    simp only [hr, hq, if_true, ite_self]
  · simp only [h, ho, ite_self]

theorem resendArrives_of_kept {g : Nat} {green : Bool} {n : Bytes} {r : Retained} (hs : rangeShut n s = false)
    (hk : keptCopy g green n s = some r) (hq : queuedAgain g green n s = false) :
    resendArrives g green n s = resendRetained g r s := by
  simp only [resendArrives]
  rw [← rangeShut, ← keptCopy, ← queuedAgain]
  simp only [hs, hk, hq, Bool.false_eq_true, if_false]

end Sys2Proof.Machine
end


section
namespace Sys2Proof.Machine
open Sys2Proof
variable {s : State} {g : Nat} {n : Bytes} {gr : Grp} {o : Op}

/-! #### BOLT and REVOKE -/

section
variable (ho : findOp s (hdrName (noticeHdr n)) = some o) (hg : grpOf s (noticeHdr n).group = some gr) (hf : o.failed = false)
include ho hg hf

theorem boltArrives_of_cast {c : BcChunk}
    (hc : o.bc.find? (fun c => decide (c.fromGate = g) && sameChunk (hdrOf c.bytes) (noticeHdr n)) = some c) :
    boltArrives g n s =
      let h := noticeHdr n
      let sl : U64 := BitVec.ofNat 64 (numAt n 28 8)
      if c.bolted then (if sealOf c.bytes = sl then s else gateFault 0x0C nBolt g h h.member 0 s)
      else if sealOf c.bytes = sl then
        modOp (hdrName h) (fun o => { o with
          bc := mapWhere (fun x => sameChunk (hdrOf x.bytes) h) (fun x => { x with confirmed := true }) o.bc }) s
      else bcastDiscard g h 0 (gateFault 0x04 0 g h h.member 0 (gateFault 0x0C nBolt g h h.member 0
        (modGate g (fun k => { k with sealErr := satInc k.sealErr 1 }) s))) := by
  have hg' : grpOf s (hdrName (noticeHdr n)).group = some gr := hg
  simp only [boltArrives, ho, hg', hf, hc, Bool.false_eq_true, if_false]

theorem boltArrives_of_input {x : InChunk}
    (hc : o.bc.find? (fun c => decide (c.fromGate = g) && sameChunk (hdrOf c.bytes) (noticeHdr n)) = none)
    (hx : o.arrived.find? (fun x => decide (x.gate = g ∧ x.pos ≠ 0) && sameChunk (hdrOf x.bytes) (noticeHdr n)) = some x)
    (hh : x.held = true) : boltArrives g n s =
      let h := noticeHdr n
      let sl : U64 := BitVec.ofNat 64 (numAt n 28 8)
      let wrong := gateFault 0x0C nBolt g h h.member 0 s
      if x.bolted then (if sealOf x.bytes = sl then s else wrong)
      else if sealOf x.bytes = sl then
        noteInput (hdrName h) x.pos x.bytes x.mask x.excluded (modOp (hdrName h) (fun o => { o with
          arrived := mapWhere (fun y => y.pos == x.pos && sameChunk (hdrOf y.bytes) h) (fun y => { y with bolted := true })
            o.arrived }) s)
      else inputSealFailure (hdrName h) g x.pos ((cellsOf gr h.base h.count).filter (fun j => (o.cell j).isSome)) x.bytes
        (dropCopy (hdrName h) x.pos h wrong) := by
  have hg' : grpOf s (hdrName (noticeHdr n)).group = some gr := hg
  simp only [boltArrives, ho, hg', hf, hc, hx, hh, Bool.not_true, Bool.false_eq_true, if_false]

variable (hcl : closedHere o (noticeHdr n).base (noticeHdr n).count = false)
include hcl

theorem revokeArrives_of_cast {c : BcChunk}
    (hc : o.bc.find? (fun c => decide (c.fromGate = g) && sameChunk (hdrOf c.bytes) (noticeHdr n)) = some c) :
    revokeArrives g n s = if c.bolted then gateFault 0x0C nRevoke g (noticeHdr n) (noticeHdr n).member 0 s
      else bcastDiscard g (noticeHdr n) 5 s := by
  have hg' : grpOf s (hdrName (noticeHdr n)).group = some gr := hg
  simp only [revokeArrives, ho, hg', hf, hcl, hc, Bool.or_self, Bool.false_eq_true, if_false]

theorem revokeArrives_of_input {x : InChunk}
    (hc : o.bc.find? (fun c => decide (c.fromGate = g) && sameChunk (hdrOf c.bytes) (noticeHdr n)) = none)
    (hx : o.arrived.find? (fun x => decide (x.gate = g ∧ x.pos ≠ 0) && sameChunk (hdrOf x.bytes) (noticeHdr n)) = some x) :
    revokeArrives g n s =
      let h := noticeHdr n
      let js := (cellsOf gr h.base h.count).filter (fun j => (o.cell j).any (fun c => !c.bolted && !c.excl.contains x.pos))
      if x.bolted then gateFault 0x0C nRevoke g h h.member 0 s
      else advanceCells (hdrName h) js (js.foldl (fun u j => rebuildCell (hdrName h) j 5 u) s) := by
  have hg' : grpOf s (hdrName (noticeHdr n)).group = some gr := hg
  simp only [revokeArrives, ho, hg', hf, hcl, hc, hx, Bool.or_self, Bool.false_eq_true, if_false]

end

/-! #### ASK and CLOSE -/

section
variable {pos : Nat} (hg : myGrp s (noticeHdr n).group = some gr) (hf : gr.failed = false)
  (hp : (gr.children.zipIdx.find? (fun c => c.1.1 == (noticeHdr n).member)).map (fun c => c.2 + 1) = some pos)

/-- The request that an ASK of a child makes. -/
def asked (g pos : Nat) (n : Bytes) : AskSt :=
  { pos := pos, member := (noticeHdr n).member, gate := g, base := (noticeHdr n).base, count := (noticeHdr n).count
    granted := false, waitCell := none }

include hg hf hp

theorem askArrives_of_op (ho : findOp (noticeOpens (hdrName (noticeHdr n)) s) (hdrName (noticeHdr n)) = some o)
    (hr : o.registered = true) (he : opEnded (noticeOpens (hdrName (noticeHdr n)) s) o = false)
    (ha : addsCell gr o.n ((noticeHdr n).base / cellLen gr) = true) : askArrives g false n s =
      answerAsks (hdrName (noticeHdr n)) (modOp (hdrName (noticeHdr n)) (fun o => { o with asks := o.asks ++ [asked g pos n] })
        (noticeOpens (hdrName (noticeHdr n)) s)) := by
  have hg' : myGrp s (hdrName (noticeHdr n)).group = some gr := hg
  have hfind : (findOp (noticeOpens (hdrName (noticeHdr n)) s) (hdrName (noticeHdr n))).filter (·.registered) = some o := by
    simp [ho, hr]
  simp only [askArrives, hg', hp, hf, hfind, findOp_of_noticeOpens ho hr, he, ha, Option.map_some, Option.getD_some,
    Bool.false_eq_true, if_false, Bool.not_true, Bool.or_self, asked]

theorem askArrives_of_unopened (ho : findOp (noticeOpens (hdrName (noticeHdr n)) s) (hdrName (noticeHdr n)) = none)
    (he : nameEnded (noticeOpens (hdrName (noticeHdr n)) s) (hdrName (noticeHdr n)) = false) : askArrives g false n s =
      { noticeOpens (hdrName (noticeHdr n)) s with
        heldAsks := (noticeOpens (hdrName (noticeHdr n)) s).heldAsks ++ [(hdrName (noticeHdr n), asked g pos n)] } := by
  have hg' : myGrp s (hdrName (noticeHdr n)).group = some gr := hg
  have hfind : (findOp (noticeOpens (hdrName (noticeHdr n)) s) (hdrName (noticeHdr n))).filter (·.registered) = none := by
    rw [ho]
    rfl
  simp only [askArrives, hg', hp, hf, hfind, he, Bool.false_eq_true, if_false, asked]

end

section
variable (hg : myGrp s (noticeHdr n).group = some gr)

/-- What a CLOSE that fails its group says of it. -/
def closeMsg (n : Bytes) : FailMsg :=
  ⟨numAt n 33 1, (noticeHdr n).index, (noticeHdr n).base, (noticeHdr n).count, numAt n 36 4⟩

include hg

theorem closeArrives_of_failure : (numAt n 33 1 = 1 →
    closeArrives g n s = failGroup (hdrName (noticeHdr n)) 1 (some (closeMsg n)) (some g) s) ∧
    (numAt n 33 1 = 2 → closeArrives g n s = failGroup (hdrName (noticeHdr n)) 2 (some (closeMsg n)) (some g) s) ∧
    (numAt n 33 1 = 4 → closeArrives g n s = failGroup (hdrName (noticeHdr n)) 3 (some (closeMsg n)) (some g) s) := by
  have hg' : myGrp s (hdrName (noticeHdr n)).group = some gr := hg
  refine ⟨fun h => ?_, fun h => ?_, fun h => ?_⟩ <;> simp only [closeArrives, closeMsg, hg', h]

theorem closeArrives_of_range (h : numAt n 33 1 = 0) (hm : (noticeHdr n).member = memberId s) (hb : bitOf (numAt n 34 1) 0 = false) :
    closeArrives g n s = closeActs g (noticeHdr n) s := by
  have hg' : myGrp s (hdrName (noticeHdr n)).group = some gr := hg
  simp only [closeArrives, hg', h, hm, hb, if_true, Bool.false_eq_true, if_false]

end

theorem closeActs_of_op {h : Hdr} (ho : findOp s (hdrName h) = some o) (hr : o.registered = true) (he : opEnded s o = false) :
    closeActs g h s = closeRange (hdrName h) h.base h.count s := by
  have hfind : (findOp s (hdrName h)).filter (·.registered) = some o := by simp [ho, hr]
  simp only [closeActs, hfind, he, Bool.false_eq_true, if_false]

theorem memberId_popNotice (g : Nat) (via : Via) (s : State) : memberId (popNotice g via s) = memberId s := by
  cases via <;> rfl

/-- The row of a notice of a loaded group. -/
theorem onNotice_of_loaded {code : Nat} {via : Via} (f : Bytes → State → State) (hs : live s = true) (hg : g < numGates)
    (hn : headNotice s g via = some n) (hc : noticeCode n = code) (hgr : grpOf s (noticeHdr n).group = some gr) :
    onNotice g via code s (fun n s => loadedOr code g n s (f n)) = .next (f n (popNotice g via s)) := by
  rw [onNotice_of_head hs hg hn hc, loadedOr_of_group ((grpOf_of_roll (popNotice_roll g via s) _).trans hgr)]

end Sys2Proof.Machine
end


section
namespace Sys2Proof.Machine
open Sys2Proof

/-- Settles O52: one lemma for what all seven rows share, then the effect of each notice by its cases. -/
theorem noticesAreTakenInTurn : Obligations.NoticesAreTakenInTurn := by
  unfold Obligations.NoticesAreTakenInTurn
  intro s g via hs hg rows
  refine ⟨fun hn r hr => ?none, fun n hn => ?head⟩
  case none =>
    obtain ⟨f, hf, -⟩ := exec_noticeRow (g := g) (via := via) hr s
    rw [hf, onNotice_of_other f hs hg (headIsOther hn)]
  case head =>
    intro t h nm green same sl
    have hroll (x : Nat) : grpOf t x = grpOf s x := grpOf_of_roll (popNotice_roll g via s) x
    have hmy (x : Nat) : myGrp t x = myGrp s x := myGrp_of_roll (popNotice_roll g via s) x
    have hops (nm : OpName) : findOp t nm = findOp s nm := findOp_of_ops (popNotice_ops g via s) nm
    have hmember : memberId t = memberId s := memberId_popNotice g via s
    have hclose (hc : noticeCode n = 4) : exec (.closeNotice g via) s = .next (closeArrives g n t) :=
      onNotice_of_head hs hg hn hc
    have hask (hc : noticeCode n = 6) : exec (.askNotice g via) s = .next (askArrives g green n t) :=
      onNotice_of_head hs hg hn hc
    refine ⟨fun r hr hc => ?other, fun hno r hr hc => ?unloaded, fun hno => ⟨fun hc => ?strangerClose, fun hc => ?strangerAsk⟩,
      fun gr hgr => ?loaded, fun gr pos hc hgr hf hgreen hp => ?ask, fun hc hm => ?close,
      fun x hx => ?release⟩
    case other =>
      obtain ⟨f, hf, -⟩ := exec_noticeRow (g := g) (via := via) hr s
      rw [hf, onNotice_of_other f hs hg fun m hm => by rwa [Option.some.inj (hm.symm.trans hn)]]
    case unloaded =>
      obtain ⟨f, hf, hnone⟩ := exec_noticeRow (g := g) (via := via) hr s
      rw [hf, onNotice_of_head hs hg hn hc, hnone n t ((hroll _).trans hno)]
    case strangerClose =>
      have hno' : myGrp t (hdrName h).group = none := (hmy _).trans hno
      rw [hclose hc]
      simp only [closeArrives]
      rw [show myGrp t (hdrName (noticeHdr n)).group = none from hno']
      rfl
    case strangerAsk =>
      have hno' : myGrp t (hdrName h).group = none := (hmy _).trans hno
      rw [hask hc]
      simp only [askArrives]
      rw [show myGrp t (hdrName (noticeHdr n)).group = none from hno']
      rfl
    case loaded =>
      have hgr' : grpOf t (noticeHdr n).group = some gr := (hroll _).trans hgr
      have hcack (hc : noticeCode n = 5) : exec (.cackNotice g via) s = .next (cackArrives g green n t) :=
        onNotice_of_loaded (cackArrives g (viaGreen via)) hs hg hn hc hgr
      have hgrant (hc : noticeCode n = 7) : exec (.grantNotice g via) s = .next (grantArrives g green n t) :=
        onNotice_of_loaded (grantArrives g (viaGreen via)) hs hg hn hc hgr
      have hresend (hc : noticeCode n = 3) : exec (.resendNotice g via) s = .next (resendArrives g green n t) :=
        onNotice_of_loaded (resendArrives g (viaGreen via)) hs hg hn hc hgr
      have hbolt (hc : noticeCode n = 1) : exec (.boltNotice g via) s =
          .next (if namesMarket t g n then mktBoltArrives g n t else boltArrives g n t) :=
        onNotice_of_loaded (fun n s => if namesMarket s g n then mktBoltArrives g n s else boltArrives g n s) hs hg hn hc hgr
      have hrevoke (hc : noticeCode n = 2) : exec (.revokeNotice g via) s =
          .next (if namesMarket t g n then mktRevokeArrives g n t else revokeArrives g n t) :=
        onNotice_of_loaded (fun n s => if namesMarket s g n then mktRevokeArrives g n s else revokeArrives g n s) hs hg hn hc hgr
      refine ⟨fun hc => (hcack hc).trans (congrArg _ (cackArrives_eq g green n t)), fun hc => ?grant, fun hc => ?resend,
        fun hc hm => (hbolt hc).trans (congrArg _ (if_pos hm)), fun hc hm => (hrevoke hc).trans (congrArg _ (if_pos hm)),
        fun o ho hm hf => ?named⟩
      case grant =>
        intro mine go u
        refine ⟨fun ho => (hgrant hc).trans (congrArg _ (grantArrives_of_unknown ho)), fun o ho => ?_⟩
        have heq := (hgrant hc).trans (congrArg _ (grantArrives_of_op hgr' ho))
        refine ⟨fun hl => heq.trans (congrArg _ (if_pos ?_)), fun hg0 hl => heq.trans (congrArg _ (if_neg ?_))⟩
        · simpa using hl
        · simpa [hg0] using hl
      case resend =>
        intro shut kept again
        have hshut : rangeShut n t = shut := by rw [rangeShut, hops]
        refine ⟨fun hnot => ?_, fun r h0 hk ha => ?_⟩
        · refine (hresend hc).trans (congrArg _ (resendArrives_of_nothing ?_))
          rw [hshut, hops]
          exact hnot
        · exact (hresend hc).trans (congrArg _ (resendArrives_of_kept (hshut.trans h0) hk ha))
      case named =>
        intro cells cast input
        have ho' : findOp t (hdrName (noticeHdr n)) = some o := (hops _).trans ho
        have hno : ¬ namesMarket t g n = true := Bool.eq_false_iff.1 hm
        refine ⟨fun hc => ?bolt, fun hc hcl => ?revoke⟩
        case bolt =>
          intro wrong
          have hrow := (hbolt hc).trans (congrArg _ (if_neg hno))
          refine ⟨fun c hcast => ?_, fun x hcast hx hh => ?_⟩
          · intro it confirm
            have heq := hrow.trans (congrArg _ (boltArrives_of_cast ho' hgr' hf hcast))
            refine ⟨fun h1 h2 => heq.trans (congrArg _ ?_), fun h1 h2 => heq.trans (congrArg _ ?_),
              fun h1 h2 => heq.trans (congrArg _ ?_), fun h1 h2 => heq.trans (congrArg _ ?_)⟩
            · exact (if_neg (Bool.eq_false_iff.1 h2)).trans (if_pos h1)
            · exact (if_neg (Bool.eq_false_iff.1 h2)).trans (if_neg h1)
            · exact (if_pos h2).trans (if_pos h1)
            · exact (if_pos h2).trans (if_neg h1)
          · intro it bolt
            have heq := hrow.trans (congrArg _ (boltArrives_of_input ho' hgr' hf hcast hx hh))
            refine ⟨fun h1 h2 => heq.trans (congrArg _ ?_), fun h1 h2 => heq.trans (congrArg _ ?_),
              fun h1 h2 => heq.trans (congrArg _ ?_), fun h1 h2 => heq.trans (congrArg _ ?_)⟩
            · exact (if_neg (Bool.eq_false_iff.1 h2)).trans (if_pos h1)
            · exact (if_neg (Bool.eq_false_iff.1 h2)).trans (if_neg h1)
            · exact (if_pos h2).trans (if_pos h1)
            · exact (if_pos h2).trans (if_neg h1)
        case revoke =>
          intro wrong
          have hrow := (hrevoke hc).trans (congrArg _ (if_neg hno))
          refine ⟨fun c hcast => hrow.trans (congrArg _ (revokeArrives_of_cast ho' hgr' hf hcl hcast)),
            fun x hcast hx h2 => ?_, fun x hcast hx h2 => ?_⟩
          · exact hrow.trans (congrArg _ ((revokeArrives_of_input ho' hgr' hf hcl hcast hx).trans (if_pos h2)))
          · exact hrow.trans (congrArg _ ((revokeArrives_of_input ho' hgr' hf hcl hcast hx).trans
              (if_neg (Bool.eq_false_iff.1 h2))))
    case ask =>
      intro u a
      have hgr' : myGrp t (noticeHdr n).group = some gr := (hmy _).trans hgr
      have hrow := hask hc
      rw [hgreen] at hrow
      exact ⟨fun o ho hr he ha => hrow.trans (congrArg _ (askArrives_of_op hgr' hf hp ho hr he ha)),
        fun ho he => hrow.trans (congrArg _ (askArrives_of_unopened hgr' hf hp ho he))⟩
    case close =>
      intro msg
      obtain ⟨gr, hgr⟩ := Option.ne_none_iff_exists'.1 hm
      have hgr' : myGrp t (noticeHdr n).group = some gr := (hmy _).trans hgr
      obtain ⟨h1, h2, h4⟩ := closeArrives_of_failure (g := g) hgr'
      refine ⟨fun hn => (hclose hc).trans (congrArg _ (h1 hn)), fun hn => (hclose hc).trans (congrArg _ (h2 hn)),
        fun hn => (hclose hc).trans (congrArg _ (h4 hn)), fun h0 hme hb => ⟨?_, fun o ho hr he => ?_⟩⟩
      · exact (hclose hc).trans (congrArg _ (closeArrives_of_range hgr' h0 (hme.trans hmember.symm) hb))
      · exact closeActs_of_op ((hops _).trans ho) hr he
    case release =>
      obtain ⟨-, hw, -⟩ := unitsWf_iff.1 hx
      rw [releaseGate, getGate_modGate_self _ _ hw]

end Sys2Proof.Machine
end


section
namespace Sys2Proof.Machine
open Sys2Proof
variable {s t : State}

/-! ### What the failure of a group leaves alone -/

/-- From `s` to `t` no fault is counted, no failure recorded and no core changes. -/
structure failQuiet (s t : State) : Prop where
  faultCnt : t.faultCnt = s.faultCnt
  gfail : t.gfail = s.gfail
  cores : t.cores = s.cores

theorem failQuiet_refl (s : State) : failQuiet s s := ⟨rfl, rfl, rfl⟩

theorem failQuiet_trans {a b d : State} (h1 : failQuiet a b) (h2 : failQuiet b d) : failQuiet a d :=
  ⟨h2.faultCnt.trans h1.faultCnt, h2.gfail.trans h1.gfail, h2.cores.trans h1.cores⟩

theorem failQuiet_foldl {α : Type} {f : State → α → State} (hf : ∀ s x, failQuiet s (f s x)) (l : List α) (s : State) :
    failQuiet s (l.foldl f s) := by
  induction l generalizing s with
  | nil => exact failQuiet_refl s
  | cons x l ih => exact failQuiet_trans (hf s x) (ih _)

theorem failQuiet_ite {a b : State} {p : Prop} [Decidable p] (ha : failQuiet s a) (hb : failQuiet s b) :
    failQuiet s (if p then a else b) := by
  split <;> assumption

theorem failQuiet_modOp (nm : OpName) (f : Op → Op) (s : State) : failQuiet s (modOp nm f s) := ⟨rfl, rfl, rfl⟩

theorem failQuiet_modGate (g : Nat) (f : Gate → Gate) (s : State) : failQuiet s (modGate g f s) := ⟨rfl, rfl, rfl⟩

theorem failQuiet_modWell (w : Nat) (f : Well → Well) (s : State) : failQuiet s (modWell w f s) := ⟨rfl, rfl, rfl⟩

theorem failQuiet_ringBell (g q c st k : Nat) (s : State) : failQuiet s (ringBell g q c st k s) := by
  constructor <;> rw [ringBell_eq, belled_bellPosted]

theorem failQuiet_normSeen (r : ForgeRec) (b : Bool) (s : State) : failQuiet s (normSeen r b s) := by
  unfold normSeen
  exact failQuiet_ite ⟨rfl, rfl, rfl⟩ (failQuiet_refl s)

theorem failQuiet_forgeOpFailed (nm : OpName) (s : State) : failQuiet s (forgeOpFailed nm s) := by
  unfold forgeOpFailed
  split
  · exact failQuiet_refl s
  · refine failQuiet_foldl (fun u j => failQuiet_ite (failQuiet_refl u) ?_) _ s
    exact failQuiet_trans (failQuiet_modWell ..) (failQuiet_normSeen ..)

theorem failQuiet_tensorDigest (nm : OpName) (s : State) : failQuiet s (tensorDigest nm s) := by
  have hpush (b : Nat) (r : Bytes) (u : State) : failQuiet u (auditPush b r u) := by
    constructor <;> rw [ringed_auditPush]
  unfold tensorDigest
  split
  · extract_lets rooted t0 excluded opw pre rec1 ts ts'
    refine failQuiet_ite (failQuiet_refl s) ?_
    exact failQuiet_trans (b := { s with step := { s.step with opTallies := ts' } }) ⟨rfl, rfl, rfl⟩ (hpush ..)
  · exact failQuiet_refl s

theorem failQuiet_failOp (g : Grp) (s : State) (o : Op) : failQuiet s (failOp g s o) := by
  unfold failOp
  extract_lets nm s1 s2 s3 s4 s5
  have h2 : failQuiet s s2 := failQuiet_trans (failQuiet_ringBell ..) (failQuiet_forgeOpFailed ..)
  have h4 : failQuiet s s4 := failQuiet_trans h2 (failQuiet_trans (b := s3) ⟨rfl, rfl, rfl⟩ (failQuiet_modOp ..))
  exact failQuiet_trans h4 (failQuiet_trans (failQuiet_tensorDigest ..) (failQuiet_modOp ..))

theorem failQuiet_setModeAt (step bit : Nat) (s : State) : failQuiet s (setModeAt step bit s) := by
  unfold setModeAt setMode
  refine failQuiet_ite (failQuiet_refl s) ?_
  split <;> exact ⟨rfl, rfl, rfl⟩

theorem failQuiet_spreadFail (g : Grp) (nm : OpName) (f : FailMsg) (fr : Option Nat) (s : State) :
    failQuiet s (spreadFail g nm f fr s) := by
  unfold spreadFail
  refine failQuiet_ite (failQuiet_refl s) ?_
  refine failQuiet_trans (b := modGrp nm.group _ s) ⟨rfl, rfl, rfl⟩ (failQuiet_foldl (fun u l => ?_) _ _)
  exact failQuiet_ite (failQuiet_refl u) (failQuiet_modGate ..)

/-! #### The failure of a group -/

/-- What a failure tells the other members, where it has something to tell. -/
def failTold (g : Grp) (nm : OpName) (msg : Option FailMsg) (fr : Option Nat) (s : State) : State :=
  match msg with
  | none => s
  | some f => spreadFail g nm f fr s

theorem failQuiet_failTold (g : Grp) (nm : OpName) (msg : Option FailMsg) (fr : Option Nat) (s : State) :
    failQuiet s (failTold g nm msg fr s) := by
  unfold failTold
  split
  · exact failQuiet_refl s
  · exact failQuiet_spreadFail ..

/-- A first failure with its record and its one fault. -/
def failRecorded (nm : OpName) (reason : Nat) (s : State) : State :=
  raise 0x17 reason uBlock (chunkInfo nm.group nm.seq 0xFFFFFF) (memberId (recordGfail nm.group reason s))
    (recordGfail nm.group reason s)

/-- The open operations of a group. -/
def opensOf (n : Nat) (s : State) : List Op := s.ops.filter (fun o => decide (o.name.group = n) && opOpen s o)

section
variable {nm : OpName} {g : Grp} (hg : grpOf s nm.group = some g)
include hg

theorem failGroup_of_first (hf : g.failed = false) (reason : Nat) (msg : Option FailMsg) (fr : Option Nat) :
    ∃ u, failQuiet (failRecorded nm reason s) u ∧
      failGroup nm reason msg fr s = modGrp nm.group (fun x => { x with failed := true }) u := by
  have htold := failQuiet_trans (failQuiet_setModeAt nm.step mfGroupFailed (failRecorded nm reason s))
    (failQuiet_failTold g nm msg fr _)
  have heq : failGroup nm reason msg fr s = modGrp nm.group (fun x => { x with failed := true })
      ((opensOf nm.group (failTold g nm msg fr (setModeAt nm.step mfGroupFailed (failRecorded nm reason s)))).foldl (failOp g)
        (failTold g nm msg fr (setModeAt nm.step mfGroupFailed (failRecorded nm reason s)))) := by
    rw [failGroup, hg]
    simp only [hf, Bool.false_eq_true, if_false]
    rfl
  exact ⟨_, failQuiet_trans htold (failQuiet_foldl (failQuiet_failOp g) _ _), heq⟩

theorem failGroup_of_failed (hf : g.failed = true) (reason : Nat) (fr : Option Nat) : failGroup nm reason none fr s = s := by
  rw [failGroup, hg]
  simp only [hf, if_true]

end

theorem recordGfail_leaves (group reason : Nat) (s : State) : recordGfail group reason s =
    { s with gfail := if s.gfail.valid then s.gfail else ⟨group, reason, true⟩ } := by
  unfold recordGfail
  split <;> rfl

theorem failRecorded_leaves (nm : OpName) (reason : Nat) (s : State) :
    (failRecorded nm reason s).gfail = (if s.gfail.valid then s.gfail else ⟨nm.group, reason, true⟩) ∧
    tget 0 (failRecorded nm reason s).faultCnt 0x17 = satInc (tget 0 s.faultCnt 0x17) 1 ∧
    (failRecorded nm reason s).cores = s.cores := by
  unfold failRecorded
  rw [raise_gfail, raise_count _ _ _ _ _ _ (by decide), raise_cores, recordGfail_leaves]
  exact ⟨rfl, rfl, rfl⟩

theorem failed_of_modGrp {id : Nat} {x : Grp} (hx : x ∈ (modGrp id (fun x => { x with failed := true }) s).roll.groups)
    (h : x.id = id) : x.failed = true := by
  obtain ⟨y, -, rfl⟩ := List.mem_map.1 hx
  dsimp only at h ⊢
  split
  · rfl
  · next hn =>
    rw [if_neg hn] at h
    exact absurd (beq_iff_eq.2 h) hn

/-! ### The limits of an operation -/

theorem atLimit_eq {nm : OpName} {k : Nat} {o : Op} {g : Grp} (h : atLimit s nm k = some (o, g)) :
    opOpen s o = true ∧ o.limit = k := by
  unfold atLimit at h
  split at h
  · split at h
    · next hc =>
      obtain ⟨rfl, rfl⟩ := Prod.mk.inj (Option.some.inj h)
      obtain ⟨hk, ho⟩ := Bool.and_eq_true_iff.1 hc
      exact ⟨ho, of_decide_eq_true hk⟩
    · cases h
  · cases h

theorem reabsorbDone_of_none (h : ∀ o ∈ s.ops, o.reabsorbing = []) : reabsorbDone s = s := by
  have hnone : s.ops.find? (fun o => o.reabsorbing.any (fun r => covers r.1 r.2 o.handed)) = none :=
    List.find?_eq_none.2 fun o ho => by simp [h o ho]
  rw [reabsorbDone, hnone]
  exact ite_self s

theorem reabsorbDone_of_first {o : Op} {g : Grp} {r : Nat × Nat} {rest : List Op} (hp : anyPending .gate s = false)
    (ho : s.ops = o :: rest) (hr : o.reabsorbing = [r]) (hc : covers r.1 r.2 o.handed = true)
    (hg : grpOf s o.name.group = some g) : reabsorbDone s =
      ringBell o.name.group o.name.seq (cellIndex g (r.1 / cellLen g)) 3 3
        { s with ops := { o with reabsorbing := [] } :: rest } := by
  have hfirst : s.ops.find? (fun o => o.reabsorbing.any (fun r => covers r.1 r.2 o.handed)) = some o := by
    rw [ho, List.find?_cons_of_pos (by simp [hr, hc])]
  have hrange : o.reabsorbing.find? (fun r => covers r.1 r.2 o.handed) = some r := by
    rw [hr, List.find?_cons_of_pos (by simpa using hc)]
  simp only [reabsorbDone, hp, hfirst, hrange, hg, Bool.false_eq_true, if_false]
  simp [modOp, ho, replaceFirst, hr]

/-! ### Grants of the granary -/

theorem granaryGrant_of_testing {g k : Nat} (h : (getGate s g).testing = true) : granaryGrant g k s = s := if_pos h

theorem tryReserve_of_op {g k : Nat} {r : Nat × OpName × Nat} {o : Op} {gr : Grp} (ho : findOp s r.2.1 = some o)
    (hg : grpOf s r.2.1.group = some gr) : tryReserve g k s r =
      if sumSlots gr + 2 * (cellHeight gr o.n r.2.2 - 1) ≤ poolFree s g k then
        modCell r.2.1 r.2.2 (fun c => { c with reserved := true }) s else s := by
  simp only [tryReserve, ho, hg, mayReserve, decide_eq_true_iff]

/-- Settles O53: the limits by `atLimit`, the failure of a group by what it leaves alone, the grants by their pool. -/
theorem limitsExcludeAndFail : Obligations.LimitsExcludeAndFail := by
  unfold Obligations.LimitsExcludeAndFail
  intro s hs
  have hdeadline (nm : OpName) : exec (.deadlineExpire nm) s = .next (deadlineExpire nm s) := act_of_live hs _
  have hconfirm (nm : OpName) : exec (.confirmationLimit nm) s = .next (confirmationLimit nm s) := act_of_live hs _
  have horphan (nm : OpName) : exec (.orphanLimit nm) s = .next (orphanLimit nm s) := act_of_live hs _
  have hreabsorb : exec .reabsorbDone s = .next (reabsorbDone s) := act_of_live hs _
  refine ⟨fun nm => ⟨fun h => ?noDeadline, fun h => ?noConfirm, fun h => ?noOrphan⟩, fun nm o g h => ?deadline,
    fun nm o g h => ?confirm, fun nm o g h => ?orphan, fun nm g reason msg hg hf => ?fails,
    fun nm g reason fr hg hf => failGroup_of_failed hg hf reason fr, fun h => ?pending, fun h => ?noRange,
    fun o g r rest hp ho hr hc hg => ?range, fun g p hg => ⟨fun h => ?testing, fun h => ?grants,
        fun r o gr ho hgr => tryReserve_of_op ho hgr⟩⟩
  case noDeadline => rw [hdeadline, deadlineExpire, h]
  case noConfirm => rw [hconfirm, confirmationLimit, h]
  case noOrphan => rw [horphan, orphanLimit, h]
  case deadline =>
    obtain ⟨ho, hl⟩ := atLimit_eq h
    refine ⟨ho, hl, ?_⟩
    rw [hdeadline, deadlineExpire, h]
  case confirm => rw [hconfirm, confirmationLimit, h]
  case orphan =>
    have heq : orphanLimit nm s = if orphaned (modOp nm (fun o => { o with limit := 4 }) s) g o
        then failGroup nm 4 none none (modOp nm (fun o => { o with limit := 4 }) s)
        else modOp nm (fun o => { o with limit := 4 }) s := by rw [orphanLimit, h]
    refine ⟨fun ho => ?_, fun ho => ?_⟩
    · rw [horphan, heq, if_neg (Bool.eq_false_iff.1 ho)]
    · rw [horphan, heq, if_pos ho]
  case fails =>
    obtain ⟨u, hu, he⟩ := failGroup_of_first hg hf reason msg none
    obtain ⟨h1, h2, h3⟩ := failRecorded_leaves nm reason s
    intro t
    have ht : t = modGrp nm.group (fun x => { x with failed := true }) u := he
    refine ⟨?_, ?_, fun x hx hid => ?_, ?_⟩
    · rw [ht]
      exact hu.gfail.trans h1
    · rw [ht]
      exact (congrArg (fun c => tget 0 c 0x17) hu.faultCnt).trans h2
    · rw [ht] at hx
      exact failed_of_modGrp hx hid
    · rw [ht]
      exact hu.cores.trans h3
  case pending => rw [hreabsorb, reabsorbDone, if_pos h]
  case noRange => rw [hreabsorb, reabsorbDone_of_none h]
  case range => rw [hreabsorb, reabsorbDone_of_first hp ho hr hc hg]
  case testing => exact actOn_of_eq hs hg (granaryGrant_of_testing h)
  case grants => exact actOn_of_eq hs hg (if_neg (Bool.eq_false_iff.1 h))

end Sys2Proof.Machine
end


section
namespace Sys2Proof.Machine
open Sys2Proof
variable {s : State} {g : Nat}

/-! ### The shadow adders -/

/-- What a copy that waits for the shadow adder adds to its cell. -/
def shadowAdds (gr : Grp) (n j pos : Nat) (b : Bytes) (c : Cell) : Cell :=
  let a := accAdd gr n j (!c.shadowAdded.contains pos) b ⟨c.shadowSum, c.shadowXf, c.shadowDense, c.shadowWeight, true⟩
  { c with
    shadowSum := a.sums, shadowXf := a.xf, shadowDense := a.dense, shadowWeight := a.weight
    shadowAdded := if c.shadowAdded.contains pos then c.shadowAdded else c.shadowAdded ++ [pos] }

theorem mem_shadowAdds (gr : Grp) (n j pos : Nat) (b : Bytes) (c : Cell) : pos ∈ (shadowAdds gr n j pos b c).shadowAdded := by
  simp only [shadowAdds, List.contains_iff_mem]
  split
  · next h => exact h
  · simp

section
variable {nm : OpName} {j pos : Nat} {b : Bytes} {rest : List (OpName × Nat × Nat × Bytes)}
  (hk : (getGate s g).shadowIn = (nm, j, pos, b) :: rest)
include hk

theorem shadowCopy_of_unknown (ho : findOp s nm = none) : shadowCopy g s =
    setGate s g { getGate s g with shadowIn := rest } := by
  have ho' : findOp (modGate g (fun t => { t with shadowIn := rest }) s) nm = none := ho
  rw [shadowCopy, hk]
  simp only [ho']
  rfl

theorem shadowCopy_of_op {o : Op} {gr : Grp} (ho : findOp s nm = some o) (hg : grpOf s nm.group = some gr) :
    shadowCopy g s = modCell nm j (shadowAdds gr o.n j pos b) (setGate s g { getGate s g with shadowIn := rest }) := by
  have ho' : findOp (modGate g (fun t => { t with shadowIn := rest }) s) nm = some o := ho
  have hg' : grpOf (modGate g (fun t => { t with shadowIn := rest }) s) nm.group = some gr := hg
  rw [shadowCopy, hk]
  simp only [ho', hg']
  rfl

end

/-- Whether the shadow sums of a cell give its output, with the bits of an injected error. -/
def shadowAgrees (s : State) (gr : Grp) (o : Op) (c : Cell) (err : U64) : Bool :=
  decide (crc64 (((shadowOutput s gr o c).take 4136).drop 32) ^^^ err = crc64 ((c.out.take 4136).drop 32)) &&
    decide (min c.shadowWeight 0xFFFFFFFF = (hdrOf c.out).weight)

/-- The record of a disagreement, against both gates. -/
def shadowFault (g : Nat) (nm : OpName) (gr : Grp) (j n : Nat) (s : State) : State :=
  raiseFull 0x09 n (uGate g) (chunkInfo nm.group nm.seq (cellIndex gr j)) (uGate (shadowGate g)) n (some (uGate (shadowGate g))) s

section
variable {nm : OpName} {j : Nat} {o : Op} {gr : Grp} {c : Cell} {e : U64} (hr : shadowReady s g = some (nm, j))
  (ho : findOp s nm = some o) (hg : grpOf s nm.group = some gr) (hc : o.cell j = some c)
include hr ho hg hc

theorem shadowResult_of_agreement (ha : shadowAgrees s gr o c e = true) : shadowResult g e s =
    let t := setGate s g { getGate s g with shadowCmp := satInc (getGate s g).shadowCmp 1 }
    let v := if c.disagreements = 0 then t else shadowFault g nm gr j 1 t
    modCell nm j (fun c => { c with shadowOk := true })
      (modUnit (uGate g) (fun x => { x with lastAgree := some (recordStep v) })
        (modUnit (uGate (shadowGate g)) (fun x => { x with lastAgree := some (recordStep v) }) v)) := by
  rw [shadowResult, hr]
  simp only [ho, hg, hc]
  exact if_pos ha

theorem shadowResult_of_disagreement (hw : tableWf {} s.gates = true) (ha : shadowAgrees s gr o c e = false) :
    shadowResult g e s =
      let v := setGate s g { getGate s g with
        shadowCmp := satInc (getGate s g).shadowCmp 1, shadowErr := satInc (getGate s g).shadowErr 1 }
      if c.disagreements = 0 then rebuildCell nm j 3 (modCell nm j (fun c => { c with disagreements := 1 }) v)
      else failGroup nm 3 (some (cellFail gr o.n j c.outExcluded 4)) none (shadowFault g nm gr j 2 v) := by
  have hgate : modGate g (fun t => { t with shadowErr := satInc t.shadowErr 1 })
      (modGate g (fun t => { t with shadowCmp := satInc t.shadowCmp 1 }) s) =
      setGate s g { getGate s g with
        shadowCmp := satInc (getGate s g).shadowCmp 1, shadowErr := satInc (getGate s g).shadowErr 1 } :=
    modGate_setGate _ _ _ hw
  rw [shadowResult, hr]
  simp only [ho, hg, hc]
  refine (if_neg (Bool.eq_false_iff.1 ha)).trans ?_
  rw [hgate]
  by_cases hd : c.disagreements = 0
  · rw [if_neg (by omega), if_pos hd, hd]
  · rw [if_pos (by omega), if_neg hd]
    rfl

end

/-- Settles O54: the copy by what it adds, the comparison by its result. -/
theorem shadowAddersCompare : Obligations.ShadowAddersCompare := by
  unfold Obligations.ShadowAddersCompare
  intro s g hs hg hu k
  obtain ⟨-, hw, -⟩ := unitsWf_iff.1 hu
  have hcopy : exec (.shadowCopyReceive g) s = .next (shadowCopy g s) := actOn_of_live hs hg _
  have hresult (e : U64) : exec (.shadowResult g e) s = .next (shadowResult g e s) := actOn_of_live hs hg _
  refine ⟨fun h => ?empty, fun nm j pos b rest hk => ?copy, fun h e => ?unready, fun nm j o gr c e hr ho hgr hc => ?compare⟩
  case empty => rw [hcopy, shadowCopy, h]
  case copy =>
    refine ⟨fun ho => ?_, fun o gr ho hgr => ⟨shadowAdds gr o.n j pos b, ?_, fun c => ⟨rfl, mem_shadowAdds ..⟩⟩⟩
    · rw [hcopy, shadowCopy_of_unknown hk ho]
    · rw [hcopy, shadowCopy_of_op hk ho hgr]
  case unready => rw [hresult, shadowResult, h]
  case compare =>
    intro crcOf agree t u p fault
    refine ⟨fun ha => (hresult e).trans (congrArg _ (shadowResult_of_agreement hr ho hgr hc ha)), fun ha => ?_⟩
    exact (hresult e).trans (congrArg _ (shadowResult_of_disagreement hr ho hgr hc hw ha))

end Sys2Proof.Machine
end


/-! ### The market -/

section
namespace Sys2Proof.Machine
open Sys2Proof
variable {s t : State} {c : Nat}

/-! #### The contexts -/

theorem getCtx_modCtx_self {f : Ctx → Ctx} (h : f (getCtx s c) ≠ {}) : getCtx (modCtx c f s) c = f (getCtx s c) := by
  have hset : tmod {} s.mkt.ctx c f = tinsert s.mkt.ctx c (f (getCtx s c)) := if_neg h
  rw [getCtx, modCtx, hset, tget_tinsert_same]

theorem getCtx_modCtx_of_ne {f : Ctx → Ctx} (hw : tableWf {} s.mkt.ctx = true) {d : Nat} (h : d ≠ c) :
    getCtx (modCtx c f s) d = getCtx s d := by
  rw [getCtx, modCtx, tmod, tget_tset _ _ _ hw, if_neg h, getCtx]

/-- A context with a record is not the empty one. -/
theorem ctx_ne_of_record {x : Ctx} {r : CtxRec} (h : x.record = some r) : x ≠ {} := by
  rintro rfl
  cases h

theorem getCtx_modCtx_of_record {f : Ctx → Ctx} {r : CtxRec} (h : (f (getCtx s c)).record = some r) :
    getCtx (modCtx c f s) c = f (getCtx s c) := getCtx_modCtx_self (ctx_ne_of_record h)

theorem getCtx_of_ctx (h : t.mkt.ctx = s.mkt.ctx) (c : Nat) : getCtx t c = getCtx s c := by rw [getCtx, h, ← getCtx]

/-! #### What is sent on the market -/

/-- From `s` to `t` no context, core, operation, forge or command changes: what the market sends goes to its frames, to the
gates and to host memory. -/
structure mktSent (s t : State) : Prop where
  ctx : t.mkt.ctx = s.mkt.ctx
  cmd : t.cmd = s.cmd
  cores : t.cores = s.cores
  ops : t.ops = s.ops
  forge : t.forge = s.forge

theorem mktSent_refl (s : State) : mktSent s s := ⟨rfl, rfl, rfl, rfl, rfl⟩

theorem mktSent_trans {a b d : State} (h1 : mktSent a b) (h2 : mktSent b d) : mktSent a d :=
  ⟨h2.ctx.trans h1.ctx, h2.cmd.trans h1.cmd, h2.cores.trans h1.cores, h2.ops.trans h1.ops, h2.forge.trans h1.forge⟩

theorem mktSent_foldl {α : Type} {f : State → α → State} (hf : ∀ s x, mktSent s (f s x)) (l : List α) (s : State) :
    mktSent s (l.foldl f s) := by
  induction l generalizing s with
  | nil => exact mktSent_refl s
  | cons x l ih => exact mktSent_trans (hf s x) (ih _)

theorem mktSent_ite {a b : State} {p : Prop} [Decidable p] (ha : mktSent s a) (hb : mktSent s b) :
    mktSent s (if p then a else b) := by
  split <;> assumption

theorem mktSent_of_reported (h : reported s t) : mktSent s t := by
  have hm : t.mkt = s.mkt := h.mkt
  exact ⟨congrArg Mkt.ctx hm, h.cmd, h.cores, h.ops, h.forge⟩

theorem mktSent_modGate (g : Nat) (f : Gate → Gate) (s : State) : mktSent s (modGate g f s) := ⟨rfl, rfl, rfl, rfl, rfl⟩

theorem mktSent_raise (a b d e f : Nat) (s : State) : mktSent s (raise a b d e f s) := mktSent_of_reported (reported_raise ..)

theorem mktSent_routeFault (why : Route) (u y i d : Nat) (s : State) : mktSent s (routeFault why u y i d s) := by
  unfold routeFault
  split
  · exact mktSent_raise ..
  · exact mktSent_raise ..
  · exact mktSent_refl s

theorem mktSent_sendFrame (r : CtxRec) (m : MOp) (dst : Nat) (b : Bytes) (s : State) : mktSent s (sendFrame r m dst b s) := by
  unfold sendFrame
  split
  · exact ⟨rfl, rfl, rfl, rfl, rfl⟩
  · exact mktSent_modGate ..
  · exact mktSent_routeFault ..

theorem mktSent_sendMktChunk (r : CtxRec) (m : MOp) (dst : Nat) (b : Bytes) (s : State) :
    mktSent s (sendMktChunk r m dst b s) := by
  unfold sendMktChunk
  split
  · exact mktSent_modGate ..
  · exact mktSent_modGate ..
  · exact mktSent_routeFault ..

theorem mktSent_sendRowFrames (r : CtxRec) (m : MOp) (step dst type place : Nat) (row : Bytes) (s : State) :
    mktSent s (sendRowFrames r m step dst type place row s) := mktSent_foldl (fun _ _ => mktSent_sendFrame ..) _ s

theorem mktSent_postStream (r : CtxRec) (m : MOp) (step fmt dst start : Nat) (bs : Bytes) (bad : Nat → Bool) (s : State) :
    mktSent s (postStream r m step fmt dst start bs bad s) := mktSent_foldl (fun _ _ => mktSent_sendMktChunk ..) _ s

theorem mktSent_postRows (rd : ReadEnd) (r : CtxRec) (m : MOp) (step dst slot : Nat) (ts : List Nat) (s : State) :
    mktSent s (postRows rd r m step dst slot ts s) := by
  unfold postRows
  exact mktSent_postStream ..

theorem mktSent_sendRouted (r : CtxRec) (mode : Nat) (m : MOp) (step : Nat) (is : List (Nat × Nat)) (cs : List Copy) (s : State) :
    mktSent s (sendRouted r mode m step is cs s) := by
  unfold sendRouted
  exact mktSent_ite (mktSent_foldl (fun _ _ => mktSent_sendFrame ..) _ s)
    (mktSent_ite (mktSent_foldl (fun _ _ => mktSent_sendMktChunk ..) _ s)
      (mktSent_foldl (fun _ _ => mktSent_sendRowFrames ..) _ s))

theorem mktSent_flaggedTokens (m : MOp) (recs : List SieveRec) (s : State) : mktSent s (flaggedTokens m recs s) :=
  mktSent_foldl (fun u _ => mktSent_ite (mktSent_raise ..) (mktSent_refl u)) _ s

theorem mktSent_returnRange (rd : ReadEnd) (r : CtxRec) (m : MOp) (step : Nat) (crier : Bool) (s : State) (g : MRange) :
    mktSent s (returnRange rd r m step crier s g) := by
  unfold returnRange
  exact mktSent_ite (mktSent_foldl (fun _ _ => mktSent_sendRowFrames ..) _ s) (mktSent_postStream ..)

theorem mktSent_postWrite (o : Owner) (a : Nat) (bs : Bytes) (p : Bool) (s : State) : mktSent s (postWrite o a bs p s) :=
  mktSent_of_reported (reported_postWrite ..)

theorem mktSent_readsEnd (rd : ReadEnd) (s : State) : mktSent s (readsEnd rd s) := mktSent_of_reported (reported_readsEnd rd s)

/-! #### What a command leaves of its context -/

/-- What a command that started leaves: its context, and nothing else but what it sent. -/
structure mktStarted (c : Nat) (x : Ctx) (s u : State) : Prop where
  self : getCtx u c = x
  other : ∀ d, d ≠ c → tableWf {} s.mkt.ctx = true → getCtx u d = getCtx s d
  cmd : u.cmd = s.cmd
  cores : u.cores = s.cores
  ops : u.ops = s.ops
  forge : u.forge = s.forge

/-- A command that sends, changes its context, which keeps a record, and sends again. -/
theorem mktStarted_of_sent {v w u : State} {f : Ctx → Ctx} {r : CtxRec} (h1 : mktSent s v) (hr : (f (getCtx s c)).record = some r)
    (hw : w = modCtx c f v) (h2 : mktSent w u) : mktStarted c (f (getCtx s c)) s u := by
  have hv : getCtx v c = getCtx s c := getCtx_of_ctx h1.ctx c
  subst hw
  refine ⟨?_, fun d hd ht => ?_, h2.cmd.trans h1.cmd, h2.cores.trans h1.cores, h2.ops.trans h1.ops, h2.forge.trans h1.forge⟩
  · rw [getCtx_of_ctx h2.ctx, getCtx_modCtx_of_record (r := r) (by rwa [hv]), hv]
  · rw [getCtx_of_ctx h2.ctx, getCtx_modCtx_of_ne (by rwa [h1.ctx]) hd, getCtx_of_ctx h1.ctx]

/-- What a forward dispatch asks for: the ranges of its copies, unless it sends rows as frames. -/
def askedRanges (r : CtxRec) (m : MOp) (v : State) (mode : Nat) : List MRange :=
  if mode = 2 then [] else rangesOf (copiesOf v r m.layer ((List.range r.tokens).map (routeToken v r
    ((List.range r.experts).map (fun e => !(replicas v r m.layer e).isEmpty)))))

theorem noteMissed_leaves (ms : List Nat) (x : Ctx) : noteMissed ms x = { x with missed := (noteMissed ms x).missed } := by
  unfold noteMissed
  split <;> rfl

theorem dispatchForward_starts {rd : ReadEnd} {r : CtxRec} {m : MOp} {step : Nat} (hr : (getCtx s m.ctx).record = some r) :
    ∃ holds ms, mktStarted m.ctx (openDispatch m step 1 (askedRanges r m (readsEnd rd s) (getCtx s m.ctx).mode) holds
      (decide ((getCtx s m.ctx).mode = 2)) (noteMissed ms (getCtx s m.ctx))) s (dispatchForward rd r m step s) := by
  have hmode : (getCtx (readsEnd rd s) m.ctx).mode = (getCtx s m.ctx).mode :=
    congrArg Ctx.mode (getCtx_of_ctx (mktSent_readsEnd rd s).ctx m.ctx)
  unfold dispatchForward
  extract_lets v mode alive recs cs insts slot page bad s1 holds asked members s2
  have h1 : mktSent s s1 :=
    mktSent_trans (mktSent_readsEnd rd s) (mktSent_trans (mktSent_postWrite ..) (mktSent_flaggedTokens ..))
  have hasked : asked = askedRanges r m v (getCtx s m.ctx).mode := by rw [← hmode]; rfl
  have hrec : (openDispatch m step 1 asked holds (decide (mode = 2)) (noteMissed members (getCtx s m.ctx))).record = some r := by
    rw [noteMissed_leaves]
    exact hr
  refine ⟨holds, members, ?_⟩
  rw [← hasked, ← hmode]
  exact mktStarted_of_sent (f := fun x => openDispatch m step 1 asked holds (decide (mode = 2)) (noteMissed members x)) h1 hrec rfl
    (mktSent_sendRouted ..)

/-- What a replay leaves of its context. -/
def replayedCtx (m : MOp) (step : Nat) (is : List MInst) (expect : List MRange) (x : Ctx) : Ctx :=
  { openDispatch m step 2 [] (!is.isEmpty) true x with
    insts := is.map (fun i => { i with flags := clearBit i.flags 0 }), expect := expect }

theorem dispatchReplay_starts {rd : ReadEnd} {r : CtxRec} {m : MOp} {step : Nat} (hr : (getCtx s m.ctx).record = some r) :
    ∃ is ms, mktStarted m.ctx (replayedCtx m step is (ledgerRanges (readsEnd rd s) r m.layer (fun f => bitOf f 2))
      (noteMissed ms (getCtx s m.ctx))) s (dispatchReplay rd r m step s) := by
  unfold dispatchReplay
  extract_lets v mode insts expect members put s1
  have hrec : (replayedCtx m step insts expect (noteMissed members (getCtx s m.ctx))).record = some r := by
    rw [noteMissed_leaves]
    exact hr
  refine ⟨insts, members, mktStarted_of_sent (f := fun x => replayedCtx m step insts expect (noteMissed members x))
    (mktSent_readsEnd rd s) hrec (w := s1) rfl (mktSent_foldl (fun u d => mktSent_ite ?_ ?_) _ s1)⟩
  · exact mktSent_foldl (fun _ _ => mktSent_sendRowFrames ..) _ u
  · exact mktSent_postRows ..

/-- What a RETURN leaves of its context. -/
def returningCtx (m : MOp) (step : Nat) (x : Ctx) : Ctx := { x with
  returning := true, layer := m.layer, pass := m.pass, step := step, combinedTok := [], timedOut := false, leftOut := [] }

theorem returnStarts_starts {rd : ReadEnd} {r : CtxRec} {m : MOp} {step : Nat} (hr : (getCtx s m.ctx).record = some r) :
    mktStarted m.ctx (returningCtx m step (getCtx s m.ctx)) s (returnStarts rd r m step s) ∧
    returnStarts rd r m step s = (ledgerRanges (readsEnd rd s) r m.layer (fun f => bitOf f 1 || bitOf f 2)).foldl
      (returnRange rd r m step (decide ((getCtx s m.ctx).mode = 2))) (modCtx m.ctx (returningCtx m step) (readsEnd rd s)) := by
  have hmode : (getCtx (readsEnd rd s) m.ctx).mode = (getCtx s m.ctx).mode :=
    congrArg Ctx.mode (getCtx_of_ctx (mktSent_readsEnd rd s).ctx m.ctx)
  refine ⟨mktStarted_of_sent (f := returningCtx m step) (mktSent_readsEnd rd s) hr rfl
    (mktSent_foldl (fun _ _ => mktSent_returnRange ..) _ _), ?_⟩
  rw [returnStarts]
  simp only [hmode]
  rfl

end Sys2Proof.Machine
end


section
namespace Sys2Proof.Machine
open Sys2Proof
variable {s : State} {op : Nat} {w : U64} {rest : List U64}

/-! #### Market commands -/

/-- What a market command names. -/
def marketOp (w : U64) : MOp := ⟨field w.toNat 12 8, 0, field w.toNat 19 19, field w.toNat 18 13⟩

/-- A forward dispatch behind one that has run: a backward context, or a layer that is not past the last. -/
def dispatchAgain (op : Nat) (m : MOp) (x : Ctx) : Prop :=
  op = 0x20 ∧ m.pass = 0 ∧ (x.state = 2 ∨ (x.state = 1 ∧ ∃ l, x.lastLayer = some l ∧ m.layer ≤ l))

theorem dispatchAgain_iff (op : Nat) (m : MOp) (x : Ctx) : (decide (op = 0x20 ∧ m.pass = 0) &&
    (decide (x.state = 2) || (decide (x.state = 1) && x.lastLayer.any (fun l => decide (m.layer ≤ l))))) = true ↔
      dispatchAgain op m x := by
  simp only [dispatchAgain, Bool.and_eq_true, Bool.or_eq_true, decide_eq_true_iff, and_assoc, Option.any_eq_true]

section
variable {pass : Option Nat} {f : CtxRec → MOp → Nat → State → State} (hh : headIs s op w rest)
include hh

theorem onMarket_of_other_pass (hp : pass.any (fun p => p ≠ (marketOp w).pass) = true) : onMarket op s pass f = .next s :=
  (onHead_of_headIs hh _).trans (congrArg _ (if_pos hp))

variable (hp : pass.any (fun p => p ≠ (marketOp w).pass) = false)
include hp

theorem onMarket_of_no_record (hr : (getCtx s (marketOp w).ctx).record = none) :
    onMarket op s pass f = .next (discardCmd op s) := by
  refine (onHead_of_headIs hh _).trans (congrArg _ ((if_neg (Bool.eq_false_iff.1 hp)).trans ?_))
  rw [marketOp] at hr
  simp only [hr]

variable {r : CtxRec} (hr : (getCtx s (marketOp w).ctx).record = some r)
include hr

theorem onMarket_of_record : onMarket op s pass f = .next (
    if r.layers ≤ (marketOp w).layer ∨ (decide (op = 0x20 ∧ (marketOp w).pass = 0) &&
        (decide ((getCtx s (marketOp w).ctx).state = 2) || (decide ((getCtx s (marketOp w).ctx).state = 1) &&
          (getCtx s (marketOp w).ctx).lastLayer.any (fun l => decide ((marketOp w).layer ≤ l))))) = true
    then discardCmd op s
    else match mktStep s with
      | none => s
      | some step => if ctxBusy s (marketOp w).ctx then s else f r (marketOp w) step (popCmd s)) := by
  refine (onHead_of_headIs hh _).trans (congrArg _ ((if_neg (Bool.eq_false_iff.1 hp)).trans ?_))
  simp only [marketOp] at hr ⊢
  simp only [hr, Bool.or_eq_true, decide_eq_true_iff]
  rfl

theorem onMarket_of_invalid (h : r.layers ≤ (marketOp w).layer ∨ dispatchAgain op (marketOp w) (getCtx s (marketOp w).ctx)) :
    onMarket op s pass f = .next (discardCmd op s) := by
  rw [onMarket_of_record hh hp hr, if_pos (h.imp id (dispatchAgain_iff ..).2)]

variable (hl : (marketOp w).layer < r.layers) (ha : ¬ dispatchAgain op (marketOp w) (getCtx s (marketOp w).ctx))
include hl ha

theorem onMarket_of_waits (h : mktStep s = none ∨ ctxBusy s (marketOp w).ctx = true) : onMarket op s pass f = .next s := by
  rw [onMarket_of_record hh hp hr, if_neg (not_or.2 ⟨Nat.not_le.2 hl, mt (dispatchAgain_iff ..).1 ha⟩)]
  rcases h with h | h
  · rw [h]
  · cases mktStep s
    · rfl
    · exact congrArg _ (if_pos h)

theorem onMarket_of_starts {step : Nat} (hs : mktStep s = some step) (hb : ctxBusy s (marketOp w).ctx = false) :
    onMarket op s pass f = .next (f r (marketOp w) step (popCmd s)) := by
  rw [onMarket_of_record hh hp hr, if_neg (not_or.2 ⟨Nat.not_le.2 hl, mt (dispatchAgain_iff ..).1 ha⟩), hs]
  exact congrArg _ (if_neg (Bool.eq_false_iff.1 hb))

end

/-- The row of each market command. -/
def marketRow (op : Nat) (m : MOp) (rd : ReadEnd) : CtxRec → MOp → Nat → State → State :=
  if op = 0x21 then returnStarts rd else if m.pass = 0 then dispatchForward rd else dispatchReplay rd

theorem marketOp_pass (w : U64) : (marketOp w).pass = 0 ∨ (marketOp w).pass = 1 := by
  have : (marketOp w).pass < 2 := Nat.mod_lt _ (by decide)
  omega

/-- The row of a market command, as the rule that both passes share. -/
theorem exec_marketRow (hop : op = 0x20 ∨ op = 0x21) (w : U64) (rd : ReadEnd) (s : State) : ∃ pass : Option Nat,
    pass.any (fun p => p ≠ (marketOp w).pass) = false ∧
    exec (if op = 0x21 then .ret rd else if (marketOp w).pass = 0 then .dispatchForward rd else .dispatchReplay rd) s =
      onMarket op s pass (marketRow op (marketOp w) rd) := by
  rcases hop with rfl | rfl
  · rcases marketOp_pass w with h | h
    · exact ⟨some 0, by simp [h], by simp only [h, marketRow]; rfl⟩
    · exact ⟨some 1, by simp [h], by simp only [h, marketRow]; rfl⟩
  · exact ⟨none, rfl, rfl⟩

/-- The row of the other pass of a dispatch changes nothing. -/
theorem exec_otherDispatch (hh : headIs s 0x20 w rest) (rd : ReadEnd) :
    exec (if (marketOp w).pass = 0 then .dispatchReplay rd else .dispatchForward rd) s = .next s := by
  rcases marketOp_pass w with h | h
  · rw [if_pos h]
    exact onMarket_of_other_pass (pass := some 1) (f := dispatchReplay rd) hh (by simp [h])
  · rw [if_neg (by omega)]
    exact onMarket_of_other_pass (pass := some 0) (f := dispatchForward rd) hh (by simp [h])

/-- What every market command leaves once it has started. -/
structure marketBegan (m : MOp) (step : Nat) (r : CtxRec) (s u : State) : Prop where
  cmd : u.cmd = s.cmd
  cores : u.cores = s.cores
  ops : u.ops = s.ops
  forge : u.forge = s.forge
  record : (getCtx u m.ctx).record = some r
  step : (getCtx u m.ctx).step = step
  layer : (getCtx u m.ctx).layer = m.layer
  pass : (getCtx u m.ctx).pass = m.pass
  other : ∀ c, c ≠ m.ctx → tableWf {} s.mkt.ctx = true → getCtx u c = getCtx s c

theorem marketBegan_of_started {m : MOp} {step : Nat} {r : CtxRec} {u : State} {x : Ctx} (h : mktStarted m.ctx x s u)
    (h1 : x.record = some r) (h2 : x.step = step) (h3 : x.layer = m.layer) (h4 : x.pass = m.pass) : marketBegan m step r s u where
  cmd := h.cmd
  cores := h.cores
  ops := h.ops
  forge := h.forge
  record := h.self ▸ h1
  step := h.self ▸ h2
  layer := h.self ▸ h3
  pass := h.self ▸ h4
  other := h.other

section
variable {r : CtxRec} {m : MOp} (hr : (getCtx s m.ctx).record = some r) (rd : ReadEnd) (step : Nat)
include hr

theorem marketBegan_forward : marketBegan m step r s (dispatchForward rd r m step s) ∧
    (getCtx (dispatchForward rd r m step s) m.ctx).state = 1 ∧
    (getCtx (dispatchForward rd r m step s) m.ctx).returning = false ∧
    (m.pass = 0 → (getCtx (dispatchForward rd r m step s) m.ctx).lastLayer = some m.layer) ∧
    (getCtx (dispatchForward rd r m step s) m.ctx).asked = askedRanges r m (readsEnd rd s) (getCtx s m.ctx).mode := by
  obtain ⟨holds, ms, h⟩ := dispatchForward_starts (rd := rd) (step := step) hr
  rw [noteMissed_leaves] at h
  refine ⟨marketBegan_of_started h hr rfl rfl rfl, ?_⟩
  rw [h.self]
  exact ⟨rfl, rfl, fun hp => if_pos hp, rfl⟩

theorem marketBegan_replay : marketBegan m step r s (dispatchReplay rd r m step s) ∧
    (getCtx (dispatchReplay rd r m step s) m.ctx).state = 2 ∧
    (getCtx (dispatchReplay rd r m step s) m.ctx).returning = false ∧
    (getCtx (dispatchReplay rd r m step s) m.ctx).expect = ledgerRanges (readsEnd rd s) r m.layer (fun f => bitOf f 2) := by
  obtain ⟨is, ms, h⟩ := dispatchReplay_starts (rd := rd) (step := step) hr
  rw [noteMissed_leaves] at h
  refine ⟨marketBegan_of_started h hr rfl rfl rfl, ?_⟩
  rw [h.self]
  exact ⟨rfl, rfl, rfl⟩

theorem marketBegan_return : marketBegan m step r s (returnStarts rd r m step s) ∧
    (getCtx (returnStarts rd r m step s) m.ctx).returning = true ∧
    (getCtx (returnStarts rd r m step s) m.ctx).state = (getCtx s m.ctx).state := by
  obtain ⟨h, -⟩ := returnStarts_starts (rd := rd) (step := step) hr
  refine ⟨marketBegan_of_started h hr rfl rfl rfl, ?_⟩
  rw [h.self]
  exact ⟨rfl, rfl⟩

end

/-- Settles O55: one rule for when a market command starts, then what each of the three leaves of its context. -/
theorem marketCommandsStartOnAFreeContext : Obligations.MarketCommandsStartOnAFreeContext := by
  unfold Obligations.MarketCommandsStartOnAFreeContext
  intro s w rest op rd hop hh m i x t again
  obtain ⟨pass, hp, hrow⟩ := exec_marketRow hop w rd s
  have hpop : popCmd s = t := popCmd_of_headIs hh
  refine ⟨fun h => ?other, fun hr => ?noRecord, fun r hr => ⟨fun h => ?invalid, fun hl ha h => ?waits, fun hl ha step hst hb => ?starts⟩⟩
  case other =>
    subst h
    exact exec_otherDispatch hh rd
  case noRecord => exact (hrow.trans (onMarket_of_no_record hh hp hr)).trans (congrArg _ (discardCmd_of_headIs hh op))
  case invalid => exact (hrow.trans (onMarket_of_invalid hh hp hr h)).trans (congrArg _ (discardCmd_of_headIs hh op))
  case waits => exact hrow.trans (onMarket_of_waits hh hp hr hl ha h)
  case starts =>
    have hu := hrow.trans (onMarket_of_starts hh hp hr hl ha hst hb)
    rw [hpop] at hu
    have hr' : (getCtx t m.ctx).record = some r := hr
    have hret : ¬ (0x20 : Nat) = 0x21 := by decide
    rcases hop with rfl | rfl
    · rcases marketOp_pass w with h0 | h1
      · obtain ⟨hb, hstate, hretn, hlast, hasked⟩ := marketBegan_forward hr' rd step
        have hf : marketRow 0x20 (marketOp w) rd = dispatchForward rd := (if_neg hret).trans (if_pos h0)
        have hpass : m.pass = 0 := h0
        rw [hf] at hu
        refine ⟨_, hu, congrArg (fun c => c.fifo) hb.cmd, hb.cores, hb.ops, hb.forge, hb.record, hb.step, hb.layer, hb.pass, hb.other,
          fun _ => ⟨hstate.trans (congrArg (· + 1) hpass.symm), hretn⟩, fun _ => hlast, ⟨fun _ _ => hasked, fun _ h => ?_,
              fun h => absurd h hret⟩,
          fun h => absurd h hret⟩
        rw [hpass] at h
        cases h
      · obtain ⟨hb, hstate, hretn, hexpect⟩ := marketBegan_replay hr' rd step
        have hpass : m.pass = 1 := h1
        have hne : ¬ m.pass = 0 := by omega
        have hf : marketRow 0x20 (marketOp w) rd = dispatchReplay rd := (if_neg hret).trans (if_neg hne)
        rw [hf] at hu
        exact ⟨_, hu, congrArg (fun c => c.fifo) hb.cmd, hb.cores, hb.ops, hb.forge, hb.record, hb.step, hb.layer, hb.pass, hb.other,
          fun _ => ⟨hstate.trans (congrArg (· + 1) hpass.symm), hretn⟩, fun _ h => absurd h hne,
          ⟨fun _ h => absurd h hne, fun _ _ => hexpect, fun h => absurd h hret⟩, fun h => absurd h hret⟩
    · obtain ⟨hb, hretn, hstate⟩ := marketBegan_return hr' rd step
      obtain ⟨-, heq⟩ := returnStarts_starts (rd := rd) (step := step) hr'
      have hne : ¬ (0x21 : Nat) = 0x20 := by decide
      exact ⟨_, hu, congrArg (fun c => c.fifo) hb.cmd, hb.cores, hb.ops, hb.forge, hb.record, hb.step, hb.layer, hb.pass, hb.other,
        fun h => absurd h hne, fun h => absurd h hne,
        ⟨fun h => absurd h hne, fun h => absurd h hne, fun _ => heq⟩, fun _ => ⟨hretn, hstate⟩⟩

end Sys2Proof.Machine
end


section
namespace Sys2Proof.Machine
open Sys2Proof
variable {s : State} {g : Nat}

/-! #### Crier frames -/

theorem crierReceive_of_none (h : tget [] (getGate s g).rxBuf 0 = []) : crierReceive g s = s := by rw [crierReceive, h]

section
variable {f : Bytes} {fs : List Bytes} (hf : tget [] (getGate s g).rxBuf 0 = f :: fs)
include hf

theorem crierReceive_of_length (h : numAt f 3 2 = 0 ∨ 512 < numAt f 3 2) : crierReceive g s =
    badFrame g (field (numAt f 5 4) 17 0) (field (numAt f 9 4) 17 0) (slice f 13 16) (popRx g 0 1 s) := by
  rw [crierReceive, hf]
  exact if_pos h

/-- A frame of a valid length: it waits for its flits, and is routed when its CRC holds. -/
theorem crierReceive_of_frame (h1 : 1 ≤ numAt f 3 2) (h2 : numAt f 3 2 ≤ 512) : crierReceive g s =
    let n := (numAt f 3 2 + 71) / 56
    let b := (((f :: fs).take n).flatMap (fun x => x.drop 1)).take (16 + numAt f 3 2)
    if fs.length + 1 < n then s
    else if crcGood b then routeFrame g (field (numAt b 4 4) 17 0) (field (numAt b 8 4) 17 0) (slice b 12 (numAt f 3 2))
      (((f :: fs).take n).map (fun x => x.drop 1)) (popRx g 0 n s)
    else badFrame g (field (numAt b 4 4) 17 0) (field (numAt b 8 4) 17 0) (slice b 12 (numAt f 3 2)) (popRx g 0 n s) := by
  have hlen : ¬ (numAt f 3 2 = 0 ∨ 512 < numAt f 3 2) := by omega
  have hn : crierLen f = (numAt f 3 2 + 71) / 56 := (if_neg hlen).trans (by omega)
  rw [crierReceive, hf]
  exact (if_neg hlen).trans (by rw [hn]; rfl)

end

/-- A market frame is held once for its kind, its type and its turn. -/
def frameHit (s : State) (counts : Bool) (type : Nat) (x : MFrame) : Bool :=
  (x.counts == counts) && decide (frameType x = type) && decide (frameTurn s x ≠ .wait)

/-- The state once a frame has been taken from those held. -/
def frameTaken (x : MFrame) (s : State) : State := { s with mkt := { s.mkt with frames := s.mkt.frames.erase x } }

section
variable {counts : Bool} {type mode : Nat} {f : CtxRec → MOp → MFrame → State → State} (hs : live s = true)
include hs

theorem onFrame_of_none (h : s.mkt.frames.find? (frameHit s counts type) = none) :
    onFrame counts type mode s f = .next s := by
  refine (act_of_live hs _).trans (congrArg _ ?_)
  unfold frameHit at h
  simp only [h]

variable {x : MFrame} (h : s.mkt.frames.find? (frameHit s counts type) = some x)
include h

theorem onFrame_of_no_record (hr : (getCtx s (frameOp x).ctx).record = none) : onFrame counts type mode s f =
    .next (raise 0x0C type (uGate (if x.gate < 96 then x.gate else 0)) (frameOp x).code x.src (frameTaken x s)) := by
  have hr' : (getCtx (frameTaken x s) (frameOp x).ctx).record = none := hr
  refine (act_of_live hs _).trans (congrArg _ ?_)
  unfold frameHit at h
  unfold frameTaken at hr'
  simp only [h, hr']
  rfl

theorem onFrame_of_record {r : CtxRec} (hr : (getCtx s (frameOp x).ctx).record = some r) : onFrame counts type mode s f =
    .next (if (getCtx s (frameOp x).ctx).mode ≠ mode then
        raise 0x0C type (uGate r.stallGate) (mktInfo r (frameOp x)) x.src (frameTaken x s)
      else if frameTurn s x = .late then raise 0x08 0 (uGate r.stallGate) (mktInfo r (frameOp x)) x.src
        (modCtx (frameOp x).ctx (fun c => { c with missed := c.missed.erase (frameKey x) }) (frameTaken x s))
      else f r (frameOp x) x (frameTaken x s)) := by
  have hr' : (getCtx (frameTaken x s) (frameOp x).ctx).record = some r := hr
  refine (act_of_live hs _).trans (congrArg _ ?_)
  unfold frameHit at h
  unfold frameTaken at hr'
  simp only [h, hr']
  rfl

end

/-- The rows that take a frame: the kind, the type and the mode of the frames they take, and what they do with one. -/
def frameRows (rd : ReadEnd) : List (Instr × Bool × Nat × Nat × (CtxRec → MOp → MFrame → State → State)) :=
  [(Instr.countsFrame, false, 1, 0, takeCounts), (.countsRequest, true, 1, 1, takeCounts),
    (.grantFrame rd, false, 2, 0, takeGrant rd), (.countsReply rd, true, 2, 1, takeReply rd), (.rowFrame, false, 3, 2, takeRow),
    (.returnRowFrame, false, 4, 2, takeReturnRow)]

theorem exec_frameRow {rd : ReadEnd} {row : Instr × Bool × Nat × Nat × (CtxRec → MOp → MFrame → State → State)}
    (h : row ∈ frameRows rd) (s : State) : exec row.1 s = onFrame row.2.1 row.2.2.1 row.2.2.2.1 s row.2.2.2.2 := by
  simp only [frameRows, List.mem_cons, List.not_mem_nil, or_false] at h
  obtain rfl | rfl | rfl | rfl | rfl | rfl := h <;> rfl

/-! #### Counts -/

section
variable {r : CtxRec} {m : MOp} {f : MFrame}

theorem takeCounts_of_new (hp : (getCtx s m.ctx).posting = true) (ha : (getCtx s m.ctx).allocated = false)
    (hn : ∀ c ∈ (getCtx s m.ctx).counts, c.1 ≠ f.src) : takeCounts r m f s = modCtx m.ctx (fun x => { x with
      counts := x.counts ++ [(f.src, (frameEntries f.body).map (fun e => (e.1, e.2.1, e.2.2.1)))]
      arrivals := x.arrivals ++ [(f.src, f.gate)] }) s := by
  have hany : (getCtx s m.ctx).counts.any (fun c => c.1 == f.src) = false := by
    rw [← Bool.not_eq_true, List.any_eq_true]
    rintro ⟨c, hc, h⟩
    exact hn c hc (by simpa using h)
  simp only [takeCounts, hp, ha, hany, Bool.not_true, Bool.or_self, Bool.false_eq_true, if_false]

theorem takeCounts_of_late (h : (getCtx s m.ctx).posting = false ∨ (getCtx s m.ctx).allocated = true ∨
    (∃ c ∈ (getCtx s m.ctx).counts, c.1 = f.src)) : takeCounts r m f s =
      raise 0x08 0 (uGate r.stallGate) (mktInfo r m) f.src (modCtx m.ctx (fun x => { x with
        counts := if x.counts.any (fun c => c.1 == f.src) then x.counts else x.counts ++ [(f.src, [])] }) s) := by
  have hcond : (!(getCtx s m.ctx).posting || (getCtx s m.ctx).allocated ||
      (getCtx s m.ctx).counts.any (fun c => c.1 == f.src)) = true := by
    rcases h with h | h | ⟨c, hc, h⟩
    · simp [h]
    · simp [h]
    · have hany : (getCtx s m.ctx).counts.any (fun c => c.1 == f.src) = true := List.any_eq_true.2 ⟨c, hc, by simpa using h⟩
      simp [hany]
  simp only [takeCounts, hcond, if_true]

end

/-- Settles O56: the frames at a gate by their length and CRC, the frames held by the row that takes them. -/
theorem marketFramesAreTakenOrReported : Obligations.MarketFramesAreTakenOrReported := by
  unfold Obligations.MarketFramesAreTakenOrReported
  intro s hs
  refine ⟨fun g hg => ?criers, fun g src dst b => rfl, fun rd row hrow => ?rows, fun r m f => ?counts⟩
  case criers =>
    have hrow : exec (.crierFrameReceive g) s = .next (crierReceive g s) := actOn_of_live hs hg _
    refine ⟨fun h => hrow.trans (congrArg _ (crierReceive_of_none h)),
      fun f fs hf h => hrow.trans (congrArg _ (crierReceive_of_length hf h)), fun f fs hf h1 h2 => ?_⟩
    intro n b
    have heq := hrow.trans (congrArg _ (crierReceive_of_frame hf h1 h2))
    refine ⟨fun hn => heq.trans (congrArg _ (if_pos hn)), fun hn hc => heq.trans (congrArg _ ?_),
      fun hn hc => heq.trans (congrArg _ ?_)⟩
    · exact (if_neg (Nat.not_lt.2 hn)).trans (if_neg (Bool.eq_false_iff.1 hc))
    · exact (if_neg (Nat.not_lt.2 hn)).trans (if_pos hc)
  case rows =>
    have heq := exec_frameRow (rd := rd) hrow s
    refine ⟨fun h => heq.trans (onFrame_of_none hs h), fun x hx => ⟨fun hr => heq.trans (onFrame_of_no_record hs hx hr),
      fun r hr => ?_⟩⟩
    have hrec := heq.trans (onFrame_of_record hs hx hr)
    refine ⟨fun hm => hrec.trans (congrArg _ (if_pos hm)), fun hm ht => hrec.trans (congrArg _ ?_),
      fun hm ht => hrec.trans (congrArg _ ?_)⟩
    · exact (if_neg (Classical.not_not.2 hm)).trans (if_pos ht)
    · exact (if_neg (Classical.not_not.2 hm)).trans (if_neg (by rw [ht]; decide))
  case counts =>
    intro x t
    refine ⟨fun hp ha hn => ?_, fun h => takeCounts_of_late h⟩
    have ht : t = _ := takeCounts_of_new hp ha hn
    have hctx := getCtx_modCtx_self (s := s) (c := m.ctx) (f := fun x => { x with
      counts := x.counts ++ [(f.src, (frameEntries f.body).map (fun e => (e.1, e.2.1, e.2.2.1)))]
      arrivals := x.arrivals ++ [(f.src, f.gate)] }) fun h => by
        have := congrArg Ctx.counts h
        simp at this
    rw [ht]
    refine ⟨?_, ?_, rfl⟩
    · rw [hctx]
    · rw [hctx]

end Sys2Proof.Machine
end


section
namespace Sys2Proof.Machine
open Sys2Proof

/-! ### Stalls -/

/-! #### Instances in ascending order -/

theorem pairwise_insertBy {α : Type} (key : α → Nat) (a : α) {l : List α} (h : l.Pairwise (fun x y => key x ≤ key y)) :
    (insertBy key a l).Pairwise (fun x y => key x ≤ key y) := by
  induction l with
  | nil => exact List.pairwise_singleton ..
  | cons x l ih =>
    obtain ⟨hx, hl⟩ := List.pairwise_cons.1 h
    rw [insertBy]
    split
    · next hlt =>
      refine List.pairwise_cons.2 ⟨fun y hy => ?_, h⟩
      rcases List.mem_cons.1 hy with rfl | hy
      · exact Nat.le_of_lt hlt
      · exact Nat.le_trans (Nat.le_of_lt hlt) (hx y hy)
    · next hge =>
      refine List.pairwise_cons.2 ⟨fun y hy => ?_, ih hl⟩
      rcases (mem_insertBy ..).1 hy with rfl | hy
      · exact Nat.not_lt.1 hge
      · exact hx y hy

theorem pairwise_sortBy {α : Type} (key : α → Nat) (l : List α) : (sortBy key l).Pairwise (fun x y => key x ≤ key y) :=
  List.foldlRecOn (motive := fun (acc : List α) => acc.Pairwise (fun x y => key x ≤ key y)) l _ List.Pairwise.nil
    fun _ h a _ => pairwise_insertBy key a h

theorem dedup_sublist {α : Type} [BEq α] (l : List α) : (dedup l).Sublist l := by
  have h (l acc : List α) : ∃ l', l.foldl (fun acc a => if acc.contains a then acc else acc ++ [a]) acc = acc ++ l' ∧ l'.Sublist l := by
    induction l generalizing acc with
    | nil => exact ⟨[], by simp⟩
    | cons a l ih =>
      rw [List.foldl_cons]
      split
      · obtain ⟨l', he, hs⟩ := ih acc
        exact ⟨l', he, hs.cons _⟩
      · obtain ⟨l', he, hs⟩ := ih (acc ++ [a])
        exact ⟨a :: l', by simp [he], hs.cons_cons _⟩
  obtain ⟨l', he, hs⟩ := h l []
  rw [dedup, he]
  exact hs

theorem nodup_dedup {α : Type} [BEq α] [LawfulBEq α] (l : List α) : (dedup l).Nodup := by
  refine List.foldlRecOn (motive := List.Nodup) l _ List.nodup_nil fun acc h a _ => ?_
  split
  · exact h
  · next hn =>
    refine List.nodup_append.2 ⟨h, List.pairwise_singleton .., fun x hx y hy => ?_⟩
    rw [List.mem_singleton.1 hy]
    rintro rfl
    exact hn (List.contains_iff_mem.2 hx)

theorem pairwise_namedInsts (x : Ctx) : (namedInsts x).Pairwise (· < ·) := by
  have hle := (pairwise_sortBy id (x.counts.flatMap (fun c => c.2.map (·.1)))).sublist (dedup_sublist _)
  exact (hle.and (nodup_dedup _)).imp fun h => Nat.lt_of_le_of_ne h.1 h.2

/-! #### The slots of an allocation -/

/-- What the allocation has given out so far: the next free slot, whether the pool is exhausted, and the stalls. -/
structure allocSound (p : Nat) (clash : Bool) (is : List Nat) (a : Nat × Bool × List Alloc) : Prop where
  insts : a.2.2.map (fun x => x.inst) = is
  next : a.1 ≤ p
  within : ∀ x ∈ a.2.2, x.first + x.rows ≤ a.1 ∧ (x.status = 0 ∨ x.rows = 0)
  full : ∀ x ∈ a.2.2, x.status = 1 → a.2.1 = true ∧ clash = false
  apart : a.2.2.Pairwise (fun x y => x.first + x.rows ≤ y.first ∧ (x.status = 1 → y.status = 1))

/-- A stall behind those given out, which takes the slots from the next free one. -/
theorem allocSound_append {p : Nat} {clash : Bool} {is : List Nat} {next : Nat} {full full' : Bool} {out : List Alloc} {i : Nat}
    {x : Alloc} (h : allocSound p clash is (next, full, out)) (hi : x.inst = i) (hx : x.first = next) (hp : next + x.rows ≤ p)
    (hr : x.status = 0 ∨ x.rows = 0) (hfull : full = true → clash = false → x.status = 1) (hle : full = true → full' = true)
    (h1 : x.status = 1 → full' = true ∧ clash = false) :
    allocSound p clash (is ++ [i]) (next + x.rows, full', out ++ [x]) where
  insts := by
    rw [List.map_append, h.insts, List.map_singleton, hi]
  next := hp
  within y hy := by
    rcases List.mem_append.1 hy with hy | hy
    · obtain ⟨hy1, hy2⟩ := h.within y hy
      exact ⟨Nat.le_trans hy1 (Nat.le_add_right ..), hy2⟩
    · rw [List.mem_singleton.1 hy, hx]
      exact ⟨Nat.le_refl _, hr⟩
  full y hy hs := by
    rcases List.mem_append.1 hy with hy | hy
    · obtain ⟨hf, hc⟩ := h.full y hy hs
      exact ⟨hle hf, hc⟩
    · rw [List.mem_singleton.1 hy] at hs
      exact h1 hs
  apart := by
    refine List.pairwise_append.2 ⟨h.apart, List.pairwise_singleton .., fun y hy z hz => ?_⟩
    obtain ⟨hy1, -⟩ := h.within y hy
    rw [List.mem_singleton.1 hz, hx]
    refine ⟨hy1, fun hs => ?_⟩
    obtain ⟨hf, hc⟩ := h.full y hy hs
    exact hfull hf hc

theorem allocSound_allocStep {y : Ctx} {ms : List Nat} {p : Nat} {clash : Bool} {is : List Nat} {a : Nat × Bool × List Alloc}
    (h : allocSound p clash is a) (i : Nat) : allocSound p clash (is ++ [i]) (allocStep y ms p clash a i) := by
  obtain ⟨next, full, out⟩ := a
  have hnext : next ≤ p := h.next
  simp only [allocStep]
  generalize ms.map (fun m => (m, countOf y m i)) = cs
  generalize cs.foldl (fun n c => n + c.2.1) 0 = tot
  split
  · next hc =>
    exact allocSound_append (x := ⟨i, next, 0, 4, []⟩) h rfl rfl hnext (.inr rfl)
      (fun _ h0 => by rw [hc] at h0; cases h0) id (fun h => by cases h)
  · next hc =>
    split
    · exact allocSound_append (x := ⟨i, next, 0, 1, []⟩) h rfl rfl hnext (.inr rfl)
        (fun _ _ => rfl) (fun _ => rfl) fun _ => ⟨rfl, by simpa using hc⟩
    · next hroom =>
      have hfit : full = false ∧ next + tot ≤ p := by simpa using hroom
      obtain ⟨hf, hfit⟩ := hfit
      exact allocSound_append (x := ⟨i, next, tot, 0, layParts next cs⟩) h rfl rfl hfit (.inl rfl)
        (fun h0 => by rw [hf] at h0; cases h0) id (fun h => by cases h)

theorem allocSound_foldl {y : Ctx} {ms : List Nat} {p : Nat} {clash : Bool} {done : List Nat} {a : Nat × Bool × List Alloc}
    (h : allocSound p clash done a) (is : List Nat) :
    allocSound p clash (done ++ is) (is.foldl (allocStep y ms p clash) a) := by
  induction is generalizing done a with
  | nil => rwa [List.append_nil]
  | cons i is ih =>
    rw [List.append_cons]
    exact ih (allocSound_allocStep h i)

theorem allocSound_allocate (y : Ctx) (ms : List Nat) (p : Nat) (clash : Bool) (is : List Nat) :
    allocSound p clash is (is.foldl (allocStep y ms p clash) (0, false, [])) :=
  allocSound_foldl (done := []) ⟨rfl, Nat.zero_le p, by simp, by simp, List.Pairwise.nil⟩ is

theorem allocate_sound (y : Ctx) (ms : List Nat) (p : Nat) : (allocate y ms p).map (fun a => a.inst) = namedInsts y ∧
    (namedInsts y).Pairwise (· < ·) ∧ (∀ a ∈ allocate y ms p, a.first + a.rows ≤ p ∧ (a.status = 0 ∨ a.rows = 0)) ∧
    (allocate y ms p).Pairwise (fun a b => a.first + a.rows ≤ b.first ∧ (a.status = 1 → b.status = 1)) := by
  have h := allocSound_allocate y ms p (instClash (namedInsts y)) (namedInsts y)
  refine ⟨h.insts, pairwise_namedInsts y, fun a ha => ?_, h.apart⟩
  obtain ⟨h1, h2⟩ := h.within a ha
  exact ⟨Nat.le_trans h1 h.next, h2⟩

end Sys2Proof.Machine
end


section
namespace Sys2Proof.Machine
open Sys2Proof
variable {s t : State} {c : Nat}

/-! #### What the rows of a range write -/

/-- From `s` to `t` no context, core, operation, gate or fault counter changes: only host memory, the wells and the mode. -/
structure mktWritten (s t : State) : Prop where
  ctx : t.mkt.ctx = s.mkt.ctx
  cores : t.cores = s.cores
  ops : t.ops = s.ops
  gates : t.gates = s.gates
  faultCnt : t.faultCnt = s.faultCnt

theorem mktWritten_refl (s : State) : mktWritten s s := ⟨rfl, rfl, rfl, rfl, rfl⟩

theorem mktWritten_trans {a b d : State} (h1 : mktWritten a b) (h2 : mktWritten b d) : mktWritten a d :=
  ⟨h2.ctx.trans h1.ctx, h2.cores.trans h1.cores, h2.ops.trans h1.ops, h2.gates.trans h1.gates, h2.faultCnt.trans h1.faultCnt⟩

theorem mktWritten_foldl {α : Type} {f : State → α → State} (hf : ∀ s x, mktWritten s (f s x)) (l : List α) (s : State) :
    mktWritten s (l.foldl f s) := by
  induction l generalizing s with
  | nil => exact mktWritten_refl s
  | cons x l ih => exact mktWritten_trans (hf s x) (ih _)

theorem mktWritten_postWrite (o : Owner) (a : Nat) (bs : Bytes) (p : Bool) (s : State) : mktWritten s (postWrite o a bs p s) := by
  have h : postWrite o a bs p s = _ := postWriteAs_leaves ..
  rw [h]
  exact ⟨rfl, rfl, rfl, rfl, rfl⟩

theorem mktWritten_setModeAt (p b : Nat) (s : State) : mktWritten s (setModeAt p b s) := by
  unfold setModeAt setMode
  split
  · exact mktWritten_refl s
  · split <;> exact ⟨rfl, rfl, rfl, rfl, rfl⟩

theorem mktWritten_headerFlag (r : CtxRec) (l t b : Nat) (s : State) : mktWritten s (headerFlag r l t b s) :=
  mktWritten_postWrite ..

theorem mktWritten_cutCopy (r : CtxRec) (l b : Nat) (s : State) (e : BookEnt) : mktWritten s (cutCopy r l b s e) :=
  mktWritten_trans (mktWritten_postWrite ..) (mktWritten_headerFlag ..)

/-! #### Flags of a context -/

theorem bitOf_setBit (v i : Nat) : bitOf (setBit v i) i = true := by
  unfold setBit
  split
  · assumption
  · next h =>
    rw [bitOf, beq_iff_eq] at h
    rw [bitOf, Nat.add_div_right _ (Nat.two_pow_pos i), beq_iff_eq]
    omega

theorem setBit_setBit (v i : Nat) : setBit (setBit v i) i = setBit v i := if_pos (bitOf_setBit v i)

theorem two_pow_add_succ (i k : Nat) : 2 ^ (i + k + 1) = 2 ^ i * (2 * 2 ^ k) := by
  rw [Nat.pow_succ, Nat.pow_add, Nat.mul_assoc, Nat.mul_comm (2 ^ k)]

/-- Setting a bit clears none. -/
theorem bitOf_setBit_of {v i : Nat} (j : Nat) (h : bitOf v j = true) : bitOf (setBit v i) j = true := by
  unfold setBit
  split
  · exact h
  · next hi =>
    rw [bitOf, beq_iff_eq] at h hi ⊢
    rw [← h]
    rcases Nat.lt_trichotomy j i with hj | rfl | hj
    · obtain ⟨k, rfl⟩ := Nat.exists_eq_add_of_lt hj
      rw [two_pow_add_succ, Nat.add_mul_div_left _ _ (Nat.two_pow_pos j),
        Nat.add_mul_mod_self_left]
    · exact absurd h hi
    · obtain ⟨k, rfl⟩ := Nat.exists_eq_add_of_lt hj
      rw [two_pow_add_succ, ← Nat.div_div_eq_div_mul, ← Nat.div_div_eq_div_mul,
        ← Nat.div_div_eq_div_mul, ← Nat.div_div_eq_div_mul, Nat.add_div_right _ (Nat.two_pow_pos i)]
      congr 2
      omega

/-! #### The end of the wait for grants -/

/-- Refusing a range sets the refused bit of its context. -/
theorem getCtx_refuseRange {m : MOp} {r r0 : CtxRec} (p : Nat) (g : MRange) (hr : (getCtx s m.ctx).record = some r0) :
    getCtx (refuseRange m r p g s) m.ctx = { getCtx s m.ctx with bits := setBit (getCtx s m.ctx).bits mkRefused } := by
  unfold refuseRange
  extract_lets s1
  have h1 : getCtx s1 m.ctx = getCtx s m.ctx := getCtx_of_ctx (mktWritten_foldl (mktWritten_cutCopy r m.layer 25) _ s).ctx _
  rw [getCtx_of_ctx (mktWritten_setModeAt ..).ctx, setCtxBit, getCtx_modCtx_of_record (r := r0) (by rwa [h1]), h1]

/-- The ranges refused of context `c` leave it as it was, apart from its refused bit. -/
theorem refused_foldl {m : MOp} {r r0 : CtxRec} (p : Nat) (l : List MRange) (hr : (getCtx s m.ctx).record = some r0) :
    let t := l.foldl (fun u g => refuseRange m r p g u) s
    getCtx t m.ctx = { getCtx s m.ctx with
      bits := if l = [] then (getCtx s m.ctx).bits else setBit (getCtx s m.ctx).bits mkRefused } ∧
    t.cores = s.cores ∧ t.ops = s.ops ∧ t.gates = s.gates ∧ t.faultCnt = s.faultCnt := by
  induction l generalizing s with
  | nil => exact ⟨rfl, rfl, rfl, rfl, rfl⟩
  | cons g l ih =>
    have h1 := getCtx_refuseRange (r := r) p g hr
    have hw := mktWritten_foldl (mktWritten_cutCopy r m.layer 25) (rangeEntries s r m.layer g) s
    have hm := mktWritten_setModeAt p mfMarket
      (setCtxBit m.ctx mkRefused ((rangeEntries s r m.layer g).foldl (cutCopy r m.layer 25) s))
    obtain ⟨hx, hcores, hops, hgates, hcnt⟩ := ih (s := refuseRange m r p g s) (by rw [h1]; exact hr)
    refine ⟨?_, hcores.trans (hm.cores.trans hw.cores), hops.trans (hm.ops.trans hw.ops), hgates.trans (hm.gates.trans hw.gates),
      hcnt.trans (hm.faultCnt.trans hw.faultCnt)⟩
    rw [List.foldl_cons, hx, h1, if_neg (List.cons_ne_nil g l)]
    split
    · rfl
    · rw [setBit_setBit]

/-! #### What an allocation tells -/

/-- From `s` to `t` context `c`, while it has a record, keeps everything but its flags and its count of drops and clears no flag,
and no core or operation changes. -/
structure ctxNoted (c : Nat) (s t : State) : Prop where
  ctx : ∀ r, (getCtx s c).record = some r → ∃ b d, getCtx t c = { getCtx s c with bits := b, drop := d } ∧
    ∀ i, bitOf (getCtx s c).bits i = true → bitOf b i = true
  cores : t.cores = s.cores
  ops : t.ops = s.ops

theorem ctxNoted_of_sent (h : mktSent s t) : ctxNoted c s t := ⟨fun _ _ => ⟨_, _, getCtx_of_ctx h.ctx c, fun _ => id⟩, h.cores, h.ops⟩

theorem ctxNoted_of_written (h : mktWritten s t) : ctxNoted c s t := ⟨fun _ _ => ⟨_, _, getCtx_of_ctx h.ctx c, fun _ => id⟩, h.cores, h.ops⟩

theorem ctxNoted_refl (s : State) : ctxNoted c s s := ctxNoted_of_sent (mktSent_refl s)

theorem ctxNoted_trans {a b d : State} (h1 : ctxNoted c a b) (h2 : ctxNoted c b d) : ctxNoted c a d where
  ctx r hr := by
    obtain ⟨b1, d1, he1, hb1⟩ := h1.ctx r hr
    obtain ⟨b2, d2, he2, hb2⟩ := h2.ctx r (by rw [he1]; exact hr)
    exact ⟨b2, d2, by rw [he2, he1], fun i hi => hb2 i (by rw [he1]; exact hb1 i hi)⟩
  cores := h2.cores.trans h1.cores
  ops := h2.ops.trans h1.ops

theorem ctxNoted_ite {a b : State} {p : Prop} [Decidable p] (ha : ctxNoted c s a) (hb : ctxNoted c s b) :
    ctxNoted c s (if p then a else b) := by
  split <;> assumption

theorem ctxNoted_foldl {α : Type} {f : State → α → State} (hf : ∀ s x, ctxNoted c s (f s x)) (l : List α) (s : State) :
    ctxNoted c s (l.foldl f s) := by
  induction l generalizing s with
  | nil => exact ctxNoted_refl s
  | cons x l ih => exact ctxNoted_trans (hf s x) (ih _)

theorem ctxNoted_setCtxBit (b : Nat) (s : State) : ctxNoted c s (setCtxBit c b s) :=
  ⟨fun r hr => ⟨_, _, getCtx_modCtx_of_record (r := r) hr, fun i hi => bitOf_setBit_of i hi⟩, rfl, rfl⟩

theorem ctxNoted_exhaust (k d u a b : Nat) (s : State) :
    ctxNoted c s (setCtxBit c mkExhausted (raise k d u a b s)) :=
  ctxNoted_trans (ctxNoted_of_sent (mktSent_raise ..)) (ctxNoted_setCtxBit ..)

theorem ctxNoted_drop (n : Nat) (s : State) : ctxNoted c s (modCtx c (fun x => { x with drop := (x.drop + n) % 2 ^ 16 }) s) :=
  ⟨fun r hr => ⟨_, _, getCtx_modCtx_of_record (r := r) hr, fun _ => id⟩, rfl, rfl⟩

theorem ctxNoted_addCount (s : State) (i : MInst) : ctxNoted c s (addCount c s i) := by
  unfold addCount
  generalize int32Add _ _ = sum
  obtain ⟨v, sat⟩ := sum
  have h1 : ctxNoted c s { s with mkt := { s.mkt with
      count := tset 0 s.mkt.count i.inst (BitVec.ofNat 32 (unsignedOf 32 v)) } } := ctxNoted_of_sent ⟨rfl, rfl, rfl, rfl, rfl⟩
  exact ctxNoted_ite (ctxNoted_trans h1 (ctxNoted_setCtxBit ..)) h1

theorem ctxNoted_sendGrants (r : CtxRec) (m : MOp) (x : Ctx) (as : List Alloc) (ms mine : List Nat) (s : State) :
    ctxNoted c s (sendGrants r m x as ms mine s) :=
  ctxNoted_foldl (fun u _ => ctxNoted_ite (ctxNoted_ite (ctxNoted_refl u) (ctxNoted_of_sent (mktSent_sendFrame ..)))
    (ctxNoted_of_sent (mktSent_sendFrame ..))) _ s

theorem ctxNoted_replyTo (r : CtxRec) (m : MOp) (x : Ctx) (as : List (Alloc × Nat)) (s : State) (src : Nat) :
    ctxNoted c s (replyTo r m x as s src) :=
  ctxNoted_ite (ctxNoted_refl s) (ctxNoted_of_sent (mktSent_sendMktChunk ..))

/-- What a context that got its stalls holds in the end. -/
structure ctxAllocated (c : Nat) (x : Ctx) (is : List MInst) (es : List MRange) (s t : State) : Prop where
  ctx : ∃ b d, getCtx t c = { x with allocated := true, insts := is, expect := es, bits := b, drop := d }
  cores : t.cores = s.cores
  ops : t.ops = s.ops

/-- Stalls whose tags are written, that are fixed in the context, and that are told to their members. -/
theorem ctxAllocated_of_noted {u : State} {m : MOp} {r r0 : CtxRec} {is : List MInst} {es : List MRange} (h1 : mktWritten s u)
    (hr : (getCtx s m.ctx).record = some r0) (h2 : ctxNoted m.ctx (allocated m r is es u) t) :
    ctxAllocated m.ctx (getCtx s m.ctx) is es s t := by
  have hx : getCtx u m.ctx = getCtx s m.ctx := getCtx_of_ctx h1.ctx _
  have hset := getCtx_modCtx_of_record (s := u) (c := m.ctx)
    (f := fun x => { x with allocated := true, insts := is, expect := es }) (r := r0) (by rwa [hx])
  have hcount : ctxNoted m.ctx (modCtx m.ctx (fun x => { x with allocated := true, insts := is, expect := es }) u) t :=
    ctxNoted_trans (ctxNoted_ite (ctxNoted_foldl ctxNoted_addCount _ _) (ctxNoted_refl _)) h2
  obtain ⟨b, d, he, -⟩ := hcount.ctx r0 (by rw [hset, hx]; exact hr)
  exact ⟨⟨b, d, by rw [he, hset, hx]⟩, hcount.cores.trans h1.cores, hcount.ops.trans h1.ops⟩

theorem mktWritten_writeTags (r : CtxRec) (l : Nat) (s : State) (p : Nat × Nat × Nat × Nat) :
    mktWritten s (writeTags r l s p) := mktWritten_postWrite ..

theorem mktWritten_padStall (r : CtxRec) (l n : Nat) (s : State) (a : Alloc) : mktWritten s (padStall r l n s a) := by
  unfold padStall
  extract_lets st k at_
  split
  · exact mktWritten_refl s
  · exact mktWritten_trans (mktWritten_postWrite ..) (mktWritten_postWrite ..)

/-- The instances that a grant holder takes. -/
def grantInsts (missing : Bool) (as : List Alloc) : List MInst :=
  as.map fun a => ⟨a.inst, a.first, a.rows, a.rows, 4 * b2n (decide (a.status ≠ 0) || missing)⟩

theorem stallAllocate_allocates {r : CtxRec} (hr : (getCtx s c).record = some r) (hp : (getCtx s c).posting = true)
    (ha : (getCtx s c).allocated = false) (hs : (getCtx s c).state ≠ 0) (hm : (getCtx s c).mode = 0) :
    ∃ k, ctxAllocated c (getCtx s c) (grantInsts k (allocate (getCtx s c) (mktMembers s r) r.pool))
      (expectOf (allocate (getCtx s c) (mktMembers s r) r.pool)) s (stallAllocate c s) := by
  have hgo : (!(getCtx s c).posting || (getCtx s c).allocated || decide ((getCtx s c).mode ≠ 0) ||
      decide ((getCtx s c).state = 0)) = false := by simp [hp, ha, hs, hm]
  unfold stallAllocate
  extract_lets x m
  split
  · next h => rw [hr] at h; cases h
  · next r' h =>
    obtain rfl : r' = r := Option.some.inj (h.symm.trans hr)
    rw [if_neg (by rw [hgo]; exact Bool.false_ne_true)]
    extract_lets ms as missing u is v w mkt w'
    have hu : mktWritten s u := mktWritten_foldl (fun u a => mktWritten_foldl (mktWritten_writeTags r' _) _ u) _ s
    have hw : ctxNoted c v w := ctxNoted_exhaust ..
    have hw' : ctxNoted c v w' :=
      ctxNoted_ite (ctxNoted_ite (ctxNoted_trans hw (ctxNoted_of_sent ⟨rfl, rfl, rfl, rfl, rfl⟩)) hw) (ctxNoted_refl v)
    exact ⟨missing, ctxAllocated_of_noted (m := m) hu hr (ctxNoted_trans hw' (ctxNoted_sendGrants ..))⟩

/-- The stalls that a context in capacity mode takes. -/
def admitInsts (cap : Nat) (fix missing : Bool) (as : List (Alloc × Nat)) : List MInst :=
  as.map fun a => ⟨a.1.inst, a.1.first, cap, if fix then a.1.rows else cap, 4 * b2n missing + 8 * b2n (decide (0 < a.2))⟩

/-- What capacity mode admits of each expert group. -/
def admitted (s : State) (r : CtxRec) (x : Ctx) : List (Alloc × Nat) :=
  (dedup (sortBy id (namedInsts x ++ myInsts s r x.layer))).map
    (admitInst x (mktMembers s r) (48 * r.units) (keepOrder s r x))

theorem capacityAdmit_allocates {r : CtxRec} (hr : (getCtx s c).record = some r) (hp : (getCtx s c).posting = true)
    (ha : (getCtx s c).allocated = false) (hs : (getCtx s c).state ≠ 0) (hm : (getCtx s c).mode = 1) :
    ∃ fix k, ctxAllocated c (getCtx s c) (admitInsts (48 * r.units) fix k (admitted s r (getCtx s c)))
      (expectOf ((admitted s r (getCtx s c)).map (·.1))) s (capacityAdmit c s) := by
  have hgo : (!(getCtx s c).posting || (getCtx s c).allocated || decide ((getCtx s c).mode ≠ 1) ||
      decide ((getCtx s c).state = 0)) = false := by simp [hp, ha, hs, hm]
  unfold capacityAdmit
  extract_lets x m
  split
  · next h => rw [hr] at h; cases h
  · next r' h =>
    obtain rfl : r' = r := Option.some.inj (h.symm.trans hr)
    rw [if_neg (by rw [hgo]; exact Bool.false_ne_true)]
    extract_lets ms cap order js as missing u received is v dropped w w'
    have hu : mktWritten s u := mktWritten_foldl (fun u a => mktWritten_trans
      (mktWritten_foldl (mktWritten_writeTags r' _) _ u) (mktWritten_padStall ..)) _ s
    have hw : ctxNoted c v w := ctxNoted_drop ..
    have hw' : ctxNoted c v w' :=
      ctxNoted_ite (ctxNoted_trans hw (ctxNoted_of_written (mktWritten_setModeAt ..))) hw
    exact ⟨u.mkt.divFixUsed, missing, ctxAllocated_of_noted (m := m) hu hr
      (ctxNoted_trans hw' (ctxNoted_foldl (ctxNoted_replyTo r' m x as) _ _))⟩

/-! #### The rows -/

theorem stallAllocate_of_not (h : (getCtx s c).record = none ∨ (getCtx s c).posting = false ∨ (getCtx s c).allocated = true ∨
    (getCtx s c).state = 0 ∨ (getCtx s c).mode ≠ 0) : stallAllocate c s = s := by
  unfold stallAllocate
  extract_lets x m
  split
  · rfl
  · next r hr =>
    refine if_pos ?_
    rcases h with h | h | h | h | h
    · rw [show x.record = none from h] at hr; cases hr
    all_goals simp [x, h]

theorem capacityAdmit_of_not (h : (getCtx s c).record = none ∨ (getCtx s c).posting = false ∨ (getCtx s c).allocated = true ∨
    (getCtx s c).state = 0 ∨ (getCtx s c).mode ≠ 1) : capacityAdmit c s = s := by
  unfold capacityAdmit
  extract_lets x m
  split
  · rfl
  · next r hr =>
    refine if_pos ?_
    rcases h with h | h | h | h | h
    · rw [show x.record = none from h] at hr; cases hr
    all_goals simp [x, h]

theorem grantDeadline_of_record {r : CtxRec} (hr : (getCtx s c).record = some r) :
    grantDeadline c s = modCtx c (fun y => { y with asked := [] })
      ((getCtx s c).asked.foldl (fun u g => refuseRange (openOp c (getCtx s c)) r (getCtx s c).step g u) s) := by
  simp only [grantDeadline, hr]

/-- Settles O57: each row acts only on a context with a record that waits for its stalls; the sorted instances take their
slots one after another. -/
theorem stallsAreAllocatedInOrder : Obligations.StallsAreAllocatedInOrder := by
  intro s c hs hc x
  have hmod : c % 32 = c := Nat.mod_eq_of_lt hc
  have hstall : exec (.stallAllocate c) s = .next (stallAllocate c s) := by
    rw [← congrArg (stallAllocate · s) hmod]; exact act_of_live hs _
  have hadmit : exec (.capacityAdmit c) s = .next (capacityAdmit c s) := by
    rw [← congrArg (capacityAdmit · s) hmod]; exact act_of_live hs _
  have hend : exec (.grantDeadline c) s = .next (grantDeadline c s) := by
    rw [← congrArg (grantDeadline · s) hmod]; exact act_of_live hs _
  refine ⟨?noRecord, ?noStall, ?noAdmit, ?starts, ?deadline, allocate_sound⟩
  case noRecord =>
    intro h
    refine ⟨hstall.trans (congrArg _ (stallAllocate_of_not (.inl h))), hadmit.trans (congrArg _ (capacityAdmit_of_not (.inl h))),
      hend.trans (congrArg _ ?_)⟩
    simp only [grantDeadline, show (getCtx s c).record = none from h]
  case noStall => exact fun h => hstall.trans (congrArg _ (stallAllocate_of_not (.inr h)))
  case noAdmit => exact fun h => hadmit.trans (congrArg _ (capacityAdmit_of_not (.inr h)))
  case starts =>
    intro r hr hp ha hst
    refine ⟨fun hm => ?_, fun hm => ?_⟩
    · obtain ⟨k, ⟨b, d, hx⟩, hcores, hops⟩ := stallAllocate_allocates hr hp ha hst hm
      refine ⟨_, hstall, by rw [hx], by rw [hx], ?_, by rw [hx]; exact hp, by rw [hx], hcores, hops⟩
      rw [hx, grantInsts, List.map_map]
      rfl
    · obtain ⟨fix, k, ⟨b, d, hx⟩, hcores, hops⟩ := capacityAdmit_allocates hr hp ha hst hm
      refine ⟨_, hadmit, by rw [hx], ⟨by rw [hx]; rfl, ?_⟩, by rw [hx]; exact hp, by rw [hx], hcores, hops⟩
      rw [hx, admitInsts, List.map_map]
      rfl
  case deadline =>
    intro r hr
    obtain ⟨hx, hcores, hops, hgates, hcnt⟩ := refused_foldl (m := openOp c x) (r := r) x.step x.asked hr
    have hctx := getCtx_modCtx_of_record (c := c) (f := fun y => { y with asked := [] }) (r := r)
      (s := x.asked.foldl (fun u g => refuseRange (openOp c x) r x.step g u) s) (by rw [show getCtx _ c = _ from hx]; exact hr)
    refine ⟨_, hend.trans (congrArg _ (grantDeadline_of_record hr)), by rw [hctx], rfl, ?_, hcores, hops, hgates, hcnt⟩
    rw [hctx, show getCtx _ c = _ from hx]
    rfl

end Sys2Proof.Machine
end


section
namespace Sys2Proof.Machine
open Sys2Proof

/-! ### A combine whose reads raise a fault -/

/-- A return of one token with one row of one value, which has come back to address 4096. -/
def faultedRec : CtxRec where
  counted := false
  renorm := false
  fallback := false
  fp32Out := false
  mode := 0
  k := 1
  fmtOut := 0
  fmtRet := 0
  group := 0
  stallGate := 0
  units := 0
  tokens := 1
  hidden := 1
  experts := 0
  pool := 0
  layers := 0
  expertDir := 0
  logits := 0
  source := 0
  output := 8192
  book := 0
  rows := 0
  ledger := 0
  expOut := 0
  retArea := 4096

def faultedCtx : Ctx := { record := some faultedRec, returning := true, returned := [(0, 2)] }

/-- The one entry of the book (its valid bit is at byte 19) has its row in a poisoned 64 B unit, at which the next record of
the fault ring goes too. -/
def faultedState : State := { State.reset with
  flt := { base := 4096, ctl := 1 }
  host := [(19, 1)]
  hostPoison := [64]
  mkt := { ctx := [(0, faultedCtx)] } }

/-- The poisoned units of the state that a command answers. -/
def unitsPoisoned : Res → List Nat
  | .next t => t.hostPoison
  | _ => []

/-- The failed read of address 0 raises a fault, and its record clears the poison of the row. -/
theorem faulted_readsEnd : hostPoisoned faultedState 4096 2 = true ∧
    hostPoisoned (readsEnd (.error 0) faultedState) 4096 2 = false := by decide

/-- The row that COMBINE writes is not poisoned: it looks for poison after the record of the failed read is written. -/
theorem faulted_combine : unitsPoisoned (exec (.combine 0 0 (.error 0)) faultedState) = [] := by decide

/-- Refutes O58: the statement looks for poison in the copies before the faults of the reads are raised, the model after. In
`faultedState` the read of another page fails, the record of that fault overwrites the poisoned unit of the row, and the
output row that the statement poisons stays good. -/
theorem not_postingAndCombineComplete : ¬ Obligations.PostingAndCombineComplete := by
  intro h
  obtain ⟨-, -, -, -, hcombine, -⟩ := h faultedState 0 (by decide) (by decide)
  obtain ⟨-, -, -, hrow, -⟩ := hcombine faultedRec 0 (.error 0) (by decide)
  have hstate : unitsPoisoned (exec (.combine 0 0 (.error 0)) faultedState) = unitsPoisoned (.next _) :=
    congrArg unitsPoisoned (hrow (by decide) (by decide) (by decide) (by decide))
  rw [faulted_combine] at hstate
  exact absurd hstate (by decide)

end Sys2Proof.Machine
end
